-- ==== Sys2Proof/Word.lean ====
section
/-!
DEFINITION. The word types of the machine (R3, R28, R43).
-/
namespace Sys2Proof

/-- A register of a strand or of an engine (R28, R46). -/
abbrev Word := BitVec 64

/-- A byte of memory (R3). -/
abbrev Byte := BitVec 8

/-- An instruction word, a ring word or a word of a command stream (R43, R326). -/
abbrev Word32 := BitVec 32

end Sys2Proof
end

