-- ==== Sys2Proof/Config.lean ====
section
/-!
DEFINITION. What the spec leaves to the implementation, and the free values of the model.  A constant without a body
has no value that a proof could see; each is named in the assumption log.
-/
namespace Sys2Proof.Config

/-- The cell of a special function's result when the enclosures of the model do not decide it: a magnitude and an
exponent, for the function's number and its operand (assumption 10). -/
opaque specialCell : Nat → Bool → Nat → Int → Nat × Int

/-- SHA-384 of a byte string, as a number (R362; assumption 7). -/
opaque sha384 : List Byte → Nat

/-- Does the ECDSA P-384 signature verify: key bytes, message bytes, signature bytes (R362; assumption 7)? -/
opaque p384Verify : List Byte → List Byte → List Byte → Bool

/-- The key hash fused at manufacture (R362; assumption 7). -/
opaque fusedKeyHash : Nat

/-- The minimum version fused at manufacture (R362; assumption 7). -/
opaque fusedMinVersion : Nat

/-- The value of an access to a quarantined node, which the manual does not state (R426; assumption 13). -/
opaque freeWord : Nat → Word

/-- Where the device puts a launch frame or a save image, which the manual does not state (R368, R379; assumption 14). -/
opaque freePlace : Nat → Nat

/-- The rings that a kernel image asks for: engine, place of its entry in the Chamber image list, log2 of its size; the manual does
not say how the image tells a `.ring` section from a `.data chamber` one (R440, R441; assumption 16). -/
opaque ringsOf : List Byte → List (Nat × Nat × Nat)

/-- The root tables of the address spaces as firmware sets them up at a boot: ASID, device root, host root with EN; the
manual does not say where they come from (R397; assumption 15). -/
opaque roots : Nat → List (Nat × Word × Word)

/-- The scale code of a block whose largest magnitude lies beyond the code 254, which the manual does not state (R138;
assumption 62). -/
opaque freeScale : Int → Nat

/-- Value y(i) of a Hadamard group of n that COUNT cuts short, which the manual does not state, by the encodings that the group
holds: the FP32 encoding in [31:0], its flags in [38:32] (R140; assumption 60). -/
opaque freeHadamard : Nat → Nat → List Nat → Word

/-- The element, and whether it is inexact, of a finite value in a strata block whose scale is infinite, which the manual does
not state: by sign, magnitude and exponent (R136; assumption 61). -/
opaque freeStrata : Bool → Nat → Int → Nat × Bool

end Sys2Proof.Config
end

