-- ==== Sys2Proof/Machine/Bits.lean ====
section
/-!
DEFINITION. Bit fields, sign extension and byte order (R3, R69).
-/
namespace Sys2Proof.Machine

/-- Bits [lo + n - 1 : lo] of a value (R3). -/
def bits {w : Nat} (x : BitVec w) (lo n : Nat) : BitVec n := x.extractLsb' lo n

/-- Two fields side by side, the first the higher (R44). -/
def cat {m k w : Nat} (x : BitVec m) (y : BitVec k) (h : m + k = w) : BitVec w := (x ++ y).cast h

/-- Bits [lo + n - 1 : lo] of a value as a number. -/
def field {w : Nat} (x : BitVec w) (lo n : Nat) : Nat := (x.extractLsb' lo n).toNat

/-- One bit of a value. -/
def bit {w : Nat} (x : BitVec w) (i : Nat) : Bool := x.getLsbD i

/-- Replace bits [lo + n - 1 : lo] by the low n bits of v. -/
def setField {w : Nat} (x : BitVec w) (lo n : Nat) (v : Nat) : BitVec w :=
  let m : BitVec w := BitVec.ofNat w ((2 ^ n - 1) <<< lo)
  (x &&& ~~~m) ||| (BitVec.ofNat w (v <<< lo) &&& m)

/-- SignExt of R69. -/
def signExt {w : Nat} (x : BitVec w) : Word := x.signExtend 64

/-- ZeroExt of R69. -/
def zeroExt {w : Nat} (x : BitVec w) : Word := x.setWidth 64

/-- The number that a little-endian byte string holds (R3). -/
def leNat : List Byte → Nat
  | [] => 0
  | b :: bs => b.toNat + 256 * leNat bs

/-- A number as n little-endian bytes (R3). -/
def leBytes : Nat → Nat → List Byte
  | 0, _ => []
  | n + 1, v => BitVec.ofNat 8 v :: leBytes n (v / 256)

/-- The 64-bit word that a little-endian byte string holds. -/
def leWord (bs : List Byte) : Word := BitVec.ofNat 64 (leNat bs)

/-- Smallest k with 2^k at or above n; 0 for n at or below 1. -/
def ceilLog2 (n : Nat) : Nat := if n ≤ 1 then 0 else (n - 1).log2 + 1

/-- a divided by b, rounded up. -/
def ceilDiv (a b : Nat) : Nat := (a + b - 1) / b

/-- An integer read as a signed b-bit pattern. -/
def toSigned (b : Nat) (v : Nat) : Int :=
  let m := v % 2 ^ b
  if 2 * m ≥ 2 ^ b then (m : Int) - (2 ^ b : Nat) else (m : Int)

/-- An integer wrapped to an unsigned b-bit pattern. -/
def wrapNat (b : Nat) (v : Int) : Nat := (v % ((2 ^ b : Nat) : Int)).toNat

/-- Number of 1 bits of an n-bit number. -/
def popCount : Nat → Nat → Nat
  | 0, _ => 0
  | n + 1, v => v % 2 + popCount n (v / 2)

/-- The elements of a list at the given place replaced. -/
def setAt {α : Type} (l : List α) (i : Nat) (x : α) : List α := l.set i x

end Sys2Proof.Machine
end

