-- ==== Sys2Proof/Machine/Numbers.lean ====
section
/-!
DEFINITION. Number formats: exact values, rounding, conversions and flags (R123 to R145).

A finite value is a sign, a magnitude and a power of two, so sums and products are exact (R144, R153).
Where an exact result has no finite binary expansion, the magnitude carries one odd bit far below every place
that a rounding looks at, which rounds as the exact result does.
-/
namespace Sys2Proof.Machine

/-- The sticky flags of R91, bits 0 to 6: NV, DZ, OF, UF, NX, SA, TM. -/
abbrev Flags := BitVec 7

namespace Flag
def none : Flags := 0x00#7
def nv : Flags := 0x01#7
def dz : Flags := 0x02#7
def of : Flags := 0x04#7
def uf : Flags := 0x08#7
def nx : Flags := 0x10#7
def sa : Flags := 0x20#7
def tm : Flags := 0x40#7
end Flag

/-- An exact value or special of R145: `fin s m e` is (-1)^s * m * 2^e. -/
inductive Val where
  | nan
  | inf (neg : Bool)
  | fin (neg : Bool) (m : Nat) (e : Int)
deriving DecidableEq, Repr

namespace Val

def zero (neg : Bool) : Val := .fin neg 0 0
def one : Val := .fin false 1 0

def ofInt (i : Int) : Val := .fin (i < 0) i.natAbs 0

def neg : Val → Val
  | .nan => .nan
  | .inf s => .inf (!s)
  | .fin s m e => .fin (!s) m e

def abs : Val → Val
  | .nan => .nan
  | .inf _ => .inf false
  | .fin _ m e => .fin false m e

def isNan : Val → Bool
  | .nan => true
  | _ => false

def isInf : Val → Bool
  | .inf _ => true
  | _ => false

/-- A finite value as an integer multiple of 2^u, for u at or below its exponent. -/
def scaled (s : Bool) (m : Nat) (e u : Int) : Int :=
  let k : Int := ((m * 2 ^ (e - u).toNat : Nat) : Int)
  if s then -k else k

/-- Exact comparison: is a below b?  NaN is below nothing; -0 is below +0 (R154). -/
def lt : Val → Val → Bool
  | .nan, _ => false
  | _, .nan => false
  | .inf s, .inf t => s && !t
  | .inf s, .fin .. => s
  | .fin .., .inf t => !t
  | .fin s m e, .fin t n f =>
    let u := min e f
    let x := scaled s m e u
    let y := scaled t n f u
    if x = y then (m == 0) && s && !t else x < y

/-- Exact order with -0 equal to +0; false when either side is NaN. -/
def ltNum (a b : Val) : Bool :=
  match a, b with
  | .fin s m e, .fin t n f =>
    let u := min e f
    scaled s m e u < scaled t n f u
  | a, b => lt a b

/-- Exact equality of numbers with -0 equal to +0; false when either side is NaN. -/
def eqNum (a b : Val) : Bool :=
  match a, b with
  | .fin s m e, .fin t n f =>
    let u := min e f
    scaled s m e u = scaled t n f u
  | .inf s, .inf t => s == t
  | _, _ => false

/-- Exact product; 0 times infinity is NaN with NV (R132). -/
def mul (a b : Val) : Val × Flags :=
  match a, b with
  | .nan, _ => (.nan, Flag.none)
  | _, .nan => (.nan, Flag.none)
  | .inf s, .inf t => (.inf (s != t), Flag.none)
  | .inf s, .fin t n _ => if n = 0 then (.nan, Flag.nv) else (.inf (s != t), Flag.none)
  | .fin s m _, .inf t => if m = 0 then (.nan, Flag.nv) else (.inf (s != t), Flag.none)
  | .fin s m e, .fin t n f => (.fin (s != t) (m * n) (e + f), Flag.none)

/-- Exact sum; an exact zero from opposite signs is +0, or -0 under `.rdn` (R130); inf - inf is NaN with NV. -/
def add (rm : Nat) (a b : Val) : Val × Flags :=
  match a, b with
  | .nan, _ => (.nan, Flag.none)
  | _, .nan => (.nan, Flag.none)
  | .inf s, .inf t => if s = t then (.inf s, Flag.none) else (.nan, Flag.nv)
  | .inf s, .fin .. => (.inf s, Flag.none)
  | .fin .., .inf t => (.inf t, Flag.none)
  | .fin s m e, .fin t n f =>
    let u := min e f
    let x := scaled s m e u + scaled t n f u
    if x = 0 then
      (if m = 0 ∧ n = 0 ∧ s = t then zero s else if s = t then zero s else zero (rm == 2), Flag.none)
    else (.fin (x < 0) x.natAbs u, Flag.none)

/-- Integer square root by bits: r so far, bits b-1 .. 0 still to try. -/
def isqrtFrom : Nat → Nat → Nat → Nat
  | 0, _, r => r
  | b + 1, n, r =>
    let t := r + 2 ^ b
    isqrtFrom b n (if t * t ≤ n then t else r)

def isqrt (n : Nat) : Nat := isqrtFrom (n.log2 / 2 + 1) n 0

/-- Quotient of magnitudes with an odd last bit when it is inexact. -/
def quot (m : Nat) (e : Int) (n : Nat) (f : Int) : Nat × Int :=
  let k := 96 + n.log2
  let q := m * 2 ^ k / n
  let r := m * 2 ^ k % n
  (2 * q + (if r = 0 then 0 else 1), e - f - k - 1)

/-- a divided by b (R132, R153). -/
def div (a b : Val) : Val × Flags :=
  match a, b with
  | .nan, _ => (.nan, Flag.none)
  | _, .nan => (.nan, Flag.none)
  | .inf _, .inf _ => (.nan, Flag.nv)
  | .inf s, .fin t _ _ => (.inf (s != t), Flag.none)
  | .fin s _ _, .inf t => (zero (s != t), Flag.none)
  | .fin s m e, .fin t n f =>
    if n = 0 then (if m = 0 then (.nan, Flag.nv) else (.inf (s != t), Flag.dz))
    else if m = 0 then (zero (s != t), Flag.none)
    else let q := quot m e n f; (.fin (s != t) q.1 q.2, Flag.none)

/-- Square root; of a negative number NaN with NV; of -0 it is -0 (R153). -/
def sqrt (a : Val) : Val × Flags :=
  match a with
  | .nan => (.nan, Flag.none)
  | .inf s => if s then (.nan, Flag.nv) else (.inf false, Flag.none)
  | .fin s m e =>
    if m = 0 then (zero s, Flag.none)
    else if s then (.nan, Flag.nv)
    else
      let odd : Nat := (e % 2).toNat
      let n := m * 2 ^ (odd + 192)
      let r := isqrt n
      (.fin false (2 * r + (if r * r = n then 0 else 1)) ((e - odd) / 2 - 96 - 1), Flag.none)

end Val

/-- A floating-point format (R125): exponent and mantissa bits, bias, infinities, NaNs, largest finite value
`maxM * 2^maxU`, canonical NaN and whether FTZ concerns it (R127). -/
structure FloatFmt where
  ebits : Nat
  mbits : Nat
  bias : Nat
  hasInf : Bool
  hasNan : Bool
  maxM : Nat
  maxU : Int
  canonNan : Nat
  ftz : Bool

def fp32 : FloatFmt := ⟨8, 23, 127, true, true, 2 ^ 24 - 1, 104, 0x7FC00000, true⟩
def bf16 : FloatFmt := ⟨8, 7, 127, true, true, 2 ^ 8 - 1, 120, 0x7FC0, true⟩
def fp16 : FloatFmt := ⟨5, 10, 15, true, true, 2 ^ 11 - 1, 5, 0x7E00, true⟩
def e4m3 : FloatFmt := ⟨4, 3, 7, false, true, 14, 5, 0x7F, false⟩
def e5m2 : FloatFmt := ⟨5, 2, 15, true, true, 7, 13, 0x7E, false⟩
def e3m2 : FloatFmt := ⟨3, 2, 3, false, false, 7, 2, 0, false⟩
def e2m3 : FloatFmt := ⟨2, 3, 1, false, false, 15, -1, 0, false⟩
def e2m1 : FloatFmt := ⟨2, 1, 1, false, false, 3, 1, 0, false⟩

/-- The floating-point format of a code of R123. -/
def floatFmt : Nat → Option FloatFmt
  | 0 => some fp32
  | 1 => some bf16
  | 2 => some fp16
  | 3 => some e4m3
  | 4 => some e5m2
  | 5 => some e3m2
  | 6 => some e2m3
  | 7 => some e2m1
  | _ => none

/-- Width and signedness of an integer format code (R128). -/
def intFmt : Nat → Option (Nat × Bool)
  | 8 => some (32, true)
  | 9 => some (16, true)
  | 10 => some (8, true)
  | 11 => some (4, true)
  | 12 => some (8, false)
  | _ => none

/-- Element bits of a format code (R123). -/
def fmtBits : Nat → Nat
  | 0 => 32 | 1 => 16 | 2 => 16 | 3 => 8 | 4 => 8 | 5 => 6 | 6 => 6 | 7 => 4
  | 8 => 32 | 9 => 16 | 10 => 8 | 11 => 4 | 12 => 8 | 13 => 8
  | _ => 8

namespace FloatFmt

def width (f : FloatFmt) : Nat := 1 + f.ebits + f.mbits

def signBit (f : FloatFmt) (s : Bool) : Nat := if s then 2 ^ (f.ebits + f.mbits) else 0

/-- Exponent of the smallest normal value. -/
def emin (f : FloatFmt) : Int := 1 - f.bias

/-- The encoding of infinity. -/
def infEnc (f : FloatFmt) (s : Bool) : Nat := f.signBit s + (2 ^ f.ebits - 1) * 2 ^ f.mbits

/-- Encoding of a finite magnitude q * 2^u with q at most 2^(mbits+1), on the format's grid. -/
def encFin (f : FloatFmt) (s : Bool) (q : Nat) (u : Int) : Nat :=
  if q < 2 ^ f.mbits then f.signBit s + q
  else if q = 2 ^ (f.mbits + 1) then f.signBit s + (u + 1 + f.mbits + f.bias).toNat * 2 ^ f.mbits
  else f.signBit s + (u + f.mbits + f.bias).toNat * 2 ^ f.mbits + (q - 2 ^ f.mbits)

def maxEnc (f : FloatFmt) (s : Bool) : Nat := f.encFin s f.maxM f.maxU

/-- The value of an encoding (R125, R126); no flush. -/
def decode (f : FloatFmt) (x : Nat) : Val :=
  let s := (x / 2 ^ (f.ebits + f.mbits)) % 2 == 1
  let ex := (x / 2 ^ f.mbits) % 2 ^ f.ebits
  let m := x % 2 ^ f.mbits
  if f.hasInf && ex == 2 ^ f.ebits - 1 then (if m = 0 then .inf s else .nan)
  else if f.hasNan && !f.hasInf && ex == 2 ^ f.ebits - 1 && m == 2 ^ f.mbits - 1 then .nan
  else if ex = 0 then .fin s m (f.emin - f.mbits)
  else .fin s (2 ^ f.mbits + m) ((ex : Int) - f.bias - f.mbits)

/-- The value of an encoding as an input under FTZ (R127): a subnormal reads as zero with its sign. -/
def decodeFtz (f : FloatFmt) (ftz : Bool) (x : Nat) : Val :=
  if ftz && f.ftz && (x / 2 ^ f.mbits) % 2 ^ f.ebits == 0 then .zero ((x / 2 ^ (f.ebits + f.mbits)) % 2 == 1)
  else f.decode x

end FloatFmt

/-- Does the mode round the magnitude q + r/den up?  `sr` is the 16-bit value of R134. -/
def roundsUp (rm : Nat) (neg : Bool) (q r den sr : Nat) : Bool :=
  if r = 0 then false
  else match rm with
    | 0 => 2 * r > den || (2 * r == den && q % 2 == 1)
    | 1 => false
    | 2 => neg
    | 3 => !neg
    | _ => 2 ^ 16 * r / den + sr ≥ 2 ^ 16

/-- m * 2^e on the grid 2^u: quotient, remainder and the remainder's scale. -/
def onGrid (m : Nat) (e u : Int) : Nat × Nat × Nat :=
  if u ≤ e then (m * 2 ^ (e - u).toNat, 0, 1)
  else let d := 2 ^ (u - e).toNat; (m / d, m % d, d)

/-- Result of an overflow (R131); with `sat` every mode saturates (R138). -/
def overflowTo (f : FloatFmt) (rm : Nat) (neg sat : Bool) : Nat × Flags :=
  if f.hasInf && !sat then
    let toInf := match rm with
      | 1 => false
      | 2 => neg
      | 3 => !neg
      | _ => true
    (if toInf then f.infEnc neg else f.maxEnc neg, Flag.of ||| Flag.nx)
  else (f.maxEnc neg, Flag.sa ||| Flag.nx)

/-- RoundTo for a floating-point destination (R130 to R134, R127). -/
def roundFloat (f : FloatFmt) (rm sr : Nat) (ftz sat : Bool) (x : Val) : Nat × Flags :=
  match x with
  | .nan => if f.hasNan then (f.canonNan, Flag.none) else (0, Flag.nv)
  | .inf s => if f.hasInf && !sat then (f.infEnc s, Flag.none) else (f.maxEnc s, Flag.of ||| Flag.sa)
  | .fin s m e =>
    if m = 0 then (f.signBit s, Flag.none)
    else
      let l : Int := e + m.log2
      let tiny : Bool := l < f.emin
      if ftz && f.ftz && tiny then (f.signBit s, Flag.uf ||| Flag.nx)
      else
        let u : Int := max l f.emin - f.mbits
        let g := onGrid m e u
        let q := if roundsUp rm s g.1 g.2.1 g.2.2 sr then g.1 + 1 else g.1
        if f.maxU < u ∨ (u = f.maxU ∧ f.maxM < q) then overflowTo f rm s sat
        else
          (f.encFin s q u,
            (if g.2.1 = 0 then Flag.none else Flag.nx) ||| (if g.2.1 ≠ 0 ∧ tiny then Flag.uf else Flag.none))

/-- A finite value rounded to an integer, and whether it was inexact. -/
def toIntegral (rm sr : Nat) (s : Bool) (m : Nat) (e : Int) : Int × Bool :=
  let g := onGrid m e 0
  let q := if roundsUp rm s g.1 g.2.1 g.2.2 sr then g.1 + 1 else g.1
  (if s then -(q : Int) else (q : Int), g.2.1 ≠ 0)

/-- RoundTo for an integer destination with the given range (R131, R133). -/
def roundInt (lo hi : Int) (rm sr : Nat) (x : Val) : Int × Flags :=
  match x with
  | .nan => (0, Flag.nv)
  | .inf s => (if s then lo else hi, Flag.nv)
  | .fin s m e =>
    let r := toIntegral rm sr s m e
    if r.1 < lo then (lo, Flag.nv)
    else if hi < r.1 then (hi, Flag.nv)
    else (r.1, if r.2 then Flag.nx else Flag.none)

/-- An integer saturated to a range, with SA when it changes (R133). -/
def satInt (lo hi : Int) (i : Int) : Int × Flags :=
  if i < lo then (lo, Flag.sa) else if hi < i then (hi, Flag.sa) else (i, Flag.none)

/-- Range of a w-bit integer type (R128). -/
def intLo (w : Nat) (signed : Bool) : Int := if signed then -((2 ^ (w - 1) : Nat) : Int) else 0
def intHi (w : Nat) (signed : Bool) : Int := if signed then ((2 ^ (w - 1) : Nat) : Int) - 1 else ((2 ^ w : Nat) : Int) - 1

/-- A w-bit pattern as an integer of the type. -/
def intOf (w : Nat) (signed : Bool) (x : Nat) : Int := if signed then toSigned w x else ((x % 2 ^ w : Nat) : Int)

/-- SrBits of R134. -/
def srBits (seed tag : Word) (idx : Nat) : Nat :=
  let mixOnce (x : Word) : Word := (x ^^^ (x >>> 32)) * 0xD6E8FEB86659FD93#64
  let x := seed + 0x9E3779B97F4A7C15#64 * (tag + 1)
  let x := x ^^^ (BitVec.ofNat 64 idx * 0xD6E8FEB86659FD93#64)
  let x := mixOnce (mixOnce x)
  let x := x ^^^ (x >>> 32)
  (x.extractLsb' 48 16).toNat

/-- StrataV of R136: the value of a strata element read with k planes, times 2^1 so that it is an integer. -/
def strataV2 (x : Int) (k : Nat) : Int :=
  if k ≥ 8 then 2 * x
  else
    let d : Int := ((2 ^ (8 - k) : Nat) : Int)
    2 * ((x / d) * d) + d

/-- The value of an unscaled element under a format code; strata are read with k planes (R125, R128, R136). -/
def elemVal (fmt : Nat) (k : Nat) (ftz : Bool) (x : Nat) : Val :=
  match floatFmt fmt with
  | some f => f.decodeFtz ftz x
  | none =>
    match intFmt fmt with
    | some (w, sg) => Val.ofInt (intOf w sg x)
    | none => let v := strataV2 (toSigned 8 x) k; .fin (v < 0) v.natAbs (-1)

/-- The value of an E8M0 scale code (R137). -/
def e8m0 (c : Nat) : Val := if c = 255 then .nan else .fin false 1 ((c : Int) - 127)

/-- A value times a block scale; a NaN scale makes every element NaN (R137).  A value of 0 under an infinite scale is NaN and sets no flag
(assumption 61). -/
def scaleVal (v s : Val) : Val := (v.mul s).1

/-- One conversion of a value to a non-strata format (R133).  `intSrc` says that the source is an integer. -/
def convert (fmt rm sr : Nat) (ftz intSrc : Bool) (x : Val) : Nat × Flags :=
  match floatFmt fmt with
  | some f => roundFloat f rm sr ftz false x
  | none =>
    match intFmt fmt with
    | some (w, sg) =>
      if intSrc then
        match x with
        | .fin s m e =>
          let r := satInt (intLo w sg) (intHi w sg) (toIntegral 1 0 s m e).1
          (wrapNat w r.1, r.2)
        | _ => (0, Flag.nv)
      else let r := roundInt (intLo w sg) (intHi w sg) rm sr x; (wrapNat w r.1, r.2)
    | none => (0, Flag.none)

/-! ### The block summation rule (R144) -/

/-- Exact sum of finite values on a common grid. -/
def sumFin : List Val → Int → Int
  | [], _ => 0
  | .fin s m e :: xs, u => Val.scaled s m e u + sumFin xs u
  | _ :: xs, u => sumFin xs u

/-- The least exponent of the finite values of a list. -/
def minExp : List Val → Int → Int
  | [], u => u
  | .fin _ _ e :: xs, u => minExp xs (min e u)
  | _ :: xs, u => minExp xs u

/-- The exact sum S of one block of products; specials decide before any finite sum. -/
def blockSum (ps : List (Val × Val)) : Val × Flags :=
  let prods := ps.map fun p => (p.1.mul p.2)
  let vals := prods.map (·.1)
  let nanOperand := ps.any fun p => p.1.isNan || p.2.isNan
  let zeroInf := prods.any fun p => p.2 != Flag.none
  let pInf := vals.any (· == .inf false)
  let nInf := vals.any (· == .inf true)
  let bad := zeroInf || (pInf && nInf)
  let fl := if bad then Flag.nv else Flag.none
  if nanOperand || bad then (.nan, fl)
  else if pInf then (.inf false, fl)
  else if nInf then (.inf true, fl)
  else
    let u := minExp vals 0
    let x := sumFin vals u
    if x = 0 then
      (.zero (!vals.isEmpty && vals.all fun v => match v with
        | .fin s m _ => s && m == 0
        | _ => false), fl)
    else (.fin (x < 0) x.natAbs u, fl)

/-- One block added to the running FP32 accumulator, given by its encoding. -/
def blockStep (ftz : Bool) (hd : Nat) (acc : Nat) (ps : List (Val × Val)) : Nat × Flags :=
  let s := blockSum ps
  let sv := match s.1 with
    | .fin g m e => Val.fin g m (e - hd)
    | v => v
  let t := (fp32.decodeFtz ftz acc).add 0 sv
  let r := roundFloat fp32 0 0 ftz false t.1
  (r.1, s.2 ||| t.2 ||| r.2)

/-- The first n elements of a list and the rest. -/
def splitOff {α : Type} (n : Nat) (l : List α) : List α × List α := (l.take n, l.drop n)

/-- BlockDot over the list of operand pairs; the fuel is the number of blocks. -/
def blockDotAux (ftz : Bool) (hd : Nat) : Nat → Nat → Flags → List (Val × Val) → Nat × Flags
  | 0, acc, fl, _ => (acc, fl)
  | _ + 1, acc, fl, [] => (acc, fl)
  | k + 1, acc, fl, ps =>
    let r := blockStep ftz hd acc (ps.take 32)
    blockDotAux ftz hd k r.1 (fl ||| r.2) (ps.drop 32)

/-- BlockDot(acc, a, b, n, hd) of R144; acc and the result are FP32 encodings. -/
def blockDot (ftz : Bool) (hd : Nat) (acc : Nat) (ps : List (Val × Val)) : Nat × Flags :=
  blockDotAux ftz hd (ps.length / 32 + 1) acc Flag.none ps

/-! ### Saturating sums (R158) -/

/-- Sat32 of R158. -/
def sat32 (i : Int) : Int × Flags := satInt (intLo 32 true) (intHi 32 true) i

/-- Tree of R158 over a list; the fuel bounds the depth. -/
def satTree : Nat → List Int → Int × Flags
  | 0, xs => (xs.headD 0, Flag.none)
  | k + 1, xs =>
    if xs.length ≤ 1 then (xs.headD 0, Flag.none)
    else
      let m := 2 ^ (ceilLog2 xs.length - 1)
      let a := satTree k (xs.take m)
      let b := satTree k (xs.drop m)
      let r := sat32 (a.1 + b.1)
      (r.1, a.2 ||| b.2 ||| r.2)

/-- The whole saturating reduction of a row with the old destination d. -/
def satReduce (d : Int) (xs : List Int) : Int × Flags :=
  let t := satTree 17 xs
  let r := sat32 (d + t.1)
  (r.1, t.2 ||| r.2)

/-! ### Hadamard, block scales, trailers (R136 to R141) -/

/-- Exact sum of a list of values as one value; an exact zero is +0 unless all are -0. -/
def sumVals (xs : List Val) : Val × Flags := blockSum (xs.map fun v => (v, Val.one))

/-- Hadamard(n, group) of R140: each sum rounded once, RNE, to FP32. -/
def hadamard (n : Nat) (ftz : Bool) (xs : List Val) : List (Val × Flags) :=
  (List.range n).map fun i =>
    let s := sumVals (xs.zipIdx.map fun p => if popCount 6 (Nat.land i p.2) % 2 = 1 then p.1.neg else p.1)
    let r := roundFloat fp32 0 0 ftz false s.1
    (fp32.decode r.1, s.2 ||| r.2)

/-- Largest finite magnitude of a block. -/
def maxFinite (xs : List Val) : Val :=
  xs.foldl (fun a v => match v with
    | .fin _ m e => if a.ltNum (.fin false m e) then .fin false m e else a
    | _ => a) (.zero false)

/-- emax of R138 for a format code. -/
def blockEmax : Nat → Int
  | 3 => 8 | 4 => 15 | 5 => 4 | 6 => 2 | _ => 2

/-- BlockScale of R138: the E8M0 code of a block; one that the code 254 does not reach has a free code (assumption 62). -/
def blockScale (fmt : Nat) (xs : List Val) : Nat :=
  if xs.any Val.isNan then 255
  else match maxFinite xs with
    | .fin _ m e =>
      let c := max 0 (e + m.log2 - blockEmax fmt + 127)
      if m = 0 then 127 else if 254 < c then Config.freeScale c % 256 else c.toNat
    | _ => 127

/-- The BF16 encoding of the block scale of a strata block (R136). -/
def strataScale (xs : List Val) : Nat :=
  match maxFinite xs with
  | .fin _ m e =>
    if m = 0 then 0x3F80
    else
      let q := Val.quot m e 127 0
      let r := (roundFloat bf16 0 0 false false (.fin false q.1 q.2)).1
      if r = 0 then 1 else r
  | _ => 0x3F80

/-- One element of a blocked destination (R138): encoding, flags, saturation count, NaN count.
`allZero` says that A of R138 is 0. -/
def blockElem (fmt c rm sr : Nat) (allZero : Bool) (x : Val) : Nat × Flags × Nat × Nat :=
  match floatFmt fmt with
  | none => (0, Flag.none, 0, 0)
  | some f =>
    if c = 255 then
      (if f.hasNan then f.canonNan else 0, Flag.none, 0, if x.isNan then 1 else 0)
    else match x with
      | .nan => (0, Flag.none, 0, 1)
      | .inf s => (f.maxEnc s, Flag.of, 1, 0)
      | .fin s m e =>
        if m = 0 then (if allZero then 0 else f.signBit s, Flag.none, 0, 0)
        else
          let r := roundFloat f rm sr false true (.fin s m (e + 127 - c))
          (r.1, r.2, if r.2 &&& Flag.sa = Flag.none then 0 else 1, 0)

/-- One element of a strata destination (R136): byte, flags, saturation count, NaN count.  Under an infinite scale a finite value
has a free element (assumption 61). -/
def strataElem (scale rm sr : Nat) (x : Val) : Nat × Flags × Nat × Nat :=
  match x with
  | .nan => (0, Flag.nv, 0, 1)
  | .inf s => (if s then 0x80 else 127, Flag.of ||| Flag.sa, 1, 0)
  | .fin s m e =>
    if m = 0 then (0, Flag.none, 0, 0)
    else match bf16.decode scale with
      | .fin _ n f =>
        let q := Val.quot m e n f
        let r := toIntegral rm sr s q.1 q.2
        let t := satInt (-128) 127 r.1
        let sat := t.2 != Flag.none
        (wrapNat 8 t.1, t.2 ||| (if r.2 || sat then Flag.nx else Flag.none), if sat then 1 else 0, 0)
      | _ =>
        let r := Config.freeStrata s m e
        (r.1 % 256, if r.2 then Flag.nx else Flag.none, 0, 0)

/-- One step of the reflected CRC-32C of R141 over a bit. -/
def crcBit : Nat → Word32 → Word32
  | 0, c => c
  | k + 1, c => crcBit k (if c.getLsbD 0 then (c >>> 1) ^^^ 0x82F63B78#32 else c >>> 1)

/-- The running register over more bytes, before the final xor. -/
def crcRun (c : Word32) (bs : List Byte) : Word32 :=
  bs.foldl (fun c b => crcBit 8 (c ^^^ b.setWidth 32)) c

/-- Crc32c of R141. -/
def crc32c (bs : List Byte) : Word32 := ~~~(crcRun 0xFFFFFFFF#32 bs)

end Sys2Proof.Machine
end

