-- ==== Sys2Proof/Syntax.lean ====
section
/-!
DEFINITION. The instruction set, whole: one constructor for each row of the table of operations and events.

Strand words, ring command words and Cricket words carry the fields of their encoding (chapters 03, 12, 14, 20).
A packet carries its body words (R326).  A row without an encoding is an action of an agent or of the outside: what
comes with it stands in the state (`State.input`), but for an engine, a pin entry, a value written to a register or a
word.  Rows with operands stand first, then the rows without.
-/
namespace Sys2Proof

/-- One constructor per row of the table; the comment gives the rule of spec/. -/
inductive Instr where
  | bt (c : BitVec 6) (o : BitVec 18)                          -- R79
  | bf (c : BitVec 6) (o : BitVec 18)                          -- R79
  | call (c : BitVec 6) (o : BitVec 18)                        -- R79
  | jr (a : BitVec 6)                                          -- R79
  | lbeg (r : BitVec 1) (l : BitVec 3) (a : BitVec 6) (i : BitVec 12) -- R82
  | lend (l : BitVec 3) (o : BitVec 18)                        -- R82
  | add (e : BitVec 1) (d : BitVec 6) (a : BitVec 6) (b : BitVec 6) -- R71
  | sub (e : BitVec 1) (d : BitVec 6) (a : BitVec 6) (b : BitVec 6) -- R71
  | and (e : BitVec 1) (d : BitVec 6) (a : BitVec 6) (b : BitVec 6) -- R71
  | or (e : BitVec 1) (d : BitVec 6) (a : BitVec 6) (b : BitVec 6) -- R71
  | xor (e : BitVec 1) (d : BitVec 6) (a : BitVec 6) (b : BitVec 6) -- R71
  | andn (e : BitVec 1) (d : BitVec 6) (a : BitVec 6) (b : BitVec 6) -- R71
  | shl (e : BitVec 1) (d : BitVec 6) (a : BitVec 6) (b : BitVec 6) -- R71
  | shr (e : BitVec 1) (d : BitVec 6) (a : BitVec 6) (b : BitVec 6) -- R71
  | sra (e : BitVec 1) (d : BitVec 6) (a : BitVec 6) (b : BitVec 6) -- R71
  | min (e : BitVec 1) (d : BitVec 6) (a : BitVec 6) (b : BitVec 6) -- R71
  | max (e : BitVec 1) (d : BitVec 6) (a : BitVec 6) (b : BitVec 6) -- R71
  | minu (e : BitVec 1) (d : BitVec 6) (a : BitVec 6) (b : BitVec 6) -- R71
  | maxu (e : BitVec 1) (d : BitVec 6) (a : BitVec 6) (b : BitVec 6) -- R71
  | mul (e : BitVec 1) (d : BitVec 6) (a : BitVec 6) (b : BitVec 6) -- R71
  | mulh (e : BitVec 1) (d : BitVec 6) (a : BitVec 6) (b : BitVec 6) -- R71
  | mulhu (e : BitVec 1) (d : BitVec 6) (a : BitVec 6) (b : BitVec 6) -- R71
  | adds (e : BitVec 1) (d : BitVec 6) (a : BitVec 6) (b : BitVec 6) -- R71
  | subs (e : BitVec 1) (d : BitVec 6) (a : BitVec 6) (b : BitVec 6) -- R71
  | addus (e : BitVec 1) (d : BitVec 6) (a : BitVec 6) (b : BitVec 6) -- R71
  | subus (e : BitVec 1) (d : BitVec 6) (a : BitVec 6) (b : BitVec 6) -- R71
  | sextb (e : BitVec 1) (d : BitVec 6) (a : BitVec 6)         -- R71
  | sexth (e : BitVec 1) (d : BitVec 6) (a : BitVec 6)         -- R71
  | sextw (e : BitVec 1) (d : BitVec 6) (a : BitVec 6)         -- R71
  | clz (e : BitVec 1) (d : BitVec 6) (a : BitVec 6)           -- R71
  | popc (e : BitVec 1) (d : BitVec 6) (a : BitVec 6)          -- R71
  | addi (e : BitVec 1) (d : BitVec 6) (a : BitVec 6) (i : BitVec 12) -- R71
  | andi (e : BitVec 1) (d : BitVec 6) (a : BitVec 6) (i : BitVec 12) -- R71
  | ori (e : BitVec 1) (d : BitVec 6) (a : BitVec 6) (i : BitVec 12) -- R71
  | xori (e : BitVec 1) (d : BitVec 6) (a : BitVec 6) (i : BitVec 12) -- R71
  | shli (e : BitVec 1) (d : BitVec 6) (a : BitVec 6) (n : BitVec 6) -- R71
  | shri (e : BitVec 1) (d : BitVec 6) (a : BitVec 6) (n : BitVec 6) -- R71
  | srai (e : BitVec 1) (d : BitVec 6) (a : BitVec 6) (n : BitVec 6) -- R71
  | mini (e : BitVec 1) (d : BitVec 6) (a : BitVec 6) (i : BitVec 12) -- R71
  | maxi (e : BitVec 1) (d : BitVec 6) (a : BitVec 6) (i : BitVec 12) -- R71
  | cmp (e : BitVec 1) (d : BitVec 6) (a : BitVec 6) (b : BitVec 6) (c : BitVec 3) -- R74
  | cmpi (e : BitVec 1) (d : BitVec 6) (a : BitVec 6) (c : BitVec 3) (i : BitVec 9) -- R74
  | pand (e : BitVec 1) (d : BitVec 6) (a : BitVec 6) (b : BitVec 6) -- R76
  | por (e : BitVec 1) (d : BitVec 6) (a : BitVec 6) (b : BitVec 6) -- R76
  | pxor (e : BitVec 1) (d : BitVec 6) (a : BitVec 6) (b : BitVec 6) -- R76
  | pandn (e : BitVec 1) (d : BitVec 6) (a : BitVec 6) (b : BitVec 6) -- R76
  | pnot (e : BitVec 1) (d : BitVec 6) (a : BitVec 6)          -- R76
  | ldp (e : BitVec 1) (d : BitVec 6) (o : BitVec 18)          -- R77
  | sgwait (s : BitVec 6) (w : BitVec 4)                       -- R87
  | sgraise (s : BitVec 6)                                     -- R87
  | repN (e : BitVec 1) (n : BitVec 20)                        -- R83
  | repReg (e : BitVec 1) (c : BitVec 6)                       -- R83
  | accessPrefix (c : BitVec 4) (a : BitVec 1) (l : BitVec 1) (s : BitVec 3) (v : BitVec 1) (p : BitVec 2) (z : BitVec 1) -- R51
  | hint (e : BitVec 1) (x : BitVec 24)                        -- R67
  | ldl (z : BitVec 2) (s : BitVec 4) (a : BitVec 6) (r : BitVec 1) (o : BitVec 10) -- R102
  | stl (z : BitVec 2) (s : BitVec 4) (a : BitVec 6) (r : BitVec 1) (o : BitVec 10) -- R102
  | ldc (d : BitVec 6) (b : BitVec 6) (z : BitVec 2) (p : BitVec 1) (w : BitVec 4) (i : BitVec 5) -- R103
  | stc (d : BitVec 6) (b : BitVec 6) (z : BitVec 2) (p : BitVec 1) (w : BitVec 4) (i : BitVec 5) -- R103
  | ldcx (d : BitVec 6) (b : BitVec 6) (z : BitVec 2) (w : BitVec 4) (x : BitVec 5) -- R103
  | stcx (d : BitVec 6) (b : BitVec 6) (z : BitVec 2) (w : BitVec 4) (x : BitVec 5) -- R103
  | ldg (d : BitVec 6) (b : BitVec 6) (z : BitVec 2) (f : BitVec 1) (w : BitVec 4) (i : BitVec 5) -- R105
  | stg (d : BitVec 6) (b : BitVec 6) (z : BitVec 2) (f : BitVec 1) (w : BitVec 4) (i : BitVec 5) -- R105
  | ldo (d : BitVec 6) (b : BitVec 6) (z : BitVec 2) (w : BitVec 4) (i : BitVec 5) -- R106
  | sto (d : BitVec 6) (b : BitVec 6) (z : BitVec 2) (w : BitVec 4) (i : BitVec 5) -- R106
  | ldd (d : BitVec 6) (h : BitVec 1) (x : BitVec 5) (l : BitVec 3) (w : BitVec 4) (i : BitVec 5) -- R107
  | lddQ (q : BitVec 3) (p : BitVec 2) (z : BitVec 1) (h : BitVec 1) (x : BitVec 5) (l : BitVec 3) (w : BitVec 4) (i : BitVec 5) -- R107
  | std (d : BitVec 6) (h : BitVec 1) (x : BitVec 5) (l : BitVec 3) (w : BitVec 4) (i : BitVec 5) -- R107
  | ldh (d : BitVec 6) (a : BitVec 6) (w : BitVec 4)           -- R107
  | ldhQ (q : BitVec 3) (p : BitVec 2) (z : BitVec 1) (a : BitVec 6) (w : BitVec 4) -- R107
  | sth (d : BitVec 6) (a : BitVec 6) (w : BitVec 4)           -- R107
  | amoAdd (d : BitVec 6) (a : BitVec 6) (b : BitVec 6) (s : BitVec 2) -- R112
  | amoAnd (d : BitVec 6) (a : BitVec 6) (b : BitVec 6) (s : BitVec 2) -- R112
  | amoOr (d : BitVec 6) (a : BitVec 6) (b : BitVec 6) (s : BitVec 2) -- R112
  | amoXor (d : BitVec 6) (a : BitVec 6) (b : BitVec 6) (s : BitVec 2) -- R112
  | amoSmax (d : BitVec 6) (a : BitVec 6) (b : BitVec 6) (s : BitVec 2) -- R112
  | amoSmin (d : BitVec 6) (a : BitVec 6) (b : BitVec 6) (s : BitVec 2) -- R112
  | amoUmax (d : BitVec 6) (a : BitVec 6) (b : BitVec 6) (s : BitVec 2) -- R112
  | amoUmin (d : BitVec 6) (a : BitVec 6) (b : BitVec 6) (s : BitVec 2) -- R112
  | amoSwap (d : BitVec 6) (a : BitVec 6) (b : BitVec 6) (s : BitVec 2) -- R112
  | amoCas (d : BitVec 6) (a : BitVec 6) (b : BitVec 6) (s : BitVec 2) -- R112
  | waita (d : BitVec 6) (a : BitVec 6) (m : BitVec 3) (w : BitVec 4) -- R114
  | facq (s : BitVec 3)                                        -- R318
  | frel (s : BitVec 3)                                        -- R317
  | facqrel (s : BitVec 3)                                     -- R319
  | cinv (a : BitVec 6) (b : BitVec 6)                         -- R113
  | dcfence (a : BitVec 6) (b : BitVec 6)                      -- R322
  | sbaseD (s : BitVec 4) (h : BitVec 1) (x : BitVec 5) (l : BitVec 3) (i : BitVec 5) -- R120
  | sbase (s : BitVec 4) (a : BitVec 6) (i : BitVec 12)        -- R120
  | sld (s : BitVec 4) (a : BitVec 6) (w : BitVec 4) (i : BitVec 5) -- R120
  | sst (s : BitVec 4) (a : BitVec 6) (w : BitVec 4) (i : BitVec 5) -- R120
  | sset (s : BitVec 4) (a : BitVec 6) (k : BitVec 2)          -- R120
  | sget (d : BitVec 6) (s : BitVec 4) (k : BitVec 2)          -- R120
  | xpop (d : BitVec 6) (w : BitVec 4)                         -- R167
  | xpush (a : BitVec 6) (w : BitVec 4)                        -- R167
  | cvt (d : BitVec 6) (a : BitVec 6) (r : BitVec 3) (t : BitVec 3) (s : BitVec 3) -- R166
  | vadd (d : BitVec 4) (a : BitVec 4) (b : BitVec 4) (f : BitVec 4) (r : BitVec 3) -- R153
  | vsub (d : BitVec 4) (a : BitVec 4) (b : BitVec 4) (f : BitVec 4) (r : BitVec 3) -- R153
  | vmul (d : BitVec 4) (a : BitVec 4) (b : BitVec 4) (f : BitVec 4) (r : BitVec 3) -- R153
  | vfma (d : BitVec 4) (a : BitVec 4) (b : BitVec 4) (f : BitVec 4) (r : BitVec 3) -- R153
  | vdiv (d : BitVec 4) (a : BitVec 4) (b : BitVec 4) (f : BitVec 4) (r : BitVec 3) -- R153
  | vsqrt (d : BitVec 4) (a : BitVec 4) (f : BitVec 4) (r : BitVec 3) -- R153
  | vneg (d : BitVec 4) (a : BitVec 4) (f : BitVec 4) (r : BitVec 3) -- R153
  | vabs (d : BitVec 4) (a : BitVec 4) (f : BitVec 4) (r : BitVec 3) -- R153
  | vmin (d : BitVec 4) (a : BitVec 4) (b : BitVec 4) (f : BitVec 4) (r : BitVec 3) -- R154
  | vmax (d : BitVec 4) (a : BitVec 4) (b : BitVec 4) (f : BitVec 4) (r : BitVec 3) -- R154
  | vmov (d : BitVec 4) (a : BitVec 4) (f : BitVec 4) (r : BitVec 3) -- R153
  | vadds (d : BitVec 4) (a : BitVec 4) (b : BitVec 4) (f : BitVec 4) (r : BitVec 3) -- R153
  | vsubs (d : BitVec 4) (a : BitVec 4) (b : BitVec 4) (f : BitVec 4) (r : BitVec 3) -- R153
  | vand (d : BitVec 4) (a : BitVec 4) (b : BitVec 4) (f : BitVec 4) (r : BitVec 3) -- R152
  | vor (d : BitVec 4) (a : BitVec 4) (b : BitVec 4) (f : BitVec 4) (r : BitVec 3) -- R152
  | vxor (d : BitVec 4) (a : BitVec 4) (b : BitVec 4) (f : BitVec 4) (r : BitVec 3) -- R152
  | vshl (d : BitVec 4) (a : BitVec 4) (b : BitVec 4) (f : BitVec 4) (r : BitVec 3) -- R155
  | vshr (d : BitVec 4) (a : BitVec 4) (b : BitVec 4) (f : BitVec 4) (r : BitVec 3) -- R155
  | vsra (d : BitVec 4) (a : BitVec 4) (b : BitVec 4) (f : BitVec 4) (r : BitVec 3) -- R155
  | vexp (d : BitVec 4) (a : BitVec 4) (f : BitVec 4) (r : BitVec 3) -- R156
  | vlog (d : BitVec 4) (a : BitVec 4) (f : BitVec 4) (r : BitVec 3) -- R156
  | vrsqrt (d : BitVec 4) (a : BitVec 4) (f : BitVec 4) (r : BitVec 3) -- R156
  | vtanh (d : BitVec 4) (a : BitVec 4) (f : BitVec 4) (r : BitVec 3) -- R156
  | vsigm (d : BitVec 4) (a : BitVec 4) (f : BitVec 4) (r : BitVec 3) -- R156
  | vrsum (d : BitVec 4) (a : BitVec 4) (f : BitVec 4)         -- R157
  | vdot (d : BitVec 4) (a : BitVec 4) (b : BitVec 4) (f : BitVec 4) -- R157
  | vrmax (d : BitVec 4) (a : BitVec 4) (f : BitVec 4)         -- R157
  | vrmin (d : BitVec 4) (a : BitVec 4) (f : BitVec 4)         -- R157
  | vrsums (d : BitVec 4) (a : BitVec 4) (f : BitVec 4)        -- R158
  | vdots (d : BitVec 4) (a : BitVec 4) (b : BitVec 4) (f : BitVec 4) -- R158
  | vcvt (d : BitVec 4) (a : BitVec 4) (f : BitVec 4) (r : BitVec 3) -- R160
  | vcvtH16 (d : BitVec 4) (a : BitVec 4) (f : BitVec 4) (r : BitVec 3) -- R160
  | vcvtH32 (d : BitVec 4) (a : BitVec 4) (f : BitVec 4) (r : BitVec 3) -- R160
  | vsign (d : BitVec 4) (a : BitVec 4) (f : BitVec 4) (r : BitVec 3) -- R187
  | vcmpgt (d : BitVec 4) (a : BitVec 4) (b : BitVec 4) (f : BitVec 4) (r : BitVec 3) -- R187
  | vcmpge (d : BitVec 4) (a : BitVec 4) (b : BitVec 4) (f : BitVec 4) (r : BitVec 3) -- R187
  | vcmpeq (d : BitVec 4) (a : BitVec 4) (b : BitVec 4) (f : BitVec 4) (r : BitVec 3) -- R187
  | vthr (d : BitVec 4) (a : BitVec 4) (b : BitVec 4) (f : BitVec 4) (r : BitVec 3) -- R187
  | vargmax (d : BitVec 4) (a : BitVec 4) (f : BitVec 4) (r : BitVec 3) -- R188
  | vargmin (d : BitVec 4) (a : BitVec 4) (f : BitVec 4) (r : BitVec 3) -- R188
  | vtopk (d : BitVec 4) (a : BitVec 4) (f : BitVec 4) (r : BitVec 3) -- R188
  | mmz (t : BitVec 6) (a : BitVec 6) (b : BitVec 6)           -- R245
  | mma (t : BitVec 6) (a : BitVec 6) (b : BitVec 6)           -- R245
  | mdr (t : BitVec 6) (a : BitVec 6) (b : BitVec 6)           -- R245
  | mxz (t : BitVec 6) (a : BitVec 6) (b : BitVec 6)           -- R259
  | mxa (t : BitVec 6) (a : BitVec 6) (b : BitVec 6)           -- R259
  | mld (t : BitVec 6) (a : BitVec 6) (b : BitVec 6)           -- R259
  | seg (a : BitVec 6) (b : BitVec 6)                          -- R265
  | mxzHd16 (t : BitVec 6) (a : BitVec 6) (b : BitVec 6)       -- R259
  | mxaHd16 (t : BitVec 6) (a : BitVec 6) (b : BitVec 6)       -- R259
  | tget (d : BitVec 6) (a : BitVec 6)                         -- R258
  | tput (a : BitVec 6) (b : BitVec 6)                         -- R258
  | tkill (t : BitVec 6)                                       -- R258
  | mxzHd32 (t : BitVec 6) (a : BitVec 6) (b : BitVec 6)       -- R259
  | mxaHd32 (t : BitVec 6) (a : BitVec 6) (b : BitVec 6)       -- R259
  | copy (a : BitVec 6) (b : BitVec 6) (n : BitVec 1)          -- R238
  | cnv (r : BitVec 3) (a : BitVec 6) (b : BitVec 6)           -- R161
  | cnvH16 (r : BitVec 3) (a : BitVec 6) (b : BitVec 6)        -- R161
  | cnvH32 (r : BitVec 3) (a : BitVec 6) (b : BitVec 6)        -- R161
  | nbmv (d : BitVec 6) (a : BitVec 6) (b : BitVec 6) (k : BitVec 3) -- R199
  | nbmva (d : BitVec 6) (a : BitVec 6) (b : BitVec 6) (k : BitVec 3) -- R199
  | wqe (a : BitVec 6) (b : BitVec 6)                          -- R291
  | rapp (n : BitVec 3) (a : BitVec 6) (w : BitVec 4)          -- R59
  | publ (d : BitVec 6) (a : BitVec 6) (b : BitVec 6)          -- R228
  | pull (d : BitVec 6) (a : BitVec 6) (b : BitVec 6)          -- R229
  | decl (a : BitVec 6)                                        -- R210
  | ljoin (a : BitVec 6) (b : BitVec 6) (r : BitVec 4)         -- R280
  | linc (a : BitVec 6) (b : BitVec 6) (r : BitVec 4)          -- R247
  | lst (a : BitVec 6) (b : BitVec 6) (r : BitVec 4)           -- R280
  | lld (d : BitVec 6) (a : BitVec 6) (r : BitVec 4)           -- R281
  | lldt (d : BitVec 6) (b : BitVec 6) (w : BitVec 4) (r : BitVec 4) -- R282
  | csrr (d : BitVec 6) (n : BitVec 12)                        -- R89
  | csrw (a : BitVec 6) (n : BitVec 12)                        -- R89
  | trap (n : BitVec 12)                                       -- R93
  | mmzCmd (x : BitVec 1) (t : BitVec 6) (b : BitVec 18)       -- R246
  | mmaCmd (x : BitVec 1) (t : BitVec 6) (b : BitVec 18)       -- R246
  | mdrCmd (x : BitVec 1) (t : BitVec 6) (b : BitVec 18)       -- R246
  | mxzCmd (x : BitVec 1) (t : BitVec 6) (h : BitVec 2) (o : BitVec 16) -- R261
  | mxaCmd (x : BitVec 1) (t : BitVec 6) (h : BitVec 2) (o : BitVec 16) -- R261
  | mldCmd (x : BitVec 1) (t : BitVec 6) (b : BitVec 18)       -- R261
  | segCmd (x : BitVec 1) (b : BitVec 18)                      -- R265
  | cpq (x : BitVec 1) (b : BitVec 18)                         -- R241
  | cvq (x : BitVec 1) (h : BitVec 2) (r : BitVec 3) (b : BitVec 18) -- R163
  | nbq (x : BitVec 1) (r : BitVec 24)                         -- R202
  | wqeCmd (x : BitVec 1) (b : BitVec 18)                      -- R294
  | illegalCommand (n : BitVec 3)                              -- R68
  | engineSyncWaitDone (n : BitVec 3)                          -- R37
  | engineCommandComplete (n : BitVec 3)                       -- R37
  | nbPassStart (st : BitVec 3)                                -- R204
  | nbPassComplete (st : BitVec 3)                             -- R204
  | blockEnd (e : BitVec 1)                                    -- R24
  | progressTrap (e : BitVec 1)                                -- R41
  | ringcfgWrite (n : BitVec 3) (v : BitVec 64)                -- R35
  | pinopExtend (i : BitVec 4) (dl : BitVec 32)                -- R223
  | pinopForceRelease (i : BitVec 4)                           -- R223
  | pinopRepublish (i : BitVec 4) (dl : BitVec 32)             -- R223
  | pinDeadlineExpiry (i : BitVec 4)                           -- R220
  | pswinWrite (v : BitVec 64)                                 -- R232
  | psrateWrite (v : BitVec 64)                                -- R232
  | rgctlInstallRegion (v : BitVec 64)                         -- R276
  | rgctlRetireRegion (v : BitVec 64)                          -- R276
  | rgctlInstallSchedule (v : BitVec 64)                       -- R285
  | apctlInstall (v : BitVec 64)                               -- R302
  | apctlRetire (v : BitVec 64)                                -- R302
  | tqctlConfigure (v : BitVec 64)                             -- R370
  | tqctlDisable (v : BitVec 64)                               -- R370
  | tlbopInvalidateVa (v : BitVec 64)                          -- R406
  | tlbopInvalidateAsid (v : BitVec 64)                        -- R406
  | tlbopInvalidateAll (v : BitVec 64)                         -- R406
  | ualpeerQuery (v : BitVec 64)                               -- R427
  | ualpeerRelease (v : BitVec 64)                             -- R427
  | pktNop (body : List (BitVec 32))                           -- R337
  | pktWrite (body : List (BitVec 32))                         -- R328
  | pktWriteAdd (body : List (BitVec 32))                      -- R328
  | pktWaitmem (sub : BitVec 8) (body : List (BitVec 32))      -- R338
  | pktCond (sub : BitVec 8) (body : List (BitVec 32))         -- R328
  | pktIb (body : List (BitVec 32))                            -- R329
  | pktLoop (body : List (BitVec 32))                          -- R329
  | pktLoadslot (body : List (BitVec 32))                      -- R345
  | pktEvictslot (body : List (BitVec 32))                     -- R346
  | pktInvoke (body : List (BitVec 32))                        -- R331
  | pktEvent (body : List (BitVec 32))                         -- R337
  | pktSummary (body : List (BitVec 32))                       -- R350
  | pktQcbSh (body : List (BitVec 32))                         -- R361
  | pktQcbCommit (body : List (BitVec 32))                     -- R361
  | pktQcbRead (body : List (BitVec 32))                       -- R361
  | cricketHalt (c : BitVec 16) (v : BitVec 2)                 -- R342
  | cricketLi (d : BitVec 3) (i : BitVec 20)                   -- R342
  | cricketLhi (d : BitVec 3) (i : BitVec 16)                  -- R342
  | cricketAdd (d : BitVec 3) (a : BitVec 3) (b : BitVec 3)    -- R342
  | cricketSub (d : BitVec 3) (a : BitVec 3) (b : BitVec 3)    -- R342
  | cricketAnd (d : BitVec 3) (a : BitVec 3) (b : BitVec 3)    -- R342
  | cricketOr (d : BitVec 3) (a : BitVec 3) (b : BitVec 3)     -- R342
  | cricketXor (d : BitVec 3) (a : BitVec 3) (b : BitVec 3)    -- R342
  | cricketSltu (d : BitVec 3) (a : BitVec 3) (b : BitVec 3)   -- R342
  | cricketAddi (d : BitVec 3) (a : BitVec 3) (i : BitVec 20)  -- R342
  | cricketShli (d : BitVec 3) (a : BitVec 3) (n : BitVec 5)   -- R342
  | cricketShri (d : BitVec 3) (a : BitVec 3) (n : BitVec 5)   -- R342
  | cricketPkt (d : BitVec 3) (n : BitVec 10)                  -- R342
  | cricketSetpkt (a : BitVec 3) (n : BitVec 10)               -- R342
  | cricketLd (d : BitVec 3) (w : BitVec 2) (o : BitVec 12)    -- R342
  | cricketSt (a : BitVec 3) (w : BitVec 2) (o : BitVec 12)    -- R342
  | cricketLdr (d : BitVec 3) (a : BitVec 3) (w : BitVec 2)    -- R342
  | cricketStr (a : BitVec 3) (b : BitVec 3) (w : BitVec 2)    -- R342
  | cricketBz (a : BitVec 3) (o : BitVec 20)                   -- R342
  | cricketBnz (a : BitVec 3) (o : BitVec 20)                  -- R342
  | cricketLoop (n : BitVec 8) (l : BitVec 12)                 -- R342
  | illegalInstruction (w : BitVec 32)                         -- R66
  | notAPacket (h : BitVec 32)                                 -- R326
  | waitaWake                                                  -- R115
  | waitaBoundWake                                             -- R114
  | chainB                                                     -- R179
  | chainE                                                     -- R182
  | pfence                                                     -- R230
  | halt                                                       -- R96
  | tfence                                                     -- R94
  | yield                                                      -- R95
  | yieldp                                                     -- R95
  | haltComplete                                               -- R96
  | segmentCountOverrun                                        -- R268
  | wqeIssue                                                   -- R294
  | workSignalArrival                                          -- R295
  | wqeCompletion                                              -- R297
  | leaseGrant                                                 -- R254
  | leaseIdleExpiry                                            -- R253
  | storePerform                                               -- R311
  | l1Writeback                                                -- R314
  | l1Drop                                                     -- R314
  | scratchCopyDrop                                            -- R313
  | queueEntryFill                                             -- R21
  | loadDataReturn                                             -- R382
  | trapDelivery                                               -- R389
  | shretRetry                                                 -- R391
  | shretSkip                                                  -- R391
  | shretFail                                                  -- R391
  | shadowFault                                                -- R392
  | aflagsWrite                                                -- R91
  | noticeDelivery                                             -- R216
  | pullRequestIssue                                           -- R231
  | pullRequestArrival                                         -- R220
  | pullServed                                                 -- R220
  | declineArrival                                             -- R220
  | pullUnitLanding                                            -- R299
  | routeAck                                                   -- R234
  | pullCompletion                                             -- R236
  | exchangeRoundStart                                         -- R286
  | exchangeMerge                                              -- R286
  | apertureRead                                               -- R303
  | launchExpand                                               -- R367
  | recordSelect                                               -- R371
  | gangStart                                                  -- R374
  | preloadLoad                                                -- R377
  | preloadActivate                                            -- R32
  | preemptRequest                                             -- R373
  | deadlineExpiry                                             -- R378
  | strandSave                                                 -- R378
  | savedBankWrite                                             -- R378
  | strandRestore                                              -- R380
  | invocationReplay                                           -- R349
  | invocationFail                                             -- R348
  | strandStateError                                           -- R412
  | queueDoorbell                                              -- R334
  | waitmemTimeout                                             -- R338
  | pktFence                                                   -- R339
  | pktFfence                                                  -- R330
  | cricketBudgetExceeded                                      -- R343
  | qcbShadowWrite                                             -- R354
  | qcbCommit                                                  -- R356
  | watchdogRollback                                           -- R358
  | mboxSummary                                                -- R363
  | mboxStage                                                  -- R363
  | mboxVerifyWrite                                            -- R363
  | mboxResetBoot                                              -- R363
  | hubReset                                                   -- R362
  | functionReady                                              -- R429
  | hostMemRead                                                -- R421
  | hostMemWrite                                               -- R314
  | hostCacheInvalidate                                        -- R314
  | inboundRead                                                -- R424
  | inboundWrite                                               -- R425
  | inboundAtomic                                              -- R424
  | inboundNotice                                              -- R425
  | podReplyArrival                                            -- R426
  | peerTimeoutReissue                                         -- R426
  | peerQuarantine                                             -- R426
  | sramUncorrectableError                                     -- R408
  | powerThrottle                                              -- R431
  | streamElementArrival                                       -- R119
  | correctableError                                           -- R408
  | powerOn                                                    -- R419
  | corePowerGate                                              -- R407
  | corePowerUngate                                            -- R407
  | uzoantHalt                                                 -- R407
  | uzoantResume                                               -- R407
  | uzoantWrite                                                -- R92
  | uzoantLaunch                                               -- R368
deriving DecidableEq, Repr

end Sys2Proof
end

