-- ==== Sys2Proof/WellFormed.lean ====
section
/-!
DEFINITION. Legal encodings beyond the table's fixed bits: register and predicate codes, types, rounding modes,
levels, scopes and system-register numbers (R22, R26, R42, R46, R51, R54 to R66, R68, R97, R152 to R187).
A word that decodes to a term which is not well-formed is an illegal-instruction encoding (R66).
-/
namespace Sys2Proof

/-- A destination register code of a strand word (R22, R46). -/
def dstOk (e : BitVec 1) (d : BitVec 6) : Bool := e == 0#1 || d.toNat < 32

/-- A source register code of a strand word; on the EP codes 32 to 39 pop a queue (R22, R46). -/
def srcOk (e : BitVec 1) (a : BitVec 6) : Bool := e == 0#1 || a.toNat < 40

/-- A source predicate code (R46). -/
def predSrcOk (a : BitVec 6) : Bool := a.toNat < 48

/-- A destination predicate code: p0 to p31 on the AP, p0 and p32 to p47 on the EP (R26, R75). -/
def predDstOk (e : BitVec 1) (d : BitVec 6) : Bool :=
  if e == 0#1 then d.toNat < 32 else d.toNat == 0 || (32 ≤ d.toNat && d.toNat < 48)

/-- Is the FMT code one of the types F of R152? -/
def isF (f : BitVec 4) : Bool := f.toNat < 3

/-- Is the FMT code one of the types I of R152: s32, s16, s8, ui8? -/
def isI (f : BitVec 4) : Bool := f == 8#4 || f == 9#4 || f == 10#4 || f == 12#4

/-- A floating-point FMT code of `vrsum` and `vdot` (R157). -/
def isFloat (f : BitVec 4) : Bool := f.toNat < 8

/-- An integer FMT code of `vrsum` and `vrsums` (R157). -/
def isInt (f : BitVec 4) : Bool := 8 ≤ f.toNat && f.toNat < 13

/-- A rounding mode with an element type: modes above 4 are illegal, and an integer type takes mode 0 (R63). -/
def modeOk (f : BitVec 4) (r : BitVec 3) : Bool := r.toNat < 5 && (isF f || r == 0#3)

/-- Type F or I with its mode. -/
def typeFI (f : BitVec 4) (r : BitVec 3) : Bool := (isF f || isI f) && modeOk f r

/-- Type F with its mode. -/
def typeF (f : BitVec 4) (r : BitVec 3) : Bool := isF f && modeOk f r

/-- Type I with mode 0. -/
def typeI (f : BitVec 4) (r : BitVec 3) : Bool := isI f && r == 0#3

/-- A scope code (R47). -/
def scopeOk (s : BitVec 3) : Bool := s.toNat < 6

/-- The system registers that the manual assigns (R65 and the chapters' own numbers). -/
def sysRegOk (n : BitVec 12) : Bool :=
  let n := n.toNat
  n < 0x18 || (0x20 ≤ n && n < 0x26) || (0x28 ≤ n && n < 0x2E) || (0x30 ≤ n && n < 0x36) || (0x40 ≤ n && n < 0x50) ||
  (0x100 ≤ n && n < 0x106) || (0x108 ≤ n && n < 0x10E) || (0x110 ≤ n && n < 0x114) || (0x120 ≤ n && n < 0x123) ||
  (0x130 ≤ n && n < 0x135) || (0x140 ≤ n && n < 0x163) || n == 0x170 || n == 0x171 || n == 0x174 || n == 0x175 ||
  (0x180 ≤ n && n < 0x190) || n == 0x191 || n == 0x192 || n == 0x1A0 || (0x1B0 ≤ n && n < 0x1B8) || n == 0x1C0 ||
  (0x1D0 ≤ n && n < 0x1D5) || (0x1D8 ≤ n && n < 0x1DB) || n == 0x1E0 || n == 0x1E1 || (0x1F0 ≤ n && n < 0x1F3)

/-- A scalar conversion: distinct types, a legal mode, and mode 0 between integers (R64, R166). -/
def cvtOk (r t s : BitVec 3) : Bool :=
  t != s && r.toNat < 5 && (r == 0#3 || !(t.toNat < 3 && s.toNat < 3))

/-- A lane-slice access: the register form names e0 to e31; the immediate form has A = 0 and an aligned offset (R102). -/
def sliceOk (z : BitVec 2) (a : BitVec 6) (r : BitVec 1) (o : BitVec 10) : Bool :=
  if r == 1#1 then a.toNat < 32 else a == 0#6 && o.toNat % 2 ^ z.toNat == 0

/-- A tile number (R245, R258, R259). -/
def tileOk (t : BitVec 6) : Bool := t.toNat < 48

/-- Legality of a strand word beyond the table's fixed bits, in an unprivileged or privileged active context (R66). -/
def strandWf : Instr → Bool
  | .bt c _ | .bf c _ => predSrcOk c
  | .call c _ => 1 ≤ c.toNat && c.toNat < 32
  | .lbeg _ l _ i => l.toNat < 6 && 1 ≤ i.toNat && i.toNat < 2048
  | .lend l _ => l.toNat < 6
  | .add e d a b | .sub e d a b | .and e d a b | .or e d a b | .xor e d a b | .andn e d a b | .shl e d a b
  | .shr e d a b | .sra e d a b | .min e d a b | .max e d a b | .minu e d a b | .maxu e d a b | .mul e d a b
  | .mulh e d a b | .mulhu e d a b | .adds e d a b | .subs e d a b | .addus e d a b | .subus e d a b =>
    dstOk e d && srcOk e a && srcOk e b
  | .sextb e d a | .sexth e d a | .sextw e d a | .clz e d a | .popc e d a => dstOk e d && srcOk e a
  | .addi e d a _ | .andi e d a _ | .ori e d a _ | .xori e d a _ | .mini e d a _ | .maxi e d a _
  | .shli e d a _ | .shri e d a _ | .srai e d a _ => dstOk e d && srcOk e a
  | .cmp e d a b _ => predDstOk e d && srcOk e a && srcOk e b
  | .cmpi e d a c i => predDstOk e d && srcOk e a && (c.toNat < 6 || i.toNat % 512 < 64)
  | .pand e d a b | .por e d a b | .pxor e d a b | .pandn e d a b => predDstOk e d && predSrcOk a && predSrcOk b
  | .pnot e d a => predDstOk e d && predSrcOk a
  | .ldp e d _ => dstOk e d
  | .sgwait s _ | .sgraise s => s.toNat < 63
  | .repReg e c => srcOk e c
  | .accessPrefix _ a l s _ p _ => scopeOk s && p != 3#2 && (s == 0#3 || a == 1#1 || l == 1#1)
  | .ldl z _ a r o | .stl z _ a r o => sliceOk z a r o
  | .ldc d b _ p _ _ => p == 0#1 || (b != 0#6 && d != b)
  | .stc _ b _ p _ _ => p == 0#1 || b != 0#6
  | .ldg _ _ _ f _ i | .stg _ _ _ f _ i => f == 0#1 || i.toNat < 16
  | .lddQ _ p _ _ _ _ _ _ => p != 3#2
  | .ldhQ _ p _ _ _ => p != 3#2 && p != 1#2
  | .waita _ _ m _ => m.toNat < 5
  | .facq s | .frel s | .facqrel s => scopeOk s
  | .xpush a _ => srcOk 1#1 a
  | .cvt d a r t s => dstOk 1#1 d && srcOk 1#1 a && cvtOk r t s
  | .vadd _ _ _ f r | .vsub _ _ _ f r | .vmul _ _ _ f r | .vfma _ _ _ f r | .vmin _ _ _ f r | .vmax _ _ _ f r
  | .vneg _ _ f r | .vabs _ _ f r | .vmov _ _ f r => typeFI f r
  | .vdiv _ _ _ f r | .vsqrt _ _ f r | .vexp _ _ f r | .vlog _ _ f r | .vrsqrt _ _ f r | .vtanh _ _ f r
  | .vsigm _ _ f r => typeF f r
  | .vadds _ _ _ f r | .vsubs _ _ _ f r | .vand _ _ _ f r | .vor _ _ _ f r | .vxor _ _ _ f r | .vshl _ _ _ f r
  | .vshr _ _ _ f r | .vsra _ _ _ f r => typeI f r
  | .vrsum _ _ f => isFloat f || isInt f
  | .vdot _ _ _ f => isFloat f || isInt f || f == 13#4
  | .vrmax _ _ f | .vrmin _ _ f => isF f || isI f
  | .vrsums _ _ f => isInt f
  | .vdots _ _ _ f => isInt f && f != 8#4
  | .vcvt _ _ f r | .vcvtH16 _ _ f r | .vcvtH32 _ _ f r => f.toNat < 14 && r.toNat < 5
  | .vsign _ _ f r | .vcmpgt _ _ _ f r | .vcmpge _ _ _ f r | .vcmpeq _ _ _ f r | .vthr _ _ _ f r
  | .vargmax _ _ f r | .vargmin _ _ f r | .vtopk _ _ f r => typeFI f r
  | .mmz t _ _ | .mma t _ _ | .mdr t _ _ | .mxz t _ _ | .mxa t _ _ | .mld t _ _ | .mxzHd16 t _ _ | .mxaHd16 t _ _
  | .mxzHd32 t _ _ | .mxaHd32 t _ _ | .tkill t => tileOk t
  | .cnv r _ _ | .cnvH16 r _ _ | .cnvH32 r _ _ => r.toNat < 5
  | .rapp n _ _ => n.toNat < 6
  | .csrr _ n | .csrw _ n => sysRegOk n
  | _ => true

/-- The wait class that a strand word carries (R41, R42). -/
def waitClass : Instr → Option (BitVec 4)
  | .sgwait _ w | .ldc _ _ _ _ w _ | .stc _ _ _ _ w _ | .ldcx _ _ _ w _ | .stcx _ _ _ w _ | .ldg _ _ _ _ w _
  | .stg _ _ _ _ w _ | .ldo _ _ _ w _ | .sto _ _ _ w _ | .ldd _ _ _ _ w _ | .lddQ _ _ _ _ _ _ w _
  | .std _ _ _ _ w _ | .ldh _ _ w | .ldhQ _ _ _ _ w | .sth _ _ w | .waita _ _ _ w | .sld _ _ w _ | .sst _ _ w _
  | .xpop _ w | .xpush _ w | .rapp _ _ w | .lldt _ _ w _ => some w
  | _ => none

/-- The E marker of a strand word (R15, R53); false for the AP. -/
def onEp : Instr → Bool
  | .add e _ _ _ | .sub e _ _ _ | .and e _ _ _ | .or e _ _ _ | .xor e _ _ _ | .andn e _ _ _ | .shl e _ _ _
  | .shr e _ _ _ | .sra e _ _ _ | .min e _ _ _ | .max e _ _ _ | .minu e _ _ _ | .maxu e _ _ _ | .mul e _ _ _
  | .mulh e _ _ _ | .mulhu e _ _ _ | .adds e _ _ _ | .subs e _ _ _ | .addus e _ _ _ | .subus e _ _ _
  | .sextb e _ _ | .sexth e _ _ | .sextw e _ _ | .clz e _ _ | .popc e _ _
  | .addi e _ _ _ | .andi e _ _ _ | .ori e _ _ _ | .xori e _ _ _ | .mini e _ _ _ | .maxi e _ _ _
  | .shli e _ _ _ | .shri e _ _ _ | .srai e _ _ _ | .cmp e _ _ _ _ | .cmpi e _ _ _ _
  | .pand e _ _ _ | .por e _ _ _ | .pxor e _ _ _ | .pandn e _ _ _ | .pnot e _ _ | .ldp e _ _
  | .repN e _ | .repReg e _ | .hint e _ => e == 1#1
  | .ldl .. | .stl .. | .xpush .. | .cvt .. => true
  | .vadd .. | .vsub .. | .vmul .. | .vfma .. | .vdiv .. | .vsqrt .. | .vneg .. | .vabs .. | .vmin .. | .vmax ..
  | .vmov .. | .vadds .. | .vsubs .. | .vand .. | .vor .. | .vxor .. | .vshl .. | .vshr .. | .vsra .. | .vexp ..
  | .vlog .. | .vrsqrt .. | .vtanh .. | .vsigm .. | .vrsum .. | .vdot .. | .vrmax .. | .vrmin .. | .vrsums ..
  | .vdots .. | .vcvt .. | .vcvtH16 .. | .vcvtH32 .. | .vsign .. | .vcmpgt .. | .vcmpge .. | .vcmpeq .. | .vthr ..
  | .vargmax .. | .vargmin .. | .vtopk .. | .chainB | .chainE => true
  | _ => false

/-- Control transfers of R16 and R18, which no `rep` may bind. -/
def isTransfer : Instr → Bool
  | .bt .. | .bf .. | .call .. | .jr .. | .lbeg .. | .lend .. | .halt | .tfence | .yield | .yieldp => true
  | _ => false

/-- Prefix words (R49). -/
def isPrefix : Instr → Bool
  | .repN .. | .repReg .. | .accessPrefix .. => true
  | _ => false

/-- Writes of a predicate in p1 to p31 by the AP (R18). -/
def writesApPred : Instr → Bool
  | .cmp e d .. | .cmpi e d .. | .pand e d .. | .por e d .. | .pxor e d .. | .pandn e d .. | .pnot e d _ =>
    e == 0#1 && 1 ≤ d.toNat && d.toNat < 32
  | _ => false

/-- A word that `rep` may bind (R50, R180). -/
def repBinds (e : BitVec 1) (i : Instr) : Bool :=
  !isTransfer i && !isPrefix i && (onEp i == (e == 1#1)) &&
  (match i with
   | .hint .. | .chainB | .chainE => false
   | _ => true)

/-- Words that the shadow refuses: those that R97 lists, and every word of the EP.  A word of MO 62 with E = 1 is one of these: R97 makes it
illegal in the shadow, though R67 says that a hint never traps, and the spec does not say which holds; the model follows R97
(assumption 72). -/
def shadowRefuses : Instr → Bool
  | .lbeg .. | .lend .. | .repN .. | .repReg .. | .sgwait .. | .sgraise .. | .trap .. | .tfence | .yield | .yieldp
  | .halt | .xpop .. | .lddQ .. | .ldhQ .. | .sbaseD .. | .sbase .. | .sld .. | .sst .. | .sset .. | .sget ..
  | .mmz .. | .mma .. | .mdr .. | .mxz .. | .mxa .. | .mld .. | .seg .. | .mxzHd16 .. | .mxaHd16 ..
  | .mxzHd32 .. | .mxaHd32 .. | .copy .. | .cnv .. | .cnvH16 .. | .cnvH32 .. | .nbmv .. | .nbmva .. | .wqe ..
  | .rapp .. | .publ .. | .pull .. | .decl .. | .pfence => true
  | i => onEp i

/-- Register codes a word names, each with its bound in the shadow: 32 for registers, 8 for predicates (R390). -/
def shadowCodesOk : Instr → Bool
  | .bt c _ | .bf c _ => c.toNat < 8
  | .call c _ => c.toNat < 32
  | .jr a => a.toNat < 32
  | .add _ d a b | .sub _ d a b | .and _ d a b | .or _ d a b | .xor _ d a b | .andn _ d a b | .shl _ d a b
  | .shr _ d a b | .sra _ d a b | .min _ d a b | .max _ d a b | .minu _ d a b | .maxu _ d a b | .mul _ d a b
  | .mulh _ d a b | .mulhu _ d a b | .adds _ d a b | .subs _ d a b | .addus _ d a b | .subus _ d a b
  | .amoAdd d a b _ | .amoAnd d a b _ | .amoOr d a b _ | .amoXor d a b _ | .amoSmax d a b _ | .amoSmin d a b _
  | .amoUmax d a b _ | .amoUmin d a b _ | .amoSwap d a b _ | .amoCas d a b _ =>
    d.toNat < 32 && a.toNat < 32 && b.toNat < 32
  | .sextb _ d a | .sexth _ d a | .sextw _ d a | .clz _ d a | .popc _ d a
  | .addi _ d a _ | .andi _ d a _ | .ori _ d a _ | .xori _ d a _ | .mini _ d a _ | .maxi _ d a _
  | .shli _ d a _ | .shri _ d a _ | .srai _ d a _ | .ldh d a _ | .sth d a _ | .waita d a _ _ | .tget d a
  | .lld d a _ | .lldt d a _ _ => d.toNat < 32 && a.toNat < 32
  | .ldc d b .. | .stc d b .. | .ldcx d b .. | .stcx d b .. | .ldg d b .. | .stg d b .. | .ldo d b .. | .sto d b .. =>
    d.toNat < 32 && b.toNat < 32
  | .ldd d .. | .std d .. | .ldp _ d _ | .csrr d _ => d.toNat < 32
  | .cmp _ d a b _ => d.toNat < 8 && a.toNat < 32 && b.toNat < 32
  | .cmpi _ d a _ _ => d.toNat < 8 && a.toNat < 32
  | .pand _ d a b | .por _ d a b | .pxor _ d a b | .pandn _ d a b => d.toNat < 8 && a.toNat < 8 && b.toNat < 8
  | .pnot _ d a => d.toNat < 8 && a.toNat < 8
  | .cinv a b | .dcfence a b | .tput a b | .ljoin a b _ | .linc a b _ | .lst a b _ => a.toNat < 32 && b.toNat < 32
  | .csrw a _ => a.toNat < 32
  | _ => true

/-- Legality of a word in the shadow context (R97, R390). -/
def shadowWf (i : Instr) : Bool := strandWf i && !shadowRefuses i && shadowCodesOk i

/-- Register and flag codes of a shared-subset command on an engine (R46, R98): false for the words R68 refuses. -/
def engineWf : Instr → Bool
  | .bt c _ | .bf c _ => c.toNat < 8
  | .lbeg r l a i => r == 0#1 && l.toNat < 4 && a.toNat < 16 && 1 ≤ i.toNat && i.toNat < 2048
  | .lend l _ => l.toNat < 4
  | .add _ d a b | .sub _ d a b | .and _ d a b | .or _ d a b | .xor _ d a b | .andn _ d a b | .shl _ d a b
  | .shr _ d a b | .sra _ d a b | .min _ d a b | .max _ d a b | .minu _ d a b | .maxu _ d a b | .mul _ d a b
  | .mulh _ d a b | .mulhu _ d a b | .adds _ d a b | .subs _ d a b | .addus _ d a b | .subus _ d a b =>
    d.toNat < 16 && a.toNat < 16 && b.toNat < 16
  | .sextb _ d a | .sexth _ d a | .sextw _ d a | .clz _ d a | .popc _ d a
  | .addi _ d a _ | .andi _ d a _ | .ori _ d a _ | .xori _ d a _ | .mini _ d a _ | .maxi _ d a _
  | .shli _ d a _ | .shri _ d a _ | .srai _ d a _ => d.toNat < 16 && a.toNat < 16
  | .cmp _ d a b _ => d.toNat < 8 && a.toNat < 16 && b.toNat < 16
  | .cmpi _ d a c i => d.toNat < 8 && a.toNat < 16 && (c.toNat < 6 || i.toNat % 512 < 64)
  | .pand _ d a b | .por _ d a b | .pxor _ d a b | .pandn _ d a b => d.toNat < 8 && a.toNat < 8 && b.toNat < 8
  | .pnot _ d a => d.toNat < 8 && a.toNat < 8
  | .repN e _ => e == 0#1
  | .repReg e c => e == 0#1 && c.toNat < 16
  | .hint .. => true
  | .mmzCmd _ t _ | .mmaCmd _ t _ | .mdrCmd _ t _ | .mldCmd _ t _ => tileOk t
  | .mxzCmd _ t h _ | .mxaCmd _ t h _ => tileOk t && h != 3#2
  | .segCmd .. | .cpq .. | .wqeCmd .. | .nbq .. => true
  | .cvq _ h r b => h != 3#2 && r.toNat < 5 && 32 * b.toNat + 96 ≤ 0x800000
  | _ => false

/-- Field lengths of a packet that the encoding must hold (R326). -/
def packetWf : Instr → Bool
  | .pktNop b | .pktWrite b | .pktWriteAdd b | .pktIb b | .pktLoop b | .pktLoadslot b | .pktEvictslot b
  | .pktInvoke b | .pktEvent b | .pktSummary b | .pktQcbSh b | .pktQcbCommit b | .pktQcbRead b => b.length < 65536
  | .pktWaitmem _ b | .pktCond _ b => b.length < 65536
  | .pktFence | .pktFfence => true
  | _ => false

end Sys2Proof
end

