-- ==== Sys2Proof/Decode.lean ====
section
/-!
DEFINITION. The decoders, total on any word and rejecting by name, and the encoder.

Strand words: R43 to R65 and the chapters' sub-function tables.  Ring words: R47, R68, R98, R162, R200, R239, R246,
R259, R292.  Packets: R326, R337, R361.  Cricket words: R342.
The fixed bits of a word are checked here; the codes in its fields are checked by WellFormed.
-/
namespace Sys2Proof
open Machine (bits cat)

/-- Why a word is no instruction of its sequencer. -/
inductive Reject where
  | majorOpcode      -- unassigned MO (R52, R66, R68) or OP (R326, R342)
  | function         -- unassigned sub-function code
  | reservedField    -- a field that must be 0 is not
  | marker           -- an E marker that R16, R44 or R53 forbids
  | notOnEngine      -- a shared-subset word that engines refuse (R68)
  | cut              -- a packet whose body words are missing
deriving DecidableEq, Repr

/-- The major opcode (R43). -/
def majorOpcode (w : Word32) : Nat := (bits w 25 7).toNat

/-- Register forms of integer arithmetic (R54, R71): major opcode 16. -/
def decodeIntReg (w : Word32) : Except Reject Instr :=
  match (bits w 0 6).toNat with
  | 0 => .ok (.add (bits w 24 1) (bits w 18 6) (bits w 12 6) (bits w 6 6))
  | 1 => .ok (.sub (bits w 24 1) (bits w 18 6) (bits w 12 6) (bits w 6 6))
  | 2 => .ok (.and (bits w 24 1) (bits w 18 6) (bits w 12 6) (bits w 6 6))
  | 3 => .ok (.or (bits w 24 1) (bits w 18 6) (bits w 12 6) (bits w 6 6))
  | 4 => .ok (.xor (bits w 24 1) (bits w 18 6) (bits w 12 6) (bits w 6 6))
  | 5 => .ok (.andn (bits w 24 1) (bits w 18 6) (bits w 12 6) (bits w 6 6))
  | 6 => .ok (.shl (bits w 24 1) (bits w 18 6) (bits w 12 6) (bits w 6 6))
  | 7 => .ok (.shr (bits w 24 1) (bits w 18 6) (bits w 12 6) (bits w 6 6))
  | 8 => .ok (.sra (bits w 24 1) (bits w 18 6) (bits w 12 6) (bits w 6 6))
  | 9 => .ok (.min (bits w 24 1) (bits w 18 6) (bits w 12 6) (bits w 6 6))
  | 10 => .ok (.max (bits w 24 1) (bits w 18 6) (bits w 12 6) (bits w 6 6))
  | 11 => .ok (.minu (bits w 24 1) (bits w 18 6) (bits w 12 6) (bits w 6 6))
  | 12 => .ok (.maxu (bits w 24 1) (bits w 18 6) (bits w 12 6) (bits w 6 6))
  | 13 => .ok (.mul (bits w 24 1) (bits w 18 6) (bits w 12 6) (bits w 6 6))
  | 14 => .ok (.mulh (bits w 24 1) (bits w 18 6) (bits w 12 6) (bits w 6 6))
  | 15 => .ok (.mulhu (bits w 24 1) (bits w 18 6) (bits w 12 6) (bits w 6 6))
  | 16 => .ok (.adds (bits w 24 1) (bits w 18 6) (bits w 12 6) (bits w 6 6))
  | 17 => .ok (.subs (bits w 24 1) (bits w 18 6) (bits w 12 6) (bits w 6 6))
  | 18 => .ok (.addus (bits w 24 1) (bits w 18 6) (bits w 12 6) (bits w 6 6))
  | 19 => .ok (.subus (bits w 24 1) (bits w 18 6) (bits w 12 6) (bits w 6 6))
  | 20 => if bits w 6 6 = 0#6 then .ok (.sextb (bits w 24 1) (bits w 18 6) (bits w 12 6)) else .error .reservedField
  | 21 => if bits w 6 6 = 0#6 then .ok (.sexth (bits w 24 1) (bits w 18 6) (bits w 12 6)) else .error .reservedField
  | 22 => if bits w 6 6 = 0#6 then .ok (.sextw (bits w 24 1) (bits w 18 6) (bits w 12 6)) else .error .reservedField
  | 23 => if bits w 6 6 = 0#6 then .ok (.clz (bits w 24 1) (bits w 18 6) (bits w 12 6)) else .error .reservedField
  | 24 => if bits w 6 6 = 0#6 then .ok (.popc (bits w 24 1) (bits w 18 6) (bits w 12 6)) else .error .reservedField
  | _ => .error .function

/-- Predicate logic (R56, R75): major opcode 28. -/
def decodePred (w : Word32) : Except Reject Instr :=
  match (bits w 0 6).toNat with
  | 0 => .ok (.pand (bits w 24 1) (bits w 18 6) (bits w 12 6) (bits w 6 6))
  | 1 => .ok (.por (bits w 24 1) (bits w 18 6) (bits w 12 6) (bits w 6 6))
  | 2 => .ok (.pxor (bits w 24 1) (bits w 18 6) (bits w 12 6) (bits w 6 6))
  | 3 => .ok (.pandn (bits w 24 1) (bits w 18 6) (bits w 12 6) (bits w 6 6))
  | 4 => if bits w 6 6 = 0#6 then .ok (.pnot (bits w 24 1) (bits w 18 6) (bits w 12 6)) else .error .reservedField
  | _ => .error .function

/-- Semaphores (R56, R87): major opcode 30. -/
def decodeSema (w : Word32) : Except Reject Instr :=
  match (bits w 11 1).toNat with
  | 0 => if bits w 24 1 = 0#1 then (if bits w 4 7 = 0#7 ∧ bits w 12 6 = 0#6 then .ok (.sgwait (bits w 18 6) (bits w 0 4)) else .error .reservedField) else .error .marker
  | _ => if bits w 24 1 = 0#1 then (if bits w 0 11 = 0#11 ∧ bits w 12 6 = 0#6 then .ok (.sgraise (bits w 18 6)) else .error .reservedField) else .error .marker

/-- Prefixes (R49 to R51): major opcode 31. -/
def decodePrefix (w : Word32) : Except Reject Instr :=
  match (bits w 20 4).toNat with
  | 0 => .ok (.repN (bits w 24 1) (bits w 0 20))
  | 1 => if bits w 6 14 = 0#14 then .ok (.repReg (bits w 24 1) (bits w 0 6)) else .error .reservedField
  | 2 => if bits w 24 1 = 0#1 then (if bits w 0 7 = 0#7 then .ok (.accessPrefix (bits w 16 4) (bits w 15 1) (bits w 14 1) (bits w 11 3) (bits w 10 1) (bits w 8 2) (bits w 7 1)) else .error .reservedField) else .error .marker
  | _ => .error .function

/-- Atomics: major opcode 80. -/
def decodeAmo (w : Word32) : Except Reject Instr :=
  match (bits w 0 4).toNat with
  | 0 => if bits w 24 1 = 0#1 then .ok (.amoAdd (bits w 18 6) (bits w 12 6) (bits w 6 6) (bits w 4 2)) else .error .marker
  | 1 => if bits w 24 1 = 0#1 then .ok (.amoAnd (bits w 18 6) (bits w 12 6) (bits w 6 6) (bits w 4 2)) else .error .marker
  | 2 => if bits w 24 1 = 0#1 then .ok (.amoOr (bits w 18 6) (bits w 12 6) (bits w 6 6) (bits w 4 2)) else .error .marker
  | 3 => if bits w 24 1 = 0#1 then .ok (.amoXor (bits w 18 6) (bits w 12 6) (bits w 6 6) (bits w 4 2)) else .error .marker
  | 4 => if bits w 24 1 = 0#1 then .ok (.amoSmax (bits w 18 6) (bits w 12 6) (bits w 6 6) (bits w 4 2)) else .error .marker
  | 5 => if bits w 24 1 = 0#1 then .ok (.amoSmin (bits w 18 6) (bits w 12 6) (bits w 6 6) (bits w 4 2)) else .error .marker
  | 6 => if bits w 24 1 = 0#1 then .ok (.amoUmax (bits w 18 6) (bits w 12 6) (bits w 6 6) (bits w 4 2)) else .error .marker
  | 7 => if bits w 24 1 = 0#1 then .ok (.amoUmin (bits w 18 6) (bits w 12 6) (bits w 6 6) (bits w 4 2)) else .error .marker
  | 8 => if bits w 24 1 = 0#1 then .ok (.amoSwap (bits w 18 6) (bits w 12 6) (bits w 6 6) (bits w 4 2)) else .error .marker
  | 9 => if bits w 24 1 = 0#1 then .ok (.amoCas (bits w 18 6) (bits w 12 6) (bits w 6 6) (bits w 4 2)) else .error .marker
  | _ => .error .function

/-- Fences: major opcode 82. -/
def decodeFence (w : Word32) : Except Reject Instr :=
  match (bits w 0 6).toNat with
  | 0 => if bits w 24 1 = 0#1 then (if bits w 21 3 = 0#3 ∧ bits w 6 12 = 0#12 then .ok (.facq (bits w 18 3)) else .error .reservedField) else .error .marker
  | 1 => if bits w 24 1 = 0#1 then (if bits w 21 3 = 0#3 ∧ bits w 6 12 = 0#12 then .ok (.frel (bits w 18 3)) else .error .reservedField) else .error .marker
  | 2 => if bits w 24 1 = 0#1 then (if bits w 21 3 = 0#3 ∧ bits w 6 12 = 0#12 then .ok (.facqrel (bits w 18 3)) else .error .reservedField) else .error .marker
  | 3 => if bits w 24 1 = 0#1 then (if bits w 18 6 = 0#6 then .ok (.cinv (bits w 12 6) (bits w 6 6)) else .error .reservedField) else .error .marker
  | 4 => if bits w 24 1 = 0#1 then (if bits w 18 6 = 0#6 then .ok (.dcfence (bits w 12 6) (bits w 6 6)) else .error .reservedField) else .error .marker
  | _ => .error .function

/-- xpop and xpush: major opcode 89. -/
def decodeXfer (w : Word32) : Except Reject Instr :=
  match (bits w 24 1).toNat with
  | 0 => if bits w 4 14 = 0#14 then .ok (.xpop (bits w 18 6) (bits w 0 4)) else .error .reservedField
  | _ => if bits w 18 6 = 0#6 ∧ bits w 4 8 = 0#8 then .ok (.xpush (bits w 12 6) (bits w 0 4)) else .error .reservedField

/-- Element-wise operations: major opcode 96. -/
def decodeVop (w : Word32) : Except Reject Instr :=
  match (bits w 0 5).toNat with
  | 0 => if bits w 24 1 = 1#1 then .ok (.vadd (bits w 20 4) (bits w 16 4) (bits w 12 4) (bits w 8 4) (bits w 5 3)) else .error .marker
  | 1 => if bits w 24 1 = 1#1 then .ok (.vsub (bits w 20 4) (bits w 16 4) (bits w 12 4) (bits w 8 4) (bits w 5 3)) else .error .marker
  | 2 => if bits w 24 1 = 1#1 then .ok (.vmul (bits w 20 4) (bits w 16 4) (bits w 12 4) (bits w 8 4) (bits w 5 3)) else .error .marker
  | 3 => if bits w 24 1 = 1#1 then .ok (.vfma (bits w 20 4) (bits w 16 4) (bits w 12 4) (bits w 8 4) (bits w 5 3)) else .error .marker
  | 4 => if bits w 24 1 = 1#1 then .ok (.vdiv (bits w 20 4) (bits w 16 4) (bits w 12 4) (bits w 8 4) (bits w 5 3)) else .error .marker
  | 5 => if bits w 24 1 = 1#1 then (if bits w 12 4 = 0#4 then .ok (.vsqrt (bits w 20 4) (bits w 16 4) (bits w 8 4) (bits w 5 3)) else .error .reservedField) else .error .marker
  | 6 => if bits w 24 1 = 1#1 then (if bits w 12 4 = 0#4 then .ok (.vneg (bits w 20 4) (bits w 16 4) (bits w 8 4) (bits w 5 3)) else .error .reservedField) else .error .marker
  | 7 => if bits w 24 1 = 1#1 then (if bits w 12 4 = 0#4 then .ok (.vabs (bits w 20 4) (bits w 16 4) (bits w 8 4) (bits w 5 3)) else .error .reservedField) else .error .marker
  | 8 => if bits w 24 1 = 1#1 then .ok (.vmin (bits w 20 4) (bits w 16 4) (bits w 12 4) (bits w 8 4) (bits w 5 3)) else .error .marker
  | 9 => if bits w 24 1 = 1#1 then .ok (.vmax (bits w 20 4) (bits w 16 4) (bits w 12 4) (bits w 8 4) (bits w 5 3)) else .error .marker
  | 10 => if bits w 24 1 = 1#1 then (if bits w 12 4 = 0#4 then .ok (.vmov (bits w 20 4) (bits w 16 4) (bits w 8 4) (bits w 5 3)) else .error .reservedField) else .error .marker
  | 11 => if bits w 24 1 = 1#1 then .ok (.vadds (bits w 20 4) (bits w 16 4) (bits w 12 4) (bits w 8 4) (bits w 5 3)) else .error .marker
  | 12 => if bits w 24 1 = 1#1 then .ok (.vsubs (bits w 20 4) (bits w 16 4) (bits w 12 4) (bits w 8 4) (bits w 5 3)) else .error .marker
  | 13 => if bits w 24 1 = 1#1 then .ok (.vand (bits w 20 4) (bits w 16 4) (bits w 12 4) (bits w 8 4) (bits w 5 3)) else .error .marker
  | 14 => if bits w 24 1 = 1#1 then .ok (.vor (bits w 20 4) (bits w 16 4) (bits w 12 4) (bits w 8 4) (bits w 5 3)) else .error .marker
  | 15 => if bits w 24 1 = 1#1 then .ok (.vxor (bits w 20 4) (bits w 16 4) (bits w 12 4) (bits w 8 4) (bits w 5 3)) else .error .marker
  | 16 => if bits w 24 1 = 1#1 then .ok (.vshl (bits w 20 4) (bits w 16 4) (bits w 12 4) (bits w 8 4) (bits w 5 3)) else .error .marker
  | 17 => if bits w 24 1 = 1#1 then .ok (.vshr (bits w 20 4) (bits w 16 4) (bits w 12 4) (bits w 8 4) (bits w 5 3)) else .error .marker
  | 18 => if bits w 24 1 = 1#1 then .ok (.vsra (bits w 20 4) (bits w 16 4) (bits w 12 4) (bits w 8 4) (bits w 5 3)) else .error .marker
  | 19 => if bits w 24 1 = 1#1 then (if bits w 12 4 = 0#4 then .ok (.vexp (bits w 20 4) (bits w 16 4) (bits w 8 4) (bits w 5 3)) else .error .reservedField) else .error .marker
  | 20 => if bits w 24 1 = 1#1 then (if bits w 12 4 = 0#4 then .ok (.vlog (bits w 20 4) (bits w 16 4) (bits w 8 4) (bits w 5 3)) else .error .reservedField) else .error .marker
  | 21 => if bits w 24 1 = 1#1 then (if bits w 12 4 = 0#4 then .ok (.vrsqrt (bits w 20 4) (bits w 16 4) (bits w 8 4) (bits w 5 3)) else .error .reservedField) else .error .marker
  | 22 => if bits w 24 1 = 1#1 then (if bits w 12 4 = 0#4 then .ok (.vtanh (bits w 20 4) (bits w 16 4) (bits w 8 4) (bits w 5 3)) else .error .reservedField) else .error .marker
  | 23 => if bits w 24 1 = 1#1 then (if bits w 12 4 = 0#4 then .ok (.vsigm (bits w 20 4) (bits w 16 4) (bits w 8 4) (bits w 5 3)) else .error .reservedField) else .error .marker
  | _ => .error .function

/-- Reductions: major opcode 97. -/
def decodeVred (w : Word32) : Except Reject Instr :=
  match (bits w 0 5).toNat with
  | 0 => if bits w 24 1 = 1#1 then (if bits w 12 4 = 0#4 ∧ bits w 5 3 = 0#3 then .ok (.vrsum (bits w 20 4) (bits w 16 4) (bits w 8 4)) else .error .reservedField) else .error .marker
  | 1 => if bits w 24 1 = 1#1 then (if bits w 5 3 = 0#3 then .ok (.vdot (bits w 20 4) (bits w 16 4) (bits w 12 4) (bits w 8 4)) else .error .reservedField) else .error .marker
  | 2 => if bits w 24 1 = 1#1 then (if bits w 12 4 = 0#4 ∧ bits w 5 3 = 0#3 then .ok (.vrmax (bits w 20 4) (bits w 16 4) (bits w 8 4)) else .error .reservedField) else .error .marker
  | 3 => if bits w 24 1 = 1#1 then (if bits w 12 4 = 0#4 ∧ bits w 5 3 = 0#3 then .ok (.vrmin (bits w 20 4) (bits w 16 4) (bits w 8 4)) else .error .reservedField) else .error .marker
  | 4 => if bits w 24 1 = 1#1 then (if bits w 12 4 = 0#4 ∧ bits w 5 3 = 0#3 then .ok (.vrsums (bits w 20 4) (bits w 16 4) (bits w 8 4)) else .error .reservedField) else .error .marker
  | 5 => if bits w 24 1 = 1#1 then (if bits w 5 3 = 0#3 then .ok (.vdots (bits w 20 4) (bits w 16 4) (bits w 12 4) (bits w 8 4)) else .error .reservedField) else .error .marker
  | _ => .error .function

/-- Block conversions: major opcode 98. -/
def decodeVcvt (w : Word32) : Except Reject Instr :=
  match (bits w 0 5).toNat with
  | 0 => if bits w 24 1 = 1#1 then (if bits w 12 4 = 0#4 then .ok (.vcvt (bits w 20 4) (bits w 16 4) (bits w 8 4) (bits w 5 3)) else .error .reservedField) else .error .marker
  | 1 => if bits w 24 1 = 1#1 then (if bits w 12 4 = 0#4 then .ok (.vcvtH16 (bits w 20 4) (bits w 16 4) (bits w 8 4) (bits w 5 3)) else .error .reservedField) else .error .marker
  | 2 => if bits w 24 1 = 1#1 then (if bits w 12 4 = 0#4 then .ok (.vcvtH32 (bits w 20 4) (bits w 16 4) (bits w 8 4) (bits w 5 3)) else .error .reservedField) else .error .marker
  | _ => .error .function

/-- Digit decisions: major opcode 99. -/
def decodeVdec (w : Word32) : Except Reject Instr :=
  match (bits w 0 5).toNat with
  | 0 => if bits w 24 1 = 1#1 then (if bits w 12 4 = 0#4 then .ok (.vsign (bits w 20 4) (bits w 16 4) (bits w 8 4) (bits w 5 3)) else .error .reservedField) else .error .marker
  | 1 => if bits w 24 1 = 1#1 then .ok (.vcmpgt (bits w 20 4) (bits w 16 4) (bits w 12 4) (bits w 8 4) (bits w 5 3)) else .error .marker
  | 2 => if bits w 24 1 = 1#1 then .ok (.vcmpge (bits w 20 4) (bits w 16 4) (bits w 12 4) (bits w 8 4) (bits w 5 3)) else .error .marker
  | 3 => if bits w 24 1 = 1#1 then .ok (.vcmpeq (bits w 20 4) (bits w 16 4) (bits w 12 4) (bits w 8 4) (bits w 5 3)) else .error .marker
  | 4 => if bits w 24 1 = 1#1 then .ok (.vthr (bits w 20 4) (bits w 16 4) (bits w 12 4) (bits w 8 4) (bits w 5 3)) else .error .marker
  | 5 => if bits w 24 1 = 1#1 then (if bits w 12 4 = 0#4 then .ok (.vargmax (bits w 20 4) (bits w 16 4) (bits w 8 4) (bits w 5 3)) else .error .reservedField) else .error .marker
  | 6 => if bits w 24 1 = 1#1 then (if bits w 12 4 = 0#4 then .ok (.vargmin (bits w 20 4) (bits w 16 4) (bits w 8 4) (bits w 5 3)) else .error .reservedField) else .error .marker
  | 7 => if bits w 24 1 = 1#1 then (if bits w 12 4 = 0#4 then .ok (.vtopk (bits w 20 4) (bits w 16 4) (bits w 8 4) (bits w 5 3)) else .error .reservedField) else .error .marker
  | _ => .error .function

/-- Chains: major opcode 100. -/
def decodeChain (w : Word32) : Except Reject Instr :=
  match (bits w 0 5).toNat with
  | 0 => if bits w 24 1 = 1#1 then (if bits w 5 19 = 0#19 then .ok .chainB else .error .reservedField) else .error .marker
  | 1 => if bits w 24 1 = 1#1 then (if bits w 5 19 = 0#19 then .ok .chainE else .error .reservedField) else .error .marker
  | _ => .error .function

/-- Matrix appends and tiles: major opcode 101. -/
def decodeMat (w : Word32) : Except Reject Instr :=
  match (bits w 0 6).toNat with
  | 0 => if bits w 24 1 = 0#1 then .ok (.mmz (bits w 18 6) (bits w 12 6) (bits w 6 6)) else .error .marker
  | 1 => if bits w 24 1 = 0#1 then .ok (.mma (bits w 18 6) (bits w 12 6) (bits w 6 6)) else .error .marker
  | 2 => if bits w 24 1 = 0#1 then .ok (.mdr (bits w 18 6) (bits w 12 6) (bits w 6 6)) else .error .marker
  | 3 => if bits w 24 1 = 0#1 then .ok (.mxz (bits w 18 6) (bits w 12 6) (bits w 6 6)) else .error .marker
  | 4 => if bits w 24 1 = 0#1 then .ok (.mxa (bits w 18 6) (bits w 12 6) (bits w 6 6)) else .error .marker
  | 5 => if bits w 24 1 = 0#1 then .ok (.mld (bits w 18 6) (bits w 12 6) (bits w 6 6)) else .error .marker
  | 6 => if bits w 24 1 = 0#1 then (if bits w 18 6 = 0#6 then .ok (.seg (bits w 12 6) (bits w 6 6)) else .error .reservedField) else .error .marker
  | 11 => if bits w 24 1 = 0#1 then .ok (.mxzHd16 (bits w 18 6) (bits w 12 6) (bits w 6 6)) else .error .marker
  | 12 => if bits w 24 1 = 0#1 then .ok (.mxaHd16 (bits w 18 6) (bits w 12 6) (bits w 6 6)) else .error .marker
  | 16 => if bits w 24 1 = 0#1 then (if bits w 6 6 = 0#6 then .ok (.tget (bits w 18 6) (bits w 12 6)) else .error .reservedField) else .error .marker
  | 17 => if bits w 24 1 = 0#1 then (if bits w 18 6 = 0#6 then .ok (.tput (bits w 12 6) (bits w 6 6)) else .error .reservedField) else .error .marker
  | 18 => if bits w 24 1 = 0#1 then (if bits w 6 12 = 0#12 then .ok (.tkill (bits w 18 6)) else .error .reservedField) else .error .marker
  | 19 => if bits w 24 1 = 0#1 then .ok (.mxzHd32 (bits w 18 6) (bits w 12 6) (bits w 6 6)) else .error .marker
  | 20 => if bits w 24 1 = 0#1 then .ok (.mxaHd32 (bits w 18 6) (bits w 12 6) (bits w 6 6)) else .error .marker
  | _ => .error .function

/-- Copies: major opcode 102. -/
def decodeCopy (w : Word32) : Except Reject Instr :=
  match (bits w 1 5).toNat with
  | 0 => if bits w 24 1 = 0#1 then (if bits w 18 6 = 0#6 then .ok (.copy (bits w 12 6) (bits w 6 6) (bits w 0 1)) else .error .reservedField) else .error .marker
  | _ => .error .function

/-- Conversions: major opcode 103. -/
def decodeCnv (w : Word32) : Except Reject Instr :=
  match (bits w 0 6).toNat with
  | 0 => if bits w 24 1 = 0#1 then (if bits w 21 3 = 0#3 then .ok (.cnv (bits w 18 3) (bits w 12 6) (bits w 6 6)) else .error .reservedField) else .error .marker
  | 1 => if bits w 24 1 = 0#1 then (if bits w 21 3 = 0#3 then .ok (.cnvH16 (bits w 18 3) (bits w 12 6) (bits w 6 6)) else .error .reservedField) else .error .marker
  | 2 => if bits w 24 1 = 0#1 then (if bits w 21 3 = 0#3 then .ok (.cnvH32 (bits w 18 3) (bits w 12 6) (bits w 6 6)) else .error .reservedField) else .error .marker
  | _ => .error .function

/-- Near-bank passes: major opcode 104. -/
def decodeNb (w : Word32) : Except Reject Instr :=
  match (bits w 3 1).toNat with
  | 0 => if bits w 24 1 = 0#1 then (if bits w 4 2 = 0#2 then .ok (.nbmv (bits w 18 6) (bits w 12 6) (bits w 6 6) (bits w 0 3)) else .error .reservedField) else .error .marker
  | _ => if bits w 24 1 = 0#1 then (if bits w 4 2 = 0#2 then .ok (.nbmva (bits w 18 6) (bits w 12 6) (bits w 6 6) (bits w 0 3)) else .error .reservedField) else .error .marker

/-- Work descriptors: major opcode 105. -/
def decodeWqe (w : Word32) : Except Reject Instr :=
  match (bits w 0 6).toNat with
  | 0 => if bits w 24 1 = 0#1 then (if bits w 18 6 = 0#6 then .ok (.wqe (bits w 12 6) (bits w 6 6)) else .error .reservedField) else .error .marker
  | _ => .error .function

/-- Notices: major opcode 107. -/
def decodeNotice (w : Word32) : Except Reject Instr :=
  match (bits w 0 6).toNat with
  | 0 => if bits w 24 1 = 0#1 then .ok (.publ (bits w 18 6) (bits w 12 6) (bits w 6 6)) else .error .marker
  | 1 => if bits w 24 1 = 0#1 then .ok (.pull (bits w 18 6) (bits w 12 6) (bits w 6 6)) else .error .marker
  | 2 => if bits w 24 1 = 0#1 then (if bits w 18 6 = 0#6 ∧ bits w 6 6 = 0#6 then .ok (.decl (bits w 12 6)) else .error .reservedField) else .error .marker
  | 3 => if bits w 24 1 = 0#1 then (if bits w 6 18 = 0#18 then .ok .pfence else .error .reservedField) else .error .marker
  | _ => .error .function

/-- Regions: major opcode 108. -/
def decodeRegion (w : Word32) : Except Reject Instr :=
  match (bits w 4 2).toNat with
  | 0 => if bits w 24 1 = 0#1 then (if bits w 18 6 = 0#6 then .ok (.ljoin (bits w 12 6) (bits w 6 6) (bits w 0 4)) else .error .reservedField) else .error .marker
  | 1 => if bits w 24 1 = 0#1 then (if bits w 18 6 = 0#6 then .ok (.linc (bits w 12 6) (bits w 6 6) (bits w 0 4)) else .error .reservedField) else .error .marker
  | 2 => if bits w 24 1 = 0#1 then (if bits w 18 6 = 0#6 then .ok (.lst (bits w 12 6) (bits w 6 6) (bits w 0 4)) else .error .reservedField) else .error .marker
  | _ => if bits w 24 1 = 0#1 then (if bits w 6 6 = 0#6 then .ok (.lld (bits w 18 6) (bits w 12 6) (bits w 0 4)) else .error .reservedField) else .error .marker

/-- System words: major opcode 115. -/
def decodeSys (w : Word32) : Except Reject Instr :=
  match (bits w 0 6).toNat with
  | 0 => if bits w 24 1 = 0#1 then (if bits w 6 18 = 0#18 then .ok .halt else .error .reservedField) else .error .marker
  | 1 => if bits w 24 1 = 0#1 then (if bits w 6 18 = 0#18 then .ok .tfence else .error .reservedField) else .error .marker
  | 2 => if bits w 24 1 = 0#1 then (if bits w 6 18 = 0#18 then .ok .yield else .error .reservedField) else .error .marker
  | 3 => if bits w 24 1 = 0#1 then (if bits w 6 18 = 0#18 then .ok .yieldp else .error .reservedField) else .error .marker
  | _ => .error .function

/-- A strand word (R52 to R65). -/
def decodeStrand (w : Word32) : Except Reject Instr :=
  match majorOpcode w with
  | 1 => if bits w 24 1 = 0#1 then .ok (.bt (bits w 18 6) (bits w 0 18)) else .error .marker
  | 2 => if bits w 24 1 = 0#1 then .ok (.bf (bits w 18 6) (bits w 0 18)) else .error .marker
  | 3 => if bits w 24 1 = 0#1 then .ok (.call (bits w 18 6) (bits w 0 18)) else .error .marker
  | 4 => if bits w 24 1 = 0#1 then (if bits w 18 6 = 0#6 ∧ bits w 0 12 = 0#12 then .ok (.jr (bits w 12 6)) else .error .reservedField) else .error .marker
  | 5 => if bits w 24 1 = 0#1 then (if bits w 21 2 = 0#2 then .ok (.lbeg (bits w 23 1) (bits w 18 3) (bits w 12 6) (bits w 0 12)) else .error .reservedField) else .error .marker
  | 6 => if bits w 24 1 = 0#1 then (if bits w 21 3 = 0#3 then .ok (.lend (bits w 18 3) (bits w 0 18)) else .error .reservedField) else .error .marker
  | 16 => decodeIntReg w
  | 17 => .ok (.addi (bits w 24 1) (bits w 18 6) (bits w 12 6) (bits w 0 12))
  | 18 => .ok (.andi (bits w 24 1) (bits w 18 6) (bits w 12 6) (bits w 0 12))
  | 19 => .ok (.ori (bits w 24 1) (bits w 18 6) (bits w 12 6) (bits w 0 12))
  | 20 => .ok (.xori (bits w 24 1) (bits w 18 6) (bits w 12 6) (bits w 0 12))
  | 21 => if bits w 6 6 = 0#6 then .ok (.shli (bits w 24 1) (bits w 18 6) (bits w 12 6) (bits w 0 6)) else .error .reservedField
  | 22 => if bits w 6 6 = 0#6 then .ok (.shri (bits w 24 1) (bits w 18 6) (bits w 12 6) (bits w 0 6)) else .error .reservedField
  | 23 => if bits w 6 6 = 0#6 then .ok (.srai (bits w 24 1) (bits w 18 6) (bits w 12 6) (bits w 0 6)) else .error .reservedField
  | 24 => .ok (.mini (bits w 24 1) (bits w 18 6) (bits w 12 6) (bits w 0 12))
  | 25 => .ok (.maxi (bits w 24 1) (bits w 18 6) (bits w 12 6) (bits w 0 12))
  | 26 => if bits w 3 3 = 0#3 then .ok (.cmp (bits w 24 1) (bits w 18 6) (bits w 12 6) (bits w 6 6) (bits w 0 3)) else .error .reservedField
  | 27 => .ok (.cmpi (bits w 24 1) (bits w 18 6) (bits w 12 6) (bits w 9 3) (bits w 0 9))
  | 28 => decodePred w
  | 29 => .ok (.ldp (bits w 24 1) (bits w 18 6) (bits w 0 18))
  | 30 => decodeSema w
  | 31 => decodePrefix w
  | 62 => .ok (.hint (bits w 24 1) (bits w 0 24))
  | 64 => if bits w 24 1 = 1#1 then (if bits w 10 1 = 0#1 then .ok (.ldl (bits w 22 2) (bits w 18 4) (bits w 12 6) (bits w 11 1) (bits w 0 10)) else .error .reservedField) else .error .marker
  | 65 => if bits w 24 1 = 1#1 then (if bits w 10 1 = 0#1 then .ok (.stl (bits w 22 2) (bits w 18 4) (bits w 12 6) (bits w 11 1) (bits w 0 10)) else .error .reservedField) else .error .marker
  | 66 => if bits w 24 1 = 0#1 then .ok (.ldc (bits w 18 6) (bits w 12 6) (bits w 10 2) (bits w 9 1) (bits w 5 4) (bits w 0 5)) else .error .marker
  | 67 => if bits w 24 1 = 0#1 then .ok (.stc (bits w 18 6) (bits w 12 6) (bits w 10 2) (bits w 9 1) (bits w 5 4) (bits w 0 5)) else .error .marker
  | 68 => if bits w 24 1 = 0#1 then (if bits w 9 1 = 0#1 then .ok (.ldcx (bits w 18 6) (bits w 12 6) (bits w 10 2) (bits w 5 4) (bits w 0 5)) else .error .reservedField) else .error .marker
  | 69 => if bits w 24 1 = 0#1 then (if bits w 9 1 = 0#1 then .ok (.stcx (bits w 18 6) (bits w 12 6) (bits w 10 2) (bits w 5 4) (bits w 0 5)) else .error .reservedField) else .error .marker
  | 70 => if bits w 24 1 = 0#1 then .ok (.ldg (bits w 18 6) (bits w 12 6) (bits w 10 2) (bits w 9 1) (bits w 5 4) (bits w 0 5)) else .error .marker
  | 71 => if bits w 24 1 = 0#1 then .ok (.stg (bits w 18 6) (bits w 12 6) (bits w 10 2) (bits w 9 1) (bits w 5 4) (bits w 0 5)) else .error .marker
  | 72 => if bits w 24 1 = 0#1 then (if bits w 9 1 = 0#1 then .ok (.ldo (bits w 18 6) (bits w 12 6) (bits w 10 2) (bits w 5 4) (bits w 0 5)) else .error .reservedField) else .error .marker
  | 73 => if bits w 24 1 = 0#1 then (if bits w 9 1 = 0#1 then .ok (.sto (bits w 18 6) (bits w 12 6) (bits w 10 2) (bits w 5 4) (bits w 0 5)) else .error .reservedField) else .error .marker
  | 74 => if bits w 24 1 = 0#1 then .ok (.ldd (bits w 18 6) (bits w 17 1) (bits w 12 5) (bits w 9 3) (bits w 5 4) (bits w 0 5)) else .error .marker
  | 75 => if bits w 24 1 = 0#1 then .ok (.lddQ (bits w 21 3) (bits w 19 2) (bits w 18 1) (bits w 17 1) (bits w 12 5) (bits w 9 3) (bits w 5 4) (bits w 0 5)) else .error .marker
  | 76 => if bits w 24 1 = 0#1 then .ok (.std (bits w 18 6) (bits w 17 1) (bits w 12 5) (bits w 9 3) (bits w 5 4) (bits w 0 5)) else .error .marker
  | 77 => if bits w 24 1 = 0#1 then (if bits w 9 3 = 0#3 ∧ bits w 0 5 = 0#5 then .ok (.ldh (bits w 18 6) (bits w 12 6) (bits w 5 4)) else .error .reservedField) else .error .marker
  | 78 => if bits w 24 1 = 0#1 then (if bits w 9 3 = 0#3 ∧ bits w 0 5 = 0#5 then .ok (.ldhQ (bits w 21 3) (bits w 19 2) (bits w 18 1) (bits w 12 6) (bits w 5 4)) else .error .reservedField) else .error .marker
  | 79 => if bits w 24 1 = 0#1 then (if bits w 9 3 = 0#3 ∧ bits w 0 5 = 0#5 then .ok (.sth (bits w 18 6) (bits w 12 6) (bits w 5 4)) else .error .reservedField) else .error .marker
  | 80 => decodeAmo w
  | 81 => if bits w 24 1 = 0#1 then (if bits w 0 5 = 0#5 then .ok (.waita (bits w 18 6) (bits w 12 6) (bits w 9 3) (bits w 5 4)) else .error .reservedField) else .error .marker
  | 82 => decodeFence w
  | 83 => if bits w 24 1 = 0#1 then (if bits w 22 2 = 0#2 ∧ bits w 5 4 = 0#4 then .ok (.sbaseD (bits w 18 4) (bits w 17 1) (bits w 12 5) (bits w 9 3) (bits w 0 5)) else .error .reservedField) else .error .marker
  | 84 => if bits w 24 1 = 0#1 then (if bits w 22 2 = 0#2 then .ok (.sbase (bits w 18 4) (bits w 12 6) (bits w 0 12)) else .error .reservedField) else .error .marker
  | 85 => if bits w 24 1 = 0#1 then (if bits w 22 2 = 0#2 ∧ bits w 9 3 = 0#3 then .ok (.sld (bits w 18 4) (bits w 12 6) (bits w 5 4) (bits w 0 5)) else .error .reservedField) else .error .marker
  | 86 => if bits w 24 1 = 0#1 then (if bits w 22 2 = 0#2 ∧ bits w 9 3 = 0#3 then .ok (.sst (bits w 18 4) (bits w 12 6) (bits w 5 4) (bits w 0 5)) else .error .reservedField) else .error .marker
  | 87 => if bits w 24 1 = 0#1 then (if bits w 22 2 = 0#2 ∧ bits w 2 10 = 0#10 then .ok (.sset (bits w 18 4) (bits w 12 6) (bits w 0 2)) else .error .reservedField) else .error .marker
  | 88 => if bits w 24 1 = 0#1 then (if bits w 16 2 = 0#2 ∧ bits w 2 10 = 0#10 then .ok (.sget (bits w 18 6) (bits w 12 4) (bits w 0 2)) else .error .reservedField) else .error .marker
  | 89 => decodeXfer w
  | 90 => if bits w 24 1 = 1#1 then (if bits w 6 3 = 0#3 then .ok (.cvt (bits w 18 6) (bits w 12 6) (bits w 9 3) (bits w 3 3) (bits w 0 3)) else .error .reservedField) else .error .marker
  | 96 => decodeVop w
  | 97 => decodeVred w
  | 98 => decodeVcvt w
  | 99 => decodeVdec w
  | 100 => decodeChain w
  | 101 => decodeMat w
  | 102 => decodeCopy w
  | 103 => decodeCnv w
  | 104 => decodeNb w
  | 105 => decodeWqe w
  | 106 => if bits w 24 1 = 0#1 then (if bits w 21 3 = 0#3 ∧ bits w 4 8 = 0#8 then .ok (.rapp (bits w 18 3) (bits w 12 6) (bits w 0 4)) else .error .reservedField) else .error .marker
  | 107 => decodeNotice w
  | 108 => decodeRegion w
  | 109 => if bits w 24 1 = 0#1 then (if bits w 9 3 = 0#3 ∧ bits w 4 1 = 0#1 then .ok (.lldt (bits w 18 6) (bits w 12 6) (bits w 5 4) (bits w 0 4)) else .error .reservedField) else .error .marker
  | 112 => if bits w 24 1 = 0#1 then (if bits w 12 6 = 0#6 then .ok (.csrr (bits w 18 6) (bits w 0 12)) else .error .reservedField) else .error .marker
  | 113 => if bits w 24 1 = 0#1 then (if bits w 18 6 = 0#6 then .ok (.csrw (bits w 12 6) (bits w 0 12)) else .error .reservedField) else .error .marker
  | 114 => if bits w 24 1 = 0#1 then (if bits w 12 12 = 0#12 then .ok (.trap (bits w 0 12)) else .error .reservedField) else .error .marker
  | 115 => decodeSys w
  | _ => .error .majorOpcode

/-- A shared-subset word of a ring, bit 24 aside (R68, R98). -/
def decodeShared (w : Word32) : Except Reject Instr :=
  let v := w &&& ~~~0x01000000#32
  match majorOpcode w with
  | 3 | 4 | 29 | 30 => .error .notOnEngine
  | 31 => if bits w 24 1 = 1#1 ∨ bits w 20 4 = 2#4 then .error .notOnEngine else decodeStrand v
  | _ => decodeStrand v

/-- The private half of ring 0 (R246, R259). -/
def decodeRing0 (w : Word32) : Except Reject Instr :=
  match majorOpcode w with
  | 64 => .ok (.mmzCmd (bits w 24 1) (bits w 18 6) (bits w 0 18))
  | 65 => .ok (.mmaCmd (bits w 24 1) (bits w 18 6) (bits w 0 18))
  | 66 => .ok (.mdrCmd (bits w 24 1) (bits w 18 6) (bits w 0 18))
  | 67 => .ok (.mxzCmd (bits w 24 1) (bits w 18 6) (bits w 16 2) (bits w 0 16))
  | 68 => .ok (.mxaCmd (bits w 24 1) (bits w 18 6) (bits w 16 2) (bits w 0 16))
  | 69 => .ok (.mldCmd (bits w 24 1) (bits w 18 6) (bits w 0 18))
  | 70 => if bits w 18 6 = 0#6 then .ok (.segCmd (bits w 24 1) (bits w 0 18)) else .error .reservedField
  | _ => .error .majorOpcode

/-- The private half of rings 1 to 5 (R162, R200, R239, R292). -/
def decodeRingN (n : Nat) (w : Word32) : Except Reject Instr :=
  if majorOpcode w ≠ 64 then .error .majorOpcode
  else match n with
  | 1 | 2 => if bits w 18 6 = 0#6 then .ok (.cpq (bits w 24 1) (bits w 0 18)) else .error .reservedField
  | 3 => if bits w 18 1 = 0#1 then .ok (.cvq (bits w 24 1) (bits w 22 2) (bits w 19 3) (bits w 0 18)) else .error .reservedField
  | 4 => .ok (.nbq (bits w 24 1) (bits w 0 24))
  | 5 => if bits w 18 6 = 0#6 then .ok (.wqeCmd (bits w 24 1) (bits w 0 18)) else .error .reservedField
  | _ => .error .majorOpcode

/-- A command word of engine n's ring (R47, R68, R98). -/
def decodeRing (n : Nat) (w : Word32) : Except Reject Instr :=
  if majorOpcode w < 64 then decodeShared w
  else if n = 0 then decodeRing0 w
  else decodeRingN n w

/-- A Cricket word (R342). -/
def decodeCricket (w : Word32) : Except Reject Instr :=
  match (bits w 26 6).toNat with
  | 0 => if bits w 20 6 = 0#6 ∧ bits w 2 2 = 0#2 then .ok (.cricketHalt (bits w 4 16) (bits w 0 2)) else .error .reservedField
  | 1 => if bits w 20 3 = 0#3 then .ok (.cricketLi (bits w 23 3) (bits w 0 20)) else .error .reservedField
  | 2 => if bits w 16 7 = 0#7 then .ok (.cricketLhi (bits w 23 3) (bits w 0 16)) else .error .reservedField
  | 3 => if bits w 0 17 = 0#17 then .ok (.cricketAdd (bits w 23 3) (bits w 20 3) (bits w 17 3)) else .error .reservedField
  | 4 => if bits w 0 17 = 0#17 then .ok (.cricketSub (bits w 23 3) (bits w 20 3) (bits w 17 3)) else .error .reservedField
  | 5 => if bits w 0 17 = 0#17 then .ok (.cricketAnd (bits w 23 3) (bits w 20 3) (bits w 17 3)) else .error .reservedField
  | 6 => if bits w 0 17 = 0#17 then .ok (.cricketOr (bits w 23 3) (bits w 20 3) (bits w 17 3)) else .error .reservedField
  | 7 => if bits w 0 17 = 0#17 then .ok (.cricketXor (bits w 23 3) (bits w 20 3) (bits w 17 3)) else .error .reservedField
  | 8 => if bits w 0 17 = 0#17 then .ok (.cricketSltu (bits w 23 3) (bits w 20 3) (bits w 17 3)) else .error .reservedField
  | 9 => .ok (.cricketAddi (bits w 23 3) (bits w 20 3) (bits w 0 20))
  | 10 => if bits w 5 15 = 0#15 then .ok (.cricketShli (bits w 23 3) (bits w 20 3) (bits w 0 5)) else .error .reservedField
  | 11 => if bits w 5 15 = 0#15 then .ok (.cricketShri (bits w 23 3) (bits w 20 3) (bits w 0 5)) else .error .reservedField
  | 12 => if bits w 10 13 = 0#13 then .ok (.cricketPkt (bits w 23 3) (bits w 0 10)) else .error .reservedField
  | 13 => if bits w 23 3 = 0#3 ∧ bits w 10 10 = 0#10 then .ok (.cricketSetpkt (bits w 20 3) (bits w 0 10)) else .error .reservedField
  | 14 => if bits w 14 9 = 0#9 then .ok (.cricketLd (bits w 23 3) (bits w 12 2) (bits w 0 12)) else .error .reservedField
  | 15 => if bits w 23 3 = 0#3 ∧ bits w 14 6 = 0#6 then .ok (.cricketSt (bits w 20 3) (bits w 12 2) (bits w 0 12)) else .error .reservedField
  | 16 => if bits w 14 6 = 0#6 ∧ bits w 0 12 = 0#12 then .ok (.cricketLdr (bits w 23 3) (bits w 20 3) (bits w 12 2)) else .error .reservedField
  | 17 => if bits w 23 3 = 0#3 ∧ bits w 14 3 = 0#3 ∧ bits w 0 12 = 0#12 then .ok (.cricketStr (bits w 20 3) (bits w 17 3) (bits w 12 2)) else .error .reservedField
  | 18 => if bits w 23 3 = 0#3 then .ok (.cricketBz (bits w 20 3) (bits w 0 20)) else .error .reservedField
  | 19 => if bits w 23 3 = 0#3 then .ok (.cricketBnz (bits w 20 3) (bits w 0 20)) else .error .reservedField
  | 20 => if bits w 20 6 = 0#6 then .ok (.cricketLoop (bits w 12 8) (bits w 0 12)) else .error .reservedField
  | _ => .error .majorOpcode

/-- A packet: its header word and its body words (R326, R337, R361).  A SUB that the packet does not define is refused. -/
def decodePacket (h : Word32) (body : List Word32) : Except Reject Instr :=
  let sub : BitVec 8 := bits h 16 8
  let plain (i : Instr) : Except Reject Instr := if sub = 0#8 then .ok i else .error .reservedField
  match (bits h 24 8).toNat with
  | 0x00 => plain (.pktNop body)
  | 0x01 => if sub = 0#8 then .ok (.pktWrite body) else if sub = 1#8 then .ok (.pktWriteAdd body) else .error .function
  | 0x02 => .ok (.pktWaitmem sub body)
  | 0x03 => .ok (.pktCond sub body)
  | 0x04 => plain (.pktIb body)
  | 0x05 => plain (.pktLoop body)
  | 0x06 => plain (.pktLoadslot body)
  | 0x07 => plain (.pktEvictslot body)
  | 0x08 => plain (.pktInvoke body)
  | 0x09 => if body = [] then plain .pktFence else .error .reservedField
  | 0x0A => if body = [] then plain .pktFfence else .error .reservedField
  | 0x0B => plain (.pktEvent body)
  | 0x0C => plain (.pktSummary body)
  | 0x0D =>
    if sub = 0#8 then .ok (.pktQcbSh body) else if sub = 1#8 then .ok (.pktQcbCommit body)
    else if sub = 2#8 then .ok (.pktQcbRead body) else .error .function
  | _ => .error .majorOpcode

/-- A packet at the head of a list of words: the packet and the words after it. -/
def decodePacketAt : List Word32 → Except Reject (Instr × List Word32)
  | [] => .error .cut
  | h :: ws =>
    let n := (bits h 0 16).toNat
    if ws.length < n then .error .cut
    else match decodePacket h (ws.take n) with
      | .ok i => .ok (i, ws.drop n)
      | .error r => .error r

/-- A packet's words (R326). -/
def packetWords (op sub : BitVec 8) (body : List Word32) : List Word32 :=
  cat op (cat sub (BitVec.ofNat 16 body.length) rfl) rfl :: body

/-- The words of an instruction; a row without an encoding has none. -/
def encode : Instr → List Word32
  | .bt c o => [cat 1#7 (cat 0#1 (cat c o rfl) rfl) rfl]
  | .bf c o => [cat 2#7 (cat 0#1 (cat c o rfl) rfl) rfl]
  | .call c o => [cat 3#7 (cat 0#1 (cat c o rfl) rfl) rfl]
  | .jr a => [cat 4#7 (cat 0#1 (cat 0#6 (cat a 0#12 rfl) rfl) rfl) rfl]
  | .lbeg r l a i => [cat 5#7 (cat 0#1 (cat r (cat 0#2 (cat l (cat a i rfl) rfl) rfl) rfl) rfl) rfl]
  | .lend l o => [cat 6#7 (cat 0#1 (cat 0#3 (cat l o rfl) rfl) rfl) rfl]
  | .add e d a b => [cat 16#7 (cat e (cat d (cat a (cat b 0#6 rfl) rfl) rfl) rfl) rfl]
  | .sub e d a b => [cat 16#7 (cat e (cat d (cat a (cat b 1#6 rfl) rfl) rfl) rfl) rfl]
  | .and e d a b => [cat 16#7 (cat e (cat d (cat a (cat b 2#6 rfl) rfl) rfl) rfl) rfl]
  | .or e d a b => [cat 16#7 (cat e (cat d (cat a (cat b 3#6 rfl) rfl) rfl) rfl) rfl]
  | .xor e d a b => [cat 16#7 (cat e (cat d (cat a (cat b 4#6 rfl) rfl) rfl) rfl) rfl]
  | .andn e d a b => [cat 16#7 (cat e (cat d (cat a (cat b 5#6 rfl) rfl) rfl) rfl) rfl]
  | .shl e d a b => [cat 16#7 (cat e (cat d (cat a (cat b 6#6 rfl) rfl) rfl) rfl) rfl]
  | .shr e d a b => [cat 16#7 (cat e (cat d (cat a (cat b 7#6 rfl) rfl) rfl) rfl) rfl]
  | .sra e d a b => [cat 16#7 (cat e (cat d (cat a (cat b 8#6 rfl) rfl) rfl) rfl) rfl]
  | .min e d a b => [cat 16#7 (cat e (cat d (cat a (cat b 9#6 rfl) rfl) rfl) rfl) rfl]
  | .max e d a b => [cat 16#7 (cat e (cat d (cat a (cat b 10#6 rfl) rfl) rfl) rfl) rfl]
  | .minu e d a b => [cat 16#7 (cat e (cat d (cat a (cat b 11#6 rfl) rfl) rfl) rfl) rfl]
  | .maxu e d a b => [cat 16#7 (cat e (cat d (cat a (cat b 12#6 rfl) rfl) rfl) rfl) rfl]
  | .mul e d a b => [cat 16#7 (cat e (cat d (cat a (cat b 13#6 rfl) rfl) rfl) rfl) rfl]
  | .mulh e d a b => [cat 16#7 (cat e (cat d (cat a (cat b 14#6 rfl) rfl) rfl) rfl) rfl]
  | .mulhu e d a b => [cat 16#7 (cat e (cat d (cat a (cat b 15#6 rfl) rfl) rfl) rfl) rfl]
  | .adds e d a b => [cat 16#7 (cat e (cat d (cat a (cat b 16#6 rfl) rfl) rfl) rfl) rfl]
  | .subs e d a b => [cat 16#7 (cat e (cat d (cat a (cat b 17#6 rfl) rfl) rfl) rfl) rfl]
  | .addus e d a b => [cat 16#7 (cat e (cat d (cat a (cat b 18#6 rfl) rfl) rfl) rfl) rfl]
  | .subus e d a b => [cat 16#7 (cat e (cat d (cat a (cat b 19#6 rfl) rfl) rfl) rfl) rfl]
  | .sextb e d a => [cat 16#7 (cat e (cat d (cat a 20#12 rfl) rfl) rfl) rfl]
  | .sexth e d a => [cat 16#7 (cat e (cat d (cat a 21#12 rfl) rfl) rfl) rfl]
  | .sextw e d a => [cat 16#7 (cat e (cat d (cat a 22#12 rfl) rfl) rfl) rfl]
  | .clz e d a => [cat 16#7 (cat e (cat d (cat a 23#12 rfl) rfl) rfl) rfl]
  | .popc e d a => [cat 16#7 (cat e (cat d (cat a 24#12 rfl) rfl) rfl) rfl]
  | .addi e d a i => [cat 17#7 (cat e (cat d (cat a i rfl) rfl) rfl) rfl]
  | .andi e d a i => [cat 18#7 (cat e (cat d (cat a i rfl) rfl) rfl) rfl]
  | .ori e d a i => [cat 19#7 (cat e (cat d (cat a i rfl) rfl) rfl) rfl]
  | .xori e d a i => [cat 20#7 (cat e (cat d (cat a i rfl) rfl) rfl) rfl]
  | .shli e d a n => [cat 21#7 (cat e (cat d (cat a (cat 0#6 n rfl) rfl) rfl) rfl) rfl]
  | .shri e d a n => [cat 22#7 (cat e (cat d (cat a (cat 0#6 n rfl) rfl) rfl) rfl) rfl]
  | .srai e d a n => [cat 23#7 (cat e (cat d (cat a (cat 0#6 n rfl) rfl) rfl) rfl) rfl]
  | .mini e d a i => [cat 24#7 (cat e (cat d (cat a i rfl) rfl) rfl) rfl]
  | .maxi e d a i => [cat 25#7 (cat e (cat d (cat a i rfl) rfl) rfl) rfl]
  | .cmp e d a b c => [cat 26#7 (cat e (cat d (cat a (cat b (cat 0#3 c rfl) rfl) rfl) rfl) rfl) rfl]
  | .cmpi e d a c i => [cat 27#7 (cat e (cat d (cat a (cat c i rfl) rfl) rfl) rfl) rfl]
  | .pand e d a b => [cat 28#7 (cat e (cat d (cat a (cat b 0#6 rfl) rfl) rfl) rfl) rfl]
  | .por e d a b => [cat 28#7 (cat e (cat d (cat a (cat b 1#6 rfl) rfl) rfl) rfl) rfl]
  | .pxor e d a b => [cat 28#7 (cat e (cat d (cat a (cat b 2#6 rfl) rfl) rfl) rfl) rfl]
  | .pandn e d a b => [cat 28#7 (cat e (cat d (cat a (cat b 3#6 rfl) rfl) rfl) rfl) rfl]
  | .pnot e d a => [cat 28#7 (cat e (cat d (cat a 4#12 rfl) rfl) rfl) rfl]
  | .ldp e d o => [cat 29#7 (cat e (cat d o rfl) rfl) rfl]
  | .sgwait s w => [cat 30#7 (cat 0#1 (cat s (cat 0#14 w rfl) rfl) rfl) rfl]
  | .sgraise s => [cat 30#7 (cat 0#1 (cat s 2048#18 rfl) rfl) rfl]
  | .repN e n => [cat 31#7 (cat e (cat 0#4 n rfl) rfl) rfl]
  | .repReg e c => [cat 31#7 (cat e (cat 16384#18 c rfl) rfl) rfl]
  | .accessPrefix c a l s v p z => [cat 31#7 (cat 0#1 (cat 2#4 (cat c (cat a (cat l (cat s (cat v (cat p (cat z 0#7 rfl) rfl) rfl) rfl) rfl) rfl) rfl) rfl) rfl) rfl]
  | .hint e x => [cat 62#7 (cat e x rfl) rfl]
  | .ldl z s a r o => [cat 64#7 (cat 1#1 (cat z (cat s (cat a (cat r (cat 0#1 o rfl) rfl) rfl) rfl) rfl) rfl) rfl]
  | .stl z s a r o => [cat 65#7 (cat 1#1 (cat z (cat s (cat a (cat r (cat 0#1 o rfl) rfl) rfl) rfl) rfl) rfl) rfl]
  | .ldc d b z p w i => [cat 66#7 (cat 0#1 (cat d (cat b (cat z (cat p (cat w i rfl) rfl) rfl) rfl) rfl) rfl) rfl]
  | .stc d b z p w i => [cat 67#7 (cat 0#1 (cat d (cat b (cat z (cat p (cat w i rfl) rfl) rfl) rfl) rfl) rfl) rfl]
  | .ldcx d b z w x => [cat 68#7 (cat 0#1 (cat d (cat b (cat z (cat 0#1 (cat w x rfl) rfl) rfl) rfl) rfl) rfl) rfl]
  | .stcx d b z w x => [cat 69#7 (cat 0#1 (cat d (cat b (cat z (cat 0#1 (cat w x rfl) rfl) rfl) rfl) rfl) rfl) rfl]
  | .ldg d b z f w i => [cat 70#7 (cat 0#1 (cat d (cat b (cat z (cat f (cat w i rfl) rfl) rfl) rfl) rfl) rfl) rfl]
  | .stg d b z f w i => [cat 71#7 (cat 0#1 (cat d (cat b (cat z (cat f (cat w i rfl) rfl) rfl) rfl) rfl) rfl) rfl]
  | .ldo d b z w i => [cat 72#7 (cat 0#1 (cat d (cat b (cat z (cat 0#1 (cat w i rfl) rfl) rfl) rfl) rfl) rfl) rfl]
  | .sto d b z w i => [cat 73#7 (cat 0#1 (cat d (cat b (cat z (cat 0#1 (cat w i rfl) rfl) rfl) rfl) rfl) rfl) rfl]
  | .ldd d h x l w i => [cat 74#7 (cat 0#1 (cat d (cat h (cat x (cat l (cat w i rfl) rfl) rfl) rfl) rfl) rfl) rfl]
  | .lddQ q p z h x l w i => [cat 75#7 (cat 0#1 (cat q (cat p (cat z (cat h (cat x (cat l (cat w i rfl) rfl) rfl) rfl) rfl) rfl) rfl) rfl) rfl]
  | .std d h x l w i => [cat 76#7 (cat 0#1 (cat d (cat h (cat x (cat l (cat w i rfl) rfl) rfl) rfl) rfl) rfl) rfl]
  | .ldh d a w => [cat 77#7 (cat 0#1 (cat d (cat a (cat 0#3 (cat w 0#5 rfl) rfl) rfl) rfl) rfl) rfl]
  | .ldhQ q p z a w => [cat 78#7 (cat 0#1 (cat q (cat p (cat z (cat a (cat 0#3 (cat w 0#5 rfl) rfl) rfl) rfl) rfl) rfl) rfl) rfl]
  | .sth d a w => [cat 79#7 (cat 0#1 (cat d (cat a (cat 0#3 (cat w 0#5 rfl) rfl) rfl) rfl) rfl) rfl]
  | .amoAdd d a b s => [cat 80#7 (cat 0#1 (cat d (cat a (cat b (cat s 0#4 rfl) rfl) rfl) rfl) rfl) rfl]
  | .amoAnd d a b s => [cat 80#7 (cat 0#1 (cat d (cat a (cat b (cat s 1#4 rfl) rfl) rfl) rfl) rfl) rfl]
  | .amoOr d a b s => [cat 80#7 (cat 0#1 (cat d (cat a (cat b (cat s 2#4 rfl) rfl) rfl) rfl) rfl) rfl]
  | .amoXor d a b s => [cat 80#7 (cat 0#1 (cat d (cat a (cat b (cat s 3#4 rfl) rfl) rfl) rfl) rfl) rfl]
  | .amoSmax d a b s => [cat 80#7 (cat 0#1 (cat d (cat a (cat b (cat s 4#4 rfl) rfl) rfl) rfl) rfl) rfl]
  | .amoSmin d a b s => [cat 80#7 (cat 0#1 (cat d (cat a (cat b (cat s 5#4 rfl) rfl) rfl) rfl) rfl) rfl]
  | .amoUmax d a b s => [cat 80#7 (cat 0#1 (cat d (cat a (cat b (cat s 6#4 rfl) rfl) rfl) rfl) rfl) rfl]
  | .amoUmin d a b s => [cat 80#7 (cat 0#1 (cat d (cat a (cat b (cat s 7#4 rfl) rfl) rfl) rfl) rfl) rfl]
  | .amoSwap d a b s => [cat 80#7 (cat 0#1 (cat d (cat a (cat b (cat s 8#4 rfl) rfl) rfl) rfl) rfl) rfl]
  | .amoCas d a b s => [cat 80#7 (cat 0#1 (cat d (cat a (cat b (cat s 9#4 rfl) rfl) rfl) rfl) rfl) rfl]
  | .waita d a m w => [cat 81#7 (cat 0#1 (cat d (cat a (cat m (cat w 0#5 rfl) rfl) rfl) rfl) rfl) rfl]
  | .waitaWake => []
  | .waitaBoundWake => []
  | .facq s => [cat 82#7 (cat 0#1 (cat 0#3 (cat s 0#18 rfl) rfl) rfl) rfl]
  | .frel s => [cat 82#7 (cat 0#1 (cat 0#3 (cat s 1#18 rfl) rfl) rfl) rfl]
  | .facqrel s => [cat 82#7 (cat 0#1 (cat 0#3 (cat s 2#18 rfl) rfl) rfl) rfl]
  | .cinv a b => [cat 82#7 (cat 0#1 (cat 0#6 (cat a (cat b 3#6 rfl) rfl) rfl) rfl) rfl]
  | .dcfence a b => [cat 82#7 (cat 0#1 (cat 0#6 (cat a (cat b 4#6 rfl) rfl) rfl) rfl) rfl]
  | .sbaseD s h x l i => [cat 83#7 (cat 0#1 (cat 0#2 (cat s (cat h (cat x (cat l (cat 0#4 i rfl) rfl) rfl) rfl) rfl) rfl) rfl) rfl]
  | .sbase s a i => [cat 84#7 (cat 0#1 (cat 0#2 (cat s (cat a i rfl) rfl) rfl) rfl) rfl]
  | .sld s a w i => [cat 85#7 (cat 0#1 (cat 0#2 (cat s (cat a (cat 0#3 (cat w i rfl) rfl) rfl) rfl) rfl) rfl) rfl]
  | .sst s a w i => [cat 86#7 (cat 0#1 (cat 0#2 (cat s (cat a (cat 0#3 (cat w i rfl) rfl) rfl) rfl) rfl) rfl) rfl]
  | .sset s a k => [cat 87#7 (cat 0#1 (cat 0#2 (cat s (cat a (cat 0#10 k rfl) rfl) rfl) rfl) rfl) rfl]
  | .sget d s k => [cat 88#7 (cat 0#1 (cat d (cat 0#2 (cat s (cat 0#10 k rfl) rfl) rfl) rfl) rfl) rfl]
  | .xpop d w => [cat 89#7 (cat 0#1 (cat d (cat 0#14 w rfl) rfl) rfl) rfl]
  | .xpush a w => [cat 89#7 (cat 1#1 (cat 0#6 (cat a (cat 0#8 w rfl) rfl) rfl) rfl) rfl]
  | .cvt d a r t s => [cat 90#7 (cat 1#1 (cat d (cat a (cat r (cat 0#3 (cat t s rfl) rfl) rfl) rfl) rfl) rfl) rfl]
  | .vadd d a b f r => [cat 96#7 (cat 1#1 (cat d (cat a (cat b (cat f (cat r 0#5 rfl) rfl) rfl) rfl) rfl) rfl) rfl]
  | .vsub d a b f r => [cat 96#7 (cat 1#1 (cat d (cat a (cat b (cat f (cat r 1#5 rfl) rfl) rfl) rfl) rfl) rfl) rfl]
  | .vmul d a b f r => [cat 96#7 (cat 1#1 (cat d (cat a (cat b (cat f (cat r 2#5 rfl) rfl) rfl) rfl) rfl) rfl) rfl]
  | .vfma d a b f r => [cat 96#7 (cat 1#1 (cat d (cat a (cat b (cat f (cat r 3#5 rfl) rfl) rfl) rfl) rfl) rfl) rfl]
  | .vdiv d a b f r => [cat 96#7 (cat 1#1 (cat d (cat a (cat b (cat f (cat r 4#5 rfl) rfl) rfl) rfl) rfl) rfl) rfl]
  | .vsqrt d a f r => [cat 96#7 (cat 1#1 (cat d (cat a (cat 0#4 (cat f (cat r 5#5 rfl) rfl) rfl) rfl) rfl) rfl) rfl]
  | .vneg d a f r => [cat 96#7 (cat 1#1 (cat d (cat a (cat 0#4 (cat f (cat r 6#5 rfl) rfl) rfl) rfl) rfl) rfl) rfl]
  | .vabs d a f r => [cat 96#7 (cat 1#1 (cat d (cat a (cat 0#4 (cat f (cat r 7#5 rfl) rfl) rfl) rfl) rfl) rfl) rfl]
  | .vmin d a b f r => [cat 96#7 (cat 1#1 (cat d (cat a (cat b (cat f (cat r 8#5 rfl) rfl) rfl) rfl) rfl) rfl) rfl]
  | .vmax d a b f r => [cat 96#7 (cat 1#1 (cat d (cat a (cat b (cat f (cat r 9#5 rfl) rfl) rfl) rfl) rfl) rfl) rfl]
  | .vmov d a f r => [cat 96#7 (cat 1#1 (cat d (cat a (cat 0#4 (cat f (cat r 10#5 rfl) rfl) rfl) rfl) rfl) rfl) rfl]
  | .vadds d a b f r => [cat 96#7 (cat 1#1 (cat d (cat a (cat b (cat f (cat r 11#5 rfl) rfl) rfl) rfl) rfl) rfl) rfl]
  | .vsubs d a b f r => [cat 96#7 (cat 1#1 (cat d (cat a (cat b (cat f (cat r 12#5 rfl) rfl) rfl) rfl) rfl) rfl) rfl]
  | .vand d a b f r => [cat 96#7 (cat 1#1 (cat d (cat a (cat b (cat f (cat r 13#5 rfl) rfl) rfl) rfl) rfl) rfl) rfl]
  | .vor d a b f r => [cat 96#7 (cat 1#1 (cat d (cat a (cat b (cat f (cat r 14#5 rfl) rfl) rfl) rfl) rfl) rfl) rfl]
  | .vxor d a b f r => [cat 96#7 (cat 1#1 (cat d (cat a (cat b (cat f (cat r 15#5 rfl) rfl) rfl) rfl) rfl) rfl) rfl]
  | .vshl d a b f r => [cat 96#7 (cat 1#1 (cat d (cat a (cat b (cat f (cat r 16#5 rfl) rfl) rfl) rfl) rfl) rfl) rfl]
  | .vshr d a b f r => [cat 96#7 (cat 1#1 (cat d (cat a (cat b (cat f (cat r 17#5 rfl) rfl) rfl) rfl) rfl) rfl) rfl]
  | .vsra d a b f r => [cat 96#7 (cat 1#1 (cat d (cat a (cat b (cat f (cat r 18#5 rfl) rfl) rfl) rfl) rfl) rfl) rfl]
  | .vexp d a f r => [cat 96#7 (cat 1#1 (cat d (cat a (cat 0#4 (cat f (cat r 19#5 rfl) rfl) rfl) rfl) rfl) rfl) rfl]
  | .vlog d a f r => [cat 96#7 (cat 1#1 (cat d (cat a (cat 0#4 (cat f (cat r 20#5 rfl) rfl) rfl) rfl) rfl) rfl) rfl]
  | .vrsqrt d a f r => [cat 96#7 (cat 1#1 (cat d (cat a (cat 0#4 (cat f (cat r 21#5 rfl) rfl) rfl) rfl) rfl) rfl) rfl]
  | .vtanh d a f r => [cat 96#7 (cat 1#1 (cat d (cat a (cat 0#4 (cat f (cat r 22#5 rfl) rfl) rfl) rfl) rfl) rfl) rfl]
  | .vsigm d a f r => [cat 96#7 (cat 1#1 (cat d (cat a (cat 0#4 (cat f (cat r 23#5 rfl) rfl) rfl) rfl) rfl) rfl) rfl]
  | .vrsum d a f => [cat 97#7 (cat 1#1 (cat d (cat a (cat 0#4 (cat f 0#8 rfl) rfl) rfl) rfl) rfl) rfl]
  | .vdot d a b f => [cat 97#7 (cat 1#1 (cat d (cat a (cat b (cat f 1#8 rfl) rfl) rfl) rfl) rfl) rfl]
  | .vrmax d a f => [cat 97#7 (cat 1#1 (cat d (cat a (cat 0#4 (cat f 2#8 rfl) rfl) rfl) rfl) rfl) rfl]
  | .vrmin d a f => [cat 97#7 (cat 1#1 (cat d (cat a (cat 0#4 (cat f 3#8 rfl) rfl) rfl) rfl) rfl) rfl]
  | .vrsums d a f => [cat 97#7 (cat 1#1 (cat d (cat a (cat 0#4 (cat f 4#8 rfl) rfl) rfl) rfl) rfl) rfl]
  | .vdots d a b f => [cat 97#7 (cat 1#1 (cat d (cat a (cat b (cat f 5#8 rfl) rfl) rfl) rfl) rfl) rfl]
  | .vcvt d a f r => [cat 98#7 (cat 1#1 (cat d (cat a (cat 0#4 (cat f (cat r 0#5 rfl) rfl) rfl) rfl) rfl) rfl) rfl]
  | .vcvtH16 d a f r => [cat 98#7 (cat 1#1 (cat d (cat a (cat 0#4 (cat f (cat r 1#5 rfl) rfl) rfl) rfl) rfl) rfl) rfl]
  | .vcvtH32 d a f r => [cat 98#7 (cat 1#1 (cat d (cat a (cat 0#4 (cat f (cat r 2#5 rfl) rfl) rfl) rfl) rfl) rfl) rfl]
  | .vsign d a f r => [cat 99#7 (cat 1#1 (cat d (cat a (cat 0#4 (cat f (cat r 0#5 rfl) rfl) rfl) rfl) rfl) rfl) rfl]
  | .vcmpgt d a b f r => [cat 99#7 (cat 1#1 (cat d (cat a (cat b (cat f (cat r 1#5 rfl) rfl) rfl) rfl) rfl) rfl) rfl]
  | .vcmpge d a b f r => [cat 99#7 (cat 1#1 (cat d (cat a (cat b (cat f (cat r 2#5 rfl) rfl) rfl) rfl) rfl) rfl) rfl]
  | .vcmpeq d a b f r => [cat 99#7 (cat 1#1 (cat d (cat a (cat b (cat f (cat r 3#5 rfl) rfl) rfl) rfl) rfl) rfl) rfl]
  | .vthr d a b f r => [cat 99#7 (cat 1#1 (cat d (cat a (cat b (cat f (cat r 4#5 rfl) rfl) rfl) rfl) rfl) rfl) rfl]
  | .vargmax d a f r => [cat 99#7 (cat 1#1 (cat d (cat a (cat 0#4 (cat f (cat r 5#5 rfl) rfl) rfl) rfl) rfl) rfl) rfl]
  | .vargmin d a f r => [cat 99#7 (cat 1#1 (cat d (cat a (cat 0#4 (cat f (cat r 6#5 rfl) rfl) rfl) rfl) rfl) rfl) rfl]
  | .vtopk d a f r => [cat 99#7 (cat 1#1 (cat d (cat a (cat 0#4 (cat f (cat r 7#5 rfl) rfl) rfl) rfl) rfl) rfl) rfl]
  | .chainB => [cat 100#7 (cat 1#1 0#24 rfl) rfl]
  | .chainE => [cat 100#7 (cat 1#1 1#24 rfl) rfl]
  | .mmz t a b => [cat 101#7 (cat 0#1 (cat t (cat a (cat b 0#6 rfl) rfl) rfl) rfl) rfl]
  | .mma t a b => [cat 101#7 (cat 0#1 (cat t (cat a (cat b 1#6 rfl) rfl) rfl) rfl) rfl]
  | .mdr t a b => [cat 101#7 (cat 0#1 (cat t (cat a (cat b 2#6 rfl) rfl) rfl) rfl) rfl]
  | .mxz t a b => [cat 101#7 (cat 0#1 (cat t (cat a (cat b 3#6 rfl) rfl) rfl) rfl) rfl]
  | .mxa t a b => [cat 101#7 (cat 0#1 (cat t (cat a (cat b 4#6 rfl) rfl) rfl) rfl) rfl]
  | .mld t a b => [cat 101#7 (cat 0#1 (cat t (cat a (cat b 5#6 rfl) rfl) rfl) rfl) rfl]
  | .seg a b => [cat 101#7 (cat 0#1 (cat 0#6 (cat a (cat b 6#6 rfl) rfl) rfl) rfl) rfl]
  | .mxzHd16 t a b => [cat 101#7 (cat 0#1 (cat t (cat a (cat b 11#6 rfl) rfl) rfl) rfl) rfl]
  | .mxaHd16 t a b => [cat 101#7 (cat 0#1 (cat t (cat a (cat b 12#6 rfl) rfl) rfl) rfl) rfl]
  | .tget d a => [cat 101#7 (cat 0#1 (cat d (cat a 16#12 rfl) rfl) rfl) rfl]
  | .tput a b => [cat 101#7 (cat 0#1 (cat 0#6 (cat a (cat b 17#6 rfl) rfl) rfl) rfl) rfl]
  | .tkill t => [cat 101#7 (cat 0#1 (cat t 18#18 rfl) rfl) rfl]
  | .mxzHd32 t a b => [cat 101#7 (cat 0#1 (cat t (cat a (cat b 19#6 rfl) rfl) rfl) rfl) rfl]
  | .mxaHd32 t a b => [cat 101#7 (cat 0#1 (cat t (cat a (cat b 20#6 rfl) rfl) rfl) rfl) rfl]
  | .copy a b n => [cat 102#7 (cat 0#1 (cat 0#6 (cat a (cat b (cat 0#5 n rfl) rfl) rfl) rfl) rfl) rfl]
  | .cnv r a b => [cat 103#7 (cat 0#1 (cat 0#3 (cat r (cat a (cat b 0#6 rfl) rfl) rfl) rfl) rfl) rfl]
  | .cnvH16 r a b => [cat 103#7 (cat 0#1 (cat 0#3 (cat r (cat a (cat b 1#6 rfl) rfl) rfl) rfl) rfl) rfl]
  | .cnvH32 r a b => [cat 103#7 (cat 0#1 (cat 0#3 (cat r (cat a (cat b 2#6 rfl) rfl) rfl) rfl) rfl) rfl]
  | .nbmv d a b k => [cat 104#7 (cat 0#1 (cat d (cat a (cat b (cat 0#3 k rfl) rfl) rfl) rfl) rfl) rfl]
  | .nbmva d a b k => [cat 104#7 (cat 0#1 (cat d (cat a (cat b (cat 1#3 k rfl) rfl) rfl) rfl) rfl) rfl]
  | .wqe a b => [cat 105#7 (cat 0#1 (cat 0#6 (cat a (cat b 0#6 rfl) rfl) rfl) rfl) rfl]
  | .rapp n a w => [cat 106#7 (cat 0#1 (cat 0#3 (cat n (cat a (cat 0#8 w rfl) rfl) rfl) rfl) rfl) rfl]
  | .publ d a b => [cat 107#7 (cat 0#1 (cat d (cat a (cat b 0#6 rfl) rfl) rfl) rfl) rfl]
  | .pull d a b => [cat 107#7 (cat 0#1 (cat d (cat a (cat b 1#6 rfl) rfl) rfl) rfl) rfl]
  | .decl a => [cat 107#7 (cat 0#1 (cat 0#6 (cat a 2#12 rfl) rfl) rfl) rfl]
  | .pfence => [cat 107#7 (cat 0#1 3#24 rfl) rfl]
  | .ljoin a b r => [cat 108#7 (cat 0#1 (cat 0#6 (cat a (cat b (cat 0#2 r rfl) rfl) rfl) rfl) rfl) rfl]
  | .linc a b r => [cat 108#7 (cat 0#1 (cat 0#6 (cat a (cat b (cat 1#2 r rfl) rfl) rfl) rfl) rfl) rfl]
  | .lst a b r => [cat 108#7 (cat 0#1 (cat 0#6 (cat a (cat b (cat 2#2 r rfl) rfl) rfl) rfl) rfl) rfl]
  | .lld d a r => [cat 108#7 (cat 0#1 (cat d (cat a (cat 3#8 r rfl) rfl) rfl) rfl) rfl]
  | .lldt d b w r => [cat 109#7 (cat 0#1 (cat d (cat b (cat 0#3 (cat w (cat 0#1 r rfl) rfl) rfl) rfl) rfl) rfl) rfl]
  | .csrr d n => [cat 112#7 (cat 0#1 (cat d (cat 0#6 n rfl) rfl) rfl) rfl]
  | .csrw a n => [cat 113#7 (cat 0#1 (cat 0#6 (cat a n rfl) rfl) rfl) rfl]
  | .trap n => [cat 114#7 (cat 0#1 (cat 0#12 n rfl) rfl) rfl]
  | .halt => [cat 115#7 (cat 0#1 0#24 rfl) rfl]
  | .tfence => [cat 115#7 (cat 0#1 1#24 rfl) rfl]
  | .yield => [cat 115#7 (cat 0#1 2#24 rfl) rfl]
  | .yieldp => [cat 115#7 (cat 0#1 3#24 rfl) rfl]
  | .haltComplete => []
  | .mmzCmd x t b => [cat 64#7 (cat x (cat t b rfl) rfl) rfl]
  | .mmaCmd x t b => [cat 65#7 (cat x (cat t b rfl) rfl) rfl]
  | .mdrCmd x t b => [cat 66#7 (cat x (cat t b rfl) rfl) rfl]
  | .mxzCmd x t h o => [cat 67#7 (cat x (cat t (cat h o rfl) rfl) rfl) rfl]
  | .mxaCmd x t h o => [cat 68#7 (cat x (cat t (cat h o rfl) rfl) rfl) rfl]
  | .mldCmd x t b => [cat 69#7 (cat x (cat t b rfl) rfl) rfl]
  | .segCmd x b => [cat 70#7 (cat x (cat 0#6 b rfl) rfl) rfl]
  | .segmentCountOverrun => []
  | .cpq x b => [cat 64#7 (cat x (cat 0#6 b rfl) rfl) rfl]
  | .cvq x h r b => [cat 64#7 (cat x (cat h (cat r (cat 0#1 b rfl) rfl) rfl) rfl) rfl]
  | .nbq x r => [cat 64#7 (cat x r rfl) rfl]
  | .wqeCmd x b => [cat 64#7 (cat x (cat 0#6 b rfl) rfl) rfl]
  | .illegalCommand _ => []
  | .engineSyncWaitDone _ => []
  | .engineCommandComplete _ => []
  | .nbPassStart _ => []
  | .nbPassComplete _ => []
  | .wqeIssue => []
  | .workSignalArrival => []
  | .wqeCompletion => []
  | .leaseGrant => []
  | .leaseIdleExpiry => []
  | .storePerform => []
  | .l1Writeback => []
  | .l1Drop => []
  | .scratchCopyDrop => []
  | .queueEntryFill => []
  | .loadDataReturn => []
  | .blockEnd _ => []
  | .progressTrap _ => []
  | .trapDelivery => []
  | .shretRetry => []
  | .shretSkip => []
  | .shretFail => []
  | .shadowFault => []
  | .aflagsWrite => []
  | .ringcfgWrite _ _ => []
  | .pinopExtend _ _ => []
  | .pinopForceRelease _ => []
  | .pinopRepublish _ _ => []
  | .pinDeadlineExpiry _ => []
  | .noticeDelivery => []
  | .pullRequestIssue => []
  | .pullRequestArrival => []
  | .pullServed => []
  | .declineArrival => []
  | .pullUnitLanding => []
  | .routeAck => []
  | .pullCompletion => []
  | .pswinWrite _ => []
  | .psrateWrite _ => []
  | .rgctlInstallRegion _ => []
  | .rgctlRetireRegion _ => []
  | .rgctlInstallSchedule _ => []
  | .exchangeRoundStart => []
  | .exchangeMerge => []
  | .apctlInstall _ => []
  | .apctlRetire _ => []
  | .apertureRead => []
  | .tqctlConfigure _ => []
  | .tqctlDisable _ => []
  | .tlbopInvalidateVa _ => []
  | .tlbopInvalidateAsid _ => []
  | .tlbopInvalidateAll _ => []
  | .ualpeerQuery _ => []
  | .ualpeerRelease _ => []
  | .launchExpand => []
  | .recordSelect => []
  | .gangStart => []
  | .preloadLoad => []
  | .preloadActivate => []
  | .preemptRequest => []
  | .deadlineExpiry => []
  | .strandSave => []
  | .savedBankWrite => []
  | .strandRestore => []
  | .invocationReplay => []
  | .invocationFail => []
  | .strandStateError => []
  | .queueDoorbell => []
  | .pktNop body => packetWords 0#8 0#8 body
  | .pktWrite body => packetWords 1#8 0#8 body
  | .pktWriteAdd body => packetWords 1#8 1#8 body
  | .pktWaitmem sub body => packetWords 2#8 sub body
  | .waitmemTimeout => []
  | .pktCond sub body => packetWords 3#8 sub body
  | .pktIb body => packetWords 4#8 0#8 body
  | .pktLoop body => packetWords 5#8 0#8 body
  | .pktLoadslot body => packetWords 6#8 0#8 body
  | .pktEvictslot body => packetWords 7#8 0#8 body
  | .pktInvoke body => packetWords 8#8 0#8 body
  | .pktFence => [cat 4#7 (cat 1#1 0#24 rfl) rfl]
  | .pktFfence => [cat 5#7 (cat 0#1 0#24 rfl) rfl]
  | .pktEvent body => packetWords 11#8 0#8 body
  | .pktSummary body => packetWords 12#8 0#8 body
  | .pktQcbSh body => packetWords 13#8 0#8 body
  | .pktQcbCommit body => packetWords 13#8 1#8 body
  | .pktQcbRead body => packetWords 13#8 2#8 body
  | .cricketHalt c v => [cat 0#6 (cat 0#6 (cat c (cat 0#2 v rfl) rfl) rfl) rfl]
  | .cricketLi d i => [cat 1#6 (cat d (cat 0#3 i rfl) rfl) rfl]
  | .cricketLhi d i => [cat 2#6 (cat d (cat 0#7 i rfl) rfl) rfl]
  | .cricketAdd d a b => [cat 3#6 (cat d (cat a (cat b 0#17 rfl) rfl) rfl) rfl]
  | .cricketSub d a b => [cat 4#6 (cat d (cat a (cat b 0#17 rfl) rfl) rfl) rfl]
  | .cricketAnd d a b => [cat 5#6 (cat d (cat a (cat b 0#17 rfl) rfl) rfl) rfl]
  | .cricketOr d a b => [cat 6#6 (cat d (cat a (cat b 0#17 rfl) rfl) rfl) rfl]
  | .cricketXor d a b => [cat 7#6 (cat d (cat a (cat b 0#17 rfl) rfl) rfl) rfl]
  | .cricketSltu d a b => [cat 8#6 (cat d (cat a (cat b 0#17 rfl) rfl) rfl) rfl]
  | .cricketAddi d a i => [cat 9#6 (cat d (cat a i rfl) rfl) rfl]
  | .cricketShli d a n => [cat 10#6 (cat d (cat a (cat 0#15 n rfl) rfl) rfl) rfl]
  | .cricketShri d a n => [cat 11#6 (cat d (cat a (cat 0#15 n rfl) rfl) rfl) rfl]
  | .cricketPkt d n => [cat 12#6 (cat d (cat 0#13 n rfl) rfl) rfl]
  | .cricketSetpkt a n => [cat 13#6 (cat 0#3 (cat a (cat 0#10 n rfl) rfl) rfl) rfl]
  | .cricketLd d w o => [cat 14#6 (cat d (cat 0#9 (cat w o rfl) rfl) rfl) rfl]
  | .cricketSt a w o => [cat 15#6 (cat 0#3 (cat a (cat 0#6 (cat w o rfl) rfl) rfl) rfl) rfl]
  | .cricketLdr d a w => [cat 16#6 (cat d (cat a (cat 0#6 (cat w 0#12 rfl) rfl) rfl) rfl) rfl]
  | .cricketStr a b w => [cat 17#6 (cat 0#3 (cat a (cat b (cat 0#3 (cat w 0#12 rfl) rfl) rfl) rfl) rfl) rfl]
  | .cricketBz a o => [cat 18#6 (cat 0#3 (cat a o rfl) rfl) rfl]
  | .cricketBnz a o => [cat 19#6 (cat 0#3 (cat a o rfl) rfl) rfl]
  | .cricketLoop n l => [cat 20#6 (cat 0#6 (cat n l rfl) rfl) rfl]
  | .cricketBudgetExceeded => []
  | .qcbShadowWrite => []
  | .qcbCommit => []
  | .watchdogRollback => []
  | .mboxSummary => []
  | .mboxStage => []
  | .mboxVerifyWrite => []
  | .mboxResetBoot => []
  | .hubReset => []
  | .functionReady => []
  | .hostMemRead => []
  | .hostMemWrite => []
  | .hostCacheInvalidate => []
  | .inboundRead => []
  | .inboundWrite => []
  | .inboundAtomic => []
  | .inboundNotice => []
  | .podReplyArrival => []
  | .peerTimeoutReissue => []
  | .peerQuarantine => []
  | .sramUncorrectableError => []
  | .powerThrottle => []
  | .illegalInstruction w => [w]
  | .notAPacket h => [h]
  | .streamElementArrival => []
  | .correctableError => []
  | .powerOn => []
  | .corePowerGate => []
  | .corePowerUngate => []
  | .uzoantHalt => []
  | .uzoantResume => []
  | .uzoantWrite => []
  | .uzoantLaunch => []

/-- Take the first decoder that accepts. -/
def firstOk : List (Except Reject Instr) → Option Instr
  | [] => none
  | .ok i :: _ => some i
  | .error _ :: xs => firstOk xs

/-- The words of an instruction given as a number whose bit 0 is bit 0 of the first word. -/
def wordsOf (nbits w : Nat) : List Word32 :=
  (List.range ((nbits + 31) / 32 + 1)).map fun k => BitVec.ofNat 32 (w / 2 ^ (32 * k))

/-- The instruction of a row of the table, given by its bits as the table numbers them.  The same word can be an
instruction of several sequencers; strands come first, then the rings, the bare packets, Cricket, and the packets with
a body (assumption 11). -/
def decodeTableWord (nbits w : Nat) : Option Instr :=
  let ws := wordsOf nbits w
  let h := ws.headD 0
  let bare := if h = 0x09000000#32 then Except.ok Instr.pktFence
    else if h = 0x0A000000#32 then .ok .pktFfence else .error .majorOpcode
  firstOk [decodeStrand h, decodeRing 0 h, decodeRing 1 h, decodeRing 3 h, decodeRing 4 h, decodeRing 5 h, bare,
    decodeCricket h, (decodePacketAt (ws ++ List.replicate 64 0)).map Prod.fst]

end Sys2Proof
end

