-- ==== Sys2Proof/Machine/StrandState.lean ====
section
/-!
DEFINITION. The state that a strand owns: registers, queues, stream descriptors, traps, pins and tiles
(R18 to R42, R81, R91, R116, R190 to R193, R217, R256, R364, R381, R387 to R390).
-/
namespace Sys2Proof.Machine

/-- The spaces of R99. -/
inductive Space where
  | lane | cham | gal | grot | dev | host
deriving DecidableEq, Repr

/-- The register files and counters of R28, with the loop state of R81 and the flags of R91.  `p` is the file of all
predicates as the AP sees p1 to p31; `pe` is the EP's view of p1 to p31 (R26).  `aflags`, `srseedEp` and `waitbEp` are the
values at the EP's place in program order, `aflagsAp`, `srseed` and `waitb` those at the AP's (R89 to R91). -/
structure Regs where
  a : Vector Word 64
  e : Vector Word 32
  p : Vector Bool 48
  pe : Vector Bool 32
  rl : Vector Word 16
  lc : Vector Word 6
  lcst : Vector Word 6
  lcend : Vector Word 6
  rc : Word
  rotbase : Word
  waitb : Vector Word32 16
  waitbEp : Vector Word32 16
  aflags : Word
  aflagsAp : Word
  srseed : Word
  srseedEp : Word
deriving DecidableEq, Repr

/-- System registers of the strand (R12, R25, R111, R186, R206, R269, R320, R367, R387 to R389, R397). -/
structure SysRegs where
  lodstall : Word
  lodpred : Word
  zpcnt : Word
  digcancel : Word
  nbpois : Word
  mstat : Word
  ordstat : Word
  trapcause : Word
  tpc : Word
  tval : Word
  tinfo : Word
  shvec : Word
  ptbase : Word
  hptbase : Word
  gangid : Word
  lpidx : Word
  lpext : Vector Word 6
deriving DecidableEq, Repr

/-- What a queue-form load still has to fetch for its entry (R21): the physical place of its 8 bytes and how it reads
them. -/
structure LoadReq where
  space : Space
  addr : Nat
  pol : Nat
  zp : Bool
  rc : Nat
  view : Bool
  uc : Bool
deriving DecidableEq, Repr

/-- An entry of q0 to q7 (R20, R21): its data, none while awaiting data; the poison mark (1 zero-poison, 2 poison). -/
structure QEntry where
  data : Option Word
  mark : BitVec 2
  req : Option LoadReq
deriving DecidableEq, Repr

/-- The queues of R20. -/
structure Queues where
  q : Vector (List QEntry) 8
  bq : List Word
  xq : List Word
deriving DecidableEq, Repr

/-- A version of a stream descriptor (R11, R116): its four words, the place of the word that made it in program order,
and whether taking it clears POIS (R120).  POIS stands with the descriptor number. -/
structure Version where
  w0 : Word
  w1 : Word
  w2 : Word
  w3 : Word
  seq : Nat
  clears : Bool
deriving DecidableEq, Repr

/-- A stream descriptor: the EP's version first, the AP's last; never empty. -/
structure Stream where
  versions : List Version
  pois : Word32
deriving DecidableEq, Repr

/-- A block in progress (R24, R41, R42): wait class, count in clk, the bound as it was when the block started, and what
the progress trap names (R394).
`tally` is 1 when the block counts in `lodstall` while `xq` is empty, and n + 2 when it counts in `lodpred` while predicate n
waits for the EP (R12, R25). -/
structure Block where
  cls : Nat
  count : Nat
  kind : Nat
  obj : Nat
  eng : Nat
  rpos : Nat
  tally : Nat
  bound : Nat
deriving DecidableEq, Repr

/-- The fields of an access prefix (R51). -/
structure AccPrefix where
  rc : Nat
  acq : Bool
  rel : Bool
  scope : Nat
  pv : Bool
  pol : Nat
  zp : Bool
deriving DecidableEq, Repr

/-- What binds the word that runs: nothing, a `rep`, or an access prefix (R49, R50). -/
inductive Binding where
  | none
  | rep
  | access (p : AccPrefix)
deriving DecidableEq, Repr

/-- A `waita` monitor (R114, R115): the watched sector by its space and home address, the reason once woken, and its place in
the order in which monitors were armed. -/
structure Monitor where
  space : Space
  sector : Nat
  wake : Option Nat
  since : Nat
deriving DecidableEq, Repr

/-- What ends the strand once the EP has popped its entry (R19, R95). -/
inductive Ending where
  | halt | yield
deriving DecidableEq, Repr

/-- A read of a predicate in p32 to p47 by the AP waits for EP writers passed at these places (R26). -/
structure PredWriter where
  seq : Nat
  pred : Nat
deriving DecidableEq, Repr

/-- A `csrw` on its way to the EP (R89): its place, the register's number and the value. -/
structure EpWrite where
  seq : Nat
  reg : Nat
  val : Word
deriving DecidableEq, Repr

/-- The access processor (R15, R17, R24).  `seq` counts the words of the path that it has passed.  `repWrote` says
that the running `rep` has made its one stream version (R25).  `issued` says that a load has been issued whose data has
not arrived, `arrived` that it has (R382).  `offer` is the number of elements that the
generator has checked of the word it stands at, when it found a fault there, `offered` that the EP has used them (R119).
`chainPc` is the address of `chain.b` while the AP is inside a chain (R180); `fence` bounds the pulls that a `pfence`
waits for (R230). -/
structure Ap where
  pc : BitVec 56
  seq : Nat
  block : Option Block
  bind : Binding
  monitor : Option Monitor
  ending : Option Ending
  repWrote : Bool
  issued : Bool
  arrived : Bool
  offer : Option Nat
  offered : Bool
  chainPc : Option (BitVec 56)
  fence : Option Nat
deriving DecidableEq, Repr

/-- One lane of one link of a chain (R193): state, decision, steps taken (of a link without digits its step of R183, which stands once
it has decided), exponent, digits, latched operands and the special or exact value; for a reducing link the step at which the
element was excluded. -/
structure LaneLink where
  st : Nat
  dec : Nat
  pos : Nat
  xe : Int
  dig : List Int
  opa : Word32
  opb : Word32
  opd : Word32
  spv : Word32
  exc : Nat
deriving DecidableEq, Repr

/-- A candidate of a reducing link (R193). -/
structure Candidate where
  col : Nat
  xe : Int
  st : Nat
  dig : List Int
  spv : Word32
deriving DecidableEq, Repr

/-- The chain that the EP is inside (R173 to R193): address of `chain.b`, clk of the current pass so far (R190), row,
pass, lanes and whether the pass has entered; the entries of each lane, link by link; the lanes with a poisoned element and whether
the row has one; the candidates of the reducing link; and, column by column, what has been read ahead of the row
(R182): for each external stream an encoding and its mark. -/
structure ChainState where
  cpc : BitVec 56
  step : Nat
  row : Nat
  pass : Nat
  lanes : Nat
  entered : Bool
  entries : List (List LaneLink)
  marks : List Bool
  rowMark : Bool
  cand : List Candidate
  ahead : List (List (Nat × Bool))
deriving DecidableEq, Repr

/-- The execute record of R381 of a reduction or conversion that the EP is inside: its kind
(0 none), row and column, and what the row holds so far. -/
structure ExecRecord where
  kind : Nat
  row : Nat
  col : Nat
  acc : Nat
  seen : Bool
  nan : Bool
  poison : Bool
  stack : List (Int × Nat)
  cand : List (Nat × Nat)
  maxAbs : Nat
  satCnt : Nat
  nanCnt : Nat
  crcE : Word32
  crcM : Word32
  elemBytes : Nat
  metaBytes : Nat
deriving DecidableEq, Repr

/-- A translation that the AP has made for the streams of a word the EP has not retired (R119, R406): the word's place,
the page's tag, first virtual address, log2 size and entry. -/
structure HeldLeaf where
  seq : Nat
  asid : Nat
  host : Bool
  va : Nat
  size : Nat
  entry : Word
deriving DecidableEq, Repr

/-- Bytes that a checked or sparse source has had read ahead, by the generator of the AP for the word at this place or by an
engine for its command (R139, R143, R396): the stream, the first address, the bytes, and whether poison was among them. -/
structure Snap where
  seq : Nat
  stream : Nat
  addr : Nat
  bytes : List Byte
  poison : Bool
deriving DecidableEq, Repr

/-- A broadcast element that an unretired instruction has read (R147): its stream, encoding and mark, and, when it was
popped, its entry with POIS as it was before. -/
structure Latch where
  stream : Nat
  code : Nat
  marked : Bool
  entry : Option QEntry
  pois : Word32
deriving DecidableEq, Repr

/-- The execute processor (R15, R18, R22).  `seq` counts the words of the path that it has retired; `taken` holds the
operands an unretired instruction has popped (R410), `used` those popped in the attempt that runs; `pWrites` the memory destinations
of passed words, each with its word's place; `repCount` the count with which the running `rep` began (R134). -/
structure Ep where
  pc : BitVec 56
  seq : Nat
  block : Option Block
  bind : Binding
  held : Bool
  passFence : Bool
  taken : List Word
  used : List Word
  writes : List EpWrite
  pPend : List PredWriter
  xr : ExecRecord
  chain : Option ChainState
  leaves : List HeldLeaf
  snaps : List Snap
  pWrites : List (Nat × Version)
  repCount : Nat
  latched : List Latch
deriving DecidableEq, Repr

/-- The shadow context's own state (R390). -/
structure Shadow where
  pc : BitVec 56
  block : Option Block
  monitor : Option Monitor
  h : Vector Word 32
  hp : Vector Bool 8
deriving DecidableEq, Repr

/-- Who raised a trap: the classes of R382 to R384. -/
inductive TrapClass where
  | p | e | b
deriving DecidableEq, Repr

/-- A trap with what R387 and R388 record: cause code, argument, engine (0xFF none), source, faulting address,
access kind, stream and element; `pc` overrides the address of the instruction. -/
structure Trap where
  cls : TrapClass
  code : Nat
  arg : Nat
  eng : Nat
  src : Nat
  va : Word
  kind : Nat
  priv : Bool
  host : Bool
  stream : Nat
  elem : Nat
  pc : Option (BitVec 56)
deriving DecidableEq, Repr

/-- A pin entry (R217, R220): the register fields, the notice as published, for each position of its consumer list the
consumer, its answered bit and whether a pull of it is in service, and whether LEFT was set in this clk (R221). -/
structure Pin where
  tag : Word32
  ret : Nat
  off : Nat
  left : Nat
  state : Nat
  gen : Nat
  size : Nat
  notice : List Word32
  consumers : List Nat
  answered : List Bool
  serving : List Bool
  fresh : Bool
deriving DecidableEq, Repr

/-- An accumulator tile (R256, R417): 4,096 FP32 encodings when live, row by row. -/
structure Tile where
  live : Bool
  poisoned : Bool
  data : List Word32
deriving DecidableEq, Repr

/-- The kernel image as it was at launch (R78): base address, bytes, and the numbers of the sectors that the launch found poisoned
or could not read (assumption 80). -/
structure Image where
  base : Nat
  bytes : List Byte
  bad : List Nat
deriving DecidableEq, Repr

/-- What the launch took from the kernel descriptor (R364): descriptor address, lengths and offsets, flags, gang size,
bank mask, declared regions and their entries. -/
structure KernelInfo where
  desc : Nat
  textLen : Nat
  entry : Nat
  joinPc : Nat
  handler : Nat
  priv : Bool
  repl : Bool
  gang : Bool
  gsz : Nat
  banks : BitVec 8
  rset : BitVec 16
  rgn : List Word32
deriving DecidableEq, Repr

/-- A strand (R28 to R31, R38, R217, R256). -/
structure Strand where
  regs : Regs
  sys : SysRegs
  queues : Queues
  streams : Vector Stream 16
  ap : Ap
  ep : Ep
  shadow : Shadow
  sg : Vector (BitVec 16) 63
  pins : Vector Pin 16
  tiles : Vector Tile 48
  pend : List Trap
  image : Image
  info : KernelInfo
deriving DecidableEq, Repr

end Sys2Proof.Machine
end

