-- ==== Sys2Proof/Machine/CoreState.lean ====
section
/-!
DEFINITION. The state of a core beside its strand: engines and rings, the core's part of the order machine, the TLB,
core registers, the preload context and the current record (R31 to R40, R92, R98, R223, R232, R235, R265 to R271,
R295, R296, R300, R310, R368, R402, R406, R413, R419).
-/
namespace Sys2Proof.Machine

/-- Where an engine is in the steps of R37: before step 1, past step 1, past step 2, with its command handed over to
a stack or a port (step 3 not over), past step 3, past step 4. -/
inductive Phase where
  | start | waited | acquired | handed | performed | released
deriving DecidableEq, Repr

/-- A hardware loop level of an engine (R98); START and END are ring pointers. -/
structure EngineLoop where
  active : Bool
  start : BitVec 16
  last : BitVec 16
  count : Word
deriving DecidableEq, Repr

/-- A retained command (R413): its ring position, its words, for ring 0 the tile it kept as `init`, whether a replay
may start at it: TS = 1 and its tile not written by `tput` or `tkill` since (R415), for ring 4 the old destination elements that
it kept, with their marks (R202), and FTZ as it stood when its step 3 began (R246). -/
structure WindowCmd where
  pos : BitVec 16
  word : Word32
  sync : Option Word32
  init : Option Tile
  ts : Bool
  olds : Option (List (Nat × Bool))
  ftz : Option Bool
deriving DecidableEq, Repr

/-- A copy of a 32-byte sector: its space, view, home address, bytes and poison mark (R310, R321, R322). -/
structure SectorCopy where
  space : Space
  view : Bool
  addr : Nat
  data : List Byte
  poison : Bool
deriving DecidableEq, Repr

/-- A write of an engine to device or host memory that is not yet performed at its home (R321): its place, bytes, view and
uncached attribute, and the unit that it leaves marked poisoned or clean. -/
structure EngineWrite where
  space : Space
  view : Bool
  addr : Nat
  data : List Byte
  uc : Bool
  mark : Option (Nat × Bool)
deriving DecidableEq, Repr

/-- An open schedule segment (R265 to R268, R271): kind, count, expected CRC, SC, the CRC register so far, whether a rule
of R266 is broken, its `seg`'s ring position and block, the tiles as they stood when SC started (R415),
whether SC stands until a lease is granted again, and the lease's count to go on with. -/
structure Segment where
  bounded : Bool
  count : Nat
  crc : Word32
  sc : Nat
  crcNow : Word32
  broken : Bool
  pos : BitVec 16
  block : Nat
  saved : List (Nat × Tile)
  resumed : Bool
  cmds : Nat
deriving DecidableEq, Repr

/-- A TLB leaf (R402): its tag, the first virtual address and log2 size of its page, the entry, and the entry's place. -/
structure TlbLeaf where
  asid : Nat
  host : Bool
  va : Nat
  size : Nat
  entry : Word
  place : Nat
deriving DecidableEq, Repr

/-- An engine with its ring (R35 to R37, R46, R98, R310, R404, R413).  `entered` says that the command at RP has entered
the window and the open segment; `fails` counts its failed executions, each followed by a replay up to the second (R416), and `sweeps`
holds the runs of unmarked writes of the command, each with the place of its next byte, and `marked` the units that it has written
marked (R110, R411).  `leaves` are the translations that its commands hold, each with the command's ring position (R404), and `born` the
clk in which each command in flight was appended (R394).  `operands` is the operand buffer and
`writes` what the engine has written and not yet performed, oldest first (R310, R321).  `got` holds what the command of ring 0 in
step 3 has read, newest first, and `left` what of it a resumed step 3 still takes before it reads memory again (R270).  While `repLeft` is not 0 the command at RP is the word after the prefix at RP, and `repCount` is the count with which
the prefix began (R50, R134). -/
structure Engine where
  cfg : Word
  fp : BitVec 16
  rp : BitVec 16
  wp : BitVec 16
  next : BitVec 16
  n : Vector Word 16
  f : Vector Bool 8
  loops : Vector EngineLoop 4
  repLeft : Nat
  repCount : Nat
  phase : Phase
  stopped : Bool
  resumeAt : Phase
  overflow : Bool
  window : List WindowCmd
  wrote : List Nat
  job : Option Nat
  seg : Option Segment
  entered : Bool
  fails : Nat
  sweeps : List (Space × Nat)
  marked : List (Space × Nat)
  leaves : List (BitVec 16 × TlbLeaf)
  born : List (BitVec 16 × Nat)
  operands : List SectorCopy
  writes : List EngineWrite
  got : List (List Byte × Bool)
  left : List (List Byte × Bool)
deriving DecidableEq, Repr

/-- An entry of the store buffer (R311): place, bytes, policy, view and uncached attribute. -/
structure StoreEntry where
  space : Space
  addr : Nat
  data : List Byte
  pol : Nat
  view : Bool
  uc : Bool
deriving DecidableEq, Repr

/-- A sector of the L1 (R310, R322): space, view, physical address, bytes, dirty mask and poison. -/
structure L1Sector where
  space : Space
  view : Bool
  addr : Nat
  data : List Byte
  dirty : BitVec 32
  poison : Bool
deriving DecidableEq, Repr

/-- A read count of a line (R109). -/
structure LineCount where
  space : Space
  view : Bool
  line : Nat
  count : Nat
deriving DecidableEq, Repr

/-- The core's part of the order machine (R310): store buffer oldest first, scratch read buffer, L1 with read counts,
accumulators A(CORE) to A(SYSTEM), and the seen numbers of its six boards. -/
structure CoreOrder where
  stores : List StoreEntry
  scratch : List SectorCopy
  l1 : List L1Sector
  l1rc : List LineCount
  acc : Vector (BitVec 512) 6
  seen : Vector Nat 6
deriving DecidableEq, Repr

/-- Registers of the core (R92, R223, R232, R235, R295, R296, R300, R406, R419). -/
structure CoreRegs where
  yreq : Word
  ydead : Word
  rplstat : Word
  rtcnt : Word
  landfree : Word
  pinop : Word
  tlbop : Word
  wexp : Word
  wstat : Word
  wcnt : Vector Word32 16
deriving DecidableEq, Repr

/-- What a saved strand keeps beside its image (R378, R384): the image's address, core, member, BOUND, the strand and
engines with what the image does not hold (the EP's view of values that it has not reached, stopped engines), and the model slots
that its near-bank commands in flight hold references on (R199). -/
structure Kept where
  frame : Nat
  core : Nat
  member : Nat
  bound : Bool
  strand : Strand
  engines : Vector Engine 6
  slots : List Nat
deriving DecidableEq, Repr

/-- A continuation record (R368) with the model's own number of its invocation, gang mask of members that have halted
(R376), the declared regions of its kernel (R276), what a saved record keeps, one entry for each member, the launch frame
that it came from, the cores that a rerun is placed on, in the order of members (R377), and its place in the spill area of its queue
(R370). -/
structure Record where
  code : Word
  frame : Word
  join : Word
  idx : Word
  inv : Nat
  halted : Nat
  rset : BitVec 16
  kept : List Kept
  launch : Nat
  rerun : List Nat
  slot : Option Nat
deriving DecidableEq, Repr

/-- The record a core runs: the record as taken, its queue and die, when it started, whether it must be saved whole,
and its member of a gang (R368, R374). -/
structure Running where
  record : Record
  tq : Nat
  started : Nat
  member : Nat
  desc : Nat
deriving DecidableEq, Repr

/-- The preload context (R31, R32, R377). -/
structure Preload where
  record : Record
  tq : Nat
  pc : BitVec 56
  waitb : Vector Word32 16
  streams : Vector Stream 16
  rl : Vector Word 16
  banks : BitVec 8
deriving DecidableEq, Repr

/-- What a saved record holds in place on its core (R378): the image's address, tiles, bank mask, and whether the lane
slices are still held. -/
structure Held where
  frame : Nat
  tiles : Vector Tile 48
  banks : BitVec 8
  lanes : Bool
  bound : Bool
deriving DecidableEq, Repr

/-- A pin entry that outlives its strand's stay on the core (R224, R225): the saved record's frame, 0 for a strand that
ended; the entry's index; the entry. -/
structure OldPin where
  frame : Nat
  ix : Nat
  pin : Pin
deriving DecidableEq, Repr

/-- The context that executes (R31). -/
inductive Mode where
  | idle | running | shadow
deriving DecidableEq, Repr

/-- A core.  `trap` is the trap that the shadow services; `frozen` says that ring 0 froze the core (R270); `saveDue` that a forced save has fallen due (R33, R378);
`released` the clk in which the core was last released (R32). -/
structure Core where
  id : Nat
  mode : Mode
  gated : Bool
  halted : Bool
  strand : Strand
  preload : Option Preload
  running : Option Running
  held : List Held
  oldPins : List OldPin
  engines : Vector Engine 6
  order : CoreOrder
  tlb : List TlbLeaf
  regs : CoreRegs
  trap : Option Trap
  frozen : Bool
  saveDue : Bool
  released : Nat
deriving DecidableEq, Repr

end Sys2Proof.Machine
end

