-- ==== Sys2Proof/Machine/ShareState.lean ====
section
/-!
DEFINITION. State that cores share: memory, matrix arrays, port engines, stack queues, task queues, regions and
schedules, aperture windows, boards, pulls and messages on their way
(R99, R204, R216, R231, R232, R254, R273, R285, R289, R302, R316, R322, R370, R371, R418, R422 to R427).
-/
namespace Sys2Proof.Machine

/-- A memory: its bytes in canonical form, and the numbers of its poisoned sectors, rising (R110, R408). -/
structure Bank where
  cells : List Host.Cell
  poison : List Nat
deriving DecidableEq, Repr

/-- The memories of R99 and R400.  `devc` holds the compressed view of device sectors, `later` the numbers of the
sectors whose compressed view was written later at the home (R322),
`byEngine` those of the Chamber sectors that an engine or a pull wrote last (R313), `hostHeld` the numbers of the 64-byte device lines that
the host holds under CXL.mem (R421). -/
structure Mem where
  lane : Bank
  cham : Bank
  gal : Bank
  grot : Bank
  dev : Bank
  host : Bank
  devc : Bank
  later : List Nat
  byEngine : List Nat
  hostHeld : List Nat
deriving DecidableEq, Repr

/-- A request for the array (R252, R254): core within the quad and the clk of the request. -/
structure LeaseReq where
  core : Nat
  since : Nat
deriving DecidableEq, Repr

/-- The array of a quad (R252 to R255): holder, last holder, commands completed in the lease, whether a segment is
open, clk for which the holder has been idle, whether the lease was opened by a `seg`, requests; and `upset`, the mismatch
that the next product will find in its elements: 0 none, 5 of a residue, 6 of an exponent (R272). -/
structure MatrixArray where
  held : Bool
  holder : Nat
  cmds : Nat
  seg : Bool
  idle : Nat
  bySeg : Bool
  requests : List LeaseReq
  upset : Nat
deriving DecidableEq, Repr

/-- A WAITING notice slot (R216, R226). -/
structure Slot where
  core : Nat
  notice : List Word32
deriving DecidableEq, Repr

/-- An undelivered notice copy: the consumer's pod-wide name, the notice, whether it is a republished copy (R223), and the station that
holds it, 8 for one of this package (R425). -/
structure NoticeCopy where
  dest : Nat
  notice : List Word32
  again : Bool
  station : Nat
deriving DecidableEq, Repr

/-- The port engine of a cluster (R216, R231, R232). -/
structure Port where
  slots : List Slot
  outgoing : List NoticeCopy
  pswt : Word
  pswin : Word
  psrate : Word
  pgbase : Word
  pstat : Word
  inflight : Nat
  lastIssue : Nat
deriving DecidableEq, Repr

/-- A near-bank pass in the queue of a stack (R204): core, ring position, when it arrived. -/
structure NbPass where
  core : Nat
  arrived : Nat
  running : Bool
deriving DecidableEq, Repr

/-- What a pull is for: a `pull` instruction, an engine command, a work entry with the counter it increments (16 for
none), a consumer on another node, by its name. -/
inductive PullKind where
  | slot
  | engine (n : Nat)
  | entry (ctr : Nat)
  | foreign (consumer : Nat)
deriving DecidableEq, Repr

/-- Where a pull is (R226). -/
inductive PullState where
  | claimed | inService
deriving DecidableEq, Repr

/-- A pull that has not completed (R226 to R237, R240, R293 to R299). -/
structure Pull where
  id : Nat
  kind : PullKind
  state : PullState
  core : Nat
  prod : Nat
  pin : Nat
  gen : Nat
  tag : Word32
  size : Nat
  src : Nat
  device : Bool
  land : Nat
  cw : Option Nat
  cwval : Word
deriving DecidableEq, Repr

/-- The progress of a pull: options, bytes requested, units landed, units acknowledged on each route with the clk of the last
acknowledgement, the status once decided, what a work entry adds, the physical pages of a device source, flags of its reductions since
they last reached the strand, whether its completion has been written, and the bitmap bytes that a later entry has taken for another
CID or STEP (R299). -/
structure PullWork where
  id : Nat
  routes : Nat
  ord : Bool
  prio : Nat
  red : Option (Nat × Nat)
  requested : Nat
  landed : List Nat
  acked : List (Nat × Nat)
  poisoned : Bool
  position : Option Nat
  claimed : Nat
  ackedAt : Nat
  status : Option Nat
  tuple : Nat × Nat × Nat
  bitmap : Option Nat
  pages : List (Nat × Bool)
  flags : BitVec 7
  done : Bool
  stale : List (Nat × Nat)
deriving DecidableEq, Repr

/-- Messages between agents (R220, R234, R294, R297). -/
inductive Msg where
  | request (pull off len : Nat) (first : Bool)
  | serving (pull off len : Nat)
  | unit (pull ix acks : Nat) (cid step contrib : Nat) (data : List Byte) (poison : List Bool)
  | ack (pull core route units : Nat)
  | decline (prod pin gen consumer : Nat)
  | signal (source target addr : Nat) (val : Word) (ctr : Nat)
deriving DecidableEq, Repr

/-- What an outbound pod request is for: a read or write, an atomic by its operation (10 adds a word of a `write.add`), a notice, a
request of a pull, a signal, an event record with the vector that is signalled after it (R216, R231, R294, R328, R336, R423). -/
inductive PodKind where
  | read
  | write
  | atomic (op : Nat)
  | notice
  | decline (prod pin gen consumer : Nat)
  | pull (id off len : Nat)
  | signal (target : Nat) (ctr : Nat)
  | event (vec : Nat)
deriving DecidableEq, Repr

/-- An outbound request to another node (R423, R426): the core it serves and its agent (an engine's number, 6 the AP,
7 the EP, 8 the queues, 9 the ports, 10 the store buffer, 11 none that waits), node, offset in the node's window, purpose,
bytes, fabric clk of its issue, whether it is the second issue, and whether nothing waits for it any more because another issue
of the same request stands or has been answered (R298), whether the bytes that it writes are poisoned (R409), and the station that it
was issued on (R426). -/
structure PodReq where
  core : Nat
  agent : Nat
  node : Nat
  offset : Nat
  kind : PodKind
  data : List Byte
  issued : Nat
  reissued : Bool
  late : Bool
  poison : Bool
  station : Nat
deriving DecidableEq, Repr

/-- A reply that has come for an agent's read or atomic and has not been taken yet. -/
structure PodReply where
  core : Nat
  agent : Nat
  node : Nat
  offset : Nat
  data : List Byte
  poison : Bool
deriving DecidableEq, Repr

/-- A task queue of a die (R370, R371): its entry's fields, `spill` as the physical addresses of the pages of its spill area, records, credit
and when its head record reached the head. -/
structure TaskQueue where
  enabled : Bool
  mask : BitVec 192
  prio : Nat
  pre : Bool
  wgt : Nat
  age : Nat
  spill : List Nat
  splen : Nat
  records : List Record
  credit : Nat
  headSince : Nat
  asked : Option Nat
deriving DecidableEq, Repr

/-- Cores reserved for a gang leaf that stands in a task queue, and the clk of the last of them (R374). -/
structure Reservation where
  tq : Nat
  record : Record
  cores : List Nat
  since : Nat
deriving DecidableEq, Repr

/-- The scheduler and status registers of a die (R289, R370, R371, R374, R418). -/
structure Die where
  tq : Vector TaskQueue 32
  rr : Vector Nat 8
  tqctl : Word
  rgstat : Word
  eccstat : Word
  gangs : List Reservation
deriving DecidableEq, Repr

/-- An installed region (R273 to R275). -/
structure Region where
  type : Nat
  cells : Nat
  sched : Nat
  gbase : Nat
deriving DecidableEq, Repr

/-- The tag and the dirty bits of a replica cell, kept only where one is not 0 (R273, R284, R286). -/
structure CellMark where
  region : Nat
  die : Nat
  cell : Nat
  tag : Nat
  dirty : BitVec 16
deriving DecidableEq, Repr

/-- A cell pulled in an exchange round and not yet merged (R286). -/
structure CellPull where
  sched : Nat
  src : Nat
  dst : Nat
  region : Nat
  cell : Nat
  val : Word
  tag : Nat
deriving DecidableEq, Repr

/-- An installed exchange schedule (R285, R286): its rounds, the round that runs, when it started, and the dies already
counted late. -/
structure Schedule where
  rounds : List Word
  current : Nat
  begun : Bool
  started : Nat
  late : List Nat
deriving DecidableEq, Repr

/-- An aperture window (R302). -/
structure Window where
  size : Nat
  wva : Nat
  op : Nat
  fp32 : Bool
  members : BitVec 8
  bases : List Nat
  asid : Nat
  root : Word
deriving DecidableEq, Repr

/-- A board (R316): its scope and instance, the last sequence number, and the posts newest first. -/
structure Board where
  scope : Nat
  inst : Nat
  seq : Nat
  posts : List (Nat × BitVec 512)
deriving DecidableEq, Repr

/-- State of the package (R273, R276, R285, R302, R303, R316, R422 to R427). -/
structure Package where
  regions : Vector (Option Region) 16
  marks : List CellMark
  schedules : Vector (Option Schedule) 4
  merging : List CellPull
  rgctl : Word
  windows : Vector (Option Window) 16
  apctl : Word
  apstat : Word
  ualnode : Word
  ualcfg : Word
  ualpeer : Word
  quarantined : List Nat
  boards : List Board
  l2rc : List LineCount
deriving DecidableEq, Repr

/-- What cores share. -/
structure Share where
  arrays : List (Nat × MatrixArray)
  ports : List (Nat × Port)
  passes : Vector (List NbPass) 8
  dies : Vector Die 8
  pack : Package
  pulls : List Pull
  works : List PullWork
  nextPull : Nat
  net : List Msg
  pod : List PodReq
  replies : List PodReply
deriving DecidableEq, Repr

end Sys2Proof.Machine
end

