-- ==== Sys2Proof/Machine/HubState.lean ====
section
/-!
DEFINITION. The state of the hub: queues and control blocks, slots, invocations, fault and event records, launches,
firmware, mailbox and power (R1, R334 to R363, R367, R428, R431).
-/
namespace Sys2Proof.Machine

/-- A level of execution of a queue (R327, R329): the address of its first word, its words, the place of its packet, the
words held of a loop body with the passes left, and the fetched words by place.  Level 0 stands at RP. -/
structure Level where
  isLoop : Bool
  base : Nat
  size : Nat
  pos : Nat
  passes : Nat
  body : List Word32
  fetched : List (Nat × Word32)
deriving DecidableEq, Repr

/-- An installed Cricket image (R341): windows as base and length, instructions. -/
structure Cricket where
  windows : List (Nat × Nat)
  code : List Word32
deriving DecidableEq, Repr

/-- A Cricket run on a packet (R341 to R343): the registers, the place, loops as start, end and passes left, steps
taken, and the packet's words. -/
structure CricketRun where
  regs : Vector Word32 8
  pc : Nat
  loops : List (Nat × Nat × Nat)
  steps : Nat
  words : List Word32
  changed : Bool
  verdict : Option Nat
  code : Nat
deriving DecidableEq, Repr

/-- A write to a shadow block or to the commit word that waits for its place (R356, R357). -/
inductive QcbOp where
  | write (off : Nat) (bytes : List Byte)
  | commit (w : Word)
deriving DecidableEq, Repr

/-- A queue of the hub (R334, R353 to R360, R430): `held` is a doorbell that came before the queue processor was ready,
`pending` what waits for the next packet boundary, `wait` when the packet that waits began, `taken` the record that it writes, as it was
when it began (R336, R352). -/
structure HubQueue where
  active : Vector Word 32
  shadow : Vector Word 32
  commit : Word
  status : Word
  dirty : Bool
  rolled : Bool
  wp : Word32
  held : Option Word32
  pending : List QcbOp
  levels : List Level
  last : Word
  cause : Nat
  events : Nat
  wait : Option Nat
  taken : List Byte
  cricket : Option Cricket
  run : Option CricketRun
deriving DecidableEq, Repr

/-- The states of a slot (R344). -/
inductive SlotState where
  | empty | loading | loaded | evicting
deriving DecidableEq, Repr

/-- A resident-model slot (R344 to R347): state, device virtual address, the physical pages of its image, length, stack,
invocations in flight, and the queue whose packet loads or evicts it. -/
structure ModelSlot where
  state : SlotState
  owner : Nat
  base : Nat
  phys : List Nat
  len : Nat
  stack : Nat
  infl : Nat
deriving DecidableEq, Repr

/-- A fault record (R351). -/
structure FaultRecord where
  code : Nat
  core : Nat
  eng : Nat
  rp : Nat
  wp : Nat
  fp : Nat
  header : Nat
  arg : Nat
  clk : Nat
deriving DecidableEq, Repr

/-- A strand of an invocation that a core has started: its indices, whether it is the join strand, its member, the core (R377). -/
structure Ran where
  idx : Word
  join : Bool
  member : Nat
  core : Nat
deriving DecidableEq, Repr

/-- An invocation record (R347), with the fault that one of its strands has reported and the strands that had started (R349, R377). -/
structure Invocation where
  id : Nat
  queue : Nat
  header : Nat
  body : List Word32
  replays : Nat
  slot : Nat
  fault : Option FaultRecord
  ran : List Ran
deriving DecidableEq, Repr

/-- A launch (R364 to R369): its invocation (0 for the debugger's), descriptor, die, queue, frame, leaves, next leaf,
levels as extents and kinds, `ptbase` and `hptbase`, the kernel image as it was read, and the numbers of its sectors that could not
be read or were poisoned (assumption 80). -/
structure Launch where
  inv : Nat
  desc : Nat
  die : Nat
  tq : Nat
  frame : Nat
  total : Nat
  next : Nat
  exts : List Nat
  kinds : List Nat
  root : Word
  hroot : Word
  kernel : List Byte
  bad : List Nat
deriving DecidableEq, Repr

/-- Firmware, mailbox and bring-up (R362, R363, R397, R428): flash and staging bytes, mailbox register and buffer, the
ready bits, the root tables of the address spaces: ASID, device root, host root with EN (assumption 15), and whether firmware runs. -/
structure Firmware where
  flash : List Host.Cell
  staging : List Host.Cell
  mbox : Word
  buffer : List Host.Cell
  rdy : Word
  roots : List (Nat × Word × Word)
  running : Bool
deriving DecidableEq, Repr

/-- The last answer to a request from the host or from a peer: the data, their poison indication, an error completion
(R421, R424, R425, R430). -/
structure Reply where
  data : List Byte
  poison : Bool
  error : Bool
deriving DecidableEq, Repr

/-- The hub. -/
structure Hub where
  queues : Vector HubQueue 256
  slots : Vector ModelSlot 64
  invocations : List Invocation
  launches : List Launch
  nextInv : Nat
  faults : List FaultRecord
  interrupts : List Nat
  fw : Firmware
  hubClk : Nat
  hubFrac : Nat
  throttle : Nat
  reply : Reply
deriving DecidableEq, Repr

end Sys2Proof.Machine
end

