-- ==== Sys2Proof/Machine/State.lean ====
section
/-!
DEFINITION. The state of the machine and its reset, the faults and refusals.

A step is one turn of one agent (assumption 1).  `agenda` says which turns come next; when it is empty the agents of
the core in `core` take turns in a fixed rotation.  The other cores stand in `parked`; a core not listed there is as
at reset (assumption 2).
-/
namespace Sys2Proof.Machine

/-- What comes with an event from outside the machine: numbers and bytes. -/
structure Input where
  a : Nat
  b : Nat
  c : Nat
  bytes : List Byte
deriving DecidableEq, Repr

/-- An agent that can take a turn: `raise` is the turn of an engine, or of the AP with number 6, when it raises a semaphore
(R39); `upset` is an error in an element of the array (R272, assumption 33). -/
inductive Mover where
  | ap
  | ep
  | engine (n : Nat)
  | raise (n : Nat)
  | queue (n : Nat)
  | event (i : Instr) (x : Input)
  | upset (k : Nat)
  | tick
deriving DecidableEq, Repr

/-- A turn of an agent; `core` is the core it concerns. -/
structure Turn where
  core : Nat
  mover : Mover
deriving DecidableEq, Repr

/-- The machine.  `core` is the core whose turn it is; `onEngine` names the engine that executes, when one does;
`late` makes the parts lag: loads wait for their data, engine writes wait to be performed, and engine reads are served from the
operand buffer (assumption 5); `fresh` counts the free values taken so far. -/
structure State where
  core : Core
  parked : List Core
  share : Share
  hub : Hub
  mem : Mem
  agenda : List Turn
  rota : Nat
  input : Input
  onEngine : Option Nat
  late : Bool
  clk : Nat
  fresh : Nat
deriving DecidableEq, Repr

/-- Reasons for which a step ends in a fault. -/
inductive Fault where
  /-- Raised by no meaning: every stop that the manual describes is a trap, a block, a record or a queue halt, and
  these are states.  Safe. -/
  | undescribed
deriving DecidableEq, Repr

/-- Reasons for which a step is refused. -/
inductive Refusal where
  /-- Raised by a refused arm of `exec` only: an instruction that has no meaning yet.  Safe. -/
  | notModelled (mnemonic : String)
deriving DecidableEq, Repr

/-! ### Reset values (R28, R29, R35, R92, R116, R217, R232, R254, R255, R371, R387, R422; assumption 3) -/

def Regs.reset : Regs where
  a := .replicate 64 0
  e := .replicate 32 0
  p := .replicate 48 false
  pe := .replicate 32 false
  rl := .replicate 16 0
  lc := .replicate 6 0
  lcst := .replicate 6 0
  lcend := .replicate 6 0
  rc := 0
  rotbase := 0
  waitb := (Vector.replicate 16 0x10000#32).setIfInBounds 15 0xFFFFFFFF#32
  waitbEp := (Vector.replicate 16 0x10000#32).setIfInBounds 15 0xFFFFFFFF#32
  aflags := 0
  aflagsAp := 0
  srseed := 0
  srseedEp := 0

def SysRegs.reset : SysRegs where
  lodstall := 0
  lodpred := 0
  zpcnt := 0
  digcancel := 0
  nbpois := 0
  mstat := 0
  ordstat := 0
  trapcause := 0xFF0000#64
  tpc := 0
  tval := 0
  tinfo := 0
  shvec := 0
  ptbase := 0
  hptbase := 0
  gangid := 0
  lpidx := 0
  lpext := .replicate 6 0

def Version.zero : Version := ⟨0, 0, 0, 0, 0, false⟩

def ExecRecord.none : ExecRecord :=
  ⟨0, 0, 0, 0, false, false, false, [], [], 0, 0, 0, 0xFFFFFFFF#32, 0xFFFFFFFF#32, 0, 0⟩

def Pin.free : Pin := ⟨0, 0, 0, 0, 0, 0, 0, [], [], [], [], false⟩

def Tile.dead : Tile := ⟨false, false, []⟩

def KernelInfo.none : KernelInfo := ⟨0, 0, 0, 0, 0, false, false, false, 0, 0, 0, []⟩

/-- A strand as a launch of nothing would leave it. -/
def Strand.reset : Strand where
  regs := Regs.reset
  sys := SysRegs.reset
  queues := ⟨.replicate 8 [], [], []⟩
  streams := .replicate 16 ⟨[Version.zero], 0⟩
  ap := ⟨0, 0, none, .none, none, none, false, false, false, none, false, none, none⟩
  ep := ⟨0, 0, none, .none, false, false, [], [], [], [], ExecRecord.none, none, [], [], [], 0, []⟩
  shadow := ⟨0, none, none, .replicate 32 0, .replicate 8 false⟩
  sg := .replicate 63 0
  pins := .replicate 16 Pin.free
  tiles := .replicate 48 Tile.dead
  pend := []
  image := ⟨0, [], []⟩
  info := KernelInfo.none

def Engine.reset : Engine where
  cfg := 0x4000000#64
  fp := 0
  rp := 0
  wp := 0
  next := 0
  n := .replicate 16 0
  f := .replicate 8 false
  loops := .replicate 4 ⟨false, 0, 0, 0⟩
  repLeft := 0
  repCount := 0
  phase := .start
  stopped := false
  resumeAt := .start
  overflow := false
  window := []
  wrote := []
  job := none
  seg := none
  entered := false
  fails := 0
  sweeps := []
  marked := []
  leaves := []
  born := []
  operands := []
  writes := []
  got := []
  left := []

def CoreRegs.reset : CoreRegs where
  yreq := 0
  ydead := 0x0000800000008000#64
  rplstat := 0
  rtcnt := 0
  landfree := 0
  pinop := 0
  tlbop := 0
  wexp := 0
  wstat := 0
  wcnt := .replicate 16 0

/-- A core as at hub reset. -/
def Core.reset (id : Nat) : Core where
  id := id
  mode := .idle
  gated := false
  halted := false
  strand := Strand.reset
  preload := none
  running := none
  held := []
  oldPins := []
  engines := .replicate 6 Engine.reset
  order := ⟨[], [], [], [], .replicate 6 0, .replicate 6 0⟩
  tlb := []
  regs := CoreRegs.reset
  trap := none
  frozen := false
  saveDue := false
  released := 0

def MatrixArray.reset : MatrixArray := ⟨false, 3, 0, false, 0, false, [], 0⟩

def Port.reset : Port where
  slots := []
  outgoing := []
  pswt := 0x40101001#64
  pswin := 0x40000#64
  psrate := 0x100002#64
  pgbase := 0
  pstat := 0
  inflight := 0
  lastIssue := 0

def TaskQueue.reset : TaskQueue := ⟨false, 0, 0, false, 0, 0, [], 0, [], 0, 0, none⟩

def Die.reset : Die := ⟨.replicate 32 TaskQueue.reset, .replicate 8 0, 0, 0, 0, []⟩

def Package.reset : Package where
  regions := .replicate 16 none
  marks := []
  schedules := .replicate 4 none
  merging := []
  rgctl := 0
  windows := .replicate 16 none
  apctl := 0
  apstat := 0
  ualnode := 0x80000000000#64
  ualcfg := 0
  ualpeer := 0
  quarantined := []
  boards := []
  l2rc := []

def Share.reset : Share where
  arrays := []
  ports := []
  passes := .replicate 8 []
  dies := .replicate 8 Die.reset
  pack := Package.reset
  pulls := []
  works := []
  nextPull := 1
  net := []
  pod := []
  replies := []

def HubQueue.reset : HubQueue where
  active := .replicate 32 0
  shadow := .replicate 32 0
  commit := 0
  status := 0
  dirty := false
  rolled := false
  wp := 0
  held := none
  pending := []
  levels := []
  last := 0
  cause := 0
  events := 0
  wait := none
  taken := []
  cricket := none
  run := none

def ModelSlot.reset : ModelSlot := ⟨.empty, 0, 0, [], 0, 0, 0⟩

def Hub.reset : Hub where
  queues := .replicate 256 HubQueue.reset
  slots := .replicate 64 ModelSlot.reset
  invocations := []
  launches := []
  nextInv := 1
  faults := []
  interrupts := []
  fw := ⟨[], [], 0, [], 0, [], false⟩
  hubClk := 0
  hubFrac := 0
  throttle := 0
  reply := ⟨[], false, false⟩

def Bank.reset : Bank := ⟨[], []⟩

def Mem.reset : Mem :=
  ⟨Bank.reset, Bank.reset, Bank.reset, Bank.reset, Bank.reset, Bank.reset, Bank.reset, [], [], []⟩

/-- The machine right after reset: no strand, no queue running, memory with nothing listed. -/
def State.reset : State where
  core := Core.reset 0
  parked := []
  share := Share.reset
  hub := Hub.reset
  mem := Mem.reset
  agenda := []
  rota := 0
  input := ⟨0, 0, 0, []⟩
  onEngine := none
  late := false
  clk := 0
  fresh := 0

end Sys2Proof.Machine
end

