-- ==== Sys2Proof/Machine/Memory.lean ====
section
/-!
DEFINITION. Memories as lists of cells in canonical form, poison by sectors, and the places of the spaces
(R3, R99, R105, R110, R400, R408, R443).

Addresses rise strictly and no listed byte is 0, which is what an unlisted address reads as (assumption 4).
-/
namespace Sys2Proof.Machine

namespace Cells

/-- One byte. -/
def get : List Host.Cell → Nat → Byte
  | [], _ => 0
  | (k, v) :: r, a => if k = a then v else get r a

/-- One byte replaced; a byte of 0 is not listed. -/
def put : List Host.Cell → Nat → Byte → List Host.Cell
  | [], a, v => if v = 0 then [] else [(a, v)]
  | (k, w) :: r, a, v =>
    if a < k then (if v = 0 then (k, w) :: r else (a, v) :: (k, w) :: r)
    else if a = k then (if v = 0 then r else (a, v) :: r)
    else (k, w) :: put r a v

/-- n bytes from an address upward. -/
def read (m : List Host.Cell) (a : Nat) : Nat → List Byte
  | 0 => []
  | n + 1 => get m a :: read m (a + 1) n

/-- Bytes from an address upward replaced. -/
def write (m : List Host.Cell) (a : Nat) : List Byte → List Host.Cell
  | [] => m
  | b :: bs => write (put m a b) (a + 1) bs

/-- Bytes replaced where the mask, bit 0 first, is 1. -/
def writeMasked (m : List Host.Cell) (a : Nat) (mask : Nat) : List Byte → List Host.Cell
  | [] => m
  | b :: bs => writeMasked (if mask % 2 = 1 then put m a b else m) (a + 1) (mask / 2) bs

/-- The canonical form above a bound. -/
def wfFrom : Option Nat → List Host.Cell → Bool
  | _, [] => true
  | lo, (k, v) :: r => (match lo with | none => true | some l => l < k) && v != 0 && wfFrom (some k) r

/-- The canonical form: strictly rising, no byte of 0. -/
def wf (m : List Host.Cell) : Bool := wfFrom none m

end Cells

/-- A number put into a rising list. -/
def insertNat : List Nat → Nat → List Nat
  | [], a => [a]
  | k :: r, a => if a < k then a :: k :: r else if a = k then k :: r else k :: insertNat r a

/-- The sectors of size z, from number i upward, of an access: those it covers whole are clean (R110), the others keep
their marks. -/
def clearWhole (z lo hi : Nat) (ps : List Nat) : List Nat :=
  ps.filter fun i => !(lo ≤ z * i && z * i + z ≤ hi)

namespace Bank

/-- Is a sector that the access touches poisoned?  z is the size of a sector. -/
def poisoned (z : Nat) (b : Bank) (a n : Nat) : Bool :=
  b.poison.any fun i => z * i < a + n && a < z * i + z

/-- A write: it clears the poison of sectors that it covers whole (R110). -/
def write (z : Nat) (b : Bank) (a : Nat) (bs : List Byte) : Bank :=
  { cells := Cells.write b.cells a bs, poison := clearWhole z a (a + bs.length) b.poison }

/-- A sector marked poisoned (R408, R409). -/
def mark (b : Bank) (i : Nat) : Bank := { b with poison := insertNat b.poison i }

/-- A sector's mark set to a value. -/
def setMark (b : Bank) (i : Nat) (p : Bool) : Bank :=
  if p then b.mark i else { b with poison := b.poison.filter (· != i) }

end Bank

/-- The memory of a space; `view` selects the compressed view of device memory (R322). -/
def Mem.bank (m : Mem) (sp : Space) (view : Bool) : Bank :=
  match sp with
  | .lane => m.lane
  | .cham => m.cham
  | .gal => m.gal
  | .grot => m.grot
  | .dev => if view then m.devc else m.dev
  | .host => m.host

/-- The memory of a space replaced. -/
def Mem.setBank (m : Mem) (sp : Space) (view : Bool) (b : Bank) : Mem :=
  match sp with
  | .lane => { m with lane := b }
  | .cham => { m with cham := b }
  | .gal => { m with gal := b }
  | .grot => { m with grot := b }
  | .dev => if view then { m with devc := b } else { m with dev := b }
  | .host => { m with host := b }

/-- Bytes of a poison unit: an aligned 8-byte word of a lane slice, a 32-byte sector elsewhere (R408, R411). -/
def unitOf : Space → Nat
  | .lane => 8
  | _ => 32

/-- Unmarked writes of one word or command that cover a unit from its first byte to its last, one after the other, are a
write of the whole unit.  Each run is held with the place of its next byte; the answer holds the unit that a write of n
bytes at a completes (R110, R411; assumption 17). -/
def sweep (z : Nat) (runs : List (Space × Nat)) (sp : Space) (a n : Nat) : List (Space × Nat) × Option Nat :=
  if a % z ≠ 0 && !runs.contains (sp, a) then (runs, none)
  else
    let rest := runs.filter (· != (sp, a))
    if (a + n) % z = 0 then (rest, some (a / z)) else ((sp, a + n) :: rest, none)

/-- Every memory is in canonical form. -/
def Mem.wf (m : Mem) : Bool :=
  Cells.wf m.lane.cells && Cells.wf m.cham.cells && Cells.wf m.gal.cells && Cells.wf m.grot.cells &&
  Cells.wf m.dev.cells && Cells.wf m.host.cells && Cells.wf m.devc.cells

/-! ### Places (R99, R105, R400, R443) -/

/-- Place of byte `off` of a core's Chamber. -/
def chamAt (core off : Nat) : Nat := core * 2 ^ 23 + off

/-- Place of byte `off` of a core's 1 MiB of the Gallery. -/
def galAt (core off : Nat) : Nat := core * 2 ^ 20 + off

/-- Place of an interleaved Gallery offset of the cluster of a core (R105). -/
def galInterleaved (core x : Nat) : Nat :=
  galAt (core / 16 * 16 + x / 2 ^ 12 % 16) (x / 2 ^ 16 % 256 * 2 ^ 12 + x % 2 ^ 12)

/-- Place of an offset of a die's Grotto. -/
def grotAt (die off : Nat) : Nat := die * 2 ^ 26 + off

/-- Place of byte b of a lane's slice. -/
def laneAt (core lane b : Nat) : Nat := core * 2 ^ 18 + lane * 2 ^ 10 + b

/-- The die, cluster, quad and core of a core number (R6). -/
def dieOf (core : Nat) : Nat := core / 256
def clusterOf (core : Nat) : Nat := core / 16
def quadOf (core : Nat) : Nat := core / 4

/-- Does a core number name a core (R6)? -/
def coreOk (core : Nat) : Bool := core < 2048 && core / 16 % 16 < 12

/-- Device physical address of byte x of stack i (R400). -/
def stackAt (i x : Nat) : Nat := i * 2 ^ 36 + x

/-- The stack that holds a device physical address (R400). -/
def stackOf (pa : Nat) : Option Nat :=
  if pa / 2 ^ 36 < 8 && pa % 2 ^ 36 < 48 * 2 ^ 30 then some (pa / 2 ^ 36) else none

/-- Byte of a stack at offset o of pseudo-channel p (R443). -/
def channelAt (p o : Nat) : Nat := o / 4096 * 262144 + p * 4096 + o % 4096

/-- The instance of a scope that a core belongs to (R310). -/
def scopeInst (scope core : Nat) : Nat :=
  match scope with
  | 0 => core
  | 1 => quadOf core
  | 2 => clusterOf core
  | 3 => dieOf core
  | _ => 0

/-- Do the bytes [a, a + n) meet the sector? -/
def meetsSector (sec a n : Nat) : Bool := sec < a + n && a < sec + 32

end Sys2Proof.Machine
end

