-- ==== Sys2Proof/Machine/Ops.lean ====
section
/-!
DEFINITION. Named operations on cores, registers and memory; blocking; taking a trap and returning from one; the ends of
AP, EP and shadow instructions (R15 to R33, R41, R45, R69, R81 to R85, R382 to R392).
-/
namespace Sys2Proof.Machine

/-! ### Stops and the meaning monad -/

/-- What a block names (R41, R394). -/
structure Wait where
  cls : Nat
  kind : Nat
  obj : Nat
  eng : Nat := 0xFF
  rpos : Nat := 0xFFFF
  tally : Nat := 0
  bounded : Bool := true
deriving DecidableEq, Repr

/-- Why a meaning stops before its end: a trap, with the state to keep when earlier parts of the instruction stand; a
block, which leaves the state as it was; or a request to another node whose reply it needs (R423). -/
inductive Stop where
  | trap (keep : Option State) (t : Trap)
  | block (w : Wait)
  | ask (r : PodReq)
deriving DecidableEq, Repr

/-- Meanings read and write the state and may stop. -/
abbrev M := StateT State (Except Stop)

/-- Where the next instruction lies: the next word, a target, or the same word again. -/
inductive Flow where
  | seq
  | goto (t : BitVec 56) (rot : Bool)
  | stay
deriving DecidableEq, Repr

/-- The answer of a meaning. -/
abbrev Answer := Host.Outcome State Fault Refusal

/-- A trap with the given class, cause and argument, and nothing else. -/
def mkTrap (cls : TrapClass) (code arg : Nat) : Trap :=
  ⟨cls, code, arg, 0xFF, 0, 0, 0, false, false, 0, 0, none⟩

def stop {α : Type} (x : Stop) : M α := fun _ => .error x

/-- A precise trap of an AP instruction (R382). -/
def trapP {α : Type} (code arg : Nat) : M α := stop (.trap none (mkTrap .p code arg))

/-- An EP-precise trap (R383). -/
def trapE {α : Type} (code arg : Nat) : M α := stop (.trap none { mkTrap .e code arg with src := 1 })

/-- Any trap. -/
def raise {α : Type} (t : Trap) : M α := stop (.trap none t)

/-- A block (R24, R41). -/
def block {α : Type} (w : Wait) : M α := stop (.block w)

/-- Block while the condition holds (R69). -/
def blockIf (c : Bool) (w : Wait) : M Unit := if c then block w else pure ()

/-- A precise trap when the condition holds. -/
def trapIf (c : Bool) (code arg : Nat) : M Unit := if c then trapP code arg else pure ()

/-! ### Cores -/

/-- The core with a number; a core not listed is as at reset. -/
def State.coreAt (s : State) (id : Nat) : Core :=
  if s.core.id = id then s.core else (s.parked.find? fun c => c.id == id).getD (Core.reset id)

/-- A core replaced by its number. -/
def State.setCore (s : State) (c : Core) : State :=
  if s.core.id = c.id then { s with core := c }
  else { s with parked := c :: s.parked.filter fun d => d.id != c.id }

/-- The core whose turn it is becomes the core with this number. -/
def State.focus (s : State) (id : Nat) : State :=
  if s.core.id = id then s
  else { s with core := s.coreAt id, parked := s.core :: s.parked.filter fun d => d.id != id && d.id != s.core.id }

/-- Every listed core changed. -/
def State.mapCores (s : State) (f : Core → Core) : State :=
  { s with core := f s.core, parked := s.parked.map f }

/-- Every listed core. -/
def State.cores (s : State) : List Core := s.core :: s.parked

namespace State

def modCore (s : State) (f : Core → Core) : State := { s with core := f s.core }
def modStrand (s : State) (f : Strand → Strand) : State := s.modCore fun c => { c with strand := f c.strand }
def modRegs (s : State) (f : Regs → Regs) : State := s.modStrand fun t => { t with regs := f t.regs }
def modSys (s : State) (f : SysRegs → SysRegs) : State := s.modStrand fun t => { t with sys := f t.sys }
def modAp (s : State) (f : Ap → Ap) : State := s.modStrand fun t => { t with ap := f t.ap }
def modEp (s : State) (f : Ep → Ep) : State := s.modStrand fun t => { t with ep := f t.ep }
def modQueues (s : State) (f : Queues → Queues) : State := s.modStrand fun t => { t with queues := f t.queues }
def modOrder (s : State) (f : CoreOrder → CoreOrder) : State := s.modCore fun c => { c with order := f c.order }
def modCoreRegs (s : State) (f : CoreRegs → CoreRegs) : State := s.modCore fun c => { c with regs := f c.regs }
def modShare (s : State) (f : Share → Share) : State := { s with share := f s.share }
def modPack (s : State) (f : Package → Package) : State := s.modShare fun h => { h with pack := f h.pack }
def modHub (s : State) (f : Hub → Hub) : State := { s with hub := f s.hub }

def strand (s : State) : Strand := s.core.strand
def regs (s : State) : Regs := s.core.strand.regs
def ap (s : State) : Ap := s.core.strand.ap
def ep (s : State) : Ep := s.core.strand.ep

/-- An engine of the core. -/
def engine (s : State) (n : Nat) : Engine := s.core.engines[n]?.getD Engine.reset
def setEngine (s : State) (n : Nat) (e : Engine) : State :=
  s.modCore fun c => { c with engines := c.engines.setIfInBounds n e }
def modEngine (s : State) (n : Nat) (f : Engine → Engine) : State := s.setEngine n (f (s.engine n))

/-- Does the shadow context run (R31, R33)? -/
def inShadow (s : State) : Bool := s.core.mode == .shadow

/-- Privileged() of R69. -/
def privileged (s : State) : Bool := s.inShadow || s.strand.info.priv

end State

/-! ### Registers (R28 to R30, R46, R390) -/

/-- Size of a rotating allotment: of the AP by RA, of the EP by RE (R29, R30). -/
def allotAp (rot : Word) : Nat := match field rot 34 2 with | 1 => 8 | 2 => 16 | 3 => 32 | _ => 0
def allotEp (rot : Word) : Nat := match field rot 32 2 with | 1 => 8 | 2 => 16 | _ => 0

/-- The physical register of a code: `base` is the first rotating register, n the allotment, k the step (R30). -/
def physReg (base n k c : Nat) : Nat :=
  if base ≤ c ∧ c < base + n then base + ((c - base) + (n - k % n)) % n else c

/-- Physical number of an AP register code. -/
def Regs.apPhys (r : Regs) (c : Nat) : Nat := physReg 32 (allotAp r.rotbase) (field r.rotbase 0 16) c

/-- Physical number of an EP register code. -/
def Regs.epPhys (r : Regs) (c : Nat) : Nat := physReg 16 (allotEp r.rotbase) (field r.rotbase 16 16) c

/-- ARead of R69, and the registers h0 to h31 in the shadow (R390). -/
def State.aread (s : State) (c : Nat) : Word :=
  if c = 0 then 0
  else if s.inShadow then s.strand.shadow.h[c]?.getD 0
  else s.regs.a[s.regs.apPhys c]?.getD 0

/-- AWrite of R69. -/
def State.awrite (s : State) (c : Nat) (v : Word) : State :=
  if c = 0 then s
  else if s.inShadow then
    s.modStrand fun t => { t with shadow := { t.shadow with h := t.shadow.h.setIfInBounds c v } }
  else s.modRegs fun r => { r with a := r.a.setIfInBounds (r.apPhys c) v }

/-- EP register by code, below 32. -/
def State.eread (s : State) (c : Nat) : Word := s.regs.e[s.regs.epPhys c]?.getD 0

/-- EWrite of R69. -/
def State.ewrite (s : State) (c : Nat) (v : Word) : State :=
  s.modRegs fun r => { r with e := r.e.setIfInBounds (r.epPhys c) v }

/-- A predicate as the AP sees it: p0 reads 1 (R26); the shadow's own in the shadow (R390). -/
def State.predAp (s : State) (n : Nat) : Bool :=
  if n = 0 then true
  else if s.inShadow then s.strand.shadow.hp[n]?.getD false
  else s.regs.p[n]?.getD false

/-- A predicate as the EP sees it: p1 to p31 at its own place in program order (R26). -/
def State.predEp (s : State) (n : Nat) : Bool :=
  if n = 0 then true
  else if n < 32 then s.regs.pe[n]?.getD false
  else s.regs.p[n]?.getD false

/-- A predicate written; p0 ignores writes. -/
def State.predWrite (s : State) (n : Nat) (v : Bool) : State :=
  if n = 0 then s
  else if s.inShadow then
    s.modStrand fun t => { t with shadow := { t.shadow with hp := t.shadow.hp.setIfInBounds n v } }
  else s.modRegs fun r => { r with p := r.p.setIfInBounds n v }

/-- Registers and flags of an engine: n0 reads 0 and f0 reads 1, and writes to them are ignored (R46, R98). -/
def Engine.nread (e : Engine) (c : Nat) : Word := if c = 0 then 0 else e.n[c]?.getD 0
def Engine.nwrite (e : Engine) (c : Nat) (v : Word) : Engine :=
  if c = 0 then e else { e with n := e.n.setIfInBounds c v }
def Engine.fread (e : Engine) (c : Nat) : Bool := if c = 0 then true else e.f[c]?.getD false
def Engine.fwrite (e : Engine) (c : Nat) (v : Bool) : Engine :=
  if c = 0 then e else { e with f := e.f.setIfInBounds c v }

/-! ### Queues (R18 to R24, R410) -/

/-- The head entry of q0 to q7 as an EP register pop: its data, 0 under the zero-poison mark; an entry with poison mark
2 is popped and traps, and reads +0 when the instruction runs again; it blocks under the class (R22, R24, R69, R410). -/
def popReg (q : Nat) (cls : Nat := 0) : M Word := fun s =>
  match s.ep.taken with
  | v :: rest => .ok (v, s.modEp fun e => { e with taken := rest, used := e.used ++ [v] })
  | [] =>
    match s.strand.queues.q[q]?.getD [] with
    | [] => .error (.block { cls := cls, kind := 0, obj := q })
    | x :: rest =>
      match x.data with
      | none => .error (.block { cls := cls, kind := 0, obj := q })
      | some d =>
        let popped := s.modQueues fun z => { z with q := z.q.setIfInBounds q rest }
        if x.mark = 2#2 then
          .error (.trap (some (popped.modEp fun e => { e with taken := e.used ++ [0], used := [] }))
            { mkTrap .e 0x16 0 with src := 1 })
        else
          let v := if x.mark = 0#2 then d else 0
          .ok (v, popped.modEp fun e => { e with used := e.used ++ [v] })

/-- ERead of R69 for any source code of the EP. -/
def readEp (c : Nat) (cls : Nat := 0) : M Word :=
  if c < 32 then do return (← get).eread c else popReg (c - 32) cls

/-! ### Pushes into `bq` (R18) -/

/-- A path entry: TAKEN, ROT and TARGET. -/
def pathEntry (taken rot : Bool) (t : BitVec 56) : Word :=
  (if taken then 0x2000000000000000#64 else 0) ||| (if rot then 0x1000000000000000#64 else 0) ||| t.setWidth 64

/-- A predicate entry: VALUE and PRED. -/
def predEntry (v : Bool) (n : Nat) : Word :=
  0x4000000000000000#64 ||| (if v then 0x40#64 else 0) ||| BitVec.ofNat 64 n

def State.pushBq (s : State) (w : Word) : State := s.modQueues fun z => { z with bq := z.bq ++ [w] }

/-! ### Requests to other nodes (R423) -/

/-- The UALink stations that are ready, in order (R334). -/
def State.stations (s : State) : List Nat := (List.range 8).filter fun k => bit s.hub.fw.rdy (17 + k)

/-- An outbound request that is made in one turn, beside any other: on the lowest ready station (assumption 83). -/
def State.podSend (s : State) (r : PodReq) : State :=
  s.modShare fun h => { h with pod := h.pod ++ [{ r with station := s.stations.headD 0 }] }

/-- Do two requests stand for one access of an agent that tries again until its reply has come? -/
def PodReq.same (q r : PodReq) : Bool :=
  q.core == r.core && q.agent == r.agent && q.node == r.node && q.offset == r.offset && q.kind == r.kind && q.data == r.data

/-- An outbound request of an access that runs again until its reply has come: it is made once. -/
def State.podAsk (s : State) (r : PodReq) : State := if s.share.pod.any fun q => q.same r then s else s.podSend r

/-- Nothing waits any more for the replies to the requests of these agents of a core: agent 11 in their place. -/
def State.orphan (s : State) (core : Nat) (agents : List Nat) : State :=
  s.modShare fun h => { h with
    pod := h.pod.map fun r => if r.core == core && agents.contains r.agent then { r with agent := 11 } else r,
    replies := h.replies.filter fun r => !(r.core == core && agents.contains r.agent) }

/-- An agent has used the replies that came for it. -/
def State.podDone (s : State) (agent : Nat) : State :=
  s.modShare fun h => { h with replies := h.replies.filter fun r => !(r.core == s.core.id && r.agent == agent) }

/-! ### Fault records and the end of a strand (R224, R253, R349, R351, R376, R412) -/

/-- The node number of the package (R7, R422). -/
def State.node (s : State) : Nat := field s.share.pack.ualnode 0 16

/-- Pod-wide name of a core (R7). -/
def State.podName (s : State) (core : Nat) : Nat := s.node * 2048 + core

/-- The header address of the invocation that a core's record belongs to; 0 when none (R351). -/
def State.headerOf (s : State) (c : Core) : Nat :=
  match c.running with
  | none => 0
  | some r => ((s.hub.invocations.find? fun v => v.id == r.record.inv).map (·.header)).getD 0

/-- A fault record of the core with this cause (R351). -/
def State.mkRecord (s : State) (c : Core) (code arg eng : Nat) : FaultRecord :=
  let e := c.engines[eng]?.getD Engine.reset
  ⟨code, s.podName c.id, eng, e.rp.toNat, e.wp.toNat, e.fp.toNat, s.headerOf c, arg, s.hub.hubClk⟩

/-- A fault record written; the 64 newest stand (R350, R351). -/
def State.addRecord (s : State) (r : FaultRecord) : State :=
  s.modHub fun h => { h with faults := (r :: h.faults).take 64 }

/-- Does the deadline test expire the entry: it is PINNED with LEFT 0, set before this clk (R221)? -/
def Pin.due (p : Pin) : Bool := p.state == 1 && p.left == 0 && !p.fresh

/-- A pin entry force-released: FREE, or RELEASING while pulls are in service (R220, R224). -/
def Pin.forceRelease (p : Pin) : Pin :=
  if p.state = 0 then p else { p with state := if p.serving.any id then 3 else 0 }

/-- An entry FREE for the next strand of the core; its generation goes on (assumption 81). -/
def Pin.emptied (p : Pin) : Pin := { Pin.free with gen := p.gen }

/-- The entries of a pin table that are not FREE, with their indices. -/
def livePins (frame : Nat) (pins : List Pin) : List OldPin :=
  (pins.zipIdx.filter fun x => x.1.state != 0).map fun x => ⟨frame, x.2, x.1⟩

/-- No request stands: REQ is 0 and LEFT equals BOUND (R92). -/
def CoreRegs.unrequested (r : CoreRegs) : CoreRegs :=
  { r with yreq := 0, ydead := setField r.ydead 32 32 (field r.ydead 0 32) }

/-- Is the engine quiesced: at a command boundary, stopped, or at a work entry that waits for its counter (R40, R295)? -/
def Engine.quiet (n : Nat) (e : Engine) : Bool :=
  (e.phase == .start && e.fails == 0) || e.stopped || (n == 5 && e.phase == .handed && e.job.isNone)

/-- An engine without a command: what its ring holds is not run. -/
def Engine.cleared (e : Engine) : Engine :=
  { e with rp := e.wp, fp := e.wp, next := e.wp, phase := .start, stopped := false, job := none, seg := none, window := [], repLeft := 0,
           entered := false, fails := 0, sweeps := [], marked := [], leaves := [], born := [], overflow := false, got := [], left := [] }

/-- Does engine n of a core whose strand ends still bring its command to its end, and so to a command boundary (R376)?  A frozen command
of ring 0 is abandoned (R270, R391). -/
def Core.finishes (c : Core) (n : Nat) : Bool :=
  match c.engines[n]? with
  | some e => c.mode != .idle && !e.quiet n && !(n == 0 && c.frozen)
  | none => false

/-- Is an engine of the core, whose strand has ended, not yet quiesced (R376)? -/
def Core.draining (c : Core) : Bool := c.mode == .idle && c.engines.toList.zipIdx.any fun x => !x.1.quiet x.2

/-- A core whose strand has ended without its release (R224, R376, R412): its pin entries are force-released, its engines
stop at a command boundary, and it is idle. -/
def Core.dropStrand (c : Core) (clk : Nat) : Core :=
  { c with
    mode := .idle, trap := none, frozen := false, saveDue := false, running := none, released := clk,
    oldPins := c.oldPins ++ livePins 0 (c.strand.pins.toList.map Pin.forceRelease),
    strand := { c.strand with
      pins := c.strand.pins.map Pin.emptied, pend := [],
      ap := { c.strand.ap with block := none, monitor := none, ending := none, issued := false, arrived := false,
                                offer := none, offered := false, chainPc := none, fence := none },
      ep := { c.strand.ep with block := none, held := false, chain := none, leaves := [], snaps := [], pWrites := [] } },
    engines := Vector.ofFn fun (i : Fin 6) => if c.finishes i then c.engines[i] else c.engines[i].cleared,
    regs := c.regs.unrequested }

/-- The lease ends; the holder is remembered (R253, R255). -/
def MatrixArray.endLease (a : MatrixArray) : MatrixArray :=
  { a with held := false, cmds := 0, seg := false, idle := 0, bySeg := false }

/-- The array of a quad gives up its lease when the holder's strand ends (R253). -/
def Share.endLease (h : Share) (core : Nat) : Share :=
  { h with arrays := h.arrays.map fun x =>
      if x.1 = quadOf core then
        let a := if x.2.held && x.2.holder == core % 4 then x.2.endLease else x.2
        (x.1, { a with requests := a.requests.filter fun r => r.core != core % 4 })
      else x }

/-- The passes of a core leave the stack queues (R204). -/
def Share.dropPasses (h : Share) (core : Nat) : Share :=
  { h with passes := h.passes.map fun q => q.filter fun p => p.core != core }

/-- One core's strand ended: what an engine that finishes its command needs, the lease, the pass, its requests, stays (R376). -/
def State.dropStrand (s : State) (id : Nat) : State :=
  let c := s.coreAt id
  let h := if c.finishes 0 then s.share else s.share.endLease id
  let h1 := if c.finishes 4 then h else h.dropPasses id
  (({ s with share := h1 }).orphan id ((List.range 9).filter fun n => !c.finishes n)).setCore (c.dropStrand s.clk)

/-- An engine of a core whose strand has ended is at a command boundary (R376). -/
def State.engineEnded (s : State) (n : Nat) : State :=
  let t := if n = 0 then { s with share := s.share.endLease s.core.id } else s
  t.modEngine n Engine.cleared

/-! ### Task queues (R370, R371, R373) -/

def State.tqOf (s : State) (die q : Nat) : TaskQueue := ((s.share.dies[die]?.getD Die.reset).tq[q]?).getD TaskQueue.reset
def State.modTq (s : State) (die q : Nat) (f : TaskQueue → TaskQueue) : State :=
  s.modShare fun h => { h with dies := h.dies.setIfInBounds die (let d := h.dies[die]?.getD Die.reset
    { d with tq := d.tq.setIfInBounds q (f (d.tq[q]?.getD TaskQueue.reset)) }) }

/-- Its records replaced; a new head stands there from now (R371). -/
def TaskQueue.withRecords (z : TaskQueue) (rs : List Record) (now : Nat) : TaskQueue :=
  { z with records := rs, headSince := if rs.head? = z.records.head? then z.headSince else now }

/-- What a core was asked to give way to is no longer awaited of it: its strand has ended otherwise, or it has other work (R373). -/
def State.unaskOf (s : State) (core : Nat) : State :=
  s.modShare fun h => { h with dies := h.dies.map fun d =>
    { d with tq := d.tq.map fun z => if z.asked = some core then { z with asked := none } else z } }

/-- One core's strand ended without its save. -/
def State.dropCore (s : State) (id : Nat) : State := (s.dropStrand id).unaskOf id

/-- Several cores' strands ended without their release. -/
def State.dropCores (s : State) (ids : List Nat) : State := ids.foldl State.dropCore s

/-- A record of an invocation that has not started, or is saved, is dropped; what saved ones held in place goes, and their pin entries
are force-released (R224, R349). -/
def State.dropRecords (s : State) (inv : Nat) : State :=
  let frames := s.share.dies.toList.flatMap fun d => d.tq.toList.flatMap fun q =>
    (q.records.filter fun r => r.inv == inv).flatMap fun r => r.kept.map (·.frame)
  let t := s.modShare fun h => { h with dies := h.dies.map fun d =>
    { d with tq := d.tq.map fun q => q.withRecords (q.records.filter fun r => r.inv != inv) s.clk,
             gangs := d.gangs.filter fun g => g.record.inv != inv } }
  t.mapCores fun c =>
    { c with preload := c.preload.filter fun p => p.record.inv != inv, held := c.held.filter fun x => !frames.contains x.frame,
             oldPins := c.oldPins.map fun o => if frames.contains o.frame then { o with frame := 0, pin := o.pin.forceRelease } else o }

/-- The strand of the core ends as a contained fault with this cause (R391, R392, R412): with it end the other members
of its gang (R376) and every strand of its invocation, and what of it has not started does not start (R349). -/
def State.endStrand (s : State) (code arg eng : Nat) : State :=
  let c := s.core
  let rec_ := s.mkRecord c code arg eng
  match c.running with
  | none => (s.dropCore c.id).addRecord rec_
  | some r =>
    let same (d : Core) : Bool := match d.running with
      | some q => q.record.inv == r.record.inv && (r.record.inv != 0 || (q.record.frame == r.record.frame && q.record.idx == r.record.idx))
      | none => false
    let ids := c.id :: ((s.parked.filter same).map (·.id))
    let s1 := s.dropCores ids
    let inv := r.record.inv
    if inv = 0 then s1.addRecord rec_
    else
      (s1.dropRecords inv).modHub fun h => { h with
        invocations := h.invocations.map fun v => if v.id = inv ∧ v.fault = none then { v with fault := some rec_ } else v,
        launches := h.launches.map fun l => if l.inv = inv then { l with next := l.total } else l }

/-- Does the end of the strand leave no fault record: its invocation is replayed, or has failed by another (R349)? -/
def State.unrecorded (s : State) : Bool :=
  match s.core.running.bind fun r => s.hub.invocations.find? fun v => v.id == r.record.inv with
  | some v => v.fault.isSome || (s.strand.info.repl && v.replays < 2)
  | none => false

/-- An error in the strand's own state: the strand ends as a contained fault, and its record is written whatever becomes of its
invocation (R412). -/
def State.stateError (s : State) : State :=
  (if s.unrecorded then s.addRecord (s.mkRecord s.core 0x16 0 0xFF) else s).endStrand 0x16 0 0xFF

/-! ### Taking a trap, and returning from one (R384, R387 to R392) -/

/-- The address of the instruction that a trap of this class names (R388). -/
def State.trapPc (s : State) (t : Trap) : BitVec 56 :=
  match t.pc with
  | some p => p
  | none => match t.cls with
    | .e => s.ep.pc
    | _ => s.ap.pc

/-- `trapcause` (R387). -/
def causeWord (t : Trap) (pending : Bool) : Word :=
  BitVec.ofNat 64 (t.arg % 2 ^ 32 * 2 ^ 32 + (if pending then 2 ^ 31 else 0) + t.src % 16 * 2 ^ 24 + t.eng % 256 * 2 ^ 16 + t.code % 2 ^ 16)

/-- `tinfo` (R388). -/
def infoWord (t : Trap) : Word :=
  BitVec.ofNat 64 ((if t.priv then 2 ^ 33 else 0) + (if t.host then 2 ^ 32 else 0) + t.kind % 256 * 2 ^ 24 +
    (if t.src = 1 then t.stream % 16 * 2 ^ 16 + t.elem % 2 ^ 16 else 0))

/-- A monitor woken with a reason; the first reason stands (R115). -/
def Monitor.woken (r : Nat) (m : Monitor) : Monitor := { m with wake := some (m.wake.getD r) }

/-- TAKING A TRAP, the one operation (R389): the active context is frozen, `trapcause`, `tpc`, `tval` and `tinfo` are
written, and the shadow starts at `shvec`.  A blocked instruction of the AP is stopped and issues again with a fresh count (R41,
R384); the count of the EP's block is held (R33).  With no handler the strand ends as by ACT 2.  A cause raised in the shadow
ends the strand with the shadow-fault cause (R392). -/
def State.takeTrap (s : State) (t : Trap) : State :=
  if s.inShadow then s.endStrand 0x30 t.code t.eng
  else if s.strand.sys.shvec &&& 0x00FFFFFFFFFFFFFC#64 = 0 then s.endStrand t.code t.arg t.eng
  else
    let s1 := s.modSys fun y =>
      { y with trapcause := causeWord t (!s.strand.pend.isEmpty), tpc := (s.trapPc t).setWidth 64,
               tval := t.va, tinfo := infoWord t }
    let s2 := s1.modStrand fun x =>
      { x with shadow := { x.shadow with pc := (x.sys.shvec &&& 0x00FFFFFFFFFFFFFC#64).setWidth 56 },
               ap := { x.ap with block := none, bind := .none, issued := false,
                                 arrived := false, offer := none, offered := false, fence := none,
                                 monitor := x.ap.monitor.map (Monitor.woken 3) },
               ep := { x.ep with bind := .none } }
    s2.modCore fun c => { c with mode := .shadow, trap := some t }

/-- A trap that waits for the AP's next instruction boundary (R383, R384): EP-precise traps hold the EP. -/
def State.pendTrap (s : State) (t : Trap) : State :=
  s.modStrand fun x =>
    { x with pend := x.pend ++ [t], ep := if t.cls = .e then { x.ep with held := true } else x.ep }

/-- Order of delivery of R384: EP-precise traps, then engines by number, then pin entries by number. -/
def trapRank (t : Trap) : Nat :=
  match t.cls with
  | .p => 0
  | .e => 1
  | .b => if t.src = 3 then 100 + t.arg else 2 + t.eng

/-- The pending trap that is delivered first. -/
def firstTrap : List Trap → Option Trap
  | [] => none
  | t :: ts => match firstTrap ts with
    | none => some t
    | some u => if trapRank u < trapRank t then some u else some t

/-- Deliver the first pending trap (R384, R389). -/
def State.deliver (s : State) : State :=
  match firstTrap s.strand.pend with
  | none => s
  | some t => (s.modStrand fun x => { x with pend := x.pend.erase t }).takeTrap t

end Sys2Proof.Machine
end

