-- ==== Sys2Proof/Machine/Run.lean ====
section
/-!
DEFINITION. How a word ends: retiring on the AP, on the EP, in the shadow and on an engine; blocking with its count and
the progress trap; following the path on the EP; the shadow's return
(R17, R18, R24 to R26, R30, R36, R37, R41, R66, R68, R83 to R85, R94, R391 to R394).
-/
namespace Sys2Proof.Machine

/-! ### Rings (R35 to R37) -/

/-- Chamber offset of a ring. -/
def Engine.base (e : Engine) : Nat := field e.cfg 6 17 * 64

/-- SIZE of a ring: 16, which the field of four bits cannot hold, stands as 0 (assumption 71). -/
def Engine.log2 (e : Engine) : Nat := if field e.cfg 23 4 = 0 then 16 else field e.cfg 23 4
def Engine.words (e : Engine) : Nat := 2 ^ (e.log2 - 2)
def Engine.size (e : Engine) : Nat := 2 ^ e.log2
def Engine.enabled (e : Engine) : Bool := bit e.cfg 27

/-- Chamber offset of the word at a pointer. -/
def Engine.wordOff (e : Engine) (p : BitVec 16) : Nat := e.base + 4 * (p.toNat % e.words)

/-- The word of a core's ring at a pointer. -/
def State.ringWord (s : State) (e : Engine) (p : BitVec 16) : Word32 :=
  BitVec.ofNat 32 (leNat (Cells.read s.mem.cham.cells (chamAt s.core.id (e.wordOff p)) 4))

/-- Is the engine idle: RP at or after WP (R36)? -/
def Engine.idle (e : Engine) : Bool := (e.rp - e.wp).toNat < 2 ^ 15

/-- Words from FP to WP; none while a branch has taken RP past WP (R36). -/
def Engine.kept (e : Engine) : Nat := if (e.fp - e.wp).toNat < 2 ^ 15 then 0 else (e.wp - e.fp).toNat

/-- The pointer to the word of the command at RP: the word at RP, or the word that a `rep` at RP binds (R50). -/
def Engine.at_ (e : Engine) : BitVec 16 := if e.repLeft = 0 then e.rp else e.rp + 1

/-- The pointer after the command at RP: its word, and a sync word when X = 1. -/
def State.afterCmd (s : State) (e : Engine) : BitVec 16 :=
  if bit (s.ringWord e e.at_) 24 then e.at_ + 2 else e.at_ + 1

/-- The oldest active loop body that lies from FP to WP, or RP (R36). -/
def Engine.newFp (e : Engine) : BitVec 16 :=
  (e.loops.toList.filter (·.active)).foldl (fun p l => if (l.start - e.fp).toNat < (p - e.fp).toNat then l.start else p) e.rp

/-- RP moved to `next`, or kept for the next repetition of a `rep`; FP follows (R36, R98). -/
def Engine.pass (e : Engine) : Engine :=
  let e1 := { e with rp := if 1 < e.repLeft then e.rp else e.next, repLeft := e.repLeft - 1,
                     phase := .start, job := none, entered := false, fails := 0, sweeps := [], marked := [], overflow := false,
                     leaves := e.leaves.filter fun l => l.1 != e.rp && l.1 != e.at_,
                     got := [], left := [] }
  { e1 with fp := e1.newFp }

/-- A lease of the core ends before an open segment of its has ended: the segment breaks its rule (R265, R268). -/
def Engine.breakSeg (e : Engine) : Engine := { e with seg := e.seg.map fun g => { g with broken := true } }

/-- The engine stops at its command and a boundary trap waits for the strand (R68, R384, R404).  On an illegal command or a failed
check the core's lease ends (R253), with an overflow of a semaphore it stands. -/
def State.stopEngine (s : State) (n : Nat) (code arg : Nat) (va : Word) (kind : Nat) (host : Bool) : State :=
  if s.core.mode = .idle then s.engineEnded n
  else
  let e := s.engine n
  let s1 := s.setEngine n { e with stopped := true, resumeAt := e.phase, got := [], left := [] }
  let s2 := if n = 0 && code != 0x20 then
      { s1.modEngine 0 Engine.breakSeg with share := s1.share.endLease s1.core.id }
    else s1
  s2.pendTrap { mkTrap .b code arg with eng := n, src := 2, va := va, kind := kind, host := host, priv := s.strand.info.priv }

/-- How the target of a ring branch lies: it is in the window or at or after WP, or before FP (R36). -/
def Engine.reaches (e : Engine) (t : BitVec 16) : Bool :=
  (t - e.fp).toNat < (e.wp - e.fp).toNat || (t - e.wp).toNat < 2 ^ 15

/-- ARG with the ring position in [31:16] (R386). -/
def Engine.posArg (e : Engine) (low : Nat) : Nat := e.rp.toNat * 2 ^ 16 + low

/-! ### The sync word and the command at RP (R47, R48, R68) -/

def syWait (w : Word32) : Nat := field w 0 6
def syRaise (w : Word32) : Nat := field w 6 6
def syAcq (w : Word32) : Bool := bit w 12
def syRel (w : Word32) : Bool := bit w 13
def syScope (w : Word32) : Nat := field w 14 3
def syTs (w : Word32) : Bool := bit w 17
def sySe (w : Word32) : Bool := bit w 18
def syOpx (w : Word32) : Nat := field w 19 13

/-- Is the sync word legal for the command on engine n (R48, R292)?  OPX that no chapter defines must be 0: where it is not,
the command is illegal (assumption 56). -/
def syncOk (n : Nat) (i : Instr) (sy : Option Word32) : Bool :=
  match sy with
  | none => match i with
    | .nbq .. => false
    | _ => true
  | some w =>
    syScope w < 6 && (syScope w = 0 || syAcq w || syRel w) && (n != 5 || !syRel w) &&
    match i with
    | .nbq .. => true
    | .repN .. | .repReg .. => false
    | _ => syOpx w == 0

/-- Is the command a private one of ring 0? -/
def isArrayCmd : Instr → Bool
  | .mmzCmd .. | .mmaCmd .. | .mdrCmd .. | .mxzCmd .. | .mxaCmd .. | .mldCmd .. | .segCmd .. => true
  | _ => false

/-- May engine n run a command with this sync word (R48, R68, R200)? -/
def ringOk (n : Nat) (i : Instr) (sy : Option Word32) : Bool :=
  engineWf i && syncOk n i sy && (match i with | .nbq _ r => field r 18 1 == 0 | _ => true)

/-- The sync word of the command whose word lies at a pointer. -/
def State.syncAt (s : State) (e : Engine) (p : BitVec 16) : Option Word32 :=
  if bit (s.ringWord e p) 24 then some (s.ringWord e (p + 1)) else none

/-- The command word at RP, and its sync word when X = 1. -/
def State.cmdWord (s : State) (n : Nat) : Word32 := s.ringWord (s.engine n) (s.engine n).at_
def State.cmdSync (s : State) (n : Nat) : Option Word32 := s.syncAt (s.engine n) (s.engine n).at_

/-- The command at RP. -/
def State.cmd (s : State) (n : Nat) : Option Instr :=
  match decodeRing n (s.cmdWord n) with
  | .ok i => if engineWf i then some i else none
  | .error _ => none

/-- Is the command at RP one that the engine may run? -/
def State.cmdLegal (s : State) (n : Nat) : Bool :=
  match s.cmd n with
  | some i => ringOk n i (s.cmdSync n)
  | none => false

/-- Can the engine take a step: enabled, with a command, not stopped, not frozen, its core running, or its command still to come to a
boundary (R376)? -/
def State.engineLive (s : State) (n : Nat) : Bool :=
  let e := s.engine n
  e.enabled && !e.idle && !e.stopped && !s.core.frozen && !s.core.gated && !s.core.halted && (s.core.mode != .idle || !e.quiet n) &&
  n < 6

/-- Engines below number k that wait for semaphore g at step 1: their waits are tested first (R39, R87). -/
def State.waitsAhead (s : State) (g k : Nat) : Nat :=
  ((List.range (min k 6)).filter fun n =>
    s.engineLive n && (s.engine n).phase == .start && s.cmdLegal n && ((s.cmdSync n).map syWait).getD 63 == g).length

/-! ### Blocks and the progress trap (R41, R393, R394) -/

/-- Pointers from p upward, fuel many. -/
def pointers (p : BitVec 16) : Nat → List (BitVec 16)
  | 0 => []
  | n + 1 => p :: pointers (p + 1) n

/-- The ring position of the first command from a pointer whose sync word raises the semaphore; fuel words are scanned. -/
def State.raiserFrom (s : State) (e : Engine) (sg : Nat) : Nat → BitVec 16 → Option (BitVec 16)
  | 0, _ => none
  | k + 1, p =>
    if p = e.wp then none
    else if bit (s.ringWord e p) 24 then
      if field (s.ringWord e (p + 1)) 6 6 = sg then some p
      else if k = 0 then none else raiserFrom s e sg (k - 1) (p + 2)
    else raiserFrom s e sg k (p + 1)

/-- When the command at a ring position was appended; 0 for one that the launch put there. -/
def Engine.bornAt (e : Engine) (p : BitVec 16) : Nat := ((e.born.find? fun x => x.1 == p).map (·.2)).getD 0

/-- Engine and ring position that the progress trap names for a semaphore: the core's oldest in-flight command that raises it, of
those of one age the one of the lowest engine (R394). -/
def State.raiser (s : State) (sg : Nat) : Nat × Nat :=
  let found := (List.range 6).filterMap fun n =>
    let e := s.engine n
    if e.enabled && !e.idle then (s.raiserFrom e sg (e.wp - e.rp).toNat e.rp).map fun p => (n, p.toNat, e.bornAt p) else none
  match found.foldl (fun (b : Option (Nat × Nat × Nat)) x => match b with
    | some y => if x.2.2 < y.2.2 then some x else b
    | none => some x) none with
  | some x => (x.1, x.2.1)
  | none => (0xFF, 0xFFFF)

/-- Has the ring no command, and has its RP not been branched past WP (R96)? -/
def Engine.atEnd (e : Engine) : Bool := e.rp == e.wp && e.phase == .start

/-- The lowest engine whose RP is not WP, with its RP (R96, R394). -/
def State.busyEngine (s : State) : Nat × Nat :=
  (((List.range 6).filter fun n => !(s.engine n).atEnd).map fun n => (n, (s.engine n).rp.toNat)).headD (0xFF, 0xFFFF)

/-- The lowest pin entry that is not FREE (R96). -/
def State.pinnedEntry (s : State) : Option Nat :=
  (List.range 16).find? fun i => (s.strand.pins[i]?.getD Pin.free).state != 0

/-- The progress trap of a block; a `halt` whose rings are idle names the entry that stays pinned (R96, R394). -/
def State.progressTrap (s : State) (cls : TrapClass) (b : Block) : Trap :=
  let er := if b.kind = 2 then s.raiser b.obj else if b.kind = 7 then s.busyEngine else (b.eng, b.rpos)
  let ko := if b.kind = 7 ∧ er.1 = 0xFF then match s.pinnedEntry with
      | some i => (4, i)
      | none => (7, 0)
    else (b.kind, b.obj)
  { mkTrap cls 0xA (er.2 * 2 ^ 16 + ko.1 * 2 ^ 12 + ko.2 * 2 ^ 4 + b.cls) with
    eng := er.1, src := if cls = .e then 1 else 0 }

/-- The block that an attempt leaves: the same block goes on, a new one starts with count 1 under the bound that its
class has now (R41, R42). -/
def nextBlock (r : Regs) (old : Option Block) (w : Wait) : Block :=
  let new : Block := ⟨w.cls, 1, w.kind, w.obj, w.eng, w.rpos, w.tally, (r.waitb[w.cls]?.getD 0xFFFFFFFF#32).toNat⟩
  match old with
  | some b => if b.cls = w.cls ∧ b.kind = w.kind ∧ b.obj = w.obj then b else new
  | none => new

/-- Has the block outlasted its bound?  Class 15 has none (R41, R42). -/
def Block.expired (b : Block) : Bool := b.cls != 15 && b.bound < b.count

/-- The AP blocks: the count runs, and past the bound the progress trap is taken (R24, R41, R393). -/
def State.blockAp (s : State) (w : Wait) : State :=
  if s.inShadow then
    let b := nextBlock s.regs s.strand.shadow.block w
    if w.bounded && b.expired then s.takeTrap (s.progressTrap .p b)
    else s.modStrand fun t => { t with shadow := { t.shadow with block := some b } }
  else
    let b := nextBlock s.regs s.ap.block w
    if w.bounded && b.expired then s.takeTrap (s.progressTrap .p b)
    else s.modAp fun a => { a with block := some b, bind := .none }

/-- The EP blocks (R24, R393). -/
def State.blockEp (s : State) (w : Wait) : State :=
  let b := nextBlock { s.regs with waitb := s.regs.waitbEp } s.ep.block w
  if b.expired then (s.modEp fun e => { e with block := none, bind := .none }).pendTrap (s.progressTrap .e b)
  else s.modEp fun e => { e with block := some b, bind := .none }

/-! ### Program order between AP and EP (R11, R26, R89) -/

/-- Versions that the EP still needs once it has passed the word at place k, and whether one it takes clears POIS. -/
def passVersions (k : Nat) : List Version → List Version × Bool
  | v :: w :: r =>
    if w.seq ≤ k then
      let x := passVersions k (w :: r)
      (x.1, x.2 || w.clears)
    else (v :: w :: r, false)
  | l => (l, false)

def Stream.pass (k : Nat) (x : Stream) : Stream :=
  let r := passVersions k x.versions
  ⟨r.1, if r.2 then 0 else x.pois⟩

/-- One `csrw` at its place in EP program order: `aflags`, `srseed`, the EP's half of `rc`, a bound of a wait class, KEP (R42, R89,
R91). -/
def Regs.epWrite (r : Regs) (w : EpWrite) : Regs :=
  if w.reg = 0x110 then { r with aflags := w.val }
  else if w.reg = 0x14 then { r with srseedEp := w.val }
  else if w.reg = 0x11 then { r with rc := setField r.rc 32 32 (field w.val 32 32) }
  else if w.reg < 0xF then { r with waitbEp := r.waitbEp.setIfInBounds w.reg (bits w.val 0 32) }
  else { r with rotbase := setField r.rotbase 16 16 (field w.val 16 16) }

/-- The EP has passed the word at its place: versions, register writes and predicate writers up to it are done. -/
def State.epPass (s : State) : State :=
  let k := s.ep.seq
  s.modStrand fun t =>
    { t with
      regs := (t.ep.writes.filter fun w => w.seq ≤ k).foldl Regs.epWrite t.regs,
      streams := t.streams.map (Stream.pass k),
      ep := { t.ep with seq := k + 1, block := none, bind := .none, taken := [], used := [], passFence := false, repCount := 0,
                        latched := [],
                        writes := t.ep.writes.filter fun w => k < w.seq,
                        pPend := t.ep.pPend.filter fun w => k < w.seq,
                        leaves := t.ep.leaves.filter fun w => k < w.seq,
                        snaps := t.ep.snaps.filter fun w => k < w.seq,
                        pWrites := t.ep.pWrites.filter fun w => k < w.1 } }

/-! ### Retiring (R18, R30, R85) -/

/-- Bytes of the word and of the prefix that binds it. -/
def boundSize : Binding → BitVec 56
  | .none => 4
  | _ => 8

/-- The address of the word that runs (R45). -/
def State.wordPc (s : State) : BitVec 56 :=
  if s.inShadow then s.strand.shadow.pc + (boundSize s.ap.bind - 4) else s.ap.pc + (boundSize s.ap.bind - 4)
def State.wordPcEp (s : State) : BitVec 56 := s.ep.pc + (boundSize s.ep.bind - 4)

/-- One step of a processor's rotation (R30). -/
def Regs.stepKap (r : Regs) : Regs := { r with rotbase := setField r.rotbase 0 16 (field r.rotbase 0 16 + 1) }
def Regs.stepKep (r : Regs) : Regs := { r with rotbase := setField r.rotbase 16 16 (field r.rotbase 16 16 + 1) }

/-- The AP moves to an address and has passed one more word. -/
def State.apGo (s : State) (t : BitVec 56) : State :=
  s.modAp fun a => { a with pc := t, seq := a.seq + 1, block := none, bind := .none, monitor := none, repWrote := false,
                            issued := false, arrived := false, offer := none, offered := false, fence := none }

/-- The predicate in p1 to p31 that a word writes on the AP. -/
def apPredDest : Instr → Option Nat
  | .cmp e d _ _ _ | .cmpi e d _ _ _ | .pand e d _ _ | .por e d _ _ | .pxor e d _ _ | .pandn e d _ _ | .pnot e d _ =>
    if e = 0#1 ∧ 1 ≤ d.toNat ∧ d.toNat < 32 then some d.toNat else none
  | _ => none

/-- The predicate entry of a predicate writer (R18). -/
def State.pushPred (s : State) (i : Instr) : State :=
  match apPredDest i with
  | some d => s.pushBq (predEntry (s.predAp d) d)
  | none => s

/-- Remaining repetitions after one is done (R85). -/
def Regs.apRepDone (r : Regs) : Regs := { r with rc := setField r.rc 0 32 (field r.rc 0 32 - 1) }
def Regs.epRepDone (r : Regs) : Regs := { r with rc := setField r.rc 32 32 (field r.rc 32 32 - 1) }

/-- An instruction of the active AP retires (R18, R83 to R85). -/
def State.retireActive (s : State) (i : Instr) (f : Flow) : State :=
  let next := s.ap.pc + boundSize s.ap.bind
  match f with
  | .stay => s.modAp fun a => { a with bind := .none }
  | .goto t rot => (s.pushBq (pathEntry (t != next) rot t)).apGo t
  | .seq =>
    if s.ap.bind = .rep then
      let s1 := s.modRegs fun r => r.apRepDone.stepKap
      if field s1.regs.rc 0 32 = 0 then (s1.pushPred i).apGo next
      else s1.modAp fun a => { a with block := none, bind := .none, issued := false, arrived := false, monitor := none }
    else (s.pushPred i).apGo next

/-- A shadow instruction retires: no entry of `bq` (R390). -/
def State.retireShadow (s : State) (f : Flow) : State :=
  let go (t : BitVec 56) : State :=
    (s.modStrand fun x => { x with shadow := { x.shadow with pc := t, block := none, monitor := none } }).modAp
      fun a => { a with bind := .none, issued := false, arrived := false }
  match f with
  | .stay => s.modAp fun a => { a with bind := .none }
  | .goto t _ => go t
  | .seq => go (s.strand.shadow.pc + boundSize s.ap.bind)

/-- An AP instruction retires. -/
def State.retireAp (s : State) (i : Instr) (f : Flow) : State :=
  if s.inShadow then s.retireShadow f else s.retireActive i f

/-- An EP instruction retires (R30, R83 to R85). -/
def State.retireEp (s : State) (f : Flow) : State :=
  let go (x : State) (t : BitVec 56) : State :=
    let y := x.epPass
    y.modEp fun e => { e with pc := t }
  match f with
  | .stay => s.modEp fun e => { e with bind := .none, block := none }
  | .goto t _ => go s t
  | .seq =>
    if s.ep.bind = .rep then
      let s1 := s.modRegs fun r => r.epRepDone.stepKep
      if field s1.regs.rc 32 32 = 0 then go s1 (s.ep.pc + 8)
      else s1.modEp fun e => { e with block := none, bind := .none, taken := [], used := [], latched := [] }
    else go s (s.ep.pc + boundSize s.ep.bind)

/-! ### Running a word -/

/-- ARG of the illegal-instruction cause: the word (R386). -/
def illegalArg (i : Instr) : Nat := ((encode i).headD 0).toNat

/-- The word of an access prefix (R51). -/
def AccPrefix.word (p : AccPrefix) : Nat :=
  let b (x : Bool) : BitVec 1 := if x then 1 else 0
  illegalArg (.accessPrefix (BitVec.ofNat 4 p.rc) (b p.acq) (b p.rel) (BitVec.ofNat 3 p.scope) (b p.pv)
    (BitVec.ofNat 2 p.pol) (b p.zp))

/-- Are RC, PV, POL and ZP zero? -/
def AccPrefix.plain (p : AccPrefix) : Bool := p.rc == 0 && !p.pv && p.pol == 0 && !p.zp

/-- May the access prefix bind the word (R51)? -/
def accessBinds (p : AccPrefix) (i : Instr) : Bool :=
  match i with
  | .ldd .. => !p.rel
  | .std .. => !p.acq
  | .ldh .. => !p.rel && p.pol != 1
  | .sth .. => !p.acq && p.pol != 1
  | .lddQ .. | .ldhQ .. => !p.rel && !p.pv && p.pol == 0 && !p.zp
  | .ldc .. | .ldcx .. | .ldg .. | .ldo .. | .lld .. | .lldt .. | .waita .. => !p.rel && p.plain
  | .stc .. | .stcx .. | .stg .. | .sto .. | .lst .. => !p.acq && p.plain
  | .amoAdd .. | .amoAnd .. | .amoOr .. | .amoXor .. | .amoSmax .. | .amoSmin .. | .amoUmax .. | .amoUmin ..
  | .amoSwap .. | .amoCas .. | .ljoin .. | .linc .. => p.plain
  | _ => false

/-- Does the prefix that binds the word allow it? -/
def bindingOk (b : Binding) (i : Instr) : Bool :=
  match b with
  | .access p => accessBinds p i
  | _ => true

/-- ARG of the illegal-instruction trap of a word: the access prefix that binds it, or the word (R50, R386). -/
def State.illegalWord (s : State) (i : Instr) : Nat :=
  match s.ap.bind with
  | .access p => p.word
  | _ => illegalArg i

/-- May the AP run the word here (R16, R42, R50, R51, R66, R97, R390)? -/
def apLegal (s : State) (i : Instr) : Bool :=
  bindingOk s.ap.bind i &&
  if s.inShadow then shadowWf i
  else strandWf i && !onEp i && (s.strand.info.priv || waitClass i != some 15#4)

/-- Does the word push into `bq` when it retires now (R18, R84)? -/
def pushesBq (s : State) (i : Instr) : Bool :=
  !s.inShadow &&
  (isTransfer i || (writesApPred i && (s.ap.bind != .rep || field s.regs.rc 0 32 == 1)))

/-- What follows the end of an AP meaning. -/
def State.finishAp (s : State) (i : Instr) (r : Except Stop (Flow × State)) : State :=
  match r with
  | .ok (f, t) => (t.podDone 6).retireAp i f
  | .error (.trap keep t) => (keep.getD s).takeTrap t
  | .error (.block w) => s.blockAp w
  | .error (.ask r) => (s.podAsk r).modAp fun a => { a with bind := .none }

/-- An AP word: legality, room in `bq`, its meaning, its end. -/
def runAp (i : Instr) (m : M Flow) (s : State) : Answer :=
  if apLegal s i then
    if pushesBq s i && s.strand.queues.bq.length ≥ 64 then .next (s.blockAp { cls := 0, kind := 1, obj := 8 })
    else .next (s.finishAp i (m s))
  else .next (s.takeTrap (mkTrap .p 1 (s.illegalWord i)))

/-- What follows the end of an EP meaning. -/
def State.finishEp (s : State) (r : Except Stop (Flow × State)) : State :=
  match r with
  | .ok (f, t) => (t.podDone 7).retireEp f
  | .error (.trap keep t) => ((keep.getD s).modEp fun e => { e with bind := .none, block := none }).pendTrap t
  | .error (.block w) => s.blockEp w
  | .error (.ask r) => (s.podAsk r).modEp fun e => { e with bind := .none }

/-- An EP word; at a word that is not a legal E = 1 instruction the EP holds (R17); in the shadow it is illegal (R97). -/
def runEp (i : Instr) (m : M Flow) (s : State) : Answer :=
  if s.inShadow then .next (s.takeTrap (mkTrap .p 1 (illegalArg i)))
  else if strandWf i then .next (s.finishEp (m s)) else .next s

/-- A command of the shared subset on an engine, in step 3 of R37 (R98). -/
def runEngine (n : Nat) (i : Instr) (m : M Flow) (s : State) : Answer :=
  let e := s.engine n
  if engineWf i then
    match m s with
    | .ok (.goto t _, u) =>
      if e.reaches (t.setWidth 16) then
        .next (u.modEngine n fun x => { x with next := t.setWidth 16, phase := .performed })
      else .next (s.stopEngine n 0x22 (e.posArg 0) 0 0 false)
    | .ok (.seq, u) =>
      .next (u.modEngine n fun x => { x with next := s.afterCmd e, phase := .performed })
    | .ok (.stay, u) => .next u
    | .error (.trap _ t) => .next (s.stopEngine n t.code t.arg t.va t.kind t.host)
    | .error (.block _) => .next s
    | .error (.ask r) => .next (s.podAsk r)
  else .next (s.stopEngine n 0x21 (e.posArg 0) 0 0 false)

/-- A word of the shared control subset on the sequencer that reads it (R43, R71, R98). -/
def runShared (i : Instr) (m : M Flow) (s : State) : Answer :=
  match s.onEngine with
  | some n => runEngine n i m s
  | none => if onEp i then runEp i m s else runAp i m s

/-! ### The EP on words of the AP (R18) -/

/-- The EP at a control transfer: it pops the path entry, takes the rotation step of `.rot`, and goes to TARGET. -/
def State.followPath (s : State) : State :=
  match s.strand.queues.bq with
  | [] => s.blockEp { cls := 0, kind := 0, obj := 8 }
  | w :: rest =>
    let s1 := s.modQueues fun z => { z with bq := rest }
    let s2 := if bit w 60 then s1.modRegs Regs.stepKep else s1
    s2.epPass.modEp fun e => { e with pc := w.setWidth 56 }

/-- The EP at a predicate writer of the AP: it pops the entry and takes the value (R18, R26). -/
def State.followPred (s : State) (size : BitVec 56) : State :=
  match s.strand.queues.bq with
  | [] => s.blockEp { cls := 0, kind := 0, obj := 8 }
  | w :: rest =>
    let s1 := s.modQueues fun z => { z with bq := rest }
    let s2 := s1.modRegs fun r => { r with pe := r.pe.setIfInBounds (field w 0 6) (bit w 6) }
    s2.epPass.modEp fun e => { e with pc := e.pc + size }

/-- The EP at a `tfence` (R94): it tests STK against EN when it pops the entry, and holds when a flag traps. -/
def State.followFence (s : State) : State :=
  let fl := s.regs.aflags
  if !s.strand.queues.bq.isEmpty && field fl 0 7 &&& field fl 8 7 != 0 && !s.ep.passFence then
    s.pendTrap { mkTrap .e 9 (field fl 0 7 + field fl 8 7 * 256) with src := 1 }
  else s.followPath

/-- The EP at a word of the AP: the size of the prefix and word counts as one (R18, R50). -/
def State.follow (s : State) (i : Instr) (size : BitVec 56) : State :=
  match i with
  | .tfence => s.followFence
  | _ =>
    if isTransfer i then s.followPath
    else if writesApPred i then s.followPred size
    else s.epPass.modEp fun e => { e with pc := e.pc + size }

/-! ### The kernel image (R78) and the shadow's return (R391) -/

/-- Bytes of the image as launched; none outside it. -/
def Image.read (m : Image) (a n : Nat) : Option (List Byte) :=
  if m.base ≤ a && a + n ≤ m.base + m.bytes.length then some ((m.bytes.drop (a - m.base)).take n) else none

/-- The word of the image at an address. -/
def Image.word (m : Image) (a : BitVec 56) : Option Word32 :=
  (m.read a.toNat 4).map fun b => BitVec.ofNat 32 (leNat b)

/-- Is a byte of [a, a + n) in a sector of the image that no read of it can use (R365, assumption 80)? -/
def Image.badAt (m : Image) (a : BitVec 56) (n : Nat) : Bool := m.bad.any fun i => meetsSector (32 * i) a.toNat n

/-- Does SKIP act as FAIL at the instruction: a control transfer, a predicate writer, an E = 1 word or a word of a chain
(R180, R391)? -/
def State.skipFails (s : State) : Bool :=
  s.ap.chainPc.isSome ||
  match s.strand.image.word s.ap.pc with
  | none => true
  | some w =>
    match decodeStrand w with
    | .error _ => bit w 24
    | .ok i =>
      let j := if isPrefix i then
          match (s.strand.image.word (s.ap.pc + 4)).map decodeStrand with
          | some (.ok k) => k
          | _ => i
        else i
      onEp i || onEp j || isTransfer j || writesApPred j

/-- Size of the instruction at the AP's pc, prefix included. -/
def State.apSize (s : State) : BitVec 56 :=
  match (s.strand.image.word s.ap.pc).map decodeStrand with
  | some (.ok i) => if isPrefix i then 8 else 4
  | _ => 4

/-- The end of the shadow without the end of the strand: every frozen part resumes (R270, R391). -/
def State.leaveShadow (s : State) : State :=
  s.modCore fun c =>
    { c with mode := .running, trap := none, frozen := false,
             strand := { c.strand with shadow := { c.strand.shadow with block := none, monitor := none } } }

/-- An engine's command runs again: from step 2 when its step 1 has completed, from step 1 otherwise; after a
semaphore overflow only its raise is repeated (R391). -/
def Engine.retry (e : Engine) : Engine :=
  { e with stopped := false, overflow := false,
           phase := if e.overflow then .released else if e.resumeAt = .start then .start else .waited }

/-- The pointer to which SKIP takes RP: past a `rep` and its word, which are one instruction (R50); where step 3 has said, past a
semaphore overflow (R391). -/
def State.skipTo (s : State) (n : Nat) : BitVec 16 :=
  let e := s.engine n
  let rep := match decodeRing n (s.ringWord e e.rp) with
    | .ok i => isPrefix i
    | .error _ => false
  if e.overflow then e.next
  else if rep then (if bit (s.ringWord e (e.rp + 1)) 24 then e.rp + 3 else e.rp + 2)
  else s.afterCmd e

/-- RP passes an engine's command (R391). -/
def State.skipCommand (s : State) (n : Nat) : State :=
  s.setEngine n { s.engine n with stopped := false, repLeft := 0, next := s.skipTo n }.pass

/-- RETURNING FROM A TRAP, the one operation beside `takeTrap` (R391): RETRY 0, SKIP 1, FAIL 2, ACT 3. -/
def State.shret (s : State) (act : Nat) : State :=
  match s.core.trap with
  | none => s
  | some t =>
    if act = 2 then s.endStrand t.code t.arg t.eng
    else if act = 3 then s.endStrand 0x30 0xFFFF t.eng
    else
      let r := s.leaveShadow
      match t.cls with
      | .p =>
        if act = 0 then r
        else if t.code = 8 then
          (if field s.regs.rc 0 32 = 0 then r
           else (r.modRegs fun x => { x with rc := setField x.rc 0 32 0 }).apGo (s.ap.pc + 8))
        else if s.skipFails then s.endStrand t.code t.arg t.eng
        else (r.modRegs fun x => { x with rc := setField x.rc 0 32 0 }).apGo (s.ap.pc + s.apSize)
      | .e =>
        let u := r.modEp fun e => { e with held := false, passFence := act = 1 && t.code = 9 }
        if act = 1 ∧ t.code = 6 then
          (u.modRegs fun x => { x with rc := setField x.rc 32 32 0 }).epPass.modEp fun e => { e with pc := e.pc + 8 }
        else u
      | .b =>
        if t.src = 3 then r
        else if s.core.frozen then
          (if act = 0 then r.modEngine t.eng fun e => { e with stopped := false } else r.skipCommand t.eng)
        else if act = 0 then r.modEngine t.eng Engine.retry
        else r.skipCommand t.eng

end Sys2Proof.Machine
end

