-- ==== Sys2Proof/Machine/Operands.lean ====
section
/-!
DEFINITION. Operand forms of the shared control subset on the AP, the EP, the shadow and an engine: registers,
queue pops, predicates, immediates and branch targets (R22, R26, R45, R46, R55, R69, R79, R98).
-/
namespace Sys2Proof.Machine

/-- A source register of a word: of the engine that reads it, of the EP with E = 1 (where codes 32 to 39 pop), of the
AP or the shadow with E = 0 (R46). -/
def rd (e : BitVec 1) (c : BitVec 6) : M Word := do
  let s ← get
  match s.onEngine with
  | some n => return (s.engine n).nread c.toNat
  | none => if e = 1#1 then readEp c.toNat else return s.aread c.toNat

/-- A destination register of a word. -/
def wr (e : BitVec 1) (d : BitVec 6) (v : Word) : M Unit := modify fun s =>
  match s.onEngine with
  | some n => s.modEngine n fun x => x.nwrite d.toNat v
  | none => if e = 1#1 then s.ewrite d.toNat v else s.awrite d.toNat v

/-- An AP register (ARead). -/
def rdA (c : BitVec 6) : M Word := do return (← get).aread c.toNat

/-- An AP register written (AWrite). -/
def wrA (d : BitVec 6) (v : Word) : M Unit := modify fun s => s.awrite d.toNat v

/-- A source predicate: the AP waits for a predicate in p32 to p47 that an earlier EP instruction still has to write,
counted in `lodpred` (R25, R26, R75). -/
def rdPred (e : BitVec 1) (c : BitVec 6) : M Bool := do
  let s ← get
  match s.onEngine with
  | some n => return (s.engine n).fread c.toNat
  | none =>
    if e = 1#1 then return s.predEp c.toNat
    else if !s.inShadow && (s.ep.pPend.any fun w => w.pred == c.toNat) then
      block { cls := 0, kind := 9, obj := 0, tally := c.toNat + 2 }
    else return s.predAp c.toNat

/-- A destination predicate (R26, R75). -/
def wrPred (d : BitVec 6) (v : Bool) : M Unit := modify fun s =>
  match s.onEngine with
  | some n => s.modEngine n fun x => x.fwrite d.toNat v
  | none => s.predWrite d.toNat v

/-- IMM12, sign-extended (R45). -/
def imm12 (i : BitVec 12) : Word := signExt i

/-- PC + 4·SignExt(OFF18, 18), and on an engine RP + SignExt(OFF18, 18) modulo 2^16 (R45, R98). -/
def State.branchTo (s : State) (o : BitVec 18) : BitVec 56 :=
  match s.onEngine with
  | some n => ((s.engine n).rp + o.signExtend 16).setWidth 56
  | none => s.wordPc + (o.signExtend 56 <<< 2)

/-- The address or pointer of the next word (R45, R49). -/
def State.nextWord (s : State) : BitVec 56 :=
  match s.onEngine with
  | some n => (s.afterCmd (s.engine n)).setWidth 56
  | none => s.wordPc + 4

/-- DevVA(l, x, i) of R69. -/
def State.devVa (s : State) (h : BitVec 1) (x : BitVec 5) (l : BitVec 3) (i : BitVec 5) : Word :=
  (s.regs.rl[8 * h.toNat + l.toNat]?.getD 0) + s.aread x.toNat + BitVec.ofNat 64 (8 * i.toNat)

end Sys2Proof.Machine
end

