-- ==== Sys2Proof/Machine/Flags.lean ====
section
/-!
DEFINITION. Flags and conditions: the conditions of compares, the sticky flags of `aflags`, and counters that saturate
(R55, R74, R91, R111, R131 to R134, R206, R269).
-/
namespace Sys2Proof.Machine

/-- The condition of a compare (R55). -/
def cond (c : BitVec 3) (a b : Word) : Bool :=
  match c.toNat with
  | 0 => a == b
  | 1 => a != b
  | 2 => a.slt b
  | 3 => !a.slt b
  | 4 => a.ult b
  | 5 => !a.ult b
  | 6 => bit a (field b 0 6)
  | _ => !bit a (field b 0 6)

/-- Sticky of R8 and R91: flags ORed into STK. -/
def Regs.sticky (r : Regs) (f : Flags) : Regs := { r with aflags := r.aflags ||| f.setWidth 64 }

/-- Sticky flags of the active strand. -/
def sticky (f : Flags) : M Unit := modify fun s => s.modRegs fun r => r.sticky f

/-- FTZ at the EP's place in program order, and at the AP's (R91, R127). -/
def State.ftz (s : State) : Bool := bit s.regs.aflags 16
def State.ftzAp (s : State) : Bool := bit s.regs.aflagsAp 16

/-- The NV, OF, UF and NX flags that engines report (R202, R261). -/
def engineFlags (f : Flags) : Flags := f &&& 0x1D#7

/-- n added to a field of w bits that saturates. -/
def addSat (x : Word) (lo w n : Nat) : Word := setField x lo w (min (field x lo w + n) (2 ^ w - 1))

/-- n added to a field of w bits that wraps. -/
def addWrap (x : Word) (lo w n : Nat) : Word := setField x lo w (field x lo w + n)

end Sys2Proof.Machine
end

