-- ==== Sys2Proof/Machine/Control.lean ====
section
/-!
DEFINITION. Branches, calls, hardware loops, semaphores, hints and the system instructions
(R38, R67, R79 to R82, R87, R88, R93 to R96, R98, R376).
-/
namespace Sys2Proof.Machine

/-- Branch to PC + 4·SignExt(OFF18, 18) when the condition holds, to the next word otherwise (R79). -/
def branchIf (c : Bool) (o : BitVec 18) : M Flow := do
  let s ← get
  return .goto (if c then s.branchTo o else s.nextWord) false

def execBt (c : BitVec 6) (o : BitVec 18) (s : State) : Answer :=
  runShared (.bt c o) (do branchIf (← rdPred 0#1 c) o) s

def execBf (c : BitVec 6) (o : BitVec 18) (s : State) : Answer :=
  runShared (.bf c o) (do branchIf (!(← rdPred 0#1 c)) o) s

def execCall (c : BitVec 6) (o : BitVec 18) (s : State) : Answer :=
  runShared (.call c o) (do
    let s ← get
    wrA c (s.nextWord.setWidth 64)
    return .goto (s.branchTo o) false) s

/-- A `jr` whose target has bits [1:0] not 0 raises misaligned-target, with the target in `tval` (R80, R388), but in the shadow, to which
R80 does not apply (R390).  Bits [63:56] of the register are dropped: PC has 56 bits (assumption 57). -/
def execJr (a : BitVec 6) (s : State) : Answer :=
  runShared (.jr a) (do
    let t ← rdA a
    let s ← get
    if field t 0 2 ≠ 0 && !(s.inShadow && s.onEngine.isNone) then raise { mkTrap .p 2 0 with va := t }
    else return .goto (t.setWidth 56) false) s

/-! ### Hardware loops (R81, R82, R98) -/

/-- `lcst` and `lcend` of a level (R81). -/
def lcstWord (start : BitVec 56) (rot : BitVec 1) : Word :=
  start.setWidth 64 ||| (if rot = 1#1 then 2 else 0) ||| 1
def lcendWord (last : BitVec 56) : Word := last.setWidth 64

/-- `lbeg` on the AP. -/
def lbegAp (r : BitVec 1) (l : BitVec 3) (a : BitVec 6) (i : BitVec 12) : M Flow := do
  let s ← get
  let n := s.aread a.toNat
  let pc := s.wordPc
  if n = 0 ∨ i = 1 then
    set (s.modRegs fun g => { g with
      lcst := g.lcst.setIfInBounds l.toNat ((g.lcst[l.toNat]?.getD 0) &&& ~~~1), lc := g.lc.setIfInBounds l.toNat 0 })
    return .goto (pc + (i.setWidth 56 <<< 2)) false
  else
    set (s.modRegs fun g => { g with
      lc := g.lc.setIfInBounds l.toNat n,
      lcst := g.lcst.setIfInBounds l.toNat (lcstWord (pc + 4) r),
      lcend := g.lcend.setIfInBounds l.toNat (lcendWord (pc + ((i - 1).setWidth 56 <<< 2))) })
    return .goto (pc + 4) false

/-- `lbeg` on an engine: START and END are ring pointers. -/
def lbegEngine (n : Nat) (l : BitVec 3) (a : BitVec 6) (i : BitVec 12) : M Flow := do
  let s ← get
  let e := s.engine n
  let c := e.nread a.toNat
  if c = 0 ∨ i = 1 then
    set (s.setEngine n { e with loops := e.loops.setIfInBounds l.toNat ⟨false, 0, 0, 0⟩ })
    return .goto ((e.rp + i.setWidth 16).setWidth 56) false
  else
    set (s.setEngine n { e with
      loops := e.loops.setIfInBounds l.toNat ⟨true, s.afterCmd e, e.rp + (i - 1).setWidth 16, c⟩ })
    return .goto s.nextWord false

def execLbeg (r : BitVec 1) (l : BitVec 3) (a : BitVec 6) (i : BitVec 12) (s : State) : Answer :=
  runShared (.lbeg r l a i) (match s.onEngine with
    | some n => lbegEngine n l a i
    | none => lbegAp r l a i) s

/-- `lend` on the AP; the AP takes the rotation step of a `.rot` loop when it retires the end (R30). -/
def lendAp (l : BitVec 3) (o : BitVec 18) : M Flow := do
  let s ← get
  let g := s.regs
  let st := g.lcst[l.toNat]?.getD 0
  let start : BitVec 56 := (st &&& ~~~3).setWidth 56
  let rot := bit st 1
  if !bit st 0 || s.wordPc != ((g.lcend[l.toNat]?.getD 0)).setWidth 56 || s.branchTo o != start then
    trapP 5 l.toNat
  else
    let n := g.lc[l.toNat]?.getD 0
    let g1 := if rot then g.stepKap else g
    if n.toNat ≤ 1 then
      set (s.modRegs fun _ => { g1 with
        lc := g1.lc.setIfInBounds l.toNat 0, lcst := g1.lcst.setIfInBounds l.toNat (st &&& ~~~1) })
      return .goto s.nextWord rot
    else
      set (s.modRegs fun _ => { g1 with lc := g1.lc.setIfInBounds l.toNat (n - 1) })
      return .goto start rot

/-- `lend` on an engine; a mismatch stops the engine with the loop-mismatch cause (R98). -/
def lendEngine (n : Nat) (l : BitVec 3) (o : BitVec 18) : M Flow := do
  let s ← get
  let e := s.engine n
  let x := e.loops[l.toNat]?.getD ⟨false, 0, 0, 0⟩
  if !x.active || e.rp != x.last || (s.branchTo o).setWidth 16 != x.start then trapP 5 l.toNat
  else if x.count.toNat ≤ 1 then
    set (s.setEngine n { e with loops := e.loops.setIfInBounds l.toNat { x with active := false, count := 0 } })
    return .goto s.nextWord false
  else
    set (s.setEngine n { e with loops := e.loops.setIfInBounds l.toNat { x with count := x.count - 1 } })
    return .goto (x.start.setWidth 56) false

def execLend (l : BitVec 3) (o : BitVec 18) (s : State) : Answer :=
  runShared (.lend l o) (match s.onEngine with
    | some n => lendEngine n l o
    | none => lendAp l o) s

/-! ### Semaphores (R38, R87, R88) -/

/-- The count of a semaphore. -/
def State.sema (s : State) (n : Nat) : BitVec 16 := s.strand.sg[n]?.getD 0
def State.setSema (s : State) (n : Nat) (v : BitVec 16) : State :=
  s.modStrand fun t => { t with sg := t.sg.setIfInBounds n v }

/-- `sgwait` takes a unit beyond those that waiting engines take (R39, R87). -/
def execSgwait (g : BitVec 6) (w : BitVec 4) (s : State) : Answer :=
  runShared (.sgwait g w) (do
    let s ← get
    let c := s.sema g.toNat
    blockIf (c.toNat ≤ s.waitsAhead g.toNat 6) { cls := w.toNat, kind := 2, obj := g.toNat }
    set (s.setSema g.toNat (c - 1))
    return .seq) s

def execSgraise (g : BitVec 6) (s : State) : Answer :=
  runShared (.sgraise g) (do
    let s ← get
    let c := s.sema g.toNat
    trapIf (c == 65535) 0x20 g.toNat
    set (s.setSema g.toNat (c + 1))
    return .seq) s

/-! ### Hints and system instructions (R67, R93 to R96) -/

def execHint (e : BitVec 1) (x : BitVec 24) (s : State) : Answer :=
  runShared (.hint e x) (return .seq) s

/-- `trap n` has completed when it raises (R85, R93, R382). -/
def execTrap (n : BitVec 12) (s : State) : Answer :=
  runAp (.trap n) (fun s =>
    .error (.trap (some (s.retireAp (.trap n) .seq)) { mkTrap .p 8 n.toNat with pc := some s.ap.pc })) s

/-- `tfence` retires on the AP without waiting; the EP makes the test (R94). -/
def execTfence (s : State) : Answer :=
  runAp .tfence (do return .goto (← get).nextWord false) s

/-- LEFT of `ydead` set to BOUND and REQ set: a pre-emption request (R92, R373). -/
def Core.request (c : Core) : Core :=
  { c with regs := { c.regs with yreq := 1, ydead := setField c.regs.ydead 32 32 (field c.regs.ydead 0 32) } }

/-- Are two cores members of one gang (R374)? -/
def sameGang (c d : Core) : Bool :=
  match c.running, d.running with
  | some r, some q => r.record.frame == q.record.frame && r.record.idx == q.record.idx && r.record.inv == q.record.inv &&
      c.id / 16 == d.id / 16 && field c.strand.sys.gangid 4 4 != 0
  | _, _ => false

/-- A yield in one member of a gang requests every other member (R376). -/
def State.requestGang (s : State) : State :=
  { s with parked := s.parked.map fun d => if sameGang s.core d && d.regs.yreq == 0 then d.request else d }

/-- The AP gives up the core: it issues nothing further, and the save follows once the EP has popped the entry; with
LEFT already 0 under a request, the forced save is taken instead (R95). -/
def giveUp : M Flow := do
  let s ← get
  if s.core.regs.yreq = 1 ∧ field s.core.regs.ydead 32 32 = 0 then
    set (s.modCore fun c => { c with saveDue := true })
    return .stay
  else
    set (s.requestGang.modAp fun a => { a with ending := some .yield })
    return .goto s.nextWord false

def execYield (s : State) : Answer := runAp .yield giveUp s

def execYieldp (s : State) : Answer :=
  runAp .yieldp (do
    let s ← get
    if s.core.regs.yreq = 1 then giveUp else return .goto s.nextWord false) s

/-- `halt` retires on the AP and pushes its entry; the AP stands at it until the core is released, which counts as one
block under class 0 (R96, R394). -/
def execHalt (s : State) : Answer :=
  runAp .halt (do
    let s ← get
    let s1 := s.pushBq (pathEntry false false s.nextWord)
    let b := nextBlock s.regs none { cls := 0, kind := 7, obj := 0 }
    set (s1.modAp fun a => { a with ending := some .halt, seq := a.seq + 1, block := some b })
    return .stay) s

end Sys2Proof.Machine
end

