-- ==== Sys2Proof/Machine/Special.lean ====
section
/-!
DEFINITION. The special functions of R156: exact mathematical functions, rounded once.

Each result is found as a cell of 80 or more significant bits that holds the exact value, by two-sided fixed-point
bounds with 2^256 as the unit.  Every rounding of R130 to R134 depends on that cell only.  A cell that the bounds do
not decide is a free value (assumption 10).
-/
namespace Sys2Proof.Machine.Special
open Sys2Proof

/-- Fixed-point unit: 2^prec stands for 1. -/
def prec : Nat := 256

def unit : Nat := 2 ^ prec

/-- Bounds on a nonnegative real, in units of 2^-prec. -/
structure Bounds where
  lo : Nat
  hi : Nat

/-- The 80-bit cell that both bounds lie in: an odd magnitude and its exponent, for bounds in units of 2^-p. -/
def cellOf (p : Nat) (b : Bounds) : Option (Nat × Int) :=
  let sh := b.lo.log2 - 80
  if b.lo = 0 ∨ b.lo.log2 < 80 then none
  else if b.lo / 2 ^ sh = b.hi / 2 ^ sh then some (2 * (b.lo / 2 ^ sh) + 1, (sh : Int) - p - 1)
  else none

/-- Terms of 2 * atanh(z) = 2 * sum z^(2k+1)/(2k+1) from below: k terms left, t = z^(2i+1), i. -/
def atanhLo (z2 : Nat) : Nat → Nat → Nat → Nat
  | 0, _, _ => 0
  | k + 1, t, i => t / (2 * i + 1) + atanhLo z2 k (t * z2 / unit) (i + 1)

/-- The same from above; the tail is bounded by the last power. -/
def atanhHi (z2 : Nat) : Nat → Nat → Nat → Nat
  | 0, t, _ => 2 * t + 1
  | k + 1, t, i => t / (2 * i + 1) + 1 + atanhHi z2 k (t * z2 / unit + 1) (i + 1)

/-- Bounds on 2 * atanh(n/d) for n/d at most 1/3. -/
def twoAtanh (n d : Nat) : Bounds :=
  let zl := n * unit / d
  let zh := zl + 1
  ⟨2 * atanhLo (zl * zl / unit) 90 zl 0, 2 * atanhHi (zh * zh / unit + 1) 90 zh 0⟩

/-- Bounds on ln 2 = 2 * atanh(1/3). -/
def ln2 : Bounds := twoAtanh 1 3

/-- Terms of the exponential series from below. -/
def expLo (r : Nat) : Nat → Nat → Nat → Nat
  | 0, _, _ => 0
  | k + 1, t, i => t + expLo r k (t * r / unit / (i + 1)) (i + 1)

/-- The same from above. -/
def expHi (r : Nat) : Nat → Nat → Nat → Nat
  | 0, t, _ => 2 * t + 2
  | k + 1, t, i => t + expHi r k (t * r / unit / (i + 1) + 1) (i + 1)

/-- Bounds on e^x = 2^N * b for x = m * 2^e in units (e at or above -prec): b in units of 2^-prec, and N. -/
def expParts (neg : Bool) (m : Nat) (e : Int) : Bounds × Int :=
  let x := m * 2 ^ (e + prec).toNat
  let l := ln2
  if neg then
    let n := ceilDiv x l.lo
    (⟨expLo (n * l.lo - x) 80 unit 0, expHi (n * l.hi - x) 80 unit 0⟩, -(n : Int))
  else
    let n := x / l.hi
    (⟨expLo (x - n * l.hi) 80 unit 0, expHi (x - n * l.lo) 80 unit 0⟩, n)

/-- floor(log2) of a nonzero finite magnitude. -/
def mag (m : Nat) (e : Int) : Int := e + m.log2

/-- Just above or just below a magnitude: the value is m * 2^e moved by less than one part in 2^81. -/
def nudge (up : Bool) (m : Nat) (e : Int) : Nat × Int :=
  let n := m * 2 ^ 84
  (2 * (if up then n else n - 1) + 1, e - 84 - 1)

/-- A cell, or the free value where the bounds decide none. -/
def decided (fn : Nat) (neg : Bool) (m : Nat) (e : Int) (c : Option (Nat × Int)) : Nat × Int :=
  match c with
  | some c => c
  | none => Config.specialCell fn neg m e

def shift (c : Option (Nat × Int)) (n : Int) : Option (Nat × Int) := c.map fun p => (p.1, p.2 + n)

/-- e^x of R156. -/
def exp (a : Val) : Val × Flags :=
  match a with
  | .nan => (.nan, Flag.none)
  | .inf s => (if s then .zero false else .inf false, Flag.none)
  | .fin s m e =>
    if m = 0 then (.one, Flag.none)
    else
      let g := mag m e
      let c :=
        if g ≥ 9 then (if s then (1, -512) else (1, 512))
        else if g < -100 then nudge (!s) 1 0
        else
          let p := expParts s m e
          decided 19 s m e (shift (cellOf prec p.1) p.2)
      (.fin false c.1 c.2, Flag.nx)

/-- ln x of R156 for a positive finite x that is not 1. -/
def lnCell (m : Nat) (e : Int) : Bool × Option (Nat × Int) :=
  let l := m.log2
  let big : Bool := 2 * m > 3 * 2 ^ l                    -- f = m / 2^l above 3/2: halve it
  let k : Int := e + l + (if big then 1 else 0)
  let d := 2 ^ (if big then l + 1 else l)
  let fneg : Bool := m < d
  let b := twoAtanh (if fneg then d - m else m - d) (m + d)
  let b : Bounds := if m = d then ⟨0, 0⟩ else b
  let kk := k.natAbs
  let kl : Bounds := ⟨kk * ln2.lo, kk * ln2.hi⟩
  if kk = 0 then (fneg, cellOf prec b)
  else
    let kneg : Bool := k < 0
    if kneg = fneg then (kneg, cellOf prec ⟨kl.lo + b.lo, kl.hi + b.hi⟩)
    else (kneg, cellOf prec ⟨kl.lo - b.hi, kl.hi - b.lo⟩)

/-- ln x of R156. -/
def log (a : Val) : Val × Flags :=
  match a with
  | .nan => (.nan, Flag.none)
  | .inf s => if s then (.nan, Flag.nv) else (.inf false, Flag.none)
  | .fin s m e =>
    if m = 0 then (.inf true, Flag.dz)
    else if s then (.nan, Flag.nv)
    else if Val.eqNum a .one then (.zero false, Flag.none)
    else
      let r := lnCell m e
      let c := decided 20 s m e r.2
      (.fin r.1 c.1 c.2, Flag.nx)

/-- 1/sqrt(x) of R156; exact for powers of 4. -/
def rsqrt (a : Val) : Val × Flags :=
  match a with
  | .nan => (.nan, Flag.none)
  | .inf s => if s then (.nan, Flag.nv) else (.zero false, Flag.none)
  | .fin s m e =>
    if m = 0 then (.inf s, Flag.dz)
    else if s then (.nan, Flag.nv)
    else
      let odd : Nat := (e % 2).toNat
      let n := m * 2 ^ odd
      let k := n.log2 + 200
      let q := 2 ^ (2 * k) / n
      let r := Val.isqrt q
      let exact : Bool := r * r * n == 2 ^ (2 * k)
      (.fin false (2 * r + (if exact then 0 else 1)) (-((e - odd) / 2) - k - 1), Flag.none)

/-- tanh x of R156. -/
def tanh (a : Val) : Val × Flags :=
  match a with
  | .nan => (.nan, Flag.none)
  | .inf s => (.fin s 1 0, Flag.none)
  | .fin s m e =>
    if m = 0 then (a, Flag.none)
    else
      let g := mag m e
      let c :=
        if g ≥ 5 then nudge false 1 0
        else if g < -64 then nudge false m e
        else
          let p := expParts false m (e + 1)
          let tl := p.1.lo * 2 ^ p.2.toNat
          let th := p.1.hi * 2 ^ p.2.toNat
          decided 22 s m e (cellOf prec ⟨(tl - unit) * unit / (tl + unit), ceilDiv ((th - unit) * unit) (th + unit)⟩)
      (.fin s c.1 c.2, Flag.nx)

/-- 1/(1 + e^-x) of R156. -/
def sigm (a : Val) : Val × Flags :=
  match a with
  | .nan => (.nan, Flag.none)
  | .inf s => (if s then .zero false else .one, Flag.none)
  | .fin s m e =>
    if m = 0 then (.fin false 1 (-1), Flag.none)
    else
      let g := mag m e
      let c :=
        if g ≥ 9 then (if s then (1, -512) else nudge false 1 0)
        else if g < -100 then nudge (!s) 1 (-1)
        else
          let p := expParts s m e
          if s then
            let q := prec + (-p.2).toNat
            decided 23 s m e (cellOf (q + 128)
              ⟨p.1.lo * 2 ^ (q + 128) / (2 ^ q + p.1.lo), ceilDiv (p.1.hi * 2 ^ (q + 128)) (2 ^ q + p.1.hi)⟩)
          else
            let tl := p.1.lo * 2 ^ p.2.toNat
            let th := p.1.hi * 2 ^ p.2.toNat
            if th / 2 ^ (prec + 90) ≠ 0 then nudge false 1 0
            else decided 23 s m e (cellOf prec ⟨tl * unit / (tl + unit), ceilDiv (th * unit) (th + unit)⟩)
      (.fin false c.1 c.2, Flag.nx)

end Sys2Proof.Machine.Special
end

