-- ==== Sys2Proof/Machine/Homes.lean ====
section
/-!
DEFINITION. Homes: bytes performed at the home of a place, the monitors and read counts that such a write touches, and
what an L1 holds back (R109, R110, R114, R115, R310, R311, R314, R319, R322).
-/
namespace Sys2Proof.Machine

/-- The sector that a place lies in. -/
def sectorOf (a : Nat) : Nat := a / 32 * 32

/-- The numbers of the sectors that n bytes at a meet. -/
def sectorNos (a n : Nat) : List Nat := (List.range (ceilDiv (a % 32 + n) 32)).map fun i => a / 32 + i

/-! ### Memory behind the caches -/

/-- Back-invalidation: of a device range that is written the host holds the lines no longer (R420, R421). -/
def Mem.backInvalidate (m : Mem) (sp : Space) (a n : Nat) : Mem :=
  { m with hostHeld := m.hostHeld.filter fun l => !(sp == .dev && 64 * l < a + n && a < 64 * l + 64) }

/-- Device sectors remember which view was written later (R322). -/
def Mem.noteView (m : Mem) (sp : Space) (view : Bool) (secs : List Nat) : Mem :=
  if sp == .dev then
    { m with later := if view then secs.foldl insertNat m.later else m.later.filter fun i => !secs.contains i }
  else m

/-- A sector's dirty bytes merged into the home (R314). -/
def Mem.mergeDirty (m : Mem) (x : L1Sector) : Mem :=
  let b := m.bank x.space x.view
  let b1 : Bank := ⟨Cells.writeMasked b.cells x.addr x.dirty.toNat x.data,
    if x.poison then insertNat b.poison (x.addr / 32)
    else if x.dirty == BitVec.allOnes 32 then b.poison.filter (· != x.addr / 32) else b.poison⟩
  ((m.setBank x.space x.view b1).noteView x.space x.view [x.addr / 32]).backInvalidate x.space x.addr 32

/-! ### Monitors (R115, R319) -/

/-- The monitors of the core that a write to the bytes wakes. -/
def Core.watching (c : Core) (sp : Space) (a n : Nat) : List Monitor :=
  (c.strand.ap.monitor.toList ++ c.strand.shadow.monitor.toList).filter fun m => m.space == sp && meetsSector m.sector a n

/-- Is the L1 sector one that an armed monitor drops on such a write (R319)? -/
def L1Sector.watched (ms : List Monitor) (x : L1Sector) : Bool :=
  (x.space == .dev || x.space == .host) && ms.any fun m => m.space == x.space && m.sector == x.addr

/-- A write to a sector wakes the monitors on it with reason 1, and drops a device or host sector from the monitoring
L1 (R115, R319). -/
def Core.wake (c : Core) (sp : Space) (a n : Nat) : Core :=
  match c.watching sp a n with
  | [] => c
  | ms =>
    let wake (m : Monitor) : Monitor := if m.space == sp && meetsSector m.sector a n then m.woken 1 else m
    { c with
      strand := { c.strand with
        ap := { c.strand.ap with monitor := c.strand.ap.monitor.map wake },
        shadow := { c.strand.shadow with monitor := c.strand.shadow.monitor.map wake } },
      order := { c.order with l1 := c.order.l1.filter fun x => !x.watched ms } }

/-- Dirty sectors that the core's monitors drop on such a write: their bytes reach the home first (R314). -/
def Core.givesUp (c : Core) (sp : Space) (a n : Nat) : List L1Sector :=
  match c.watching sp a n with
  | [] => []
  | ms => c.order.l1.filter fun x => x.watched ms && x.dirty != 0

/-- The dirty bytes that the cores' monitors give up for a write. -/
def State.giveUp (s : State) (cs : List Core) (sp : Space) (a n : Nat) : State :=
  { s with mem := (cs.flatMap fun c => c.givesUp sp a n).foldl Mem.mergeDirty s.mem }

/-! ### Read counts at the home L2 (R109) -/

/-- A read at the home L2 counts against a read count of the line; at 0 the copy is dropped. -/
def countLine (ls : List LineCount) (sp : Space) (view : Bool) (line : Nat) : List LineCount :=
  ls.filterMap fun x =>
    if x.space == sp && x.view == view && x.line == line then
      (if x.count ≤ 1 then none else some { x with count := x.count - 1 })
    else some x

def State.touchL2 (s : State) (sp : Space) (view : Bool) (a : Nat) : State :=
  if s.share.pack.l2rc.isEmpty then s else s.modPack fun p => { p with l2rc := countLine p.l2rc sp view (a / 128) }

/-- A store that hits a counted line of the home L2 clears the count. -/
def State.clearL2 (s : State) (sp : Space) (view : Bool) (a n : Nat) : State :=
  if s.share.pack.l2rc.isEmpty then s
  else s.modPack fun p => { p with l2rc := p.l2rc.filter fun x =>
    !(x.space == sp && x.view == view && 128 * x.line < a + n && a < 128 * x.line + 128) }

/-! ### Homes -/

/-- A device write is performed at its home after back-invalidation of the lines that the host holds of it (R421). -/
def State.hostGivesUp (s : State) (sp : Space) (a n : Nat) : State :=
  { s with mem := s.mem.backInvalidate sp a n }

/-- Bytes performed at their home (R110, R311, R322). -/
def State.homeWrite (s : State) (sp : Space) (view : Bool) (a : Nat) (bs : List Byte) : State :=
  let t := (s.hostGivesUp sp a bs.length).giveUp s.cores sp a bs.length
  let m := (t.mem.setBank sp view ((t.mem.bank sp view).write (unitOf sp) a bs)).noteView sp view (sectorNos a bs.length)
  (({ t with mem := m }).clearL2 sp view a bs.length).mapCores fun c => c.wake sp a bs.length

/-- Bytes at the home, and whether a poisoned unit is among them. -/
def State.homeBytes (s : State) (sp : Space) (view : Bool) (a n : Nat) : List Byte × Bool :=
  let b := s.mem.bank sp view
  (Cells.read b.cells a n, b.poisoned (unitOf sp) a n)

/-- A sector marked poisoned or clean at its home. -/
def State.setPoison (s : State) (sp : Space) (view : Bool) (unit : Nat) (p : Bool) : State :=
  { s with mem := s.mem.setBank sp view ((s.mem.bank sp view).setMark unit p) }

end Sys2Proof.Machine
end

