-- ==== Sys2Proof/Machine/Translate.lean ====
section
/-!
DEFINITION. Translation: page tables, walks, permissions, the TLB, the physical map
(R207, R302, R397 to R404, R423, R430).
-/
namespace Sys2Proof.Machine

/-! ### Page-table entries (R398) -/

def pteV (e : Word) : Bool := bit e 0
def pteL (e : Word) : Bool := bit e 2
def pteR (e : Word) : Bool := bit e 3
def pteW (e : Word) : Bool := bit e 4
def pteU (e : Word) : Bool := bit e 5
def pteA (e : Word) : Bool := bit e 6
def pteD (e : Word) : Bool := bit e 7
def pteUc (e : Word) : Bool := bit e 56
def pteCmp (e : Word) : Bool := bit e 57
def pteAddr (e : Word) : Nat := field e 8 44 * 256

/-- 8 bytes of device memory at a physical address, at the home. -/
def Mem.phys8 (m : Mem) (pa : Nat) : Word := leWord (Cells.read m.dev.cells pa 8)

/-- What a walk finds: a leaf, with log2 of its page's size and the entry's own place; ARG of the translation cause; a poisoned
entry; or an entry's place at which no stack lies (R400). -/
inductive Walked where
  | leaf (e : Word) (n at_ : Nat)
  | bad (arg : Nat)
  | poisoned
  | unmapped
deriving DecidableEq, Repr

/-- Is an entry malformed at its level (R399)? -/
def pteMalformed (e : Word) (lv : Nat) : Bool :=
  field e 58 6 != 0 || bit e 1 || (pteL e && lv == 3) || (!pteL e && lv == 0) ||
  (!pteL e && (pteCmp e || pteUc e || field e 3 5 != 0)) || (pteCmp e && pteUc e) ||
  (!pteL e && 2 ≤ lv && field e 8 4 != 0)

/-- log2 of the page of a leaf at a level. -/
def pageBits (lv : Nat) : Nat := match lv with | 2 => 30 | 1 => 21 | _ => 16

/-- Index of a virtual address at a level (R399). -/
def walkIndex (va : Word) (lv : Nat) : Nat :=
  match lv with
  | 3 => field va 39 17
  | 2 => field va 30 9
  | 1 => field va 21 9
  | _ => field va 16 5

/-- Walk of R399 from a level downward; the fuel is the number of levels left. -/
def walkFrom (m : Mem) (va : Word) : Nat → Nat → Walked
  | 0, _ => .bad 8
  | lv + 1, t =>
    let at_ := t + 8 * walkIndex va lv
    let e := m.phys8 at_
    if (stackOf at_).isNone then .unmapped
    else if m.dev.poisoned 32 at_ 8 then .poisoned
    else if !pteV e then .bad lv
    else if pteMalformed e lv then .bad (8 + lv)
    else if pteL e then
      (if pteAddr e % 2 ^ pageBits lv ≠ 0 then .bad (8 + lv) else .leaf e (pageBits lv) at_)
    else walkFrom m va lv (pteAddr e)

/-- The places of the entries that a walk reads, from a level downward (R109). -/
def walkReads (m : Mem) (va : Word) : Nat → Nat → List Nat
  | 0, _ => []
  | lv + 1, t =>
    let at_ := t + 8 * walkIndex va lv
    let e := m.phys8 at_
    at_ :: (if (stackOf at_).isNone || m.dev.poisoned 32 at_ 8 || !pteV e || pteMalformed e lv || pteL e then [] else walkReads m va lv (pteAddr e))

/-- Each entry that a walk reads counts at its home (R109). -/
def State.touchWalk (s : State) (root : Nat) (va : Word) : State :=
  if s.share.pack.l2rc.isEmpty then s else (walkReads s.mem va 4 root).foldl (fun t a => t.touchL2 .dev false a) s

/-- Walk(root, va) of R69 and R399. -/
def walk (m : Mem) (root : Nat) (va : Word) : Walked := walkFrom m va 4 root

/-- Is the address outside the range of its space (R397)?  For the host space R397 is followed where R69 would refuse every address above
2^56 - 1 (assumption 90). -/
def vaBad (host : Bool) (va : Word) : Bool :=
  if host then field va 55 9 != 0 && field va 55 9 != 511 else field va 56 8 != 0

/-! ### The physical map (R400, R423) -/

/-- What a device physical address reaches. -/
inductive Target where
  | stack
  | window (w off : Nat)
  | pod (node off : Nat)
  | nothing
deriving DecidableEq, Repr

/-- Target of a device physical address; a request to the own node reaches nothing (R423). -/
def State.target (s : State) (pa : Nat) : Target :=
  if (stackOf pa).isSome then .stack
  else if pa / 2 ^ 48 = 1 ∧ pa % 2 ^ 48 / 2 ^ 30 < 16 then
    match s.share.pack.windows[pa % 2 ^ 48 / 2 ^ 30]?.getD none with
    | some w => if pa % 2 ^ 30 < w.size then .window (pa % 2 ^ 48 / 2 ^ 30) (pa % 2 ^ 30) else .nothing
    | none => .nothing
  else if 2 ^ 49 ≤ pa ∧ (pa - 2 ^ 49) / 2 ^ 32 < 65536 ∧ (pa - 2 ^ 49) / 2 ^ 32 ≠ s.node then
    .pod ((pa - 2 ^ 49) / 2 ^ 32) ((pa - 2 ^ 49) % 2 ^ 32)
  else .nothing

/-- Target of a physical address of device or host memory; host memory is behind the hub. -/
def State.targetOf (s : State) (sp : Space) (pa : Nat) : Target := if sp == .dev then s.target pa else .stack

/-- Is the address in an aperture window, to which stores are refused (R249)? -/
def State.isWindow (s : State) (pa : Nat) : Bool :=
  match s.target pa with
  | .window .. => true
  | _ => false

/-- Is the address in the image of a slot, which is mapped read-only until the slot is evicted (R207, R345, R346)? -/
def State.slotProtects (s : State) (pa : Nat) : Bool :=
  s.hub.slots.toList.any fun x =>
    (x.state == .loaded || x.state == .evicting) && x.phys.any fun p => p ≤ pa && pa < p + 65536

/-! ### Translate (R69, R397 to R403) -/

/-- What an access needs of its leaf (R401). -/
structure Need where
  host : Bool
  read : Bool
  write : Bool
  kind : Nat
deriving DecidableEq, Repr

/-- A translated address: physical address and the leaf's view and uncached attributes. -/
structure Phys where
  pa : Nat
  view : Bool
  uc : Bool
deriving DecidableEq, Repr

/-- A translation or access trap of an access (R388). -/
def accessTrap (code arg : Nat) (va : Word) (n : Need) (priv : Bool) : Trap :=
  { mkTrap .p code arg with va := va, kind := n.kind, host := n.host, priv := priv }

/-- Missing permissions, as ARG of the access cause (R401). -/
def missing (e : Word) (n : Need) (priv protects : Bool) : Nat :=
  (if n.read && !pteR e then 1 else 0) + (if n.write && (!pteW e || protects) then 2 else 0) +
  (if !priv && !pteU e then 4 else 0)

/-- ASID of the strand (R397). -/
def State.asid (s : State) : Nat := field s.strand.sys.ptbase 0 16

/-- Physical address of a root table. -/
def rootOf (base : Word) : Nat := field base 20 32 * 2 ^ 20

/-- The leaf of an address in the TLB of the core (R402). -/
def State.tlbFind (s : State) (host : Bool) (va : Nat) : Option TlbLeaf :=
  s.core.tlb.find? fun l => l.asid == s.asid && l.host == host && l.va ≤ va && va < l.va + 2 ^ l.size

/-- A leaf put into the TLB; past 2,048 the oldest is dropped (R402, assumption 6). -/
def State.tlbPut (s : State) (l : TlbLeaf) : State := s.modCore fun c =>
  { c with tlb := (l :: c.tlb.filter fun x =>
      !(x.asid == l.asid && x.host == l.host && x.va == l.va && x.size == l.size)).take 2048 }

/-- An atomic OR into a page-table entry at its home (R403). -/
def State.orPte (s : State) (at_ : Nat) (v : Word) : State :=
  s.homeWrite .dev false at_ (leBytes 8 (s.mem.phys8 at_ ||| v).toNat)

/-- A virtual address as the number that a leaf's tag holds: bits [55:0]. -/
def vaNat (va : Word) : Nat := field va 0 56

/-- The table root of a space (R397). -/
def State.rootFor (s : State) (host : Bool) : Nat := rootOf (if host then s.strand.sys.hptbase else s.strand.sys.ptbase)

/-- May the address be walked at all (R397)? -/
def State.walkable (s : State) (va : Word) (host : Bool) : Bool := !vaBad host va && (!host || bit s.strand.sys.hptbase 0)

/-- What an access does with a leaf that covers its address: permissions, then A and D (R401, R403).  A leaf that has changed, or has
just been walked, enters the TLB. -/
def State.useLeaf (s : State) (l : TlbLeaf) (walked : Bool) (va : Word) (n : Need) (priv : Bool) : Except Trap (Phys × State) :=
  let pa := pteAddr l.entry + vaNat va % 2 ^ l.size
  let arg := missing l.entry n priv (!n.host && (s.slotProtects pa || s.isWindow pa))
  let unmapped := if !n.host && s.target pa == .nothing then 8 else 0
  if arg + unmapped ≠ 0 then .error (accessTrap 0x13 (arg + unmapped) va n priv)
  else
    let set : Word := (if pteA l.entry then 0 else 0x40) ||| (if n.write && !pteD l.entry then 0x80 else 0)
    .ok (⟨pa, pteCmp l.entry, pteUc l.entry⟩,
      if set = 0 then (if walked then s.tlbPut l else s) else (s.orPte l.place set).tlbPut { l with entry := l.entry ||| set })

/-- Translate of R69: range, a held leaf or one of the TLB, walk, permissions, A and D. -/
def State.translateBy (s : State) (held : Option TlbLeaf) (va : Word) (n : Need) (priv : Bool) : Except Trap (Phys × State) :=
  if !s.walkable va n.host then .error (accessTrap 0x12 15 va n priv)
  else match held.orElse fun _ => s.tlbFind n.host (vaNat va) with
    | some l => s.useLeaf l false va n priv
    | none =>
      match walk s.mem (s.rootFor n.host) va with
      | .leaf e k at_ =>
        (s.touchWalk (s.rootFor n.host) va).useLeaf ⟨s.asid, n.host, vaNat va / 2 ^ k * 2 ^ k, k, e, at_⟩ true va n priv
      | .bad arg => .error (accessTrap 0x12 arg va n priv)
      | .poisoned => .error (accessTrap 0x16 0 va { n with kind := 5 } priv)
      | .unmapped => .error (accessTrap 0x13 8 va { n with kind := 5 } priv)

def State.translate (s : State) (va : Word) (n : Need) (priv : Bool) : Except Trap (Phys × State) := s.translateBy none va n priv

/-- What a translation that faulted leaves: the reads of its walk count (R109). -/
def State.missed (s : State) (va : Word) (host : Bool) : State :=
  if s.walkable va host && (s.tlbFind host (vaNat va)).isNone then s.touchWalk (s.rootFor host) va else s

/-- Translate in a meaning: a fault is a precise trap of the instruction. -/
def translate (va : Word) (n : Need) : M Phys := fun s =>
  match s.translate va n s.privileged with
  | .error t => .error (.trap (some (s.missed va n.host)) t)
  | .ok r => .ok r

end Sys2Proof.Machine
end

