-- ==== Sys2Proof/Machine/Order.lean ====
section
/-!
DEFINITION. The order machine: scratch read buffer, L1, store buffer, accumulators, signatures and boards,
release and acquire, writes of engines (R108, R109, R114, R115, R310 to R325).
-/
namespace Sys2Proof.Machine

/-! ### Signatures (R315) -/

/-- A 9-bit number rotated left. -/
def rot9 (c k : Nat) : Nat := (c * 2 ^ (k % 9) + c / 2 ^ (9 - k % 9)) % 512

/-- Bit number h(i) of the sector of a physical address. -/
def sigBit (pa i : Nat) : Nat :=
  let x := pa / 32 % 2 ^ 47
  (List.range 6).foldl (fun h j => Nat.xor h (rot9 (x / 2 ^ (9 * j) % 512) (i * j))) 0

/-- The signature of one sector. -/
def sigOf (pa : Nat) : BitVec 512 :=
  (List.range 4).foldl (fun v i => v ||| (1#512 <<< sigBit pa i)) 0

/-- Does a sector match a signature? -/
def sigMatches (sig : BitVec 512) (pa : Nat) : Bool := sig &&& sigOf pa == sigOf pa

/-! ### Boards (R316) -/

def Package.board (p : Package) (scope inst : Nat) : Board :=
  (p.boards.find? fun b => b.scope == scope && b.inst == inst).getD ⟨scope, inst, 0, []⟩

/-- Post a signature: it takes the next sequence number; the board keeps the 64 newest entries. -/
def Package.post (p : Package) (scope inst : Nat) (sig : BitVec 512) : Package :=
  let b := p.board scope inst
  { p with boards := ⟨scope, inst, b.seq + 1, ((b.seq + 1, sig) :: b.posts).take 64⟩ ::
      p.boards.filter fun x => !(x.scope == scope && x.inst == inst) }

/-- Post to the boards of a core's instances from CORE up to a scope (R317, R321). -/
def Package.postUpTo (p : Package) (core scope : Nat) (sig : BitVec 512) : Package :=
  (List.range (scope + 1)).foldl (fun q k => q.post k (scopeInst k core) sig) p

/-! ### The scratch read buffer (R313) -/

/-- Bytes of a list replaced from an index. -/
def overlay (base : List Byte) (i : Nat) (bs : List Byte) : List Byte :=
  base.take i ++ bs ++ base.drop (i + bs.length)

/-- Bytes written by the strand update the copies that its scratch read buffer holds; a write of a whole sector clears its
poison (R110). -/
def updateCopies (cs : List SectorCopy) (sp : Space) (a : Nat) (bs : List Byte) : List SectorCopy :=
  cs.map fun c =>
    if c.space == sp && meetsSector c.addr a bs.length then
      { c with poison := c.poison && !(a ≤ c.addr && c.addr + 32 ≤ a + bs.length), data := (List.range 32).map fun i =>
          let k := c.addr + i
          if a ≤ k && k < a + bs.length then bs[k - a]?.getD 0 else c.data[i]?.getD 0 }
    else c

def CoreOrder.dropScratch (o : CoreOrder) : CoreOrder := { o with scratch := [] }

/-! ### The L1 (R108, R109, R312 to R314, R322) -/

def CoreOrder.l1Find (o : CoreOrder) (sp : Space) (view : Bool) (sec : Nat) : Option L1Sector :=
  o.l1.find? fun x => x.space == sp && x.view == view && x.addr == sec

def CoreOrder.l1Put (o : CoreOrder) (x : L1Sector) : CoreOrder :=
  { o with l1 := x :: o.l1.filter fun y => !(y.space == x.space && y.view == x.view && y.addr == x.addr) }

/-- Bytes put into a valid L1 copy, dirty or not; a store that hits a counted line clears the count (R109). -/
def L1Sector.store (x : L1Sector) (a : Nat) (bs : List Byte) (dirty : Bool) : L1Sector :=
  let i := a - x.addr
  let mask : BitVec 32 := BitVec.ofNat 32 ((2 ^ bs.length - 1) * 2 ^ i)
  { x with data := overlay x.data i bs, dirty := if dirty then x.dirty ||| mask else x.dirty,
           poison := x.poison && bs.length != 32 }

def CoreOrder.uncount (o : CoreOrder) (sp : Space) (view : Bool) (line : Nat) : CoreOrder :=
  { o with l1rc := o.l1rc.filter fun x => !(x.space == sp && x.view == view && x.line == line) }

/-- A sector's dirty bytes written back to the home, merging only those bytes (R314). -/
def State.writeBack (s : State) (x : L1Sector) : State :=
  if x.dirty = 0 then s
  else
    let t := s.giveUp s.parked x.space x.addr 32
    let u := ({ t with mem := t.mem.mergeDirty x }).clearL2 x.space x.view x.addr 32
    let s1 := u.mapCores fun c => if c.id = s.core.id then c else c.wake x.space x.addr 32
    s1.modOrder fun o => { o with l1 := o.l1.map fun y => if y = x then { y with dirty := 0 } else y }

/-- Sectors written back, then dropped; a monitor that stood on one is lost (R115, R318). -/
def State.dropL1 (s : State) (which : L1Sector → Bool) : State :=
  let gone := s.core.order.l1.filter which
  let s1 := gone.foldl State.writeBack s
  let s2 := s1.modOrder fun o => { o with l1 := o.l1.filter fun x => !which x }
  let lost (m : Monitor) : Monitor :=
    if gone.any (fun x => x.space == m.space && x.addr == m.sector) then m.woken 2 else m
  s2.modStrand fun t => { t with
    ap := { t.ap with monitor := t.ap.monitor.map lost },
    shadow := { t.shadow with monitor := t.shadow.monitor.map lost } }

/-- Every dirty byte of the L1 written back (R317, R323). -/
def State.writeBackAll (s : State) : State := s.core.order.l1.foldl State.writeBack s

/-! ### Performing stores (R311) -/

/-- A sector added to all six accumulators. -/
def CoreOrder.accumulate (o : CoreOrder) (pa : Nat) : CoreOrder :=
  { o with acc := o.acc.map fun v => v ||| sigOf pa }

/-- A write in the own L1 wakes the own monitors on it; dirty bytes that these give up reach the home as a write there (R115, R319). -/
def State.wakeOwn (s : State) (sp : Space) (a n : Nat) : State :=
  ((s.core.givesUp sp a n).foldl State.writeBack s).modCore fun c => c.wake sp a n

/-- A write of a strand to device or host memory performed by its policy (R108, R311, R324): `.ca` sets dirty bytes in
the L1, `.st` and `.na` write the home and update a valid copy; an uncached write goes to the home and posts its sector to
the DIE board. -/
def State.performCached (s : State) (e : StoreEntry) : State :=
  let sec := sectorOf e.addr
  let s1 :=
    if e.uc then
      let t := s.homeWrite e.space e.view e.addr e.data
      t.modPack fun p => p.post 3 (dieOf s.core.id) (sigOf sec)
    else if e.pol = 0 then
      let x := match s.core.order.l1Find e.space e.view sec with
        | some x => x
        | none => let h := s.homeBytes e.space e.view sec 32; ⟨e.space, e.view, sec, h.1, 0, h.2⟩
      (s.modOrder fun o => (o.l1Put (x.store e.addr e.data true)).uncount e.space e.view (e.addr / 128)).wakeOwn
        e.space e.addr e.data.length
    else
      let t := s.homeWrite e.space e.view e.addr e.data
      match t.core.order.l1Find e.space e.view sec with
      | some x => t.modOrder fun o => (o.l1Put (x.store e.addr e.data false)).uncount e.space e.view (e.addr / 128)
      | none => t
  s1.modOrder fun o => o.accumulate sec

/-- A scratchpad write of the strand performed at its home bank (R311, R313). -/
def State.performScratch (s : State) (sp : Space) (a : Nat) (bs : List Byte) : State :=
  (s.homeWrite sp false a bs).modOrder fun o => { o with scratch := updateCopies o.scratch sp a bs }

/-- A write of the strand performed. -/
def State.perform (s : State) (e : StoreEntry) : State :=
  match e.space with
  | .dev | .host => s.performCached e
  | sp => s.performScratch sp e.addr e.data

/-- A request to another node's window: a write of an agent of the core, with its poison mark (R409, R423). -/
def State.podWrite (s : State) (agent node off : Nat) (bs : List Byte) (poison : Bool := false) : State :=
  s.podSend ⟨s.core.id, agent, node, off, .write, bs, s.hub.hubClk, false, false, poison, 0⟩

/-- Is the oldest store on its way to another node? -/
def State.storeOut (s : State) : Bool := s.share.pod.any fun r => r.core == s.core.id && r.agent == 10

/-- Is a read of the core's at another node's place: one whose answer may be older than a store there? -/
def State.rereads (s : State) (node off n core agent node' off' : Nat) : Bool :=
  core == s.core.id && (agent == 6 || agent == 7 || agent == 8) && node' == node && off' < off + n && off < off' + 32

/-- Reads of bytes at another node that a store of the core has just written are made again, so that none is performed before an older
store and returned after it (R312). -/
def State.reread (s : State) (node off n : Nat) : State :=
  s.modShare fun h => { h with
    pod := h.pod.map fun r => if r.kind == .read && s.rereads node off n r.core r.agent r.node r.offset then { r with agent := 11 } else r,
    replies := h.replies.filter fun r => !(r.data.length == 32 && s.rereads node off n r.core r.agent r.node r.offset) }

/-- The oldest entry of the store buffer leaves it, performed at another node. -/
def State.storeDone (s : State) : State :=
  match s.core.order.stores with
  | [] => s
  | e :: rest =>
    let t := s.modOrder fun o => { o with stores := rest }.accumulate (sectorOf e.addr)
    match s.targetOf e.space e.addr with
    | .pod node off => t.reread node off e.data.length
    | _ => t

/-- The oldest entry of the store buffer performed (R311).  A store to another node's window stands in the buffer until its
reply has come, so that no younger one is performed before it; one to a quarantined node is given up (R423, R426). -/
def State.performOldest (s : State) : State :=
  match s.core.order.stores with
  | [] => s
  | e :: rest =>
    match s.targetOf e.space e.addr with
    | .pod node off =>
      if s.share.pack.quarantined.contains node then s.storeDone
      else if s.storeOut then s
      else s.podWrite 10 node off e.data
    | _ => (s.modOrder fun o => { o with stores := rest }).perform e

/-- Entries of the store buffer performed in order, as far as the oldest is not on its way to another node. -/
def State.drain : Nat → State → State
  | 0, s => s
  | n + 1, s => State.drain n s.performOldest

def State.drainAll (s : State) : State := State.drain s.core.order.stores.length s

/-- Entries of the store buffer up to the last that overlaps the bytes (R312). -/
def overlapCount (es : List StoreEntry) (sp : Space) (a n : Nat) : Nat :=
  es.zipIdx.foldl (fun k e => if e.1.space == sp && e.1.addr < a + n && a < e.1.addr + e.1.data.length then e.2 + 1 else k) 0

/-- Every entry that an access at the home must follow is performed. -/
def State.drainFor (s : State) (sp : Space) (a n : Nat) : State :=
  State.drain (overlapCount s.core.order.stores sp a n) s

/-- Does an older store to the bytes still stand behind one that is on its way to another node? -/
def State.storesAhead (s : State) (sp : Space) (a n : Nat) : Bool := overlapCount s.core.order.stores sp a n != 0

/-! ### Reading (R312) -/

/-- Younger bytes of the store buffer laid over bytes read below it, oldest entry first. -/
def forward (es : List StoreEntry) (sp : Space) (view : Bool) (a : Nat) (bs : List Byte) : List Byte :=
  es.foldl (fun acc e =>
    if e.space == sp && (e.view == view || sp != .dev) then
      acc.zipIdx.map fun x =>
        let k := a + x.2
        if e.addr ≤ k && k < e.addr + e.data.length then e.data[k - e.addr]?.getD 0 else x.1
    else acc) bs

/-- Does a store in the buffer write the whole sector, so that no poison of it is read (R110)? -/
def clears (es : List StoreEntry) (sp : Space) (sec : Nat) : Bool :=
  es.any fun e => e.space == sp && e.addr ≤ sec && sec + 32 ≤ e.addr + e.data.length

/-- Scratchpad bytes as the strand reads them within one sector: store buffer, scratch read buffer, home with a copy
kept; a Chamber value that an engine or a pull wrote drops every Chamber copy and leaves none (R312, R313). -/
def State.readScratch (s : State) (sp : Space) (a n : Nat) : (List Byte × Bool) × State :=
  let sec := sectorOf a
  let es := s.core.order.stores
  let cut (d : List Byte) (p : Bool) : List Byte × Bool := (forward es sp false a ((d.drop (a - sec)).take n), p && !clears es sp sec)
  match s.core.order.scratch.find? fun c => c.space == sp && c.addr == sec with
  | some c => (cut c.data c.poison, s)
  | none =>
    let h := s.homeBytes sp false sec 32
    let fresh := sp == .cham && s.mem.byEngine.contains (sec / 32)
    (cut h.1 h.2, s.modOrder fun o =>
      { o with scratch := if fresh then o.scratch.filter fun c => c.space != .cham else ⟨sp, false, sec, h.1, h.2⟩ :: o.scratch })

/-- A read that the L1 serves counts against its line's read count; at 0 the line is dropped (R109). -/
def State.countL1 (s : State) (sp : Space) (view : Bool) (line : Nat) : State :=
  match s.core.order.l1rc.find? fun x => x.space == sp && x.view == view && x.line == line with
  | none => s
  | some x =>
    if x.count ≤ 1 then
      (s.dropL1 fun y => y.space == sp && y.view == view && y.addr / 128 == line).modOrder
        fun o => o.uncount sp view line
    else s.modOrder fun o => { o with l1rc := countLine o.l1rc sp view line }

/-- Does the L1 hold a counted line (R109)? -/
def CoreOrder.counted (o : CoreOrder) (sp : Space) (view : Bool) (line : Nat) : Bool :=
  (o.l1rc.any fun x => x.space == sp && x.view == view && x.line == line) &&
  o.l1.any fun x => x.space == sp && x.view == view && x.addr / 128 == line

/-- Device or host bytes as the strand reads them within one sector: store buffer, L1, home with the fill of the policy
(R108, R109, R312, R324).  A read that hits a counted line counts, whether or not it carries `.rc`; a line without a count is filled
anew by a load with `.rc` (assumption 86). -/
def State.readCached (s : State) (sp : Space) (p : Phys) (n pol rc : Nat) : (List Byte × Bool) × State :=
  let sec := sectorOf p.pa
  let cut (d : List Byte) : List Byte := forward s.core.order.stores sp p.view p.pa ((d.drop (p.pa - sec)).take n)
  if p.uc then
    let h := s.homeBytes sp p.view sec 32
    ((cut h.1, h.2), s.touchL2 sp p.view sec)
  else
    match s.core.order.l1Find sp p.view sec with
    | some x => ((cut x.data, x.poison), s.countL1 sp p.view (p.pa / 128))
    | none =>
      let h := s.homeBytes sp p.view sec 32
      let s0 := s.touchL2 sp p.view sec
      let s1 :=
        if pol = 0 then
          let put (o : CoreOrder) : CoreOrder := o.l1Put ⟨sp, p.view, sec, h.1, 0, h.2⟩
          if s0.core.order.counted sp p.view (p.pa / 128) then s0.modOrder put
          else
            let t := s0.modOrder fun o => (put o).uncount sp p.view (p.pa / 128)
            if rc = 0 then t
            else t.modOrder fun o => { o with l1rc := ⟨sp, p.view, p.pa / 128, rc⟩ :: o.l1rc }
        else if pol = 1 && rc != 0 && !(s.share.pack.l2rc.any fun x => x.space == sp && x.view == p.view && x.line == p.pa / 128) then
          s0.modPack fun q => { q with l2rc := ⟨sp, p.view, p.pa / 128, rc⟩ :: q.l2rc.filter fun x =>
            !(x.space == sp && x.view == p.view && x.line == p.pa / 128) }
        else s0
      ((cut h.1, h.2), s1)

/-! ### Release and acquire (R317, R318, R320) -/

/-- The signature of A(S). -/
def CoreOrder.accAt (o : CoreOrder) (scope : Nat) : BitVec 512 := o.acc[scope]?.getD 0

/-- A release of the strand at a scope (R317); the answer is the sequence number of its PACKAGE post, 0 below PACKAGE
(R284). `extra` is a signature that the post also covers (R319). -/
def State.releaseWith (s : State) (scope : Nat) (extra : BitVec 512) : State :=
  let s1 := s.drainAll.writeBackAll
  let sig := s1.core.order.accAt scope ||| extra
  let s2 := s1.modPack fun p => p.postUpTo s1.core.id scope sig
  s2.modOrder fun o => { o with acc := (List.range (scope + 1)).foldl (fun v i => v.setIfInBounds i 0) o.acc }

def State.release (s : State) (scope : Nat) : State := s.releaseWith scope 0

/-- One board of an acquire (R318): a gap of more than 64 drops the whole L1, else the sectors that match newer entries. -/
def State.acquireBoard (s : State) (scope : Nat) : State :=
  let b := s.share.pack.board scope (scopeInst scope s.core.id)
  let seen := s.core.order.seen[scope]?.getD 0
  let s1 :=
    if b.seq - seen > 64 then s.dropL1 fun _ => true
    else
      let news := (b.posts.filter fun p => seen < p.1).map (·.2)
      let hit (x : L1Sector) : Bool := news.any fun sig => sigMatches sig x.addr
      let n := (s.core.order.l1.filter hit).length
      (s.dropL1 hit).modSys fun y => { y with ordstat := addWrap y.ordstat 0 32 n }
  s1.modOrder fun o => { o with seen := o.seen.setIfInBounds scope b.seq }

/-- Is a board further ahead of seen than its entries reach (R318)? -/
def State.boardLost (s : State) (scope : Nat) : Bool :=
  64 < (s.share.pack.board scope (scopeInst scope s.core.id)).seq - s.core.order.seen[scope]?.getD 0

/-- An acquire of the strand at a scope (R318); it drops the scratch read buffer (R313), and counts once where it drops the
whole L1 (R320). -/
def State.acquire (s : State) (scope : Nat) : State :=
  let t := if (List.range (scope + 1)).any s.boardLost then s.modSys fun y => { y with ordstat := addWrap y.ordstat 32 32 1 } else s
  ((List.range (scope + 1)).foldl State.acquireBoard t).modOrder CoreOrder.dropScratch

/-! ### Writes by engines and pulls (R313, R321) -/

/-- Bytes that an engine or a pull writes: at the home; Chamber sectors are remembered as so written. -/
def State.engineWrite (s : State) (sp : Space) (view : Bool) (a : Nat) (bs : List Byte) : State :=
  let t := s.homeWrite sp view a bs
  if sp == .cham then { t with mem := { t.mem with byEngine := (sectorNos a bs.length).foldl insertNat t.mem.byEngine } } else t

/-- A write of an engine of the core performed at its home; an uncached one posts its sector to the DIE board (R321, R324). -/
def State.performEngine (s : State) (w : EngineWrite) : State :=
  let t := s.engineWrite w.space w.view w.addr w.data
  let u := match w.mark with
    | some (i, p) => t.setPoison w.space w.view i p
    | none => t
  if w.uc then u.modPack fun p => p.post 3 (dieOf s.core.id) (sigOf (sectorOf w.addr)) else u

/-- Every write of engine n that is not yet performed, oldest first. -/
def State.flushEngine (s : State) (n : Nat) : State :=
  match (s.engine n).writes with
  | [] => s
  | ws => (ws.foldl State.performEngine s).modEngine n fun e => { e with writes := [] }

/-- The oldest write of engine n performed. -/
def State.performEngineOldest (s : State) (n : Nat) : State :=
  match (s.engine n).writes with
  | [] => s
  | w :: rest => (s.performEngine w).modEngine n fun e => { e with writes := rest }

def State.flushEngines (s : State) : State := (List.range 6).foldl State.flushEngine s

/-- A write from outside to device memory: at the home, and its sector posted alone to the SYSTEM board (R314, R425). -/
def State.outsideWrite (s : State) (pa : Nat) (bs : List Byte) : State :=
  (s.homeWrite .dev false pa bs).modPack fun p => p.post 5 0 (sigOf (sectorOf pa))

/-! ### A core before a launch (R311, R323) -/

/-- Stores that an ended strand has left in the buffer: each is performed in order, one to another node as a request that
nothing waits for. -/
def State.flushStore (s : State) (e : StoreEntry) : State :=
  match s.targetOf e.space e.addr with
  | .pod node off => if s.share.pack.quarantined.contains node then s else s.podWrite 11 node off e.data
  | _ => s.perform e

def State.flushStores (s : State) : State :=
  let es := if s.storeOut then s.core.order.stores.drop 1 else s.core.order.stores
  es.foldl State.flushStore ((s.orphan s.core.id [10]).modOrder fun o => { o with stores := [] })

/-- What a restore or a launch does first (R323): every dirty byte of the L1 reaches its home, then the L1 and the scratch
read buffer are dropped and seen is set to each board's number. -/
def State.cleanCore (s : State) : State :=
  let s1 := s.flushStores.flushEngines.writeBackAll
  let id := s.core.id
  let seen := (List.range 6).foldl (fun (v : Vector Nat 6) k =>
    v.setIfInBounds k (s1.share.pack.board k (scopeInst k id)).seq) s1.core.order.seen
  s1.modOrder fun o => { o with l1 := [], l1rc := [], scratch := [], seen := seen, acc := .replicate 6 0 }

end Sys2Proof.Machine
end

