-- ==== Sys2Proof/Machine/Aperture.lean ====
section
/-!
DEFINITION. Reads beyond the stacks: aperture windows, combined in the switch, and windows of other nodes
(R154, R242, R249, R303, R423, R426).
-/
namespace Sys2Proof.Machine

/-- Minimum and maximum of R154: a NaN gives NaN, and -0 is below +0. -/
def vmaxVal (a b : Val) : Val := if a.isNan || b.isNan then .nan else if a.lt b then b else a
def vminVal (a b : Val) : Val := if a.isNan || b.isNan then .nan else if b.lt a then b else a

/-- One reduction step on encodings in a format, through FP32 for add (R242, R301): op 0 add, 1 max, 2 min. -/
def redFp32 (op : Nat) (ftz : Bool) (a b : Val) : Nat × Flags :=
  match op with
  | 0 =>
    let t := a.add 0 b
    let r := roundFloat fp32 0 0 ftz false t.1
    (r.1, t.2 ||| r.2)
  | 1 => roundFloat fp32 0 0 ftz false (vmaxVal a b)
  | _ => roundFloat fp32 0 0 ftz false (vminVal a b)

/-- `Red` of R242 for BF16 and FP32 elements. -/
def red (op : Nat) (isFp32 ftz : Bool) (a b : Nat) : Nat × Flags :=
  let f := if isFp32 then fp32 else bf16
  let r := redFp32 op ftz (f.decodeFtz ftz a) (f.decodeFtz ftz b)
  if isFp32 then r
  else
    let q := roundFloat bf16 0 0 ftz false (fp32.decodeFtz ftz r.1)
    (q.1, r.2 ||| q.2)

/-- Bytes cut into elements of w bytes, as numbers; the fuel is their number. -/
def elements (w : Nat) : Nat → List Byte → List Nat
  | 0, _ => []
  | n + 1, bs => leNat (bs.take w) :: elements w n (bs.drop w)

/-- Elements as bytes. -/
def unelements (w : Nat) (xs : List Nat) : List Byte := xs.flatMap fun x => leBytes w x

/-- The members of a window with their bases, in ascending die number. -/
def Window.parts (w : Window) : List Nat :=
  (List.range 8).filterMap fun d => if bit w.members d then w.bases[d]? else none

/-- The 32 bytes of a member's sector at its home, and whether it is poisoned or cannot be reached. -/
def State.memberSector (s : State) (w : Window) (va : Nat) : List Byte × Bool :=
  match walk s.mem (rootOf w.root) (BitVec.ofNat 64 va) with
  | .leaf e n _ => s.homeBytes .dev (pteCmp e) (pteAddr e + va % 2 ^ n) 32
  | _ => (List.replicate 32 0, true)

/-- A sector of a window: the members combined in ascending die number, in FP32, rounded once (R249, R303). -/
def State.windowSector (s : State) (w : Window) (off : Nat) : List Byte × Bool :=
  let f := if w.fp32 then fp32 else bf16
  let n := if w.fp32 then 4 else 2
  let secs := w.parts.map fun b => s.memberSector w (b + off)
  let cols := secs.map fun x => (elements n (32 / n) x.1).map f.decode
  let join (a b : List Val) : List Val := List.zipWith (fun x y =>
    match w.op with
    | 0 => fp32.decode (roundFloat fp32 0 0 false false (x.add 0 y).1).1
    | 1 => vmaxVal x y
    | _ => vminVal x y) a b
  let out := match cols with
    | [] => List.replicate (32 / n) (Val.zero false)
    | c :: cs => cs.foldl join c
  (unelements n (out.map fun v => (roundFloat f 0 0 false false v).1), secs.any (·.2))

/-- The read of each member's sector at its home L2, once per read of the window (R109, R249). -/
def State.touchMembers (s : State) (w : Window) (off : Nat) : State :=
  w.parts.foldl (fun t b =>
    let u := t.touchWalk (rootOf w.root) (BitVec.ofNat 64 (b + off))
    match walk t.mem (rootOf w.root) (BitVec.ofNat 64 (b + off)) with
    | .leaf e n _ => u.touchL2 .dev (pteCmp e) (pteAddr e + (b + off) % 2 ^ n)
    | _ => u) s

/-- The outcome of a read of memory: bytes and poison, or a request that waits for another node. -/
inductive Got where
  | data (bs : List Byte) (poison : Bool) (s : State)
  | ask (r : PodReq)
deriving DecidableEq, Repr

/-- A write of the agent to the bytes that is still on its way: a read waits for it (R37, R121, R312). -/
def State.podWriteTo (s : State) (agent node off n : Nat) : Option PodReq :=
  s.share.pod.find? fun r => r.core == s.core.id && r.kind == .write && r.node == node && off < r.offset + r.data.length &&
    r.offset < off + n && (r.agent == agent || (agent == 8 && r.agent == 6))

/-- Data of an error completion, which the manual does not state (assumption 13). -/
def freeBytes (n : Nat) : List Byte := (List.range 4).flatMap fun i => leBytes 8 (Config.freeWord (n + i)).toNat

/-- A read within a sector of another node's window: the reply when it has come, a request otherwise; the value of a
read of a quarantined node is free (R423, R426, assumption 13). -/
def State.podRead (s : State) (agent node off n : Nat) : Got :=
  let sec := sectorOf off
  match s.share.replies.find? fun r => r.core == s.core.id && r.agent == agent && r.node == node && r.offset == sec with
  | some r => .data ((r.data.drop (off - sec)).take n) r.poison s
  | none =>
    if s.share.pack.quarantined.contains node then
      .data ((freeBytes s.fresh).take n) false { s with fresh := s.fresh + 4 }
    else .ask ((s.podWriteTo agent node off n).getD ⟨s.core.id, agent, node, sec, .read, [], s.hub.hubClk, false, false, false, 0⟩)

/-- A read of an aperture window within a sector. -/
def State.windowRead (s : State) (w off n : Nat) : Got :=
  match s.share.pack.windows[w]?.getD none with
  | some x =>
    let r := s.windowSector x (sectorOf off)
    .data ((r.1.drop (off - sectorOf off)).take n) r.2 (s.touchMembers x (sectorOf off))
  | none => .data (List.replicate n 0) true s

/-- Device or host bytes within one sector as the strand reads them, from whatever the address reaches; the strand's stores
to another node are forwarded too (R312). -/
def State.readPhys (s : State) (agent : Nat) (sp : Space) (p : Phys) (n pol rc : Nat) : Got :=
  match s.targetOf sp p.pa with
  | .window w off => s.windowRead w off n
  | .pod node off => match s.podRead agent node off n with
    | .data bs x t => .data (forward s.core.order.stores sp p.view p.pa bs) x t
    | r => r
  | _ => let r := s.readCached sp p n pol rc; .data r.1.1 r.1.2 r.2

end Sys2Proof.Machine
end

