-- ==== Sys2Proof/Machine/Access.lean ====
section
/-!
DEFINITION. Accesses of the strand: the checks in the order of R100, the limit of R101, pinned ranges, and reading and
writing with an access prefix (R51, R99 to R110, R218, R279, R319, R382, R395).
-/
namespace Sys2Proof.Machine

/-! ### The scratchpads (R99, R104 to R106) -/

/-- Bytes of a scratchpad as an AP access addresses it. -/
def spaceSize : Space → Nat
  | .cham => 2 ^ 23
  | .gal => 2 ^ 24
  | .grot => 2 ^ 26
  | _ => 0

/-- Place of a scratchpad offset of a core (R99, R105). -/
def placeOf (sp : Space) (core off : Nat) : Nat :=
  match sp with
  | .cham => chamAt core off
  | .gal => galInterleaved core off
  | .grot => grotAt (dieOf core) off
  | _ => off

/-- Bank of a Chamber offset (R104). -/
def bankOf (off : Nat) : Nat := off / 2 ^ 20

/-- Does [off, off + n) meet a word between FP and WP of the ring (R104)? -/
def Engine.windowHas (e : Engine) (off n : Nat) : Bool :=
  e.enabled && e.base < off + n && off < e.base + e.size &&
  (List.range (n / 4 + 2)).any fun k =>
    let w := off / 4 * 4 + 4 * k
    decide (w < off + n) && decide (e.base ≤ w) && decide (w < e.base + e.size) &&
      decide (((w - e.base) / 4 + e.words - e.fp.toNat % e.words) % e.words < e.kept)

/-- Does [off, off + n) meet the ring area (R104)? -/
def Engine.areaHas (e : Engine) (off n : Nat) : Bool :=
  e.enabled && e.base < off + n && off < e.base + e.size

/-- The lowest engine of a core for whose ring the test holds. -/
def Core.ringWith (c : Core) (f : Engine → Bool) : Option Nat :=
  (List.range 6).find? fun n => f (c.engines[n]?.getD Engine.reset)

/-- The installed region whose replica cells meet [off, off + n) of a Grotto (R106, R273). -/
def Package.regionAt (p : Package) (off n : Nat) : Option Nat :=
  (List.range 16).find? fun i => match p.regions[i]?.getD none with
    | some r => r.gbase < off + n && off < r.gbase + 8 * r.cells
    | none => false

/-- Why a scratchpad access inside its space is not open to the strand (R104, R106): cause and ARG. -/
def State.refusal (s : State) (sp : Space) (off n : Nat) (write : Bool) : Option (Nat × Nat) :=
  match sp with
  | .cham =>
    if !s.inShadow && !bit s.strand.info.banks (bankOf off) then some (0x14, bankOf off)
    else if write then (s.core.ringWith fun e => e.windowHas off n).map fun k => (0x15, k)
    else none
  | .grot => (s.share.pack.regionAt off n).map fun r => (0x1A, r)
  | _ => none

/-- The entry that pins a byte of [off, off + n) of the Chamber of a core: states 1, 2 and 3 (R218, R225). -/
def Core.pinnedBy (c : Core) (off n : Nat) : Option Nat :=
  let meets (p : Pin) : Bool := p.state != 0 && p.state < 4 && p.off < off + n && off < p.off + p.size
  match (List.range 16).find? fun i => meets (c.strand.pins[i]?.getD Pin.free) with
  | some i => some i
  | none => (c.oldPins.find? fun o => meets o.pin).map (·.ix)

/-- A precise trap of an access: KIND 0 read, 1 write, 3 atomic, with PRIV, the virtual address and HOST (R388).  What the access has
done on its way stands: A and D bits, drained stores, fills (R403). -/
def accTrap {α : Type} (code arg kind : Nat) (va : Word := 0) (host : Bool := false) : M α := do
  let s ← get
  stop (.trap (some s) { mkTrap .p code arg with kind := kind, priv := s.privileged, va := va, host := host })

/-- Steps 2 to 4 of R100 for a scratchpad access of n bytes; `size` is the size of the space as addressed. -/
def checkScratch (sp : Space) (size off n kind : Nat) : M Unit := do
  let s ← get
  if off % n ≠ 0 then accTrap 0x10 0 kind
  else if size < off + n then accTrap 0x11 0 kind
  else match s.refusal sp off n (kind = 1) with
    | some x => accTrap x.1 x.2 kind
    | none => return ()

/-- Step 5 of R100. -/
def holdPinned (sp : Space) (off n cls : Nat) : M Unit := do
  let s ← get
  match if sp == .cham then s.core.pinnedBy off n else none with
  | some i => block { cls := cls, kind := 4, obj := i }
  | none => return ()

/-! ### Requests in flight (R101) -/

/-- Is the word of the AP an access to its own Chamber? -/
def State.apInChamber (s : State) : Bool :=
  match (s.strand.image.word s.wordPc).map decodeStrand with
  | some (.ok i) => match i with
    | .ldc .. | .ldcx .. => true
    | _ => false
  | _ => false

/-- Requests of the core in flight: queue entries that await data, stores not yet performed, the AP's issued load, and what
the AP and the EP have asked of other nodes; none of them in the core's own Chamber. -/
def State.inFlight (s : State) : Nat :=
  (s.strand.queues.q.toList.map fun q => (q.filter fun e => e.data.isNone).length).sum +
  (s.core.order.stores.filter fun e => e.space != .cham).length +
  (if s.ap.issued && !s.apInChamber then 1 else 0) +
  (s.share.pod.filter fun r => r.core == s.core.id && (r.agent == 6 || r.agent == 7)).length

/-- Does the space take a request that is not there?  Lane slices and the own Chamber take none. -/
def State.noRequest (s : State) (sp : Space) : Bool := sp != .cham && sp != .lane && s.inFlight ≥ 8192

/-- An access of the AP finds a free request, or blocks; one that has been issued holds its request. -/
def needRequest (sp : Space) (cls : Nat) : M Unit := do
  let s ← get
  blockIf (!s.ap.issued && !s.ap.arrived && s.noRequest sp) { cls := cls, kind := 5, obj := 0 }

/-- A stream element finds a free request, or blocks under class 0. -/
def needElement (sp : Space) : M Unit := do
  blockIf ((← get).noRequest sp) { cls := 0, kind := 5, obj := 0 }

/-! ### Options of the access prefix (R51) -/

def AccPrefix.none : AccPrefix := ⟨0, false, false, 0, false, 0, false⟩

def State.accessOpts (s : State) : AccPrefix :=
  match s.ap.bind with
  | .access p => p
  | _ => AccPrefix.none

/-- The policy of an access that is no queue form: POL under PV, else `.ca` (R108). -/
def AccPrefix.policy (p : AccPrefix) : Nat := if p.pv then p.pol else 0

/-! ### Reading -/

/-- Bytes within one sector as an agent of the strand reads them: scratchpads by R312, device and host by R108. -/
def readAt (agent : Nat) (sp : Space) (p : Phys) (n pol rc : Nat) : M (List Byte × Bool) := fun s =>
  match sp with
  | .dev | .host => match s.readPhys agent sp p n pol rc with
    | .data bs poison t => .ok ((bs, poison), t)
    | .ask r => .error (.ask r)
  | _ => .ok (s.readScratch sp p.pa n)

/-- An acquire at the end of an access with ACQ (R319). -/
def acquireIf (c : Bool) (scope : Nat) : M Unit := modify fun s => if c then s.acquire scope else s

/-- In the mode in which loads wait, a load is issued first and completes when its data has come (assumption 5). -/
def awaitData (m : M Flow) : M Flow := do
  let s ← get
  if s.late && !s.ap.arrived then
    set (s.modAp fun a => { a with issued := true })
    return .stay
  else m

/-- A register-destination load of n bytes from a checked place (R109, R110, R319). -/
def loadReg (sp : Space) (p : Phys) (n : Nat) (d : BitVec 6) (va : Word := 0) : M Flow := do
  let o := (← get).accessOpts
  let r ← readAt 6 sp p n o.policy o.rc
  if r.2 then
    if o.zp then
      wrA d 0
      modify fun s => s.modSys fun y => { y with zpcnt := addSat y.zpcnt 0 32 1 }
    else accTrap 0x16 0 0 va (sp == .host)
  else wrA d (leWord r.1)
  acquireIf o.acq o.scope
  return .seq

/-! ### Releases (R317, R319) -/

/-- The AP waits and keeps what it has done so far; past the bound the progress trap is taken (R41). -/
def stayBlocked (w : Wait) : M Flow := fun s =>
  let b := nextBlock s.regs (if s.inShadow then s.strand.shadow.block else s.ap.block) w
  if b.expired then .error (.trap (some s) (s.progressTrap .p b))
  else if s.inShadow then .ok (.stay, s.modStrand fun t => { t with shadow := { t.shadow with block := some b } })
  else .ok (.stay, s.modAp fun a => { a with block := some b })

/-- Has the strand a write to another node on its way? -/
def State.podWrites (s : State) : Bool :=
  s.share.pod.any fun r => r.core == s.core.id && r.kind == .write && (6 ≤ r.agent && r.agent ≤ 10)

/-- Is every store of the strand performed (R317)? -/
def State.storesDone (s : State) : Bool := s.core.order.stores.isEmpty && !s.podWrites

/-- A release at a scope, then the rest: the store buffer empties first, writes to other nodes included (R317). -/
def afterRelease (scope : Nat) (extra : BitVec 512) (rest : M Flow) : M Flow := do
  modify State.drainAll
  if !(← get).storesDone then stayBlocked { cls := 0, kind := 9, obj := 0 }
  else
    modify fun s => s.releaseWith scope extra
    rest

/-- A release where REL asks for one. -/
def releaseIf (c : Bool) (scope : Nat) (rest : M Flow) : M Flow := if c then afterRelease scope 0 rest else rest

/-- How far a request of the AP to another node is: 0 not made, 1 made, 2 answered (R423). -/
def State.podStage (s : State) (node off : Nat) : Nat :=
  if s.share.replies.any fun r => r.core == s.core.id && r.agent == 6 && r.node == node && r.offset == off then 2
  else if s.share.pod.any fun r => r.core == s.core.id && r.agent == 6 && r.node == node && r.offset == off && r.kind != .read
  then 1 else 0

/-! ### Writing -/

/-- A store with REL: a release that also covers its sector, then the store at its home; the AP goes on when the store
is performed, at another node too (R319). -/
def storeRel (e : StoreEntry) (scope : Nat) : M Flow := do
  let sig := if e.space == .dev || e.space == .host then sigOf (sectorOf e.addr) else 0
  let s ← get
  match s.targetOf e.space e.addr with
  | .pod node off =>
    let done : M Flow := do
      modify fun s => s.modOrder fun o => o.accumulate (sectorOf e.addr)
      return .seq
    if s.podStage node off = 2 then done
    else if s.podStage node off = 1 then stayBlocked { cls := 0, kind := 9, obj := 0 }
    else afterRelease scope sig (do
      if (← get).share.pack.quarantined.contains node then done
      else
        modify fun s => s.podWrite 6 node off e.data
        stayBlocked { cls := 0, kind := 9, obj := 0 })
  | _ => afterRelease scope sig (do
      modify fun s => s.perform { e with pol := 2 }
      return .seq)

/-- A store to a checked place: into the store buffer, or with REL after a release and at its home (R311, R319). -/
def storeAt (e : StoreEntry) : M Flow := do
  let o := (← get).accessOpts
  if o.rel then storeRel e o.scope
  else
    modify fun s => s.modOrder fun q => { q with stores := q.stores ++ [e] }
    return .seq

/-- The low n bytes of a register. -/
def regBytes (d : BitVec 6) (n : Nat) : M (List Byte) := do
  return leBytes n (← rdA d).toNat

/-! ### Scratchpad forms -/

/-- A scratchpad load of n bytes at an offset that is then checked; `after` takes effect when the load completes. -/
def loadScratch (sp : Space) (size off place n cls : Nat) (d : BitVec 6) (after : M Unit) : M Flow := do
  checkScratch sp size off n 0
  needRequest sp cls
  awaitData (do
    let f ← loadReg sp ⟨place, false, false⟩ n d
    after
    return f)

/-- A scratchpad store. -/
def storeScratch (sp : Space) (size off place n cls : Nat) (d : BitVec 6) (after : M Unit) : M Flow := do
  checkScratch sp size off n 1
  holdPinned sp off n cls
  needRequest sp cls
  let bs ← regBytes d n
  let f ← storeAt ⟨sp, place, bs, 0, false, false⟩
  match f with
  | .stay => return f
  | _ =>
    after
    return f

/-! ### Device and host forms (R107) -/

/-- Steps 2 to 4 of R100 for a device or host access of 8 bytes. -/
def checkVirtual (sp : Space) (va : Word) (need : Need) : M Phys := do
  if field va 0 3 ≠ 0 then accTrap 0x10 0 need.kind va (sp == .host)
  else translate va { need with host := sp == .host }

def readNeed : Need := ⟨false, true, false, 0⟩
def writeNeed : Need := ⟨false, false, true, 1⟩
def atomicNeed : Need := ⟨false, true, true, 3⟩

def loadVirtual (sp : Space) (va : Word) (cls : Nat) (d : BitVec 6) : M Flow := do
  let p ← checkVirtual sp va readNeed
  needRequest sp cls
  awaitData (loadReg sp p 8 d va)

def storeVirtual (sp : Space) (va : Word) (cls : Nat) (d : BitVec 6) : M Flow := do
  let p ← checkVirtual sp va writeNeed
  needRequest sp cls
  let bs ← regBytes d 8
  let pol := (← get).accessOpts.policy
  storeAt ⟨sp, p.pa, bs, pol, p.view, p.uc⟩

/-- What fills a queue entry: the data, or the mark that poison gives it (R13, R110, R395). -/
def entryOf (bs : List Byte) (poison zp : Bool) : QEntry :=
  if poison then ⟨some 0, if zp then 1 else 2, none⟩ else ⟨some (leWord bs), 0, none⟩

/-- A queue-form load: one entry is allotted and awaits its data; with ACQ the load is performed at once and the acquire
follows (R21, R107, R319, R395). -/
def loadQueue (sp : Space) (va : Word) (cls q pol : Nat) (zp : Bool) : M Flow := do
  let p ← checkVirtual sp va readNeed
  needRequest sp cls
  let s ← get
  let o := s.accessOpts
  let old := s.strand.queues.q[q]?.getD []
  blockIf (old.length ≥ 64) { cls := cls, kind := 1, obj := q }
  let x ← if o.acq then do
      let r ← readAt 6 sp p 8 pol o.rc
      pure (entryOf r.1 r.2 zp)
    else pure ⟨none, 0, some ⟨sp, p.pa, pol, zp, o.rc, p.view, p.uc⟩⟩
  modify fun s => s.modQueues fun z => { z with q := z.q.setIfInBounds q (old ++ [x]) }
  acquireIf o.acq o.scope
  return .seq

end Sys2Proof.Machine
end

