-- ==== Sys2Proof/Machine/Loads.lean ====
section
/-!
DEFINITION. Loads and stores of the AP in the Chamber, the Gallery, the Grotto, device and host memory, literals, and
the arrival of data (R21, R77, R78, R103, R105 to R107, R382, R395).
-/
namespace Sys2Proof.Machine

/-- Bytes of a size code (R58). -/
def sizeOf (z : BitVec 2) : Nat := 2 ^ z.toNat

/-- An address of the scratchpad forms: base plus IMM5 times the size, modulo 2^64 (R103). -/
def immAddr (s : State) (b : BitVec 6) (z : BitVec 2) (i : BitVec 5) : Word :=
  s.aread b.toNat + BitVec.ofNat 64 (i.toNat * sizeOf z)

/-- Post-increment of the base by IMM5 times the size (R103). -/
def postInc (b : BitVec 6) (z : BitVec 2) (i : BitVec 5) : M Unit := do
  wrA b (immAddr (← get) b z i)

/-! ### The Chamber (R103) -/

/-- A Chamber load from an address. -/
def loadCham (z : BitVec 2) (w : BitVec 4) (d : BitVec 6) (x : Word) (after : M Unit) : M Flow := do
  let s ← get
  loadScratch .cham (spaceSize .cham) x.toNat (chamAt s.core.id x.toNat) (sizeOf z) w.toNat d after

/-- A Chamber store to an address. -/
def storeCham (z : BitVec 2) (w : BitVec 4) (d : BitVec 6) (x : Word) (after : M Unit) : M Flow := do
  let s ← get
  storeScratch .cham (spaceSize .cham) x.toNat (chamAt s.core.id x.toNat) (sizeOf z) w.toNat d after

def execLdc (d b : BitVec 6) (z : BitVec 2) (p : BitVec 1) (w : BitVec 4) (i : BitVec 5) (s : State) : Answer :=
  runAp (.ldc d b z p w i)
    (if p = 1#1 then loadCham z w d (s.aread b.toNat) (postInc b z i)
     else loadCham z w d (immAddr s b z i) (return ())) s

def execStc (d b : BitVec 6) (z : BitVec 2) (p : BitVec 1) (w : BitVec 4) (i : BitVec 5) (s : State) : Answer :=
  runAp (.stc d b z p w i)
    (if p = 1#1 then storeCham z w d (s.aread b.toNat) (postInc b z i)
     else storeCham z w d (immAddr s b z i) (return ())) s

/-- Address of the indexed form: base plus index shifted by log2 of the size. -/
def indexAddr (s : State) (b : BitVec 6) (z : BitVec 2) (x : BitVec 5) : Word :=
  s.aread b.toNat + (s.aread x.toNat <<< z.toNat)

def execLdcx (d b : BitVec 6) (z : BitVec 2) (w : BitVec 4) (x : BitVec 5) (s : State) : Answer :=
  runAp (.ldcx d b z w x) (loadCham z w d (indexAddr s b z x) (return ())) s

def execStcx (d b : BitVec 6) (z : BitVec 2) (w : BitVec 4) (x : BitVec 5) (s : State) : Answer :=
  runAp (.stcx d b z w x) (storeCham z w d (indexAddr s b z x) (return ())) s

/-! ### The Gallery (R105) -/

/-- Size as addressed, offset and place of a Gallery access: interleaved, or a core of the cluster with its offset. -/
def galPlace (s : State) (b : BitVec 6) (z : BitVec 2) (f : BitVec 1) (i : BitVec 5) : Nat × Nat × Nat :=
  if f = 1#1 then
    let a := (s.aread b.toNat).toNat
    (2 ^ 20, a, galAt (clusterOf s.core.id * 16 + i.toNat % 16) a)
  else
    let a := (immAddr s b z i).toNat
    (2 ^ 24, a, galInterleaved s.core.id a)

def execLdg (d b : BitVec 6) (z : BitVec 2) (f : BitVec 1) (w : BitVec 4) (i : BitVec 5) (s : State) : Answer :=
  let g := galPlace s b z f i
  runAp (.ldg d b z f w i) (loadScratch .gal g.1 g.2.1 g.2.2 (sizeOf z) w.toNat d (return ())) s

def execStg (d b : BitVec 6) (z : BitVec 2) (f : BitVec 1) (w : BitVec 4) (i : BitVec 5) (s : State) : Answer :=
  let g := galPlace s b z f i
  runAp (.stg d b z f w i) (storeScratch .gal g.1 g.2.1 g.2.2 (sizeOf z) w.toNat d (return ())) s

/-! ### The Grotto (R106) -/

def execLdo (d b : BitVec 6) (z : BitVec 2) (w : BitVec 4) (i : BitVec 5) (s : State) : Answer :=
  let a := (immAddr s b z i).toNat
  runAp (.ldo d b z w i)
    (loadScratch .grot (spaceSize .grot) a (grotAt (dieOf s.core.id) a) (sizeOf z) w.toNat d (return ())) s

def execSto (d b : BitVec 6) (z : BitVec 2) (w : BitVec 4) (i : BitVec 5) (s : State) : Answer :=
  let a := (immAddr s b z i).toNat
  runAp (.sto d b z w i)
    (storeScratch .grot (spaceSize .grot) a (grotAt (dieOf s.core.id) a) (sizeOf z) w.toNat d (return ())) s

/-! ### Device and host memory (R107) -/

def execLdd (d : BitVec 6) (h : BitVec 1) (x : BitVec 5) (l : BitVec 3) (w : BitVec 4) (i : BitVec 5) (s : State) :
    Answer :=
  runAp (.ldd d h x l w i) (loadVirtual .dev (s.devVa h x l i) w.toNat d) s

def execLddQ (q : BitVec 3) (p : BitVec 2) (z : BitVec 1) (h : BitVec 1) (x : BitVec 5) (l : BitVec 3) (w : BitVec 4)
    (i : BitVec 5) (s : State) : Answer :=
  runAp (.lddQ q p z h x l w i) (loadQueue .dev (s.devVa h x l i) w.toNat q.toNat p.toNat (z = 1#1)) s

def execStd (d : BitVec 6) (h : BitVec 1) (x : BitVec 5) (l : BitVec 3) (w : BitVec 4) (i : BitVec 5) (s : State) :
    Answer :=
  runAp (.std d h x l w i) (storeVirtual .dev (s.devVa h x l i) w.toNat d) s

def execLdh (d a : BitVec 6) (w : BitVec 4) (s : State) : Answer :=
  runAp (.ldh d a w) (loadVirtual .host (s.aread a.toNat) w.toNat d) s

def execLdhQ (q : BitVec 3) (p : BitVec 2) (z : BitVec 1) (a : BitVec 6) (w : BitVec 4) (s : State) : Answer :=
  runAp (.ldhQ q p z a w) (loadQueue .host (s.aread a.toNat) w.toNat q.toNat p.toNat (z = 1#1)) s

def execSth (d a : BitVec 6) (w : BitVec 4) (s : State) : Answer :=
  runAp (.sth d a w) (storeVirtual .host (s.aread a.toNat) w.toNat d) s

/-! ### Literals (R77, R78, R390, R401) -/

/-- Address of a literal. -/
def litAddr (pc : BitVec 56) (o : BitVec 18) : BitVec 56 := pc + (o.signExtend 56 <<< 2)

/-- Does the literal of an active `ldp` break its address rule, and is it outside the image? -/
def litBad (a : BitVec 56) : Bool := field a 0 3 != 0
def State.litOut (s : State) (a : BitVec 56) : Bool := (s.strand.image.read a.toNat 8).isNone

/-- The literal of the image as launched. -/
def State.literal (s : State) (a : BitVec 56) : Word := leWord ((s.strand.image.read a.toNat 8).getD [])

/-- Bytes within one sector that the shadow reads, by translation with R = 1 (R390). -/
def shadowPart (kind : Nat) (a : BitVec 56) (n : Nat) : M (List Byte × Bool) := do
  let p ← translate (a.setWidth 64) { readNeed with kind := kind }
  let s ← get
  let got (g : Got) : M (List Byte × Bool) := match g with
    | .data bs x t => do
      set t
      return (bs, x)
    | .ask r => stop (.ask r)
  match s.targetOf .dev p.pa with
  | .window w off => got (s.windowRead w off n)
  | .pod node off => got (s.podRead 6 node off n)
  | _ =>
    set (s.touchL2 .dev p.view p.pa)
    return s.homeBytes .dev p.view p.pa n

/-- Single bytes that the shadow reads, one after another. -/
def shadowBytes (kind : Nat) (a : BitVec 56) : Nat → M (List Byte × Bool)
  | 0 => return ([], false)
  | n + 1 => do
    let x ← shadowPart kind a 1
    let t ← shadowBytes kind (a + 1) n
    return (x.1 ++ t.1, x.2 || t.2)

/-- A word that the shadow reads, at any address (R390). -/
def shadowWord (kind : Nat) (a : BitVec 56) : M (List Byte × Bool) :=
  if field a 0 2 = 0 then shadowPart kind a 4 else shadowBytes kind a 4

/-- A literal of the shadow. -/
def shadowLit (d : BitVec 6) (a : BitVec 56) : M Flow := do
  let lo ← shadowWord 0 a
  let hi ← shadowWord 0 (a + 4)
  if lo.2 || hi.2 then accTrap 0x16 0 0 (a.setWidth 64) else wrA d (leWord (lo.1 ++ hi.1))
  return .seq

/-- A literal of the active AP: of the image as launched, where its leaf has R (R78, R401). -/
def ldpAp (d : BitVec 6) (a : BitVec 56) (w : Nat) : M Flow := do
  let s ← get
  if s.inShadow then shadowLit d a
  else if litBad a then trapP 1 w
  else if s.litOut a then trapP 4 0
  else
    let _ ← translate (a.setWidth 64) readNeed
    if s.strand.image.badAt a 8 then accTrap 0x16 0 0 (a.setWidth 64)
    wrA d (s.literal a)
    return .seq

/-- A literal of the EP, which the AP has checked. -/
def ldpEp (d : BitVec 6) (a : BitVec 56) : M Flow := do
  let s ← get
  if s.strand.image.badAt a 8 then raise { mkTrap .e 0x16 0 with src := 1, va := a.setWidth 64, priv := s.strand.info.priv }
  set (s.ewrite d.toNat (s.literal a))
  return .seq

def execLdp (e : BitVec 1) (d : BitVec 6) (o : BitVec 18) (s : State) : Answer :=
  let i := Instr.ldp e d o
  if e = 1#1 then runEp i (ldpEp d (litAddr s.wordPcEp o)) s
  else runAp i (ldpAp d (litAddr s.wordPc o) (illegalArg i)) s

/-! ### Arrival of data (R21, R382) -/

/-- The entries of a queue that await data, with their places. -/
def awaiting (q : List QEntry) : List Nat := (q.zipIdx.filter fun x => x.1.data.isNone).map (·.2)

/-- The n-th entry awaiting data of queue k fills: the event's numbers are k and n. -/
def fillQueue (s : State) (k n : Nat) : State :=
  let q := s.strand.queues.q[k]?.getD []
  match (awaiting q)[n]? with
  | none => s
  | some ix =>
    match (q[ix]?).bind (·.req) with
    | none => s
    | some r =>
      match readAt 8 r.space ⟨r.addr, r.view, r.uc⟩ 8 r.pol r.rc s with
      | .ok (x, t) =>
        (t.podDone 8).modQueues fun z => { z with q := z.q.setIfInBounds k (q.set ix (entryOf x.1 x.2 r.zp)) }
      | .error (.ask p) => s.podAsk p
      | .error _ => s

/-- A load of an ended strand that is still in flight: its read takes place, and its data is dropped (R19). -/
def State.completeLoad (s : State) (r : LoadReq) : State :=
  match readAt 11 r.space ⟨r.addr, r.view, r.uc⟩ 8 r.pol r.rc s with
  | .ok (_, t) => t
  | .error (.ask p) => s.podAsk p
  | .error _ => s

/-- Every load that is still in flight into a queue. -/
def State.completeLoads (s : State) : State :=
  (s.strand.queues.q.toList.flatMap fun q => q.filterMap fun e => if e.data.isNone then e.req else none).foldl State.completeLoad s

/-- The first queue with an entry awaiting data. -/
def State.waitingQueue (s : State) : Nat :=
  ((List.range 8).find? fun k => !(awaiting (s.strand.queues.q[k]?.getD [])).isEmpty).getD 0

/-- A load into a queue gets its data: input a is 0 for the first waiting entry, or k + 1 for queue k; b counts the
waiting entries before it. -/
def execQueueEntryFill (s : State) : Answer :=
  .next (fillQueue s (if s.input.a = 0 then s.waitingQueue else s.input.a - 1) s.input.b)

/-- The data of the AP's issued load has come; the load completes at the AP's next turn. -/
def execLoadDataReturn (s : State) : Answer :=
  .next (if s.ap.issued then s.modAp fun a => { a with issued := false, arrived := true } else s)

end Sys2Proof.Machine
end

