-- ==== Sys2Proof/Machine/Atomics.lean ====
section
/-!
DEFINITION. Atomics and waiting on an address (R112, R114, R115, R319).
-/
namespace Sys2Proof.Machine

/-! ### Atomics (R112) -/

/-- The space of an `amo` by its field. -/
def amoSpace (z : BitVec 2) : Space :=
  match z.toNat with
  | 0 => .gal
  | 1 => .grot
  | 2 => .dev
  | _ => .host

/-- The operations of R112 with their codes: the new value from the old one, b and the expected value. -/
def amoNew (op : Nat) (old b exp : Word) : Word :=
  match op with
  | 0 => old + b
  | 1 => old &&& b
  | 2 => old ||| b
  | 3 => old ^^^ b
  | 4 => if old.slt b then b else old
  | 5 => if old.slt b then old else b
  | 6 => if old.ult b then b else old
  | 7 => if old.ult b then old else b
  | 8 => b
  | _ => if old = exp then b else old

/-- Does the operation write: every one but a failed `cas`? -/
def amoWrites (op : Nat) (old exp : Word) : Bool := op != 9 || old == exp

/-- Steps 2 to 4 of R100 for an atomic: the place of its 8 bytes. -/
def amoPlace (sp : Space) (addr : Word) : M Phys := do
  let s ← get
  match sp with
  | .dev | .host => checkVirtual sp addr atomicNeed
  | _ =>
    checkScratch sp (spaceSize sp) addr.toNat 8 3
    return ⟨placeOf sp s.core.id addr.toNat, false, false⟩

/-- A write of an atomic performed at its home (R112, R311, R324). -/
def State.amoWrite (s : State) (sp : Space) (p : Phys) (bs : List Byte) : State :=
  match sp with
  | .dev | .host =>
    let t := (s.homeWrite sp p.view p.pa bs).modOrder fun o => o.accumulate (sectorOf p.pa)
    if p.uc then t.modPack fun k => k.post 3 (dieOf s.core.id) (sigOf (sectorOf p.pa)) else t
  | _ => s.performScratch sp p.pa bs

/-- The core's own L1 sector of an atomic's word written back and dropped (R319). -/
def State.dropOwn (s : State) (sp : Space) (pa : Nat) : State :=
  s.dropL1 fun x => x.space == sp && x.addr == sectorOf pa

/-- The read-modify-write at the home, after the strand's older stores to the word. -/
def amoHome (op : Nat) (sp : Space) (p : Phys) (d : BitVec 6) (b exp : Word) (va : Word := 0) : M Flow := do
  modify fun s => s.drainFor sp p.pa 8
  if (← get).storesAhead sp p.pa 8 then stayBlocked { cls := 0, kind := 9, obj := 0 }
  else
    modify fun s => s.dropOwn sp p.pa
    let s ← get
    let r := s.homeBytes sp p.view p.pa 8
    let s := s.touchL2 sp p.view p.pa
    set s
    if r.2 then accTrap 0x16 0 3 va (sp == .host)
    let old := leWord r.1
    set (if amoWrites op old exp then s.amoWrite sp p (leBytes 8 (amoNew op old b exp).toNat) else s)
    wrA d old
    return .seq

/-- Device physical address of an offset of a node's window (R423). -/
def podAt (node off : Nat) : Nat := 2 ^ 49 + node * 2 ^ 32 + off

/-- An atomic at another node: a request with b and the expected value, and the old value in its reply (R423); the value
of a quarantined node is free (assumption 13). -/
def amoPod (op node off : Nat) (d : BitVec 6) (b exp : Word) (va : Word := 0) : M Flow := do
  let s ← get
  match s.share.replies.find? fun r => r.core == s.core.id && r.agent == 6 && r.node == node && r.offset == off with
  | some r =>
    if r.poison then accTrap 0x16 0 3 va
    wrA d (leWord (r.data.take 8))
    return .seq
  | none =>
    if s.share.pack.quarantined.contains node then
      set { s with fresh := s.fresh + 1 }
      wrA d (Config.freeWord s.fresh)
      return .seq
    else if s.storesAhead .dev (podAt node off) 8 then
      set (s.drainFor .dev (podAt node off) 8)
      stayBlocked { cls := 0, kind := 9, obj := 0 }
    else
      set (s.podAsk ⟨s.core.id, 6, node, off, .atomic op, leBytes 8 b.toNat ++ leBytes 8 exp.toNat, s.hub.hubClk, false, false, false, 0⟩)
      stayBlocked { cls := 0, kind := 9, obj := 0 }

/-- The end of an `amo`: ACQ. -/
def amoEnd (f : Flow) : M Flow := do
  match f with
  | .stay => return f
  | _ =>
    let o := (← get).accessOpts
    acquireIf o.acq o.scope
    return f

/-- An atomic. -/
def amo (op : Nat) (z : BitVec 2) (d a b : BitVec 6) : M Flow := do
  let sp := amoSpace z
  let addr ← rdA a
  let x ← rdA b
  let exp ← rdA d
  let va := if sp == .dev || sp == .host then addr else 0
  if field addr 0 3 ≠ 0 then accTrap 0x10 0 3 va (sp == .host)
  let p ← amoPlace sp addr
  needRequest sp 0
  awaitData (do
    let s ← get
    let o := s.accessOpts
    match s.targetOf sp p.pa with
    | .pod node off =>
      let f ← releaseIf (o.rel && s.podStage node off = 0) o.scope (amoPod op node off d x exp va)
      amoEnd f
    | _ =>
      let f ← releaseIf o.rel o.scope (amoHome op sp p d x exp va)
      amoEnd f)

def execAmoAdd (d a b : BitVec 6) (z : BitVec 2) (s : State) : Answer := runAp (.amoAdd d a b z) (amo 0 z d a b) s
def execAmoAnd (d a b : BitVec 6) (z : BitVec 2) (s : State) : Answer := runAp (.amoAnd d a b z) (amo 1 z d a b) s
def execAmoOr (d a b : BitVec 6) (z : BitVec 2) (s : State) : Answer := runAp (.amoOr d a b z) (amo 2 z d a b) s
def execAmoXor (d a b : BitVec 6) (z : BitVec 2) (s : State) : Answer := runAp (.amoXor d a b z) (amo 3 z d a b) s
def execAmoSmax (d a b : BitVec 6) (z : BitVec 2) (s : State) : Answer := runAp (.amoSmax d a b z) (amo 4 z d a b) s
def execAmoSmin (d a b : BitVec 6) (z : BitVec 2) (s : State) : Answer := runAp (.amoSmin d a b z) (amo 5 z d a b) s
def execAmoUmax (d a b : BitVec 6) (z : BitVec 2) (s : State) : Answer := runAp (.amoUmax d a b z) (amo 6 z d a b) s
def execAmoUmin (d a b : BitVec 6) (z : BitVec 2) (s : State) : Answer := runAp (.amoUmin d a b z) (amo 7 z d a b) s
def execAmoSwap (d a b : BitVec 6) (z : BitVec 2) (s : State) : Answer := runAp (.amoSwap d a b z) (amo 8 z d a b) s
def execAmoCas (d a b : BitVec 6) (z : BitVec 2) (s : State) : Answer := runAp (.amoCas d a b z) (amo 9 z d a b) s

/-! ### Waiting on an address (R114, R115) -/

/-- The space of a `waita`. -/
def waitSpace (m : BitVec 3) : Space :=
  match m.toNat with
  | 0 => .cham
  | 1 => .gal
  | 2 => .grot
  | 3 => .dev
  | _ => .host

/-- The monitor and the block of the context that runs. -/
def State.monitor (s : State) : Option Monitor := if s.inShadow then s.strand.shadow.monitor else s.ap.monitor
def State.setMonitor (s : State) (m : Option Monitor) (b : Option Block) : State :=
  if s.inShadow then s.modStrand fun t => { t with shadow := { t.shadow with monitor := m, block := b } }
  else s.modAp fun a => { a with monitor := m, block := b }
def State.apBlock (s : State) : Option Block := if s.inShadow then s.strand.shadow.block else s.ap.block

/-- The word that a `waita` watches: scratchpads at the home bank, device and host as a load reads them (R313). -/
def waitRead (sp : Space) (p : Phys) : M (List Byte × Bool) := do
  let s ← get
  match sp with
  | .dev | .host => readAt 6 sp p 8 0 0
  | _ =>
    let r := s.homeBytes sp false p.pa 8
    return (forward s.core.order.stores sp false p.pa r.1, r.2)

/-- The trackers of one bank: those of the owning core's bank of the Gallery, and those of a die's Grotto (R112, R115,
assumption 58). -/
def bankNo (sp : Space) (sector : Nat) : Nat := if sp == .gal then sector / 2 ^ 20 else sector / 2 ^ 26

/-- Is the monitor held by a tracker of the bank? -/
def Monitor.tracked (m : Monitor) (sp : Space) (bank : Nat) : Bool :=
  (sp == .gal || sp == .grot) && m.space == sp && bankNo sp m.sector == bank && m.wake.isNone

/-- Armed monitors of every core. -/
def State.armed (s : State) : List Monitor := s.cores.flatMap fun c => c.strand.ap.monitor.toList ++ c.strand.shadow.monitor.toList

/-- A monitor armed: where the 16 trackers of its bank are taken, the oldest of them is lost with reason 2 (R115). -/
def State.arm (s : State) (sp : Space) (sector : Nat) (b : Block) : State :=
  let ms := s.armed
  let since := ms.foldl (fun k m => max k (m.since + 1)) 0
  let held := (ms.filter fun m => m.tracked sp (bankNo sp sector)).map (·.since)
  let lost (m : Monitor) : Monitor :=
    if m.tracked sp (bankNo sp sector) && held.all (m.since ≤ ·) then m.woken 2 else m
  let t := if held.length < 16 then s else s.mapCores fun c => { c with
    strand := { c.strand with
      ap := { c.strand.ap with monitor := c.strand.ap.monitor.map lost },
      shadow := { c.strand.shadow with monitor := c.strand.shadow.monitor.map lost } } }
  t.setMonitor (some ⟨sp, sector, none, since⟩) (some b)

/-- A `waita` completes with a reason: the copies of the watched sector are dropped, and ACQ takes effect. -/
def waitDone (sp : Space) (sector : Nat) (d : BitVec 6) (reason : Nat) : M Flow := do
  modify fun s => (s.modOrder fun o =>
    { o with scratch := o.scratch.filter fun c => !(c.space == sp && c.addr == sector) }).setMonitor none none
  wrA d (BitVec.ofNat 64 reason)
  let o := (← get).accessOpts
  acquireIf o.acq o.scope
  return .seq

/-- The first part of a `waita`: checks, the read, and arming the monitor. -/
def waitArm (sp : Space) (d : BitVec 6) (addr : Word) (w : Nat) : M Flow := do
  let va := if sp == .dev || sp == .host then addr else 0
  if field addr 0 3 ≠ 0 then accTrap 0x10 0 0 va (sp == .host)
  let s ← get
  let p ← match sp with
    | .dev | .host => checkVirtual sp addr readNeed
    | _ => do
      checkScratch sp (spaceSize sp) addr.toNat 8 0
      pure (⟨placeOf sp s.core.id addr.toNat, false, false⟩ : Phys)
  let r ← waitRead sp p
  if r.2 then accTrap 0x16 0 0 va (sp == .host)
  let exp ← rdA d
  if leWord r.1 ≠ exp then waitDone sp (sectorOf p.pa) d 0
  else
    let b := nextBlock s.regs none { cls := w, kind := 9, obj := 0 }
    if b.expired then waitDone sp (sectorOf p.pa) d 4
    else
      modify fun t => t.arm sp (sectorOf p.pa) b
      return .stay

def execWaita (d a : BitVec 6) (m : BitVec 3) (w : BitVec 4) (s : State) : Answer :=
  runAp (.waita d a m w) (match s.monitor with
    | none => waitArm (waitSpace m) d (s.aread a.toNat) w.toNat
    | some x => match x.wake with
      | some r => waitDone x.space x.sector d r
      | none =>
        if (s.apBlock.map Block.expired).getD false then waitDone x.space x.sector d 4 else return .stay) s

/-- A monitor is woken: input a is the reason, 2 for a device or host monitor whose line was evicted and otherwise 5,
spurious (R115).  A Gallery or Grotto monitor is lost where its bank's trackers overflow, and a Chamber monitor never. -/
def execWaitaWake (s : State) : Answer :=
  let r := if s.input.a = 2 then 2 else 5
  let wake (m : Monitor) : Monitor := if r = 2 && !(m.space == .dev || m.space == .host) then m else m.woken r
  .next (s.setMonitor (s.monitor.map wake) s.apBlock)

/-- The wait-class bound of a `waita` passes: reason 4 (R114). -/
def execWaitaBoundWake (s : State) : Answer :=
  .next (if (s.apBlock.map Block.expired).getD false then s.setMonitor (s.monitor.map (Monitor.woken 4)) s.apBlock else s)

end Sys2Proof.Machine
end

