-- ==== Sys2Proof/Machine/Fences.lean ====
section
/-!
DEFINITION. Fences and cache maintenance, and the transitions of the order machine that no instruction makes
(R113, R311, R313, R314, R317 to R319, R322).
-/
namespace Sys2Proof.Machine

/-- The place in the store buffer past the last store through an uncached page. -/
def lastUncached (es : List StoreEntry) : Nat := es.zipIdx.foldl (fun k e => if e.1.uc then e.2 + 1 else k) 0

/-- At DIE or wider the strand's uncached stores are performed first, so that their posts are among those that the acquire
reads (R324, R325). -/
def execFacq (c : BitVec 3) (s : State) : Answer :=
  runAp (.facq c) (do
    if 3 ≤ c.toNat then modify fun s => State.drain (lastUncached s.core.order.stores) s
    if 3 ≤ c.toNat && lastUncached (← get).core.order.stores ≠ 0 then stayBlocked { cls := 0, kind := 9, obj := 0 }
    else
      modify fun s => s.acquire c.toNat
      return .seq) s

def execFrel (c : BitVec 3) (s : State) : Answer :=
  runAp (.frel c) (afterRelease c.toNat 0 (return .seq)) s

def execFacqrel (c : BitVec 3) (s : State) : Answer :=
  runAp (.facqrel c) (afterRelease c.toNat 0 (do
    modify fun s => s.acquire c.toNat
    return .seq)) s

/-! ### Ranges (R113) -/

/-- First byte and number of whole sectors of a range of device addresses. -/
def rangeSectors (a len : Nat) : Nat × Nat :=
  if len = 0 then (sectorOf a, 0) else (sectorOf a, (a + len - 1) / 32 - a / 32 + 1)

/-- The smallest page size is 64 KiB: the pages of that size that a range meets. -/
def pagesOf (a len : Nat) : List Nat :=
  if len = 0 then [] else (List.range ((a + len - 1) / 65536 - a / 65536 + 1)).map fun i => a / 65536 * 65536 + 65536 * i

/-- The part of a range that lies in a page: first address and length. -/
def clipTo (a len page : Nat) : Nat × Nat :=
  let lo := max a page
  let hi := min (a + len) (page + 65536)
  (lo, hi - lo)

/-- `dcfence` on one sector: the view written later is copied into the other, a write at the home (R319, R322). -/
def State.joinViews (s0 : State) (pa : Nat) : State :=
  let s := (s0.hostGivesUp .dev pa 32).giveUp s0.cores .dev pa 32
  let later := s.mem.later.contains (pa / 32)
  let src := s.homeBytes .dev later pa 32
  let t := { s with mem := s.mem.setBank .dev (!later) ((s.mem.bank .dev (!later)).write 32 pa src.1) }
  ((t.setPoison .dev (!later) (pa / 32) src.2).clearL2 .dev (!later) pa 32).mapCores fun c => c.wake .dev pa 32

/-- What a `cinv` or a `dcfence` does to the physical sectors of one page's part of its range. -/
def State.cinvPart (s : State) (pa n : Nat) : State :=
  s.dropL1 fun x => x.space == .dev && pa ≤ x.addr && x.addr < pa + n

def State.dcfencePart (s : State) (pa n : Nat) : State :=
  let t := s.dropL1 fun x => x.space == .dev && pa ≤ x.addr && x.addr < pa + n
  (List.range (n / 32)).foldl (fun (u : State) i =>
    (u.joinViews (pa + 32 * i)).modOrder fun o => o.accumulate (pa + 32 * i)) t

/-- Page by page in address order; a fault keeps the pages before it. -/
def walkPages (need : Need) (part : State → Nat → Nat → State) (a len : Nat) : List Nat → M Unit
  | [] => return ()
  | g :: gs => do
    let s ← get
    let c := clipTo a len g
    match s.translate (BitVec.ofNat 64 c.1) need s.privileged with
    | .error t => stop (.trap (some (s.missed (BitVec.ofNat 64 c.1) need.host)) t)
    | .ok (p, t) =>
      set (part t p.pa c.2)
      walkPages need part a len gs

/-- A range instruction: length check, widening to sectors, pages in order (R113).  The strand's older stores are
performed first, so that its own bytes are among those maintained. -/
def rangeOp (need : Need) (part : State → Nat → Nat → State) (a b : BitVec 6) : M Flow := do
  let x ← rdA a
  let n ← rdA b
  if field n 30 34 ≠ 0 then accTrap 0x11 0 0
  else
    let r := rangeSectors x.toNat n.toNat
    if r.2 = 0 then return .seq
    else
      modify State.drainAll
      if !(← get).core.order.stores.isEmpty then stayBlocked { cls := 0, kind := 9, obj := 0 }
      else
        walkPages need part r.1 (32 * r.2) (pagesOf r.1 (32 * r.2))
        return .seq

def execCinv (a b : BitVec 6) (s : State) : Answer :=
  runAp (.cinv a b) (rangeOp readNeed State.cinvPart a b) s

def execDcfence (a b : BitVec 6) (s : State) : Answer :=
  runAp (.dcfence a b) (rangeOp ⟨false, true, true, 1⟩ State.dcfencePart a b) s

/-! ### Transitions of the order machine -/

/-- The oldest store is performed (R311): input a is 0 for the strand, and then for the first engine with a write that is not
performed where the strand has none, or n + 1 for engine n (R321). -/
def execStorePerform (s : State) : Answer :=
  if s.input.a ≠ 0 then .next (s.performEngineOldest (s.input.a - 1))
  else if !s.core.order.stores.isEmpty then .next s.performOldest
  else .next (match (List.range 6).find? fun n => !(s.engine n).writes.isEmpty with
    | some n => s.performEngineOldest n
    | none => s)

/-- A sector's dirty bytes are written back: input a is its place in the L1 (R314). -/
def execL1Writeback (s : State) : Answer :=
  .next (match s.core.order.l1[s.input.a]? with
    | some x => s.writeBack x
    | none => s)

/-- A sector without a dirty byte is dropped: input a is its place in the L1 (R314). -/
def execL1Drop (s : State) : Answer :=
  .next (match s.core.order.l1[s.input.a]? with
    | some x => if x.dirty = 0 then s.dropL1 (· == x) else s
    | none => s)

/-- A copy leaves the scratch read buffer: input a is its place (R313).  With b = n + 1 it leaves the operand buffer of engine
n, which a read need not be served from (R321). -/
def execScratchCopyDrop (s : State) : Answer :=
  .next (if s.input.b = 0 then s.modOrder fun o => { o with scratch := o.scratch.eraseIdx s.input.a }
    else s.modEngine (s.input.b - 1) fun e => { e with operands := e.operands.eraseIdx s.input.a })

end Sys2Proof.Machine
end

