-- ==== Sys2Proof/Machine/Descriptors.lean ====
section
/-!
DEFINITION. Stream descriptors and the instructions that make versions of them (R11, R25, R116, R117, R120).
-/
namespace Sys2Proof.Machine

/-! ### Fields of a descriptor (R116) -/

namespace Version

def base (v : Version) : Nat := v.w0.toNat
def count (v : Version) : Nat := field v.w1 48 16
def pos (v : Version) : Nat := field v.w1 32 16
def stride1 (v : Version) : Int := (bits v.w1 0 32).toInt
def stride2 (v : Version) : Int := (bits v.w2 40 24).toInt
def extent (v : Version) : Nat := field v.w2 24 16
def space (v : Version) : Nat := field v.w2 20 4
def fmt (v : Version) : Nat := field v.w2 14 6
def blk (v : Version) : Nat := field v.w2 12 2
def pln (v : Version) : Nat := field v.w2 9 3
def trl (v : Version) : Bool := bit v.w2 8
def had (v : Version) : Nat := field v.w2 6 2
def spar (v : Version) : Nat := field v.w2 4 2
def ppol (v : Version) : Nat := field v.w2 2 2
def pol (v : Version) : Nat := field v.w2 0 2
def scoff (v : Version) : Int := (bits v.w3 12 20).toInt
def scstr (v : Version) : Nat := field v.w3 0 12

/-- Is the space a queue, and which (R116)? -/
def isQueue (v : Version) : Bool := 8 ≤ v.space
def queue (v : Version) : Nat := v.space - 8

/-- The memory space of a descriptor that names one. -/
def memSpace (v : Version) : Space :=
  match v.space with
  | 0 => .cham
  | 1 => .gal
  | 2 => .grot
  | 3 => .dev
  | _ => .host

/-- Element bits and row length E (R117, R123). -/
def elemBits (v : Version) : Nat := fmtBits v.fmt
def rowLen (v : Version) : Nat := if v.extent = 0 || v.isQueue then v.count else v.extent

def setPos (v : Version) (p : Nat) : Version := { v with w1 := setField v.w1 32 16 p }

end Version

namespace Stream

/-- The version that the EP uses: the first; and the AP's current one: the last (R11). -/
def epVersion (x : Stream) : Version := x.versions.headD Version.zero
def apVersion (x : Stream) : Version := x.versions.getLastD Version.zero

/-- Word 3 as it reads: POIS above the version's own fields. -/
def word3 (x : Stream) (v : Version) : Word := setField v.w3 32 32 x.pois.toNat

/-- POS of the EP's version set. -/
def setPos (x : Stream) (p : Nat) : Stream :=
  match x.versions with
  | v :: r => { x with versions := v.setPos p :: r }
  | [] => x

/-- Poisoned elements counted (R116). -/
def addPois (x : Stream) (n : Nat) : Stream := { x with pois := BitVec.ofNat 32 (min (x.pois.toNat + n) (2 ^ 32 - 1)) }

end Stream

def Strand.stream (t : Strand) (k : Nat) : Stream := t.streams[k]?.getD ⟨[Version.zero], 0⟩
def State.stream (s : State) (k : Nat) : Stream := s.strand.stream k
def State.modStream (s : State) (k : Nat) (f : Stream → Stream) : State :=
  s.modStrand fun t => { t with streams := t.streams.setIfInBounds k (f (t.stream k)) }

/-! ### Making a version (R11, R25) -/

/-- A new version made from the AP's current one; it starts at its base, whatever the EP has done in the old one, and under
`rep` the repetitions replace the version of the first.  The ninth blocks under the class. -/
def newVersion (k cls : Nat) (clears : Bool) (f : Version → Version) : M Unit := do
  let s ← get
  let x := s.stream k
  let v := { (f x.apVersion).setPos 0 with seq := s.ap.seq, clears := clears }
  if s.ap.repWrote then
    set (s.modStream k fun x => { x with versions := x.versions.dropLast ++ [v] })
  else
    blockIf (x.versions.length ≥ 9) { cls := cls, kind := 8, obj := k }
    set ((s.modStream k fun x => { x with versions := x.versions ++ [v] }).modAp fun a =>
      { a with repWrote := a.bind == .rep })

/-! ### The instructions (R120) -/

def execSbaseD (k : BitVec 4) (h : BitVec 1) (x : BitVec 5) (l : BitVec 3) (i : BitVec 5) (s : State) : Answer :=
  runAp (.sbaseD k h x l i) (do
    newVersion k.toNat 0 false fun v => { v with w0 := s.devVa h x l i }
    return .seq) s

def execSbase (k : BitVec 4) (a : BitVec 6) (i : BitVec 12) (s : State) : Answer :=
  runAp (.sbase k a i) (do
    newVersion k.toNat 0 false fun v => { v with w0 := s.aread a.toNat + imm12 i }
    return .seq) s

/-- Word k replaced; POS in word 1 and POIS in word 3 keep their values. -/
def Version.setWord (v : Version) (k : Nat) (w : Word) : Version :=
  match k with
  | 0 => { v with w0 := w }
  | 1 => { v with w1 := setField w 32 16 v.pos }
  | 2 => { v with w2 := w }
  | _ => { v with w3 := setField w 32 32 0 }

def execSset (k : BitVec 4) (a : BitVec 6) (n : BitVec 2) (s : State) : Answer :=
  runAp (.sset k a n) (do
    newVersion k.toNat 0 false fun v => v.setWord n.toNat (s.aread a.toNat)
    return .seq) s

/-- Word k of a version as it reads. -/
def Stream.word (x : Stream) (v : Version) (k : Nat) : Word :=
  match k with
  | 0 => v.w0
  | 1 => v.w1
  | 2 => v.w2
  | _ => x.word3 v

def execSget (d : BitVec 6) (k : BitVec 4) (n : BitVec 2) (s : State) : Answer :=
  runAp (.sget d k n) (do
    let x := (← get).stream k.toNat
    wrA d (x.word x.apVersion n.toNat)
    return .seq) s

/-- The Chamber offset of `sld` and `sst`: a + 32 times IMM5. -/
def descAddr (s : State) (a : BitVec 6) (i : BitVec 5) : Nat :=
  (s.aread a.toNat + BitVec.ofNat 64 (32 * i.toNat)).toNat

/-- A version from 32 bytes of memory with POS 0; POIS is no part of it (R116). -/
def Version.ofBytes (bs : List Byte) : Version :=
  { w0 := leWord (bs.take 8), w1 := setField (leWord ((bs.drop 8).take 8)) 32 16 0,
    w2 := leWord ((bs.drop 16).take 8), w3 := setField (leWord ((bs.drop 24).take 8)) 32 32 0, seq := 0, clears := false }

/-- The 32 bytes of a version, POS written as 0. -/
def Stream.bytes (x : Stream) (v : Version) : List Byte :=
  leBytes 8 v.w0.toNat ++ leBytes 8 (v.setPos 0).w1.toNat ++ leBytes 8 v.w2.toNat ++ leBytes 8 (x.word3 v).toNat

/-- A poisoned source sector raises the poisoned-data cause, as a register load does (assumption 59).  A ninth version waits under W, as R120
says of `sld`, where R11 names class 0 (assumption 78). -/
def execSld (k : BitVec 4) (a : BitVec 6) (w : BitVec 4) (i : BitVec 5) (s : State) : Answer :=
  let off := descAddr s a i
  runAp (.sld k a w i) (do
    checkScratch .cham (spaceSize .cham) off 32 0
    awaitData (do
      let r ← readAt 6 .cham ⟨chamAt s.core.id off, false, false⟩ 32 0 0
      if r.2 then accTrap 0x16 0 0
      newVersion k.toNat w.toNat true fun _ => Version.ofBytes r.1
      return .seq)) s

def execSst (k : BitVec 4) (a : BitVec 6) (w : BitVec 4) (i : BitVec 5) (s : State) : Answer :=
  let off := descAddr s a i
  runAp (.sst k a w i) (do
    checkScratch .cham (spaceSize .cham) off 32 1
    holdPinned .cham off 32 w.toNat
    let x := (← get).stream k.toNat
    storeAt ⟨.cham, chamAt s.core.id off, x.bytes x.apVersion, 0, false, false⟩) s

end Sys2Proof.Machine
end

