-- ==== Sys2Proof/Machine/Streams.lean ====
section
/-!
DEFINITION. Streams: the checks of a descriptor, where elements and their metadata lie, reading and writing elements on
the EP (R13, R23, R117 to R119, R121, R124, R129, R135 to R137, R139, R141, R148, R151, R410, R411).
-/
namespace Sys2Proof.Machine

/-! ### The checks of R118 and R124 -/

namespace Version

/-- Formats whose rows are packed: 4 and 6 bits, and strata (R117). -/
def packed (v : Version) : Bool := v.fmt == 13 || v.elemBits < 8

/-- Bytes of an element of a format that is not packed. -/
def elemBytes (v : Version) : Nat := v.elemBits / 8

/-- Block size, Hadamard group size (R116). -/
def blkSize (v : Version) : Nat := match v.blk with | 1 => 16 | 2 => 32 | _ => 1
def hadSize (v : Version) : Nat := match v.had with | 1 => 16 | 2 => 32 | _ => 1

/-- Is the BLK value allowed for the format (R123)? -/
def blkOk (v : Version) : Bool :=
  if v.fmt = 13 then v.blk == 2 else if 3 ≤ v.fmt ∧ v.fmt ≤ 7 then v.blk != 3 else v.blk == 0

/-- Does a descriptor fail R118 or R124 as a source or a destination? -/
def bad (v : Version) (dest : Bool) : Bool :=
  v.count == 0 || (5 ≤ v.space && v.space ≤ 7) || 14 ≤ v.fmt ||
  v.had == 3 || v.spar == 3 || v.ppol == 3 || v.pol == 3 || (v.pol == 1 && v.space == 4) ||
  (v.pln != 0 && v.fmt != 13) || !v.blkOk ||
  (8 ≤ v.fmt && v.fmt ≤ 12 && v.had != 0) ||
  (v.spar != 0 && v.blk == 1) || (v.trl && v.fmt == 13 && v.pln < 7) ||
  (if v.isQueue then dest || v.packed || v.blk != 0 || v.spar != 0 || v.had != 0 || v.trl
   else
     v.base % 32 != 0 || (v.packed && (v.stride1 != 0 || v.stride2 % 32 != 0)) ||
     (!v.packed && (v.stride1 % v.elemBytes != 0 || v.stride2 % v.elemBytes != 0)) ||
     v.rowLen % v.blkSize != 0 || v.rowLen % v.hadSize != 0 || (v.spar != 0 && v.rowLen % 32 != 0) ||
     (dest && v.spar != 0))

/-! ### Where things lie (R117, R135, R137, R139, R141) -/

/-- Rows of a stream. -/
def rows (v : Version) : Nat := ceilDiv v.count v.rowLen

/-- An address modulo 2^64. -/
def addr (_ : Version) (x : Int) : Nat := wrapNat 64 x

/-- First byte of row q. -/
def rowBase (v : Version) (q : Nat) : Int := v.base + q * v.stride2

/-- Planes that a strata stream reads. -/
def planes (v : Version) : Nat := v.pln + 1

/-- The pieces, as address and length, of the element stored at column c of row q. -/
def pieces (v : Version) (q c : Nat) : List (Nat × Nat) :=
  let r := v.rowBase q
  if v.fmt = 13 then
    (List.range v.planes).map fun j => (v.addr (r + (c / 256 * 256 + 32 * j + c % 256 / 8 : Nat)), 1)
  else if v.packed then
    let b := v.elemBits * c
    (List.range ((b + v.elemBits - 1) / 8 - b / 8 + 1)).map fun k => (v.addr (r + (b / 8 + k : Nat)), 1)
  else [(v.addr (r + c * v.stride1), v.elemBytes)]

/-- The encoding of the element at column c from the bytes of its pieces. -/
def codeOf (v : Version) (c : Nat) (bs : List Byte) : Nat :=
  if v.fmt = 13 then (bs.zipIdx.map fun x => if bit x.1 (c % 8) then 2 ^ (7 - x.2) else 0).sum
  else if v.packed then leNat bs / 2 ^ (v.elemBits * c % 8) % 2 ^ v.elemBits
  else leNat bs

/-- Scale entries of a row, the size of one, and the row's metadata area (R123, R137). -/
def scales (v : Version) : Nat := if v.blk = 0 then 0 else ceilDiv v.rowLen v.blkSize
def scaleSize (v : Version) : Nat := if v.fmt = 13 then 2 else 1
def metaBase (v : Version) (q : Nat) : Int := v.base + 32 * v.scoff + q * v.scstr

/-- Consecutive single bytes from an address. -/
def single (v : Version) (x : Int) (n : Nat) : List (Nat × Nat) :=
  (List.range n).map fun (k : Nat) => (v.addr (x + k), 1)

/-- The pieces of the scale entry of column c. -/
def scalePieces (v : Version) (q c : Nat) : List (Nat × Nat) :=
  if v.blk = 0 then [] else v.single (v.metaBase q + (c / v.blkSize * v.scaleSize : Nat)) v.scaleSize

/-- Stored elements of a 32-element group (R139). -/
def stored (v : Version) : Nat := match v.spar with | 1 => 16 | 2 => 8 | _ => 32

/-- The pieces of the mask of the group of column c. -/
def maskPieces (v : Version) (q c : Nat) : List (Nat × Nat) :=
  if v.spar = 0 then []
  else v.single (v.metaBase q + (4 * ceilDiv (v.scales * v.scaleSize) 4 + 4 * (c / 32) : Nat)) 4

/-- Row and column of element i. -/
def rowOf (v : Version) (i : Nat) : Nat := i / v.rowLen
def colOf (v : Version) (i : Nat) : Nat := i % v.rowLen

/-- Is element i the last of its row, or of the stream? -/
def rowEnds (v : Version) (i : Nat) : Bool := v.colOf i + 1 == v.rowLen || i + 1 == v.count

/-- Stored column of a logical column under a mask; none where the mask's bit is 0 (R139). -/
def storedCol (v : Version) (mask c : Nat) : Option Nat :=
  if v.spar = 0 then some c
  else if mask / 2 ^ (c % 32) % 2 = 0 then none
  else some (v.stored * (c / 32) + popCount 32 (mask % 2 ^ (c % 32)))

/-- Logical columns of row q, fewer than E in a last row that is cut short. -/
def rowCols (v : Version) (q : Nat) : Nat := min v.rowLen (v.count - q * v.rowLen)

/-- Elements that row q stores: its logical columns, or the stored elements of its groups (R139, R141, assumption 60). -/
def rowStored (v : Version) (q : Nat) : Nat := if v.spar = 0 then v.rowCols q else ceilDiv (v.rowCols q) 32 * v.stored

/-- Bytes that the elements of row q take, packed end to end (R141): the last byte of a packed row is padded, and strata
take whole groups. -/
def rowBytes (v : Version) (q : Nat) : List (Nat × Nat) :=
  let n := v.rowStored q
  if v.fmt = 13 then v.single (v.rowBase q) (ceilDiv n 256 * 256)
  else if v.packed then v.single (v.rowBase q) (ceilDiv (v.elemBits * n) 8)
  else (List.range n).flatMap fun c => v.pieces q c

/-- The masks of row q (R137). -/
def maskBytes (v : Version) (q : Nat) : List (Nat × Nat) :=
  if v.spar = 0 then [] else (List.range (v.rowLen / 32)).flatMap fun g => v.maskPieces q (32 * g)

/-- Metadata of row q that a trailer covers: its scale entries, then its masks (R141). -/
def metaBytes (v : Version) (q : Nat) : List (Nat × Nat) := v.single (v.metaBase q) (v.scales * v.scaleSize) ++ v.maskBytes q

/-- The bytes that a trailer covers, and the trailer (R141). -/
def covered (v : Version) : List (Nat × Nat) :=
  ((List.range v.rows).flatMap v.rowBytes) ++ ((List.range v.rows).flatMap v.metaBytes)
def trailerAt (v : Version) : Nat := v.addr ((v.base : Int) - 32)

end Version

/-! ### The trailer (R141, R143) -/

/-- Byte 10 of a trailer. -/
def trailerFmt (v : Version) : Nat := v.blk * 64 + v.fmt

/-- The first 28 bytes of a trailer. -/
def trailerHead (v : Version) (maxAbs sat nan : Nat) : List Byte :=
  leBytes 4 maxAbs ++ leBytes 4 sat ++ leBytes 2 nan ++ leBytes 1 (trailerFmt v) ++ leBytes 1 1 ++ leBytes 4 v.count ++
  List.replicate 12 0

/-- Does a trailer agree with the bytes it covers and with the descriptor (R143)? -/
def trailerOk (v : Version) (cover tr : List Byte) : Bool :=
  leNat (tr.drop 28) == (crc32c (cover ++ tr.take 28)).toNat &&
  leNat ((tr.drop 10).take 1) == trailerFmt v && leNat ((tr.drop 11).take 1) == 1 && leNat ((tr.drop 12).take 4) == v.count

/-! ### How elements are reached -/

/-- An element as an instruction reads it: encoding, exact value, marked by poison (R119, R145, R411). -/
structure Elem where
  code : Nat
  val : Val
  marked : Bool

/-- How the elements of one stream are reached: by the EP, or by an engine. -/
structure Path where
  desc : Version
  ftz : Bool
  read : Nat → Nat → M (List Byte × Bool)
  write : Nat → List Byte → Bool → M Unit
  pop : Nat → M (Nat × Bool)
  poisoned : Nat → M Bool
  named : Nat → Trap → Trap := fun _ t => t

namespace Path

/-- A run of element i: its traps are named as the path's owner names those of an element (R388). -/
def naming {α : Type} (p : Path) (i : Nat) (m : M α) : M α := fun s =>
  match m s with
  | .error (.trap k t) => .error (.trap k (p.named i t))
  | r => r

/-- Bytes of several pieces, and whether any is poisoned. -/
def readAll (p : Path) : List (Nat × Nat) → M (List Byte × Bool)
  | [] => return ([], false)
  | x :: xs => do
    let r ← p.read x.1 x.2
    let t ← p.readAll xs
    return (r.1 ++ t.1, r.2 || t.2)

/-- The value of an encoding under its block's scale (R137, R136). -/
def scaled (v : Version) (x : Val) (scale : List Byte) : Val :=
  if v.blk = 0 then x
  else if v.fmt = 13 then scaleVal x (bf16.decode (leNat scale))
  else scaleVal x (e8m0 (leNat scale))

/-- Element i of a source (R117, R119, R139). -/
def elem (p : Path) (i : Nat) : M Elem := p.naming i do
  let v := p.desc
  if v.isQueue then
    let x ← p.pop i
    let m ← if x.2 then p.poisoned i else pure false
    let c := if x.2 then 0 else x.1
    return ⟨c, elemVal v.fmt v.planes p.ftz c, m⟩
  else
    let q := v.rowOf i
    let c := v.colOf i
    let mk ← p.readAll (v.maskPieces q c)
    let sc ← p.readAll (v.scalePieces q c)
    match v.storedCol (leNat mk.1) c with
    | none =>
      let m ← if mk.2 then p.poisoned i else pure false
      return ⟨0, .zero false, m⟩
    | some k =>
      let bs ← p.readAll (v.pieces q k)
      if bs.2 || sc.2 || mk.2 then
        let m ← p.poisoned i
        return ⟨0, .zero false, m⟩
      else
        let code := v.codeOf k bs.1
        return ⟨code, scaled v (elemVal v.fmt v.planes p.ftz code) sc.1, false⟩

/-- Bits of an element put into the bytes that it shares: the other bits stay, and after the last element of a row they are
written 0 (R129, R135, R148). -/
def mixBits (old at_ w v : Nat) (last : Bool) : Nat :=
  old % 2 ^ at_ + v % 2 ^ w * 2 ^ at_ + (if last then 0 else old / 2 ^ (at_ + w) * 2 ^ (at_ + w))

/-- The planes of a strata element written one by one (R135). -/
def writePlanes (p : Path) (c code : Nat) (marked last : Bool) : List ((Nat × Nat) × Nat) → M Unit
  | [] => return ()
  | x :: xs => do
    let old ← p.read x.1.1 1
    p.write x.1.1 (leBytes 1 (mixBits (leNat old.1) (c % 8) 1 (code / 2 ^ (7 - x.2)) last)) marked
    p.writePlanes c code marked last xs

/-- Single bytes written one by one. -/
def writeBytes (p : Path) (marked : Bool) : List (Nat × Byte) → M Unit
  | [] => return ()
  | x :: xs => do
    p.write x.1 [x.2] marked
    p.writeBytes marked xs

/-- The high bits of single bytes cleared from a bit on. -/
def clearHigh (p : Path) (at_ : Nat) : List Nat → M Unit
  | [] => return ()
  | a :: as => do
    let old ← p.read a 1
    p.write a (leBytes 1 (leNat old.1 % 2 ^ at_)) false
    p.clearHigh at_ as

/-- Zeros after the last position of a strata row: the positions past E in its last group (R135). -/
def padRow (p : Path) (q : Nat) : M Unit := do
  let v := p.desc
  let c := v.rowLen % 256
  if c = 0 then return ()
  else
    let g := v.rowLen / 256 * 256
    let at_ (j k : Nat) : Nat := v.addr (v.rowBase q + (g + 32 * j + k : Nat))
    if c % 8 ≠ 0 then p.clearHigh (c % 8) ((List.range v.planes).map fun j => at_ j (c / 8))
    p.writeBytes false ((List.range v.planes).flatMap fun j =>
      (List.range (32 - ceilDiv c 8)).map fun k => (at_ j (ceilDiv c 8 + k), 0#8))

/-- Destination element i written (R117, R148, R151). -/
def put (p : Path) (i code : Nat) (marked : Bool) : M Unit := p.naming i do
  let v := p.desc
  let q := v.rowOf i
  let c := v.colOf i
  if v.fmt = 13 then
    p.writePlanes c code marked (c + 1 == v.rowLen) (v.pieces q c).zipIdx
    if v.rowEnds i then p.padRow q
  else if v.packed then
    let ps := v.pieces q c
    let old ← p.readAll ps
    p.writeBytes marked ((ps.map (·.1)).zip
      (leBytes ps.length (mixBits (leNat old.1) (v.elemBits * c % 8) v.elemBits code (v.rowEnds i))))
  else
    let x := (v.pieces q c).headD (0, 0)
    p.write x.1 (leBytes x.2 code) marked

/-- The scale entry of the block of element i written (R137). -/
def putScale (p : Path) (i code : Nat) : M Unit := p.naming i do
  let v := p.desc
  let ps := v.scalePieces (v.rowOf i) (v.colOf i)
  p.writeBytes false ((ps.map (·.1)).zip (leBytes ps.length code))

end Path

/-! ### The EP's paths (R23, R119, R121, R151) -/

/-- The translation of a stream's address that the AP has made for the word that the EP runs, or a new one
(R119, R396, R403). -/
def epTranslate (sp : Space) (a : Nat) (write : Bool) : M Phys := do
  let s ← get
  let host := sp == .host
  match s.ep.leaves.find? fun l => l.seq == s.ep.seq && l.host == host && l.va ≤ a % 2 ^ 56 && a % 2 ^ 56 < l.va + 2 ^ l.size with
  | some l => return ⟨pteAddr l.entry + a % 2 ^ l.size, pteCmp l.entry, pteUc l.entry⟩
  | none =>
    match s.translate (BitVec.ofNat 64 a) (if write then { writeNeed with host := host } else { readNeed with host := host })
      s.strand.info.priv with
    | .ok (p, t) =>
      set t
      return p
    | .error t => stop (.trap (some (s.missed (BitVec.ofNat 64 a) host)) { t with cls := .e, src := 1 })

/-- A read of a piece of a stream by the EP at memory. -/
def epReadMem (v : Version) (a n : Nat) : M (List Byte × Bool) := do
  let s ← get
  let sp := v.memSpace
  needElement sp
  match sp with
  | .dev | .host =>
    let p ← epTranslate sp a false
    readAt 7 sp p n v.pol 0
  | _ => readAt 7 sp ⟨placeOf sp s.core.id a, false, false⟩ n 0 0

/-- Bytes among those read ahead, with their poison. -/
def Snap.cut (xs : List Snap) (a n : Nat) : Option (List Byte × Bool) :=
  (xs.find? fun x => x.addr ≤ a && a + n ≤ x.addr + x.bytes.length).map fun x => ((x.bytes.drop (a - x.addr)).take n, x.poison)

/-- The bytes read ahead of stream k for the word at a place. -/
def Ep.snapsOf (e : Ep) (seq k : Nat) : List Snap := e.snaps.filter fun x => x.seq == seq && x.stream == k

/-- A read of a piece of source k by the EP: bytes read ahead for a checked word, else memory. -/
def epRead (k : Nat) (v : Version) (a n : Nat) : M (List Byte × Bool) := do
  let s ← get
  match Snap.cut (s.ep.snapsOf s.ep.seq k) a n with
  | some x => return x
  | none => epReadMem v a n

/-- A marked element poisons its unit of memory (R411). -/
def State.poisonAt (s : State) (sp : Space) (view : Bool) (a : Nat) : State :=
  match s.core.order.l1Find sp view (sectorOf a) with
  | some x =>
    if x.dirty = 0 then s.setPoison sp view (a / 32) true
    else s.modOrder fun o => o.l1Put { x with poison := true }
  | none => s.setPoison sp view (a / unitOf sp) true

/-- A write of a piece of a stream by the EP: a store of its own, which holds while the bytes are pinned or older stores to
them are not performed, and is then performed at once (R151). -/
def epWrite (v : Version) (a : Nat) (bs : List Byte) (marked : Bool) : M Unit := do
  let s ← get
  let sp := v.memSpace
  needElement sp
  match sp with
  | .dev | .host =>
    let p ← epTranslate sp a true
    modify fun s => s.drainFor sp p.pa bs.length
    let s ← get
    if s.storesAhead sp p.pa bs.length then block { cls := 0, kind := 9, obj := 0 }
    match s.targetOf sp p.pa with
    | .pod node off =>
      let t := if s.share.pack.quarantined.contains node then s else s.podWrite 7 node off bs marked
      set (t.modOrder fun o => o.accumulate (sectorOf p.pa))
    | _ =>
      let t := s.perform ⟨sp, p.pa, bs, v.pol, p.view, p.uc⟩
      set (if marked then t.poisonAt sp p.view p.pa else t)
  | _ =>
    match if sp == .cham then s.core.pinnedBy a bs.length else none with
    | some i => block { cls := 0, kind := 4, obj := i }
    | none =>
      let place := placeOf sp s.core.id a
      let u := s.drainFor sp place bs.length
      if u.storesAhead sp place bs.length then
        set u
        block { cls := 0, kind := 9, obj := 0 }
      else
        let t := u.performScratch sp place bs
        set (if marked then t.setPoison sp false (place / unitOf sp) true else t)

/-- Element i of a queue stream: from bit 0 of each entry upward; an entry leaves with its last element, and a
zero-poison mark counts the elements taken from it.  The answer says whether the entry carries poison mark 2. -/
def epPop (k : Nat) (v : Version) (i : Nat) : M (Nat × Bool) := do
  let s ← get
  let q := v.queue
  let per := 64 / v.elemBits
  match s.strand.queues.q[q]?.getD [] with
  | [] => block { cls := 0, kind := 0, obj := q }
  | x :: rest =>
    match x.data with
    | none => block { cls := 0, kind := 0, obj := q }
    | some d =>
      if i % per + 1 = per ∨ i + 1 = v.count then
        modify fun s =>
          let t := s.modQueues fun z => { z with q := z.q.setIfInBounds q rest }
          if x.mark = 1#2 then t.modStream k fun y => y.addPois (i % per + 1) else t
      return (if x.mark = 0#2 then field d (v.elemBits * (i % per)) v.elemBits else 0, x.mark == 2#2)

/-- A poisoned element under the descriptor's PPOL: an EP-precise trap, a counted zero, or a marked zero (R119). -/
def epPoisoned (k : Nat) (v : Version) (i : Nat) : M Bool := do
  match v.ppol with
  | 0 => raise { mkTrap .e 0x16 0 with src := 1, stream := k, elem := i }
  | 1 =>
    modify fun s => s.modStream k fun y => y.addPois 1
    return false
  | _ => return true

/-- The EP's path to stream k as a source. -/
def State.epPath (s : State) (k : Nat) : Path :=
  let v := (s.stream k).epVersion
  ⟨v, s.ftz, epRead k v, epWrite v, epPop k v, epPoisoned k v, fun i t => if t.cls = .e then { t with stream := k, elem := i } else t⟩

/-- The EP's path to stream k as a destination, whose bytes are those of memory, not those read ahead for a source (R143, R148). -/
def State.epDest (s : State) (k : Nat) : Path := { s.epPath k with read := epReadMem (s.stream k).epVersion }

end Sys2Proof.Machine
end

