-- ==== Sys2Proof/Machine/Vector.lean ====
section
/-!
DEFINITION. Execute instructions in general: what a word names, the checks of its streams in order, and running through
elements with a kept position (R102, R118, R146 to R150, R152, R157, R159, R187).
-/
namespace Sys2Proof.Machine

/-! ### What a word names -/

/-- The family of an execute word with its function number (R63), and the lane-slice accesses. -/
inductive VecKind where
  | vop (f : Nat)
  | vred (f : Nat)
  | vcvt (had : Nat)
  | vdec (f : Nat)
  | ldl (sz : Nat)
  | stl (sz : Nat)
deriving DecidableEq, Repr

/-- An execute word: destination stream, sources, type and rounding mode. -/
structure Vec where
  kind : VecKind
  sd : Option Nat
  sa : Option Nat
  sb : Option Nat
  ty : Nat
  rm : Nat
deriving DecidableEq, Repr

/-- Binary and unary words. -/
def vec2 (k : VecKind) (d a b f : BitVec 4) (r : Nat) : Option Vec :=
  some ⟨k, some d.toNat, some a.toNat, some b.toNat, f.toNat, r⟩
def vec1 (k : VecKind) (d a f : BitVec 4) (r : Nat) : Option Vec :=
  some ⟨k, some d.toNat, some a.toNat, none, f.toNat, r⟩

/-- The execute word of an instruction. -/
def vecOf : Instr → Option Vec
  | .vadd d a b f r => vec2 (.vop 0) d a b f r.toNat
  | .vsub d a b f r => vec2 (.vop 1) d a b f r.toNat
  | .vmul d a b f r => vec2 (.vop 2) d a b f r.toNat
  | .vfma d a b f r => vec2 (.vop 3) d a b f r.toNat
  | .vdiv d a b f r => vec2 (.vop 4) d a b f r.toNat
  | .vsqrt d a f r => vec1 (.vop 5) d a f r.toNat
  | .vneg d a f r => vec1 (.vop 6) d a f r.toNat
  | .vabs d a f r => vec1 (.vop 7) d a f r.toNat
  | .vmin d a b f r => vec2 (.vop 8) d a b f r.toNat
  | .vmax d a b f r => vec2 (.vop 9) d a b f r.toNat
  | .vmov d a f r => vec1 (.vop 10) d a f r.toNat
  | .vadds d a b f r => vec2 (.vop 11) d a b f r.toNat
  | .vsubs d a b f r => vec2 (.vop 12) d a b f r.toNat
  | .vand d a b f r => vec2 (.vop 13) d a b f r.toNat
  | .vor d a b f r => vec2 (.vop 14) d a b f r.toNat
  | .vxor d a b f r => vec2 (.vop 15) d a b f r.toNat
  | .vshl d a b f r => vec2 (.vop 16) d a b f r.toNat
  | .vshr d a b f r => vec2 (.vop 17) d a b f r.toNat
  | .vsra d a b f r => vec2 (.vop 18) d a b f r.toNat
  | .vexp d a f r => vec1 (.vop 19) d a f r.toNat
  | .vlog d a f r => vec1 (.vop 20) d a f r.toNat
  | .vrsqrt d a f r => vec1 (.vop 21) d a f r.toNat
  | .vtanh d a f r => vec1 (.vop 22) d a f r.toNat
  | .vsigm d a f r => vec1 (.vop 23) d a f r.toNat
  | .vrsum d a f => vec1 (.vred 0) d a f 0
  | .vdot d a b f => vec2 (.vred 1) d a b f 0
  | .vrmax d a f => vec1 (.vred 2) d a f 0
  | .vrmin d a f => vec1 (.vred 3) d a f 0
  | .vrsums d a f => vec1 (.vred 4) d a f 0
  | .vdots d a b f => vec2 (.vred 5) d a b f 0
  | .vcvt d a f r => vec1 (.vcvt 0) d a f r.toNat
  | .vcvtH16 d a f r => vec1 (.vcvt 1) d a f r.toNat
  | .vcvtH32 d a f r => vec1 (.vcvt 2) d a f r.toNat
  | .vsign d a f r => vec1 (.vdec 0) d a f r.toNat
  | .vcmpgt d a b f r => vec2 (.vdec 1) d a b f r.toNat
  | .vcmpge d a b f r => vec2 (.vdec 2) d a b f r.toNat
  | .vcmpeq d a b f r => vec2 (.vdec 3) d a b f r.toNat
  | .vthr d a b f r => vec2 (.vdec 4) d a b f r.toNat
  | .vargmax d a f r => vec1 (.vdec 5) d a f r.toNat
  | .vargmin d a f r => vec1 (.vdec 6) d a f r.toNat
  | .vtopk d a f r => vec1 (.vdec 7) d a f r.toNat
  | .ldl z k _ _ _ => some ⟨.ldl (2 ^ z.toNat), some k.toNat, none, none, 0, 0⟩
  | .stl z k _ _ _ => some ⟨.stl (2 ^ z.toNat), none, some k.toNat, none, 0, 0⟩
  | _ => none

/-! ### The checks of R146 -/

/-- The versions that a word names, in the order SD, SA, SB. -/
structure Descs where
  d : Option Version
  a : Option Version
  b : Option Version

def Vec.descs (x : Vec) (f : Nat → Version) : Descs := ⟨x.sd.map f, x.sa.map f, x.sb.map f⟩

/-- The field that fails first, in the order SD, SA, SB. -/
def firstField (x : Vec) (d a b : Bool) : Option Nat :=
  if d && x.sd.isSome then x.sd else if a && x.sa.isSome then x.sa else if b && x.sb.isSome then x.sb else none

/-- Step 2: R118 and R124; a trailer on a destination belongs to `vcvt` alone (R142). -/
def Vec.step2 (x : Vec) (v : Descs) : Option Nat :=
  let isCvt := match x.kind with | .vcvt _ => true | _ => false
  firstField x ((v.d.map fun y => y.bad true || (y.trl && !isCvt)).getD false)
    ((v.a.map fun y => y.bad false).getD false) ((v.b.map fun y => y.bad false).getD false)

/-- A stream of a type with BLK, PLN, HAD and TRL at 0 (R152). -/
def plainOf (ty : Nat) (y : Version) : Bool := y.fmt == ty && y.blk == 0 && y.pln == 0 && y.had == 0 && !y.trl

/-- A destination with BLK, HAD, SPAR and TRL at 0 (R157). -/
def bareDest (ty : Nat) (y : Version) : Bool := plainOf ty y && y.spar == 0

/-- Type of the accumulator of a reduction (R157): FP32 or INT32. -/
def accType (ty : Nat) : Nat := if ty < 8 ∨ ty = 13 then 0 else 8

/-- Step 3: the formats that the function requires (R102, R152, R157, R159, R187). -/
def Vec.step3 (x : Vec) (v : Descs) : Option Nat :=
  let d := v.d.getD Version.zero
  let a := v.a.getD Version.zero
  let b := v.b.getD Version.zero
  match x.kind with
  | .vop _ => firstField x (!plainOf x.ty d) (!plainOf x.ty a) (!plainOf x.ty b)
  | .vred f =>
    let dt := if f = 2 ∨ f = 3 then x.ty else accType x.ty
    let at_ := if x.ty = 13 then 1 else x.ty
    firstField x (!bareDest dt d) (a.fmt != at_) (b.fmt != x.ty || (f == 1 && a.had != b.had))
  | .vcvt h =>
    if h = 0 then firstField x (d.fmt != x.ty || d.had != a.had || (x.ty == 13 && d.pln != 7)) false false
    else
      firstField x (d.fmt != x.ty || d.had != h || (x.ty == 13 && d.pln != 7))
        (a.had != 0 || !(a.fmt < 3 || a.fmt == 8 || a.fmt == 9 || a.fmt == 10 || a.fmt == 12)) false
  | .vdec f =>
    let dOk := match f with
      | 0 | 4 => d.fmt == x.ty
      | 1 | 2 | 3 => d.fmt == 8 || d.fmt == 9 || d.fmt == 10 || d.fmt == 12
      | _ => d.fmt == 8
    firstField x (!dOk) (a.fmt != x.ty) (b.fmt != x.ty)
  | .ldl sz => firstField x (d.elemBits != 8 * sz) false false
  | .stl sz => firstField x false (a.elemBits != 8 * sz) false

/-- k of a `vtopk` by its destination's COUNT. -/
def topK (d a : Version) : Nat := d.count / (2 * a.rows)

/-- Step 4: the counts (R147, R157, R159, R187). -/
def Vec.step4 (x : Vec) (v : Descs) : Option Nat :=
  let d := v.d.getD Version.zero
  let a := v.a.getD Version.zero
  let b := v.b.getD Version.zero
  let other (y : Version) : Bool := y.count != d.count && y.count != 1
  match x.kind with
  | .vop _ => firstField x false (other a) (other b)
  | .vred _ =>
    firstField x (d.count * a.rowLen != a.count) (a.count % a.rowLen != 0) (b.count != a.count || b.rowLen != a.rowLen)
  | .vcvt _ => firstField x false (a.count != d.count) false
  | .vdec f =>
    if f < 5 then firstField x false (other a) (other b)
    else if f < 7 then firstField x (d.count != 2 * a.rows) false false
    else
      let k := topK d a
      firstField x (d.count != 2 * k * a.rows || k = 0 || 64 < k || a.rowLen < k) false false
  | _ => none

/-- Is a conversion with a rounding mode one between integers, which is illegal (R159)? -/
def Vec.illegal (x : Vec) (v : Descs) : Bool :=
  match x.kind with
  | .vcvt _ =>
    let sf := (v.a.getD Version.zero).fmt
    x.rm != 0 && 8 ≤ x.ty && x.ty ≤ 12 && 8 ≤ sf && sf ≤ 12
  | _ => false

/-- The stream that the stream-descriptor cause names, when a check fails. -/
def Vec.failing (x : Vec) (v : Descs) : Option Nat :=
  match x.step2 v with
  | some k => some k
  | none => match x.step3 v with
    | some k => some k
    | none => x.step4 v

/-! ### Running through a word (R119, R150) -/

/-- How an instruction runs: KIND of its execute record (R381, 0 none), its number of units, the first and last source element of
each, the unit of a kept position, the stream whose POS keeps it, POS of the other streams, one unit, and the end. -/
structure Plan where
  kind : Nat := 0
  units : Nat
  first : Nat → Nat
  last : Nat → Nat
  unitOf : Nat → Nat
  main : Nat
  others : Nat → List (Nat × Nat)
  unit : Nat → M Unit
  finish : M Unit

/-- POS of every named stream set for unit u. -/
def Plan.mark (p : Plan) (u : Nat) (s : State) : State :=
  ((p.others u).foldl (fun (t : State) x => t.modStream x.1 fun y => y.setPos x.2) s).modStream p.main
    fun y => y.setPos (p.first u)

/-- The instruction stops at unit u with its source elements below `seen` consumed: POS is set, and a stop inside the instruction
has an execute record (R150, R381). -/
def Plan.hold (p : Plan) (seen u : Nat) (s : State) : State :=
  let t := p.mark u s
  if p.kind ≠ 0 && t.ep.xr.kind == 0 && p.first u < seen then
    t.modEp fun e => { e with xr := { ExecRecord.none with kind := p.kind } }
  else t

/-- POS of every named stream back to 0. -/
def Plan.clear (p : Plan) (s : State) : State :=
  ((p.others 0).foldl (fun (t : State) x => t.modStream x.1 fun y => y.setPos 0) s).modStream p.main fun y => y.setPos 0

/-- How many elements the EP may use: all, once the AP has passed the word; else those offered (R119). -/
def State.limit (s : State) : Option Nat := if s.ep.seq < s.ap.seq then none else some (s.ap.offer.getD 0)

/-- May unit u run? -/
def Plan.allowed (p : Plan) (limit : Option Nat) (u : Nat) : Bool :=
  match limit with
  | none => true
  | some n => p.last u < n

/-- Units from u on; the fuel is their number.  `begun` is the unit at which this turn began. -/
def Plan.run (p : Plan) (limit : Option Nat) (begun : Nat) : Nat → Nat → M Flow
  | 0, _ => do
    p.finish
    modify p.clear
    return .seq
  | n + 1, u => fun s =>
    if p.allowed limit u then
      match p.unit u s with
      | .ok (_, t) => p.run limit begun n (u + 1) (t.podDone 7)
      | .error (.trap keep t) => .error (.trap (some (p.hold (if t.src = 1 then t.elem else 0) u (keep.getD s))) t)
      | .error (.block w) => if u = begun then .error (.block w) else .ok (.stay, p.mark u s)
      | .error (.ask r) => .ok (.stay, p.mark u (s.podAsk r))
    else .ok (.stay, (p.hold (limit.getD 0) u s).modAp fun a => { a with offered := true })

/-- An execute instruction from the unit that its kept position names. -/
def Plan.go (p : Plan) : M Flow := fun s =>
  let u := p.unitOf (s.stream p.main).epVersion.pos
  p.run s.limit u (p.units - u) u s

/-- j times 2^16 for repetition j of a `rep`, 0 otherwise (R134). -/
def State.repIndex (s : State) : Nat :=
  if s.ep.bind = .rep then (s.ep.repCount - field s.regs.rc 32 32) * 65536 else 0

/-- The 16 bits of `SrBits` for element `idx` of the word that the EP runs (R134). -/
def State.srOf (s : State) (idx : Nat) : Nat :=
  srBits s.regs.srseedEp (s.wordPcEp.setWidth 64) (s.repIndex + idx)

end Sys2Proof.Machine
end

