-- ==== Sys2Proof/Machine/Vop.lean ====
section
/-!
DEFINITION. Element-wise execute instructions (R147, R148, R152 to R156), and the lane slices (R102).
-/
namespace Sys2Proof.Machine

/-! ### Results (R153 to R156) -/

/-- An exact or special result rounded once (R153). -/
def roundTy (ty rm sr : Nat) (ftz : Bool) (x : Val × Flags) : Nat × Flags :=
  let r := convert ty rm sr ftz false x.1
  (r.1, x.2 ||| r.2)

/-- The exact result on an F type of a function number of R63. -/
def vopReal (f rm : Nat) (a b d : Val) : Val × Flags :=
  match f with
  | 0 => a.add rm b
  | 1 => a.add rm b.neg
  | 2 => a.mul b
  | 3 => let p := a.mul b; let s := p.1.add rm d; (s.1, p.2 ||| s.2)
  | 4 => a.div b
  | 5 => a.sqrt
  | 6 => (a.neg, Flag.none)
  | 7 => (a.abs, Flag.none)
  | 8 => (vminVal a b, Flag.none)
  | 9 => (vmaxVal a b, Flag.none)
  | 10 => (a, Flag.none)
  | 19 => Special.exp a
  | 20 => Special.log a
  | 21 => Special.rsqrt a
  | 22 => Special.tanh a
  | _ => Special.sigm a

/-- The result on an F type: `vneg`, `vabs`, `vmin`, `vmax` and `vmov` never round and set no flag. -/
def vopF (f ty rm sr : Nat) (ftz : Bool) (a b d : Val) : Nat × Flags :=
  let r := roundTy ty rm sr ftz (vopReal f rm a b d)
  if 6 ≤ f ∧ f ≤ 10 then (r.1, Flag.none) else r

/-- Shifts of w bits (R155): `vshl`, `vshr`, `vsra`. -/
def vopShift (f w a s : Nat) : Nat :=
  match f with
  | 16 => if s < w then a * 2 ^ s % 2 ^ w else 0
  | 17 => if s < w then a / 2 ^ s else 0
  | _ => wrapNat w (toSigned w a / ((2 ^ min s w : Nat) : Int))

/-- The result on an I type of width w: a, b and d as integers, and the encodings of a and b. -/
def vopI (f w : Nat) (sg : Bool) (a b d : Int) (ca cb : Nat) : Nat × Flags :=
  let wrap (i : Int) : Nat × Flags := (wrapNat w i, Flag.none)
  let sat (i : Int) : Nat × Flags := let r := satInt (intLo w sg) (intHi w sg) i; (wrapNat w r.1, r.2)
  match f with
  | 0 => wrap (a + b)
  | 1 => wrap (a - b)
  | 2 => wrap (a * b)
  | 3 => wrap (a * b + d)
  | 6 => sat (-a)
  | 7 => sat (if a < 0 then -a else a)
  | 8 => wrap (if b < a then b else a)
  | 9 => wrap (if a < b then b else a)
  | 10 => wrap a
  | 11 => sat (a + b)
  | 12 => sat (a - b)
  | 13 => (Nat.land ca cb, Flag.none)
  | 14 => (Nat.lor ca cb, Flag.none)
  | 15 => (Nat.xor ca cb, Flag.none)
  | _ => (vopShift f w ca cb, Flag.none)

/-- VopResult of R152: the encoding and the flags, from the three elements. -/
def vopResult (f ty rm sr : Nat) (ftz : Bool) (a b d : Elem) : Nat × Flags :=
  match intFmt ty with
  | some (w, sg) => vopI f w sg (intOf w sg a.code) (intOf w sg b.code) (intOf w sg d.code) a.code b.code
  | none => vopF f ty rm sr ftz a.val b.val d.val

/-! ### Running (R147, R148) -/

def Elem.zero : Elem := ⟨0, .zero false, false⟩

/-- A broadcast element: read or popped once, and kept until the instruction retires. -/
def broadcast (k : Nat) : M Elem := do
  let s ← get
  let p := s.epPath k
  match s.ep.latched.find? fun l => l.stream == k with
  | some l => return ⟨l.code, elemVal p.desc.fmt p.desc.planes p.ftz l.code, l.marked⟩
  | none =>
    let entry := if p.desc.isQueue then (s.strand.queues.q[p.desc.queue]?.getD []).head? else none
    let pois := (s.stream k).pois
    let x ← p.elem 0
    modify fun s => s.modEp fun e => { e with latched := ⟨k, x.code, x.marked, entry, pois⟩ :: e.latched }
    return x

/-- Element j of a source (R147). -/
def srcElem (k : Option Nat) (j : Nat) : M Elem := do
  match k with
  | none => return Elem.zero
  | some k =>
    let p := (← get).epPath k
    if p.desc.count = 1 then broadcast k else p.elem j

/-- Elements j of the two sources; a stream named twice is read once (R148). -/
def srcPair (x : Vec) (j : Nat) : M (Elem × Elem) := do
  let a ← srcElem x.sa j
  let b ← if x.sb = x.sa then pure a else srcElem x.sb j
  return (a, b)

/-- Flags of an element, none on account of a marked one (R149, R411). -/
def elemFlags (marked : Bool) (f : Flags) : M Unit := if marked then return () else sticky f

/-- One element of an element-wise instruction. -/
def vopUnit (x : Vec) (f j : Nat) : M Unit := do
  let p := (← get).epDest (x.sd.getD 0)
  let ab ← srcPair x j
  let d ← if f = 3 then p.elem j else pure Elem.zero
  let s ← get
  let r := vopResult f x.ty x.rm (s.srOf j) s.ftz ab.1 ab.2 d
  let m := ab.1.marked || ab.2.marked || d.marked
  elemFlags m r.2
  p.put j r.1 m

/-- The sources of a word whose POS follows the elements: named, not broadcast, and not the main stream. -/
def State.followers (s : State) (x : Vec) (main : Nat) : List Nat :=
  (x.sa.toList ++ x.sb.toList).filter fun k => k != main && (s.stream k).epVersion.count != 1

/-- An element-wise run of N units over the destination. -/
def elemPlan (s : State) (x : Vec) (unit : Nat → M Unit) : Plan where
  units := (s.stream (x.sd.getD 0)).epVersion.count
  first u := u
  last u := u
  unitOf p := p
  main := x.sd.getD 0
  others u := (s.followers x (x.sd.getD 0)).map fun k => (k, u)
  unit := unit
  finish := return ()

/-- An element-wise instruction. -/
def runVop (i : Instr) (f : Nat) (s : State) : Answer :=
  match vecOf i with
  | some x => runEp i (fun s => (elemPlan s x (vopUnit x f)).go s) s
  | none => .next s

def execVadd (d a b f : BitVec 4) (r : BitVec 3) (s : State) : Answer := runVop (.vadd d a b f r) 0 s
def execVsub (d a b f : BitVec 4) (r : BitVec 3) (s : State) : Answer := runVop (.vsub d a b f r) 1 s
def execVmul (d a b f : BitVec 4) (r : BitVec 3) (s : State) : Answer := runVop (.vmul d a b f r) 2 s
def execVfma (d a b f : BitVec 4) (r : BitVec 3) (s : State) : Answer := runVop (.vfma d a b f r) 3 s
def execVdiv (d a b f : BitVec 4) (r : BitVec 3) (s : State) : Answer := runVop (.vdiv d a b f r) 4 s
def execVsqrt (d a f : BitVec 4) (r : BitVec 3) (s : State) : Answer := runVop (.vsqrt d a f r) 5 s
def execVneg (d a f : BitVec 4) (r : BitVec 3) (s : State) : Answer := runVop (.vneg d a f r) 6 s
def execVabs (d a f : BitVec 4) (r : BitVec 3) (s : State) : Answer := runVop (.vabs d a f r) 7 s
def execVmin (d a b f : BitVec 4) (r : BitVec 3) (s : State) : Answer := runVop (.vmin d a b f r) 8 s
def execVmax (d a b f : BitVec 4) (r : BitVec 3) (s : State) : Answer := runVop (.vmax d a b f r) 9 s
def execVmov (d a f : BitVec 4) (r : BitVec 3) (s : State) : Answer := runVop (.vmov d a f r) 10 s
def execVadds (d a b f : BitVec 4) (r : BitVec 3) (s : State) : Answer := runVop (.vadds d a b f r) 11 s
def execVsubs (d a b f : BitVec 4) (r : BitVec 3) (s : State) : Answer := runVop (.vsubs d a b f r) 12 s
def execVand (d a b f : BitVec 4) (r : BitVec 3) (s : State) : Answer := runVop (.vand d a b f r) 13 s
def execVor (d a b f : BitVec 4) (r : BitVec 3) (s : State) : Answer := runVop (.vor d a b f r) 14 s
def execVxor (d a b f : BitVec 4) (r : BitVec 3) (s : State) : Answer := runVop (.vxor d a b f r) 15 s
def execVshl (d a b f : BitVec 4) (r : BitVec 3) (s : State) : Answer := runVop (.vshl d a b f r) 16 s
def execVshr (d a b f : BitVec 4) (r : BitVec 3) (s : State) : Answer := runVop (.vshr d a b f r) 17 s
def execVsra (d a b f : BitVec 4) (r : BitVec 3) (s : State) : Answer := runVop (.vsra d a b f r) 18 s
def execVexp (d a f : BitVec 4) (r : BitVec 3) (s : State) : Answer := runVop (.vexp d a f r) 19 s
def execVlog (d a f : BitVec 4) (r : BitVec 3) (s : State) : Answer := runVop (.vlog d a f r) 20 s
def execVrsqrt (d a f : BitVec 4) (r : BitVec 3) (s : State) : Answer := runVop (.vrsqrt d a f r) 21 s
def execVtanh (d a f : BitVec 4) (r : BitVec 3) (s : State) : Answer := runVop (.vtanh d a f r) 22 s
def execVsigm (d a f : BitVec 4) (r : BitVec 3) (s : State) : Answer := runVop (.vsigm d a f r) 23 s

/-! ### Lane slices (R102) -/

/-- The offset of a lane-slice access: the immediate, or a register plus it with the low bits dropped. -/
def sliceOffset (s : State) (sz : Nat) (a : BitVec 6) (r : BitVec 1) (o : BitVec 10) : Nat :=
  let x := if r = 1#1 then (s.eread a.toNat + o.setWidth 64).toNat else o.toNat
  x - x % sz

/-- Place of element j of a lane-slice access: lane j mod 256 at its byte offset. -/
def sliceAt (core sz o j : Nat) : Nat := laneAt core (j % 256) ((o + sz * (j / 256)) % 1024)

/-- The slice's bytes as an element; a poisoned word reads as a queue entry with poison mark 2 (R411). -/
def sliceRead (core sz o j : Nat) : M (Nat × Bool) := do
  let r := (← get).homeBytes .lane false (sliceAt core sz o j) sz
  return (leNat r.1, r.2)

/-- One element of `ldl`. -/
def ldlUnit (k sz o j : Nat) : M Unit := do
  let s ← get
  let p := s.epDest k
  let x ← sliceRead s.core.id sz o j
  let m ← if x.2 then p.poisoned j else pure false
  p.put j (if x.2 then 0 else x.1) m

/-- One element of `stl`: a marked element poisons its aligned 8 bytes (R411). -/
def stlUnit (k sz o j : Nat) : M Unit := do
  let s ← get
  let x ← (s.epPath k).elem j
  let at_ := sliceAt s.core.id sz o j
  modify fun s =>
    let t := s.homeWrite .lane false at_ (leBytes sz x.code)
    if x.marked then t.setPoison .lane false (at_ / 8) true else t

/-- A lane-slice access runs over the stream's elements. -/
def slicePlan (s : State) (k : Nat) (unit : Nat → M Unit) : Plan where
  units := (s.stream k).epVersion.count
  first u := u
  last u := u
  unitOf p := p
  main := k
  others _ := []
  unit := unit
  finish := return ()

def execLdl (z : BitVec 2) (k : BitVec 4) (a : BitVec 6) (r : BitVec 1) (o : BitVec 10) (s : State) : Answer :=
  runEp (.ldl z k a r o) (fun s =>
    (slicePlan s k.toNat (ldlUnit k.toNat (2 ^ z.toNat) (sliceOffset s (2 ^ z.toNat) a r o))).go s) s

def execStl (z : BitVec 2) (k : BitVec 4) (a : BitVec 6) (r : BitVec 1) (o : BitVec 10) (s : State) : Answer :=
  runEp (.stl z k a r o) (fun s =>
    (slicePlan s k.toNat (stlUnit k.toNat (2 ^ z.toNat) (sliceOffset s (2 ^ z.toNat) a r o))).go s) s

end Sys2Proof.Machine
end

