-- ==== Sys2Proof/Machine/Vred.lean ====
section
/-!
DEFINITION. Reductions and dot products (R144, R150, R157, R158, R381).
-/
namespace Sys2Proof.Machine

/-! ### The record of the row in progress (R150, R381) -/

def State.xr (s : State) : ExecRecord := s.ep.xr
def State.setXr (s : State) (r : ExecRecord) : State := s.modEp fun e => { e with xr := r }

/-- A fresh record of a kind for row q. -/
def ExecRecord.start (kind q : Nat) : ExecRecord := { ExecRecord.none with kind := kind, row := q }

/-- The record at column c of row q: fresh at the row's start, the kept one otherwise. -/
def State.record (s : State) (kind q c : Nat) : ExecRecord := if c = 0 then ExecRecord.start kind q else s.xr

/-- The row's end: its result is written, and the record stands at the next row until the word ends. -/
def endRow (x : Vec) (kind q code : Nat) (marked : Bool) : M Unit := do
  let p := (← get).epDest (x.sd.getD 0)
  p.put q code marked
  modify fun s => s.setXr (ExecRecord.start kind (q + 1))

/-- The word ends, and its record with it. -/
def dropRecord : M Unit := modify fun s => s.setXr ExecRecord.none

/-- The old destination element of row q. -/
def oldDest (x : Vec) (q : Nat) : M Elem := do
  ((← get).epDest (x.sd.getD 0)).elem q

/-! ### Block sums (R144) -/

/-- Operands i of a dot product, or of a sum, whose second operand is 1. -/
def redPair (x : Vec) (i : Nat) : M (Elem × Elem) := do
  let s ← get
  let a ← (s.epPath (x.sa.getD 0)).elem i
  match x.sb with
  | none => return (a, ⟨0, Val.one, false⟩)
  | some k => do
    let b ← if x.sb = x.sa then pure a else (s.epPath k).elem i
    return (a, b)

/-- Operand pairs from element i on, n of them. -/
def redPairs (x : Vec) : Nat → Nat → M (List (Elem × Elem))
  | _, 0 => return []
  | i, n + 1 => do
    let y ← redPair x i
    let ys ← redPairs x (i + 1) n
    return y :: ys

def pairMarked (y : Elem × Elem) : Bool := y.1.marked || y.2.marked
def pairVals (ys : List (Elem × Elem)) : List (Val × Val) := ys.map fun y => (y.1.val, y.2.val)

/-- Block b of row q of a `BlockDot` row of E elements. -/
def dotBlock (x : Vec) (E q b : Nat) : M Unit := do
  let s ← get
  let n := min 32 (E - 32 * b)
  let r0 := s.record 1 q b
  let d ← if b = 0 then oldDest x q else pure ⟨r0.acc, .nan, r0.poison⟩
  let ys ← redPairs x (q * E + 32 * b) n
  let s ← get
  let v := blockStep s.ftz 0 d.code (pairVals ys)
  let f := blockStep s.ftz 0 d.code (pairVals (ys.filter fun y => !pairMarked y))
  let m := d.marked || ys.any pairMarked
  sticky f.2
  if 32 * b + n = E then endRow x 1 q v.1 m
  else set (s.setXr { r0 with col := 32 * (b + 1), acc := v.1, poison := m } |>.modRegs fun g => g.sticky f.2)

/-! ### Integer sums (R157, R158) -/

/-- The signed or unsigned integer of an element of a type. -/
def elemInt (ty : Nat) (e : Elem) : Int :=
  match intFmt ty with
  | some (w, sg) => intOf w sg e.code
  | none => 0

/-- The exact product, or element, of a pair in an integer reduction. -/
def pairInt (x : Vec) (y : Elem × Elem) : Int :=
  elemInt x.ty y.1 * (if x.sb.isSome then elemInt x.ty y.2 else 1)

/-- Element c of row q of a wrapping sum. -/
def wrapUnit (x : Vec) (E q c : Nat) : M Unit := do
  let s ← get
  let r0 := s.record 2 q c
  let d ← if c = 0 then oldDest x q else pure ⟨r0.acc, .nan, r0.poison⟩
  let y ← redPair x (q * E + c)
  let v := wrapNat 32 ((d.code : Int) + pairInt x y)
  let m := d.marked || pairMarked y
  if c + 1 = E then endRow x 2 q v m
  else modify fun s => s.setXr { r0 with col := c + 1, acc := v, poison := m }

/-- A partial sum pushed on the stack of R381, newest first here; equal sizes are joined, the older on the left. -/
def pushTree : Nat → List (Int × Nat) → Int × Nat → List (Int × Nat) × Flags
  | 0, st, x => (x :: st, Flag.none)
  | _ + 1, [], x => ([x], Flag.none)
  | n + 1, y :: st, x =>
    if y.2 = x.2 then
      let r := sat32 (y.1 + x.1)
      let t := pushTree n st (r.1, x.2 + 1)
      (t.1, r.2 ||| t.2)
    else (x :: y :: st, Flag.none)

/-- The stack folded at the row's end, newest first: the older sum stands on the left. -/
def foldTree (st : List (Int × Nat)) : Int × Flags :=
  match st with
  | [] => (0, Flag.none)
  | x :: ys => ys.foldl (fun acc y => let r := sat32 (y.1 + acc.1); (r.1, acc.2 ||| r.2)) (x.1, Flag.none)

/-- Element c of row q of a saturating sum. -/
def satUnit (x : Vec) (E q c : Nat) : M Unit := do
  let s ← get
  let r0 := s.record 3 q c
  let y ← redPair x (q * E + c)
  let t := pushTree 17 r0.stack.reverse (pairInt x y, 0)
  let m := r0.poison || pairMarked y
  sticky t.2
  if c + 1 = E then
    let d ← oldDest x q
    let f := foldTree t.1
    let r := sat32 (toSigned 32 d.code + f.1)
    sticky (f.2 ||| r.2)
    endRow x 3 q (wrapNat 32 r.1) (m || d.marked)
  else modify fun s => s.setXr { r0 with col := c + 1, stack := t.1.reverse, poison := m }

/-! ### Extremes (R154, R157) -/

/-- Does the new element replace the extreme: `up` for the maximum? -/
def beats (ty : Nat) (up : Bool) (new old : Nat) : Bool :=
  match intFmt ty with
  | some (w, sg) => if up then intOf w sg old < intOf w sg new else intOf w sg new < intOf w sg old
  | none =>
    let a := elemVal ty 1 false new
    let b := elemVal ty 1 false old
    if up then b.lt a else a.lt b

/-- Element c of row q of `vrmax` or `vrmin`. -/
def extremeUnit (x : Vec) (up : Bool) (E q c : Nat) : M Unit := do
  let s ← get
  let r0 := s.record 4 q c
  let a ← (s.epPath (x.sa.getD 0)).elem (q * E + c)
  let code := (convert x.ty 0 0 false (8 ≤ x.ty) a.val).1
  let isNan := a.val.isNan
  let r := { r0 with
    col := c + 1, nan := r0.nan || isNan, seen := r0.seen || !isNan, poison := r0.poison || a.marked,
    acc := if isNan then r0.acc else if !r0.seen || beats x.ty up code r0.acc then code else r0.acc }
  if c + 1 = E then endRow x 4 q (if r.nan then (convert x.ty 0 0 false false .nan).1 else r.acc) r.poison
  else modify fun s => s.setXr r

/-! ### Running -/

/-- A reduction element by element over the rows of SA, each of which gives n elements of SD. -/
def rowPlan (s : State) (x : Vec) (kind n : Nat) (unit : Nat → Nat → Nat → M Unit) : Plan :=
  let a := (s.stream (x.sa.getD 0)).epVersion
  let E := a.rowLen
  { kind := kind, units := a.count, first := fun u => u, last := fun u => u, unitOf := fun p => p, main := x.sa.getD 0,
    others := fun u => (x.sd.getD 0, u / E * n) :: (s.followers x (x.sa.getD 0)).map fun k => (k, u),
    unit := fun u => unit E (u / E) (u % E), finish := dropRecord }

/-- A reduction block by block. -/
def blockPlan (s : State) (x : Vec) : Plan :=
  let a := (s.stream (x.sa.getD 0)).epVersion
  let E := a.rowLen
  let nb := ceilDiv E 32
  { kind := 1, units := a.count / E * nb, first := fun u => u / nb * E + 32 * (u % nb),
    last := fun u => u / nb * E + min (32 * (u % nb) + 31) (E - 1), unitOf := fun p => p / E * nb + p % E / 32,
    main := x.sa.getD 0,
    others := fun u => (x.sd.getD 0, u / nb) :: (s.followers x (x.sa.getD 0)).map fun k => (k, u / nb * E + 32 * (u % nb)),
    unit := fun u => dotBlock x E (u / nb) (u % nb), finish := dropRecord }

/-- The plan of a reduction by its function and type (R157). -/
def vredPlan (s : State) (x : Vec) (f : Nat) : Plan :=
  match f with
  | 0 | 1 => if accType x.ty = 0 then blockPlan s x else rowPlan s x 2 1 (wrapUnit x)
  | 2 => rowPlan s x 4 1 (extremeUnit x true)
  | 3 => rowPlan s x 4 1 (extremeUnit x false)
  | _ => rowPlan s x 3 1 (satUnit x)

def runVred (i : Instr) (f : Nat) (s : State) : Answer :=
  match vecOf i with
  | some x => runEp i (fun s => (vredPlan s x f).go s) s
  | none => .next s

def execVrsum (d a f : BitVec 4) (s : State) : Answer := runVred (.vrsum d a f) 0 s
def execVdot (d a b f : BitVec 4) (s : State) : Answer := runVred (.vdot d a b f) 1 s
def execVrmax (d a f : BitVec 4) (s : State) : Answer := runVred (.vrmax d a f) 2 s
def execVrmin (d a f : BitVec 4) (s : State) : Answer := runVred (.vrmin d a f) 3 s
def execVrsums (d a f : BitVec 4) (s : State) : Answer := runVred (.vrsums d a f) 4 s
def execVdots (d a b f : BitVec 4) (s : State) : Answer := runVred (.vdots d a b f) 5 s

end Sys2Proof.Machine
end

