-- ==== Sys2Proof/Machine/Vcvt.lean ====
section
/-!
DEFINITION. Stream conversion: rows, Hadamard groups, block scales, trailers; scalar conversion; the return queue
(R133, R136 to R142, R150, R159, R160, R166 to R168, R381).
-/
namespace Sys2Proof.Machine

/-! ### One conversion, whoever performs it (R160, R163) -/

/-- A conversion: source and destination, destination type, Hadamard form, mode, and the 16 bits of `SrBits` by index. -/
structure Conv where
  src : Path
  dst : Path
  ty : Nat
  had : Nat
  rm : Nat
  sr : Nat → Nat

/-- Elements that are converted together: a block, a Hadamard group, or the larger of the two. -/
def Conv.step (c : Conv) : Nat := max c.dst.desc.blkSize (match c.had with | 1 => 16 | 2 => 32 | _ => 1)

/-- The conversion's value after its optional transform, with its flags and its poison mark. -/
structure CvtIn where
  val : Val
  flags : Flags
  marked : Bool

/-- Source elements from i on. -/
def readElems (p : Path) : Nat → Nat → M (List Elem)
  | _, 0 => return []
  | i, n + 1 => do
    let x ← p.elem i
    let xs ← readElems p (i + 1) n
    return x :: xs

/-- A list cut into parts of n; the fuel is the number of parts. -/
def chunks {α : Type} (n : Nat) : Nat → List α → List (List α)
  | 0, _ => []
  | k + 1, l => l.take n :: chunks n k (l.drop n)

/-- What a group of n becomes: its transform, or free values where COUNT cuts the group short (R140, assumption 60). -/
def groupVals (n : Nat) (ftz : Bool) (g : List Elem) : List (Val × Flags) :=
  if g.length = n then hadamard n ftz (g.map (·.val))
  else (List.range g.length).map fun i =>
    let w := Config.freeHadamard n i (g.map (·.code))
    (fp32.decode (field w 0 32), bits w 32 7)

/-- The transform of R140 on each group. -/
def Conv.transform (c : Conv) (xs : List Elem) : List CvtIn :=
  let n := match c.had with | 1 => 16 | 2 => 32 | _ => 0
  if n = 0 then xs.map fun x => ⟨x.val, Flag.none, x.marked⟩
  else (chunks n (ceilDiv xs.length n) xs).flatMap fun g =>
    (groupVals n c.src.ftz g).map fun y => ⟨y.1, y.2, g.any (·.marked)⟩

/-- An element as converted: encoding, flags, saturations and NaNs counted, poison mark. -/
structure CvtOut where
  code : Nat
  flags : Flags
  sat : Nat
  nan : Nat
  marked : Bool

/-- Elements that share a scale depend on every element of their block: one mark marks them all, and a marked source adds no flag
(R411). -/
def CvtOut.shared (xs : List CvtOut) : List CvtOut :=
  let m := xs.any (·.marked)
  xs.map fun x => { x with flags := if x.marked then Flag.none else x.flags, marked := m }

/-- One block converted: its scale code, none where the destination has no scales, and its elements (R133, R136, R138). -/
def Conv.block (c : Conv) (i : Nat) (xs : List CvtIn) : Option Nat × List CvtOut :=
  let vals := xs.map (·.val)
  let ftz := c.dst.ftz
  let intSrc := 8 ≤ c.src.desc.fmt && c.src.desc.fmt ≤ 12
  if c.ty = 13 then
    let sc := strataScale vals
    (some sc, CvtOut.shared <| xs.zipIdx.map fun x =>
      let r := strataElem sc c.rm (c.sr (i + x.2)) x.1.val
      ⟨r.1, x.1.flags ||| r.2.1, r.2.2.1, r.2.2.2, x.1.marked⟩)
  else if c.dst.desc.blk ≠ 0 then
    let sc := blockScale c.ty vals
    let zero := match maxFinite vals with | .fin _ m _ => m == 0 | _ => true
    (some sc, CvtOut.shared <| xs.zipIdx.map fun x =>
      let r := blockElem c.ty sc c.rm (c.sr (i + x.2)) zero x.1.val
      ⟨r.1, x.1.flags ||| r.2.1, r.2.2.1, r.2.2.2, x.1.marked⟩)
  else (none, xs.zipIdx.map fun x =>
      let r := convert c.ty c.rm (c.sr (i + x.2)) ftz intSrc x.1.val
      let sat := if 8 ≤ c.ty then !intSrc && r.2 &&& Flag.nv != 0 && !x.1.val.isNan else r.2 &&& Flag.sa != 0
      ⟨r.1, if x.1.marked then Flag.none else x.1.flags ||| r.2, if sat then 1 else 0, if x.1.val.isNan then 1 else 0, x.1.marked⟩)

/-- Elements written in order. -/
def Conv.putAll (c : Conv) : Nat → List CvtOut → M Unit
  | _, [] => return ()
  | i, x :: xs => do
    c.dst.put i x.code x.marked
    c.putAll (i + 1) xs

/-- Largest magnitude so far as FP32: NaN ignored, infinity above all (R141).  FTZ does not flush it, and its rounding sets no
flag (assumption 63). -/
def maxAbsOf (old : Nat) (xs : List Val) : Nat :=
  xs.foldl (fun a v => if v.isNan then a else max a (roundFloat fp32 0 0 false false v.abs).1) old

/-- Blocks converted and written: each block's elements, then its scale entry, which for a group that COUNT cuts short rests on the free
values that stand for its elements (assumption 60). -/
def Conv.putBlocks (c : Conv) : Nat → List (List CvtIn) → M (List CvtOut)
  | _, [] => return []
  | i, g :: gs => do
    let r := c.block i g
    c.putAll i r.2
    let _ ← match r.1 with
      | some sc => c.dst.putScale i sc
      | none => pure ()
    let t ← c.putBlocks (i + g.length) gs
    return r.2 ++ t

/-- At a row's end the bytes that were not counted element by element enter the CRC registers (R141). -/
def Conv.endRow (c : Conv) (r : ExecRecord) (q : Nat) : M ExecRecord := do
  let v := c.dst.desc
  if !v.trl then return r
  else
    let es ← if v.packed then c.dst.readAll (v.rowBytes q) else pure ([], false)
    let ms ← c.dst.readAll (v.metaBytes q)
    return { r with
      crcE := crcRun r.crcE es.1, elemBytes := r.elemBytes + es.1.length,
      crcM := crcRun r.crcM ms.1, metaBytes := r.metaBytes + ms.1.length }

/-- One unit from element i on: read, transformed, converted, written and counted; the answer holds the record and the
flags.  Rows, groups and blocks are those of the destination, whatever EXTENT the source has (assumption 60).  A source that the
destination overlaps within a row is read unit by unit, each unit before it is written (assumption 79). -/
def Conv.unit (c : Conv) (r : ExecRecord) (i : Nat) : M (ExecRecord × Flags) := do
  let v := c.dst.desc
  let n := min c.step (v.count - i)
  let xs ← readElems c.src i n
  let ys := c.transform xs
  let out ← c.putBlocks i (chunks v.blkSize (ceilDiv n v.blkSize) ys)
  let bytes := if v.trl && !v.packed then out.flatMap fun o => leBytes v.elemBytes o.code else []
  let r1 := { r with
    kind := 6, row := v.rowOf i, col := v.colOf i + n,
    maxAbs := maxAbsOf r.maxAbs ((ys.filter fun y => !y.marked).map (·.val)),
    satCnt := min (r.satCnt + (out.map (·.sat)).sum) (2 ^ 32 - 1),
    nanCnt := min (r.nanCnt + (out.map (·.nan)).sum) 65535,
    crcE := crcRun r.crcE bytes, elemBytes := r.elemBytes + bytes.length }
  let fl := out.foldl (fun f o => f ||| o.flags) Flag.none
  if v.colOf (i + n) = 0 ∨ i + n = v.count then
    let r2 ← c.endRow r1 (v.rowOf i)
    return ({ r2 with row := v.rowOf i + 1, col := 0 }, fl)
  else return (r1, fl)

/-- The register over the element bytes, the metadata bytes and more: the parts joined by linearity. -/
def joinCrc (r : ExecRecord) (more : List Byte) : Word32 :=
  let a := crcRun (r.crcE ^^^ 0xFFFFFFFF#32) (List.replicate r.metaBytes 0) ^^^ r.crcM
  ~~~(crcRun a more)

/-- The trailer of the destination, written last (R141, R142). -/
def Conv.trailer (c : Conv) (r : ExecRecord) : M Unit := do
  let v := c.dst.desc
  if v.trl then
    let head := trailerHead v r.maxAbs r.satCnt r.nanCnt
    c.dst.write v.trailerAt (head ++ leBytes 4 (joinCrc r head).toNat) false

/-! ### `vcvt` -/

/-- The conversion of a word on the EP. -/
def State.convOf (s : State) (x : Vec) (had : Nat) : Conv :=
  ⟨s.epPath (x.sa.getD 0), s.epDest (x.sd.getD 0), x.ty, had, x.rm, s.srOf⟩

/-- The record that a `vcvt` goes on with. -/
def State.cvtRecord (s : State) (i : Nat) : ExecRecord := if i = 0 then { ExecRecord.none with kind := 6 } else s.xr

def cvtUnit (x : Vec) (had i : Nat) : M Unit := do
  let s ← get
  let r ← (s.convOf x had).unit (s.cvtRecord i) i
  sticky r.2
  modify fun s => s.setXr r.1

def cvtFinish (x : Vec) (had : Nat) : M Unit := do
  let s ← get
  (s.convOf x had).trailer s.xr
  modify fun s => s.setXr ExecRecord.none

def cvtPlan (s : State) (x : Vec) (had : Nat) : Plan :=
  let a := (s.stream (x.sa.getD 0)).epVersion
  let n := (s.convOf x had).step
  { kind := 6, units := ceilDiv a.count n, first := fun u => u * n, last := fun u => min (u * n + n) a.count - 1,
    unitOf := fun p => p / n, main := x.sa.getD 0, others := fun u => [(x.sd.getD 0, u * n)],
    unit := fun u => cvtUnit x had (u * n), finish := cvtFinish x had }

def runVcvt (i : Instr) (had : Nat) (s : State) : Answer :=
  match vecOf i with
  | some x => runEp i (fun s => (cvtPlan s x had).go s) s
  | none => .next s

def execVcvt (d a f : BitVec 4) (r : BitVec 3) (s : State) : Answer := runVcvt (.vcvt d a f r) 0 s
def execVcvtH16 (d a f : BitVec 4) (r : BitVec 3) (s : State) : Answer := runVcvt (.vcvtH16 d a f r) 1 s
def execVcvtH32 (d a f : BitVec 4) (r : BitVec 3) (s : State) : Answer := runVcvt (.vcvtH32 d a f r) 2 s

/-! ### Scalar conversion (R64, R166) -/

/-- A scalar type of R64: an integer of a width, or a floating-point format. -/
inductive ScalarTy where
  | int (w : Nat) (signed : Bool)
  | float (fmt : Nat)

def scalarTy (t : BitVec 3) : ScalarTy :=
  match t.toNat with
  | 0 => .int 64 true
  | 1 => .int 64 false
  | 2 => .int 32 true
  | 3 => .float 0
  | 4 => .float 1
  | 5 => .float 2
  | 6 => .float 3
  | _ => .float 4

/-- The value of the source bits. -/
def ScalarTy.value (t : ScalarTy) (ftz : Bool) (x : Word) : Val :=
  match t with
  | .int w sg => Val.ofInt (intOf w sg x.toNat)
  | .float f => elemVal f 1 ftz (x.toNat % 2 ^ fmtBits f)

/-- RoundTo and Place: the register's 64 bits, and the flags.  An integer that the destination cannot hold sets SA, as R133 says, and not NV
(assumption 49). -/
def ScalarTy.place (t : ScalarTy) (intSrc : Bool) (rm sr : Nat) (ftz : Bool) (x : Val) : Word × Flags :=
  match t with
  | .int w sg =>
    if intSrc then
      match x with
      | .fin s m _ => let r := satInt (intLo w sg) (intHi w sg) (if s then -(m : Int) else m); (BitVec.ofInt 64 r.1, r.2)
      | _ => (0, Flag.nv)
    else let r := roundInt (intLo w sg) (intHi w sg) rm sr x; (BitVec.ofInt 64 r.1, r.2)
  | .float f => let r := convert f rm sr ftz false x; (BitVec.ofNat 64 r.1, r.2)

def ScalarTy.isInt : ScalarTy → Bool
  | .int .. => true
  | .float _ => false

def execCvt (d a : BitVec 6) (r t f : BitVec 3) (s : State) : Answer :=
  runEp (.cvt d a r t f) (do
    let x ← readEp a.toNat
    let s ← get
    let v := (scalarTy f).value s.ftz x
    let y := (scalarTy t).place (scalarTy f).isInt r.toNat (s.srOf 0) s.ftz v
    sticky y.2
    modify fun s => s.ewrite d.toNat y.1
    return .seq) s

/-! ### The return queue (R12, R167, R168) -/

def execXpush (a : BitVec 6) (w : BitVec 4) (s : State) : Answer :=
  runEp (.xpush a w) (do
    let x ← readEp a.toNat w.toNat
    let s ← get
    blockIf (s.strand.queues.xq.length ≥ 32) { cls := w.toNat, kind := 1, obj := 9 }
    set (s.modQueues fun z => { z with xq := z.xq ++ [x] })
    return .seq) s

def execXpop (d : BitVec 6) (w : BitVec 4) (s : State) : Answer :=
  runAp (.xpop d w) (do
    let s ← get
    match s.strand.queues.xq with
    | [] => block { cls := w.toNat, kind := 0, obj := 9, tally := 1 }
    | x :: rest =>
      set (s.modQueues fun z => { z with xq := rest })
      wrA d x
      return .seq) s

end Sys2Proof.Machine
end

