-- ==== Sys2Proof/Machine/Vdec.lean ====
section
/-!
DEFINITION. The deciding instructions outside chains (R187, R188, R381).
-/
namespace Sys2Proof.Machine

/-! ### Element by element (R187) -/

/-- An exact value as an encoding of the type. -/
def decCode (ty : Nat) (v : Val) : Nat := (convert ty 0 0 false (8 ≤ ty) v).1

/-- -∞ of the type, its minimum for an I type. -/
def lowest (ty : Nat) : Nat :=
  match intFmt ty with
  | some (w, sg) => wrapNat w (intLo w sg)
  | none => decCode ty (.inf true)

/-- The sign function: -1, +0, +1, or the canonical NaN. -/
def signVal (a : Val) : Val :=
  if a.isNan then .nan
  else if a.ltNum (.zero false) then .fin true 1 0
  else if (Val.zero false).ltNum a then Val.one else .zero false

/-- The result of `vsign`, `vcmpgt`, `vcmpge`, `vcmpeq` or `vthr` by function number. -/
def decResult (f ty : Nat) (a b : Val) : Nat :=
  match f with
  | 0 => decCode ty (signVal a)
  | 1 => if b.ltNum a then 1 else 0
  | 2 => if b.ltNum a || a.eqNum b then 1 else 0
  | 3 => if a.eqNum b then 1 else 0
  | _ => if b.ltNum a || a.eqNum b then decCode ty a else lowest ty

def vdecUnit (x : Vec) (f j : Nat) : M Unit := do
  let p := (← get).epDest (x.sd.getD 0)
  let ab ← srcPair x j
  p.put j (decResult f x.ty ab.1.val ab.2.val) (ab.1.marked || ab.2.marked)

/-! ### Reducing forms (R188) -/

/-- A candidate put into a list of the best, best first: after every candidate that it does not beat. -/
def insertBest (ty : Nat) (up : Bool) (x : Nat × Nat) : List (Nat × Nat) → List (Nat × Nat)
  | [] => [x]
  | y :: ys => if beats ty up x.2 y.2 then x :: y :: ys else y :: insertBest ty up x ys

/-- The winner's encoding as a 32-bit value element. -/
def pairValue (ty code : Nat) : Nat :=
  match intFmt ty with
  | some (w, true) => wrapNat 32 (toSigned w code)
  | _ => code

/-- The k pairs of a row; those without an element hold no index and the canonical NaN. -/
def pairsOf (ty k : Nat) (best : List (Nat × Nat)) : List (Nat × Nat) :=
  (List.range k).map fun i => match best[i]? with
    | some x => (x.1, pairValue ty x.2)
    | none => (0xFFFFFFFF, decCode ty .nan)

/-- Pairs written from pair number n on. -/
def putPairs (p : Path) (marked : Bool) : Nat → List (Nat × Nat) → M Unit
  | _, [] => return ()
  | n, x :: xs => do
    p.put (2 * n) x.1 marked
    p.put (2 * n + 1) x.2 marked
    putPairs p marked (n + 1) xs

/-- Element c of row q of a reducing form that keeps the k best; a last row that COUNT cuts short ends with it (R117, R187). -/
def bestUnit (x : Vec) (up : Bool) (k E q c : Nat) : M Unit := do
  let s ← get
  let r0 := s.record 5 q c
  let a ← (s.epPath (x.sa.getD 0)).elem (q * E + c)
  let best := if a.val.isNan then r0.cand else (insertBest x.ty up (c, decCode x.ty a.val) r0.cand).take k
  let m := r0.poison || a.marked
  if c + 1 = E ∨ q * E + c + 1 = (s.stream (x.sa.getD 0)).epVersion.count then
    putPairs ((← get).epDest (x.sd.getD 0)) m (q * k) (pairsOf x.ty k best)
    modify fun s => s.setXr (ExecRecord.start 5 (q + 1))
  else modify fun s => s.setXr { r0 with col := c + 1, cand := best, poison := m }

/-- The plan of a deciding word. -/
def vdecPlan (s : State) (x : Vec) (f : Nat) : Plan :=
  match f with
  | 5 => rowPlan s x 5 2 (bestUnit x true 1)
  | 6 => rowPlan s x 5 2 (bestUnit x false 1)
  | 7 =>
    let k := topK (s.stream (x.sd.getD 0)).epVersion (s.stream (x.sa.getD 0)).epVersion
    rowPlan s x 5 (2 * k) (bestUnit x true k)
  | _ => elemPlan s x (vdecUnit x f)

def runVdec (i : Instr) (f : Nat) (s : State) : Answer :=
  match vecOf i with
  | some x => runEp i (fun s => (vdecPlan s x f).go s) s
  | none => .next s

def execVsign (d a f : BitVec 4) (r : BitVec 3) (s : State) : Answer := runVdec (.vsign d a f r) 0 s
def execVcmpgt (d a b f : BitVec 4) (r : BitVec 3) (s : State) : Answer := runVdec (.vcmpgt d a b f r) 1 s
def execVcmpge (d a b f : BitVec 4) (r : BitVec 3) (s : State) : Answer := runVdec (.vcmpge d a b f r) 2 s
def execVcmpeq (d a b f : BitVec 4) (r : BitVec 3) (s : State) : Answer := runVdec (.vcmpeq d a b f r) 3 s
def execVthr (d a b f : BitVec 4) (r : BitVec 3) (s : State) : Answer := runVdec (.vthr d a b f r) 4 s
def execVargmax (d a f : BitVec 4) (r : BitVec 3) (s : State) : Answer := runVdec (.vargmax d a f r) 5 s
def execVargmin (d a f : BitVec 4) (r : BitVec 3) (s : State) : Answer := runVdec (.vargmin d a f r) 6 s
def execVtopk (d a f : BitVec 4) (r : BitVec 3) (s : State) : Answer := runVdec (.vtopk d a f r) 7 s

end Sys2Proof.Machine
end

