-- ==== Sys2Proof/Machine/Chain.lean ====
section
/-!
DEFINITION. Chains: their structure, digits, bounds, decisions, cancellation, passes and writes (R173 to R192).
-/
namespace Sys2Proof.Machine

/-! ### Structure (R179 to R181) -/

/-- A link: its word's address, and what the word names. -/
structure Link where
  addr : BitVec 56
  vec : Vec

/-- The kinds of links: producing digits, passing a value, choosing, thresholding, comparing, reducing. -/
inductive LinkKind where
  | digit | value | choose | threshold | compare | reduce
deriving DecidableEq

def Vec.linkKind (x : Vec) : LinkKind :=
  match x.kind with
  | .vop f => if f < 6 then .digit else if f = 8 ∨ f = 9 then .choose else .value
  | .vdec f => if f < 4 then .compare else if f = 4 then .threshold else .reduce
  | _ => .value

/-- May the word be a link (R179)? -/
def Vec.linkOk (x : Vec) : Bool :=
  x.ty < 3 && match x.kind with
    | .vop f => f ≤ 10
    | .vdec _ => true
    | _ => false

/-- The function number of a link. -/
def Vec.fn (x : Vec) : Nat :=
  match x.kind with
  | .vop f | .vdec f => f
  | _ => 0

/-- Does a link read the stream k as SA or SB? -/
def Vec.reads (x : Vec) (k : Nat) : Bool := x.sa == some k || x.sb == some k

/-- Does a link after the links `prev` break R180? -/
def linkBreaks (prev : List Link) (x : Vec) : Bool :=
  !x.linkOk || 8 ≤ prev.length ||
  prev.any fun l =>
    l.vec.sd == x.sd || l.vec.linkKind == .reduce ||
    (l.vec.linkKind == .compare && x.reads (l.vec.sd.getD 0)) ||
    (x.kind == .vop 4 && x.sb == l.vec.sd) || (x.kind == .vop 5 && x.sa == l.vec.sd)

/-- A chain as its words stand in the image: its links, the address of `chain.e` and its number of words. -/
structure Chain where
  links : List Link
  last : BitVec 56
  words : Nat

/-- The words from an address on, to `chain.e`; none where they break R180; fuel many words are read. -/
def Image.chainFrom (m : Image) : Nat → BitVec 56 → List Link → Nat → Option Chain
  | 0, _, _, _ => none
  | n + 1, pc, ls, k =>
    match (m.word pc).map decodeStrand with
    | some (.ok .chainE) => if ls.isEmpty then none else some ⟨ls, pc, k + 1⟩
    | some (.ok (.hint ..)) => m.chainFrom n (pc + 4) ls (k + 1)
    | some (.ok i) =>
      match vecOf i with
      | some x => if strandWf i && !linkBreaks ls x then m.chainFrom n (pc + 4) (ls ++ [⟨pc, x⟩]) (k + 1) else none
      | none => none
    | _ => none

/-- The chain whose `chain.b` stands at an address. -/
def Image.chain (m : Image) (pc : BitVec 56) : Option Chain := m.chainFrom (m.bytes.length / 4) (pc + 4) [] 1

/-- The links from `chain.b` up to an address. -/
def Image.linksTo (m : Image) (pc : BitVec 56) : Nat → BitVec 56 → List Link
  | 0, _ => []
  | n + 1, at_ =>
    if at_ = pc then []
    else match ((m.word at_).map decodeStrand) with
      | some (.ok i) => match vecOf i with
        | some x => ⟨at_, x⟩ :: m.linksTo pc n (at_ + 4)
        | none => m.linksTo pc n (at_ + 4)
      | _ => []

/-- Where an operand of a link comes from: outside, or an earlier link (R181). -/
inductive Ref where
  | none
  | ext (k : Nat)
  | link (j : Nat)
deriving DecidableEq

/-- The earlier link whose SD is the stream. -/
def linkOf (prev : List Link) (k : Option Nat) : Ref :=
  match k with
  | none => .none
  | some k => match prev.findIdx? fun l => l.vec.sd == some k with
    | some j => .link j
    | none => .ext k

/-- A link as the lanes run it: operands a, b and d, delay Δ of R190, and whether its destination is written. -/
structure Stage where
  vec : Vec
  addr : BitVec 56
  a : Ref
  b : Ref
  d : Ref
  delta : Nat
  total : Nat
  written : Bool

def Stage.refs (g : Stage) : List Ref := [g.a, g.b, g.d]

/-- δ of R173. -/
def linkDelay (x : Vec) : Nat :=
  match x.kind with
  | .vop 0 | .vop 1 => 2
  | .vop 2 | .vop 3 => 3
  | .vop 4 | .vop 5 => 4
  | _ => 0

/-- Δ of a reference among stages. -/
def totalOf (gs : List Stage) : Ref → Nat
  | .link j => (gs[j]?.map (·.total)).getD 0
  | _ => 0

/-- The stages of a chain; the first list is what has been made, the second what is left. -/
def Chain.stagesFrom (c : Chain) : List Stage → List Link → List Stage
  | gs, [] => gs
  | gs, l :: ls =>
    let prev := c.links.take gs.length
    let a := linkOf prev l.vec.sa
    let b := linkOf prev l.vec.sb
    let d := if l.vec.kind = .vop 3 then (match l.vec.sd with | some k => Ref.ext k | none => .none) else .none
    let δ := linkDelay l.vec
    let used := ls.any fun m => m.vec.reads (l.vec.sd.getD 16)
    c.stagesFrom (gs ++ [⟨l.vec, l.addr, a, b, d, δ, δ + max (totalOf gs a) (totalOf gs b), !used⟩]) ls

def Chain.stages (c : Chain) : List Stage := c.stagesFrom [] c.links

/-- The streams read from outside, in link order, each once. -/
def externals (gs : List Stage) : List Nat :=
  (gs.flatMap Stage.refs).foldl (fun ks r => match r with
    | .ext k => if ks.contains k then ks else ks ++ [k]
    | _ => ks) []

/-- Steps from entry until every link is complete (R190). -/
def lastStep (gs : List Stage) : Nat :=
  if gs.any fun g => g.vec.linkKind == .digit then 16 + (gs.map (·.total)).foldl max 0 else 1

/-! ### Values of one lane (R173 to R177, R183) -/

/-- What a lane knows of itself: the stages, FTZ, and its entries. -/
structure Lane where
  gs : List Stage
  ftz : Bool
  es : List LaneLink

def LaneLink.empty : LaneLink := ⟨0, 0, 0, 0, [], 0, 0, 0, 0, 0⟩

def Lane.stage (l : Lane) (j : Nat) : Option Stage := l.gs[j]?
def Lane.entry (l : Lane) (j : Nat) : LaneLink := l.es[j]?.getD LaneLink.empty

/-- A latched operand of link j: 0 a, 1 b, 2 d. -/
def Lane.latched (l : Lane) (j op : Nat) : Val :=
  let e := l.entry j
  let w := match op with | 0 => e.opa | 1 => e.opb | _ => e.opd
  elemVal ((l.stage j).map (·.vec.ty) |>.getD 0) 1 l.ftz w.toNat

/-- Σ d(i) 4^(n-i) over the first n digits. -/
def digitSum : List Int → Int
  | ds => ds.foldl (fun z d => 4 * z + d) 0

/-- A dyadic number. -/
def dyadic (m : Int) (e : Int) : Val := if m = 0 then .zero false else .fin (m < 0) m.natAbs e

/-- The value of the first n digits: 2^(X+2) times Z(n). -/
def LaneLink.partial_ (e : LaneLink) (n : Nat) : Val := dyadic (digitSum (e.dig.take n)) (e.xe + 2 - 2 * n)

/-- A partial value and three times its bound; no bound stands for +∞ (R183). -/
structure Part where
  p : Val
  h : Option Val

def Part.exact (v : Val) : Part := ⟨v, some (.zero false)⟩

def vsum (a b : Val) : Val := (a.add 0 b).1
def three : Val := .fin false 3 0

/-- Three times the upper and lower end of a part. -/
def Part.hi (x : Part) : Option Val := x.h.map fun h => vsum (three.mul x.p).1 h
def Part.lo (x : Part) : Option Val := x.h.map fun h => vsum (three.mul x.p).1 h.neg

def Val.isFinite : Val → Bool
  | .fin .. => true
  | _ => false

/-- Is a part special: no number, or not bounded (R174)? -/
def Part.special (x : Part) : Bool := !x.p.isFinite || x.h.isNone

/-- Is it one value, and which? -/
def Part.known (x : Part) : Option Val :=
  match x.h with
  | some (.fin _ 0 _) => some x.p
  | _ => none

/-- Sign of every value within a part's bounds; none where it is not settled. -/
def Part.sign (x : Part) : Option Bool :=
  match x.lo, x.hi with
  | some lo, some hi =>
    if (Val.zero false).ltNum lo then some false else if hi.ltNum (.zero false) then some true else none
  | _, _ => none

def Part.isZero (x : Part) : Bool := match x.known with | some (.fin _ 0 _) => true | _ => false
def Part.bounded (x : Part) : Bool := x.p.isFinite && x.h.isSome

def Part.open_ : Part := ⟨.zero false, none⟩
def Part.neg (x : Part) : Part := ⟨x.p.neg, x.h⟩

/-- A sum of parts one of which is special (R183, last row). -/
def specialSum (a b : Part) : Part :=
  if a.p.isNan || b.p.isNan then .exact .nan
  else match a.p.isInf, b.p.isInf with
    | true, true => .exact (vsum a.p b.p)
    | true, false => if b.bounded then .exact a.p else .open_
    | false, true => if a.bounded then .exact b.p else .open_
    | false, false => .open_

/-- A product of parts one of which is special. -/
def specialProduct (a b : Part) : Part :=
  if a.p.isNan || b.p.isNan then .exact .nan
  else if a.p.isInf || b.p.isInf then
    (if a.isZero || b.isZero then .exact .nan
     else match a.sign, b.sign with
       | some s, some t => .exact (.inf (s != t))
       | _, _ => .open_)
  else .open_

/-- A quotient by an external divisor, one of the two special or the divisor 0. -/
def specialQuotient (a : Part) (b : Val) : Part :=
  if a.p.isNan || b.isNan then .exact .nan
  else match b with
    | .inf _ => if a.p.isInf then .exact .nan else if a.bounded then .exact (.zero false) else .open_
    | .fin t n _ =>
      if n = 0 ∧ a.isZero then .exact .nan
      else match a.sign with
        | some s => if n = 0 || a.p.isInf then .exact (.inf (s != t)) else .open_
        | none => .open_
    | .nan => .exact .nan

/-- The part of a link that R174 evaluates, from the parts of its inputs. -/
def specialPart (f : Nat) (a b d : Part) : Part :=
  match a.known, b.known, d.known with
  | some x, some y, some z => .exact (vopReal f 0 x y z).1
  | _, _, _ => match f with
    | 0 => specialSum a b
    | 1 => specialSum a b.neg
    | 2 => specialProduct a b
    | 3 =>
      if a.special || b.special then
        (match (specialProduct a b).known with
         | some v => specialSum (.exact v) d
         | none => .open_)
      else if d.p.isNan || d.p.isInf then .exact d.p else .open_
    | 4 => specialQuotient a b.p
    | _ => .open_

/-- Minimum or maximum of two parts, undecided: the larger bound. -/
def choosePart (f : Nat) (a b : Part) : Part :=
  if a.p.isNan || b.p.isNan then .exact .nan
  else ⟨if f = 9 then vmaxVal a.p b.p else vminVal a.p b.p,
    match a.h, b.h with
    | some x, some y => some (if x.lt y then y else x)
    | _, _ => none⟩

/-- The most digits that have been taken beneath a reference, 0 where it rests on none. -/
def Lane.taken (l : Lane) : Nat → Ref → Nat
  | n + 1, .link i =>
    match l.stage i with
    | none => 0
    | some g => if g.vec.linkKind = .digit then (l.entry i).pos else max (l.taken n g.a) (l.taken n g.b)
  | _, _ => 0

/-- The step from which the decision of link i holds: that at which it was made, and every step where no digits were needed
for it (R183, R184). -/
def Lane.since (l : Lane) (i : Nat) : Nat := min (l.entry i).pos (l.taken 9 (.link i))

/-- The decision of link i as it stands at step k, 0 before it is made. -/
def Lane.decAt (l : Lane) (k i : Nat) : Nat := if l.since i ≤ k then (l.entry i).dec else 0

/-- P(k) and H(k) of operand `op` of link j (R183); the fuel is the number of links above.  An input that has not produced k digits stands
with those that it has (assumption 88). -/
def Lane.part (l : Lane) (k : Nat) : Nat → Nat → Nat → Ref → Part
  | _, j, op, .ext _ => .exact (l.latched j op)
  | _, _, _, .none => .exact (.zero false)
  | 0, _, _, .link _ => .open_
  | n + 1, _, _, .link i =>
    match l.stage i with
    | none => .open_
    | some g =>
      let e := l.entry i
      let a := l.part k n i 0 g.a
      let b := l.part k n i 1 g.b
      match g.vec.linkKind with
      | .digit =>
        if e.st = 4 then specialPart g.vec.fn a b (l.part k n i 2 g.d)
        else
          let m := min k e.pos
          ⟨e.partial_ m, some (if 16 ≤ m then .zero false else .fin false 1 (e.xe + 3 - 2 * m))⟩
      | .value => match g.vec.fn with
        | 6 => a.neg
        | 7 => ⟨a.p.abs, a.h⟩
        | _ => a
      | .choose => match l.decAt k i with
        | 1 => a
        | 2 => b
        | _ => choosePart g.vec.fn a b
      | .threshold =>
        let d := l.decAt k i
        if d = 2 || (d = 0 && (a.p.isNan || b.p.isNan)) then .exact (.inf true) else a
      | _ => .open_

/-- The final value of an operand, once it is known (R177, R183). -/
def Lane.final (l : Lane) : Nat → Nat → Nat → Ref → Option Val
  | _, j, op, .ext _ => some (l.latched j op)
  | _, _, _, .none => some (.zero false)
  | 0, _, _, .link _ => none
  | n + 1, _, _, .link i =>
    match l.stage i with
    | none => none
    | some g =>
      let e := l.entry i
      let a := l.final n i 0 g.a
      let b := l.final n i 1 g.b
      match g.vec.linkKind with
      | .digit =>
        if e.st = 4 then
          match a, b, l.final n i 2 g.d with
          | some x, some y, some z => some (vopReal g.vec.fn g.vec.rm x y z).1
          | _, _, _ => none
        else if e.pos = 16 then some (e.partial_ 16) else none
      | .value => a.map fun v => match g.vec.fn with
        | 6 => v.neg
        | 7 => v.abs
        | _ => v
      | .choose => match e.dec with
        | 1 => a
        | 2 => b
        | _ => if e.st = 4 then some .nan else none
      | .threshold => match e.dec with
        | 1 => a
        | 2 => some (.inf true)
        | _ => none
      | .compare => if e.st = 4 then some .nan else none
      | .reduce => none

/-- Parts and final values of the operands of link j. -/
def Lane.parts (l : Lane) (k j : Nat) (g : Stage) : Part × Part × Part :=
  (l.part k 8 j 0 g.a, l.part k 8 j 1 g.b, l.part k 8 j 2 g.d)
def Lane.finals (l : Lane) (j : Nat) (g : Stage) : Option Val × Option Val × Option Val :=
  (l.final 8 j 0 g.a, l.final 8 j 1 g.b, l.final 8 j 2 g.d)

/-- Does a reference rest on digits that are still being produced, and the most steps taken among them (R183)? -/
def Lane.digitSteps (l : Lane) : Nat → Ref → Option Nat
  | 0, _ => none
  | n + 1, .link i =>
    match l.stage i with
    | none => none
    | some g =>
      if g.vec.linkKind = .digit ∧ (l.entry i).st ≠ 4 then some (l.entry i).pos
      else match l.digitSteps n g.a, l.digitSteps n g.b with
        | some x, some y => some (max x y)
        | some x, none => some x
        | none, y => y
  | _ + 1, _ => none

/-- The step of link j (R183). -/
def Lane.stepOf (l : Lane) (j : Nat) : Nat := (l.digitSteps 9 (.link j)).getD 16

/-! ### Digits (R175, R176) -/

/-- The largest integer at or below m times 2^e. -/
def floorShift (m : Int) (e : Int) : Int := if 0 ≤ e then m * 2 ^ e.toNat else m / 2 ^ (-e).toNat

/-- The largest integer at or below a value times 2^c. -/
def floorVal (v : Val) (c : Int) : Int :=
  match v with
  | .fin s m e => floorShift (if s then -(m : Int) else m) (e + c)
  | _ => 0

/-- The largest integer at or below a/b times 2^c. -/
def floorQuot (a b : Val) (c : Int) : Int :=
  match a, b with
  | .fin s m e, .fin t n f =>
    let x : Int := if s != t then -(m : Int) else m
    let k := e - f + c
    if 0 ≤ k then x * 2 ^ k.toNat / n else x / (n * 2 ^ (-k).toNat : Nat)
  | _, _ => 0

/-- The largest integer at or below √a times 2^c. -/
def floorRoot (a : Val) (c : Int) : Int := Val.isqrt (floorVal a (2 * c)).toNat

/-- The largest integer at or below F times 2^c. -/
def floorFn (f : Nat) (a b d : Val) (c : Int) : Int :=
  match f with
  | 4 => floorQuot a b c
  | 5 => floorRoot a c
  | _ => floorVal (vopReal f 0 a b d).1 c

/-- `Sel` of R176. -/
def sel (s : Int) : Int :=
  if 13 ≤ s then 2 else if 4 ≤ s then 1 else if -4 ≤ s then 0 else if -13 ≤ s then -1 else -2

/-- floor(2^g · 4^j · (F / 2^(X+2) - Z)), where Z is the value of the digits so far and j their number plus `next`. -/
def scaledRest (f : Nat) (a b d : Val) (e : LaneLink) (g next : Nat) : Int :=
  let j := e.pos + next
  floorFn f a b d (g + 2 * j - e.xe - 2) - 2 ^ (g + 2 * next) * digitSum e.dig

/-- The residual RES of R193. -/
def residual (f : Nat) (a b d : Val) (e : LaneLink) : Int := scaledRest f a b d e 12 0

/-- Is F the value of the 16 digits exactly? -/
def digitsExact (f : Nat) (a b d : Val) (e : LaneLink) : Bool :=
  let i := e.partial_ 16
  match f with
  | 4 => (i.mul b).1.eqNum a
  | 5 => !i.ltNum (.zero false) && (i.mul i).1.eqNum a
  | _ => (vopReal f 0 a b d).1.eqNum i

/-- Link exponents (R173): floor of log2, and -131,072 for zero and for an infinity or a NaN, to which the table gives none (assumption
87). -/
def extExp : Val → Int
  | .fin _ m e => if m = 0 then -131072 else e + m.log2
  | _ => -131072

def Lane.refExp (l : Lane) (j op : Nat) (r : Ref) : Int :=
  match r with
  | .link i => (l.entry i).xe
  | .ext _ => extExp (l.latched j op)
  | .none => -131072

/-- X of a link; above 131,071 come only links whose value needs no digits (R173, assumption 87). -/
def linkExp (f : Nat) (k : LinkKind) (a b d : Int) : Int :=
  min 131071 (max (-131072) (match k, f with
    | .digit, 2 => a + b + 1
    | .digit, 3 => max (a + b + 1) d + 1
    | .digit, 4 => a - b
    | .digit, 5 => -((1 - a) / 2)
    | .digit, _ => max a b + 1
    | .choose, _ => max a b
    | _, _ => a))

/-- Is a link special as the element enters: a divisor of 0, or the root of a negative number (R174)? -/
def specialEntry (f : Nat) (a b : Val) : Bool :=
  match f, a, b with
  | 4, _, .fin _ n _ => n == 0
  | 5, .fin s m _, _ => s && m != 0
  | _, _, _ => false

/-- The entry of link j as the element enters; the lane holds those of the links before. -/
def Lane.latch (l : Lane) (j : Nat) (g : Stage) (opa opb opd : Word32) : LaneLink :=
  let e0 : LaneLink := ⟨1, 0, 0, 0, [], opa, opb, opd, 0, 0⟩
  let l1 : Lane := { l with es := l.es ++ [e0] }
  let x := linkExp g.vec.fn g.vec.linkKind (l1.refExp j 0 g.a) (l1.refExp j 1 g.b) (l1.refExp j 2 g.d)
  let sp := g.vec.linkKind == .digit && specialEntry g.vec.fn (l1.latched j 0) (l1.latched j 1)
  { e0 with xe := x, st := if sp then 4 else 1 }

/-- One link in one clk, t clk after the exponents were latched: a digit, or the change to a special link. -/
def Lane.emit (l : Lane) (t j : Nat) (g : Stage) : LaneLink :=
  let e := l.entry j
  let n := t - g.total
  if e.st != 1 then e
  else
    let x := l.parts (n + g.delta) j g
    if x.1.special || x.2.1.special || x.2.2.special then { e with st := 4 }
    else if t ≤ g.total || 16 < n then e
    else
      let d := sel (scaledRest g.vec.fn x.1.p x.2.1.p x.2.2.p e 3 1)
      let e1 := { e with dig := e.dig ++ [d], pos := e.pos + 1 }
      if e1.pos = 16 then { e1 with st := 5 } else e1

/-! ### Decisions (R184) -/

def optLt (a b : Option Val) : Bool :=
  match a, b with
  | some x, some y => x.ltNum y
  | _, _ => false
def optLe (a b : Option Val) : Bool :=
  match a, b with
  | some x, some y => x.ltNum y || x.eqNum y
  | _, _ => false

/-- The decision on exact final values; 0 with a NaN in a choosing link or a sign (R184, R187). -/
def exactDecision (x : Vec) (a b : Val) : Nat :=
  match x.linkKind, x.fn with
  | .threshold, _ => if b.ltNum a || a.eqNum b then 1 else 2
  | .choose, 9 => if a.isNan || b.isNan then 0 else if a.lt b then 2 else 1
  | .choose, _ => if a.isNan || b.isNan then 0 else if b.lt a then 2 else 1
  | _, 0 => if a.isNan then 0 else if a.ltNum (.zero false) then 1 else if (Val.zero false).ltNum a then 3 else 2
  | _, 1 => if b.ltNum a then 1 else 2
  | _, 2 => if b.ltNum a || a.eqNum b then 1 else 2
  | _, _ => if a.eqNum b then 1 else 2

/-- The decision on bounds, 0 where none is reached. -/
def boundDecision (x : Vec) (a b : Part) : Nat :=
  match x.linkKind, x.fn with
  | .threshold, _ => if optLt a.hi b.lo then 2 else if optLe b.hi a.lo then 1 else 0
  | .choose, 9 => if optLt b.hi a.lo then 1 else if optLt a.hi b.lo then 2 else 0
  | .choose, _ => if optLt a.hi b.lo then 1 else if optLt b.hi a.lo then 2 else 0
  | _, 0 => if optLt a.hi (some (.zero false)) then 1 else if optLt (some (.zero false)) a.lo then 3 else 0
  | _, 3 => if optLt a.hi b.lo || optLt b.hi a.lo then 2 else 0
  | _, _ => if optLt b.hi a.lo then 1 else if optLt a.hi b.lo then 2 else 0

/-- A deciding link in one clk. -/
def Lane.decide_ (l : Lane) (j : Nat) (g : Stage) : LaneLink :=
  let e := l.entry j
  let n := l.stepOf j
  if e.st != 1 || n < 2 then e
  else match n, l.finals j g with
    | 16, (some a, some b, _) =>
      let d := exactDecision g.vec a b
      if d = 0 then { e with st := 4 } else { e with st := 2, dec := d }
    | _, _ =>
      let x := l.parts n j g
      let d := boundDecision g.vec x.1 x.2.1
      if d = 0 then e else { e with st := 2, dec := d }

/-- A value link is complete with its input. -/
def Lane.pass (l : Lane) (j : Nat) (g : Stage) : LaneLink :=
  let e := l.entry j
  if e.st = 1 ∧ (l.final 8 j 0 g.a).isSome then { e with st := 5 } else e

/-- A value's encoding as FP32. -/
def fp32Of (v : Val) : Word32 := BitVec.ofNat 32 (roundFloat fp32 0 0 false false v).1

/-- POS of a link without digits is its step of R183 until it is complete. -/
def Lane.step_ (l : Lane) (j : Nat) (e : LaneLink) : LaneLink :=
  if e.st = 1 then { e with pos := l.stepOf j } else e

/-- The value of a special link once it is known (R193). -/
def Lane.noteSpecial (l : Lane) (j : Nat) (e : LaneLink) : LaneLink :=
  if e.st ≠ 4 then e
  else match ({ l with es := l.es.set j e } : Lane).final 9 0 0 (.link j) with
    | some v => { e with spv := fp32Of v }
    | none => e

/-- One link of a lane in one clk. -/
def Lane.turn (l : Lane) (t j : Nat) (g : Stage) : LaneLink :=
  let e := l.step_ j (l.entry j)
  let m : Lane := if g.vec.linkKind = .digit then l else { l with es := l.es.set j e }
  l.noteSpecial j (match g.vec.linkKind with
    | .digit => l.emit t j g
    | .value => m.pass j g
    | .reduce => e
    | _ => m.decide_ j g)

/-- Every link of a lane in one clk, in link order. -/
def Lane.turns (l : Lane) (t : Nat) : Lane :=
  l.gs.zipIdx.foldl (fun (l : Lane) x => { l with es := l.es.set x.2 (l.turn t x.2 x.1) }) l

/-! ### The reducing link (R189) -/

/-- Value of a candidate. -/
def Candidate.val (c : Candidate) : Val :=
  if c.st = 4 then fp32.decode c.spv.toNat else dyadic (digitSum c.dig) (c.xe + 2 - 32)

/-- The part that the reducing link sees, negated for `vargmin`. -/
def Lane.redPart (l : Lane) (j : Nat) (g : Stage) : Part :=
  let p := l.part (l.stepOf j) 8 j 0 g.a
  if g.vec.fn = 6 then p.neg else p

/-- Does a reference rest on a `vthr`? -/
def afterThr (gs : List Stage) : Nat → Ref → Bool
  | n + 1, .link i =>
    match gs[i]? with
    | none => false
    | some g => g.vec.linkKind == .threshold || g.refs.any (afterThr gs n)
  | _, _ => false

/-- Is the operand of a reducing link known to be -∞ after a `vthr`, directly or through the links between? -/
def Lane.below (l : Lane) (j : Nat) (g : Stage) : Bool :=
  afterThr l.gs 9 g.a && (l.part (l.stepOf j) 8 j 0 g.a).known == some (.inf true)

/-- The k-th greatest of a list of values. -/
def kthGreatest (k : Nat) (vs : List Val) : Option Val :=
  (vs.foldl (fun acc v => (acc.takeWhile fun w => !w.lt v) ++ [v] ++ (acc.dropWhile fun w => !w.lt v)) [])[k - 1]?

/-- Step of the pass as the reducing link counts it: that of the input with the most digits (R183, R190). -/
def redStep (gs : List Stage) (t : Nat) : Nat → Ref → Option Nat
  | 0, _ => none
  | n + 1, .link i =>
    match gs[i]? with
    | none => none
    | some g =>
      if g.vec.linkKind = .digit then some (min 16 (t - g.total))
      else match redStep gs t n g.a, redStep gs t n g.b with
        | some x, some y => some (max x y)
        | some x, none => some x
        | none, y => y
  | _ + 1, _ => none

/-- Exclusions of one clk: those that take effect, those of `vthr`, and the tests at steps 2 and 3. -/
def excludeAll (ls : List Lane) (j : Nat) (g : Stage) (k n : Nat) (cand : List Candidate) : List Lane :=
  let put (l : Lane) (e : LaneLink) : Lane := { l with es := l.es.set j e }
  let aged := ls.map fun l =>
    let e := l.entry j
    if e.dec = 1 ∧ e.exc + 9 ≤ n then put l { e with dec := 2 }
    else if e.dec = 0 ∧ l.below j g then put l { e with dec := 2 } else l
  if n = 2 ∨ n = 3 then
    let live := aged.filter fun l => (l.entry j).dec == 0 && !(l.redPart j g).p.isNan
    let mine := live.filterMap fun l => (l.redPart j g).lo
    let old := cand.map fun c => (three.mul (if g.vec.fn = 6 then c.val.neg else c.val)).1
    match kthGreatest k (mine ++ old) with
    | none => aged
    | some bar => aged.map fun l =>
      let e := l.entry j
      if e.dec = 0 ∧ optLt (l.redPart j g).hi (some bar) then put l { e with dec := 1, exc := n } else l
  else aged

/-! ### Cancellation (R185) -/

/-- Does consumer c of a lane still need link i? -/
def Lane.needs (l : Lane) (i c : Nat) (g : Stage) : Bool :=
  let e := l.entry c
  if e.st = 3 then false
  else match g.vec.linkKind with
    | .threshold => e.dec != 2
    | .choose => e.dec == 0 || (if e.dec = 1 then g.a else g.b) == .link i
    | .reduce => e.dec != 2
    | _ => true

/-- Digit steps that a cancelled link has not taken; a deciding link that has decided adds none. -/
def Lane.untaken (l : Lane) (i : Nat) : Nat := if (l.entry i).st = 2 then 0 else 16 - (l.entry i).pos

/-- Links from the last to the first cancelled where no consumer needs them; the sum for `digcancel`. -/
def Lane.prune (l : Lane) : List (Stage × Nat) → Lane × Nat
  | [] => (l, 0)
  | (g, i) :: r =>
    let e := l.entry i
    let needed := l.gs.zipIdx.any fun c => (c.1.a == .link i || c.1.b == .link i) && l.needs i c.2 c.1
    if g.written || e.st = 3 || needed then l.prune r
    else
      let x := ({ l with es := l.es.set i { e with st := 3 } } : Lane).prune r
      (x.1, x.2 + l.untaken i)

/-! ### Written values and flags (R177, R178) -/

/-- The written encoding of link j and its flags; idx is the element's index for `SrBits`. -/
def Lane.written (l : Lane) (sr : Nat) (j : Nat) (g : Stage) : Nat × Flags :=
  let x := l.finals j g
  let a := x.1.getD .nan
  let b := x.2.1.getD .nan
  let d := x.2.2.getD .nan
  match g.vec.linkKind with
  | .digit => roundTy g.vec.ty g.vec.rm sr l.ftz (vopReal g.vec.fn g.vec.rm a b d)
  | .compare =>
    if g.vec.fn = 0 then (decCode g.vec.ty (signVal a), Flag.none)
    else ((l.entry j).dec % 2, Flag.none)
  | _ => convert g.vec.ty g.vec.rm sr l.ftz false ((l.final 9 0 0 (.link j)).getD .nan)

/-- Flags that link j sets for the element whether it is written or not: NX of a residual, and those of a special
link. -/
def Lane.linkFlags (l : Lane) (j : Nat) (g : Stage) : Flags :=
  let e := l.entry j
  if g.vec.linkKind ≠ .digit ∨ e.st = 3 then Flag.none
  else match l.finals j g with
    | (some a, some b, some d) =>
      if e.st = 4 then (vopReal g.vec.fn g.vec.rm a b d).2
      else if digitsExact g.vec.fn a b d e then Flag.none else Flag.nx
    | _ => Flag.none

def Lane.flags (l : Lane) : Flags :=
  l.gs.zipIdx.foldl (fun f x => f ||| l.linkFlags x.2 x.1) Flag.none

/-- A candidate with the sign turned; a zero of digits becomes the special value -0 (R177). -/
def Candidate.turned (c : Candidate) : Candidate :=
  if c.st = 4 then { c with spv := c.spv ^^^ 0x80000000#32 }
  else if digitSum c.dig = 0 then ⟨c.col, 0, 4, [], 0x80000000#32⟩
  else { c with dig := c.dig.map (- ·) }

/-- The magnitude of a candidate. -/
def Candidate.magnitude (c : Candidate) : Candidate :=
  if c.st = 4 then { c with spv := c.spv &&& 0x7FFFFFFF#32 } else if digitSum c.dig < 0 then c.turned else c

/-- The candidate of a lane: exact digits, or an exact value as FP32. -/
def Lane.candidate (l : Lane) (col : Nat) : Nat → Bool → Nat → Nat → Ref → Option Candidate
  | _, _, j, op, .ext _ => some ⟨col, 0, 4, [], fp32Of (l.latched j op)⟩
  | 0, _, _, _, _ => none
  | _, _, _, _, .none => none
  | n + 1, flip, j, op, .link i =>
    match l.stage i with
    | none => none
    | some g =>
      let e := l.entry i
      match g.vec.linkKind with
      | .digit =>
        if e.st = 4 then (l.final 8 j op (.link i)).map fun v => ⟨col, 0, 4, [], fp32Of v⟩
        else some ⟨col, e.xe, 5, e.dig, 0⟩
      | .value =>
        (l.candidate col n flip i 0 g.a).map fun c =>
          match g.vec.fn with
          | 6 => c.turned
          | 7 => c.magnitude
          | _ => c
      | .choose => match e.dec with
        | 1 => l.candidate col n flip i 0 g.a
        | 2 => l.candidate col n flip i 1 g.b
        | _ => some ⟨col, 0, 4, [], fp32Of .nan⟩
      | _ => if e.dec = 2 then some ⟨col, 0, 4, [], 0xFF800000#32⟩ else l.candidate col n flip i 0 g.a

/-- A candidate put among the best, best first; lower columns stand first among equals. -/
def insertCandidate (up : Bool) (x : Candidate) : List Candidate → List Candidate
  | [] => [x]
  | y :: ys =>
    if (if up then y.val.lt x.val else x.val.lt y.val) then x :: y :: ys else y :: insertCandidate up x ys

/-! ### Passes (R182, R190 to R192) -/

/-- Geometry of a chain: elements, row length, k of its reducing link. -/
structure Geometry where
  count : Nat
  row : Nat
  k : Nat

def State.geometry (s : State) (gs : List Stage) : Geometry :=
  let v (k : Option Nat) : Version := (s.stream (k.getD 0)).epVersion
  match gs.head?, gs.getLast? with
  | some f, some l =>
    let m := if f.vec.linkKind = .reduce then v f.vec.sa else v f.vec.sd
    ⟨m.count, m.rowLen, if l.vec.kind = .vdec 7 then topK (v l.vec.sd) (v l.vec.sa) else 1⟩
  | _, _ => ⟨0, 1, 1⟩

/-- Elements of row q, and passes of a row. -/
def Geometry.rowSize (g : Geometry) (q : Nat) : Nat := min g.row (g.count - q * g.row)
def Geometry.perRow (g : Geometry) : Nat := ceilDiv g.row 256

/-- The number of passes that the EP may run, when it is limited; nothing before the AP has checked every word. -/
def State.chainLimit (s : State) (c : Chain) : Option Nat :=
  if s.ep.seq + c.words ≤ s.ap.seq then none
  else if s.ap.chainPc = some s.ep.pc ∧ s.ap.pc = c.last then some (s.ap.offer.getD 0) else some 0

def Option.allows (l : Option Nat) (n : Nat) : Bool :=
  match l with
  | none => true
  | some k => n < k

def State.setChain (s : State) (c : Option ChainState) : State := s.modEp fun e => { e with chain := c }

/-- A chain at the first pass of a row. -/
def ChainState.start (pc : BitVec 56) (row lanes : Nat) : ChainState := ⟨pc, 0, row, 0, lanes, false, [], [], false, [], []⟩

/-- Lanes of pass p of row q. -/
def Geometry.lanes (g : Geometry) (q p : Nat) : Nat := min 256 (g.rowSize q - 256 * p)

/-- One column of every external stream: encodings and marks. -/
def readColumn (i : Nat) : List Nat → M (List (Nat × Bool))
  | [] => return []
  | k :: ks => do
    let p := (← get).epPath k
    let x ← if p.desc.count = 1 then broadcast k else p.elem i
    let r ← readColumn i ks
    return (x.code, x.marked) :: r

/-- Columns of the row read ahead, as far as the AP has checked; the fuel is their number.  A stop keeps what has been
read. -/
def readRow (ks : List Nat) (base : Nat) : Nat → ChainState → State → Except Stop (Flow × State)
  | 0, c, s => .ok (.stay, s.setChain (some c))
  | n + 1, c, s =>
    match readColumn (base + c.ahead.length) ks s with
    | .ok (x, t) => readRow ks base n { c with ahead := c.ahead ++ [x] } (t.podDone 7)
    | .error (.trap keep t) =>
      let u := (keep.getD s).setChain (some c)
      .error (.trap (some (if t.src = 1 then u.modStream t.stream fun y => y.setPos t.elem else u)) t)
    | .error (.block w) =>
      if c.ahead.length = (s.ep.chain.map (·.ahead.length)).getD 0 then .error (.block w)
      else .ok (.stay, s.setChain (some c))
    | .error (.ask r) => .ok (.stay, (s.podAsk r).setChain (some c))

/-- The entries of a lane from a column's operands. -/
def laneOf (gs : List Stage) (ftz : Bool) (ks : List Nat) (x : List (Nat × Bool)) : Lane :=
  let op (r : Ref) : Word32 := match r with
    | .ext k => BitVec.ofNat 32 ((x[(ks.idxOf k)]?).map (·.1) |>.getD 0)
    | _ => 0
  gs.zipIdx.foldl (fun (l : Lane) g => { l with es := l.es ++ [l.latch g.2 g.1 (op g.1.a) (op g.1.b) (op g.1.d)] })
    ⟨gs, ftz, []⟩

/-- The pass enters: its columns are latched. -/
def ChainState.enter (c : ChainState) (gs : List Stage) (ftz : Bool) (ks : List Nat) (n : Nat) : ChainState :=
  let cols := (c.ahead.drop (256 * c.pass)).take n
  { c with step := 0, lanes := n, entered := true,
           entries := cols.map fun x => (laneOf gs ftz ks x).es, marks := cols.map fun x => x.any (·.2) }

/-- One clk of a pass: digits and decisions, exclusions, cancellations; the second part goes to `digcancel`. -/
def ChainState.advance (c : ChainState) (gs : List Stage) (ftz : Bool) (k : Nat) : ChainState × Nat :=
  let t := c.step + 1
  let ls : List Lane := c.entries.map fun es => Lane.turns ⟨gs, ftz, es⟩ t
  let j := gs.length - 1
  let ls1 : List Lane := match gs.getLast? with
    | some g =>
      if g.vec.linkKind = LinkKind.reduce then excludeAll ls j g k ((redStep gs t 9 g.a).getD 16) c.cand else ls
    | none => ls
  let rs := ls1.map fun l => l.prune gs.zipIdx.reverse
  ({ c with step := t, entries := rs.map (·.1.es) }, (rs.map (·.2)).sum)

/-- Element-wise destinations of one lane written, in link order; the flags of its writes. -/
def writeLane (l : Lane) (i : Nat) (marked : Bool) : List (Stage × Nat) → M Flags
  | [] => return Flag.none
  | (g, j) :: r => do
    if g.written && g.vec.linkKind != .reduce then
      let s ← get
      let x := l.written (srBits s.regs.srseedEp (g.addr.setWidth 64) i) j g
      (s.epDest (g.vec.sd.getD 0)).put i x.1 marked
      let f ← writeLane l i marked r
      return x.2 ||| f
    else writeLane l i marked r

/-- All lanes written in ascending order. -/
def writeLanes (gs : List Stage) (ftz : Bool) (base : Nat) : Nat → List (List LaneLink × Bool) → M Unit
  | _, [] => return ()
  | m, x :: xs => do
    let l : Lane := ⟨gs, ftz, x.1⟩
    let f ← writeLane l (base + m) x.2 gs.zipIdx
    elemFlags x.2 (f ||| l.flags)
    writeLanes gs ftz base (m + 1) xs

/-- The best candidates with those of a pass; NaN is ignored, and so are the elements that a test has excluded; an element that is
-∞ after `vthr` still stands among the elements that R188 orders (assumption 68). -/
def ChainState.merge (c : ChainState) (gs : List Stage) (ftz : Bool) (k : Nat) (g : Stage) : List Candidate :=
  (c.entries.zipIdx.foldl (fun acc x =>
    let l : Lane := ⟨gs, ftz, x.1⟩
    let j := gs.length - 1
    let at_ := 256 * c.pass + x.2
    let mine := if (l.entry j).dec = 0 then l.candidate at_ 9 false j 0 g.a
      else if l.below j g then some ⟨at_, 0, 4, [], 0xFF800000#32⟩ else none
    match mine with
      | some y => if y.val.isNan then acc else insertCandidate (g.vec.fn != 6) y acc
      | none => acc) c.cand).take k

/-- The pairs of a row's reducing result, with the flags of their rounding. -/
def redPairs_ (s : State) (g : Stage) (k q : Nat) (cand : List Candidate) : List (Nat × Nat) × Flags :=
  (List.range k).foldl (fun acc i =>
    match cand[i]? with
    | some c =>
      let r := convert g.vec.ty g.vec.rm (srBits s.regs.srseedEp (g.addr.setWidth 64) (2 * (q * k + i) + 1)) s.ftz false c.val
      (acc.1 ++ [(c.col, r.1)], acc.2 ||| r.2)
    | none => (acc.1 ++ [(0xFFFFFFFF, decCode g.vec.ty .nan)], acc.2)) ([], Flag.none)

/-- The end of a pass: its writes, at a row's end the reducing result, and what follows. -/
def chainWrite (ch : Chain) (gs : List Stage) (geo : Geometry) (c : ChainState) : M Flow := do
  let s ← get
  let i0 := c.row * geo.row + 256 * c.pass
  let lastPass := 256 * c.pass + c.lanes = geo.rowSize c.row
  writeLanes gs s.ftz i0 0 (c.entries.zip c.marks)
  let mark := c.rowMark || c.marks.any id
  let red := gs.getLast?.filter fun (g : Stage) => g.vec.linkKind == LinkKind.reduce
  let cand := match red with
    | some g => c.merge gs s.ftz geo.k g
    | none => []
  let _ ← match red with
    | some g =>
      if lastPass then do
        let r := redPairs_ s g geo.k c.row cand
        sticky (if mark then Flag.none else r.2)
        putPairs (s.epDest (g.vec.sd.getD 0)) mark (c.row * geo.k) r.1
      else pure ()
    | none => pure ()
  if !lastPass then
    modify fun s => s.setChain (some { c with step := 0, pass := c.pass + 1, lanes := geo.lanes c.row (c.pass + 1), entered := false,
                                              entries := [], marks := [], rowMark := mark, cand := cand })
    return .stay
  else if (c.row + 1) * geo.row < geo.count then
    modify fun s => s.setChain (some (ChainState.start c.cpc (c.row + 1) (geo.lanes (c.row + 1) 0)))
    return .stay
  else
    let named := externals gs ++ (gs.filter (·.written)).flatMap fun g => g.vec.sd.toList
    modify fun s => (named.foldl (fun (t : State) k => t.modStream k fun x => x.setPos 0) (s.setChain none)).modEp
      fun e => { e with seq := e.seq + (ch.words - 1) }
    return .goto (ch.last + 4) false

/-- One turn of the chain that the EP is inside: a clk of its pass, a pass that enters, columns read ahead, and the writes of a pass once
the row has been read, or as much of it as the AP has checked (R182, R191). -/
def chainTurn (c : ChainState) : M Flow := do
  let s ← get
  match s.strand.image.chain c.cpc with
  | none => return .stay
  | some ch =>
    let gs := ch.stages
    let geo := s.geometry gs
    let ks := externals gs
    let size := geo.rowSize c.row
    let n := geo.lanes c.row c.pass
    let top := match s.chainLimit ch with
      | none => size
      | some k => min size (256 * (k - c.row * geo.perRow))
    if c.entered && c.step < lastStep gs then
      let r := c.advance gs s.ftz geo.k
      set ((s.setChain (some r.1)).modSys fun y => { y with digcancel := y.digcancel + BitVec.ofNat 64 r.2 })
      return .stay
    else if !c.entered && 256 * c.pass + n ≤ c.ahead.length then
      set (s.setChain (some (c.enter gs s.ftz ks n)))
      return .stay
    else if c.ahead.length < top then fun s => readRow ks (c.row * geo.row) (top - c.ahead.length) c s
    else if c.entered then chainWrite ch gs geo c
    else
      set (s.modAp fun a => { a with offered := true })
      return .stay

/-- The EP begins a chain once the AP has checked every word of it (R180). -/
def execChainB (s : State) : Answer :=
  runEp .chainB (do
    let s ← get
    match s.strand.image.chain s.ep.pc with
    | none => return .stay
    | some ch =>
      if (s.chainLimit ch).isNone ∨ (s.ap.chainPc = some s.ep.pc ∧ s.ap.pc = ch.last ∧ s.ap.offer.isSome) then
        set (s.setChain (some (ChainState.start s.ep.pc 0 ((s.geometry ch.stages).lanes 0 0))))
      return .stay) s

/-- A turn of the EP inside a chain, up to the retirement of `chain.e`; at a `chain.e` without one it holds (R180). -/
def execChainE (s : State) : Answer :=
  runEp .chainE (do
    match (← get).ep.chain with
    | none => return .stay
    | some c => chainTurn c) s

end Sys2Proof.Machine
end

