-- ==== Sys2Proof/Machine/Repeat.lean ====
section
/-!
DEFINITION. The prefixes: `rep` on the AP and the EP, and the access prefix (R49 to R51, R83 to R86).

A prefix and the word it binds take two turns of the processor: the prefix binds, and the word then runs bound.
Whatever ends the word's run unbinds it, so that the prefix is read again.
-/
namespace Sys2Proof.Machine

/-- The legal word of the image at an address. -/
def Image.instr (m : Image) (a : BitVec 56) : Option Instr :=
  match (m.word a).map decodeStrand with
  | some (.ok i) => if strandWf i then some i else none
  | _ => none

/-- The word that a `rep` of the AP, or of the EP, binds, when it may. -/
def State.repTarget (s : State) (e : BitVec 1) : Option Instr :=
  (s.strand.image.instr ((if e = 1#1 then s.ep.pc else s.ap.pc) + 4)).filter (repBinds e)

/-- The trap of a `rep` of the AP's path whose next word it may not bind: fetch-range where there is none,
chain-structure at a word that delimits a chain (R50, R80, R180). -/
def State.repRefused (s : State) (i : Instr) : State :=
  let trap (code arg : Nat) : State := s.takeTrap { mkTrap .p code arg with src := if onEp i then 1 else 0 }
  match s.strand.image.word (s.ap.pc + 4) with
  | none => trap 3 0
  | some w => match decodeStrand w with
    | .ok .chainB | .ok .chainE => trap 7 0
    | _ => trap 1 (illegalArg i)

/-! ### On the AP -/

def State.bindAp (s : State) (b : Binding) : State := s.modAp fun a => { a with bind := b }

/-- A `rep` of count 0 retires with its word: a predicate writer pushes the value that stands (R84). -/
def State.skipRepAp (s : State) (i : Instr) : State :=
  if writesApPred i && s.strand.queues.bq.length ≥ 64 then s.blockAp { cls := 0, kind := 1, obj := 8 }
  else (s.pushPred i).apGo (s.ap.pc + 8)

/-- A `rep` of the AP with the count that its word gives. -/
def State.repAp (s : State) (i : Instr) (c : Nat) : State :=
  if !apLegal s i then s.takeTrap (mkTrap .p 1 (s.illegalWord i))
  else match s.repTarget 0 with
    | none => s.repRefused i
    | some j =>
      if field s.regs.rc 0 32 ≠ 0 then s.bindAp .rep
      else if c = 0 then s.skipRepAp j
      else if allotAp s.regs.rotbase ≠ 0 ∧ allotAp s.regs.rotbase < c then s.takeTrap (mkTrap .p 6 c)
      else (s.modRegs fun r => { r with rc := setField r.rc 0 32 c }).bindAp .rep

/-! ### On the EP -/

def State.bindEp (s : State) (c : Nat) : State := s.modEp fun e => { e with bind := .rep, repCount := c }

/-- A `rep` of count 0 on the EP. -/
def State.skipRepEp (s : State) : State := s.epPass.modEp fun e => { e with pc := e.pc + 8 }

/-- A `rep` of the EP begins with a count. -/
def State.beginEp (s : State) (c : Nat) : State :=
  if c = 0 then s.skipRepEp
  else (s.modRegs fun r => { r with rc := setField r.rc 32 32 c }).bindEp c

/-- A `rep` of the EP whose count stands in its word; one cut off goes on with the half of `rc`. -/
def State.repEp (s : State) (n : Nat) : State :=
  if (s.repTarget 1).isNone then s
  else if field s.regs.rc 32 32 ≠ 0 then s.bindEp n
  else s.beginEp n

/-- A `rep` of the EP whose count stands in an EP register: the EP makes the check of R84, and a popped entry stays
consumed. -/
def State.repRegEp (s : State) (c : Nat) : State :=
  if (s.repTarget 1).isNone then s
  else if field s.regs.rc 32 32 ≠ 0 then
    s.bindEp (if s.ep.repCount = 0 then field s.regs.rc 32 32 else s.ep.repCount)
  else match readEp c 0 s with
    | .ok (v, t) =>
      let u := t.modEp fun e => { e with taken := [], used := [], block := none }
      let n := field v 0 32
      if allotEp s.regs.rotbase ≠ 0 ∧ allotEp s.regs.rotbase < n then u.pendTrap { mkTrap .e 6 n with src := 1 }
      else u.beginEp n
    | .error x => s.finishEp (.error x)

/-! ### On an engine (R98) -/

/-- The pointer past the command after RP of engine n, where a `rep` may bind it. -/
def State.repCommand (s : State) (n : Nat) : Option (BitVec 16) :=
  let e := s.engine n
  let w := s.ringWord e (e.rp + 1)
  match decodeRing n w with
  | .ok i =>
    if ringOk n i (s.syncAt e (e.rp + 1)) && !isTransfer i && !isPrefix i && (match i with | .hint .. => false | _ => true) then
      some (if bit w 24 then e.rp + 3 else e.rp + 2)
    else none
  | .error _ => none

/-- A `rep` on an engine waits until the command that it binds is in the ring.  RP stays at the prefix until the last
repetition is done, so that the two end and stop as one (R50, R85, R98). -/
def State.repEngine (s : State) (n : Nat) (i : Instr) (c : Nat) : State :=
  let e := s.engine n
  if e.wp = e.rp + 1 then s
  else if !engineWf i then s.stopEngine n 0x21 (e.posArg 0) 0 0 false
  else match s.repCommand n with
    | none => s.stopEngine n 0x21 (e.posArg 0) 0 0 false
    | some past =>
      if c = 0 then s.setEngine n { e with next := past }.pass
      else s.setEngine n { e with repLeft := c, repCount := c, phase := .start, entered := false }

/-! ### The meanings -/

def execRepN (e : BitVec 1) (n : BitVec 20) (s : State) : Answer :=
  match s.onEngine with
  | some k => .next (s.repEngine k (.repN e n) n.toNat)
  | none =>
    if s.inShadow then .next (s.takeTrap (mkTrap .p 1 (s.illegalWord (.repN e n))))
    else if e = 1#1 then .next (s.repEp n.toNat)
    else .next (s.repAp (.repN e n) n.toNat)

/-- A `rep` by register, of the processor or engine that reads it. -/
def execRepReg (e : BitVec 1) (c : BitVec 6) (s : State) : Answer :=
  match s.onEngine with
  | some k => .next (s.repEngine k (.repReg e c) (field ((s.engine k).nread c.toNat) 0 32))
  | none =>
    if s.inShadow then .next (s.takeTrap (mkTrap .p 1 (s.illegalWord (.repReg e c))))
    else if e = 1#1 then .next (s.repRegEp c.toNat)
    else .next (s.repAp (.repReg e c) (field (s.aread c.toNat) 0 32))

def execAccessPrefix (c : BitVec 4) (a l : BitVec 1) (k : BitVec 3) (v : BitVec 1) (p : BitVec 2) (z : BitVec 1)
    (s : State) : Answer :=
  let i := Instr.accessPrefix c a l k v p z
  if apLegal s i then
    .next (s.bindAp (.access ⟨c.toNat, a == 1#1, l == 1#1, k.toNat, v == 1#1, p.toNat, z == 1#1⟩))
  else .next (s.takeTrap (mkTrap .p 1 (s.illegalWord i)))

end Sys2Proof.Machine
end

