-- ==== Sys2Proof/Machine/Generator.lean ====
section
/-!
DEFINITION. The AP at a word of the EP: legality, literals, the checks of descriptors and of every stream element, masks
and trailers, and the words of a chain (R15, R17, R26, R78, R84, R118, R119, R139, R143, R146, R180, R181, R191, R382,
R396).
-/
namespace Sys2Proof.Machine

/-! ### One element (R119, R388) -/

/-- The trap of a stream element on the AP; the translations made before it stand (R403). -/
def elemTrap {α : Type} (code arg k i : Nat) (write : Bool) : M α := do
  let s ← get
  stop (.trap (some s)
    { mkTrap .p code arg with src := 1, stream := k, elem := i, kind := if write then 1 else 0, priv := s.strand.info.priv })

/-- A piece of a stream in a scratchpad checked. -/
def checkPlace (sp : Space) (k i : Nat) (write : Bool) (a n : Nat) : M Unit := do
  let s ← get
  if spaceSize sp < a + n then elemTrap 0x11 0 k i write
  else match s.refusal sp a n write with
    | some x => elemTrap x.1 x.2 k i write
    | none => return ()

/-- A piece in device or host memory translated; the EP keeps the translation until it has retired the word. -/
def checkLeaf (seq : Nat) (host : Bool) (k i : Nat) (write : Bool) (a : Nat) : M Unit := do
  let s ← get
  let va : Word := BitVec.ofNat 64 a
  match s.translate va { (if write then writeNeed else readNeed) with host := host } s.strand.info.priv with
  | .error t => stop (.trap (some (s.missed va host)) { t with src := 1, stream := k, elem := i })
  | .ok (_, t) =>
    match t.tlbFind host (vaNat va) with
    | some l => set (t.modEp fun e =>
        { e with leaves := ⟨seq, l.asid, host, l.va, l.size, l.entry⟩ :: e.leaves.filter fun x =>
            !(x.seq == seq && x.host == host && x.va == l.va && x.size == l.size) })
    | none => set t

/-- Pieces of element i of stream k checked in order. -/
def checkPieces (seq : Nat) (v : Version) (k i : Nat) (write : Bool) : List (Nat × Nat) → M Unit
  | [] => return ()
  | x :: xs => do
    match v.memSpace with
    | .dev => checkLeaf seq false k i write x.1
    | .host => checkLeaf seq true k i write x.1
    | sp => checkPlace sp k i write x.1 x.2
    checkPieces seq v k i write xs

/-- The version of stream k that the AP has. -/
def State.apDesc (s : State) (k : Nat) : Version := (s.stream k).apVersion

/-- Pieces of stream k as the generator reads them, each byte once for a word (R143). -/
def genRead (seq k : Nat) (v : Version) : List (Nat × Nat) → M (List Snap)
  | [] => return []
  | x :: xs => do
    let s ← get
    let r ← match Snap.cut (s.ep.snapsOf seq k) x.1 x.2 with
      | some r => pure r
      | none => match v.memSpace with
        | .dev | .host => do
          let p ← translate (BitVec.ofNat 64 x.1) { readNeed with host := v.memSpace == .host }
          readAt 6 v.memSpace p x.2 v.pol 0
        | sp => readAt 6 sp ⟨placeOf sp s.core.id x.1, false, false⟩ x.2 0 0
    let t ← genRead seq k v xs
    return ⟨seq, k, x.1, r.1, r.2⟩ :: t

/-- Pieces kept for the EP. -/
def keepSnaps (xs : List Snap) : M Unit := modify fun s => s.modEp fun e => { e with snaps := xs ++ e.snaps }

/-- The bytes of pieces. -/
def Snap.all (xs : List Snap) : List Byte := xs.flatMap (·.bytes)

/-- Element i of a source checked: its mask, read once and kept, its scale, and what is stored of it. -/
def checkSource (seq k i : Nat) : M Unit := do
  let v := (← get).apDesc k
  if v.isQueue then return ()
  else
    let q := v.rowOf i
    let c := v.colOf i
    let ms := v.maskPieces q c
    checkPieces seq v k i false ms
    let m ← genRead seq k v ms
    if v.spar ≠ 0 && c % 32 == 0 then
      if popCount 32 (leNat (Snap.all m)) ≠ v.stored then elemTrap 0x19 k k i false
      keepSnaps m
    checkPieces seq v k i false (v.scalePieces q c)
    match v.storedCol (leNat (Snap.all m)) c with
    | none => return ()
    | some j => checkPieces seq v k i false (v.pieces q j)

/-- Element i of a destination checked, for reading too where the instruction reads it. -/
def checkDest (seq k i : Nat) (reads : Bool) : M Unit := do
  let v := (← get).apDesc k
  let ps := v.pieces (v.rowOf i) (v.colOf i)
  if reads then checkPieces seq v k i false ps
  checkPieces seq v k i true ps
  checkPieces seq v k i true (v.scalePieces (v.rowOf i) (v.colOf i))

/-- Elements from i on of a destination. -/
def checkDests (seq k : Nat) (reads : Bool) : Nat → Nat → M Unit
  | _, 0 => return ()
  | i, n + 1 => do
    checkDest seq k i reads
    checkDests seq k reads (i + 1) n

/-- The trailer of a checked source: every covered byte is read once and kept (R143). -/
def checkTrailer (seq k : Nat) : M Unit := do
  let v := (← get).apDesc k
  if v.isQueue || !v.trl then return ()
  else
    let cover := v.covered
    checkPieces seq v k 0 false ((v.trailerAt, 32) :: cover)
    let tr ← genRead seq k v [(v.trailerAt, 32)]
    let bs ← genRead seq k v cover
    if !trailerOk v (Snap.all bs) (Snap.all tr) then elemTrap 0x18 k k 0 false
    keepSnaps bs

/-! ### A word's elements in order (R119) -/

/-- What the generator checks of a word: the number of its steps and one step. -/
structure Walk where
  steps : Nat
  step : Nat → M Unit

/-- Source k at step i: a broadcast element at step 0 alone. -/
def stepSource (seq : Nat) (k : Option Nat) (i : Nat) : M Unit := do
  match k with
  | none => return ()
  | some k =>
    if ((← get).apDesc k).count = 1 then (if i = 0 then checkSource seq k 0 else return ())
    else checkSource seq k i

/-- The steps of an execute word. -/
def Vec.steps (x : Vec) (s : State) (seq : Nat) : Walk :=
  let d := s.apDesc (x.sd.getD 0)
  let a := s.apDesc (x.sa.getD 0)
  let k := x.sd.getD 0
  let E := a.rowLen
  let sources (i : Nat) : M Unit := do
    stepSource seq x.sa i
    if x.sb != x.sa then stepSource seq x.sb i
  match x.kind with
  | .vop f => ⟨d.count, fun i => do sources i; checkDest seq k i (f = 3)⟩
  | .vred f => ⟨a.count, fun i => do
      checkSource seq (x.sa.getD 0) i
      if x.sb.isSome && x.sb != x.sa then checkSource seq (x.sb.getD 0) i
      if i % E = 0 then checkDest seq k (i / E) (f != 2 && f != 3)⟩
  | .vcvt _ => ⟨a.count, fun i => do
      checkSource seq (x.sa.getD 0) i
      checkDest seq k i false
      if d.trl && i + 1 == a.count then checkPieces seq d k i true [(d.trailerAt, 32)]⟩
  | .vdec f =>
    if f < 5 then (⟨d.count, fun i => do sources i; checkDest seq k i false⟩ : Walk)
    else
      let n := d.count / a.rows
      ⟨a.count, fun i => do
        checkSource seq (x.sa.getD 0) i
        if i % E = 0 then checkDests seq k false (i / E * n) n⟩
  | .ldl _ => ⟨d.count, fun i => checkDest seq k i false⟩
  | .stl _ => ⟨a.count, fun i => checkSource seq (x.sa.getD 0) i⟩

/-- How a walk ends: checked to its end, stopped by a fault at a step, or waiting for another node. -/
inductive WalkEnd where
  | done (s : State)
  | fault (i : Nat) (t : Trap) (s : State)
  | wait (s : State)

/-- Steps from i on; the fuel is their number. -/
def Walk.run (w : Walk) : Nat → Nat → State → WalkEnd
  | 0, _, s => .done s
  | n + 1, i, s =>
    match w.step i s with
    | .ok (_, t) => w.run n (i + 1) t
    | .error (.trap k t) => .fault i t (k.getD s)
    | .error (.ask r) => .wait (s.podAsk r)
    | .error (.block _) => .wait s

/-- The sources whose bytes the generator reads itself. -/
def Vec.checked (x : Vec) (s : State) : List Nat :=
  (x.sa.toList ++ (if x.sb = x.sa then [] else x.sb.toList)).filter fun k =>
    let v := s.apDesc k
    !v.isQueue && (v.trl || v.spar != 0)

/-- Trailers checked in order. -/
def checkTrailers (seq : Nat) : List Nat → M Unit
  | [] => return ()
  | k :: ks => do
    checkTrailer seq k
    checkTrailers seq ks

/-! ### Passing a word (R15, R17, R119) -/

/-- A trap of an EP word, precise on the AP (R387). -/
def State.passTrap (s : State) (code arg : Nat) : State := s.takeTrap { mkTrap .p code arg with src := 1 }

/-- A stream-descriptor trap: ARG and STREAM name the stream (R118, R146). -/
def State.descTrap (s : State) (k : Nat) : State := s.takeTrap { mkTrap .p 0x17 k with src := 1, stream := k }

/-- The predicate in p32 to p47 that a word writes on the EP (R26). -/
def epPredDest : Instr → Option Nat
  | .cmp e d _ _ _ | .cmpi e d _ _ _ | .pand e d _ _ | .por e d _ _ | .pxor e d _ _ | .pandn e d _ _ | .pnot e d _ =>
    if e = 1#1 ∧ 32 ≤ d.toNat then some d.toNat else none
  | _ => none

/-- What a word writes to memory: its place and its destination's version. -/
def State.stores (s : State) (x : Vec) : List (Nat × Version) := x.sd.toList.map fun k => (s.ap.seq, s.apDesc k)

/-- Do two lists of pieces meet? -/
def piecesMeet (xs ys : List (Nat × Nat)) : Bool := xs.any fun x => ys.any fun y => x.1 < y.1 + y.2 && y.1 < x.1 + x.2

/-- Every piece of a stream, its metadata and its trailer. -/
def Version.everything (v : Version) : List (Nat × Nat) := v.covered ++ (if v.trl then [(v.trailerAt, 32)] else [])

/-- Must an EP word that the AP has passed still write bytes which the generator reads itself from stream k (R121, R139, R143,
assumption 64)? -/
def State.notYet (s : State) (k : Nat) : Bool :=
  let v := s.apDesc k
  let own := if v.trl then v.everything else (List.range v.rows).flatMap v.maskBytes
  s.ep.pWrites.any fun w => w.2.memSpace == v.memSpace && piecesMeet own w.2.everything

/-- The AP goes past an EP word of a size; what the EP will write is remembered (R26). -/
def State.passed (s : State) (i : Instr) (size : BitVec 56) : State :=
  let s1 := match epPredDest i with
    | some p => s.modEp fun e => { e with pPend := e.pPend ++ [PredWriter.mk s.ap.seq p] }
    | none => s
  let s2 := match vecOf i with
    | some x => s1.modEp fun e => { e with pWrites := e.pWrites ++ s.stores x }
    | none => s1
  s2.apGo (s.ap.pc + size)

/-- POS of a reduction's destination at its faulting element; the other streams stand where the EP holds (R119, R150). -/
def State.markFault (s : State) (i : Instr) (t : Trap) : State :=
  match vecOf i with
  | some x => match x.kind with
    | .vred _ | .vdec _ =>
      if t.src = 1 ∧ x.sd = some t.stream ∧ x.sa ≠ x.sd then s.modStream t.stream fun y => y.setPos t.elem else s
    | _ => s
  | none => s

/-- The end of a walk: the AP passes, offers what it has checked, or takes the trap once the EP has used that, when POS of the EP's
versions stands where the EP holds (R119, R150). -/
def State.afterWalk (s : State) (i : Instr) (size : BitVec 56) : WalkEnd → State
  | .done t => t.passed i size
  | .wait t => t
  | .fault n t u =>
    if s.ap.offered then (u.markFault i t).takeTrap t
    else u.modAp fun a => { a with offer := some n }

/-- An execute word whose descriptors have passed. -/
def State.walkVec (s : State) (i : Instr) (x : Vec) (size : BitVec 56) : State :=
  if s.ap.offer.isSome && !s.ap.offered then s
  else
    let own := x.checked s
    if own.any s.notYet then s
    else
      let w := x.steps s s.ap.seq
      let begun := s.ep.seq = s.ap.seq
      let main := (s.stream (match x.kind with
        | .vop _ | .ldl _ => x.sd.getD 0
        | .vdec f => if f < 5 then x.sd.getD 0 else x.sa.getD 0
        | _ => x.sa.getD 0)).epVersion
      let start := if begun then main.pos else 0
      match if begun && start != 0 then .ok ((), s) else checkTrailers s.ap.seq own s with
      | .error (.trap k t) => s.afterWalk i size (.fault 0 t (k.getD s))
      | .error (.ask r) => s.podAsk r
      | .error (.block _) => s
      | .ok (_, t) => s.afterWalk i size (w.run (w.steps - start) start t)

/-- An execute word outside a chain: the checks of R146 and R159, then its elements. `arg` is ARG of the
illegal-instruction cause. -/
def State.passVec (s : State) (i : Instr) (x : Vec) (size : BitVec 56) (arg : Nat) : State :=
  let v := x.descs s.apDesc
  if x.illegal v then s.passTrap 1 arg
  else match x.failing v with
    | some k => s.descTrap k
    | none => s.walkVec i x size

/-- A word of the EP that is no prefix and no word of a chain. -/
def State.passWord (s : State) (i : Instr) (size : BitVec 56) (arg : Nat) : State :=
  if !s.strand.info.priv && waitClass i == some 15#4 then s.passTrap 1 arg
  else match i with
    | .ldp _ _ o =>
      let a := litAddr (s.ap.pc + (size - 4)) o
      if litBad a then s.passTrap 1 arg
      else if s.litOut a then s.passTrap 4 0
      else match s.translate (a.setWidth 64) readNeed s.strand.info.priv with
        | .error t => (s.missed (a.setWidth 64) false).takeTrap { t with src := 1 }
        | .ok (_, t) => t.passed i size
    | _ => match vecOf i with
      | some x => s.passVec i x size arg
      | none => s.passed i size

/-- A `rep` of the EP: its word's legality, and the count where the AP knows it (R50, R84). -/
def State.passRep (s : State) (i : Instr) (count : Option Nat) : State :=
  match (s.strand.image.instr (s.ap.pc + 4)).filter (repBinds 1) with
  | none => s.repRefused i
  | some j =>
    let resumed := s.ep.seq = s.ap.seq ∧ field s.regs.rc 32 32 ≠ 0
    match count with
    | none => s.passWord j 8 (illegalArg i)
    | some c =>
      if resumed then s.passWord j 8 (illegalArg i)
      else if c = 0 then s.apGo (s.ap.pc + 8)
      else if allotEp s.regs.rotbase ≠ 0 ∧ allotEp s.regs.rotbase < c then s.passTrap 6 c
      else s.passWord j 8 (illegalArg i)

/-! ### Words of a chain (R180, R181, R191) -/

/-- A source of a link without the trailer flag, which R181 allows. -/
def Version.noTrl (v : Version) : Version := { v with w2 := setField v.w2 8 1 0 }

/-- The stream that fails at a link (R146, R181). -/
def State.linkFailing (s : State) (prev : List Link) (x : Vec) : Option Nat :=
  let v := x.descs s.apDesc
  let w : Descs := ⟨v.d, v.a.map Version.noTrl, v.b.map Version.noTrl⟩
  let ext (k : Option Nat) : Bool := match linkOf prev k with | .ext _ => true | _ => false
  let first := match prev.head? with
    | some l => l.vec
    | none => x
  let m := s.apDesc ((if first.linkKind = LinkKind.reduce then first.sa else first.sd).getD 0)
  let shape (y : Version) : Bool := y.count != m.count || y.rowLen != m.rowLen
  let bad (k : Option Nat) (y : Option Version) : Bool := match y with
    | none => false
    | some y => (ext k && (!plainOf x.ty y.noTrl || y.spar != 0)) || (shape y && !(ext k && y.count == 1))
  match x.step2 v with
  | some k => some k
  | none => match x.step3 w with
    | some k => some k
    | none => match x.step4 w with
      | some k => some k
      | none => firstField x (x.linkKind != LinkKind.reduce && (v.d.map shape).getD false) (bad x.sa v.a) (bad x.sb v.b)

/-- A trap of a check names its link's word. -/
def atLink (g : Stage) (m : M Unit) : M Unit := fun s =>
  match m s with
  | .error (.trap k t) => .error (.trap k { t with pc := some g.addr })
  | r => r

/-- The external sources of a link at element i; a broadcast source has element 0 alone. -/
def checkSources (s : State) (seq : Nat) (g : Stage) (i : Nat) : M Unit := do
  let src (r : Ref) : M Unit := match r with
    | .ext k => checkSource seq k (if (s.apDesc k).count = 1 then 0 else i)
    | _ => return ()
  src g.a
  src g.b
  src g.d

/-- One check of every link, in link order. -/
def checkLinks (f : Stage → M Unit) : List Stage → M Unit
  | [] => return ()
  | g :: gs => do
    atLink g (f g)
    checkLinks f gs

/-- A check at n elements from i on, in ascending order. -/
def checkEach (f : Nat → M Unit) : Nat → Nat → M Unit
  | _, 0 => return ()
  | i, n + 1 => do
    f i
    checkEach f (i + 1) n

/-- Pass p of row q as R182 orders it: every source by ascending element and in link order, then the destinations so, then the reducing
result of the row. -/
def checkPass (s : State) (seq : Nat) (geo : Geometry) (q p : Nat) (gs : List Stage) : M Unit := do
  let base := q * geo.row + 256 * p
  let n := min 256 (geo.rowSize q - 256 * p)
  checkEach (fun i => checkLinks (fun g => checkSources s seq g i) gs) base n
  let out := gs.filter fun g => g.written && g.vec.linkKind != LinkKind.reduce
  checkEach (fun i => checkLinks (fun g => checkDests seq (g.vec.sd.getD 0) false i 1) out) base n
  if 256 * p + n = geo.rowSize q then
    checkLinks (fun g => checkDests seq (g.vec.sd.getD 0) false (2 * q * geo.k) (2 * geo.k)) (gs.filter fun g => g.vec.linkKind == LinkKind.reduce)

/-- The trailer of a source of a chain: each element's bytes are checked before the trailer is read, and a trap names the
first link that reads the stream (R143, R191). -/
def chainTrailers (seq : Nat) (gs : List Stage) : List Nat → M Unit
  | [] => return ()
  | k :: ks => fun s =>
    let one : M Unit := do
      checkEach (checkSource seq k) 0 (s.apDesc k).count
      checkTrailer seq k
    match one s with
    | .ok (_, t) => chainTrailers seq gs ks t
    | .error (.trap u t) => .error (.trap u { t with pc := (gs.find? fun g => g.refs.contains (.ext k)).map (·.addr) })
    | .error x => .error x

/-- The geometry of a chain as the AP has its descriptors. -/
def State.apGeometry (s : State) (gs : List Stage) : Geometry :=
  let v (k : Option Nat) : Version := s.apDesc (k.getD 0)
  match gs.head?, gs.getLast? with
  | some f, some l =>
    let m := if f.vec.linkKind = LinkKind.reduce then v f.vec.sa else v f.vec.sd
    ⟨m.count, m.rowLen, if l.vec.kind = .vdec 7 then topK (v l.vec.sd) (v l.vec.sa) else 1⟩
  | _, _ => ⟨0, 1, 1⟩

/-- `chain.e`: the elements of the whole chain, pass by pass from the pass that the EP has to run next. -/
def State.passChain (s : State) (pc : BitVec 56) : State :=
  if s.ap.offer.isSome && !s.ap.offered then s
  else match s.strand.image.chain pc with
    | none => s.passTrap 7 0
    | some ch =>
      let gs := ch.stages
      let geo := s.apGeometry gs
      let per := geo.perRow
      let seq := s.ap.seq - (ch.words - 1)
      let own := (externals gs).filter fun k => !(s.apDesc k).isQueue && (s.apDesc k).trl
      if own.any s.notYet then s
      else
        let start := match s.ep.chain with
          | some c => if s.ep.seq = seq then c.row * per + c.pass + (if c.entered then 1 else 0) else 0
          | none => 0
        let w : Walk := ⟨ceilDiv geo.count geo.row * per, fun i =>
          if 256 * (i % per) < geo.rowSize (i / per) then checkPass s seq geo (i / per) (i % per) gs else return ()⟩
        let fin (e : WalkEnd) : State := match e with
          | .done t =>
            (t.modEp fun e => { e with pWrites := e.pWrites ++ (gs.filter (·.written)).flatMap fun g => s.stores g.vec }).apGo (s.ap.pc + 4) |>.modAp
              fun a => { a with chainPc := none }
          | .fault n t u => ((if s.ap.offered ∧ t.src = 1 then u.modStream t.stream fun x => x.setPos t.elem else u).afterWalk .chainE 4
              (.fault n t u))
          | e => s.afterWalk .chainE 4 e
        match if start != 0 then .ok ((), s) else chainTrailers seq gs own s with
        | .error (.trap k t) => fin (.fault 0 t (k.getD s))
        | .error (.ask r) => s.podAsk r
        | .error (.block _) => s
        | .ok (_, t) => fin (w.run (w.steps - start) start t)

/-- A legal word inside a chain whose `chain.b` stands at pc; none where the AP runs it itself. -/
def State.passInChain (s : State) (pc : BitVec 56) (i : Instr) : Option State :=
  let prev := s.strand.image.linksTo s.ap.pc (s.strand.image.bytes.length / 4) (pc + 4)
  match i with
  | .hint e _ => if e = 1#1 then some (s.passed i 4) else none
  | .chainE => some (if prev.isEmpty then s.passTrap 7 0 else s.passChain pc)
  | _ => match vecOf i with
    | some x =>
      some (if linkBreaks prev x then s.passTrap 7 0
        else match s.linkFailing prev x with
          | some k => s.descTrap k
          | none => s.apGo (s.ap.pc + 4))
    | none => some (s.passTrap 7 0)

/-- The AP at a legal word of the EP outside a chain. -/
def State.apPass (s : State) (i : Instr) : State :=
  match i with
  | .chainB => (s.apGo (s.ap.pc + 4)).modAp fun a => { a with chainPc := some s.ap.pc }
  | .chainE => s.passTrap 7 0
  | .repN _ n => s.passRep i (some n.toNat)
  | .repReg .. => s.passRep i none
  | _ => s.passWord i 4 (illegalArg i)

end Sys2Proof.Machine
end

