-- ==== Sys2Proof/Machine/Engines.lean ====
section
/-!
DEFINITION. Engines: appending to rings, sync words, the steps of R37 around a command, leases of the array, and how an
engine reads and writes memory (R34 to R39, R47, R48, R59, R68, R104, R219, R252 to R254, R313, R321, R404, R405, R409).
-/
namespace Sys2Proof.Machine

/-! ### The array (R252 to R255) -/

def Share.array (h : Share) (quad : Nat) : MatrixArray :=
  ((h.arrays.find? fun x => x.1 == quad).map (·.2)).getD MatrixArray.reset

def Share.setArray (h : Share) (quad : Nat) (a : MatrixArray) : Share :=
  { h with arrays := (quad, a) :: h.arrays.filter fun x => x.1 != quad }

def State.array (s : State) : MatrixArray := s.share.array (quadOf s.core.id)
def State.setArray (s : State) (a : MatrixArray) : State := s.modShare fun h => h.setArray (quadOf s.core.id) a

/-- Does the core hold the array? -/
def State.holdsArray (s : State) : Bool := s.array.held && s.array.holder == s.core.id % 4

/-- A request, once, with its clk. -/
def State.requestArray (s : State) : State :=
  let a := s.array
  if a.requests.any fun r => r.core == s.core.id % 4 then s
  else s.setArray { a with requests := a.requests ++ [⟨s.core.id % 4, s.clk⟩] }

/-- Is one request granted before another: the older, then the first after the last holder? -/
def LeaseReq.before (last : Nat) (x y : LeaseReq) : Bool :=
  x.since < y.since || (x.since == y.since && (x.core + 7 - last) % 4 < (y.core + 7 - last) % 4)

/-- The request that is granted. -/
def MatrixArray.first (a : MatrixArray) : Option LeaseReq :=
  a.requests.foldl (fun b r => match b with
    | none => some r
    | some q => if r.before a.holder q then some r else some q) none

/-- Is the command at RP of ring 0 of a core a `seg`, and what segment has it open? -/
def State.grantFor (s : State) (core : Nat) : Bool × Option Segment :=
  let t := s.focus core
  ((match t.cmd 0 with | some (.segCmd ..) => true | _ => false), (t.engine 0).seg)

/-- A lease granted by R254; an open segment that was saved goes on with the lease's count (R271). -/
def execLeaseGrant (s : State) : Answer :=
  let a := s.array
  match a.held, a.first with
  | false, some r =>
    let core := quadOf s.core.id * 4 + r.core
    let g := s.grantFor core
    let rest := a.requests.filter fun q => q.core != r.core
    let cmds := (g.2.map (·.cmds)).getD 0
    let a1 := { a with held := true, holder := r.core, cmds := cmds, seg := g.2.isSome, idle := 0 }
    let s1 := s.setArray { a1 with bySeg := g.1, requests := rest }
    let c := s1.coreAt core
    let e := c.engines[0]?.getD Engine.reset
    let e1 := { e with seg := e.seg.map fun x => { x with resumed := false } }
    .next (s1.setCore { c with engines := c.engines.setIfInBounds 0 e1 })
  | _, _ => .next s

/-- The holder has been idle for 64 clk outside a segment while another core requests (R253). -/
def execLeaseIdleExpiry (s : State) : Answer :=
  let a := s.array
  if a.held && !a.seg && 64 ≤ a.idle && !a.requests.isEmpty then .next (s.setArray a.endLease) else .next s

/-! ### Appending (R36, R59) -/

/-- Words appended to the ring of engine n, after the strand's older stores to their places; an append into a full ring blocks, and
one to a pinned byte (R219). -/
def appendRing (n cls : Nat) (ws : List Word32) : M Flow := do
  let s ← get
  let e := s.engine n
  let place (k : Nat) : Nat := chamAt s.core.id (e.wordOff (e.wp + BitVec.ofNat 16 k))
  if e.words < e.kept + ws.length then
    block { cls := cls, kind := 3, obj := n, eng := n, rpos := e.rp.toNat }
  else
    let _ ← match (List.range ws.length).findSome? fun k => s.core.pinnedBy (e.wordOff (e.wp + BitVec.ofNat 16 k)) 4 with
      | some i => block { cls := cls, kind := 4, obj := i }
      | none => pure ()
    let t := (List.range ws.length).foldl (fun (t : State) k => t.drainFor .cham (place k) 4) s
    set t
    if (List.range ws.length).any fun k => t.storesAhead .cham (place k) 4 then stayBlocked { cls := cls, kind := 9, obj := 0 }
    else
      let put (t : State) (x : Word32 × Nat) : State := t.performScratch .cham (place x.2) (leBytes 4 x.1.toNat)
      set ((ws.zipIdx.foldl put t).modEngine n fun x =>
        { x with wp := x.wp + BitVec.ofNat 16 ws.length, born := (x.wp, t.clk) :: x.born.filter fun y => (y.1 - x.fp).toNat < x.kept })
      return .seq

/-- The checks of a block's offset in an issue form: alignment, then the largest offset. -/
def checkBlock (off : Word) (align largest : Nat) : M Unit := do
  trapIf (off.toNat % align != 0) 0x10 0
  trapIf (largest < off.toNat) 0x11 0

/-- An issue form: the command word with X by the sync register, then the sync word. -/
def issueCmd (n : Nat) (cmd : Nat) (b : BitVec 6) : M Flow := do
  let sy ← rdA b
  if b = 0#6 then appendRing n 0 [BitVec.ofNat 32 cmd]
  else appendRing n 0 [BitVec.ofNat 32 (cmd + 2 ^ 24), sy.setWidth 32]

def execRapp (n : BitVec 3) (a : BitVec 6) (w : BitVec 4) (s : State) : Answer :=
  runAp (.rapp n a w) (do
    let x ← rdA a
    appendRing n.toNat w.toNat (if bit x 24 then [x.setWidth 32, bits x 32 32] else [x.setWidth 32])) s

/-! ### The steps around a command (R37 to R39) -/

/-- An illegal command: the engine stops before it (R68). -/
def execIllegalCommand (n : BitVec 3) (s : State) : Answer :=
  let k := n.toNat
  if s.engineLive k && !s.cmdLegal k && (s.engine k).phase == .start then
    .next (s.stopEngine k 0x21 ((s.engine k).posArg 0) 0 0 false)
  else .next s

/-- The tile that a private command of ring 0 names (R257). -/
def matTile : Instr → Option Nat
  | .mmzCmd _ t _ | .mmaCmd _ t _ | .mdrCmd _ t _ | .mldCmd _ t _ | .mxzCmd _ t _ _ | .mxaCmd _ t _ _ => some t.toNat
  | _ => none

/-- The words of a command, as bytes. -/
def cmdBytes (w : Word32) (sy : Option Word32) : List Byte :=
  leBytes 4 w.toNat ++ (match sy with | some x => leBytes 4 x.toNat | none => [])

/-- Does a command of a static segment keep R266 in its sync word?  The segment's end is a private command with SE = 1. -/
def staticSync (i : Instr) : Option Word32 → Bool
  | none => true
  | some x => syWait x == 63 && !syAcq x && (!syRel x || (sySe x && isArrayCmd i))

/-- An open segment takes in a command as it enters step 3: its words enter the CRC, its sync word is held against R266,
and a shared command costs one clk (R264 to R267). -/
def Segment.take (g : Segment) (i : Instr) (w : Word32) (sy : Option Word32) : Segment :=
  { g with
    crcNow := Sys2Proof.Machine.crcRun g.crcNow (cmdBytes w sy),
    broken := g.broken || (!g.bounded && !staticSync i sy),
    sc := if isArrayCmd i then g.sc else g.sc + 1 }

def Strand.tile (t : Strand) (n : Nat) : Tile := t.tiles[n]?.getD Tile.dead

/-- The command enters the window, the newest of 64 at the head, and the open segment, once (R413). -/
def State.enterWindow (s : State) (n : Nat) : State :=
  let e := s.engine n
  match s.cmd n with
  | none => s
  | some i =>
    if e.entered || !(n = 0 || n = 3 || n = 4) then s
    else
      let sy := s.cmdSync n
      let w : WindowCmd :=
        ⟨e.at_, s.cmdWord n, sy, (matTile i).map s.strand.tile, (sy.map syTs).getD false, none, none⟩
      let g := e.seg.map fun g => g.take i (s.cmdWord n) sy
      s.setEngine n { e with window := (w :: e.window).take 64, seg := g, entered := true }

/-- Step 2 done, where an acquire has dropped the operand buffer (R321): the command may begin step 3, and a private command of
ring 0 requests the array.  A `seg` whose core holds a lease that no `seg` has just opened ends it first (R253). -/
def State.acquired (s : State) (n : Nat) : State :=
  let acq := ((s.cmdSync n).map syAcq).getD false
  let t := (s.enterWindow n).modEngine n fun e => { e with phase := .acquired, operands := if acq then [] else e.operands }
  match n, s.cmd n with
  | 0, some i =>
    if !isArrayCmd i then t
    else
      let isSeg := match i with | .segCmd .. => true | _ => false
      if t.holdsArray && !(isSeg && (t.engine 0).seg.isNone && !(t.array.bySeg && t.array.cmds == 0)) then t
      else if t.holdsArray then (t.setArray t.array.endLease).requestArray
      else t.requestArray
  | _, _ => t

/-- Is the open segment due to be checked before its end: its counter has passed COUNT, or a rule of R266 is broken (R268)? -/
def Segment.due (g : Segment) : Bool := g.broken || g.count < g.sc

/-- Must the open segment be checked before step 3 of the command at RP?  A private command's own step 3 is replayed with the check
(R268, R415). -/
def Engine.overrun (e : Engine) (array : Bool) : Bool :=
  (e.seg.map Segment.due).getD false &&
  (e.phase == .start || e.phase == .waited || (e.phase == .acquired && (!array || e.fails == 0)))

/-- Is the command at RP of engine n a private one of ring 0? -/
def State.arrayCmd (s : State) (n : Nat) : Bool := (s.cmd n).any isArrayCmd

/-- Must the open segment of the core be checked before step 3 of its command at RP? -/
def State.segDue (s : State) : Bool := (s.engine 0).overrun (s.arrayCmd 0)

/-- Steps 1 and 2: the awaited semaphore gives a unit beyond those that engines with lower numbers take, and the command
has acquired. -/
def execEngineSyncWaitDone (n : BitVec 3) (s : State) : Answer :=
  let k := n.toNat
  let e := s.engine k
  if !s.engineLive k || !s.cmdLegal k || (k == 0 && s.segDue) then .next s
  else match e.phase with
    | .start =>
      let g := ((s.cmdSync k).map syWait).getD 63
      if g = 63 then .next (s.acquired k)
      else if (s.sema g).toNat ≤ s.waitsAhead g k then .next s
      else .next ((s.setSema g (s.sema g - 1)).acquired k)
    | .waited => .next (s.acquired k)
    | _ => .next s

/-- The signature of what an engine has written since its last release at SYSTEM. -/
def Engine.sig (e : Engine) : BitVec 512 := e.wrote.foldl (fun v a => v ||| sigOf a) 0

/-- Step 4: the release posts the sectors that the command wrote, with those of earlier commands, when no write to another
node is still on its way (R317, R321). -/
def State.engineRelease (s : State) (n : Nat) (scope : Nat) : State :=
  let t := s.modPack fun p => p.postUpTo s.core.id scope (s.engine n).sig
  if scope = 5 then t.modEngine n fun e => { e with wrote := [] } else t

/-- A release at SYSTEM for the writes of the strand and of its engines, once every store of theirs is performed (R96, R323). -/
def State.releaseAll (s : State) : State :=
  let sig := s.core.engines.toList.foldl (fun v e => v ||| e.sig) 0
  (s.flushEngines.releaseWith 5 sig).modCore fun c => { c with engines := c.engines.map fun e => { e with wrote := [] } }

/-- Has an engine a write to another node on its way? -/
def State.enginePodWrites (s : State) (n : Nat) : Bool :=
  s.share.pod.any fun r => r.core == s.core.id && r.agent == n && r.kind == .write

/-- The tiles kept with a segment. -/
def Segment.keep (t : Strand) (g : Segment) : Segment := { g with saved := (List.range 48).map fun k => (k, t.tile k) }

/-- What the end of step 5 does beside moving RP: the lease's count, which private commands raise, and its end, at SE = 1 of any
command; a segment that the lease leaves open breaks its rule (R253, R265, R268).  SC starts when a `seg` ends: the tiles are kept as they
stand (R266, R415). -/
def State.afterCommand (s0 : State) (n : Nat) : State :=
  let s := match n, s0.cmd n with
    | 0, some (.segCmd ..) => s0.modEngine 0 fun e => { e with seg := e.seg.map (Segment.keep s0.strand) }
    | _, _ => s0
  match n, s.cmd n with
  | 0, some i =>
    if s.holdsArray then
      let a := if isArrayCmd i then { s.array with cmds := s.array.cmds + 1, idle := 0 } else s.array
      if ((s.cmdSync n).map sySe).getD false || 32 ≤ a.cmds then (s.setArray a.endLease).modEngine 0 Engine.breakSeg
      else s.setArray a
    else s
  | _, _ => s

/-- Step 5, then RP passes the command; a raise on a full semaphore stops the engine before it (R38). -/
def State.raiseAndPass (s : State) (n : Nat) : State :=
  let g := ((s.cmdSync n).map syRaise).getD 63
  let done (t : State) : State :=
    let u := ((t.afterCommand n).modEngine n Engine.pass).podDone n
    if u.core.mode = .idle then u.engineEnded n else u
  if g = 63 then done s
  else if s.sema g = 65535 then
    let t := s.stopEngine n 0x20 ((s.engine n).posArg g) 0 0 false
    t.modEngine n fun e => { e with overflow := e.stopped }
  else done (s.setSema g (s.sema g + 1))

/-- Steps 4 and 5. -/
def execEngineCommandComplete (n : BitVec 3) (s : State) : Answer :=
  let k := n.toNat
  if !s.engineLive k then .next s
  else match (s.engine k).phase with
    | .performed =>
      if s.enginePodWrites k && ((s.cmdSync k).map syRel).getD false then .next s
      else
        let rel := (s.cmdSync k).filter syRel
        let t := match rel with
          | some w => (s.flushEngine k).engineRelease k (syScope w)
          | none => s
        .next ((t.modEngine k fun e => { e with phase := .released }).raiseAndPass k)
    | .released => .next (s.raiseAndPass k)
    | _ => .next s

/-! ### How an engine reaches memory (R313, R321, R404) -/

/-- A stop of step 3 of an engine's command: what it has done of memory is in the state that it keeps (R403, R414). -/
def engStop {α : Type} (t : Trap) : M α := do
  stop (.trap (some (← get)) t)

/-- A cause of an engine command, with its ring position in [31:16] of ARG. -/
def engTrap {α : Type} (n code low : Nat) : M α := do
  engStop (mkTrap .b code (((← get).engine n).posArg low))

/-- A cause of an engine command whose ARG holds no ring position, of a read or a write (R388). -/
def engTrapAt {α : Type} (code arg : Nat) (write : Bool := false) : M α := engStop { mkTrap .b code arg with kind := if write then 1 else 0 }

/-- An execution that fails (R414): the record's code and ARG stand in the stop. -/
def engFail {α : Type} (code arg : Nat) : M α := engStop (mkTrap .b code arg)

/-- Is a stop a failed execution? -/
def isFailure (t : Trap) : Bool := t.code == 0x31 || t.code == 0x32

/-- What stands of a step 3 that has stopped: memory, the translations and what the engine knows of its writes.  The strand is as
it was before, so no tile, flag or count has changed (R261, R403, R414). -/
def State.standing (s : State) (keep : Option State) : State :=
  match keep with
  | none => s
  | some u => u.modStrand fun _ => s.strand

/-- The engine stops at a cause of its command, with what it has done of memory. -/
def State.stopAt (s : State) (n : Nat) (keep : Option State) (t : Trap) : State :=
  (s.standing keep).stopEngine n t.code t.arg t.va t.kind t.host

/-- Does a leaf cover an address of an address space? -/
def TlbLeaf.covers (l : TlbLeaf) (asid : Nat) (host : Bool) (v : Nat) : Bool :=
  l.asid == asid && l.host == host && l.va ≤ v && v < l.va + 2 ^ l.size

/-- The translation of an address that the command at a ring position of an engine holds (R404). -/
def Engine.held (e : Engine) (pos : BitVec 16) (asid : Nat) (host : Bool) (v : Nat) : Option TlbLeaf :=
  (e.leaves.find? fun l => l.1 == pos && l.2.covers asid host v).map (·.2)

/-- A translation held for the command at a ring position of an engine. -/
def Engine.hold (e : Engine) (pos : BitVec 16) (l : TlbLeaf) : Engine :=
  { e with leaves := (pos, l) :: e.leaves.filter fun x =>
      !(x.1 == pos && x.2.asid == l.asid && x.2.host == l.host && x.2.va == l.va && x.2.size == l.size) }

/-- Translation by an engine: at the first access to a page, and held from then on (R404). -/
def engTranslate (n : Nat) (sp : Space) (a : Nat) (write : Bool) : M Phys := do
  let s ← get
  let host := sp == .host
  let va : Word := BitVec.ofNat 64 a
  let need : Need := { (if write then writeNeed else readNeed) with host := host }
  let e := s.engine n
  let held := e.held e.rp s.asid host (vaNat va)
  match s.translateBy held va need s.strand.info.priv with
  | .ok (p, t) =>
    set (match t.tlbFind host (vaNat va) with
      | some l => t.modEngine n fun x => x.hold e.rp l
      | none => t)
    return p
  | .error t => stop (.trap (some (if held.isSome then s else s.missed va host)) { t with cls := .b })

/-- Parts of a range that lie in one sector each; the fuel bounds their number. -/
def cutSectors : Nat → Nat → Nat → List (Nat × Nat)
  | 0, _, _ => []
  | k + 1, a, n =>
    if n = 0 then []
    else let m := min n (32 - a % 32); (a, m) :: cutSectors k (a + m) (n - m)

def sectorsIn (a n : Nat) : List (Nat × Nat) := cutSectors (n / 32 + 2) a n

/-- A sector of a home as engine n reads it: its own earlier writes to it are performed first; where parts lag, a copy in the
operand buffer serves the read, and a read from the home leaves one, but of an uncached page (R37, R310, R321, R324). -/
def State.engHome (s : State) (n : Nat) (sp : Space) (view uc : Bool) (a k : Nat) : (List Byte × Bool) × State :=
  let sec := sectorOf a
  let s0 := if (s.engine n).writes.any fun w => w.space == sp && w.view == view && meetsSector sec w.addr w.data.length then s.flushEngine n else s
  let cut (c : SectorCopy) : List Byte × Bool := ((c.data.drop (a - sec)).take k, c.poison)
  match if s.late && !uc then (s0.engine n).operands.find? fun c => c.space == sp && c.view == view && c.addr == sec else none with
  | some c => (cut c, s0)
  | none =>
    let t := s0.touchL2 sp view a
    if s.late && !uc then
      let h := t.homeBytes sp view sec 32
      let c : SectorCopy := ⟨sp, view, sec, h.1, h.2⟩
      (cut c, t.modEngine n fun e => { e with operands := c :: e.operands })
    else (t.homeBytes sp view a k, t)

/-- A read in step 3: ring 0 keeps what it has read, and a step 3 that resumes after a freeze takes that before it reads memory
again (R270). -/
def engKept (n : Nat) (m : M (List Byte × Bool)) : M (List Byte × Bool) := do
  if n ≠ 0 then m
  else match ((← get).engine 0).left with
    | x :: xs => do
      modify fun s => s.modEngine 0 fun e => { e with left := xs }
      return x
    | [] => do
      let r ← m
      modify fun s => s.modEngine 0 fun e => { e with got := r :: e.got }
      return r

/-- Bytes within one sector as an engine finds them, and whether the sector is poisoned. -/
def engFetch (n : Nat) (sp : Space) (a k : Nat) : M (List Byte × Bool) := do
  let home (view uc : Bool) (a : Nat) : M (List Byte × Bool) := do
    let r := (← get).engHome n sp view uc a k
    set r.2
    return r.1
  match sp with
  | .dev | .host =>
    let p ← engTranslate n sp a false
    let s ← get
    match s.targetOf sp p.pa with
    | .window w off => match s.windowRead w off k with
      | .data bs x t => do
        set t
        return (bs, x)
      | .ask r => stop (.ask r)
    | .pod node off => match s.podRead n node off k with
      | .data bs x t => do
        set t
        return (bs, x)
      | .ask r => stop (.ask r)
    | _ => home p.view p.uc p.pa
  | _ =>
    let s ← get
    home false false (placeOf sp s.core.id a)

/-- Bytes within one sector as a command of an engine reads them. -/
def engReadPart (n : Nat) (sp : Space) (a k : Nat) : M (List Byte × Bool) := engKept n (engFetch n sp a k)

/-- What a write of an engine leaves of the poison of its unit: marked; or clean where one unmarked write covers it, or unmarked
writes of the command have covered it together and none of its writes to it was marked (R110, R262, R411, assumption 17). -/
def State.engMark (s : State) (n : Nat) (sp : Space) (a k : Nat) (poison : Bool) : Option (Nat × Bool) × State :=
  let u := unitOf sp
  if poison then (some (a / u, true), s.modEngine n fun e => { e with marked := (sp, a / u) :: e.marked })
  else if a % u = 0 && k == u then
    (some (a / u, false), s.modEngine n fun e => { e with marked := e.marked.filter (· != (sp, a / u)) })
  else
    let x := sweep u (s.engine n).sweeps sp a k
    ((x.2.filter fun i => !(s.engine n).marked.contains (sp, i)).map fun i => (i, false),
      s.modEngine n fun e => { e with sweeps := x.1 })

/-- A write of an engine to device or host memory: to another node as a request, else at the home, at once or, where parts lag,
in a turn of its own; the operand buffer loses its copy of the sector (R321). -/
def State.engVirtual (s : State) (n : Nat) (sp : Space) (p : Phys) (bs : List Byte) (poison : Bool) : State :=
  let t := match s.targetOf sp p.pa with
    | .pod node off => if s.share.pack.quarantined.contains node then s else s.podWrite n node off bs poison
    | _ =>
      let m := s.engMark n sp p.pa bs.length poison
      let w : EngineWrite := ⟨sp, p.view, p.pa, bs, p.uc, m.1⟩
      if s.late then m.2.modEngine n fun e => { e with writes := e.writes ++ [w], operands := e.operands.filter fun c =>
        !(c.space == sp && meetsSector c.addr p.pa bs.length) } else m.2.performEngine w
  t.modEngine n fun e => { e with wrote := insertNat e.wrote (sectorOf p.pa) }

/-- Bytes within one sector written by an engine, marked poisoned or not. -/
def engWritePart (n : Nat) (sp : Space) (a : Nat) (bs : List Byte) (poison : Bool) : M Unit := do
  match sp with
  | .dev | .host =>
    let p ← engTranslate n sp a true
    modify fun s => s.engVirtual n sp p bs poison
  | _ => modify fun s =>
    let place := placeOf sp s.core.id a
    let m := s.engMark n sp place bs.length poison
    m.2.performEngine ⟨sp, false, place, bs, false, m.1⟩

/-- Bytes of a range with the poison of their sectors. -/
def engReadParts (n : Nat) (sp : Space) : List (Nat × Nat) → M (List (Byte × Bool))
  | [] => return []
  | x :: xs => do
    let r ← engReadPart n sp x.1 x.2
    let t ← engReadParts n sp xs
    return (r.1.map fun b => (b, r.2)) ++ t

def engRead (n : Nat) (sp : Space) (a k : Nat) : M (List (Byte × Bool)) := engReadParts n sp (sectorsIn a k)

/-- A range written sector by sector; a sector with a poisoned byte is written poisoned. -/
def engWriteParts (n : Nat) (sp : Space) : List (Nat × Nat) → List (Byte × Bool) → M Unit
  | [], _ => return ()
  | x :: xs, bs => do
    let p := bs.take x.2
    engWritePart n sp x.1 (p.map (·.1)) (p.any (·.2))
    engWriteParts n sp xs (bs.drop x.2)

def engWrite (n : Nat) (sp : Space) (a : Nat) (bs : List (Byte × Bool)) : M Unit :=
  engWriteParts n sp (sectorsIn a bs.length) bs

/-- Pages translated for writing, in ascending order. -/
def engPageLeaves (n : Nat) (sp : Space) : List Nat → M Unit
  | [] => return ()
  | a :: as => do
    let _ ← engTranslate n sp a true
    engPageLeaves n sp as

/-- Every page of a destination translated before any byte is written; A and D are set together once every page has passed (R405). -/
def engPages (n : Nat) (sp : Space) (as : List Nat) : M Unit := fun s =>
  match engPageLeaves n sp as s with
  | .error (.trap _ t) => .error (.trap (some s) t)
  | r => r

/-- First address in each 64 KiB page of a range. -/
def pageStarts (a n : Nat) : List Nat := (pagesOf a n).map fun p => max p a

/-- Translate the pages of a device or host destination. -/
def engPrepare (n : Nat) (sp : Space) (a len : Nat) : M Unit :=
  if sp == .dev || sp == .host then engPages n sp (pageStarts a len) else return ()

/-- Why a scratchpad range is not open to an engine: out of the space, a bank of the Chamber outside the mask, a ring
area under a write, a lattice region (R100, R104, R106). -/
def State.engineRefusal (s : State) (sp : Space) (a n : Nat) (write : Bool) : Option (Nat × Nat) :=
  if n = 0 then none
  else if spaceSize sp < a + n then some (0x11, 0)
  else match sp with
    | .cham =>
      match (List.range 8).find? fun b => bankOf a ≤ b && b ≤ bankOf (a + n - 1) && !bit s.strand.info.banks b with
      | some b => some (0x14, b)
      | none => if write then (s.core.ringWith fun e => e.areaHas a n).map fun k => (0x15, k) else none
    | .grot => (s.share.pack.regionAt a n).map fun r => (0x1A, r)
    | _ => none

/-- An engine holds while a byte that it would write is pinned by its own core (R218, R219). -/
def engHold (sp : Space) (a n : Nat) : M Unit := do
  let s ← get
  match if sp == .cham then s.core.pinnedBy a n else none with
  | some i => block { cls := 15, kind := 4, obj := i }
  | none => return ()

/-- The bytes of a command block in the Chamber, refused outside the bank mask. -/
def engBlock (off n : Nat) : M (List Byte) := do
  let s ← get
  match s.engineRefusal .cham off n false with
  | some x => engTrapAt x.1 x.2
  | none => return (s.homeBytes .cham false (chamAt s.core.id off) n).1

/-! ### Streams of a command -/

/-- The path of a command to a stream: PPOL 0 fails the execution, 1 counts a zero through `zero`, 2 marks. -/
def engPath (n : Nat) (v : Version) (ftz : Bool) (zero : M Unit) : Path where
  desc := v
  ftz := ftz
  read a k := engReadPart n v.memSpace a k
  write a bs m := engWriteParts n v.memSpace (sectorsIn a bs.length) (bs.map fun b => (b, m))
  pop _ := return (0, false)
  poisoned _ := match v.ppol with
    | 0 => engFail 0x31 n
    | 1 => do
      zero
      return false
    | _ => return true

/-- Why pieces of a stream are not open to the engine. -/
def State.piecesRefused (s : State) (v : Version) (write : Bool) (ps : List (Nat × Nat)) : Option (Nat × Nat) :=
  match v.memSpace with
  | .dev | .host => none
  | sp => ps.findSome? fun x => s.engineRefusal sp x.1 x.2 write

/-- Every byte that a stream names. -/
def Version.allPieces (v : Version) : List (Nat × Nat) := v.covered

/-- Is a byte that a stream would write pinned? -/
def engHoldStream (v : Version) (ps : List (Nat × Nat)) : M Unit := do
  let s ← get
  match if v.memSpace == .cham then ps.findSome? fun x => s.core.pinnedBy x.1 x.2 else none with
  | some i => block { cls := 15, kind := 4, obj := i }
  | none => return ()

/-- A refusal of a stream is a cause of the command. -/
def engOpen (v : Version) (write : Bool) (ps : List (Nat × Nat)) : M Unit := do
  match (← get).piecesRefused v write ps with
  | some x => engTrapAt x.1 x.2 write
  | none => return ()

/-- Pieces of a stream as a command reads them. -/
def pieceSnaps (n : Nat) (v : Version) : List (Nat × Nat) → M (List Snap)
  | [] => return []
  | x :: xs => do
    let r ← engReadPart n v.memSpace x.1 x.2
    let t ← pieceSnaps n v xs
    return ⟨0, 0, x.1, r.1, r.2⟩ :: t

/-- A failed trailer check of a command sets `aflags`.TM (R143). -/
def State.noteTrailer (s : State) (code arg : Nat) : State :=
  if code = 0x32 ∧ arg = 7 then s.modRegs fun r => r.sticky Flag.tm else s

/-- The trailer of a checked source: the answer is what it covers, read once; a mismatch fails the execution (R143). -/
def engTrailer (n : Nat) (v : Version) : M (List Snap) := do
  if v.trl then
    let tr ← pieceSnaps n v [(v.trailerAt, 32)]
    let bs ← pieceSnaps n v v.covered
    if !trailerOk v (Snap.all bs) (Snap.all tr) then engFail 0x32 7
    return bs
  else return []

/-- A path that delivers what has been read ahead, and else reads memory (R143). -/
def Path.ahead (p : Path) (xs : List Snap) : Path :=
  { p with read := fun a n => match Snap.cut xs a n with | some r => return r | none => p.read a n }

/-- Elements from i on. -/
def engElems (p : Path) : Nat → Nat → M (List Elem)
  | _, 0 => return []
  | i, n + 1 => do
    let x ← p.elem i
    let xs ← engElems p (i + 1) n
    return x :: xs

/-- The masks of a sparse source: a wrong one is the sparsity-mask cause (R139). -/
def engMasks (n place : Nat) (v : Version) : List Nat → M Unit
  | [] => return ()
  | g :: gs => do
    let ms ← pieceSnaps n v (v.maskPieces (v.rowOf (32 * g)) (v.colOf (32 * g)))
    if popCount 32 (leNat (Snap.all ms)) ≠ v.stored then engTrapAt 0x19 place
    engMasks n place v gs

end Sys2Proof.Machine
end

