-- ==== Sys2Proof/Machine/Matrix.lean ====
section
/-!
DEFINITION. The matrix array: issue forms, tiles, the private commands of ring 0, schedule segments, the freeze, failed
executions and replay (R245, R246, R256 to R270, R414 to R417).
-/
namespace Sys2Proof.Machine

/-! ### Issue forms (R245, R259) -/

/-- A command word of a form with a block: alignment and largest offset checked, offset in units at bit 0. -/
def issueMat (mo tile hi : Nat) (align largest : Nat) (a b : BitVec 6) : M Flow := do
  let off ← rdA a
  checkBlock off align largest
  issueCmd 0 (mo * 2 ^ 25 + tile * 2 ^ 18 + hi * 2 ^ 16 + off.toNat / align) b

def execMmz (t a b : BitVec 6) (s : State) : Answer := runAp (.mmz t a b) (issueMat 64 t.toNat 0 32 0x7FFFC0 a b) s
def execMma (t a b : BitVec 6) (s : State) : Answer := runAp (.mma t a b) (issueMat 65 t.toNat 0 32 0x7FFFC0 a b) s
def execMdr (t a b : BitVec 6) (s : State) : Answer := runAp (.mdr t a b) (issueMat 66 t.toNat 0 32 0x7FFFE0 a b) s
def execMxz (t a b : BitVec 6) (s : State) : Answer := runAp (.mxz t a b) (issueMat 67 t.toNat 0 128 0x7FFF80 a b) s
def execMxa (t a b : BitVec 6) (s : State) : Answer := runAp (.mxa t a b) (issueMat 68 t.toNat 0 128 0x7FFF80 a b) s
def execMld (t a b : BitVec 6) (s : State) : Answer := runAp (.mld t a b) (issueMat 69 t.toNat 0 32 0x7FFFE0 a b) s
def execSeg (a b : BitVec 6) (s : State) : Answer := runAp (.seg a b) (issueMat 70 0 0 32 0x7FFFE0 a b) s
def execMxzHd16 (t a b : BitVec 6) (s : State) : Answer :=
  runAp (.mxzHd16 t a b) (issueMat 67 t.toNat 1 128 0x7FFF80 a b) s
def execMxaHd16 (t a b : BitVec 6) (s : State) : Answer :=
  runAp (.mxaHd16 t a b) (issueMat 68 t.toNat 1 128 0x7FFF80 a b) s
def execMxzHd32 (t a b : BitVec 6) (s : State) : Answer :=
  runAp (.mxzHd32 t a b) (issueMat 67 t.toNat 2 128 0x7FFF80 a b) s
def execMxaHd32 (t a b : BitVec 6) (s : State) : Answer :=
  runAp (.mxaHd32 t a b) (issueMat 68 t.toNat 2 128 0x7FFF80 a b) s

/-! ### Tiles (R256 to R258) -/

/-- Element i of a tile; a dead tile reads +0. -/
def Tile.get (t : Tile) (i : Nat) : Word32 := if t.live then t.data[i]?.getD 0 else 0

/-- The elements of a tile. -/
def Tile.all (t : Tile) : List Word32 := (List.range 4096).map t.get

/-- A live tile with these elements. -/
def Tile.of (p : Bool) (d : List Word32) : Tile := ⟨true, p, d⟩

def State.setTile (s : State) (n : Nat) (t : Tile) : State :=
  s.modStrand fun x => { x with tiles := x.tiles.setIfInBounds n t }

/-- The ring position of the oldest in-flight command of ring 0 that names a tile; fuel words are scanned. -/
def State.namesFrom (s : State) (e : Engine) (tile : Nat) : Nat → BitVec 16 → Option (BitVec 16)
  | 0, _ => none
  | k + 1, p =>
    if p = e.wp then none
    else
      let w := s.ringWord e p
      let names := match decodeRing 0 w with
        | .ok i => matTile i == some tile
        | .error _ => false
      if names then some p
      else if bit w 24 then (if k = 0 then none else namesFrom s e tile (k - 1) (p + 2))
      else namesFrom s e tile k (p + 1)

/-- The accumulator-busy cause of R257. -/
def tileBusy (tile : Nat) : M Unit := do
  let s ← get
  let e := s.engine 0
  match if e.enabled && !e.idle then s.namesFrom e tile (e.wp - e.rp).toNat e.rp else none with
  | some p => trapP 0x1C (p.toNat * 2 ^ 16 + tile)
  | none => return ()

/-- The strand wrote the tile itself: no replay starts at an earlier command that names it (R415). -/
def State.cutReplays (s : State) (tile : Nat) : State :=
  s.modEngine 0 fun e =>
    { e with window := e.window.map fun w =>
        match decodeRing 0 w.word with
        | .ok i => if matTile i = some tile then { w with ts := false } else w
        | .error _ => w }

def execTget (d a : BitVec 6) (s : State) : Answer :=
  runAp (.tget d a) (do
    let x ← rdA a
    tileBusy (field x 12 6)
    trapIf (field x 18 46 != 0 || 48 ≤ field x 12 6) 0x11 0
    let t := (← get).strand.tile (field x 12 6)
    trapIf t.poisoned 0x16 0
    wrA d ((t.get (field x 0 12)).setWidth 64)
    return .seq) s

def execTput (a b : BitVec 6) (s : State) : Answer :=
  runAp (.tput a b) (do
    let x ← rdA a
    let v ← rdA b
    let n := field x 12 6
    tileBusy n
    trapIf (field x 18 46 != 0 || 48 ≤ n) 0x11 0
    modify fun s =>
      let t := s.strand.tile n
      (s.setTile n (Tile.of false (t.all.set (field x 0 12) (v.setWidth 32)))).cutReplays n
    return .seq) s

def execTkill (t : BitVec 6) (s : State) : Answer :=
  runAp (.tkill t) (do
    tileBusy t.toNat
    modify fun s => (s.setTile t.toNat Tile.dead).cutReplays t.toNat
    return .seq) s

/-! ### The checks of R246, R260 and R261 -/

/-- K of an operand: a multiple of 32 from 32 to 992, with COUNT 64 K. -/
def Version.operandK (v : Version) : Bool :=
  v.extent % 32 == 0 && 32 ≤ v.extent && v.extent ≤ 992 && v.count == 64 * v.extent

/-- BLK, PLN, HAD and SPAR are 0. -/
def Version.flat (v : Version) : Bool := v.blk == 0 && v.pln == 0 && v.had == 0 && v.spar == 0

/-- An operand of `mmz` and `mma`. -/
def Version.mmOk (v : Version) : Bool := !v.bad false && v.space < 4 && v.fmt == 1 && v.flat && v.operandK

/-- Formats of `mxz` and `mxa`. -/
def mxFmt (f : Nat) : Bool := f == 1 || (3 ≤ f && f ≤ 7) || f == 13

/-- Operands of `mxz` and `mxa` (R260): the descriptor that fails, 0 or 1. -/
def mxBad (a b : Version) (hd : Nat) : Option Nat :=
  let one (v : Version) : Bool := !v.bad false && v.space < 4 && mxFmt v.fmt && v.had == hd && v.operandK
  if !(one a && a.spar == 0) then some 0
  else if !(one b && (a.fmt == b.fmt || (a.fmt == 3 && b.fmt == 4) || (a.fmt == 4 && b.fmt == 3)) &&
      a.blk == b.blk && a.pln == b.pln && a.extent == b.extent) then some 1
  else none

/-- A drain destination or a tile source: 4,096 elements of FP32 or BF16. -/
def Version.tileOk (v : Version) (dest : Bool) : Bool :=
  !v.bad dest && v.space < 4 && v.fmt < 2 && v.count == 4096 && v.flat && !(dest && v.trl)

/-- ρ of R264. -/
def rho (v : Version) : Nat :=
  if v.fmt = 1 then 1
  else if v.fmt = 7 then 4
  else if v.fmt = 13 then (if v.pln < 2 then 8 else if v.pln < 4 then 4 else 2)
  else 2

/-- σ of R264. -/
def sigma (v : Version) : Nat := match v.spar with | 1 => 2 | 2 => 4 | _ => 1

/-- Has the stream SPACE 0, no trailer and unit stride, each row at a 64-byte boundary (R118, R266)? -/
def Version.plainChamber (v : Version) : Bool :=
  v.space == 0 && !v.trl && (v.packed || v.stride1 == (v.elemBytes : Int)) &&
  v.base % 64 == 0 && (v.rows ≤ 1 || v.stride2 % 64 == 0)

/-! ### Step 3 (R246, R261, R262) -/

/-- What step 3 of a command found: its cost and whether its streams keep R266. -/
structure MatDone where
  cost : Nat
  plain : Bool

/-- Cost of moving a tile (R264). -/
def moveCost (v : Version) : Nat := if v.fmt = 0 then 80 else 48

def mulDone (a b : Version) : MatDone := ⟨16 + a.extent / (rho a * sigma b), a.plainChamber && b.plainChamber⟩
def moveDone (v : Version) : MatDone := ⟨moveCost v, v.plainChamber⟩

/-- A poisoned element read as +0 under PPOL 1 counts in `mstat` (R262). -/
def countZero : M Unit := modify fun s => s.modSys fun y => { y with mstat := addSat y.mstat 32 32 1 }

/-- The elements of operand `place` of a command; the whole stream is read before the tile changes. -/
def matSource (place : Nat) (v : Version) (ftz : Bool) : M (List Elem) := do
  engOpen v false (v.covered ++ (if v.trl then [(v.trailerAt, 32)] else []))
  let ahead ← engTrailer 0 v
  let _ ← if v.spar ≠ 0 then engMasks 0 place v (List.range (ceilDiv v.count 32)) else pure ()
  engElems ((engPath 0 v ftz countZero).ahead ahead) 0 v.count

/-- Every sum of the tile, row by row, with the flags. -/
def matSums (ftz : Bool) (hd : Nat) (init : List Word32) (k : Nat) (as bs : List Val) : List Word32 × Flags :=
  let rows (l : List Val) : List (List Val) := chunks k 64 l
  let bRows := rows bs
  let out := ((rows as).flatMap fun r => bRows.map fun c => r.zip c).zip init |>.map fun x =>
    blockDot ftz hd x.2.toNat x.1
  (out.map fun r => BitVec.ofNat 32 r.1, out.foldl (fun f r => f ||| r.2) Flag.none)

/-- A product command: its operands checked, read and summed, the tile written whole. A mismatch in an element fails it
(R272). -/
def matMul (ftz : Bool) (tile hd : Nat) (init : Tile) (a b : Version) : M MatDone := do
  let xs ← matSource 0 a ftz
  let ys ← matSource 1 b ftz
  let r := matSums ftz hd init.all a.extent (xs.map (·.val)) (ys.map (·.val))
  let p := init.poisoned || xs.any (·.marked) || ys.any (·.marked)
  let wrong := (← get).array.upset
  if wrong ≠ 0 then engFail 0x32 wrong
  modify fun s => s.setTile tile (Tile.of p r.1)
  sticky (engineFlags r.2)
  return mulDone a b

/-- A drain element by element, a poisoned tile with every sector poisoned (R246, R409). -/
def drainElems (p : Path) (poison : Bool) : Nat → List (Nat × Flags) → M Unit
  | _, [] => return ()
  | i, x :: xs => do
    p.put i x.1 poison
    drainElems p poison (i + 1) xs

def matDrain (ftz : Bool) (tile : Nat) (v : Version) : M MatDone := do
  let ps := v.covered
  engOpen v true ps
  engHoldStream v ps
  let _ ← if v.memSpace == .dev || v.memSpace == .host then
      engPages 0 v.memSpace (ps.flatMap fun x => pageStarts x.1 x.2).mergeSort.eraseDups else pure ()
  let t := (← get).strand.tile tile
  let f := if v.fmt = 0 then fp32 else bf16
  let out := t.all.map fun x => roundFloat f 0 0 ftz false (fp32.decodeFtz ftz x.toNat)
  drainElems (engPath 0 v ftz (pure ())) t.poisoned 0 out
  sticky (engineFlags (out.foldl (fun g x => g ||| x.2) Flag.none))
  return moveDone v

def matLoad (ftz : Bool) (tile : Nat) (v : Version) : M MatDone := do
  let xs ← matSource 0 v ftz
  let out := xs.map fun x => BitVec.ofNat 32 (roundFloat fp32 0 0 ftz false x.val).1
  modify fun s => s.setTile tile (Tile.of (xs.any (·.marked)) out)
  return moveDone v

/-- The descriptors of a block of n descriptors. -/
def matBlock (off n : Nat) : M (Version × Version) := do
  let r ← engKept 0 do return (← engBlock off (32 * n), false)
  return (Version.ofBytes r.1, Version.ofBytes (r.1.drop 32))

/-- A tile of +0, not poisoned. -/
def zeroTile : Tile := ⟨false, false, []⟩

/-- Step 3 of a private command other than `seg`; `init` is its retained tile, and FTZ that of when its step 3 began (R246). -/
def matStep (ftz : Bool) (i : Instr) (init : Tile) : M MatDone :=
  match i with
  | .mmzCmd _ t b => do
    let d ← matBlock (32 * b.toNat) 2
    if !d.1.mmOk then engTrap 0 0x17 0
    else if !(d.2.mmOk && d.1.extent == d.2.extent) then engTrap 0 0x17 1
    else matMul ftz t.toNat 0 zeroTile d.1 d.2
  | .mmaCmd _ t b => do
    let d ← matBlock (32 * b.toNat) 2
    if !d.1.mmOk then engTrap 0 0x17 0
    else if !(d.2.mmOk && d.1.extent == d.2.extent) then engTrap 0 0x17 1
    else matMul ftz t.toNat 0 init d.1 d.2
  | .mdrCmd _ t b => do
    let d ← matBlock (32 * b.toNat) 1
    if !d.1.tileOk true then engTrap 0 0x17 0 else matDrain ftz t.toNat d.1
  | .mldCmd _ t b => do
    let d ← matBlock (32 * b.toNat) 1
    if !d.1.tileOk false then engTrap 0 0x17 0 else matLoad ftz t.toNat d.1
  | .mxzCmd _ t h o => do
    let d ← matBlock (128 * o.toNat) 2
    match mxBad d.1 d.2 h.toNat with
    | some k => engTrap 0 0x17 k
    | none => matMul ftz t.toNat (match h.toNat with | 0 => 0 | 1 => 4 | _ => 5) zeroTile d.1 d.2
  | .mxaCmd _ t h o => do
    let d ← matBlock (128 * o.toNat) 2
    match mxBad d.1 d.2 h.toNat with
    | some k => engTrap 0 0x17 k
    | none => matMul ftz t.toNat (match h.toNat with | 0 => 0 | 1 => 4 | _ => 5) init d.1 d.2
  | _ => return ⟨1, true⟩

/-- Cost and kind of a private command whose results were given up, from its block (R264, R416). -/
def matGiven : Instr → M MatDone
  | .mmzCmd _ _ b | .mmaCmd _ _ b => do
    let d ← matBlock (32 * b.toNat) 2
    return mulDone d.1 d.2
  | .mxzCmd _ _ _ o | .mxaCmd _ _ _ o => do
    let d ← matBlock (128 * o.toNat) 2
    return mulDone d.1 d.2
  | .mdrCmd _ _ b | .mldCmd _ _ b => do return moveDone (← matBlock (32 * b.toNat) 1).1
  | _ => return ⟨1, true⟩

/-- Does the command write its tile? -/
def writesTile : Instr → Bool
  | .mdrCmd .. => false
  | i => (matTile i).isSome

/-! ### The freeze (R270) -/

/-- The core freezes: the trap is taken at once, and every part holds its state; a prefix is read again with its word (R50). -/
def State.freeze (s : State) (t : Trap) : State :=
  let u := s.takeTrap t
  if u.inShadow then ((u.modAp fun _ => { s.ap with bind := .none }).modEp fun _ => { s.ep with bind := .none }).modCore fun c => { c with frozen := true } else u

/-- What step 3 of a command of ring 0 has done of memory when it stops: it stands, and the reads that a resumed step 3 takes again
are those that it has made (R270). -/
def State.uptoFault (s : State) (keep : Option State) : State := (s.standing keep).modEngine 0 fun e => { e with left := [] }

/-- What a stop in step 3 does when it is no failed execution: a translation or access fault freezes the core, once its
shadow is free; any other cause stops the engine. -/
def State.matStop (s : State) (keep : Option State) (t : Trap) : State :=
  if s.core.mode = .idle then (s.uptoFault keep).engineEnded 0
  else if t.code = 0x12 ∨ t.code = 0x13 then
    if s.inShadow then s
    else (s.uptoFault keep).freeze { t with cls := .b, eng := 0, src := 2, priv := s.strand.info.priv }
  else s.stopAt 0 keep t

/-- Step 3 begins, or resumes after a freeze (R270). -/
def State.beginStep (s : State) : State := s.modEngine 0 fun e => { e with left := e.got.reverse }

/-! ### Segments (R265 to R269) -/

/-- The check of R268 after a command's step 3: LAST, or none while nothing decides. -/
def Segment.check (g : Segment) (isEnd lastOfLease : Bool) : Option Nat :=
  if g.broken then some 4
  else if g.count < g.sc then some 2
  else if isEnd then
    if !g.bounded && g.sc != g.count then some 2
    else if ~~~g.crcNow != g.crc then some 3
    else some 1
  else if lastOfLease then some 4
  else none

/-- The open segment takes in what step 3 of a private command found. -/
def Segment.add (g : Segment) (d : MatDone) : Segment :=
  { g with sc := g.sc + d.cost, broken := g.broken || (!g.bounded && !d.plain) }

def State.setLast (s : State) (n : Nat) : State := s.modSys fun y => { y with mstat := setField y.mstat 0 8 n }

/-! #### Replays counted (R416, R419) -/

/-- A replay of the failed command at RP starts. -/
def State.startReplay (s : State) (n : Nat) : State :=
  (s.modCoreRegs fun r => { r with rplstat := addWrap r.rplstat 32 32 1 }).modEngine n fun e =>
    { e with fails := e.fails + 1, got := [], left := [] }

/-- An execution has not failed: after a failure, its replay stands. -/
def State.stood (s : State) (n : Nat) : State :=
  if (s.engine n).fails = 0 then s
  else (s.modCoreRegs fun r => { r with rplstat := addSat r.rplstat 16 16 1 }).modEngine n fun e => { e with fails := 0 }

/-- Both replays have failed: the results are poisoned. -/
def State.gaveUp (s : State) (n : Nat) : State :=
  (s.modCoreRegs fun r => { r with rplstat := addSat r.rplstat 0 16 1 }).modEngine n fun e => { e with fails := 0 }

/-- The command at RP has performed step 3. -/
def State.matPerformed (s : State) : State :=
  let t := s.stood 0
  t.modEngine 0 fun e => { e with phase := .performed, next := t.afterCmd e, got := [], left := [] }

/-- The open segment closes. -/
def State.segClosed (s : State) : State :=
  let t := s.modEngine 0 fun e => { e with seg := none }
  if t.holdsArray then t.setArray { t.array with seg := false } else t

/-- A segment that passed closes (R268). -/
def State.segPassed (s : State) : State :=
  ((s.setLast 1).modSys fun y => { y with mstat := addWrap y.mstat 16 16 1 }).segClosed

/-! ### Failed executions and replay (R414 to R417) -/

/-- The commands that a replay runs again, oldest first: from an open segment's `seg` on, else from the newest command
with TS = 1 that names the tile, those that write the tile, and the failed command itself (R415). -/
def replayList (e : Engine) (tile : Nat) : List WindowCmd :=
  let mat (w : WindowCmd) : Option Instr := match decodeRing 0 w.word with
    | .ok i => if isArrayCmd i then some i else none
    | .error _ => none
  match e.seg with
  | some g =>
    ((e.window.takeWhile fun w => !(w.pos == g.pos && bit w.word 31 && field w.word 25 7 == 70)).filter fun w => (mat w).isSome).reverse
  | none =>
    let mine := e.window.filter fun w => ((mat w).bind matTile) == some tile
    match mine.findIdx? (·.ts) with
    | some k => ((mine.take (k + 1)).filter fun w => ((mat w).map writesTile).getD false).reverse
    | none => (e.window.take 1)

/-- FTZ as it stands when step 3 of the command of engine n begins, kept with the command (R246). -/
def State.latchFtz (s : State) (n : Nat) : State :=
  s.modEngine n fun e => { e with window := match e.window with
    | w :: ws => (if w.ftz.isSome then w else { w with ftz := some s.ftz }) :: ws
    | [] => [] }

/-- FTZ of the command of engine n in step 3. -/
def State.stepFtz (s : State) (n : Nat) : Bool := ((s.engine n).window.head?.bind (·.ftz)).getD s.ftz

/-- One run of the commands again: step 3 only, each with its retained `init` and FTZ; the costs and R266. -/
def replayRun : List WindowCmd → M MatDone
  | [] => return ⟨0, true⟩
  | w :: ws => do
    let d ← match decodeRing 0 w.word with
      | .ok i => matStep (w.ftz.getD false) i (w.init.getD zeroTile)
      | .error _ => pure ⟨0, true⟩
    let r ← replayRun ws
    return ⟨d.cost + r.cost, d.plain && r.plain⟩

/-- The tiles that the commands write, once each. -/
def tilesOf (ws : List WindowCmd) : List Nat :=
  (ws.filterMap fun w => match decodeRing 0 w.word with
    | .ok i => if writesTile i then matTile i else none
    | .error _ => none).eraseDups

/-- Shared-subset commands of the open segment, one clk each. -/
def sharedCost (e : Engine) : Nat :=
  match e.seg with
  | none => 0
  | some g =>
    ((e.window.takeWhile fun w => !(w.pos == g.pos && field w.word 25 7 == 70)).filter fun w =>
      match decodeRing 0 w.word with
      | .ok i => !isArrayCmd i
      | .error _ => true).length

/-- The tiles that these commands of an open segment write, as they stood when SC started (R415). -/
def State.restoreTiles (s : State) (ws : List WindowCmd) : State :=
  match (s.engine 0).seg with
  | none => s
  | some g => (g.saved.filter fun x => (tilesOf ws).contains x.1).foldl (fun t x => t.setTile x.1 x.2) s

/-- The outcome of one replay: the state it leaves, with the segment's check done; a failure; a stop. -/
inductive Replayed where
  | stands (s : State)
  | fails (keep : Option State) (code arg : Nat)
  | stop (keep : Option State) (t : Trap)
  | waits (x : Stop)

def State.replay (s : State) (ws : List WindowCmd) (isEnd lastOfLease : Bool) : Replayed :=
  match (replayRun ws).run (s.beginStep.restoreTiles ws) with
  | .error (.trap k t) => if isFailure t then .fails k t.code t.arg else .stop k t
  | .error x => .waits x
  | .ok (d, t) =>
    match (t.engine 0).seg with
    | none => .stands t
    | some g =>
      let g1 : Segment := { g with sc := d.cost + sharedCost (s.engine 0), broken := g.broken || (!g.bounded && !d.plain) }
      let t1 := t.modEngine 0 fun e => { e with seg := some g1 }
      match g1.check isEnd lastOfLease with
      | none => .stands t1
      | some 1 => .stands t1.segPassed
      | some k => .fails (some t) 0x32 k

/-- The end of a command whose replays failed: tiles poisoned, records written, and on to step 4 (R416). -/
def State.poisonTiles (s : State) (ws : List WindowCmd) (code arg : Nat) : State :=
  let ts := tilesOf ws
  let mark (u : State) (n : Nat) : State := u.setTile n { u.strand.tile n with live := true, poisoned := true }
  let s1 := ts.foldl mark s
  let s2 := s1.addRecord (s1.mkRecord s1.core code arg 0)
  ts.foldl (fun u n => u.addRecord (u.mkRecord u.core 0x33 n 0)) s2

/-- What a failed execution leaves of itself: LAST, which a failed check gives its result and a mismatch inside a segment
0; the mismatch is gone (R268, R272). -/
def State.failed (s : State) (code arg : Nat) : State :=
  let t := (s.setArray { s.array with upset := 0 }).noteTrailer code arg
  if code = 0x32 && arg < 5 then t.setLast arg
  else if code = 0x32 && arg < 7 && (s.engine 0).seg.isSome then t.setLast 0
  else t

/-- The cost of all that a segment has run up to a command whose results were given up (R264, R416). -/
def givenRun : List WindowCmd → M MatDone
  | [] => return ⟨0, true⟩
  | w :: ws => do
    let d ← match decodeRing 0 w.word with
      | .ok i => matGiven i
      | .error _ => pure ⟨0, true⟩
    let r ← givenRun ws
    return ⟨d.cost + r.cost, d.plain && r.plain⟩

/-- The check of an open segment after a command whose results were given up, which has no replay left (R268, R416): a failed check
closes the segment and gives LAST its result, but for a mismatch, after which LAST stands at 0 (R272). -/
def State.givenCheck (s : State) (ws : List WindowCmd) (mismatch isEnd lastOfLease : Bool) : State :=
  match (s.engine 0).seg with
  | none => s
  | some g =>
    let d := match (givenRun ws).run s with
      | .ok (d, _) => d
      | .error _ => ⟨0, true⟩
    let g1 : Segment := { g with sc := d.cost + sharedCost (s.engine 0), broken := g.broken || (!g.bounded && !d.plain) }
    let t := s.modEngine 0 fun e => { e with seg := some g1 }
    match g1.check isEnd lastOfLease with
    | none => t
    | some k => if mismatch then t.segClosed else if k = 1 then t.segPassed else (t.setLast k).segClosed

/-- A failed execution of the command at RP, from what it has left: its tile and flags are discarded, and it is replayed, at
most twice; then its tiles are poisoned, a segment that failed its check closes, and one that ends here is checked (R268, R414, R416). -/
def State.matFail (s : State) (ws : List WindowCmd) (code arg : Nat) (isEnd lastOfLease : Bool) : State :=
  let s0 := s.failed code arg
  if (s.engine 0).fails < 2 then s0.startReplay 0
  else
    let t := ((s0.poisonTiles ws code arg).gaveUp 0).matPerformed
    if code = 0x32 && arg < 5 then t.segClosed
    else t.givenCheck ws (code == 0x32 && arg < 7) isEnd lastOfLease

/-! ### Commands -/

/-- A private command of ring 0 in step 3, when the core holds the array: its first execution, or a replay of it. -/
def runMatrix (i : Instr) (s0 : State) : Answer :=
  if !(s0.engineLive 0 && (s0.engine 0).phase == .acquired && s0.holdsArray && engineWf i) then .next s0
  else
    let s := s0.latchFtz 0
    let e := s.engine 0
    let sy := s.cmdSync 0
    let isEnd := (sy.map sySe).getD false
    let lastOf := s.array.cmds + 1 == 32 && !isEnd
    let ws := replayList e ((matTile i).getD 0)
    if e.fails ≠ 0 then
      match s.replay ws isEnd lastOf with
      | .stands t => .next t.matPerformed
      | .fails k code arg => .next ((s.uptoFault k).matFail ws code arg isEnd lastOf)
      | .stop k t => .next (s.matStop k t)
      | .waits (.ask r) => .next (s.podAsk r)
      | .waits _ => .next s
    else
      match (matStep (s.stepFtz 0) i ((e.window.head?.bind (·.init)).getD zeroTile)).run s.beginStep with
      | .error (.trap k t) =>
        if isFailure t then .next ((s.uptoFault k).matFail ws t.code t.arg isEnd lastOf) else .next (s.matStop k t)
      | .error (.block _) => .next s
      | .error (.ask r) => .next (s.podAsk r)
      | .ok (d, t) =>
        match e.seg with
        | none => .next t.matPerformed
        | some g =>
          let g1 := g.add d
          let t1 := t.modEngine 0 fun x => { x with seg := some g1 }
          match g1.check isEnd lastOf with
          | none => .next t1.matPerformed
          | some 1 => .next t1.segPassed.matPerformed
          | some k => .next ((s.uptoFault (some t)).matFail ws 0x32 k isEnd lastOf)

def execMmzCmd (x : BitVec 1) (t : BitVec 6) (b : BitVec 18) (s : State) : Answer := runMatrix (.mmzCmd x t b) s
def execMmaCmd (x : BitVec 1) (t : BitVec 6) (b : BitVec 18) (s : State) : Answer := runMatrix (.mmaCmd x t b) s
def execMdrCmd (x : BitVec 1) (t : BitVec 6) (b : BitVec 18) (s : State) : Answer := runMatrix (.mdrCmd x t b) s
def execMxzCmd (x : BitVec 1) (t : BitVec 6) (h : BitVec 2) (o : BitVec 16) (s : State) : Answer :=
  runMatrix (.mxzCmd x t h o) s
def execMxaCmd (x : BitVec 1) (t : BitVec 6) (h : BitVec 2) (o : BitVec 16) (s : State) : Answer :=
  runMatrix (.mxaCmd x t h o) s
def execMldCmd (x : BitVec 1) (t : BitVec 6) (b : BitVec 18) (s : State) : Answer := runMatrix (.mldCmd x t b) s

/-- `seg`: the block is read, and a segment opens with SC at 0 (R265). -/
def execSegCmd (x : BitVec 1) (b : BitVec 18) (s : State) : Answer :=
  let e := s.engine 0
  if !(s.engineLive 0 && e.phase == .acquired && s.holdsArray && engineWf (.segCmd x b)) then .next s
  else
    let m : M Unit := do
      if e.seg.isSome then engTrap 0 0x23 0
      else
        let bs ← engBlock (32 * b.toNat) 32
        let w := leNat bs
        if w / 2 ^ 64 ≠ 0 || w / 2 ^ 25 % 2 ^ 7 ≠ 0 then engTrap 0 0x21 0
        else
          modify fun s => (s.setArray { s.array with seg := true }).modEngine 0 fun e =>
            { e with seg := some ⟨w / 2 ^ 24 % 2 == 1, w % 2 ^ 24, BitVec.ofNat 32 (w / 2 ^ 32), 0, 0xFFFFFFFF#32, false, e.at_,
                                  b.toNat, [], false, 0⟩ }
    match m.run s with
    | .error (.trap k t) => .next (s.matStop k t)
    | .error _ => .next s
    | .ok (_, t) => .next t.matPerformed

/-- The segment's counter passes COUNT, or a rule of R266 is broken, before the end: the check fails at the command at RP, whose step
3 has not begun, and what the segment has run is replayed (R268, R415, assumption 48). -/
def execSegmentCountOverrun (s : State) : Answer :=
  let e := s.engine 0
  if !(s.segDue && !s.core.frozen && e.enabled && !e.stopped) then .next s
  else
    let ws := replayList { e with window := e.window.drop (if e.entered then 1 else 0) } 0
    let last := if (e.seg.map (·.broken)).getD false then 4 else 2
    let failed (u : State) (code arg : Nat) : State :=
      let s0 := u.failed code arg
      if e.fails < 2 then s0.startReplay 0
      else ((s0.poisonTiles ws code arg).gaveUp 0).segClosed
    if e.fails = 0 then .next ((s.setLast last).startReplay 0)
    else match s.replay ws false false with
      | .stands t => .next ((t.stood 0).modEngine 0 fun x => { x with got := [], left := [] })
      | .fails k code arg => .next (failed (s.uptoFault k) code arg)
      | .stop k t => .next (s.matStop k t)
      | .waits (.ask r) => .next (s.podAsk r)
      | .waits _ => .next s

end Sys2Proof.Machine
end

