-- ==== Sys2Proof/Machine/NearBank.lean ====
section
/-!
DEFINITION. Near-bank multiplication in the stacks (R195 to R207).
-/
namespace Sys2Proof.Machine

/-! ### References on a slot (R199) -/

/-- The commands in flight in a ring of a core: pointer, word, sync word; the fuel bounds the words scanned. -/
def commandsFrom (s : State) (c : Core) (e : Engine) : Nat → BitVec 16 → List (BitVec 16 × Word32 × Option Word32)
  | 0, _ => []
  | k + 1, p =>
    if p = e.wp then []
    else
      let w := (s.focus c.id).ringWord e p
      if bit w 24 then
        (p, w, some ((s.focus c.id).ringWord e (p + 1))) :: (if k = 0 then [] else commandsFrom s c e (k - 1) (p + 2))
      else (p, w, none) :: commandsFrom s c e k (p + 1)

def State.commands (s : State) (c : Core) (n : Nat) : List (BitVec 16 × Word32 × Option Word32) :=
  let e := c.engines[n]?.getD Engine.reset
  if !e.idle then commandsFrom s c e (e.wp - e.rp).toNat e.rp else []

/-- The slots that near-bank commands in flight on a core name, one for each command. -/
def State.slotsOf (s : State) (c : Core) : List Nat :=
  (s.commands c 4).filterMap fun x => if field x.2.1 25 7 == 64 then x.2.2.map fun y => field y 26 6 else none

/-- What saved strands have kept, in the task queues and the gangs that are to be restored. -/
def Share.saved (h : Share) : List Kept :=
  h.dies.toList.flatMap fun d => (d.tq.toList.flatMap fun q => q.records.flatMap (·.kept)) ++ d.gangs.flatMap (·.record.kept)

/-- References held on a slot: near-bank commands in flight that name it, those of saved strands among them. -/
def State.slotRefs (s : State) (slot : Nat) : Nat :=
  ((s.cores.flatMap s.slotsOf ++ s.share.saved.flatMap (·.slots)).filter (· == slot)).length

def State.slot (s : State) (k : Nat) : ModelSlot := s.hub.slots[k]?.getD ModelSlot.reset

/-- First physical address of a slot's image. -/
def ModelSlot.first (x : ModelSlot) : Nat := x.phys.headD 0

/-- The loaded slot whose descriptor table holds a physical address. -/
def State.slotHolding (s : State) (pa : Nat) : Option Nat :=
  (List.range 64).find? fun k =>
    let x := s.slot k
    x.state == .loaded && x.first ≤ pa && pa < x.first + 0x2000

/-! ### Issue (R199) -/

def issueNb (acc : Nat) (d a b : BitVec 6) (k : BitVec 3) : M Flow := do
  let va ← rdA d
  let off ← rdA a
  trapIf (field va 0 6 != 0 || field off 0 5 != 0) 0x10 0
  trapIf (0x7FFFC0 < off.toNat) 0x11 0
  let p ← translate va readNeed
  let s ← get
  let e := s.engine 4
  match s.slotHolding p.pa with
  | none => trapP 0x24 (e.wp.toNat * 2 ^ 16)
  | some n =>
    if (s.slot n).stack ≠ dieOf s.core.id then trapP 0x24 (e.wp.toNat * 2 ^ 16)
    else
      let v ← rdA b
      let sw := if b = 0#6 then 0xFFF else field v 0 19
      let fz := if s.ftzAp then 1 else 0
      let cmd := 64 * 2 ^ 25 + 2 ^ 24 + k.toNat * 2 ^ 21 + acc * 2 ^ 20 + fz * 2 ^ 19 + off.toNat / 32
      let f ← appendRing 4 0 [BitVec.ofNat 32 cmd, BitVec.ofNat 32 (n * 2 ^ 26 + (p.pa - (s.slot n).first) / 64 * 2 ^ 19 + sw)]
      if let (.seq, some l) := (f, s.tlbFind false (vaNat va)) then modify fun t => t.modEngine 4 fun x => x.hold e.wp l
      return f

def execNbmv (d a b : BitVec 6) (k : BitVec 3) (s : State) : Answer := runAp (.nbmv d a b k) (issueNb 0 d a b k) s
def execNbmva (d a b : BitVec 6) (k : BitVec 3) (s : State) : Answer := runAp (.nbmva d a b k) (issueNb 1 d a b k) s

/-! ### The descriptor (R196 to R198) -/

/-- A near-bank matrix descriptor. -/
structure NbDesc where
  rows : Nat
  k : Nat
  stk : Nat
  pc0 : Nat
  ppol : Nat
  ver : Nat
  wbase : Nat
  pstr : Nat
  rstr : Nat
  sbase : Nat
  srstr : Nat
  rest : Nat

def NbDesc.ofBytes (bs : List Byte) : NbDesc :=
  let f (o n : Nat) : Nat := leNat ((bs.drop o).take n)
  ⟨f 0 2, f 2 2, f 4 1, f 5 1, f 6 1, f 7 1, f 8 8, f 16 8, f 24 8, f 32 8, f 40 8, f 48 16⟩

namespace NbDesc

def groups (d : NbDesc) : Nat := ceilDiv d.k 256
def blocks (d : NbDesc) : Nat := ceilDiv d.k 32

/-- Pseudo-channel and local index of a row. -/
def channel (d : NbDesc) (r : Nat) : Nat := (d.pc0 + r) % 64
def place (d : NbDesc) (r j g : Nat) : Nat := d.wbase + j * d.pstr + r / 64 * d.rstr + 32 * g
def scaleAt (d : NbDesc) (r b : Nat) : Nat := d.sbase + r / 64 * d.srstr + 2 * b

/-- The limits of R197. -/
def limits (d : NbDesc) : Bool :=
  d.rest == 0 && d.ver == 1 && d.ppol < 3 && d.pc0 < 64 && d.stk < 8 && d.k != 0 && d.rows != 0 &&
  d.srstr % 2 == 0 && 2 * d.blocks ≤ d.srstr && d.sbase % 2 == 0 && d.rstr % 32 == 0 && 32 * d.groups ≤ d.rstr &&
  d.pstr % 32 == 0 && d.rstr * ceilDiv d.rows 64 ≤ d.pstr && d.wbase % 32 == 0

end NbDesc

/-- The range of offsets that a slot's pages cover in a pseudo-channel, as first and end (R345): a page of 64 KiB holds one
granule in each of 16 channels. -/
def ModelSlot.extent (x : ModelSlot) (p : Nat) : Nat × Nat :=
  let offs := x.phys.filterMap fun a =>
    let b := a % 2 ^ 36
    if b / 65536 % 4 = p / 16 then some (b / 262144 * 4096) else none
  match offs with
  | [] => (0, 0)
  | o :: os => (os.foldl min o, os.foldl max o + 4096)

/-- Does the descriptor pass R198 for the slot that holds it? -/
def NbDesc.ok (d : NbDesc) (x : ModelSlot) : Bool :=
  d.limits && d.stk == x.stack &&
  (List.range d.rows).all fun r =>
    let e := x.extent (d.channel r)
    (List.range 8).all (fun j => e.1 ≤ d.place r j 0 && d.place r j 0 + 32 * d.groups ≤ e.2) &&
    e.1 ≤ d.scaleAt r 0 && d.scaleAt r 0 + 2 * d.blocks ≤ e.2

/-! ### Step 3 (R201 to R205) -/

/-- The streams of a command block. -/
def nbSrcOk (v : Version) (d : NbDesc) : Bool :=
  !v.bad false && v.space < 3 && v.fmt == 1 && v.count == d.k && v.flat
def nbDstOk (v : Version) (d : NbDesc) : Bool :=
  !v.bad true && v.space < 3 && v.fmt == 0 && v.count == d.rows && v.flat && !v.trl

/-- The descriptor and streams of an `nbq`, checked; the slot's stack must be the core's die, and a slot that waits to be evicted
still holds its image (R198 to R201, R346).  The descriptor's bytes are used as they are stored, poisoned or not (assumption 50). -/
def nbChecked (r : BitVec 24) (sy : Word32) : M (NbDesc × Version × Version) := do
  let s ← get
  let x := s.slot (field sy 26 6)
  let d := NbDesc.ofBytes (s.homeBytes .dev false (x.first + 64 * field sy 19 7) 64).1
  if !((x.state == .loaded || x.state == .evicting) && x.stack == dieOf s.core.id && d.ok x) then engTrap 4 0x24 0
  else
    let b ← matBlockOf (32 * field r 0 18)
    if !nbSrcOk b.1 d then engTrap 4 0x17 0
    else if !nbDstOk b.2 d then engTrap 4 0x17 1
    else
      engOpen b.1 false (b.1.covered ++ (if b.1.trl then [(b.1.trailerAt, 32)] else []))
      engOpen b.2 true b.2.covered
      engHoldStream b.2 b.2.covered
      return (d, b.1, b.2)
where
  matBlockOf (off : Nat) : M (Version × Version) := matBlock off 2

/-- Bytes of a stack at an offset of a pseudo-channel, with poison. -/
def State.channelBytes (s : State) (stk p o n : Nat) : List Byte × Bool :=
  s.homeBytes .dev false (stackAt stk (channelAt p o)) n

/-- Blocks of row r that poison touches, and the row's weights as values under k planes. -/
def NbDesc.row (d : NbDesc) (s : State) (r k : Nat) : List Nat × List Val :=
  let p := d.channel r
  let planes := (List.range d.groups).map fun g => (List.range k).map fun j => s.channelBytes d.stk p (d.place r j g) 32
  let scales := (List.range d.blocks).map fun b => s.channelBytes d.stk p (d.scaleAt r b) 2
  let bad := (List.range d.blocks).filter fun b =>
    ((scales[b]?.map (·.2)).getD false) || ((planes[b / 8]?.getD []).any (·.2))
  let code (n : Nat) : Nat :=
    (((planes[n / 256]?.getD []).zipIdx).map fun x =>
      if bit (x.1.1[n % 256 / 8]?.getD 0) (n % 8) then 2 ^ (7 - x.2) else 0).sum
  (bad, (List.range d.k).map fun n =>
    if bad.contains (n / 32) then Val.zero false
    else scaleVal (elemVal 13 k false (code n)) (bf16.decode (leNat ((scales[n / 32]?.map (·.1)).getD []))))

/-- What a pass knows of its rows: sums with marks, flags, blocks read as zero. -/
structure NbSums where
  out : List (Nat × Bool)
  flags : Flags
  zeroed : Nat

/-- The rows of a pass in order; a poisoned weight under PPOL 0 fails the execution. -/
def nbRows (d : NbDesc) (k : Nat) (fz mark : Bool) (a : List Val) (init : Nat → Nat × Bool) : Nat → Nat → M NbSums
  | _, 0 => return ⟨[], Flag.none, 0⟩
  | r, n + 1 => do
    let s ← get
    let w := d.row s r k
    if !w.1.isEmpty && d.ppol == 0 then engFail 0x31 4
    else
      let v := blockDot fz 0 (init r).1 (a.zip w.2)
      let t ← nbRows d k fz mark a init (r + 1) n
      return ⟨(v.1, mark || (init r).2 || (!w.1.isEmpty && d.ppol == 2)) :: t.out, v.2 ||| t.flags,
        (if d.ppol = 1 then w.1.length else 0) + t.zeroed⟩

/-- A destination written element by element. -/
def putMarked (p : Path) : Nat → List (Nat × Bool) → M Unit
  | _, [] => return ()
  | i, x :: xs => do
    p.put i x.1 x.2
    putMarked p (i + 1) xs

/-- Old destination elements with their marks; PPOL is ignored. -/
def oldElems (v : Version) : Nat → M (List (Nat × Bool))
  | 0 => return []
  | n + 1 => do
    let t ← oldElems v n
    let r ← engReadPieces v (v.pieces (v.rowOf n) (v.colOf n))
    return t ++ [(leNat r.1, r.2)]
where
  engReadPieces (v : Version) : List (Nat × Nat) → M (List Byte × Bool)
    | [] => return ([], false)
    | x :: xs => do
      let r ← engReadPart 4 v.memSpace x.1 x.2
      let t ← engReadPieces v xs
      return (r.1 ++ t.1, r.2 || t.2)

/-- The old destination elements that the command keeps, read once, before any write (R202). -/
def nbKeep (r : BitVec 24) (sy : Word32) : M Unit := do
  let e := (← get).engine 4
  if bit r 20 && ((e.window.head?.bind (·.olds)).isNone) then
    let c ← nbChecked r sy
    let old ← oldElems c.2.2 c.1.rows
    modify fun s => s.modEngine 4 fun e => { e with window := match e.window with
      | w :: ws => { w with olds := some old } :: ws
      | [] => [] }

/-- A pass; the engine's window holds what it starts from. -/
def nbPass (r : BitVec 24) (sy : Word32) : M Unit := do
  let c ← nbChecked r sy
  let d := c.1
  let fz := bit r 19
  let ahead ← engTrailer 4 c.2.1
  let count : M Unit := modify fun s => s.modSys fun y => { y with nbpois := addSat y.nbpois 0 32 1 }
  let xs ← engElems ((engPath 4 c.2.1 fz count).ahead ahead) 0 d.k
  let old := (((← get).engine 4).window.head?.bind (·.olds)).getD []
  let init (n : Nat) : Nat × Bool := old[n]?.getD (0, false)
  let t ← nbRows d (field r 21 3 + 1) fz (xs.any (·.marked)) (xs.map (·.val)) init 0 d.rows
  putMarked (engPath 4 c.2.2 fz (pure ())) 0 t.out
  sticky (engineFlags t.flags)
  modify fun s => s.modSys fun y => { y with nbpois := addSat y.nbpois 32 32 t.zeroed }

/-- Pieces of a destination written poisoned, the bytes as they were (R416). -/
def poisonPieces (n : Nat) (sp : Space) : List (Nat × Nat) → M Unit
  | [] => return ()
  | x :: xs => do
    let bs ← engRead n sp x.1 x.2
    engWriteParts n sp (sectorsIn x.1 x.2) (bs.map fun b => (b.1, true))
    poisonPieces n sp xs

/-- Step 3 is closed. -/
def State.engPerformed (s : State) (n : Nat) : State :=
  let t := s.stood n
  t.modEngine n fun e => { e with phase := .performed, next := t.afterCmd e }

/-- A failed execution of a command of engine 3 or 4: it is replayed, at most twice; then its destination is written
poisoned, a record is written, and the command goes on to step 4 (R416). -/
def State.engFailed (s0 : State) (n : Nat) (code arg : Nat) (poison : M Unit) (closed : State → State) : State :=
  let s := s0.noteTrailer code arg
  if (s.engine n).fails < 2 then s.startReplay n
  else
    let u := match poison.run s with
      | .ok (_, u) => u
      | .error _ => s
    closed (((u.addRecord (u.mkRecord u.core code arg n)).gaveUp n).engPerformed n)

/-- `nbq` in step 3: checked, then into the queue of its stack; the engine holds while the queue is full (R204). -/
def execNbq (x : BitVec 1) (r : BitVec 24) (s : State) : Answer :=
  let e := s.engine 4
  if !(s.engineLive 4 && e.phase == .acquired && x == 1#1) then .next s
  else
    match (nbChecked r ((s.cmdSync 4).getD 0)).run s with
    | .error (.trap k t) => .next (s.stopAt 4 k t)
    | .error _ => .next s
    | .ok (c, _) =>
      let q := s.share.passes[c.1.stk]?.getD []
      if 48 ≤ (q.filter fun p => !p.running).length then .next s
      else
        let put (h : Share) : Share :=
          { h with passes := h.passes.setIfInBounds c.1.stk (q ++ [⟨s.core.id, s.clk, false⟩]) }
        .next ((s.modShare put).modEngine 4 fun e => { e with phase := .handed })

/-- Does one pass go before another: arrival, then core number? -/
def NbPass.before (x y : NbPass) : Bool := x.arrived < y.arrived || (x.arrived == y.arrived && x.core < y.core)

/-- The pass that is first in a queue. -/
def firstPass : List NbPass → Option NbPass
  | [] => none
  | x :: xs => match firstPass xs with
    | some y => if y.before x then some y else some x
    | none => some x

/-- An idle stack starts its first pass (R204). -/
def execNbPassStart (st : BitVec 3) (s : State) : Answer :=
  let q := s.share.passes[st.toNat]?.getD []
  match firstPass q with
  | none => .next s
  | some p =>
    if q.any (·.running) then .next s
    else
      let q1 := { p with running := true } :: q.erase p
      .next (s.modShare fun h => { h with passes := h.passes.setIfInBounds st.toNat q1 })

/-- The pass that runs in a stack completes: the sums are written and the engine goes on. -/
def execNbPassComplete (st : BitVec 3) (s : State) : Answer :=
  let q := s.share.passes[st.toNat]?.getD []
  match q.find? (·.running) with
  | none => .next s
  | some p =>
    let t := s.focus p.core
    if !t.engineLive 4 || (t.engine 4).phase != .handed then .next s
    else
      let closed (u : State) : State := u.modShare fun h => { h with passes := h.passes.setIfInBounds st.toNat (q.erase p) }
      match t.cmd 4 with
      | some (.nbq _ r) =>
        let sy := (t.cmdSync 4).getD 0
        let k := match (nbKeep r sy).run t with
          | .ok (_, u) => u
          | .error _ => t
        match (nbPass r sy).run k with
        | .ok (_, v) => .next (closed (v.engPerformed 4))
        | .error (.trap u x) =>
          if isFailure x then
            .next ((k.standing u).engFailed 4 x.code x.arg (do
              let c ← nbChecked r sy
              poisonPieces 4 c.2.2.memSpace c.2.2.covered) closed)
          else .next ((closed (t.standing u)).stopEngine 4 x.code x.arg x.va x.kind x.host)
        | .error _ => .next s
      | _ => .next s

end Sys2Proof.Machine
end

