-- ==== Sys2Proof/Machine/Convert.lean ====
section
/-!
DEFINITION. The converter: `cnv` and the commands of ring 3 (R161 to R164).
-/
namespace Sys2Proof.Machine

def issueCnv (had : Nat) (r : BitVec 3) (a b : BitVec 6) : M Flow := do
  let off ← rdA a
  checkBlock off 32 0x7FFFA0
  issueCmd 3 (64 * 2 ^ 25 + had * 2 ^ 22 + r.toNat * 2 ^ 19 + off.toNat / 32) b

def execCnv (r : BitVec 3) (a b : BitVec 6) (s : State) : Answer := runAp (.cnv r a b) (issueCnv 0 r a b) s
def execCnvH16 (r : BitVec 3) (a b : BitVec 6) (s : State) : Answer := runAp (.cnvH16 r a b) (issueCnv 1 r a b) s
def execCnvH32 (r : BitVec 3) (a b : BitVec 6) (s : State) : Answer := runAp (.cnvH32 r a b) (issueCnv 2 r a b) s

/-- The tag of R134 of an engine's command, at its own word. -/
def engineTag (n : Nat) (e : Engine) : Word := BitVec.ofNat 64 (2 ^ 63 + 2 ^ 56 * n + e.at_.toNat % e.words)

/-- j times 2^16 for repetition j of a `rep` on a ring, 0 otherwise (R134). -/
def Engine.repIndex (e : Engine) : Nat := if e.repLeft = 0 then 0 else (e.repCount - e.repLeft) * 65536

/-- Do the descriptors pass R118, R124 and R159 for the form?  The answer is the first that fails, 0 the destination.  RM between two integer
formats is no part of this: the command runs and has no use for it (assumption 91). -/
def cvqBad (had : Nat) (d a : Version) : Option Nat :=
  let x : Vec := ⟨.vcvt had, some 0, some 1, none, d.fmt, 0⟩
  let v : Descs := ⟨some d, some a, none⟩
  if 3 ≤ d.space then some 0
  else if 3 ≤ a.space then some 1
  else (x.step2 v).orElse fun _ => (x.step3 v).orElse fun _ => x.step4 v

/-- The destination of a command with its trailer, where it has one. -/
def Version.destPieces (v : Version) : List (Nat × Nat) := v.covered ++ (if v.trl then [(v.trailerAt, 32)] else [])

/-- The block of a `cvq`, checked: seed, destination, source. -/
def cvqBlock (had : Nat) (off : Nat) : M (Word × Version × Version) := do
  let bs ← engBlock off 96
  let d := Version.ofBytes bs
  let a := Version.ofBytes (bs.drop 32)
  if leNat (bs.drop 72) ≠ 0 then engTrap 3 0x17 0
  else match cvqBad had d a with
    | some k => engTrap 3 0x17 k
    | none =>
      engOpen d true d.destPieces
      engOpen a false a.destPieces
      engHoldStream d d.destPieces
      return (leWord (bs.drop 64 |>.take 8), d, a)

/-- Units of a conversion from element i on, the flags gathered. -/
def Conv.units (c : Conv) : Nat → ExecRecord → Nat → Flags → M (ExecRecord × Flags)
  | 0, r, _, f => return (r, f)
  | n + 1, r, i, f => do
    let x ← c.unit r i
    c.units n x.1 (i + c.step) (f ||| x.2)

/-- Step 3 of a `cvq`. -/
def cvqStep (had rm off : Nat) : M Unit := do
  let b ← cvqBlock had off
  let s ← get
  let d := b.2.1
  let a := b.2.2
  let ahead ← engTrailer 3 a
  let _ ← if a.spar ≠ 0 then engMasks 3 1 a (List.range (ceilDiv a.count 32)) else pure ()
  let path (v : Version) : Path := engPath 3 v (s.stepFtz 3) (pure ())
  let sr (i : Nat) : Nat := srBits b.1 (engineTag 3 (s.engine 3)) ((s.engine 3).repIndex + i)
  let c : Conv := ⟨(path a).ahead ahead, path d, d.fmt, had, rm, sr⟩
  let r ← c.units (ceilDiv a.count c.step) { ExecRecord.none with kind := 6 } 0 Flag.none
  c.trailer r.1
  sticky r.2

/-- `cvq` in step 3 (R163). -/
def execCvq (x : BitVec 1) (h : BitVec 2) (r : BitVec 3) (b : BitVec 18) (s0 : State) : Answer :=
  if !(s0.engineLive 3 && (s0.engine 3).phase == .acquired && engineWf (.cvq x h r b)) then .next s0
  else
    let s := s0.latchFtz 3
    match (cvqStep h.toNat r.toNat (32 * b.toNat)).run s with
    | .ok (_, t) => .next (t.engPerformed 3)
    | .error (.trap u t) =>
      if isFailure t then
        .next ((s.standing u).engFailed 3 t.code t.arg (do
          let c ← cvqBlock h.toNat (32 * b.toNat)
          poisonPieces 3 c.2.1.memSpace c.2.1.destPieces) id)
      else .next (s.stopAt 3 u t)
    | .error (.block _) => .next s
    | .error (.ask q) => .next (s.podAsk q)

end Sys2Proof.Machine
end

