-- ==== Sys2Proof/Machine/Notices.lean ====
section
/-!
DEFINITION. Notices, the pin table, and the transport instructions (R209, R210, R214 to R230).
-/
namespace Sys2Proof.Machine

/-- An answer to the outside: data, their poison, an error. -/
def State.answer (s : State) (bs : List Byte) (poison error : Bool) : State :=
  s.modHub fun h => { h with reply := ⟨bs, poison, error⟩ }

/-! ### Ports and pins -/

def Share.port (h : Share) (cluster : Nat) : Port := ((h.ports.find? fun x => x.1 == cluster).map (·.2)).getD Port.reset
def Share.setPort (h : Share) (cluster : Nat) (p : Port) : Share :=
  { h with ports := (cluster, p) :: h.ports.filter fun x => x.1 != cluster }

/-- The port engine of the current core's cluster. -/
def State.port (s : State) : Port := s.share.port (clusterOf s.core.id)
def State.setPort (s : State) (p : Port) : State := s.modShare fun h => h.setPort (clusterOf s.core.id) p
def State.modPort (s : State) (f : Port → Port) : State := s.setPort (f s.port)

/-- Does a pod-wide name keep R6 and R7? -/
def podNameOk (n : Nat) : Bool := n < 2 ^ 27 && coreOk (n % 2048)

/-- Is a pod-wide name of this package? -/
def State.local (s : State) (n : Nat) : Bool := n / 2048 == s.node

/-- A word of the notice of a slot or pin entry. -/
def noticeWord (n : List Word32) (i : Nat) : Word32 := n[i]?.getD 0
def noticeTag (n : List Word32) : Word32 := noticeWord n 0
def noticeSize (n : List Word32) : Nat := field (noticeWord n 1) 0 24
def noticePrio (n : List Word32) : Nat := field (noticeWord n 1) 24 3
def noticeProd (n : List Word32) : Nat := field (noticeWord n 2) 0 27
def noticeOff (n : List Word32) : Nat := field (noticeWord n 3) 0 23
def noticePin (n : List Word32) : Nat := field (noticeWord n 3) 24 4
def noticeGen (n : List Word32) : Nat := field (noticeWord n 3) 28 4

/-- Where a pin entry of a core stands: in the table of its strand, or in the list of those that outlive their strand there. -/
inductive PinPlace where
  | live
  | old (k : Nat)
deriving DecidableEq, Repr

/-- The entry of a core with an index and a generation that is not FREE and that the event can concern: of its strand, else of one
swapped out (R225), else, where asked for, what a strand that has ended left (R224, assumption 81). -/
def Core.pinPlace (c : Core) (ix gen : Nat) (ended : Bool) (want : Pin → Bool) : Option PinPlace :=
  let fits (p : Pin) : Bool := p.state != 0 && p.gen == gen && want p
  let out (e : Bool) : Option PinPlace := (c.oldPins.findIdx? fun o => (o.frame == 0) == e && o.ix == ix && fits o.pin).map .old
  if fits (c.strand.pins[ix]?.getD Pin.free) then some .live
  else (out false).orElse fun _ => if ended then out true else none

def Core.pinIn (c : Core) (ix : Nat) : PinPlace → Pin
  | .live => c.strand.pins[ix]?.getD Pin.free
  | .old k => ((c.oldPins[k]?).map (·.pin)).getD Pin.free

/-- An entry replaced; what an ended strand left goes when it is FREE. -/
def Core.putPin (c : Core) (ix : Nat) (p : Pin) : PinPlace → Core
  | .live => { c with strand := { c.strand with pins := c.strand.pins.setIfInBounds ix p } }
  | .old k => { c with oldPins := (c.oldPins.modify k fun o => { o with pin := p }).filter fun o => o.frame != 0 || o.pin.state != 0 }

/-- The entry that accepts pulls under an index and a generation; what a strand that has ended left accepts none (R224). -/
def Core.findPin (c : Core) (ix gen : Nat) (want : Pin → Bool := fun _ => true) : Option Pin :=
  (c.pinPlace ix gen false want).map (c.pinIn ix)

/-- The entry that an event concerns, changed. -/
def Core.modPin (c : Core) (ix gen : Nat) (want : Pin → Bool) (f : Pin → Pin) : Core :=
  match c.pinPlace ix gen true want with
  | some q => c.putPin ix (f (c.pinIn ix q)) q
  | none => c

def State.modPin (s : State) (core ix gen : Nat) (want : Pin → Bool) (f : Pin → Pin) : State :=
  s.setCore ((s.coreAt core).modPin ix gen want f)

/-- The first position of a consumer that has not answered and has no pull in service (R220). -/
def Pin.openFor (p : Pin) (consumer : Nat) : Option Nat :=
  (List.range p.consumers.length).find? fun k =>
    p.consumers[k]? == some consumer && !(p.answered[k]?.getD true) && !(p.serving[k]?.getD true)

/-- Position k has answered: the count falls; at 0 a pinned or expired entry is FREE, and a releasing one when nothing is in
service any more (R220). -/
def Pin.answer (p : Pin) (k : Nat) : Pin :=
  let q := { p with ret := p.ret - 1, answered := p.answered.set k true, serving := p.serving.set k false }
  if p.state = 3 then { q with state := if q.serving.any id then 3 else 0 }
  else if q.ret = 0 then { q with state := 0 } else q

/-- Is a position of a consumer open? -/
def Pin.isOpen (p : Pin) (consumer : Nat) : Bool := (p.openFor consumer).isSome

/-- A decline: the count falls; a releasing entry waits for what is in service (R220). -/
def Pin.declined (p : Pin) (consumer : Nat) : Pin :=
  match p.openFor consumer with
  | none => p
  | some k =>
    let q := { p with ret := p.ret - 1, answered := p.answered.set k true }
    if p.state != 3 && q.ret == 0 then { q with state := 0 } else q

/-! ### `publ` (R214, R215, R228) -/

/-- Is the strand's Chamber range outside its banks: the first bank that is not open (R104)? -/
def State.bankShut (s : State) (off n : Nat) : Option Nat :=
  (List.range 8).find? fun b => bankOf off ≤ b && b ≤ bankOf (off + n - 1) && !bit s.strand.info.banks b

/-- The fields of a template that R214 fixes, the group's names apart. -/
def templateOk (s : State) (n : List Word32) : Bool :=
  let w1 := noticeWord n 1
  let grp := bit w1 27
  let nc := field w1 28 3
  let size := noticeSize n
  let off := noticeOff n
  let rest := (List.range 4).filter fun i => (if grp then 1 else nc) ≤ i
  !bit w1 31 && (if grp then nc == 0 && field (noticeWord n 4) 6 26 == 0 else 1 ≤ nc && nc ≤ 4) &&
  32 ≤ size && size ≤ 0x800000 && size % 32 == 0 &&
  ((noticeWord n 2).toNat == 0 || (noticeWord n 2).toNat == s.podName s.core.id) &&
  !bit (noticeWord n 3) 23 && off % 32 == 0 && off + size ≤ 0x800000 && (s.bankShut off size).isNone &&
  rest.all fun i => noticeWord n (4 + i) == 0

/-- The members of a group's entry (R215). -/
def groupMembers (g : Nat) : M (List Nat) := do
  let s ← get
  let va := field s.port.pgbase 12 44 * 4096 + 64 * g
  let p ← translate (BitVec.ofNat 64 va) readNeed
  let a ← readAt 6 .dev p 32 0 0
  let b ← readAt 6 .dev { p with pa := p.pa + 32 } 32 0 0
  if a.2 || b.2 then accTrap 0x16 0 0
  else
    let bs := a.1 ++ b.1
    let n := leNat (bs.take 1)
    if leNat (bs.take 4) / 256 ≠ 0 || n = 0 || 15 < n then trapP 0x27 0
    else return (List.range n).map fun i => leNat ((bs.drop (4 + 4 * i)).take 4)

/-- Every name is that of a core; the ARG of the cause is the whole name, and a name with bits [31:27] not 0 takes this cause too
(assumption 65). -/
def namesOk : List Nat → M Unit
  | [] => return ()
  | n :: ns => if podNameOk n then namesOk ns else trapP 0xB n

/-- Do two ranges meet? -/
def rangesMeet (a n b k : Nat) : Bool := a < b + k && b < a + n

/-- Is the pull one of a consumer on another node? -/
def Pull.foreign (p : Pull) : Bool :=
  match p.kind with
  | .foreign _ => true
  | _ => false

/-- Does a range meet the landing range of a pull of the core of which bytes may still land (R219)? -/
def State.landsIn (s : State) (off n : Nat) : Bool :=
  s.share.pulls.any fun p => p.core == s.core.id && !p.foreign && rangesMeet off n p.land p.size

/-- The Chamber bytes of a command or template. -/
def readCham (off : Nat) : Nat → M (List Byte)
  | 0 => return []
  | n + 1 => do
    let t ← readCham off n
    let r ← readAt 6 .cham ⟨chamAt (← get).core.id (off + 8 * n), false, false⟩ 8 0 0
    if r.2 then accTrap 0x16 0 0 else return t ++ r.1

/-- Bytes cut into 32-bit words. -/
def words32 (bs : List Byte) : List Word32 := (elements 4 (bs.length / 4) bs).map (BitVec.ofNat 32)

/-- An entry as `publ` sets it up (R220). -/
def Pin.publish (n : List Word32) (cons : List Nat) (left : Nat) : Pin :=
  ⟨noticeTag n, cons.length, noticeOff n, left, 1, noticeGen n, noticeSize n, n, cons, cons.map fun _ => false,
   cons.map fun _ => false, true⟩

def execPubl (d a b : BitVec 6) (s : State) : Answer :=
  runAp (.publ d a b) (do
    let t ← rdA a
    trapIf (field t 0 5 != 0) 0x10 0
    trapIf (0x7FFFE0 < t.toNat) 0x11 0
    let _ ← match (← get).bankShut t.toNat 32 with
      | some k => trapP 0x14 k
      | none => pure ()
    let n := words32 (← readCham t.toNat 4)
    trapIf (!templateOk (← get) n) 0x27 0
    let cons ← if bit (noticeWord n 1) 27 then groupMembers (field (noticeWord n 4) 0 6)
      else pure ((List.range (field (noticeWord n 1) 28 3)).map fun i => (noticeWord n (4 + i)).toNat)
    namesOk cons
    let s ← get
    match (List.range 16).find? fun i => (s.strand.pins[i]?.getD Pin.free).state == 0 with
    | none => block { cls := 0, kind := 9, obj := 0 }
    | some e =>
      blockIf (s.landsIn (noticeOff n) (noticeSize n)) { cls := 0, kind := 9, obj := 0 }
      let place := chamAt s.core.id (noticeOff n)
      blockIf ((s.drainFor .cham place (noticeSize n)).storesAhead .cham place (noticeSize n)) { cls := 0, kind := 9, obj := 0 }
      let left := field (← rdA b) 0 32
      modify fun s =>
        let t := s.drainFor .cham place (noticeSize n)
        let old := t.strand.pins[e]?.getD Pin.free
        let gen := (old.gen + 1) % 16
        let full := (n.set 2 (BitVec.ofNat 32 (t.podName t.core.id))).set 3
          (BitVec.ofNat 32 (gen * 2 ^ 28 + e * 2 ^ 24 + noticeOff n))
        let u := t.modStrand fun x => { x with pins := x.pins.setIfInBounds e (Pin.publish full cons left) }
        u.modPort fun p => { p with outgoing := p.outgoing ++ cons.map fun c => ⟨c, full, false, 8⟩ }
      wrA d (BitVec.ofNat 64 e)
      return .seq) s

/-! ### `pull`, `decl`, `pfence` (R210, R229, R230) -/

/-- The oldest waiting slot of the core with a tag. -/
def State.slotFor (s : State) (tag : Word32) : Option Slot :=
  s.port.slots.find? fun x => x.core == s.core.id && noticeTag x.notice == tag

/-- One slot taken out of the port's queue. -/
def State.takeSlot (s : State) (x : Slot) : State := s.modPort fun p => { p with slots := p.slots.erase x }

/-- A new pull with its progress record. -/
def State.addPull (s : State) (p : Pull) (w : PullWork) : State :=
  s.modShare fun h =>
    { h with pulls := h.pulls ++ [{ p with id := h.nextPull }], works := h.works ++ [{ w with id := h.nextPull }],
             nextPull := h.nextPull + 1 }

/-- The number of routes that a field asks for. -/
def routesOf (f : Nat) : Nat := 2 ^ f

/-- The progress of a new pull. -/
def PullWork.new (routes : Nat) (ord : Bool) (prio : Nat) (red : Option (Nat × Nat)) (now : Nat) : PullWork :=
  ⟨0, routes, ord, prio, red, 0, [], [], false, none, now, 0, none, (0, 0, 0), none, [], 0, false, []⟩

def execPull (d a b : BitVec 6) (s : State) : Answer :=
  runAp (.pull d a b) (do
    let c ← rdA d
    let g ← rdA a
    let l ← rdA b
    trapIf (field g 34 30 != 0 || field g 32 2 == 3) 0x28 0
    trapIf (field c 0 3 != 0 || field l 0 5 != 0) 0x10 0
    let s ← get
    match s.slotFor (bits g 0 32) with
    | none => block { cls := 0, kind := 9, obj := 0 }
    | some x =>
      let size := noticeSize x.notice
      trapIf (0x800000 < l.toNat + size || 0x7FFFF8 < c.toNat) 0x11 0
      let _ ← match (s.bankShut l.toNat size).orElse fun _ => s.bankShut c.toNat 8 with
        | some k => trapP 0x14 k
        | none => pure ()
      trapIf ((s.core.pinnedBy l.toNat size).isSome || (s.core.ringWith fun e => e.areaHas l.toNat size).isSome) 0x29 0
      modify fun s =>
        let n := x.notice
        (s.takeSlot x).addPull
          ⟨0, .slot, .claimed, s.core.id, noticeProd n, noticePin n, noticeGen n, noticeTag n, size, noticeOff n, false, l.toNat,
           some c.toNat, 0⟩
          (PullWork.new (routesOf (field g 32 2)) true (noticePrio n) none s.hub.hubClk)
      return .seq) s

/-- A request to another node that nothing of the core waits for; to a quarantined node it ends at once (R426). -/
def State.podCast (s : State) (node off : Nat) (kind : PodKind) (bs : List Byte) : State :=
  if s.share.pack.quarantined.contains node then s
  else s.podSend ⟨s.core.id, 9, node, off, kind, bs, s.hub.hubClk, false, false, false, 0⟩

def execDecl (a : BitVec 6) (s : State) : Answer :=
  runAp (.decl a) (do
    let g ← rdA a
    let s ← get
    match s.slotFor (bits g 0 32) with
    | none => block { cls := 0, kind := 9, obj := 0 }
    | some x =>
      let n := x.notice
      let me := s.podName s.core.id
      let t := s.takeSlot x
      set (if t.local (noticeProd n) then
          t.modShare fun h => { h with net := h.net ++ [.decline (noticeProd n % 2048) (noticePin n) (noticeGen n) me] }
        else
          t.podCast (noticeProd n / 2048) 0 (.decline (noticeProd n % 2048) (noticePin n) (noticeGen n) me) [])
      return .seq) s

/-- Does a `pfence` wait for the pull: its outcome is open, and a route of it has not acknowledged? -/
def State.fences (s : State) (p : Pull) : Bool :=
  (s.share.works.find? fun w => w.id == p.id).any fun w => w.status.isNone && (w.acked.map (·.2)).sum < ceilDiv p.size 256

/-- Waits until every route of every older pull of the core has acknowledged; Chamber copies from before are dropped, so that
later reads see every landed byte (R230, R306). -/
def execPfence (s : State) : Answer :=
  runAp .pfence (do
    modify fun s => s.modAp fun a => { a with fence := some (a.fence.getD s.share.nextPull) }
    let s ← get
    let bound := s.ap.fence.getD 0
    if s.share.pulls.any fun p => p.core == s.core.id && !p.foreign && p.id < bound && s.fences p then
      stayBlocked { cls := 0, kind := 9, obj := 0 }
    else
      modify fun s => s.modOrder fun o => { o with scratch := o.scratch.filter fun c => c.space != .cham }
      return .seq) s

/-! ### `pinop` (R223) -/

/-- The result of an operation stands in RES. -/
def State.pinRes (s : State) (r : Nat) : State := s.modCoreRegs fun c => { c with pinop := setField c.pinop 4 4 r }

/-- DL and IDX stored. -/
def State.pinStore (s : State) (i dl : Nat) : State :=
  s.modCoreRegs fun c => { c with pinop := setField (setField c.pinop 32 32 dl) 0 4 i }

/-- An operation on an entry of the core's own strand: refused on a FREE or a RELEASING one. -/
def State.pinDo (s : State) (i : Nat) (f : Pin → Pin) : State :=
  let p := s.strand.pins[i]?.getD Pin.free
  if p.state = 0 then s.pinRes 1
  else if p.state = 3 then s.pinRes 2
  else (s.modStrand fun x => { x with pins := x.pins.setIfInBounds i (f p) }).pinRes 0

def State.pinExtend (s : State) (i dl : Nat) : State := (s.pinStore i dl).pinDo i fun p => { p with left := dl, state := 1, fresh := true }
def State.pinRelease (s : State) (i : Nat) : State := s.pinDo i Pin.forceRelease

/-- Copies of the notice to every consumer that has not answered. -/
def Pin.again (p : Pin) : List NoticeCopy :=
  (p.consumers.zip p.answered).filterMap fun x => if x.2 then none else some ⟨x.1, p.notice, true, 8⟩

def State.pinRepublish (s : State) (i dl : Nat) : State :=
  let p := s.strand.pins[i]?.getD Pin.free
  let t := (s.pinStore i dl).pinDo i fun p => { p with left := dl, state := 1, fresh := true }
  if p.state = 0 ∨ p.state = 3 then t else t.modPort fun q => { q with outgoing := q.outgoing ++ p.again }

def execPinopExtend (i : BitVec 4) (dl : BitVec 32) (s : State) : Answer := .next (s.pinExtend i.toNat dl.toNat)
def execPinopForceRelease (i : BitVec 4) (s : State) : Answer := .next (s.pinRelease i.toNat)
def execPinopRepublish (i : BitVec 4) (dl : BitVec 32) (s : State) : Answer := .next (s.pinRepublish i.toNat dl.toNat)

/-- A pinned entry whose LEFT is 0, and was not set in this clk, expires, and the reclaim trap waits for the strand
(R209, R220 to R222). -/
def execPinDeadlineExpiry (i : BitVec 4) (s : State) : Answer :=
  let p := s.strand.pins[i.toNat]?.getD Pin.free
  if p.due then
    .next ((s.modStrand fun x => { x with pins := x.pins.setIfInBounds i.toNat { p with state := 2 } }).pendTrap
      { mkTrap .b 0x2A i.toNat with src := 3 })
  else .next s

/-! ### Delivery (R216, R220, R226) -/

/-- Pulls of a cluster that still hold their notice slot. -/
def State.claimedSlots (s : State) (cluster : Nat) : Nat :=
  (s.share.pulls.filter fun p => p.kind == .slot && clusterOf p.core == cluster &&
    !(s.share.works.any fun w => w.id == p.id && w.done)).length

/-- Room for a notice slot in a cluster's port engine. -/
def State.slotRoom (s : State) (cluster : Nat) : Bool :=
  (s.share.port cluster).slots.length + s.claimedSlots cluster < 64

/-- A notice delivered as a slot of a core of this package; a republished copy is discarded and counted while the port engine
holds a waiting slot with its PROD, PIN and GEN (R223). -/
def State.putSlot (s : State) (core : Nat) (n : List Word32) (again : Bool) : State :=
  let p := s.share.port (clusterOf core)
  let same (x : Slot) : Bool := noticeWord x.notice 2 == noticeWord n 2 &&
    field (noticeWord x.notice 3) 24 8 == field (noticeWord n 3) 24 8
  if again && p.slots.any same then
    s.modShare fun h => h.setPort (clusterOf core) { p with pstat := addWrap p.pstat 32 16 1 }
  else s.modShare fun h => h.setPort (clusterOf core) { p with slots := p.slots ++ [⟨core, n⟩] }

/-- May a copy leave now: its destination is another node, or its port has room? -/
def State.canDeliver (s : State) (c : NoticeCopy) : Bool :=
  !s.local c.dest || s.slotRoom (clusterOf (c.dest % 2048))

/-- The oldest copy of the cluster's port whose destination has room is delivered (R216). -/
def execNoticeDelivery (s : State) : Answer :=
  let p := s.port
  match p.outgoing.find? s.canDeliver with
  | none => .next s
  | some c =>
    let t := s.setPort { p with outgoing := p.outgoing.erase c }
    if t.local c.dest then .next (t.putSlot (c.dest % 2048) c.notice c.again)
    else .next (t.podCast (c.dest / 2048) (c.dest % 2048) .notice (c.notice.flatMap fun w => leBytes 4 w.toNat))

/-- A decline reaches its producer; one of a consumer on another node comes with c = 1, the consumer in b and the core, pin and
generation in a, and takes its place among those on their way (R221, R426). -/
def execDeclineArrival (s : State) : Answer :=
  let x := s.input
  if x.c = 1 then
    .next (if s.share.pack.quarantined.contains (x.b / 2048) then s.answer [] false true
      else (s.modShare fun h => { h with net := h.net ++ [.decline (x.a % 2048) (x.a / 2048 % 16) (x.a / 2 ^ 15 % 16) x.b] }).answer [] false false)
  else
    match s.share.net.find? fun m => match m with | .decline .. => true | _ => false with
    | some (.decline prod pin gen consumer) =>
      let t := s.modShare fun h => { h with net := h.net.erase (.decline prod pin gen consumer) }
      .next (t.modPin prod pin gen (·.isOpen consumer) fun p => p.declined consumer)
    | _ => .next s

end Sys2Proof.Machine
end

