-- ==== Sys2Proof/Machine/Pulls.lean ====
section
/-!
DEFINITION. Pulls from the claim to the completion: the scheduler, requests, units, route acknowledgements, completion
words (R210, R211, R220, R231 to R237, R240, R296 to R300).
-/
namespace Sys2Proof.Machine

def State.pullOf (s : State) (id : Nat) : Option Pull := s.share.pulls.find? fun p => p.id == id
def State.workOf (s : State) (id : Nat) : Option PullWork := s.share.works.find? fun w => w.id == id
def State.modPull (s : State) (id : Nat) (f : Pull → Pull) : State :=
  s.modShare fun h => { h with pulls := h.pulls.map fun p => if p.id = id then f p else p }
def State.modWork (s : State) (id : Nat) (f : PullWork → PullWork) : State :=
  s.modShare fun h => { h with works := h.works.map fun w => if w.id = id then f w else w }
def State.dropPull (s : State) (id : Nat) : State :=
  s.modShare fun h => { h with pulls := h.pulls.filter fun p => p.id != id, works := h.works.filter fun w => w.id != id }
def State.send (s : State) (m : Msg) : State := s.modShare fun h => { h with net := h.net ++ [m] }
def State.received (s : State) (m : Msg) : State := s.modShare fun h => { h with net := h.net.erase m }

/-- A register field of a core saturated or wrapped upward. -/
def State.modCoreAt (s : State) (id : Nat) (f : CoreRegs → CoreRegs) : State :=
  let c := s.coreAt id
  s.setCore { c with regs := f c.regs }

/-- Bytes in flight into a cluster's port. -/
def State.landBytes (s : State) (cluster n : Nat) : State :=
  let p := s.share.port cluster
  s.modShare fun h => h.setPort cluster { p with inflight := p.inflight - n }

/-- Units of a pull, and the bytes of one and of those that have landed. -/
def Pull.units (p : Pull) : Nat := ceilDiv p.size 256
def Pull.unitBytes (p : Pull) (u : Nat) : Nat := min 256 (p.size - 256 * u)
def Pull.landedBytes (p : Pull) (w : PullWork) : Nat := (w.landed.map p.unitBytes).sum

/-- Flags of reductions reach the strand of a core (R242). -/
def State.stickAt (s : State) (core : Nat) (f : Flags) : State :=
  ((s.focus core).modRegs fun r => r.sticky f).focus s.core.id

/-- What follows the data of an answer to another node: no tuple of its own, and the TAG of the producer's entry (R241, assumption 66). -/
def Pull.trailer (p : Pull) : List Byte := List.replicate 5 0 ++ leBytes 4 p.tag.toNat

/-- A pull whose outcome is decided without its bytes, once: what was requested and has not landed leaves the window (R231), and the
flags of a work entry's reductions reach the strand.  A consumer on another node has its STATUS as an error answer. -/
def State.decide (s : State) (id status : Nat) : State :=
  match s.pullOf id, s.workOf id with
  | some p, some w =>
    let t := s.landBytes (clusterOf p.core) (w.requested - p.landedBytes w)
    if w.status.isSome then s
    else if w.done then t.dropPull id
    else match p.kind with
    | .entry _ =>
      let u := (t.stickAt p.core w.flags).modCoreAt p.core fun r =>
        { r with wstat := if status = 4 then addSat r.wstat 0 16 1 else addSat r.wstat 16 16 1 }
      u.dropPull id
    | .foreign _ => (s.dropPull id).answer (BitVec.ofNat 8 status :: p.trailer.drop 1) false true
    | _ => t.modWork id fun w => { w with status := some status }
  | _, _ => s

/-! ### The scheduler (R231, R232) -/

/-- A port's window and rate. -/
def Port.win (p : Port) : Nat := field p.pswin 0 24
def Port.gap (p : Port) : Nat := field p.psrate 0 16
def Port.chunk (p : Port) : Nat := 256 * field p.psrate 16 8

/-- Have fewer than GAP fabric clk passed since the last request?  One is issued in a fabric clk at most. -/
def Port.tooSoon (p : Port) (now : Nat) : Bool := p.lastIssue != 0 && now + 1 < p.lastIssue + max 1 p.gap

/-- The die that a pull's source lies in. -/
def Pull.sourceDie (p : Pull) (w : PullWork) : Nat :=
  if p.device then (w.pages.headD (0, false)).1 / 2 ^ 36 % 8 else dieOf (p.prod % 2048)

/-- Is the source of a pull on another node? -/
def State.remote (s : State) (p : Pull) : Bool := !p.device && !s.local p.prod

/-- The ingress link that a pull uses: one for each source die and for each source node (assumption 67). -/
def State.linkOf (s : State) (p : Pull) (w : PullWork) : Nat := if s.remote p then 8 + p.prod / 2048 else p.sourceDie w

/-- Bytes in flight into the port on the link of a pull. -/
def State.linkBytes (s : State) (p : Pull) (w : PullWork) : Nat :=
  (s.share.pulls.map fun q => match s.share.works.find? fun v => v.id == q.id with
    | some v =>
      if clusterOf q.core == clusterOf p.core && !q.foreign && v.status == none && s.linkOf q v == s.linkOf p w then
        v.requested - q.landedBytes v
      else 0
    | none => 0).sum

/-- Occupancy of the link, scaled so that 255 is WIN bytes in flight on it. -/
def State.occ (s : State) (p : Port) (x : Pull) (w : PullWork) : Nat := min 255 (s.linkBytes x w * 255 / max 1 p.win)

/-- The score of a pull. -/
def State.score (s : State) (p : Port) (x : Pull) (w : PullWork) : Nat :=
  let free := min 255 (field (s.coreAt x.core).regs.landfree 0 16)
  let age := min 255 ((s.hub.hubClk - w.claimed) / 64)
  field p.pswt 24 8 * w.prio + field p.pswt 16 8 * free + field p.pswt 8 8 * (255 - s.occ p x w) + field p.pswt 0 8 * age

/-- Is the pull that of a work entry? -/
def Pull.isEntry (p : Pull) : Bool :=
  match p.kind with
  | .entry _ => true
  | _ => false

/-- The pulls of older work entries of the core that reduce into bytes that the pull also reduces into: their additions come first
(R301). -/
def State.redAhead (s : State) (p : Pull) (w : PullWork) : List (Pull × PullWork) :=
  if !(p.isEntry && w.red.isSome) then []
  else s.share.pulls.filterMap fun q => match s.workOf q.id with
    | some v => if q.isEntry && v.red.isSome && q.core == p.core && q.id < p.id && v.status == none && rangesMeet q.land q.size p.land p.size
        then some (q, v) else none
    | none => none

/-- The pulls of the port that have bytes not yet requested, oldest claim first; one that must add after another is not requested
before it. -/
def State.eligible (s : State) : List (Pull × PullWork) :=
  s.share.pulls.filterMap fun p =>
    match s.workOf p.id with
    | some w =>
      if clusterOf p.core == clusterOf s.core.id && !p.foreign && w.status == none && w.requested < p.size &&
          (s.redAhead p w).all fun x => x.1.size ≤ x.2.requested
      then some (p, w) else none
    | none => none

/-- The first pull with the highest score. -/
def bestOf (f : Pull × PullWork → Nat) : List (Pull × PullWork) → Option (Pull × PullWork)
  | [] => none
  | x :: xs => match bestOf f xs with
    | none => some x
    | some y => if f x < f y then some y else some x

/-- The request of a pull leaves: within the package, or to another node. -/
def State.sendRequest (s : State) (p : Pull) (off len : Nat) : State :=
  if p.device || s.local p.prod then s.send (.request p.id off len (off == 0))
  else if s.share.pack.quarantined.contains (p.prod / 2048) then s.decide p.id 4
  else s.podSend ⟨p.core, 9, p.prod / 2048, p.src, .pull p.id off len, [], s.hub.hubClk, false, false, false, 0⟩

def execPullRequestIssue (s : State) : Answer :=
  let p := s.port
  match bestOf (fun x => s.score p x.1 x.2) s.eligible with
  | none => .next s
  | some (x, w) =>
    let n := min p.chunk (x.size - w.requested)
    if p.win < p.inflight + n || p.tooSoon s.hub.hubClk then .next s
    else
      let q := { p with inflight := p.inflight + n, lastIssue := s.hub.hubClk + 1, pstat := addWrap p.pstat 0 32 1 }
      let t := ((s.setPort q).modPull x.id fun y => { y with state := .inService }).modWork x.id
        fun y => { y with requested := y.requested + n }
      .next (t.sendRequest x w.requested n)

/-! ### At the producer (R211, R220, R296) -/

/-- Is [off, off + n) inside the export range of a core, and so inside its Chamber? -/
def Core.exports (c : Core) (off n : Nat) : Bool :=
  let b := field c.regs.wexp 32 23
  b ≤ off && off + n ≤ b + field c.regs.wexp 0 24 && off + n ≤ 2 ^ 23

/-- The tag of a completion word: that of the notice, and for a pull of a copy engine that of the producer's entry (R210, R241). -/
def Pull.tagFrom (p : Pull) (e : Pin) : Pull :=
  match p.kind with
  | .engine _ => { p with tag := e.tag }
  | _ => p

/-- The first request of a pull under a notice: accepted for a position that is open, withdrawn, or refused. -/
def State.admitPull (s : State) (p : Pull) (consumer : Nat) (off len : Nat) : State :=
  let core := p.prod % 2048
  let c := s.coreAt core
  match (c.findPin p.pin p.gen (·.isOpen consumer)).orElse fun _ => c.findPin p.pin p.gen with
  | none =>
    (s.modPull p.id fun y => y.tagFrom ((s.coreAt core).strand.pins[p.pin]?.getD Pin.free)).decide p.id 2
  | some e =>
    let t := s.modPull p.id fun y => y.tagFrom e
    match e.openFor consumer with
    | none => t.decide p.id 5
    | some k =>
      let u := (t.modPin core p.pin p.gen (·.isOpen consumer) fun q => { q with serving := q.serving.set k true }).modWork p.id
        fun w => { w with position := some k }
      u.send (.serving p.id off len)

/-- A request of a consumer on another node (assumption 66): its name, the core, pin and generation that it names, the pull's size,
the part asked for, and for a one-sided pull its first byte in the export range. -/
structure FarPull where
  consumer : Nat
  core : Nat
  pin : Nat
  gen : Nat
  size : Nat
  off : Nat
  len : Nat
  src : Option Nat

def FarPull.ofInput (x : Input) : FarPull :=
  let f (o : Nat) : Nat := leNat ((x.bytes.drop o).take 4)
  ⟨x.a, x.b % 2048, x.b / 2 ^ 11 % 16, x.b / 2 ^ 15 % 16, x.c, f 0, if x.bytes.isEmpty then x.c else f 4,
   if x.b / 2 ^ 19 % 2 = 1 then some (f 8) else none⟩

/-- The pull in service that a later request of such a consumer belongs to: one whose next byte it asks for, else one that has been
asked for it already. -/
def State.farServing (s : State) (x : FarPull) : Option Pull :=
  let of (f : Nat → Bool) : Option Pull := s.share.pulls.find? fun q =>
    q.kind == .foreign x.consumer && q.prod == s.podName x.core && q.pin == x.pin && q.gen == x.gen && (s.workOf q.id).any fun w => f w.requested
  (of (· == x.off)).orElse fun _ => of (x.off < ·)

/-- Such a request arrives: a one-sided pull is served from the export range, the first request of another is admitted as one of
this package is, and a later one is served. -/
def State.farPull (s : State) (x : FarPull) : State :=
  if !coreOk x.core || s.share.pack.quarantined.contains (x.consumer / 2048) || x.size < x.off + x.len then s.answer [] false true
  else match x.src with
    | some a =>
      if (s.coreAt x.core).exports a x.size then
        let h := s.homeBytes .cham false (chamAt x.core (a + x.off)) x.len
        s.answer h.1 h.2 false
      else s.answer [] false true
    | none =>
      if x.off = 0 then
        let c := s.coreAt x.core
        let e := ((c.findPin x.pin x.gen (·.isOpen x.consumer)).orElse fun _ => c.findPin x.pin x.gen).getD
          (c.strand.pins[x.pin]?.getD Pin.free)
        let p : Pull := ⟨s.share.nextPull, .foreign x.consumer, .inService, 0, s.podName x.core, x.pin, x.gen, e.tag, x.size, e.off, false, 0, none, 0⟩
        (s.addPull p { PullWork.new 1 true 0 none s.hub.hubClk with requested := x.len }).admitPull p x.consumer 0 x.len
      else match s.farServing x with
        | some q => (s.modWork q.id fun w => { w with requested := max w.requested (x.off + x.len) }).send (.serving q.id x.off x.len)
        | none => s.answer [] false true

/-- A request of a pull reaches the producer: from the package, or, with c not 0, from a consumer on another node: its name in a;
core, pin, generation and a mark of a one-sided pull in b; the pull's size in c; offset and length of the part and the source's
offset in the bytes. -/
def execPullRequestArrival (s : State) : Answer :=
  let x := s.input
  if x.c ≠ 0 then .next (s.farPull (FarPull.ofInput x))
  else
    match s.share.net.find? fun m => match m with | .request .. => true | _ => false with
    | some (.request id off len first) =>
      let t := s.received (.request id off len first)
      match t.pullOf id with
      | none => .next t
      | some p =>
        if p.device then .next (t.send (.serving id off len))
        else match p.kind with
          | .entry _ =>
            if (t.coreAt (p.prod % 2048)).exports p.src p.size then .next (t.send (.serving id off len))
            else .next (t.decide id 0)
          | _ => if first then .next (t.admitPull p (t.podName p.core) off len) else .next (t.send (.serving id off len))
    | _ => .next s

/-- Bytes of device memory within one sector, of an aperture window, or of another node, which the port engine asks for them; a read at
the home L2 counts there (R109, R423). -/
def State.devPart (s : State) (pa : Nat) (view : Bool) (n : Nat) : Got :=
  match s.target pa with
  | .stack => let h := s.homeBytes .dev view pa n; .data h.1 h.2 (s.touchL2 .dev view pa)
  | .window w off => s.windowRead w off n
  | .pod node off => s.podRead 9 node off n
  | _ => .data (List.replicate n 0) true s

/-- Bytes of a device source, part by part, each within one sector of its page. -/
def State.devParts (s : State) (page : Nat → Nat × Bool) : List (Nat × Nat) → Got
  | [] => .data [] false s
  | x :: xs =>
    let g := page (x.1 / 65536)
    match s.devPart (g.1 + x.1 % 65536) g.2 x.2 with
    | .ask r => .ask r
    | .data bs m t => match t.devParts page xs with
      | .ask r => .ask r
      | .data cs m1 u => .data (bs ++ cs) (m || m1) u

/-- The 32 bytes at offset o of a pull's source. -/
def State.sourceSector (s : State) (p : Pull) (w : PullWork) (o : Nat) : Got :=
  if p.device then
    s.devParts (fun k => w.pages[k - p.src / 65536]?.getD (0, false)) (sectorsIn (p.src + o) 32)
  else let h := s.homeBytes .cham false (chamAt (p.prod % 2048) (p.src + o)) 32; .data h.1 h.2 s

/-- The sectors of a request, in order, or what one of them waits for of another node. -/
def State.sourceSectors (s : State) (p : Pull) (w : PullWork) : List Nat → Except PodReq (List (List Byte × Bool) × State)
  | [] => .ok ([], s)
  | o :: os => match s.sourceSector p w o with
    | .ask r => .error r
    | .data bs m t => match t.sourceSectors p w os with
      | .error r => .error r
      | .ok (rs, u) => .ok ((bs, m) :: rs, u)

/-- Routes that a pull uses: one within a die (R234). -/
def Pull.routes (p : Pull) (w : PullWork) (remote : Bool) : Nat :=
  if !remote && p.sourceDie w == dieOf p.core then 1 else w.routes

/-- The units of a request: the last of each route carries the number of units that its acknowledgement counts. -/
def unitsOf (id n : Nat) (tuple : Nat × Nat × Nat) (first : Nat) (data : List (List Byte × List Bool)) : List Msg :=
  data.zipIdx.map fun x =>
    let u := first + x.2
    let mine := (List.range data.length).filter fun k => (first + k) % n == u % n
    .unit id u (if mine.getLastD 0 = x.2 then mine.length else 0) tuple.1 tuple.2.1 tuple.2.2 x.1.1 x.1.2

/-- Bytes cut into units of 256 with the poison of their sectors. -/
def cutUnits (secs : List (List Byte × Bool)) : List (List Byte × List Bool) :=
  (chunks 8 (ceilDiv secs.length 8) secs).map fun g => (g.flatMap (·.1), g.map (·.2))

/-- A request has been served: its bytes leave as they stand, to another node as an answer; with the pull's last byte its position
has answered.  One that waits for bytes of another node comes again after the others. -/
def execPullServed (s : State) : Answer :=
  match s.share.net.find? fun m => match m with | .serving .. => true | _ => false with
  | some (.serving id off len) =>
    let t := s.received (.serving id off len)
    match t.pullOf id, t.workOf id with
    | some p, some w =>
      match (t.focus p.core).sourceSectors p w ((List.range (len / 32)).map fun k => off + 32 * k) with
      | .error r => .next ((t.podAsk r).send (.serving id off len))
      | .ok r =>
      let x := (r.2.podDone 9).focus s.core.id
      let u := if p.foreign then x.answer (r.1.flatMap (·.1) ++ p.trailer) (r.1.any (·.2)) false else
        x.modShare fun h => { h with net := h.net ++ unitsOf id (p.routes w false) w.tuple (off / 256) (cutUnits r.1) }
      if off + len < p.size then .next u
      else
        let v := match w.position with
          | some k => u.modPin (p.prod % 2048) p.pin p.gen (fun q => q.serving[k]?.getD false) fun q => q.answer k
          | none => u
        .next (if p.foreign then v.dropPull id else v)
    | _, _ => .next t
  | _ => .next s

/-! ### At the consumer (R234 to R237, R242, R298, R299) -/

/-- Type and op of a RED field. -/
def redOf (v : Nat) : Nat × Nat := (v % 4, v / 4 % 4)

/-- One sector combined with the local one: bytes and flags. -/
def redSector (r : Nat × Nat) (ftz : Bool) (local_ arriving : List Byte) : List Byte × Flags :=
  let n := if r.2 = 1 then 4 else 2
  let out := (elements n (32 / n) local_).zip (elements n (32 / n) arriving) |>.map fun x => red r.1 (r.2 == 1) ftz x.1 x.2
  (unelements n (out.map (·.1)), out.foldl (fun f x => f ||| x.2) Flag.none)

/-- A sector written at a core's Chamber by a landing, marked as given. -/
def State.landSector (s : State) (core off : Nat) (bs : List Byte) (poison : Bool) : State :=
  let t := s.engineWrite .cham false (chamAt core off) bs
  if poison then t.setPoison .cham false (chamAt core off / 32) true else t

/-- The sectors of a unit landed in order. -/
def State.landSectors (s : State) (p : Pull) (w : PullWork) (ftz : Bool) : Nat → List (List Byte × Bool) → State
  | _, [] => s
  | off, x :: xs =>
    let t := match w.red with
      | none => (s.landSector p.core off x.1 x.2).modWork p.id fun y => { y with poisoned := y.poisoned || x.2 }
      | some r =>
        let h := s.homeBytes .cham false (chamAt p.core off) 32
        let q := redSector r ftz h.1 x.1
        (s.landSector p.core off q.1 (h.2 || x.2)).modWork p.id
          fun y => { y with poisoned := y.poisoned || x.2, flags := y.flags ||| q.2 }
    t.landSectors p w ftz (off + 32) xs

/-- A bitmap word (R299). -/
def State.bitmapWord (s : State) (core off : Nat) : Word := leWord (s.homeBytes .cham false (chamAt core off) 8).1

/-- A unit lands: dropped by STALE or DUP under the bitmap, else written or combined and marked.  A second copy of a unit whose word a
later entry has taken is STALE (assumption 82). -/
def State.landUnit (s : State) (p : Pull) (w : PullWork) (u : Nat) (tuple : Nat × Nat × Nat) (secs : List (List Byte × Bool)) :
    State :=
  let ftz := bit (s.coreAt p.core).strand.regs.aflags 16
  let land (t : State) : State := t.landSectors p w ftz (p.land + 256 * u) secs
  match w.bitmap with
  | none => land s
  | some b =>
    let off := b + 8 * u
    let word := s.bitmapWord p.core off
    if tuple.1 ≠ w.tuple.1 || tuple.2.1 ≠ w.tuple.2.1 || (w.landed.contains u && w.stale.any fun r => rangesMeet off 8 r.1 r.2) then s.modCoreAt p.core fun r => { r with wstat := addSat r.wstat 32 16 1 }
    else if bit word w.tuple.2.2 then s.modCoreAt p.core fun r => { r with wstat := addSat r.wstat 48 16 1 }
    else (land s).engineWrite .cham false (chamAt p.core off) (leBytes 8 (word ||| (1#64 <<< w.tuple.2.2)).toNat)

/-- Is a unit held: the mark that it makes in its bitmap is pinned (R219), or a unit of an older entry that adds to its bytes has not
landed (R301)? -/
def State.unitHeld (s : State) (id u : Nat) : Bool :=
  match s.pullOf id, s.workOf id with
  | some p, some w =>
    (w.bitmap.any fun b => ((s.coreAt p.core).pinnedBy (b + 8 * u) 8).isSome) ||
    (s.redAhead p w).any fun x => (List.range x.1.units).any fun i =>
      !x.2.landed.contains i && rangesMeet (x.1.land + 256 * i) (x.1.unitBytes i) (p.land + 256 * u) (p.unitBytes u)
  | _, _ => false

/-- Units on their way that no earlier unit of their pull and route precedes. -/
def State.unitsReady (s : State) : List Msg :=
  let us := s.share.net.filter fun m => match m with | .unit .. => true | _ => false
  (us.zipIdx.filter fun x =>
    match x.1 with
    | .unit id u .. =>
      let n := match s.pullOf id, s.workOf id with
        | some p, some w => p.routes w (s.remote p)
        | _, _ => 1
      !s.unitHeld id u && !((us.take x.2).any fun m => match m with | .unit id' v .. => id' == id && v % n == u % n | _ => false)
    | _ => false).map (·.1)

/-- A pull that has written its completion leaves the list once every route has acknowledged and no second copy of a unit of it can
still arrive (R298). -/
def State.tidy (s : State) (id : Nat) : State :=
  let open_ := (s.share.pod.any fun r => match r.kind with | .pull k _ _ => k == id | _ => false) ||
    (s.share.net.any fun m => match m with | .unit k .. => k == id | _ => false)
  match s.pullOf id, s.workOf id with
  | some p, some w => if w.done && p.units ≤ (w.acked.map (·.2)).sum && !open_ then s.dropPull id else s
  | _, _ => s

/-- A unit arrives: `input.a` chooses among those that can.  A second copy of a unit brings no acknowledgement; the flags of a
reduction that lands after the completion reach the strand by themselves. -/
def execPullUnitLanding (s : State) : Answer :=
  match s.unitsReady[s.input.a]? with
  | some (.unit id u acks cid step contrib data poison) =>
    let t := s.received (.unit id u acks cid step contrib data poison)
    match t.pullOf id, t.workOf id with
    | some p, some w =>
      if w.status.isSome then .next t
      else
        let secs := (chunks 32 (data.length / 32) data).zip poison
        let fresh := !w.landed.contains u
        let t1 := t.landUnit p { w with flags := 0 } u (cid, step, contrib) secs
        let t2 := (if fresh then t1.landBytes (clusterOf p.core) data.length else t1).modWork id
          fun y => { y with landed := insertNat y.landed u }
        let t3 := if w.done then (t2.stickAt p.core ((t2.workOf id).map (·.flags) |>.getD 0)).modWork id fun y => { y with flags := 0 } else t2
        .next ((if acks = 0 || !fresh then t3 else t3.send (.ack id p.core (u % p.routes w (t.remote p)) acks)).tidy id)
    | _, _ => .next t
  | _ => .next s

/-- Units of a pull on one route. -/
def Pull.unitsOn (p : Pull) (n r : Nat) : Nat := ((List.range p.units).filter fun u => u % n == r).length
def PullWork.ackedOn (w : PullWork) (r : Nat) : Nat := ((w.acked.filter fun x => x.1 == r).map (·.2)).sum
def PullWork.ackedAll (w : PullWork) (p : Pull) : Bool := p.units ≤ (w.acked.map (·.2)).sum

/-- A route acknowledgement arrives, and counts though its pull has timed out (R234, R235). -/
def execRouteAck (s : State) : Answer :=
  match s.share.net.find? fun m => match m with | .ack .. => true | _ => false with
  | some (.ack id core r k) =>
    let t := (s.received (.ack id core r k)).modCoreAt core fun c => { c with rtcnt := addWrap c.rtcnt (16 * (r % 4)) 16 k }
    .next ((t.modWork id fun w => { w with acked := w.acked ++ [(r, k)], ackedAt := s.clk }).tidy id)
  | _ => .next s

/-- Has every unit landed? -/
def PullWork.allLanded (w : PullWork) (p : Pull) : Bool := p.units ≤ w.landed.length

/-- STATUS of a pull that can complete now; with ORD = 1 in the clk after its last acknowledgement at the earliest (R236, R237, R306). -/
def State.finalStatus (s : State) (p : Pull) (w : PullWork) : Option Nat :=
  if w.done then none
  else match w.status with
    | some x => some x
    | none =>
      let n := p.routes w (s.remote p)
      let ok := if w.ord then w.allLanded p && w.ackedAll p && w.ackedAt < s.clk else p.unitsOn n 0 ≤ w.ackedOn 0 && 0 < w.ackedOn 0
      if ok then some (if w.poisoned then 3 else 1) else none

/-- The completion word of R210. -/
def completionWord (p : Pull) (w : PullWork) (status : Nat) : Nat :=
  let bytes := if status = 1 ∨ status = 3 then p.size else if status = 4 then p.landedBytes w else 0
  p.tag.toNat * 2 ^ 32 + bytes * 2 ^ 8 + status

/-- The pull leaves the list, or stays until its last routes have acknowledged. -/
def State.finishPull (s : State) (p : Pull) (status : Nat) : State :=
  if !(status == 1 || status == 3) then s.dropPull p.id else (s.modWork p.id fun y => { y with done := true, flags := 0 }).tidy p.id

/-- The engine that waits for a pull goes on, and the flags of its reductions reach the strand (R241, R242). -/
def State.enginePulled (s : State) (p : Pull) (w : PullWork) (n : Nat) : State :=
  let t := s.focus p.core
  (if (t.engine n).phase = .handed then t.engPerformed n else t).focus s.core.id |>.stickAt p.core w.flags

/-- Is the completion word of a pull pinned by its own core (R219)? -/
def State.wordHeld (s : State) (p : Pull) : Bool := p.cw.any fun c => ((s.coreAt p.core).pinnedBy c 8).isSome

/-- The first pull of an instruction or a copy engine that can complete writes its completion word. -/
def execPullCompletion (s : State) : Answer :=
  let found := s.share.pulls.findSome? fun p =>
    match p.kind, s.workOf p.id with
    | .slot, some w | .engine _, some w => if s.wordHeld p then none else (s.finalStatus p w).map fun x => (p, w, x)
    | _, _ => none
  match found with
  | none => .next s
  | some (p, w, x) =>
    let t := match p.cw with
      | some c => s.engineWrite .cham false (chamAt p.core c) (leBytes 8 (completionWord p w x))
      | none => s
    let u := match p.kind with
      | .engine n => t.enginePulled p w n
      | _ => t
    .next (u.finishPull p x)

/-! ### `pswin`, `psrate` (R232) -/

/-- An accepted write sets RES to 0; one outside the range is ignored and sets RES to 1. -/
def Port.res (p : Port) (r : Nat) : Port := { p with psrate := setField p.psrate 24 8 r }

def Port.writeWin (p : Port) (v : Word) : Port :=
  if 0x1000 ≤ field v 0 24 && field v 0 24 ≤ 0x800000 then { p.res 0 with pswin := BitVec.ofNat 64 (field v 0 24) } else p.res 1

def Port.writeRate (p : Port) (v : Word) : Port :=
  if field v 16 8 = 0 ∨ 64 < field v 16 8 then p.res 1 else { p with psrate := BitVec.ofNat 64 (field v 0 24) }

def execPswinWrite (v : BitVec 64) (s : State) : Answer := .next (s.modPort fun p => p.writeWin v)
def execPsrateWrite (v : BitVec 64) (s : State) : Answer := .next (s.modPort fun p => p.writeRate v)

end Sys2Proof.Machine
end

