-- ==== Sys2Proof/Machine/Copies.lean ====
section
/-!
DEFINITION. Copy engines (R238 to R242, R405, R409).
-/
namespace Sys2Proof.Machine

def execCopy (a b : BitVec 6) (n : BitVec 1) (s : State) : Answer :=
  runAp (.copy a b n) (do
    let off ← rdA a
    checkBlock off 32 0x7FFFC0
    issueCmd (1 + n.toNat) (64 * 2 ^ 25 + off.toNat / 32) b) s

/-- A command block of a copy engine (R240). -/
structure CopyBlock where
  src : Nat
  dst : Nat
  len : Nat
  sp : Nat
  kind : Nat
  red : Nat
  rout : Nat
  zero : Nat
  cwoff : Nat
  cwval : Nat
  psrc : Nat

def CopyBlock.ofBytes (bs : List Byte) : CopyBlock :=
  let f (o n : Nat) : Nat := leNat ((bs.drop o).take n)
  ⟨f 0 8, f 8 8, f 16 3, f 19 1, f 20 1, f 21 1, f 22 1, f 23 1 + f 48 16, f 24 8, f 32 8, f 40 8⟩

namespace CopyBlock

def isPull (b : CopyBlock) : Bool := 2 ≤ b.kind
def reduces (b : CopyBlock) : Bool := b.kind % 2 == 1
def cw (b : CopyBlock) : Bool := b.rout / 8 % 2 == 1

/-- The space of a code of SP. -/
def spaceOf (c : Nat) : Space :=
  match c with
  | 0 => .cham
  | 1 => .gal
  | 2 => .grot
  | 3 => .dev
  | _ => .host

def fromSpace (b : CopyBlock) : Space := spaceOf (b.sp % 16)
def toSpace (b : CopyBlock) : Space := spaceOf (b.sp / 16)

/-- Producer, offset, pin entry and generation of PSRC. -/
def prod (b : CopyBlock) : Nat := b.psrc % 2 ^ 27
def off (b : CopyBlock) : Nat := b.psrc / 2 ^ 32 % 2 ^ 23
def pin (b : CopyBlock) : Nat := b.psrc / 2 ^ 56 % 16
def gen (b : CopyBlock) : Nat := b.psrc / 2 ^ 60

/-- The fields of R240. -/
def ok (b : CopyBlock) : Bool :=
  b.zero == 0 && b.kind < 4 && b.sp % 16 < 5 && b.sp / 16 < 5 &&
  32 ≤ b.len && b.len ≤ 0x800000 && b.len % 32 == 0 && b.dst % 32 == 0 &&
  b.rout < 16 && b.rout % 4 != 3 && b.cwoff % 8 == 0 && b.cwoff < 2 ^ 23 &&
  (!b.reduces || (b.red < 16 && b.red % 4 != 3 && b.red / 4 < 2)) &&
  (if b.isPull then b.sp == 0 && b.psrc / 2 ^ 27 % 32 == 0 && b.psrc / 2 ^ 55 % 2 == 0
   else b.psrc == 0 && b.src % 32 == 0) &&
  (b.reduces || b.red % 16 % 4 != 3 && b.red / 4 < 2)

end CopyBlock

/-- A scratchpad range of a copy, refused as the copy-block cause; a destination in a ring area as the ring-window one. -/
def copyOpen (n : Nat) (sp : Space) (a len : Nat) (write : Bool) : M Unit := do
  match sp with
  | .dev | .host => return ()
  | _ => match (← get).engineRefusal sp a len write with
    | some (0x15, k) => engTrapAt 0x15 k write
    | some _ => engTrap n 0x25 0
    | none => return ()

/-- A block or completion word of a command that does not lie open in the Chamber is a failure of its own cause. -/
def wordOpen (n code : Nat) (off len : Nat) (write : Bool) : M Unit := do
  if ((← get).engineRefusal .cham off len write).isSome then engTrap n code 0

/-- The block of a command, checked in the order of R241. -/
def copyBlock (n off : Nat) : M CopyBlock := do
  wordOpen n 0x25 off 64 false
  let b := CopyBlock.ofBytes (← engBlock off 64)
  if !b.ok then engTrap n 0x25 0
  else if b.isPull && !podNameOk b.prod then engTrapAt 0xB b.prod
  else
    if !b.isPull then copyOpen n b.fromSpace b.src b.len false
    copyOpen n b.toSpace b.dst b.len true
    if b.cw then wordOpen n 0x25 b.cwoff 8 true
    engHold b.toSpace b.dst b.len
    if b.cw && !b.isPull then engHold .cham b.cwoff 8
    return b

/-- Copy-with-reduce, element by element: an output sector with a poisoned input is written poisoned. -/
def reduceElems (n : Nat) (b : CopyBlock) (ftz : Bool) (w : Nat) : Nat → Nat → Flags → M Flags
  | 0, _, f => return f
  | k + 1, i, f => do
    let x ← engReadPart n b.toSpace (b.dst + w * i) w
    let y ← engReadPart n b.fromSpace (b.src + w * i) w
    let r := red (redOf b.red).1 ((redOf b.red).2 == 1) ftz (leNat x.1) (leNat y.1)
    engWritePart n b.toSpace (b.dst + w * i) (leBytes w r.1) (x.2 || y.2)
    reduceElems n b ftz w k (i + 1) (f ||| r.2)

/-- The completion word of a local copy, its engine done, when every destination byte has been performed (R122, R241). -/
def State.copyWord (s : State) (n cwoff cwval : Nat) : State :=
  ((s.flushEngine n).engineWrite .cham false (chamAt s.core.id cwoff) (leBytes 8 cwval)).engPerformed n

/-- A local copy whose completion word waits for writes to another node. -/
def State.copyEnd (s : State) (n : Nat) : State :=
  let e := s.engine n
  match e.job, e.got with
  | some v, [(bs, _)] => if s.enginePodWrites n then s else
      (s.copyWord n (leNat bs) v).modEngine n fun x => { x with job := none, got := [] }
  | _, _ => s

/-- How step 3 of a `cpq` ends: it is over, its pull is handed over, or its completion word is still to write. -/
inductive Copied where
  | over | pulled
  | word (cwoff cwval : Nat)
deriving DecidableEq, Repr

/-- A pull handed to the port engine. -/
def State.copyPull (s : State) (n : Nat) (b : CopyBlock) : State :=
  s.addPull
    ⟨0, .engine n, .claimed, s.core.id, b.prod, b.pin, b.gen, 0, b.len, b.off, false, b.dst, if b.cw then some b.cwoff else none, 0⟩
    (PullWork.new (routesOf (b.rout % 4)) (b.rout / 4 % 2 == 1) 0 (if b.reduces then some (redOf b.red) else none) s.hub.hubClk)

/-- Step 3 of a `cpq`. -/
def copyStep (n off : Nat) : M Copied := do
  let b ← copyBlock n off
  if b.isPull then
    modify fun s => s.copyPull n b
    return .pulled
  else
    engPrepare n b.toSpace b.dst b.len
    if b.reduces then
      let ftz := (← get).ftz
      let w := if (redOf b.red).2 = 1 then 4 else 2
      let f ← reduceElems n b ftz w (b.len / w) 0 Flag.none
      sticky f
    else
      let bs ← engRead n b.fromSpace b.src b.len
      engWrite n b.toSpace b.dst bs
    return if b.cw then .word b.cwoff b.cwval else .over

/-- `cpq` in step 3 on the copy engine that runs it. -/
def execCpq (x : BitVec 1) (b : BitVec 18) (s : State) : Answer :=
  let n := s.onEngine.getD 1
  let e := s.engine n
  if !(s.engineLive n && e.phase == .acquired && engineWf (.cpq x b)) then .next s
  else
    match (copyStep n (32 * b.toNat)).run s with
    | .ok (.over, t) => .next (t.engPerformed n)
    | .ok (.pulled, t) => .next (t.modEngine n fun e => { e with phase := .handed })
    | .ok (.word o v, t) =>
      if t.enginePodWrites n then
        .next (t.modEngine n fun e => { e with phase := .handed, job := some v, got := [(leBytes 8 o, false)] })
      else .next (t.copyWord n o v)
    | .error (.trap k t) => .next (s.stopAt n k t)
    | .error (.block _) => .next s
    | .error (.ask q) => .next (s.podAsk q)

end Sys2Proof.Machine
end

