-- ==== Sys2Proof/Machine/Work.lean ====
section
/-!
DEFINITION. Work entries (R291 to R300).
-/
namespace Sys2Proof.Machine

def execWqe (a b : BitVec 6) (s : State) : Answer :=
  runAp (.wqe a b) (do
    let off ← rdA a
    checkBlock off 32 0x7FFFC0
    issueCmd 5 (64 * 2 ^ 25 + off.toNat / 32) b) s

/-- A work entry (R293). -/
structure Entry where
  src : Nat
  dst : Nat
  len : Nat
  peer : Nat
  kind : Nat
  red : Nat
  rout : Nat
  ctr : Nat
  thr : Nat
  tagw : Nat
  contrib : Nat
  flg : Nat
  sp : Nat
  zero : Nat
  bmoff : Nat
  cwoff : Nat
  cwval : Nat

def Entry.ofBytes (bs : List Byte) : Entry :=
  let f (o n : Nat) : Nat := leNat ((bs.drop o).take n)
  ⟨f 0 8, f 8 8, f 16 4, f 20 4, f 24 1, f 25 1, f 26 1, f 27 1, f 28 4, f 32 4, f 36 1, f 37 1, f 38 1, f 39 1, f 40 8, f 48 8,
   f 56 8⟩

namespace Entry

def cw (e : Entry) : Bool := e.flg % 2 == 1
def bm (e : Entry) : Bool := e.flg / 2 % 2 == 1
def noinc (e : Entry) : Bool := e.flg / 4 % 2 == 1
def clr (e : Entry) : Bool := e.flg / 8 % 2 == 1
def armOn (e : Entry) : Nat := e.ctr % 16
def bumps (e : Entry) : Nat := e.ctr / 16

/-- The fields of R293. -/
def ok (e : Entry) : Bool :=
  e.zero == 0 && e.kind < 3 && e.flg < 16 && e.contrib < 64 && e.rout < 64 && e.rout % 4 != 3 && e.peer < 2 ^ 27 &&
  e.cwoff % 8 == 0 && e.cwoff < 2 ^ 23 && e.bmoff % 8 == 0 && e.bmoff < 2 ^ 23 && e.dst < 2 ^ 23 &&
  (if e.kind = 2 then e.len == 0 && e.dst % 8 == 0 && e.src == 0 && e.sp == 0 && !e.cw && e.red == 0
   else 32 ≤ e.len && e.len ≤ 0x800000 && e.len % 32 == 0 && e.dst % 32 == 0 && (e.sp == 0 || e.sp == 3) &&
     (e.sp == 0 || e.peer % 2048 == 0)) &&
  (if e.kind = 1 then e.red < 16 && e.red % 4 != 3 && e.red / 4 < 2 else e.red == 0 && !e.bm && !e.clr && e.bmoff == 0)

end Entry

/-- A scratchpad range of an entry in the own Chamber: a ring area as the ring-window cause, anything else as the work-entry
one. -/
def entryOpen (off n : Nat) (write : Bool) : M Unit := do
  match (← get).engineRefusal .cham off n write with
  | some (0x15, k) => engTrapAt 0x15 k write
  | some _ => engTrap 5 0x26 0
  | none => return ()

/-- The entry at a block, checked in the order of R294. -/
def entryAt (off : Nat) : M (List Byte × Entry) := do
  wordOpen 5 0x26 off 64 false
  let bs ← engBlock off 64
  let e := Entry.ofBytes bs
  if !e.ok then engTrap 5 0x26 0
  else if e.sp = 0 ∧ !podNameOk e.peer then engTrapAt 0xB e.peer
  else
    if e.kind ≠ 2 then entryOpen e.dst e.len true
    else if e.peer = (← get).podName (← get).core.id then entryOpen e.dst 8 true
    if e.cw then wordOpen 5 0x26 e.cwoff 8 true
    if e.kind = 1 && (e.bm || e.clr) then wordOpen 5 0x26 e.bmoff (8 * ceilDiv e.len 256) true
    return (bs, e)

/-- `wqe` in step 3: the entry is read, once, and checked, and waits for its counter (R294). -/
def execWqeCmd (x : BitVec 1) (b : BitVec 18) (s : State) : Answer :=
  let e := s.engine 5
  if !(s.engineLive 5 && e.phase == .acquired && engineWf (.wqeCmd x b)) then .next s
  else
    match (entryAt (32 * b.toNat)).run s with
    | .ok (r, _) => .next (s.modEngine 5 fun e => { e with phase := .handed, got := [(r.1, false)] })
    | .error (.trap k t) => .next (s.stopAt 5 k t)
    | .error _ => .next s

/-- The entry that ring 5 has read. -/
def Engine.entry (e : Engine) : Entry := Entry.ofBytes (e.got.headD ([], false)).1

/-! ### Issue (R294) -/

/-- Zeros over the bitmap words of an entry. -/
def Entry.clear (e : Entry) : M Unit :=
  if e.clr then do
    engHold .cham e.bmoff (8 * ceilDiv e.len 256)
    modify fun s => s.engineWrite .cham false (chamAt s.core.id e.bmoff) (List.replicate (8 * ceilDiv e.len 256) 0)
  else return ()

/-- Physical pages of a device source, with their views. -/
def sourcePages : List Nat → M (List (Nat × Bool))
  | [] => return []
  | a :: as => do
    let p ← engTranslate 5 .dev (a / 65536 * 65536) false
    let t ← sourcePages as
    return (p.pa, p.view) :: t

/-- The bitmap bytes of an entry taken from the pulls of older ones that stand in the list under another CID or STEP (R299). -/
def State.takeBitmap (s : State) (core off n : Nat) (cid step : Nat) : State :=
  let older (w : PullWork) : Bool := (w.tuple.1 != cid || w.tuple.2.1 != step) && match w.bitmap, s.pullOf w.id with
    | some b, some p => p.core == core && rangesMeet b (8 * p.units) off n
    | _, _ => false
  s.modShare fun h => { h with works := h.works.map fun w => if older w then { w with stale := (off, n) :: w.stale } else w }

/-- What an entry hands over: a pull, or a signal, which to a quarantined node times out at once (R300, R426). -/
def Entry.issue (e : Entry) : M Unit := do
  let s ← get
  if e.kind = 2 then
    let me := s.podName s.core.id
    set (if s.local e.peer then s.send (.signal me (e.peer % 2048) e.dst (BitVec.ofNat 64 e.cwval) e.bumps)
      else if s.share.pack.quarantined.contains (e.peer / 2048) then s.modCoreRegs fun r => { r with wstat := addSat r.wstat 0 16 1 }
      else s.podCast (e.peer / 2048) e.dst (.signal (e.peer % 2048) e.bumps) (leBytes 8 e.cwval))
  else
    engHold .cham e.dst e.len
    e.clear
    let device := e.sp == 3 && e.peer / 2048 == s.node
    let pages ← if device then sourcePages ((pageStarts e.src e.len)) else pure []
    let w := PullWork.new (routesOf (e.rout % 4)) (e.rout / 4 % 2 == 1) (e.rout / 8)
      (if e.kind = 1 then some (redOf e.red) else none) s.hub.hubClk
    let w1 := { w with tuple := (e.tagw % 65536, e.tagw / 65536, e.contrib), bitmap := if e.bm then some e.bmoff else none }
    let prod := if device then s.podName 0 else e.peer
    let p : Pull := ⟨0, .entry (if e.noinc then 16 else e.bumps), .claimed, s.core.id, prod, 0, 0, 0, e.len, e.src, device, e.dst,
      if e.cw then some e.cwoff else none, BitVec.ofNat 64 e.cwval⟩
    modify fun s =>
      (if e.bm then s.takeBitmap s.core.id e.bmoff (8 * ceilDiv e.len 256) (e.tagw % 65536) (e.tagw / 65536) else s).addPull p
        { w1 with pages := pages }

/-- The entry that waits in ring 5 issues once its counter has reached the threshold. -/
def execWqeIssue (s : State) : Answer :=
  if !(s.engineLive 5 && (s.engine 5).phase == .handed) then .next s
  else
    let e := (s.engine 5).entry
    if (s.core.regs.wcnt[e.armOn]?.getD 0).toNat < e.thr then .next s
    else match e.issue.run s with
      | .ok (_, t) => .next (t.engPerformed 5)
      | .error (.trap k t) => .next (s.stopAt 5 k t)
      | .error _ => .next s

/-! ### Signals and completions (R219, R295, R297) -/

/-- A counter incremented. -/
def CoreRegs.bump (r : CoreRegs) (k : Nat) : CoreRegs := { r with wcnt := r.wcnt.setIfInBounds k ((r.wcnt[k]?.getD 0) + 1) }

/-- Does one signal take effect before another in a clk: by ascending name of its source, those of the own core last (R295)? -/
def Msg.signalBefore (s : State) : Msg → Msg → Bool
  | .signal a t .., .signal b u .. =>
    let own (x k : Nat) : Bool := x == s.podName k
    (!own a t && own b u) || (own a t == own b u && a < b)
  | _, _ => false

/-- A signal arrives: with c not 0 from the core of another node named c - 1, its target and counter in a, the word's offset in b and
its value in the bytes (assumption 66).  Else the first signal whose word is not pinned writes it and increments the target's
counter. -/
def execWorkSignalArrival (s : State) : Answer :=
  let x := s.input
  if x.c ≠ 0 then
    if coreOk (x.a % 2048) && x.b % 8 = 0 && x.b < 2 ^ 23 && !s.share.pack.quarantined.contains ((x.c - 1) / 2048) then
      .next ((s.send (.signal (x.c - 1) (x.a % 2048) x.b (BitVec.ofNat 64 (leNat (x.bytes.take 8))) (x.a / 2048 % 16))).answer [] false false)
    else .next (s.answer [] false true)
  else
    let ready := s.share.net.filter fun m => match m with
      | .signal _ t a _ _ => ((s.coreAt t).pinnedBy a 8).isNone
      | _ => false
    let first (b : Option Msg) (m : Msg) : Option Msg := match b with
      | none => some m
      | some y => if m.signalBefore s y then some m else some y
    match ready.foldl first none with
    | some (.signal src t a v k) =>
      let u := (s.received (.signal src t a v k)).engineWrite .cham false (chamAt t a) (leBytes 8 v.toNat)
      .next (u.modCoreAt t fun r => r.bump k)
    | _ => .next s

/-- Has an entry's pull completed: every byte landed and every route acknowledged before this clk, or with ORD = 0 route 0 acknowledged
(R297, R306)? -/
def State.entryDone (s : State) (p : Pull) (w : PullWork) : Bool :=
  !w.done && w.status == none &&
  (if w.ord then w.allLanded p && w.ackedAll p && w.ackedAt < s.clk
   else p.unitsOn (p.routes w (s.remote p)) 0 ≤ w.ackedOn 0 && 0 < w.ackedOn 0)

/-- The first entry whose pull has completed writes its completion word, then increments its counter; the flags of its reductions
reach the strand (R242, R297, R301). -/
def execWqeCompletion (s : State) : Answer :=
  let found := s.share.pulls.findSome? fun p =>
    match p.kind, s.workOf p.id with
    | .entry k, some w => if s.entryDone p w && !s.wordHeld p then some (p, w, k) else none
    | _, _ => none
  match found with
  | none => .next s
  | some (p, w, k) =>
    let t := match p.cw with
      | some c => s.engineWrite .cham false (chamAt p.core c) (leBytes 8 p.cwval.toNat)
      | none => s
    .next (((t.stickAt p.core w.flags).modCoreAt p.core fun r => if k < 16 then r.bump k else r).finishPull p 1)

end Sys2Proof.Machine
end

