-- ==== Sys2Proof/Machine/Regions.lean ====
section
/-!
DEFINITION. Stalagmite regions: lattice types, replicas, the lattice instructions, installation, the exchange
(R247, R248, R273 to R290, R442).
-/
namespace Sys2Proof.Machine

/-! ### Types (R274) -/

/-- A binary64 pattern as a number in the order -∞ < ... < -0 < +0 < ... < +∞. -/
def f64Key (x : Word) : Nat := if bit x 63 then 2 ^ 64 - 1 - x.toNat else x.toNat + 2 ^ 63

def f64Nan (x : Word) : Bool := field x 52 11 == 2047 && field x 0 52 != 0

/-- a ⊑ b. -/
def below (type : Nat) (a b : Word) : Bool :=
  match type with
  | 1 => a.toInt ≤ b.toInt
  | 2 => b.toNat ≤ a.toNat
  | 3 => f64Key a ≤ f64Key b
  | 4 => a &&& b == a
  | _ => a.toNat ≤ b.toNat

/-- a ⊔ b. -/
def joinCell (type : Nat) (a b : Word) : Word :=
  match type with
  | 4 => a ||| b
  | _ => if below type a b then b else a

def bottom (type : Nat) : Word :=
  match type with
  | 1 => 0x8000000000000000#64
  | 2 => 0xFFFFFFFFFFFFFFFF#64
  | 3 => 0xFFF0000000000000#64
  | _ => 0

/-- Does a value satisfy a threshold (R282)? -/
def satisfies (type : Nat) (h v : Word) : Bool :=
  match type with
  | 4 => v &&& h == h
  | 6 => field h 0 24 ≤ field v 40 24
  | _ => below type h v

/-! ### Replicas (R273) -/

def State.region (s : State) (r : Nat) : Option Region := s.share.pack.regions[r]?.getD none

/-- Place of a cell in a die's replica. -/
def Region.cellAt (g : Region) (die c : Nat) : Nat := grotAt die (g.gbase + 8 * c)

def State.cell (s : State) (g : Region) (die c : Nat) : Word := leWord (s.homeBytes .grot false (g.cellAt die c) 8).1
def State.cellBad (s : State) (g : Region) (die c : Nat) : Bool := (s.homeBytes .grot false (g.cellAt die c) 8).2
def State.setCell (s : State) (g : Region) (die c : Nat) (v : Word) : State :=
  s.homeWrite .grot false (g.cellAt die c) (leBytes 8 v.toNat)

/-- Tag and dirty bits of a cell. -/
def State.mark (s : State) (r die c : Nat) : CellMark :=
  (s.share.pack.marks.find? fun m => m.region == r && m.die == die && m.cell == c).getD ⟨r, die, c, 0, 0⟩

def State.setMark (s : State) (m : CellMark) : State :=
  s.modPack fun p =>
    let rest := p.marks.filter fun x => !(x.region == m.region && x.die == m.die && x.cell == m.cell)
    { p with marks := if m.tag = 0 ∧ m.dirty = 0 then rest else m :: rest }

/-- Rounds of a schedule. -/
def State.schedule (s : State) (k : Nat) : Option Schedule := s.share.pack.schedules[k]?.getD none

/-- Every round's dirty bit of a cell set (R287). -/
def State.setDirty (s : State) (r die c : Nat) : State :=
  let n := match (s.region r).bind fun g => s.schedule g.sched with
    | some x => x.rounds.length
    | none => 0
  let m := s.mark r die c
  s.setMark { m with dirty := m.dirty ||| BitVec.ofNat 16 (2 ^ n - 1) }

/-- A cell raised to a join. -/
def State.raiseCell (s : State) (r : Nat) (g : Region) (die c : Nat) (v : Word) : State :=
  let old := s.cell g die c
  let new := joinCell g.type old v
  if new = old then s else (s.setCell g die c new).setDirty r die c

def State.raiseTag (s : State) (r die c q : Nat) : State :=
  let m := s.mark r die c
  s.setMark { m with tag := max m.tag q }

/-! ### The checks of R279 -/

/-- The cells that an index names: one, or the eight of a group. -/
def Region.cellsOf (g : Region) (i : Nat) : List Nat :=
  if g.type = 5 then (List.range 8).map fun k => 8 * i + k else [i]

/-- Value of a cell or group in the replica of a die. -/
def State.latVal (s : State) (g : Region) (die i : Nat) : Word :=
  (g.cellsOf i).foldl (fun v c => v + s.cell g die c) 0

/-- Largest tag of a cell or group. -/
def State.latTag (s : State) (r : Nat) (g : Region) (die i : Nat) : Nat :=
  (g.cellsOf i).foldl (fun t c => max t (s.mark r die c).tag) 0

/-- ARG of the non-monotone-store fault. -/
def nonMono (r i : Nat) : Nat := r * 2 ^ 20 + i % 2 ^ 20

/-- Steps 2 to 4 of R279: the region, when the form fits its type; n is the number of indices. -/
def latRegion (r : Nat) (idx : Word) (fits : Nat → Bool) : M Region := do
  let s ← get
  if !bit s.strand.info.rset r then trapP 0x1A r
  else match s.region r with
    | none => trapP 0x1A r
    | some g =>
      let n := if g.type = 5 then g.cells / 8 else g.cells
      if !fits g.type || n ≤ idx.toNat then trapP 0x1A r else return g

/-- Step 6: no cell of the access is poisoned. -/
def latClean (g : Region) (cs : List Nat) (kind : Nat) : M Unit := do
  let s ← get
  if cs.any fun c => s.cellBad g (dieOf s.core.id) c then accTrap 0x16 0 kind else return ()

/-- The strand's Grotto stores are performed before a lattice instruction (R283). -/
def latOrder (cls : Nat) : M Unit := do
  modify fun s => s.drainFor .grot 0 (2 ^ 64)
  blockIf ((← get).storesAhead .grot 0 (2 ^ 64)) { cls := cls, kind := 9, obj := 0 }

/-- The sequence number of the newest post on the PACKAGE board. -/
def State.packSeq (s : State) : Nat := (s.share.pack.board 4 0).seq

/-- The acquire of R284: it waits until the PACKAGE board has published the tag. -/
def latAcquire (o : AccPrefix) (tag cls : Nat) : M Unit := do
  if o.acq then
    blockIf (4 ≤ o.scope && (← get).packSeq < tag) { cls := cls, kind := 9, obj := 0 }
    acquireIf true o.scope

/-! ### `ljoin`, `linc`, `lst`, `lld`, `lldt` -/

/-- A write of a cell, with its release, tag and acquire (R280). -/
def latWrite (isStore : Bool) (a b : BitVec 6) (r : BitVec 4) : M Flow := do
  let i ← rdA a
  let v ← rdA b
  let n := r.toNat
  let g ← latRegion n i fun t => t != 5
  trapIf (g.type == 3 && f64Nan v) 0x1B (nonMono n i.toNat)
  latClean g [i.toNat] 4
  latOrder 0
  let s ← get
  let die := dieOf s.core.id
  let o := s.accessOpts
  trapIf (isStore && !below g.type (s.cell g die i.toNat) v) 0x1B (nonMono n i.toNat)
  releaseIf o.rel o.scope (do
    modify fun s =>
      let t := s.raiseCell n g die i.toNat v
      if o.rel && 4 ≤ o.scope then t.raiseTag n die i.toNat s.packSeq else t
    latAcquire o 0 0
    return .seq)

def execLjoin (a b : BitVec 6) (r : BitVec 4) (s : State) : Answer := runAp (.ljoin a b r) (latWrite false a b r) s
def execLst (a b : BitVec 6) (r : BitVec 4) (s : State) : Answer := runAp (.lst a b r) (latWrite true a b r) s

/-- `linc`: the issuing die's slot of a group rises (R247). -/
def execLinc (a b : BitVec 6) (r : BitVec 4) (s : State) : Answer :=
  runAp (.linc a b r) (do
    let i ← rdA a
    let x ← rdA b
    let k := if b = 0#6 then 1 else x.toNat
    let n := r.toNat
    let g ← latRegion n i fun t => t == 5
    let s ← get
    let die := dieOf s.core.id
    let c := 8 * i.toNat + die
    latClean g [c] 4
    latOrder 0
    let old := (← get).cell g die c
    trapIf (2 ^ 64 ≤ old.toNat + k) 0x1B (nonMono n i.toNat)
    let o := s.accessOpts
    releaseIf o.rel o.scope (do
      modify fun s =>
        let t := s.raiseCell n g die c (BitVec.ofNat 64 (old.toNat + k))
        if o.rel && 4 ≤ o.scope then t.raiseTag n die c s.packSeq else t
      latAcquire o 0 0
      return .seq)) s

def execLld (d a : BitVec 6) (r : BitVec 4) (s : State) : Answer :=
  runAp (.lld d a r) (do
    let i ← rdA a
    let g ← latRegion r.toNat i fun _ => true
    latClean g (g.cellsOf i.toNat) 4
    latOrder 0
    let s ← get
    let die := dieOf s.core.id
    latAcquire s.accessOpts (s.latTag r.toNat g die i.toNat) 0
    wrA d (s.latVal g die i.toNat)
    return .seq) s

/-- `lldt` blocks under its class until the local value satisfies the threshold (R248, R282). -/
def execLldt (d b : BitVec 6) (w : BitVec 4) (r : BitVec 4) (s : State) : Answer :=
  runAp (.lldt d b w r) (do
    let i ← rdA b
    let h ← rdA d
    let g ← latRegion r.toNat i fun _ => true
    trapIf (g.type == 3 && f64Nan h) 0x1B (nonMono r.toNat i.toNat)
    latClean g (g.cellsOf i.toNat) 4
    latOrder w.toNat
    let s ← get
    let die := dieOf s.core.id
    let v := s.latVal g die i.toNat
    blockIf (!satisfies g.type h v) { cls := w.toNat, kind := 6, obj := r.toNat }
    latAcquire s.accessOpts (s.latTag r.toNat g die i.toNat) w.toNat
    wrA d v
    return .seq) s

/-! ### `rgctl` (R275, R276, R285) -/

/-- The block that a `csrw` reads from the Chamber, after the strand's own stores to it (R442); none where it does not lie
in the Chamber aligned. -/
def ctlBlock (off n : Nat) : M (Option (List Byte)) := do
  if off % 32 ≠ 0 || 2 ^ 23 < off + n then return none
  else
    let s ← get
    match if s.inShadow then none else s.bankShut off n with
    | some k => accTrap 0x14 k 0
    | none =>
      modify fun s => s.drainFor .cham (chamAt s.core.id off) n
      blockIf ((← get).storesAhead .cham (chamAt s.core.id off) n) { cls := 0, kind := 9, obj := 0 }
      let s ← get
      return some (s.homeBytes .cham false (chamAt s.core.id off) n).1

/-- OFF and IDX of a control word. -/
def ctlOff (v : Word) : Nat := field v 8 23
def ctlIdx (v : Word) : Nat := field v 0 4
def ctlOp (v : Word) : Nat := field v 6 2

/-- A result and an index stored in a control register. -/
def ctlWord (idx res : Nat) : Word := BitVec.ofNat 64 (res * 2 ^ 32 + idx)

def State.rgRes (s : State) (idx res : Nat) : State := s.modPack fun p => { p with rgctl := ctlWord idx res }

/-- A region descriptor: cells, type, schedule, place; none where it breaks R275. -/
def regionOf (bs : List Byte) : Option Region :=
  let f (o n : Nat) : Nat := leNat ((bs.drop o).take n)
  let g : Region := ⟨f 4 1, f 0 4, f 5 1, f 8 8⟩
  if f 16 16 = 0 ∧ f 6 2 = 0 ∧ g.gbase % 4096 = 0 ∧ g.gbase < 2 ^ 26 ∧ g.sched < 4 ∧ g.type < 7 ∧ 1 ≤ g.cells ∧ g.cells ≤ 524288 ∧
      (g.type ≠ 5 ∨ g.cells % 8 = 0) then some g else none

/-- Every cell of every replica at its bottom and clean, with no tag and no dirty bit (R276, R290). -/
def State.clearRegion (s : State) (r : Nat) (g : Region) : State :=
  let bs := (List.replicate g.cells (leBytes 8 (bottom g.type).toNat)).flatten
  let clean (u : State) (sec : Nat) : State := u.setPoison .grot false sec false
  let t := (List.range 8).foldl (fun u d =>
    (sectorNos (g.cellAt d 0) bs.length).foldl clean (u.homeWrite .grot false (g.cellAt d 0) bs)) s
  t.modPack fun p => { p with marks := p.marks.filter fun m => m.region != r, merging := p.merging.filter fun m => m.region != r }

def installRegion (idx off : Nat) : M Unit := do
  match (← ctlBlock off 32).bind regionOf with
  | none => modify fun s => s.rgRes idx 1
  | some g =>
    modify fun s =>
      let meets := (List.range 16).any fun i => match s.region i with
        | some x => rangesMeet g.gbase (8 * g.cells) x.gbase (8 * x.cells)
        | none => false
      if (s.region idx).isSome then s.rgRes idx 2
      else if 0x4000000 < g.gbase + 8 * g.cells || meets then s.rgRes idx 3
      else if (s.schedule g.sched).isNone then s.rgRes idx 4
      else ((s.clearRegion idx g).modPack fun p => { p with regions := p.regions.setIfInBounds idx (some g) }).rgRes idx 0

/-- Was an active or a saved strand launched with the region? -/
def State.regionUsed (s : State) (r : Nat) : Bool :=
  (s.cores.any fun c => c.mode != .idle && bit c.strand.info.rset r) ||
  (s.share.dies.toList.any fun d => d.tq.toList.any fun q => q.records.any fun x => bit x.code 0 && bit x.rset r)

def retireRegion (idx : Nat) : M Unit := modify fun s =>
  if (s.region idx).isNone then s.rgRes idx 1
  else if s.regionUsed idx then s.rgRes idx 2
  else
    let t := s.modPack fun p =>
      { p with regions := p.regions.setIfInBounds idx none, marks := p.marks.filter fun m => m.region != idx,
               merging := p.merging.filter fun m => m.region != idx }
    t.rgRes idx 0

/-- Fields of a round entry. -/
def roundPeriod (w : Word) : Nat := field w 32 32
def roundPartner (w : Word) (d : Nat) : Nat := field w (3 * d) 3

/-- What every die has heard of, as masks, after one more round. -/
def spread (w : Word) (known : List Nat) : List Nat :=
  (List.range 8).map fun d => (known[d]?.getD 0) ||| (known[roundPartner w d]?.getD 0)

/-- Do all dies hear of all dies through the rounds in this order? -/
def spans (ws : List Word) : Bool :=
  (ws.foldl (fun k w => spread w k) ((List.range 8).map fun d => 2 ^ d)).all fun m => m == 255

/-- A schedule of 16 entries: its rounds; none where it breaks R285. -/
def scheduleOf (bs : List Byte) : Option Schedule :=
  let es := (List.range 16).map fun i => leWord ((bs.drop (8 * i)).take 8)
  let ws := es.takeWhile fun w => bit w 24
  let okRound (w : Word) : Bool :=
    field w 25 7 == 0 && 64 ≤ roundPeriod w && roundPeriod w ≤ 0xFFFFFF &&
    (List.range 8).all fun d => roundPartner w (roundPartner w d) == d
  if !ws.isEmpty && ws.all okRound && ((es.drop ws.length).all fun w => w == 0) &&
      ((List.range ws.length).all fun k => spans (ws.drop k ++ ws.take k)) then some ⟨ws, 0, false, 0, []⟩ else none

def installSchedule (idx off : Nat) : M Unit := do
  if 4 ≤ idx then modify fun s => s.rgRes idx 1
  else match (← ctlBlock off 128).bind scheduleOf with
  | none => modify fun s => s.rgRes idx 1
  | some x =>
    modify fun s =>
      if (List.range 16).any fun i => (s.region i).any fun g => g.sched == idx then s.rgRes idx 2
      else (s.modPack fun p => { p with schedules := p.schedules.setIfInBounds idx (some x) }).rgRes idx 0

/-- What ends an operation that a register write starts: its state, a trap, or nothing while it cannot go on. -/
def runWrite (m : M Unit) (s : State) : Answer :=
  match m.run s with
  | .ok (_, t) => .next t
  | .error (.trap _ t) => .next (s.takeTrap t)
  | .error _ => .next s

def execRgctlInstallRegion (v : BitVec 64) (s : State) : Answer := runWrite (installRegion (ctlIdx v) (ctlOff v)) s
def execRgctlRetireRegion (v : BitVec 64) (s : State) : Answer := runWrite (retireRegion (ctlIdx v)) s
def execRgctlInstallSchedule (v : BitVec 64) (s : State) : Answer := runWrite (installSchedule (ctlIdx v) (ctlOff v)) s

/-! ### The exchange (R286, R287, R290) -/

/-- One cell of a region pulled by die d from its partner p in round i: a poisoned one is skipped and counted. -/
def State.pullCell (s : State) (k r : Nat) (g : Region) (d p i : Nat) (m : CellMark) : State :=
  if s.cellBad g p m.cell then
    s.modShare fun h => { h with dies := h.dies.setIfInBounds d (let x := h.dies[d]?.getD Die.reset
      { x with rgstat := addSat x.rgstat 0 32 1 }) }
  else
    let t := s.setMark { m with dirty := m.dirty &&& ~~~(1#16 <<< i) }
    t.modPack fun q => { q with merging := q.merging ++ [⟨k, p, d, r, m.cell, s.cell g p m.cell, m.tag⟩] }

/-- The cells of every region of a schedule that a die pulls from its partner. -/
def State.pullDie (s : State) (k i : Nat) (w : Word) (d : Nat) : State :=
  let p := roundPartner w d
  if p = d then s
  else (List.range 16).foldl (fun t r =>
    match t.region r with
    | some g =>
      if g.sched = k then
        (t.share.pack.marks.filter fun m => m.region == r && m.die == p && bit m.dirty i).foldl
          (fun u m => u.pullCell k r g d p i m) t
      else t
    | none => t) s

/-- The round of a schedule that can start now: the first, or the next once PERIOD has passed and every pull is merged. -/
def Schedule.nextRound (x : Schedule) (clk : Nat) (busy : Bool) : Option Nat :=
  if !x.begun then some 0
  else if x.started + roundPeriod (x.rounds[x.current]?.getD 0) ≤ clk && !busy then some ((x.current + 1) % x.rounds.length)
  else none

/-- A round starts: `input.a` names the schedule. -/
def execExchangeRoundStart (s : State) : Answer :=
  let k := s.input.a
  match s.schedule k with
  | none => .next s
  | some x =>
    match x.nextRound s.clk (s.share.pack.merging.any fun m => m.sched == k) with
    | none => .next s
    | some i =>
      let y := { x with current := i, begun := true, started := s.clk, late := [] }
      let t := s.modPack fun p => { p with schedules := p.schedules.setIfInBounds k (some y) }
      .next ((List.range 8).foldl (fun u d => u.pullDie k i (x.rounds[i]?.getD 0) d) t)

/-- A die whose pull is merged after PERIOD counts in OVR once per round. -/
def State.countLate (s : State) (m : CellPull) : State :=
  match s.schedule m.sched with
  | none => s
  | some x =>
    if x.started + roundPeriod (x.rounds[x.current]?.getD 0) < s.clk && !x.late.contains m.dst then
      let y := { x with late := m.dst :: x.late }
      let t := s.modPack fun p => { p with schedules := p.schedules.setIfInBounds m.sched (some y) }
      t.modShare fun h => { h with dies := h.dies.setIfInBounds m.dst (let d := h.dies[m.dst]?.getD Die.reset
        { d with rgstat := addWrap d.rgstat 32 32 1 }) }
    else s

/-- Of the cells on their way to a die, one of the lowest source die (R287). -/
def mergeFirst (ms : List CellPull) (m : CellPull) : CellPull :=
  (ms.filter fun x => x.dst == m.dst).foldl (fun b x => if x.src < b.src then x else b) m

/-- A pulled cell arrives and is joined with its tag; `input.a` chooses the die among those that cells are on their way to. -/
def execExchangeMerge (s : State) : Answer :=
  match (s.share.pack.merging[s.input.a]?).map (mergeFirst s.share.pack.merging) with
  | none => .next s
  | some m =>
    let t := (s.modPack fun p => { p with merging := p.merging.erase m }).countLate m
    match t.region m.region with
    | none => .next t
    | some g => .next ((t.raiseCell m.region g m.dst m.cell m.val).raiseTag m.region m.dst m.cell m.tag)

end Sys2Proof.Machine
end

