-- ==== Sys2Proof/Machine/Apertures.lean ====
section
/-!
DEFINITION. Installing reduce apertures, and the read of a window as an event (R302, R303, R442).
-/
namespace Sys2Proof.Machine

def State.apRes (s : State) (idx res : Nat) : State := s.modPack fun p => { p with apctl := ctlWord idx res }

/-- The place of a device virtual address, where it lies in the stack of a die. -/
def State.stackPlace (s : State) (die va : Nat) : Option Nat :=
  match walk s.mem (rootOf s.strand.sys.ptbase) (BitVec.ofNat 64 va) with
  | .leaf e n _ =>
    let a := pteAddr e + va % 2 ^ n
    if stackOf a = some die then some a else none
  | _ => none
def State.vaInStack (s : State) (die va : Nat) : Bool := (s.stackPlace die va).isSome

/-- Does a member base lie in the stack of its die? -/
def State.baseIn (s : State) (d b : Nat) : Bool :=
  b % 2 ^ 21 == 0 && s.vaInStack d b

/-- A window entry; none where it breaks the layout of R302. -/
def State.windowOf (s : State) (bs : List Byte) : Option Window :=
  let f (o n : Nat) : Nat := leNat ((bs.drop o).take n)
  let fo := f 65 1
  let mem := f 64 1
  let bases := (List.range 8).map fun d => f (8 * d) 8
  let size := f 80 8
  let wva := f 72 8
  let okBases := (List.range 8).all fun d => if mem / 2 ^ d % 2 = 1 then s.baseIn d (bases[d]?.getD 0) else bases[d]? == some 0
  if f 66 6 = 0 ∧ f 88 40 = 0 ∧ fo < 16 ∧ fo % 4 < 2 ∧ fo / 4 < 3 ∧ mem ≠ 0 ∧ 0 < size ∧ size % 2 ^ 21 = 0 ∧ size ≤ 2 ^ 30 ∧
      wva % 2 ^ 21 = 0 ∧ okBases then
    some ⟨size, wva, fo / 4, fo % 4 == 1, BitVec.ofNat 8 mem, bases, s.asid, s.strand.sys.ptbase⟩
  else none

def installWindow (idx off : Nat) : M Unit := do
  let bs ← ctlBlock off 128
  let s ← get
  match bs.bind s.windowOf with
  | none => set (s.apRes idx 1)
  | some w =>
    let used := (s.share.pack.windows[idx]?.getD none).isSome
    let meets := s.share.pack.windows.toList.any fun x => x.any fun y => rangesMeet w.wva w.size y.wva y.size
    set (if used || meets then s.apRes idx 2
      else (s.modPack fun p => { p with windows := p.windows.setIfInBounds idx (some w) }).apRes idx 0)

def retireWindow (idx : Nat) : M Unit := modify fun s =>
  if (s.share.pack.windows[idx]?.getD none).isNone then s.apRes idx 1
  else (s.modPack fun p => { p with windows := p.windows.setIfInBounds idx none }).apRes idx 0

def execApctlInstall (v : BitVec 64) (s : State) : Answer := runWrite (installWindow (ctlIdx v) (ctlOff v)) s
def execApctlRetire (v : BitVec 64) (s : State) : Answer := runWrite (retireWindow (ctlIdx v)) s

/-- A read of a line of window `input.a` at offset `input.b`: each member's sector is read once at its home L2; `input.c`
second replies are dropped and counted. -/
def execApertureRead (s : State) : Answer :=
  match s.share.pack.windows[s.input.a]?.getD none with
  | none => .next s
  | some w =>
    .next ((s.touchMembers w (sectorOf s.input.b)).modPack fun p => { p with apstat := addSat p.apstat 0 32 s.input.c })

end Sys2Proof.Machine
end

