-- ==== Sys2Proof/Machine/Csr.lean ====
section
/-!
DEFINITION. System registers: `csrr`, `csrw`, and the operations that a write starts
(R5, R12, R29, R35, R41, R42, R65, R81, R85, R89 to R92, R111, R186, R206, R217, R223, R232, R235, R255, R256, R269, R276,
R289, R295, R296, R300, R302, R320, R367, R370, R387 to R391, R397, R406, R407, R418, R419, R422, R424, R427).
-/
namespace Sys2Proof.Machine

/-- Bits that software can write, the others kept. -/
def merge (mask old new : Word) : Word := (old &&& ~~~mask) ||| (new &&& mask)

/-! ### Reading (R90) -/

/-- The die of the current core. -/
def State.die (s : State) : Die := s.share.dies[dieOf s.core.id]?.getD Die.reset
def State.modDie (s : State) (f : Die → Die) : State :=
  s.modShare fun h => { h with dies := h.dies.setIfInBounds (dieOf s.core.id) (f (h.dies[dieOf s.core.id]?.getD Die.reset)) }

/-- `aflags` as read: STK from the EP; EN and FTZ at the AP's place, in the shadow at the EP's. -/
def State.readAflags (s : State) : Word :=
  if s.inShadow then s.regs.aflags else merge 0x7F s.regs.aflagsAp s.regs.aflags

/-- `ringptr`. -/
def Engine.pointers (e : Engine) : Word := BitVec.ofNat 64 (e.fp.toNat * 2 ^ 32 + e.rp.toNat * 2 ^ 16 + e.wp.toNat)

/-- `pinlo` and `pinhi` (R217). -/
def Pin.lo (p : Pin) : Word := BitVec.ofNat 64 (p.tag.toNat * 2 ^ 32 + p.ret % 16 * 2 ^ 28 + p.off % 2 ^ 23)
def Pin.hi (p : Pin) : Word :=
  BitVec.ofNat 64 (p.left % 2 ^ 32 * 2 ^ 32 + p.state % 16 * 2 ^ 28 + p.gen % 16 * 2 ^ 24 + p.size % 2 ^ 24)

/-- `tlive` (R256). -/
def Strand.tlive (t : Strand) : Word :=
  BitVec.ofNat 64 ((List.range 48).foldl (fun m i => if (t.tile i).live then m + 2 ^ i else m) 0)

/-- `mlease` (R255). -/
def MatrixArray.word (a : MatrixArray) : Word :=
  BitVec.ofNat 64 ((List.range 4).foldl (fun m k => if a.requests.any (·.core == k) then m + 2 ^ (32 + k) else m) 0 +
    a.cmds % 64 * 2 ^ 16 + (if a.seg then 2 ^ 8 else 0) + (if a.held then 4 else 0) + a.holder % 4)

/-- Registers 0x000 to 0x0FF. -/
def State.sysLow (s : State) (n : Nat) : Word :=
  let r := s.regs
  let y := s.strand.sys
  if n < 0x10 then (r.waitb[n]?.getD 0).setWidth 64
  else if 0x20 ≤ n ∧ n < 0x26 then (s.engine (n - 0x20)).cfg
  else if 0x28 ≤ n ∧ n < 0x2E then (s.engine (n - 0x28)).pointers
  else if 0x30 ≤ n ∧ n < 0x36 then r.lc[n - 0x30]?.getD 0
  else if 0x40 ≤ n ∧ n < 0x50 then r.rl[n - 0x40]?.getD 0
  else match n with
    | 0x10 => r.rotbase
    | 0x11 => r.rc
    | 0x12 => y.lodstall
    | 0x13 => y.lodpred
    | 0x14 => r.srseed
    | 0x15 => s.core.regs.yreq
    | 0x16 => s.core.regs.ydead
    | 0x17 => y.trapcause
    | _ => 0

/-- Registers 0x100 to 0x17F. -/
def State.sysMid (s : State) (n : Nat) : Word :=
  let r := s.regs
  let y := s.strand.sys
  if n < 0x106 then r.lcst[n - 0x100]?.getD 0
  else if 0x108 ≤ n ∧ n < 0x10E then r.lcend[n - 0x108]?.getD 0
  else if 0x140 ≤ n ∧ n < 0x160 then
    let p := s.strand.pins[(n - 0x140) / 2]?.getD Pin.free
    if n % 2 = 0 then p.lo else p.hi
  else match n with
    | 0x110 => s.readAflags
    | 0x111 => y.zpcnt
    | 0x112 => y.digcancel
    | 0x113 => y.nbpois
    | 0x120 => s.core.regs.pinop
    | 0x121 => s.core.regs.rtcnt
    | 0x122 => s.core.regs.landfree
    | 0x130 => s.port.pswt
    | 0x131 => s.port.pswin
    | 0x132 => s.port.psrate
    | 0x133 => s.port.pgbase
    | 0x134 => s.port.pstat
    | 0x160 => s.strand.tlive
    | 0x161 => s.array.word
    | 0x162 => y.mstat
    | 0x170 => s.share.pack.rgctl
    | 0x171 => s.die.rgstat
    | 0x174 => s.share.pack.apctl
    | 0x175 => s.share.pack.apstat
    | _ => 0

/-- Registers from 0x180 on; `shret` is write only. -/
def State.sysHigh (s : State) (n : Nat) : Word :=
  let y := s.strand.sys
  if n < 0x190 then (s.core.regs.wcnt[n - 0x180]?.getD 0).setWidth 64
  else if 0x1B0 ≤ n ∧ n < 0x1B6 then y.lpext[n - 0x1B0]?.getD 0
  else match n with
    | 0x191 => s.core.regs.wexp
    | 0x192 => s.core.regs.wstat
    | 0x1A0 => y.ordstat
    | 0x1B6 => y.lpidx
    | 0x1B7 => y.gangid
    | 0x1C0 => s.die.tqctl
    | 0x1D0 => y.shvec
    | 0x1D2 => y.tval
    | 0x1D3 => y.tpc
    | 0x1D4 => y.tinfo
    | 0x1D8 => y.ptbase
    | 0x1D9 => y.hptbase
    | 0x1DA => s.core.regs.tlbop
    | 0x1E0 => s.die.eccstat
    | 0x1E1 => s.core.regs.rplstat
    | 0x1F0 => s.share.pack.ualcfg
    | 0x1F1 => s.share.pack.ualnode
    | 0x1F2 => s.share.pack.ualpeer
    | _ => 0

/-- The value that a system register reads. -/
def State.sysRead (s : State) (n : Nat) : Word :=
  if n < 0x100 then s.sysLow n else if n < 0x180 then s.sysMid n else s.sysHigh n

def execCsrr (d : BitVec 6) (n : BitVec 12) (s : State) : Answer :=
  runAp (.csrr d n) (do
    let s ← get
    wrA d (s.sysRead n.toNat)
    return .seq) s

/-! ### Rings (R35) -/

/-- A write of `ringcfg`: refused while commands are in the ring, or for a size or base that R35 refuses. -/
def writeRing (n : Nat) (v : Word) : M Unit := do
  let s ← get
  let e := s.engine n
  let cfg := v &&& 0xFFFFFC0#64
  let k := field cfg 23 4
  if (e.enabled && e.rp != e.wp) || k < 8 || field cfg 6 17 * 64 % 2 ^ k ≠ 0 then trapP 0x1D n
  else set (s.setEngine n { e with
    cfg := cfg, fp := 0, rp := 0, wp := 0, next := 0, loops := .replicate 4 ⟨false, 0, 0, 0⟩, repLeft := 0, phase := .start,
    stopped := false, resumeAt := .start, overflow := false, window := [], job := none, entered := false, fails := 0, sweeps := [], marked := [], leaves := [],
    born := [] })

/-! ### `aflags` and the other registers that the EP uses (R89, R91) -/

/-- A value on its way to the EP's place; the shadow writes at once. -/
def State.writeEp (s : State) (reg : Nat) (v : Word) : State :=
  if s.inShadow then s.modRegs fun r => r.epWrite ⟨0, reg, v⟩
  else s.modEp fun e => { e with writes := e.writes ++ [⟨s.ap.seq, reg, v⟩] }

def State.writeAflags (s : State) (v : Word) : State :=
  let w := v &&& 0x17F7F#64
  (s.modRegs fun r => { r with aflagsAp := w }).writeEp 0x110 w

def State.writeSrseed (s : State) (v : Word) : State := (s.modRegs fun r => { r with srseed := v }).writeEp 0x14 v

/-- KAP at once, KEP at the EP's place. -/
def State.writeRot (s : State) (v : Word) : State :=
  (s.modRegs fun r => { r with rotbase := setField r.rotbase 0 16 (field v 0 16) }).writeEp 0x10 v

/-- The AP's half of `rc` at once, the EP's at its place. -/
def State.writeRc (s : State) (v : Word) : State :=
  (s.modRegs fun r => { r with rc := setField r.rc 0 32 (field v 0 32) }).writeEp 0x11 v

/-! ### `tlbop` (R406, R407) -/

/-- Does OP of a `tlbop` remove a leaf? -/
def tlbHits (op asid : Nat) (host : Bool) (va : Nat) (lasid : Nat) (lhost : Bool) (lva size : Nat) : Bool :=
  match op with
  | 1 => lasid == asid && lhost == host && lva ≤ va && va < lva + 2 ^ size
  | 2 => lasid == asid && lhost == host
  | _ => true

/-- Cores that a scope reaches. -/
def State.scopeCores (s : State) (scope : Nat) : List Core :=
  s.cores.filter fun c => match scope with
    | 0 => c.id == s.core.id
    | 1 => dieOf c.id == dieOf s.core.id
    | _ => true

/-- Does a core execute, so that it releases its translations itself? -/
def Core.executes (c : Core) : Bool := c.mode == .running && !c.frozen && !c.halted && !c.gated

/-- Has a core requests to device or host memory on their way? -/
def State.requestsOf (s : State) (c : Core) : Bool :=
  (c.order.stores.any fun e => e.space == .dev || e.space == .host) ||
  (c.strand.queues.q.toList.any fun q => q.any fun e => e.data.isNone && e.req.any fun r => r.space == .dev || r.space == .host) ||
  (c.engines.toList.any fun e => !e.writes.isEmpty) ||
  (s.share.pod.any fun r => r.core == c.id && r.agent != 9) ||
  (s.share.pulls.any fun p => p.core == c.id && p.device)

/-- Is a translation held by a command that its engine is carrying out (R404)?  One of a command that waits, has stopped or has not
begun is dropped (R407, assumption 52). -/
def Engine.holds (e : Engine) (hit : Nat → Bool → Nat → Nat → Bool) : Bool :=
  !e.stopped && e.phase != .start && e.phase != .waited && e.leaves.any fun l => l.1 == e.rp && hit l.2.asid l.2.host l.2.va l.2.size

/-- Leaves and held translations of a core removed. -/
def Core.shoot (c : Core) (hit : Nat → Bool → Nat → Nat → Bool) : Core :=
  { c with tlb := c.tlb.filter fun l => !hit l.asid l.host l.va l.size,
           engines := c.engines.map fun e => { e with leaves := e.leaves.filter fun l => !hit l.2.asid l.2.host l.2.va l.2.size },
           strand := { c.strand with ep := { c.strand.ep with
             leaves := c.strand.ep.leaves.filter fun l => !hit l.asid l.host l.va l.size } } }

/-- The operation of a `tlbop` word: none while a core in the scope has not answered. -/
def State.tlbDo (s : State) (v : Word) : Option State :=
  let host := bit v 6
  let scope := field v 4 2
  let va := v &&& ~~~0xFFFF#64
  let res (t : State) (r : Nat) : State := t.modCoreRegs fun c => { c with tlbop := setField c.tlbop 8 4 r }
  if scope = 3 ∨ (field v 0 2 = 1 ∧ vaBad host va) then some (res s 1)
  else
    let hit := tlbHits (field v 0 2) s.asid host (vaNat va)
    let cs := s.scopeCores scope
    let waits (c : Core) : Bool :=
      ((c.executes || c.draining) && ((c.strand.ep.leaves.any fun l => hit l.asid l.host l.va l.size) || c.engines.toList.any fun e => e.holds hit)) ||
        s.requestsOf c
    if cs.any waits then none
    else some (res (s.mapCores fun c => if cs.any (·.id == c.id) then c.shoot hit else c) 0)

/-- A write of `tlbop` in privileged code. -/
def writeTlbop (v : Word) : M Unit := do
  let s ← get
  let t := s.modCoreRegs fun c => { c with tlbop := merge 0xFFFFFFFFFFFF0070#64 c.tlbop v }
  if field v 0 2 = 0 then set t
  else match t.tlbDo v with
    | some u => set u
    | none => block { cls := 0, kind := 9, obj := 0 }

/-- An operation that a register write starts by itself: it waits by leaving the state as it is. -/
def State.tlbRow (s : State) (op : Nat) (v : Word) : Answer :=
  .next ((s.tlbDo (setField v 0 2 op)).getD s)

def execTlbopInvalidateVa (v : BitVec 64) (s : State) : Answer := s.tlbRow 1 v
def execTlbopInvalidateAsid (v : BitVec 64) (s : State) : Answer := s.tlbRow 2 v
def execTlbopInvalidateAll (v : BitVec 64) (s : State) : Answer := s.tlbRow 3 v

/-! ### `tqctl` (R370) -/

/-- A queue with the fields of a queue entry; none where it breaks the layout. -/
def State.configured (s : State) (q : TaskQueue) (bs : List Byte) : Option TaskQueue :=
  let f (o n : Nat) : Nat := leNat ((bs.drop o).take n)
  let splen := f 40 4
  let spill := f 32 8
  let pages := (List.range (splen / 65536)).map fun i => s.stackPlace (dieOf s.core.id) (spill + 65536 * i)
  let okSpill := splen % 65536 = 0 ∧ spill % 65536 = 0 ∧ pages.all Option.isSome
  if f 44 20 = 0 ∧ f 28 4 = 0 ∧ f 24 1 < 16 ∧ 1 ≤ f 25 1 ∧ f 0 24 < 2 ^ 192 ∧ okSpill then
    some { q with enabled := true, mask := BitVec.ofNat 192 (f 0 24), prio := f 24 1 % 8, pre := f 24 1 / 8 == 1, wgt := f 25 1,
                  age := f 26 2, spill := pages.filterMap id, splen := splen,
                  records := q.records.map fun r => { r with slot := none } }
  else none

/-- IDX and a result stored in `tqctl`. -/
def State.tqRes (s : State) (idx res : Nat) : State := s.modDie fun d => { d with tqctl := ctlWord idx res }

def tqConfigure (idx off : Nat) : M Unit := do
  let bs ← ctlBlock off 64
  modify fun s =>
    let q := s.die.tq[idx]?.getD TaskQueue.reset
    match bs.bind (s.configured q) with
    | none => s.tqRes idx 1
    | some r => (s.modDie fun d => { d with tq := d.tq.setIfInBounds idx r }).tqRes idx 0

def tqDisable (idx : Nat) : M Unit := modify fun s =>
  let q := s.die.tq[idx]?.getD TaskQueue.reset
  if !q.records.isEmpty then s.tqRes idx 2
  else (s.modDie fun d => { d with tq := d.tq.setIfInBounds idx { q with enabled := false } }).tqRes idx 0

/-- IDX of `tqctl`. -/
def tqIdx (v : Word) : Nat := field v 0 5

def execTqctlConfigure (v : BitVec 64) (s : State) : Answer := runWrite (tqConfigure (tqIdx v) (ctlOff v)) s
def execTqctlDisable (v : BitVec 64) (s : State) : Answer := runWrite (tqDisable (tqIdx v)) s

/-! ### `ualpeer`, `ualnode` (R422, R427) -/

/-- A query puts the answer into Q. -/
def State.peerQuery (s : State) (n : Nat) : State := s.modPack fun p =>
  { p with ualpeer := setField (setField p.ualpeer 19 1 (if p.quarantined.contains n then 1 else 0)) 0 16 n }

/-- A release ends a node's quarantine. -/
def State.peerRelease (s : State) (n : Nat) : State := s.modPack fun p =>
  { p with quarantined := p.quarantined.filter (· != n), ualpeer := setField p.ualpeer 0 16 n }

def execUalpeerQuery (v : BitVec 64) (s : State) : Answer := .next (s.peerQuery (field v 0 16))
def execUalpeerRelease (v : BitVec 64) (s : State) : Answer := .next (s.peerRelease (field v 0 16))

def State.writePeer (s : State) (v : Word) : State :=
  match field v 16 2 with
  | 1 => s.peerQuery (field v 0 16)
  | 2 => s.peerRelease (field v 0 16)
  | _ => s.modPack fun p => { p with ualpeer := setField p.ualpeer 0 16 (field v 0 16) }

/-- A TMO of 0 is ignored. -/
def State.writeNode (s : State) (v : Word) : State := s.modPack fun p =>
  { p with ualnode := merge (if field v 32 32 = 0 then 0xFFFF#64 else 0xFFFFFFFF0000FFFF#64) p.ualnode v }

/-! ### Writing (R89) -/

/-- A write of `pinop`. -/
def State.writePinop (s : State) (v : Word) : State :=
  let i := field v 0 4
  let dl := field v 32 32
  let t := s.pinStore i dl
  match field v 8 2 with
  | 1 => t.pinExtend i dl
  | 2 => t.pinRelease i
  | 3 => t.pinRepublish i dl
  | _ => t

/-- BOUND of `ydead`; LEFT follows it while no request stands. -/
def CoreRegs.writeBound (r : CoreRegs) (v : Word) : CoreRegs :=
  let d := setField r.ydead 0 32 (field v 0 32)
  { r with ydead := if r.yreq = 0 then setField d 32 32 (field v 0 32) else d }

/-- A write that any code may make. -/
def writeOpen (n : Nat) (v : Word) : M Unit :=
  if n < 0xF then modify fun s => (s.modRegs fun r => { r with waitb := r.waitb.setIfInBounds n (bits v 0 32) }).writeEp n v
  else if 0x20 ≤ n ∧ n < 0x26 then writeRing (n - 0x20) v
  else if 0x30 ≤ n ∧ n < 0x36 then modify fun s => s.modRegs fun r => { r with lc := r.lc.setIfInBounds (n - 0x30) v }
  else if 0x180 ≤ n ∧ n < 0x190 then
    modify fun s => s.modCoreRegs fun r => { r with wcnt := r.wcnt.setIfInBounds (n - 0x180) (bits v 0 32) }
  else match n with
    | 0x14 => modify fun s => s.writeSrseed v
    | 0x110 => modify fun s => s.writeAflags v
    | 0x111 => modify fun s => s.modSys fun y => { y with zpcnt := v &&& 0xFFFFFFFF#64 }
    | 0x113 => modify fun s => s.modSys fun y => { y with nbpois := v }
    | 0x120 => modify fun s => s.writePinop v
    | 0x121 => modify fun s => s.modCoreRegs fun r => { r with rtcnt := v }
    | 0x122 => modify fun s => s.modCoreRegs fun r => { r with landfree := v &&& 0xFFFF#64 }
    | 0x162 => modify fun s => s.modSys fun y => { y with mstat := setField y.mstat 32 32 (field v 32 32) }
    | 0x1A0 => modify fun s => s.modSys fun y => { y with ordstat := v }
    | 0x191 => modify fun s => s.modCoreRegs fun r => { r with wexp := v &&& 0x7FFFFF00FFFFFF#64 }
    | 0x192 => modify fun s => s.modCoreRegs fun r => { r with wstat := v }
    | _ => return ()

/-- Does OP of a control word ask for an operation; else IDX is stored. -/
def writeRgctl (v : Word) : M Unit :=
  match ctlOp v with
  | 1 => installRegion (ctlIdx v) (ctlOff v)
  | 2 => retireRegion (ctlIdx v)
  | 3 => installSchedule (ctlIdx v) (ctlOff v)
  | _ => modify fun s => s.modPack fun p => { p with rgctl := setField p.rgctl 0 4 (ctlIdx v) }

def writeApctl (v : Word) : M Unit :=
  match ctlOp v with
  | 1 => installWindow (ctlIdx v) (ctlOff v)
  | 2 => retireWindow (ctlIdx v)
  | _ => modify fun s => s.modPack fun p => { p with apctl := setField p.apctl 0 4 (ctlIdx v) }

def writeTqctl (v : Word) : M Unit :=
  match ctlOp v with
  | 1 => tqConfigure (tqIdx v) (ctlOff v)
  | 2 => tqDisable (tqIdx v)
  | _ => modify fun s => s.modDie fun d => { d with tqctl := setField d.tqctl 0 5 (tqIdx v) }

/-- A write of a field that only privileged code may write. -/
def writePriv (n : Nat) (v : Word) : M Unit :=
  match n with
  | 0x10 => modify fun s => s.writeRot v
  | 0x11 => modify fun s => s.writeRc v
  | 0x12 => modify fun s => s.modSys fun y => { y with lodstall := v }
  | 0x13 => modify fun s => s.modSys fun y => { y with lodpred := v }
  | 0x16 => modify fun s => s.modCoreRegs fun r => r.writeBound v
  | 0x112 => modify fun s => s.modSys fun y => { y with digcancel := v }
  | 0x130 => modify fun s => s.modPort fun p => { p with pswt := v &&& 0xFFFFFFFF#64 }
  | 0x131 => modify fun s => s.modPort fun p => p.writeWin v
  | 0x132 => modify fun s => s.modPort fun p => p.writeRate v
  | 0x133 => modify fun s => s.modPort fun p => { p with pgbase := v &&& 0xFFFFFFFFFFF000#64 }
  | 0x170 => writeRgctl v
  | 0x174 => writeApctl v
  | 0x1C0 => writeTqctl v
  | 0x1D0 => modify fun s => s.modSys fun y => { y with shvec := v &&& 0xFFFFFFFFFFFFFC#64 }
  | 0x1DA => writeTlbop v
  | 0x1E0 => modify fun s => s.modDie fun d => { d with eccstat := v }
  | 0x1E1 => modify fun s => s.modCoreRegs fun r => { r with rplstat := v }
  | 0x1F0 => modify fun s => s.modPack fun p => { p with ualcfg := v &&& 0xFFFFFFFFFFFFF#64 }
  | 0x1F1 => modify fun s => s.writeNode v
  | 0x1F2 => modify fun s => s.writePeer v
  | _ => return ()

/-- A write of a system register: what unprivileged code may write, then what privileged code may. -/
def sysWrite (n : Nat) (v : Word) : M Unit := do
  writeOpen n v
  if (← get).privileged then writePriv n v

/-- `csrw`; a write of `shret` ends the handler, and is illegal outside the shadow (R391). -/
def execCsrw (a : BitVec 6) (n : BitVec 12) (s : State) : Answer :=
  let i := Instr.csrw a n
  if n = 0x1D1#12 then
    if s.inShadow && apLegal s i then .next (s.shret (field (s.aread a.toNat) 0 2))
    else .next (s.takeTrap (mkTrap .p 1 (s.illegalWord i)))
  else
    runAp i (do
      sysWrite n.toNat (← rdA a)
      return .seq) s

def execRingcfgWrite (n : BitVec 3) (v : BitVec 64) (s : State) : Answer :=
  if n.toNat < 6 then runWrite (writeRing n.toNat v) s else .next s

/-- A write of `aflags`, the value in input a, at its place in the EP's program order (R91): it replaces every field. -/
def execAflagsWrite (s : State) : Answer := .next (s.writeAflags (BitVec.ofNat 64 s.input.a))

end Sys2Proof.Machine
end

