-- ==== Sys2Proof/Machine/Traps.lean ====
section
/-!
DEFINITION. Delivering a trap, the shadow's return, and the errors that end a strand
(R66, R384, R389, R391, R392, R408, R412, R417).
-/
namespace Sys2Proof.Machine

/-- The AP raises the illegal-instruction trap at a word (R66). -/
def execIllegalInstruction (w : BitVec 32) (s : State) : Answer :=
  if s.core.mode = .idle then .next s else .next (s.takeTrap (mkTrap .p 1 w.toNat))

/-- May a pending trap be delivered: the active context runs and stands between instructions (R384)? -/
def State.canDeliverTrap (s : State) : Bool :=
  s.core.mode == .running && !s.core.halted && s.ap.bind == .none && !s.strand.pend.isEmpty

def execTrapDelivery (s : State) : Answer := .next (if s.canDeliverTrap then s.deliver else s)

/-- The three ways back from the shadow (R391). -/
def execShretRetry (s : State) : Answer := .next (if s.inShadow then s.shret 0 else s)
def execShretSkip (s : State) : Answer := .next (if s.inShadow then s.shret 1 else s)
def execShretFail (s : State) : Answer := .next (if s.inShadow then s.shret 2 else s)

/-- A cause, in input a, that the shadow raises ends the strand (R392). -/
def execShadowFault (s : State) : Answer :=
  .next (if s.inShadow then s.endStrand 0x30 (s.input.a % 2 ^ 16) 0xFF else s)

/-- An uncorrectable error in the strand's state ends it; with c = 1 the error lies in the accumulator storage of tile a,
which is marked poisoned (R412, R417). -/
def execStrandStateError (s : State) : Answer :=
  if s.core.mode = .idle then .next s
  else if s.input.c = 1 then
    let n := s.input.a % 48
    let t := s.setTile n { s.strand.tile n with poisoned := true }
    .next (t.addRecord (t.mkRecord t.core 0x33 n 0))
  else .next s.stateError

end Sys2Proof.Machine
end

