-- ==== Sys2Proof/Machine/Time.lean ====
section
/-!
DEFINITION. Time: the ends of blocks, the progress trap as an event, and one clk of the machine
(R1, R12, R24, R25, R33, R41, R92, R96, R217, R220, R225, R253, R266, R268, R375, R378, R393, R394, R431).
-/
namespace Sys2Proof.Machine

/-! ### Blocks (R24, R41, R393) -/

/-- Has everything happened that a halted core's release waits for, its stores apart (R96)? -/
def State.haltReady (s : State) : Bool :=
  let c := s.core
  let t := c.strand
  c.mode == .running && !c.frozen && !c.halted && !c.gated && t.ap.ending == some .halt && t.ep.seq == t.ap.seq && t.pend.isEmpty &&
  !c.saveDue && s.pinnedEntry.isNone && ((List.range 6).all fun n => (s.engine n).atEnd) &&
  !(s.share.pod.any fun r => r.core == c.id && r.agent < 8)

/-- Is the condition of a block known to have cleared?  Kinds 6 and 9 are decided by the instruction itself. -/
def State.blockClear (s : State) (b : Block) : Bool :=
  let q (k : Nat) : List QEntry := s.strand.queues.q[k]?.getD []
  match b.kind with
  | 0 => match b.obj with
    | 8 => !s.strand.queues.bq.isEmpty
    | 9 => !s.strand.queues.xq.isEmpty
    | k => (q k).head?.any fun e => e.data.isSome
  | 1 => match b.obj with
    | 8 => s.strand.queues.bq.length < 64
    | 9 => s.strand.queues.xq.length < 32
    | k => (q k).length < 64
  | 2 => s.waitsAhead b.obj 6 < (s.sema b.obj).toNat
  | 3 => let e := s.engine b.obj; e.kept < e.words
  | 4 => (s.strand.pins[b.obj]?.getD Pin.free).state == 0
  | 5 => s.inFlight < 8192
  | 7 => s.haltReady && s.storesDone
  | 8 => (s.stream b.obj).versions.length < 9
  | _ => false

/-- The block of the processor: of the EP, or of the AP or shadow. -/
def State.blockOf (s : State) (e : BitVec 1) : Option Block :=
  if e = 1#1 then s.ep.block else s.apBlock

def State.setBlock (s : State) (e : BitVec 1) (b : Option Block) : State :=
  if e = 1#1 then s.modEp fun x => { x with block := b }
  else if s.inShadow then s.modStrand fun t => { t with shadow := { t.shadow with block := b } }
  else s.modAp fun a => { a with block := b }

/-- A block ends when its condition has cleared; the instruction runs at the processor's next turn (R24). -/
def execBlockEnd (e : BitVec 1) (s : State) : Answer :=
  match s.blockOf e with
  | some b => .next (if s.blockClear b then s.setBlock e none else s)
  | none => .next s

/-- A block that has outlasted its bound and still holds raises the progress trap; a `waita` wakes instead (R41, R114).  Where the
instruction itself decides, as at the cell of an `lldt` (R282), its own next turn does. -/
def execProgressTrap (e : BitVec 1) (s : State) : Answer :=
  match s.blockOf e with
  | none => .next s
  | some b =>
    if !b.expired || s.blockClear b || b.kind = 6 then .next s
    else if e = 1#1 then
      (if s.core.mode = .running then .next ((s.modEp fun x => { x with block := none, bind := .none }).pendTrap (s.progressTrap .e b))
       else .next s)
    else if s.core.mode = .idle || s.monitor.isSome then .next s
    else .next (s.takeTrap (s.progressTrap .p b))

/-! ### The stall wire (R375) -/

/-- Does a member of the core's gang hold the others? -/
def Core.stalls (d : Core) : Bool :=
  d.frozen || (d.mode == .shadow && d.trap.any fun t => t.code == 0x12 || t.code == 0x13)

def State.stalled (s : State) (c : Core) : Bool :=
  s.cores.any fun d => d.id != c.id && sameGang c d && d.stalls

/-! ### One clk of a core -/

/-- One clk of a block. -/
def Block.tick (b : Block) : Block := { b with count := b.count + 1 }

/-- The counters `lodstall` and `lodpred`: a clk counts while `xq` is empty, or while the predicate waits for the EP
(R12, R25). -/
def Strand.tally (t : Strand) : SysRegs :=
  match t.ap.block.map (·.tally) with
  | some 1 => if t.queues.xq.isEmpty then { t.sys with lodstall := t.sys.lodstall + 1 } else t.sys
  | some (n + 2) => if t.ep.pPend.any (·.pred == n) then { t.sys with lodpred := t.sys.lodpred + 1 } else t.sys
  | _ => t.sys

/-- Counts of blocks: of the active context while it runs, of the shadow while that runs; a `halt` blocks until the core is
released (R33, R41, R96). -/
def Strand.tick (t : Strand) (m : Mode) (held : Bool) : Strand :=
  match m with
  | .running =>
    if held then t
    else
      let b := match t.ap.ending, t.ap.block with
        | some .halt, none => some (nextBlock t.regs none { cls := 0, kind := 7, obj := 0 })
        | _, b => b.map Block.tick
      { t with sys := t.tally, ap := { t.ap with block := b },
               ep := { t.ep with block := t.ep.block.map Block.tick } }
  | .shadow => { t with shadow := { t.shadow with block := t.shadow.block.map Block.tick } }
  | .idle => t

/-- LEFT of a pinned entry (R217). -/
def Pin.tick (p : Pin) : Pin := { p with left := if p.state = 1 then p.left - 1 else p.left, fresh := false }

/-- A pinned entry of a strand that is swapped out expires at 0; its trap is raised at the restore (R225). -/
def Pin.tickOut (p : Pin) : Pin := if p.due then { p with state := 2 } else p.tick

/-- LEFT of `ydead` while a request stands and the strand has not yielded (R92, R95). -/
def CoreRegs.tick (r : CoreRegs) (yielded : Bool) : CoreRegs :=
  if r.yreq = 1 ∧ !yielded then { r with ydead := setField r.ydead 32 32 (field r.ydead 32 32 - 1) } else r

/-- Does SC rise beside what step 3 of the commands costs: in each clk after the `seg` has completed step 5 (R266)? -/
def Engine.scRuns (e : Engine) (g : Segment) : Bool := !((e.phase == .performed || e.phase == .released) && e.at_ == g.pos)

def Engine.tickSeg (e : Engine) (held : Bool) : Engine :=
  { e with seg := e.seg.map fun g => if g.bounded && !g.resumed && !held && e.scRuns g then { g with sc := g.sc + 1 } else g }

/-- One clk of a core. -/
def Core.tick (stalled : Bool) (c : Core) : Core :=
  let held := c.frozen || c.halted || c.gated || stalled
  let e0 := c.engines[0]?.getD Engine.reset
  { c with
    strand := { c.strand.tick c.mode held with pins := c.strand.pins.map Pin.tick },
    oldPins := c.oldPins.map fun o => { o with pin := o.pin.tickOut },
    regs := c.regs.tick (c.strand.ap.ending == some .yield),
    engines := if c.mode = .idle && e0.quiet 0 then c.engines else c.engines.setIfInBounds 0 (e0.tickSeg (held || c.mode == .shadow)) }

/-! ### One clk of what cores share -/

/-- Idle clk of the holder of an array in a row: it has no private command past step 2, and another core requests (R253). -/
def State.tickArray (s : State) (x : Nat × MatrixArray) : Nat × MatrixArray :=
  let a := x.2
  let t := s.focus (4 * x.1 + a.holder)
  let e := t.engine 0
  let busy := !e.idle && (e.phase == .acquired || e.phase == .performed || e.phase == .released) && (t.cmd 0).any isArrayCmd
  if a.held && !a.seg && !t.core.frozen then (x.1, { a with idle := if busy || a.requests.isEmpty then 0 else a.idle + 1 }) else x

/-- Hub clk pass at 4 for 3 clk, faster against a throttled arithmetic clock (R1, R431, assumption 9). -/
def Hub.tick (h : Hub) : Hub :=
  let f := h.hubFrac + 4 + h.throttle
  { h with hubClk := h.hubClk + f / 3, hubFrac := f % 3 }

/-! ### What a clk makes due -/

/-- Pin entries that the deadline test at the end of a clk finds, after the declines, last bytes and `pinop` of that clk (R221). -/
def Core.duePins (c : Core) : List Turn :=
  ((List.range 16).filter fun i => (c.strand.pins[i]?.getD Pin.free).due).map fun i => ⟨c.id, .event (.pinDeadlineExpiry (BitVec.ofNat 4 i)) ⟨0, 0, 0, []⟩⟩

/-- Cores whose work entry tests its arm at the end of a clk, when every increment of it has arrived (R295). -/
def Core.dueArm (c : Core) : List Turn :=
  if (c.engines[5]?.getD Engine.reset).phase == .handed then [⟨c.id, .event .wqeIssue ⟨0, 0, 0, []⟩⟩] else []

/-- The consumer of a message that reaches a pin entry: a decline, or a served part of a pull. -/
def State.consumerOf (s : State) : Msg → Option Nat
  | .decline _ _ _ consumer => some consumer
  | .serving id .. => (s.pullOf id).map fun p => match p.kind with
    | .foreign n => n
    | _ => s.podName p.core
  | _ => none

/-- What reaches pin entries at the beginning of a clk, before any `pinop` of it: a decline and a served part, by ascending consumer
core number (R221). -/
def State.dueAnswers (s : State) : List Turn :=
  let turn (i : Instr) : Turn := ⟨0, .event i ⟨0, 0, 0, []⟩⟩
  let decline := s.share.net.find? fun m => match m with | .decline .. => true | _ => false
  let served := s.share.net.find? fun m => match m with | .serving .. => true | _ => false
  match decline, served with
  | none, none => []
  | some _, none => [turn .declineArrival]
  | none, some _ => [turn .pullServed]
  | some d, some v =>
    if ((s.consumerOf v).getD 0) % 2048 < ((s.consumerOf d).getD 0) % 2048 then [turn .pullServed, turn .declineArrival]
    else [turn .declineArrival, turn .pullServed]

/-- A request whose deadline has come. -/
def Core.dueSave (c : Core) : List Turn :=
  if c.mode != .idle && c.regs.yreq == 1 && field c.regs.ydead 32 32 == 0 && !c.saveDue && c.strand.ap.ending != some .yield then
    [⟨c.id, .event .deadlineExpiry ⟨0, 0, 0, []⟩⟩] else []

/-- A segment whose count is passed. -/
def Core.dueSegment (c : Core) : List Turn :=
  match (c.engines[0]?.getD Engine.reset).seg with
  | some g => if g.due && c.mode != .idle then [⟨c.id, .event .segmentCountOverrun ⟨0, 0, 0, []⟩⟩] else []
  | none => []

/-- A lease that has been idle. -/
def dueLease (x : Nat × MatrixArray) : List Turn :=
  if x.2.held && !x.2.seg && 64 ≤ x.2.idle && !x.2.requests.isEmpty then [⟨4 * x.1, .event .leaseIdleExpiry ⟨0, 0, 0, []⟩⟩] else []

/-- A schedule whose next round can start. -/
def State.dueRounds (s : State) : List Turn :=
  (List.range 4).flatMap fun k => match s.schedule k with
    | some x =>
      if (x.nextRound s.clk (s.share.pack.merging.any fun m => m.sched == k)).isSome then
        [⟨s.core.id, .event .exchangeRoundStart ⟨k, 0, 0, []⟩⟩] else []
    | none => []

/-! ### Records that a task queue spills (R368, R370; assumption 34) -/

def words8 (ws : List Nat) : List Byte := ws.flatMap (leBytes 8)

/-- A continuation record as it lies in memory (R368). -/
def Record.bytes (r : Record) : List Byte := words8 [r.code.toNat, r.frame.toNat, r.join.toNat, r.idx.toNat]

/-- A record as its 32 bytes give it. -/
def Record.ofBytes (r : Record) (bs : List Byte) : Record :=
  let w (i : Nat) : Word := leWord ((bs.drop (8 * i)).take 8)
  { r with code := w 0, frame := w 1, join := w 2, idx := w 3, slot := none }

/-- Place k of a spill area. -/
def TaskQueue.spillAt (z : TaskQueue) (k : Nat) : Nat := z.spill[k / 2048]?.getD 0 + 32 * (k % 2048)

/-- The lowest free place of a spill area. -/
def TaskQueue.spillFree (z : TaskQueue) : Option Nat :=
  (List.range (z.splen / 32)).find? fun k => !z.records.any fun r => r.slot == some k

/-- Do two records stand for one, wherever it is spilled? -/
def Record.same (a b : Record) : Bool := { a with slot := none } == { b with slot := none }

/-- Record i of queue q of a die is what stands for it now, in a reservation too. -/
def State.putRecord (s : State) (die q i : Nat) (old new : Record) : State :=
  (s.modTq die q fun z => { z with records := z.records.set i new }).modShare fun h => { h with
    dies := h.dies.setIfInBounds die (let d := h.dies[die]?.getD Die.reset
      { d with gangs := d.gangs.map fun g => if g.record.same old then { g with record := new } else g }) }

/-- Record i of a queue beyond the 64 of its head goes to the spill area, and comes back from there when its turn has come. -/
def State.spillRecord (s : State) (die q i : Nat) : State :=
  let z := s.tqOf die q
  match z.records[i]? with
  | none => s
  | some r =>
    if i < 64 then match r.slot with
      | some k => s.putRecord die q i r (r.ofBytes (s.homeBytes .dev false (z.spillAt k) 32).1)
      | none => s
    else match r.slot, z.spillFree with
      | none, some k => (s.homeWrite .dev false (z.spillAt k) r.bytes).putRecord die q i r { r with slot := some k }
      | _, _ => s

/-- Every queue's records stand where R370 puts them: 64 in its head, the others in its spill area. -/
def State.spillRecords (s : State) : State :=
  s.share.dies.toList.zipIdx.foldl (fun t d => d.1.tq.toList.zipIdx.foldl (fun t z =>
    if z.1.splen = 0 then t else (List.range z.1.records.length).foldl (fun t i => t.spillRecord d.2 z.2 i) t) t) s

/-- The first outbound request whose time has passed, which the test at the end of a clk finds, after the arrivals of that clk (R426). -/
def State.timeout (s : State) : Nat := 1024 * field s.share.pack.ualnode 32 32
def State.duePeers (s : State) : List Turn :=
  match s.share.pod.findIdx? fun r => !r.late && r.issued + s.timeout ≤ s.hub.hubClk with
  | some i => [⟨s.core.id, .event (if (s.share.pod[i]?.any fun r => r.reissued) then .peerQuarantine else .peerTimeoutReissue) ⟨i, 0, 0, []⟩⟩]
  | none => []

/-- ONE CLK OF THE MACHINE: counts rise and fall, and what has become due takes the next turns. -/
def State.tick (s0 : State) : State :=
  let s := s0.spillRecords
  let t := s.mapCores fun c => c.tick (s.stalled c)
  let u := t.modShare fun h => { h with arrays := h.arrays.map t.tickArray }
  let v := { u.modHub Hub.tick with clk := s.clk + 1 }
  { v with agenda := v.agenda ++ v.dueAnswers ++ v.cores.flatMap (fun c => c.dueSave ++ c.dueSegment) ++
      v.share.arrays.flatMap dueLease ++ v.dueRounds }

end Sys2Proof.Machine
end

