-- ==== Sys2Proof/Machine/Events.lean ====
section
/-!
DEFINITION. Errors of storage, power, and the arrival of stream elements (R119, R407, R408, R411, R412, R418, R419, R431).
-/
namespace Sys2Proof.Machine

/-- A field of a die's `eccstat` rises by 1 and saturates (R418). -/
def State.countEcc (s : State) (die lo w : Nat) : State :=
  s.modShare fun h => { h with dies := h.dies.setIfInBounds die (let d := h.dies[die]?.getD Die.reset
    { d with eccstat := addSat d.eccstat lo w 1 }) }

/-- A correctable error is corrected and counted: input a is 0 for SRAM, 1 for stack data, 2 for the stack's own ECC; b is
the die. -/
def execCorrectableError (s : State) : Answer :=
  match s.input.a with
  | 0 => .next (s.countEcc s.input.b 40 16)
  | 1 => .next (s.countEcc s.input.b 16 16)
  | 2 => .next (s.countEcc s.input.b 0 16)
  | _ => .next s

/-- The space with a number. -/
def spaceNo (n : Nat) : Space :=
  match n with
  | 0 => .lane
  | 1 => .cham
  | 2 => .gal
  | 3 => .grot
  | 4 => .dev
  | _ => .host

/-- The die whose storage holds a place. -/
def dieAt (sp : Space) (a : Nat) : Nat :=
  match sp with
  | .lane => dieOf (a / 2 ^ 18)
  | .cham => dieOf (a / 2 ^ 23)
  | .gal => dieOf (a / 2 ^ 20)
  | .grot => a / 2 ^ 26
  | .dev => a / 2 ^ 36
  | .host => 8

/-- The core whose strand has a ring word from FP to WP in the unit that a place lies in (R412). -/
def State.ringStruck (s : State) (sp : Space) (a : Nat) : Option Nat :=
  let k := a / 2 ^ 23
  let c := s.coreAt k
  let hit (e : Engine) : Bool := e.enabled && (pointers e.fp e.kept).any fun p => chamAt k (e.wordOff p) / 32 == a / 32
  if sp == .cham && c.mode != .idle && c.engines.toList.any hit then some k else none

/-- A sector of 32 bytes poisoned at its home. -/
def State.poisonSector (s : State) (sp : Space) (view : Bool) (a : Nat) : State :=
  (List.range (32 / unitOf sp)).foldl (fun t k => t.setPoison sp view (sectorOf a / unitOf sp + k) true) s

/-- The core's L1 copy of a sector poisoned. -/
def State.poisonL1 (s : State) (sp : Space) (view : Bool) (a : Nat) : State :=
  s.modOrder fun o => { o with l1 := o.l1.map fun x =>
    if x.space == sp && x.view == view && x.addr == sectorOf a then { x with poison := true } else x }

/-- Power comes up: every register as at reset, `rplstat` among them; what lies in the flash and in the host's memory
stays. -/
def execPowerOn (s : State) : Answer :=
  let r := State.reset
  .next { r with mem := { r.mem with host := s.mem.host },
                 hub := { r.hub with fw := { r.hub.fw with flash := s.hub.fw.flash } },
                 agenda := s.agenda, rota := s.rota, late := s.late, fresh := s.fresh }

/-- An idle core is power-gated: it holds no leaf and no held translation (R407). -/
def execCorePowerGate (s : State) : Answer :=
  if s.core.mode = .idle ∧ !s.core.draining then
    .next ((s.modEp fun e => { e with leaves := [] }).modCore fun c => { c with gated := true, tlb := [] })
  else .next s

def execCorePowerUngate (s : State) : Answer := .next (s.modCore fun c => { c with gated := false })

/-- The arithmetic clock goes down a step, or with c = 1 up again; no other result changes (R431). -/
def execPowerThrottle (s : State) : Answer :=
  .next (s.modHub fun h => { h with throttle := if s.input.c = 1 then h.throttle - 1 else h.throttle + 1 })

/-- Does the EP's word read stream k? -/
def State.epReads (s : State) (k : Nat) : Bool :=
  let pre := match s.strand.image.word s.ep.pc |>.map decodeStrand with
    | some (.ok i) => isPrefix i
    | _ => false
  match (s.strand.image.word (if pre then s.ep.pc + 4 else s.ep.pc)).map decodeStrand with
  | some (.ok i) => match vecOf i with
    | some x => x.sa == some k || x.sb == some k
    | none => false
  | _ => false

/-- The element at POS of stream a arrives for the word that the EP runs: a poisoned one under PPOL 0 raises the EP-precise
trap at that moment (R119). -/
def execStreamElementArrival (s : State) : Answer :=
  let k := s.input.a
  let v := (s.stream k).epVersion
  if s.core.mode = .running ∧ !s.ep.held ∧ s.ep.chain.isNone ∧ s.limit.isNone ∧ k < 16 ∧ !v.isQueue ∧ v.ppol = 0 ∧
      v.pos < v.count ∧ s.epReads k then
    match ((s.epPath k).elem v.pos).run s with
    | .error (.trap _ t) => if t.code = 0x16 then .next ((s.modEp fun e => { e with bind := .none, block := none }).pendTrap t) else .next s
    | _ => .next s
  else .next s

end Sys2Proof.Machine
end

