-- ==== Sys2Proof/Machine/SaveImage.lean ====
section
/-!
DEFINITION. The save image: its header and sections as bytes, and a strand read back from them
(R16, R193, R194, R271, R295, R379 to R381).
-/
namespace Sys2Proof.Machine

/-! ### Strand system registers (R379) -/

/-- The strand's system registers that the image holds, but for rings; those of the pin table among them (R217). -/
def strandRegs : List Nat :=
  List.range 0x10 ++ [0x10, 0x11, 0x12, 0x13, 0x14, 0x17] ++ (List.range 6).map (· + 0x30) ++ (List.range 16).map (· + 0x40) ++
  (List.range 6).map (· + 0x100) ++ (List.range 6).map (· + 0x108) ++ (List.range 32).map (· + 0x140) ++ [0x110, 0x111, 0x112, 0x113, 0x162, 0x1A0] ++
  (List.range 8).map (· + 0x1B0) ++ [0x1D0, 0x1D2, 0x1D3, 0x1D4, 0x1D8, 0x1D9]

/-- A field of one of them. -/
def Strand.sysGet (t : Strand) (n : Nat) : Word :=
  let r := t.regs
  let y := t.sys
  if n < 0x10 then (r.waitb[n]?.getD 0).setWidth 64
  else if 0x30 ≤ n ∧ n < 0x36 then r.lc[n - 0x30]?.getD 0
  else if 0x40 ≤ n ∧ n < 0x50 then r.rl[n - 0x40]?.getD 0
  else if 0x100 ≤ n ∧ n < 0x106 then r.lcst[n - 0x100]?.getD 0
  else if 0x108 ≤ n ∧ n < 0x10E then r.lcend[n - 0x108]?.getD 0
  else if 0x140 ≤ n ∧ n < 0x160 then
    let p := t.pins[(n - 0x140) / 2]?.getD Pin.free
    if n % 2 = 0 then p.lo else p.hi
  else if 0x1B0 ≤ n ∧ n < 0x1B6 then y.lpext[n - 0x1B0]?.getD 0
  else match n with
    | 0x10 => r.rotbase
    | 0x11 => r.rc
    | 0x12 => y.lodstall
    | 0x13 => y.lodpred
    | 0x14 => r.srseed
    | 0x17 => y.trapcause
    | 0x110 => r.aflags
    | 0x111 => y.zpcnt
    | 0x112 => y.digcancel
    | 0x113 => y.nbpois
    | 0x162 => y.mstat
    | 0x1A0 => y.ordstat
    | 0x1B6 => y.lpidx
    | 0x1B7 => y.gangid
    | 0x1D0 => y.shvec
    | 0x1D2 => y.tval
    | 0x1D3 => y.tpc
    | 0x1D4 => y.tinfo
    | 0x1D8 => y.ptbase
    | 0x1D9 => y.hptbase
    | _ => 0

/-- One of them replaced; the pin table comes from the live state of the port engine (R225). -/
def Strand.sysPut (t : Strand) (n : Nat) (v : Word) : Strand :=
  let r := t.regs
  let y := t.sys
  if n < 0x10 then { t with regs := { r with waitb := r.waitb.setIfInBounds n (bits v 0 32), waitbEp := r.waitbEp.setIfInBounds n (bits v 0 32) } }
  else if 0x30 ≤ n ∧ n < 0x36 then { t with regs := { r with lc := r.lc.setIfInBounds (n - 0x30) v } }
  else if 0x40 ≤ n ∧ n < 0x50 then { t with regs := { r with rl := r.rl.setIfInBounds (n - 0x40) v } }
  else if 0x100 ≤ n ∧ n < 0x106 then { t with regs := { r with lcst := r.lcst.setIfInBounds (n - 0x100) v } }
  else if 0x108 ≤ n ∧ n < 0x10E then { t with regs := { r with lcend := r.lcend.setIfInBounds (n - 0x108) v } }
  else if 0x1B0 ≤ n ∧ n < 0x1B6 then { t with sys := { y with lpext := y.lpext.setIfInBounds (n - 0x1B0) v } }
  else match n with
    | 0x10 => { t with regs := { r with rotbase := v } }
    | 0x11 => { t with regs := { r with rc := v } }
    | 0x12 => { t with sys := { y with lodstall := v } }
    | 0x13 => { t with sys := { y with lodpred := v } }
    | 0x14 => { t with regs := { r with srseed := v } }
    | 0x17 => { t with sys := { y with trapcause := v } }
    | 0x110 => { t with regs := { r with aflags := v } }
    | 0x111 => { t with sys := { y with zpcnt := v } }
    | 0x112 => { t with sys := { y with digcancel := v } }
    | 0x113 => { t with sys := { y with nbpois := v } }
    | 0x162 => { t with sys := { y with mstat := v } }
    | 0x1A0 => { t with sys := { y with ordstat := v } }
    | 0x1B6 => { t with sys := { y with lpidx := v } }
    | 0x1B7 => { t with sys := { y with gangid := v } }
    | 0x1D0 => { t with sys := { y with shvec := v } }
    | 0x1D2 => { t with sys := { y with tval := v } }
    | 0x1D3 => { t with sys := { y with tpc := v } }
    | 0x1D4 => { t with sys := { y with tinfo := v } }
    | 0x1D8 => { t with sys := { y with ptbase := v } }
    | 0x1D9 => { t with sys := { y with hptbase := v } }
    | _ => t

/-! ### Sections as bytes -/

/-- A list of bytes of exactly n, filled up with 0. -/
def padTo (n : Nat) (bs : List Byte) : List Byte := (bs ++ List.replicate n 0).take n

/-- q0 to q7, 1,024 bytes each. -/
def QEntry.bytes (x : QEntry) : List Byte := words8 [(x.data.getD 0).toNat, x.mark.toNat]
def Queues.bytes (z : Queues) : List Byte := z.q.toList.flatMap fun q => padTo 1024 (q.flatMap QEntry.bytes)

/-- A stream's versions, the EP's first. -/
def Stream.image (x : Stream) : List Byte :=
  padTo 320 (padTo 32 (leBytes 1 x.versions.length) ++
    x.versions.flatMap fun v => words8 [v.w0.toNat, v.w1.toNat, v.w2.toNat, (x.word3 v).toNat])

/-- A pin entry. -/
def Pin.image (p : Pin) : List Byte :=
  let answered := p.answered.zipIdx.foldl (fun m x => if x.1 then m + 2 ^ x.2 else m) 0
  padTo 32 (words8 [p.lo.toNat, p.hi.toNat] ++ leBytes 2 answered ++ leBytes 1 (p.serving.filter id).length)

/-- An engine: configuration, pointers, registers, flags, loop levels, repetitions left, and an open segment. -/
def EngineLoop.bytes (l : EngineLoop) : List Byte :=
  words8 [l.start.toNat + 2 ^ 16 * l.last.toNat + (if l.active then 2 ^ 32 else 0), l.count.toNat]

def Segment.bytes (g : Segment) : List Byte :=
  words8 [1 + (if g.bounded then 2 else 0) + (if g.broken then 4 else 0), g.count, g.crc.toNat, g.sc, g.crcNow.toNat, g.cmds,
    g.pos.toNat, g.block]

def Engine.image (e : Engine) : List Byte :=
  let flags := e.f.toList.zipIdx.foldl (fun m x => if x.1 || x.2 == 0 then m + 2 ^ x.2 else m) 0
  padTo 512 (words8 ([e.cfg.toNat, e.pointers.toNat] ++ e.n.toList.map (·.toNat) ++ [flags]) ++ e.loops.toList.flatMap EngineLoop.bytes ++
    words8 [e.repLeft] ++ (match e.seg with | some g => g.bytes | none => []))

/-! ### Chain state (R193) -/

/-- RES of a link of a lane, saturated to 16 bits. -/
def Lane.res (l : Lane) (j : Nat) : Nat :=
  let e := l.entry j
  match l.stage j with
  | none => 0
  | some g =>
    if e.pos = 0 || g.vec.linkKind != .digit || e.st = 4 then 0
    else
      let p := l.parts (e.pos + g.delta) j g
      wrapNat 16 (max (-32768) (min 32767 (residual g.vec.fn p.1.p p.2.1.p p.2.2.p e)))

/-- Digits packed at 3 bits, the first at bit 0. -/
def packDigits (ds : List Int) : Nat := ds.zipIdx.foldl (fun m x => m + wrapNat 3 x.1 * 2 ^ (3 * x.2)) 0

def LaneLink.image (e : LaneLink) (res : Nat) : List Byte :=
  leBytes 32 (e.st % 8 + e.pos % 32 * 2 ^ 3 + e.dec % 8 * 2 ^ 8 + wrapNat 18 e.xe * 2 ^ 12 + packDigits (e.dig.take 16) * 2 ^ 30 +
    res * 2 ^ 80 + e.opa.toNat * 2 ^ 96 + e.opb.toNat * 2 ^ 128 + e.opd.toNat * 2 ^ 160 + e.spv.toNat * 2 ^ 192)

/-- A candidate; a special one has its FP32 encoding in the place of its digits (assumption 69). -/
def Candidate.image (c : Candidate) : List Byte :=
  let value := if c.st = 4 then c.spv.toNat else packDigits (c.dig.take 16)
  leBytes 16 (c.col % 2 ^ 32 + wrapNat 18 c.xe * 2 ^ 32 + c.st % 8 * 2 ^ 50 + value * 2 ^ 53)

/-- The reducing link of a chain. -/
def reducingLink (gs : List Stage) : Option Nat := gs.findIdx? fun g => g.vec.linkKind == .reduce

/-- Bits of the lanes whose entry of a link meets a condition. -/
def laneMask (es : List (List LaneLink)) (j : Nat) (f : LaneLink → Bool) : Nat :=
  es.zipIdx.foldl (fun m x => if f (x.1[j]?.getD LaneLink.empty) then m + 2 ^ x.2 else m) 0

/-- The last completed step of the pass: that of the link with the least delay. -/
def ChainState.lastDone (c : ChainState) (gs : List Stage) : Nat :=
  min 16 (c.step - ((gs.filter fun g => g.vec.linkKind == .digit).map (·.total)).foldl min 64)

def ChainState.image (c : ChainState) (gs : List Stage) (ftz : Bool) : List Byte :=
  let r := reducingLink gs
  let head := padTo 64 (words8 [c.cpc.toNat] ++ leBytes 1 gs.length ++ leBytes 1 (r.getD 0xFF) ++ leBytes 2 (c.lastDone gs) ++
    leBytes 4 c.row ++ leBytes 4 c.pass ++ leBytes 4 c.lanes)
  let red := match r with
    | none => []
    | some j => leBytes 32 (laneMask c.entries j fun e => e.dec == 0) ++ leBytes 32 (laneMask c.entries j fun e => e.dec == 1 && e.exc == 2) ++
        leBytes 32 (laneMask c.entries j fun e => e.dec == 1 && e.exc == 3) ++ leBytes 32 0 ++ c.cand.flatMap Candidate.image
  let one (j m : Nat) : List Byte := match c.entries[m]? with
    | some es => let l : Lane := ⟨gs, ftz, es⟩; (l.entry j).image (l.res j)
    | none => List.replicate 32 0
  head ++ padTo 1152 red ++ (List.range 8).flatMap fun j => (List.range 256).flatMap fun m =>
    if j < gs.length then one j m else List.replicate 32 0

/-! ### The execute record (R381) -/

/-- KIND of the record of an execute word; 0 for none. -/
def Vec.recordKind (x : Vec) : Nat :=
  match x.kind with
  | .vcvt _ => 6
  | .vdec f => if 5 ≤ f then 5 else 0
  | .vred f => if f = 2 ∨ f = 3 then 4 else if 4 ≤ f then 3 else if x.ty < 8 ∨ x.ty = 13 then 1 else 2
  | _ => 0

/-- The address of the word that the EP is inside. -/
def Strand.epWord (t : Strand) : BitVec 56 :=
  match (t.image.word t.ep.pc).map decodeStrand with
  | some (.ok i) => if isPrefix i then t.ep.pc + 4 else t.ep.pc
  | _ => t.ep.pc

def ExecRecord.image (r : ExecRecord) (ipc : BitVec 56) : List Byte :=
  let flag (b : Bool) (k : Nat) : Nat := if b then 2 ^ k else 0
  let ne := if r.kind = 3 then r.stack.length else r.cand.length
  let head := words8 [ipc.toNat] ++ leBytes 4 r.kind ++ leBytes 4 r.row ++ leBytes 4 r.col ++ leBytes 4 ne ++
    words8 [r.acc % 2 ^ 32 + flag r.seen 32 + flag r.nan 33]
  let stk := r.stack.flatMap fun x => words8 [wrapNat 32 x.1 + x.2 % 32 * 2 ^ 32]
  let cand := r.cand.flatMap fun x => words8 [x.1 % 2 ^ 32 + x.2 % 2 ^ 32 * 2 ^ 32]
  let trls := if r.kind = 6 then leBytes 4 r.maxAbs ++ leBytes 4 r.satCnt ++ leBytes 2 r.nanCnt ++ leBytes 2 0 ++ leBytes 4 r.crcE.toNat ++
      leBytes 4 r.crcM.toNat ++ leBytes 4 r.elemBytes ++ leBytes 4 r.metaBytes else []
  padTo 1024 (padTo 32 head ++ padTo 224 stk ++ padTo 512 cand ++ padTo 32 trls)

/-- The chain-state section. -/
def Strand.chainSection (t : Strand) : List Byte :=
  match t.ep.chain with
  | some c => padTo 66752 (c.image (((t.image.chain c.cpc).map Chain.stages).getD []) (bit t.regs.aflags 16))
  | none => if t.ep.xr.kind = 0 then List.replicate 66752 0 else padTo 66752 (t.ep.xr.image t.epWord)

/-! ### The image (R379) -/

/-- FLG of the header. -/
def imageFlags (forced chn seg bound written xr : Bool) : Nat :=
  let f (b : Bool) (k : Nat) : Nat := if b then 2 ^ k else 0
  f forced 0 + f chn 1 + f seg 2 + f bound 3 + f written 4 + f xr 5

/-- The header. -/
def Strand.header (t : Strand) (rec_ : Record) (core : Nat) (flags : Nat) : List Byte :=
  let pcep := match t.ep.chain with
    | some c => c.cpc
    | none => t.ep.pc
  padTo 256 (leBytes 8 1 ++ leBytes 1 0 ++ leBytes 1 0 ++ leBytes 1 flags ++ leBytes 1 t.info.banks.toNat ++ leBytes 4 core ++
    words8 [0, t.tlive.toNat, t.ap.pc.toNat, pcep.toNat] ++ rec_.bytes)

/-- The predicates, 48 bits; p0 is 1 (R26). -/
def Regs.predMask (r : Regs) : Nat := r.p.toList.zipIdx.foldl (fun m x => if x.1 || x.2 == 0 then m + 2 ^ x.2 else m) 0

/-- Every section between the header and the tiles, at its offset. -/
def Strand.sections (t : Strand) (engines : Vector Engine 6) : List (Nat × List Byte) :=
  let z := t.queues
  [(0x100, words8 (t.regs.a.toList.map (·.toNat))), (0x300, words8 (t.regs.e.toList.map (·.toNat))),
   (0x400, padTo 512 (words8 [t.regs.predMask])),
   (0x600, padTo 256 (words8 (z.q.toList.map (·.length) ++ [z.bq.length, z.xq.length]))),
   (0x700, z.bytes), (0x2700, padTo 512 (words8 (z.bq.map (·.toNat))) ++ padTo 256 (words8 (z.xq.map (·.toNat)))),
   (0x2A00, t.streams.toList.flatMap Stream.image), (0x3E00, padTo 128 (t.sg.toList.flatMap fun g => leBytes 2 g.toNat)),
   (0x3E80, t.pins.toList.flatMap Pin.image), (0x4080, engines.toList.flatMap Engine.image), (0x4C80, t.chainSection),
   (0x15400, (List.range 1024).flatMap fun n => if strandRegs.contains n then leBytes 8 (t.sysGet n).toNat else leBytes 8 0),
   (0x17400, List.replicate 0xC00 0)]

/-! ### Reading an image back (R380) -/

/-- The bytes of an image, by offset and length. -/
abbrev Reader := Nat → Nat → List Byte

def Reader.word (rd : Reader) (o : Nat) : Word := leWord (rd o 8)
def Reader.nat (rd : Reader) (o n : Nat) : Nat := leNat (rd o n)

/-- A stream: the places of its versions are those that were kept. -/
def Stream.ofImage (k : Stream) (rd : Reader) (o : Nat) : Stream :=
  let one (j : Nat) : Version :=
    let a := o + 32 + 32 * j
    let old := k.versions[j]?.getD Version.zero
    ⟨rd.word a, rd.word (a + 8), rd.word (a + 16), rd.word (a + 24) &&& 0xFFFFFFFF#64, old.seq, old.clears⟩
  ⟨(List.range (max 1 (rd.nat o 1))).map one, bits (rd.word (o + 56)) 32 32⟩

def Segment.ofImage (rd : Reader) (o : Nat) : Option Segment :=
  let f := rd.nat o 8
  if f % 2 = 0 then none
  else some ⟨f / 2 % 2 == 1, rd.nat (o + 8) 8, BitVec.ofNat 32 (rd.nat (o + 16) 4), rd.nat (o + 24) 8, BitVec.ofNat 32 (rd.nat (o + 32) 4),
    f / 4 % 2 == 1, BitVec.ofNat 16 (rd.nat (o + 48) 2), rd.nat (o + 56) 8, [], true, rd.nat (o + 40) 8⟩

def Engine.ofImage (rd : Reader) (o : Nat) : Engine :=
  let p := rd.word (o + 8)
  let loop (l : Nat) : EngineLoop :=
    let w := rd.word (o + 152 + 16 * l)
    ⟨bit w 32, bits w 0 16, bits w 16 16, rd.word (o + 160 + 16 * l)⟩
  { Engine.reset with
    cfg := rd.word o, fp := bits p 32 16, rp := bits p 16 16, wp := bits p 0 16, next := bits p 16 16,
    n := Vector.ofFn fun i => rd.word (o + 16 + 8 * i.val), f := Vector.ofFn fun i => i.val != 0 && bit (rd.word (o + 144)) i.val,
    loops := Vector.ofFn fun i => loop i.val, repLeft := rd.nat (o + 216) 8, seg := Segment.ofImage rd (o + 224) }

/-- The engines of an image; only engine 0 has a segment. -/
def enginesOf (rd : Reader) : Vector Engine 6 := Vector.ofFn fun i => Engine.ofImage rd (0x4080 + 512 * i.val)

def Queues.ofImage (rd : Reader) : Queues where
  q := Vector.ofFn fun i => (List.range (rd.nat (0x600 + 8 * i.val) 8)).map fun j =>
    let o := 0x700 + 1024 * i.val + 16 * j
    ⟨some (rd.word o), BitVec.ofNat 2 (rd.nat (o + 8) 1), none⟩
  bq := (List.range (rd.nat 0x640 8)).map fun j => rd.word (0x2700 + 8 * j)
  xq := (List.range (rd.nat 0x648 8)).map fun j => rd.word (0x2900 + 8 * j)

/-- A strand from its image; what the image does not hold comes from what was kept. -/
def Strand.ofImage (k : Strand) (rd : Reader) : Strand :=
  let t := strandRegs.foldl (fun u n => u.sysPut n (rd.word (0x15400 + 8 * n))) k
  { t with
    regs := { t.regs with a := Vector.ofFn fun i => rd.word (0x100 + 8 * i.val), e := Vector.ofFn fun i => rd.word (0x300 + 8 * i.val),
                          p := Vector.ofFn fun i => i.val != 0 && bit (rd.word 0x400) i.val },
    info := { t.info with banks := BitVec.ofNat 8 (rd.nat 11 1) },
    queues := Queues.ofImage rd,
    streams := Vector.ofFn fun i => (k.stream i.val).ofImage rd (0x2A00 + 320 * i.val),
    sg := Vector.ofFn fun i => BitVec.ofNat 16 (rd.nat (0x3E00 + 2 * i.val) 2),
    ap := { k.ap with pc := (rd.word 32).setWidth 56 } }

/-! ### Chain state and execute record read back (R193, R194, R381) -/

/-- A number of n bits as two's complement. -/
def signOf (n x : Nat) : Int := if x < 2 ^ (n - 1) then x else (x : Int) - 2 ^ n

/-- The first n digits of a packed field. -/
def unpackDigits (n x : Nat) : List Int := (List.range n).map fun i => signOf 3 (x / 2 ^ (3 * i) % 8)

/-- A lane-link entry; `digits` holds of a digit-producing link, `exc` is the test that excluded the element. -/
def LaneLink.ofImage (x : Nat) (digits : Bool) (exc : Nat) : LaneLink :=
  let f (lo n : Nat) : Nat := x / 2 ^ lo % 2 ^ n
  ⟨f 0 3, f 8 3, f 3 5, signOf 18 (f 12 18), if digits then unpackDigits (min 16 (f 3 5)) (f 30 48) else [],
    BitVec.ofNat 32 (f 96 32), BitVec.ofNat 32 (f 128 32), BitVec.ofNat 32 (f 160 32), BitVec.ofNat 32 (f 192 32), exc⟩

def Candidate.ofImage (x : Nat) : Candidate :=
  let f (lo n : Nat) : Nat := x / 2 ^ lo % 2 ^ n
  ⟨f 0 32, signOf 18 (f 32 18), f 50 3, if f 50 3 = 4 then [] else unpackDigits 16 (f 53 48), if f 50 3 = 4 then BitVec.ofNat 32 (f 53 32) else 0⟩

/-- A chain from its section at o of an image, its stages given.  What the section does not hold, the columns read ahead, their
marks and the clk within a step, comes from what was kept of the same pass. -/
def ChainState.ofImage (k : Option ChainState) (gs : List Stage) (rd : Reader) (o : Nat) : ChainState :=
  let row := rd.nat (o + 12) 4
  let pass := rd.nat (o + 16) 4
  let lanes := rd.nat (o + 20) 4
  let r := o + 64
  let excOf (m : Nat) : Nat := if (rd.nat (r + 32) 32).testBit m then 2 else if (rd.nat (r + 64) 32).testBit m then 3 else 0
  let one (j m : Nat) : LaneLink :=
    let g := gs[j]?
    LaneLink.ofImage (rd.nat (r + 1152 + 32 * (256 * j + m)) 32) (g.any fun g => g.vec.linkKind == .digit)
      (if g.any fun g => g.vec.linkKind == .reduce then excOf m else 0)
  let entries := (List.range (min 256 lanes)).map fun m => (List.range gs.length).map fun j => one j m
  let entered := entries.any fun es => es.any fun e => e.st != 0
  let old := (k.filter fun k => k.row == row && k.cpc.toNat == rd.nat o 8).getD (ChainState.start 0 row lanes)
  let step := rd.nat (o + 10) 2
  let same := old.pass == pass && old.lastDone gs == step
  let used (x : Nat) : Bool := x % 2 ^ 53 / 2 ^ 50 != 0
  { old with
    cpc := BitVec.ofNat 56 (rd.nat o 8), row := row, pass := pass, lanes := lanes, entered := entered,
    step := if same then old.step else if step = 0 then 0 else step + ((gs.filter fun g => g.vec.linkKind == .digit).map (·.total)).foldl min 64,
    entries := if entered then entries else [],
    marks := if entered then (List.range (min 256 lanes)).map fun m => old.marks[m]?.getD false else [],
    cand := if gs.any fun g => g.vec.linkKind == .reduce then
        (((List.range 64).map fun i => rd.nat (r + 128 + 16 * i) 16).filter used).map Candidate.ofImage
      else [] }

/-- The record at o of an image; whether the row holds a poisoned element comes from what was kept. -/
def ExecRecord.ofImage (k : ExecRecord) (rd : Reader) (o : Nat) : ExecRecord :=
  let kind := rd.nat (o + 8) 1
  let ne := rd.nat (o + 20) 4
  let acc := rd.nat (o + 24) 8
  { k with
    kind := kind, row := rd.nat (o + 12) 4, col := rd.nat (o + 16) 4, acc := acc % 2 ^ 32, seen := acc.testBit 32, nan := acc.testBit 33,
    stack := if kind = 3 then (List.range (min 17 ne)).map fun i =>
        let x := rd.nat (o + 32 + 8 * i) 8
        (signOf 32 (x % 2 ^ 32), x / 2 ^ 32 % 32)
      else [],
    cand := if kind = 5 then (List.range (min 64 ne)).map fun i => (rd.nat (o + 256 + 8 * i) 4, rd.nat (o + 260 + 8 * i) 4) else [],
    maxAbs := rd.nat (o + 768) 4, satCnt := rd.nat (o + 772) 4, nanCnt := rd.nat (o + 776) 2,
    crcE := BitVec.ofNat 32 (rd.nat (o + 780) 4), crcM := BitVec.ofNat 32 (rd.nat (o + 784) 4),
    elemBytes := rd.nat (o + 788) 4, metaBytes := rd.nat (o + 792) 4 }

/-- A strand with its chain or its record as the image gives them; FLG says which it holds (R379). -/
def Strand.withChain (t : Strand) (rd : Reader) : Strand :=
  let flags := rd.nat 10 1
  let at_ := BitVec.ofNat 56 (rd.nat 0x4C80 8)
  { t with ep := { t.ep with
    pc := (rd.word 40).setWidth 56,
    chain := if flags.testBit 1 then
        some (ChainState.ofImage t.ep.chain (((t.image.chain at_).map Chain.stages).getD []) rd 0x4C80)
      else none,
    xr := if flags.testBit 5 && !flags.testBit 1 then t.ep.xr.ofImage rd 0x4C80 else { t.ep.xr with kind := 0 } } }

/-- Do the counts of an image keep their limits? -/
def countsOk (rd : Reader) : Bool :=
  (List.range 8).all (fun i => rd.nat (0x600 + 8 * i) 8 ≤ 64) && rd.nat 0x640 8 ≤ 64 && rd.nat 0x648 8 ≤ 32 &&
  (List.range 16).all fun i => 1 ≤ rd.nat (0x2A00 + 320 * i) 1 && rd.nat (0x2A00 + 320 * i) 1 ≤ 9

/-! ### Refusals (R194, R380, R381; assumption 69) -/

/-- Is every one of n bytes 0? -/
def Reader.zero (rd : Reader) (o n : Nat) : Bool := (rd o n).all (· == 0)

/-- Reserved bytes of the header. -/
def Reader.headOk (rd : Reader) : Bool := rd.nat 10 1 < 64 && rd.zero 8 2 && rd.zero 16 8 && rd.zero 80 176

/-- Reserved bytes of the queues: above the counts, and above the mark of an entry in use. -/
def Reader.queuesOk (rd : Reader) : Bool :=
  rd.zero 0x650 176 && (List.range 8).all fun q => (List.range (min 64 (rd.nat (0x600 + 8 * q) 8))).all fun j =>
    let o := 0x700 + 1024 * q + 16 * j
    rd.nat (o + 8) 1 < 4 && rd.zero (o + 9) 7

/-- Reserved bytes of the pin entries. -/
def Reader.pinsOk (rd : Reader) : Bool :=
  (List.range 16).all fun i => rd.nat (0x3E80 + 32 * i + 16) 2 < 2 ^ 15 && rd.zero (0x3E80 + 32 * i + 19) 13

/-- Reserved bytes of the engines: above the flags, above a loop level's mark, and above what an engine has. -/
def Reader.enginesOk (rd : Reader) : Bool :=
  (List.range 6).all fun i =>
    let o := 0x4080 + 512 * i
    rd.zero (o + 145) 7 && ((List.range 4).all fun l => rd.nat (o + 156 + 16 * l) 1 < 2 && rd.zero (o + 157 + 16 * l) 3) &&
      if i = 0 ∧ rd.nat (o + 224) 1 % 2 = 1 then rd.zero (o + 288) 224 else rd.zero (o + 224) 288

/-- Slots of registers that are none of the strand's, and the upper halves of `waitb0` to `waitb15`. -/
def Reader.regsOk (rd : Reader) : Bool :=
  (List.range 1024).all fun n =>
    if n < 16 then rd.zero (0x15400 + 8 * n + 4) 4 else strandRegs.contains n || rd.zero (0x15400 + 8 * n) 8

/-- Reserved bytes between the header and the tiles, but for the chain-state section. -/
def Reader.reservedOk (rd : Reader) : Bool :=
  rd.headOk && rd.zero 0x406 506 && rd.queuesOk && ((List.range 16).all fun i => rd.zero (0x2A00 + 320 * i + 1) 31) &&
  rd.zero 0x3E7E 2 && rd.pinsOk && rd.enginesOk && rd.regsOk && rd.zero 0x17400 0xC00

/-- Do the reserved fields of a chain's section read 0, and every lane and link that is not in use: header, reducing record,
entries? -/
def chainReservedOk (rd : Reader) (gs : List Stage) : Bool :=
  let o := 0x4C80
  let r := o + 64
  let lanes := rd.nat (o + 20) 4
  let entry (j m : Nat) : Bool :=
    let x := rd.nat (r + 1152 + 32 * (256 * j + m)) 32
    if j < gs.length ∧ m < lanes then x / 2 ^ 224 == 0 && x / 2 ^ 78 % 4 == 0 && x / 2 ^ 11 % 2 == 0 else x == 0
  rd.zero (o + 24) 40 &&
  (if (reducingLink gs).isSome then
      rd.zero (r + 96) 32 && (List.range 64).all fun i =>
        let x := rd.nat (r + 128 + 16 * i) 16
        x / 2 ^ 101 == 0 && x / 2 ^ 50 % 8 < 6
    else rd.zero r 1152) &&
  (List.range 8).all fun j => (List.range 256).all (entry j)

/-- May an entry of a link resume: POS within 16, ST none of the reserved values, every digit within -2 and 2, and RES as it is computed
from the digits and the operands? -/
def entryOk (rd : Reader) (l : Lane) (j m : Nat) : Bool :=
  let x := rd.nat (0x4C80 + 1216 + 32 * (256 * j + m)) 32
  (l.entry j).pos ≤ 16 && (l.entry j).st < 6 && (unpackDigits 16 (x / 2 ^ 30)).all (fun d => -2 ≤ d && d ≤ 2) &&
  x / 2 ^ 80 % 2 ^ 16 == l.res j

/-- May a chain resume (R194)? -/
def ChainState.ok (c : ChainState) (m : Image) (ftz : Bool) (rd : Reader) : Bool :=
  let gs := ((m.chain c.cpc).map Chain.stages).getD []
  (match (m.word c.cpc).map decodeStrand with
   | some (.ok .chainB) => true
   | _ => false) &&
  chainReservedOk rd gs &&
  (c.entries.zipIdx.all fun es => (List.range gs.length).all fun j => entryOk rd ⟨gs, ftz, es.1⟩ j es.2) &&
  c.cand.all fun e => e.dig.all fun d => -2 ≤ d && d ≤ 2

/-- May an execute record be resumed: IPC holds a word of its KIND, NE keeps its limit, reserved bytes are 0 (R381)? -/
def recordOk (m : Image) (rd : Reader) : Bool :=
  let o := 0x4C80
  let kind := rd.nat (o + 8) 1
  let ne := rd.nat (o + 20) 4
  kind != 0 && ne ≤ (if kind = 3 then 17 else 64) &&
  rd.zero (o + 9) 3 && rd.nat (o + 28) 1 < 4 && rd.zero (o + 29) 3 && rd.zero (o + 168) 88 && rd.zero (o + 778) 2 && rd.zero (o + 796) 4 &&
  rd.zero (o + 800) 65952 && ((List.range 17).all fun i => rd.nat (o + 36 + 8 * i) 1 < 32 && rd.zero (o + 37 + 8 * i) 3) &&
  match (m.word (BitVec.ofNat 56 (rd.nat o 8))).map decodeStrand with
  | some (.ok i) => (vecOf i).any fun x => x.recordKind == kind
  | _ => false

/-- Why an image is refused on a core with this pod-wide name: the save-image or the chain-state cause (R194, R380, R381). -/
def Kept.refused (k : Kept) (name : Nat) (rd : Reader) : Option Nat :=
  let t := (k.strand.ofImage rd).withChain rd
  let flags := rd.nat 10 1
  if rd.nat 0 8 ≠ 1 || !countsOk rd || !rd.reservedOk then some 0x39
  else if flags / 8 % 2 = 1 && name != rd.nat 12 4 then some 0x39
  else match t.ep.chain with
    | some c => if c.ok t.image (bit t.regs.aflags 16) rd then none else some 0x3A
    | none =>
      if flags / 32 % 2 = 1 then (if recordOk t.image rd then none else some 0x39)
      else if rd.zero 0x4C80 66752 then none else some 0x39

end Sys2Proof.Machine
end

