-- ==== Sys2Proof/Machine/Hub.lean ====
section
/-!
DEFINITION. How the hub reads and writes memory, event records, queue halts, ready bits, and how invocations end
(R334 to R336, R346 to R351, R397, R399 to R403, R428 to R430).
-/
namespace Sys2Proof.Machine

/-! ### Addresses of the hub -/

/-- `ptbase` and `hptbase` of an address space (R397, assumption 15). -/
def State.rootsOf (s : State) (asid : Nat) : Word × Word :=
  match s.hub.fw.roots.find? fun r => r.1 == asid with
  | some r => ((r.2.1 &&& 0xFFFFFFFF00000#64) ||| BitVec.ofNat 64 asid, r.2.2 &&& 0xFFFFFFFF00001#64)
  | none => (BitVec.ofNat 64 asid, 0)

/-- A place that the hub reaches. -/
structure HubPlace where
  space : Space
  pa : Nat
  view : Bool
deriving DecidableEq, Repr

/-- Translation by the hub, which no U bit stops; the error is a cause and its ARG. -/
def State.hubPlace (s : State) (roots : Word × Word) (host : Bool) (va : Nat) (write : Bool) :
    Except (Nat × Nat) (HubPlace × State) :=
  let v : Word := BitVec.ofNat 64 va
  if vaBad host v || (host && !bit roots.2 0) then .error (0x12, 15)
  else match walk s.mem (rootOf (if host then roots.2 else roots.1)) v with
    | .bad arg => .error (0x12, arg)
    | .unmapped => .error (0x13, 8)
    | .poisoned => .error (0x16, 0)
    | .leaf e k at_ =>
      let pa := pteAddr e + vaNat v % 2 ^ k
      let m := missing e ⟨host, !write, write, if write then 1 else 0⟩ true (!host && (s.slotProtects pa || s.isWindow pa))
      let far := if !host && s.target pa == .nothing then 8 else 0
      if m + far ≠ 0 then .error (0x13, m + far)
      else
        let v : Word := (if pteA e then 0 else 0x40) ||| (if write && !pteD e then 0x80 else 0)
        let t := s.touchWalk (rootOf (if host then roots.2 else roots.1)) (BitVec.ofNat 64 va)
        .ok (⟨if host then .host else .dev, pa, pteCmp e⟩, if v = 0 then t else t.orPte at_ v)

/-- Why an access of the hub does not complete: a cause with its ARG and, when a fetched word is at fault, that word's address
(R335); or a request to another node whose answer is awaited. -/
inductive HubStop where
  | cause (code arg : Nat) (word : Option Nat)
  | ask (r : PodReq)
deriving DecidableEq, Repr

/-- The agent that a queue's requests to other nodes serve, and that of a launch. -/
def hubAgent (q : Nat) : Nat := 12 + q
def launchAgent : Nat := 268

/-- What was answered to an agent of the hub is used up. -/
def State.hubDone (s : State) (agent : Nat) : State :=
  s.modShare fun h => { h with replies := h.replies.filter fun r => r.agent != agent }

/-- A read within a sector of another node's window (R423, R426). -/
def State.hubPod (s : State) (agent node off n : Nat) : Except HubStop ((List Byte × Bool) × State) :=
  let sec := sectorOf off
  match s.share.replies.find? fun r => r.agent == agent && r.node == node && r.offset == sec && r.data.length == 32 with
  | some r => .ok (((r.data.drop (off - sec)).take n, r.poison), s)
  | none =>
    if s.share.pack.quarantined.contains node then .ok (((freeBytes s.fresh).take n, false), { s with fresh := s.fresh + 4 })
    else .error (.ask ⟨0, agent, node, sec, .read, [], s.hub.hubClk, false, false, false, 0⟩)

/-- Has a write to another node been performed for an agent of the hub?  One to a quarantined node is given up (R426). -/
def State.hubWritten (s : State) (agent node off : Nat) : Bool :=
  s.share.pack.quarantined.contains node ||
  s.share.replies.any fun r => r.agent == agent && r.node == node && r.offset == off && r.data.isEmpty

/-- The old word of an addition at another node that an agent of the hub has asked for; none until its reply has come (R328). -/
def State.hubAdded (s : State) (agent node off : Nat) : Bool :=
  s.share.pack.quarantined.contains node ||
  s.share.replies.any fun r => r.agent == agent && r.node == node && r.offset == off && r.data.length == 4

/-- Bytes within a sector and whether it is poisoned: at their home, combined in an aperture window, or of another node (R249,
R327, R400, R423). -/
def State.hubSector (s : State) (agent : Nat) (p : HubPlace) (n : Nat) : Except HubStop ((List Byte × Bool) × State) :=
  match s.targetOf p.space p.pa with
  | .window w off => match s.windowRead w off n with
    | .data bs poison t => .ok ((bs, poison), t)
    | .ask r => .error (.ask r)
  | .pod node off => s.hubPod agent node off n
  | _ => .ok (s.homeBytes p.space p.view p.pa n, s.touchL2 p.space p.view p.pa)

/-- Bytes of sectors in order, and whether one is poisoned. -/
def State.hubReadParts (s : State) (agent : Nat) (roots : Word × Word) (host : Bool) :
    List (Nat × Nat) → Except HubStop ((List Byte × Bool) × State)
  | [] => .ok (([], false), s)
  | x :: xs =>
    match s.hubPlace roots host x.1 false with
    | .error e => .error (.cause e.1 e.2 none)
    | .ok (p, t) =>
      match t.hubSector agent p x.2 with
      | .error e => .error e
      | .ok (h, t) =>
        match t.hubReadParts agent roots host xs with
        | .error e => .error e
        | .ok (r, u) => .ok ((h.1 ++ r.1, h.2 || r.2), u)

def State.hubRead (s : State) (agent : Nat) (roots : Word × Word) (host : Bool) (va n : Nat) :
    Except HubStop ((List Byte × Bool) × State) := s.hubReadParts agent roots host (sectorsIn va n)

/-- Bytes written sector by sector; those of another node's window are first sent there and awaited. -/
def State.hubWriteParts (s : State) (agent : Nat) (roots : Word × Word) (host : Bool) :
    List (Nat × Nat) → List Byte → Except HubStop State
  | [], _ => .ok s
  | x :: xs, bs =>
    match s.hubPlace roots host x.1 true with
    | .error e => .error (.cause e.1 e.2 none)
    | .ok (p, t) =>
      match t.targetOf p.space p.pa with
      | .pod node off =>
        if t.hubWritten agent node off then t.hubWriteParts agent roots host xs (bs.drop x.2)
        else .error (.ask ⟨0, agent, node, off, .write, bs.take x.2, t.hub.hubClk, false, false, false, 0⟩)
      | _ => (t.homeWrite p.space p.view p.pa (bs.take x.2)).hubWriteParts agent roots host xs (bs.drop x.2)

def State.hubWrite (s : State) (agent : Nat) (roots : Word × Word) (host : Bool) (va : Nat) (bs : List Byte) : Except HubStop State :=
  s.hubWriteParts agent roots host (sectorsIn va bs.length) bs

/-- Bytes of a record written without waiting; a sector that cannot be reached is dropped (assumption 70), one for a quarantined node
given up (R426).  The answer says whether a sector went to another node; `kind` is the purpose of its request. -/
def State.hubPost (s : State) (roots : Word × Word) (host : Bool) (kind : PodKind) : List (Nat × Nat) → List Byte → State × Bool
  | [], _ => (s, false)
  | x :: xs, bs =>
    let t : State × Bool := match s.hubPlace roots host x.1 true with
      | .error _ => (s, false)
      | .ok (p, t) => match t.targetOf p.space p.pa with
        | .pod node off =>
          if t.share.pack.quarantined.contains node then (t, false)
          else (t.podSend ⟨0, 11, node, off, kind, bs.take x.2, t.hub.hubClk, false, false, false, 0⟩, true)
        | _ => (t.homeWrite p.space p.view p.pa (bs.take x.2), false)
    let r := t.1.hubPost roots host kind xs (bs.drop x.2)
    (r.1, t.2 || r.2)

/-! ### Queues: control-block fields (R353) -/

def State.queue (s : State) (q : Nat) : HubQueue := s.hub.queues[q]?.getD HubQueue.reset
def State.modQueue (s : State) (q : Nat) (f : HubQueue → HubQueue) : State :=
  s.modHub fun h => { h with queues := h.queues.setIfInBounds q (f (h.queues[q]?.getD HubQueue.reset)) }

/-- Eight bytes of a control block, by byte offset. -/
def blockWord (b : Vector Word 32) (off : Nat) : Word := b[off / 8]?.getD 0

namespace HubQueue

def stat (q : HubQueue) : Word := blockWord q.active 0
def gen (q : HubQueue) : Nat := field q.stat 0 32
def mode (q : HubQueue) : Nat := field q.stat 32 2
def cfg (q : HubQueue) : Word := blockWord q.active 8
def log2sz (q : HubQueue) : Nat := field q.cfg 0 5
def host (q : HubQueue) : Bool := bit q.cfg 5
def vec (q : HubQueue) : Nat := field q.cfg 16 11
def asid (q : HubQueue) : Nat := field q.cfg 32 16
def mgmt (q : HubQueue) (i : Nat) : Bool := bit q.cfg (48 + i)
def rp (q : HubQueue) : Word32 := bits (blockWord q.active 16) 32 32
def base (q : HubQueue) : Nat := (blockWord q.active 24).toNat
def errAddr (q : HubQueue) : Nat := (blockWord q.active 32).toNat
def evt (q : HubQueue) : Nat := (blockWord q.active 40).toNat
def cprog (q : HubQueue) : Nat := (blockWord q.active 48).toNat
def allows (q : HubQueue) (op : Nat) : Bool := bit (blockWord q.active 64) op

def setMode (q : HubQueue) (m : Nat) : HubQueue := { q with active := q.active.setIfInBounds 0 (setField q.stat 32 2 m) }
def setRp (q : HubQueue) (p : Word32) : HubQueue :=
  { q with active := q.active.setIfInBounds 2 (setField (blockWord q.active 16) 32 32 p.toNat) }

end HubQueue

/-- A range of a control block: base, length, HOST. -/
def rangeOf (b : Vector Word 32) (i : Nat) : Nat × Nat × Bool :=
  let w := blockWord b (104 + 16 * i)
  ((blockWord b (96 + 16 * i)).toNat, field w 0 48, bit w 63)

/-- The range that holds a region whole. -/
def inRange (b : Vector Word 32) (a n : Nat) : Option (Nat × Nat × Bool) :=
  ((List.range 8).map (rangeOf b)).find? fun r => r.2.1 != 0 && r.1 ≤ a && a + n ≤ r.1 + r.2.1

/-- Is a region of a queue in host space? -/
def HubQueue.hostAt (q : HubQueue) (a n : Nat) : Bool := ((inRange q.active a n).map fun r => r.2.2).getD false

/-- A read and a write of the queue's memory. -/
def State.qRead (s : State) (q a n : Nat) : Except HubStop ((List Byte × Bool) × State) :=
  let z := s.queue q
  s.hubRead (hubAgent q) (s.rootsOf z.asid) (z.hostAt a n) a n
def State.qWrite (s : State) (q a : Nat) (bs : List Byte) : Except HubStop State :=
  let z := s.queue q
  s.hubWrite (hubAgent q) (s.rootsOf z.asid) (z.hostAt a bs.length) a bs

/-- A record of the queue written. -/
def State.qPost (s : State) (q : Nat) (kind : PodKind) (a : Nat) (bs : List Byte) : State × Bool :=
  let z := s.queue q
  s.hubPost (s.rootsOf z.asid) (z.hostAt a bs.length) kind (sectorsIn a bs.length) bs

/-! ### Event records and halts (R335, R336) -/

/-- The queue's next event record, and its address. -/
def State.eventBytes (s : State) (q code arg : Nat) : List Byte :=
  leBytes 8 ((s.queue q).events + 1) ++ leBytes 4 code ++ leBytes 4 q ++ leBytes 8 arg ++ leBytes 8 s.hub.hubClk
def HubQueue.eventAt (z : HubQueue) : Nat := z.evt + 32 * ((z.events + 1) % 16)

/-- An interrupt signalled. -/
def State.signal (s : State) (vec : Nat) : State := s.modHub fun h => { h with interrupts := h.interrupts ++ [vec] }

/-- The queue's next event record; then the interrupt of its vector, for a record at another node when its write has been performed
there. -/
def State.addEvent (s : State) (q code : Nat) (arg : Nat) : State :=
  let z := s.queue q
  let t := s.qPost q (.event z.vec) z.eventAt (s.eventBytes q code arg)
  let u := t.1.modQueue q fun y => { y with events := y.events + 1 }
  if t.2 then u else u.signal z.vec

/-- Ring address of a level-0 word. -/
def HubQueue.wordAt (z : HubQueue) (v : Word32) : Nat := z.base + 4 * (v.toNat % 2 ^ z.log2sz)

/-- A queue halts: its error record, its event, STATE 2; RP stays at the level-0 packet. -/
def State.haltQueue (s : State) (q code arg pkt word : Nat) : State :=
  let z := s.queue q
  let bs := leBytes 2 code ++ leBytes 1 ((z.levels.filter fun l => !l.isLoop).length - 1) ++ leBytes 1 0 ++ leBytes 4 arg ++ leBytes 8 pkt ++
    leBytes 8 (z.wordAt z.rp) ++ leBytes 8 word ++ leBytes 8 z.gen ++ leBytes 8 s.hub.hubClk ++ List.replicate 16 0
  let t := (s.qPost q .write z.errAddr bs).1.hubDone (hubAgent q)
  (t.addEvent q 2 z.errAddr).modQueue q fun z =>
    { z.setMode 2 with cause := code, held := none, wait := none, run := none, taken := [] }

/-! ### Ready bits (R428 to R430) -/

def State.dieReady (s : State) (d : Nat) : Bool := bit s.hub.fw.rdy (1 + d)
def State.stackReady (s : State) (i : Nat) : Bool := bit s.hub.fw.rdy (9 + i)
def State.qpReady (s : State) (q : Nat) : Bool := bit s.hub.fw.rdy (25 + q / 16)
/-- Is any UALink station ready? -/
def State.stationReady (s : State) : Bool := field s.hub.fw.rdy 17 8 != 0
def State.recovery (s : State) : Bool := bit s.hub.fw.rdy 63

/-! ### Slots (R344 to R347) -/

def State.modSlot (s : State) (n : Nat) (f : ModelSlot → ModelSlot) : State :=
  s.modHub fun h => { h with slots := h.slots.setIfInBounds n (f (h.slots[n]?.getD ModelSlot.reset)) }

/-! ### The end of an invocation (R348, R349) -/

def State.modInvocation (s : State) (id : Nat) (f : Invocation → Invocation) : State :=
  s.modHub fun h => { h with invocations := h.invocations.map fun v => if v.id = id then f v else v }

/-- Cores that run a strand of an invocation. -/
def State.coresOf (s : State) (inv : Nat) : List Nat :=
  (s.cores.filter fun c => c.running.any fun r => r.record.inv == inv).map (·.id)

/-- The invocation is over: its slot's count falls and its record is free. -/
def State.closeInvocation (s : State) (v : Invocation) : State :=
  (s.modSlot v.slot fun x => { x with infl := x.infl - 1 }).modHub fun h =>
    { h with invocations := h.invocations.filter fun w => w.id != v.id, launches := h.launches.filter fun l => l.inv != v.id }

/-- An invocation fails: its strands end without their release, its records are dropped, the fault record and the event are
written. -/
def State.failInvocation (s : State) (v : Invocation) (r : FaultRecord) : State :=
  let t := (s.dropCores (s.coresOf v.id)).dropRecords v.id
  ((t.addRecord r).addEvent v.queue 5 v.header).closeInvocation v

end Sys2Proof.Machine
end

