-- ==== Sys2Proof/Machine/Launch.lean ====
section
/-!
DEFINITION. Kernel descriptors, loop tables, the refusals of a launch, its frame, and its leaves
(R277, R364 to R369, R441).
-/
namespace Sys2Proof.Machine

/-! ### The kernel descriptor (R364) -/

/-- Number of n bytes at an offset of a kernel image. -/
def kfield (k : List Byte) (o n : Nat) : Nat := leNat ((k.drop o).take n)

namespace Kernel

def ver (k : List Byte) : Nat := kfield k 0 4
def ra (k : List Byte) : Nat := kfield k 4 1 % 4
def re (k : List Byte) : Nat := kfield k 4 1 / 4 % 4
def gsz (k : List Byte) : Nat := kfield k 5 1 % 16
def priv (k : List Byte) : Bool := kfield k 6 1 % 2 == 1
def repl (k : List Byte) : Bool := kfield k 6 1 / 2 % 2 == 1
def gang (k : List Byte) : Bool := kfield k 6 1 / 4 % 2 == 1
def banks (k : List Byte) : BitVec 8 := BitVec.ofNat 8 (kfield k 7 1)
def data (k : List Byte) : Nat := kfield k 8 8
def textLen (k : List Byte) : Nat := kfield k 16 8
def entry (k : List Byte) : Nat := kfield k 24 8
def joinPc (k : List Byte) : Nat := kfield k 32 8
def strm (k : List Byte) : Nat := kfield k 40 8
def smask (k : List Byte) : Nat := kfield k 48 2
def rset (k : List Byte) : Nat := kfield k 50 2
def wait (k : List Byte) (i : Nat) : Nat := kfield k (52 + 4 * i) 4
def loop (k : List Byte) (l : Nat) : Nat := kfield k (112 + 8 * l) 8
def rgn (k : List Byte) (i : Nat) : Nat := kfield k (160 + 4 * i) 4
def handler (k : List Byte) : Nat := kfield k 224 8

/-- Does an offset of a word lie in the text, or is it 0? -/
def at_ (k : List Byte) (o : Nat) : Bool := o % 4 == 0 && o < textLen k

/-- The initialisers of streams, in ascending number. -/
def streamsNamed (k : List Byte) : List Nat := (List.range 16).filter fun i => smask k / 2 ^ i % 2 == 1

/-- The fields that code 1 of R365 names. -/
def wellFormed (k : List Byte) : Bool :=
  ver k == 1 && 0x104 ≤ textLen k && textLen k ≤ 0x1000000 && kfield k 232 24 == 0 && kfield k 4 1 < 16 && kfield k 5 1 < 16 &&
  kfield k 6 1 < 8 && (gang k || kfield k 5 1 == 0) && at_ k (entry k) && at_ k (joinPc k) && at_ k (handler k) &&
  (if smask k = 0 then strm k == 0 else strm k + 32 * (streamsNamed k).length ≤ textLen k) && data k < textLen k &&
  (List.range 16).all fun i => rgn k i / 2 ^ 24 == 0 && (rset k / 2 ^ i % 2 == 1 || rgn k i == 0)

end Kernel

/-- Entries of the Chamber image list: offset, length, source; the fuel bounds their number (R441). -/
def chamberList (k : List Byte) : Nat → Nat → List (Nat × Nat × Nat)
  | 0, _ => []
  | n + 1, o =>
    let e := (kfield k o 4, kfield k (o + 4) 4, kfield k (o + 8) 8)
    if e = (0, 0, 0) then [] else e :: chamberList k n (o + 16)

def Kernel.chamber (k : List Byte) : List (Nat × Nat × Nat) :=
  if Kernel.data k = 0 then [] else chamberList k (Kernel.textLen k / 16) (Kernel.data k)

/-- Does every entry of the list lie in BANKS and in the image (R441)? -/
def Kernel.chamberOk (k : List Byte) : Bool :=
  (Kernel.chamber k).all fun e =>
    1 ≤ e.2.1 && e.1 + e.2.1 ≤ 2 ^ 23 && e.2.2 + e.2.1 ≤ Kernel.textLen k &&
    (List.range 8).all fun b => !(e.1 / 2 ^ 20 ≤ b && b ≤ (e.1 + e.2.1 - 1) / 2 ^ 20) || bit (Kernel.banks k) b

/-! ### Loop tables (R366, R367) -/

/-- A loop level: kind and extent. -/
structure Level6 where
  kind : Nat
  ext : Nat
deriving DecidableEq, Repr

/-- The word of the parameter block that a loop entry names. -/
def State.extentRead (s : State) (roots : Word × Word) (rl : List Word) (e : Nat) : Except HubStop ((List Byte × Bool) × State) :=
  let va := ((rl[e / 2 ^ 35 % 16]?.getD 0) + BitVec.ofNat 64 (8 * (e / 2 ^ 39 % 512))).toNat
  s.hubRead launchAgent roots false va 8

/-- Is a loop entry's extent in the parameter block? -/
def extentFar (e : Nat) : Bool := e / 2 ^ 34 % 2 == 1

/-- The extent of a loop entry: its own, or the low half of a word of the parameter block. -/
def State.extent (s : State) (roots : Word × Word) (rl : List Word) (e : Nat) : Option Nat :=
  if !extentFar e then some (e % 2 ^ 32)
  else match s.extentRead roots rl e with
    | .ok ((bs, false), _) => some (leNat bs % 2 ^ 32)
    | _ => none

/-- The request that the extent of a loop entry waits for: its word lies in another node's window. -/
def State.extentAsk (s : State) (roots : Word × Word) (rl : List Word) (e : Nat) : Option PodReq :=
  if !extentFar e then none
  else match s.extentRead roots rl e with
    | .error (.ask r) => some r
    | _ => none

/-- What the reads of the extents of a table leave: A bits and read counts (R109, R403). -/
def State.readExtents (s : State) (roots : Word × Word) (rl : List Word) (es : List Nat) : State :=
  (es.filter extentFar).foldl (fun t e => match t.extentRead roots rl e with
    | .ok (_, u) => u
    | .error _ => t) s

/-- The used levels of a table; none where it breaks R366. -/
def State.levels (s : State) (roots : Word × Word) (rl : List Word) (k : List Byte) : Option (List Level6) :=
  let es := (List.range 6).map (Kernel.loop k)
  let used := es.takeWhile fun e => e / 2 ^ 32 % 4 != 0
  let ls := used.map fun e => (s.extent roots rl e).map fun x => (⟨e / 2 ^ 32 % 4, x⟩ : Level6)
  if (es.drop used.length).all (· == 0) && used.all (fun e => e / 2 ^ 48 == 0) && ls.all Option.isSome then some (ls.filterMap id) else none

def spatial (l : Level6) : Bool := 2 ≤ l.kind
def width (l : Level6) : Nat := ceilLog2 l.ext

/-- The number of leaves. -/
def leaves (ls : List Level6) : Nat := ((ls.filter spatial).map (·.ext)).foldl (· * ·) 1

/-- Extents and levels keep R366. -/
def levelsOk (ls : List Level6) : Bool :=
  ls.all (fun l => l.ext != 0 && (l.kind != 3 || l.ext ≤ 8)) &&
  ((List.range ls.length).all fun i => (ls[i]?.map (·.kind)) != some 3 || !((ls.take i).any fun l => l.kind == 2)) &&
  ((ls.filter spatial).map width).sum ≤ 64 && leaves ls ≤ 2 ^ 32 - 1

/-- Indices of the spatial levels of leaf n, the innermost the fastest; levels from the innermost outward. -/
def leafIndices : List Level6 → Nat → List Nat
  | [], _ => []
  | l :: ls, n => if spatial l then (n % l.ext) :: leafIndices ls (n / l.ext) else leafIndices ls n

/-- `lpidx` of a leaf: indices packed in level order. -/
def packIdx : List (Level6 × Nat) → Nat
  | [] => 0
  | x :: xs => x.2 + 2 ^ width x.1 * packIdx xs

/-- The die index of a leaf: its indices of the levels over dies, the innermost the fastest. -/
def dieIndex (xs : List (Level6 × Nat)) : Nat := (xs.filter fun x => x.1.kind == 3).foldl (fun j x => j * x.1.ext + x.2) 0

def leafOf (ls : List Level6) (n : Nat) : List (Level6 × Nat) :=
  (ls.filter spatial).zip (leafIndices ls.reverse n).reverse

/-! ### Refusals (R277, R365) -/

/-- Does a declared region fit what is installed? -/
def State.regionFits (s : State) (k : List Byte) (i : Nat) : Bool :=
  Kernel.rset k / 2 ^ i % 2 == 0 ||
  (match s.region i with
   | some g =>
     let e := Kernel.rgn k i
     g.type == e / 2 ^ 20 % 16 && g.cells == (if g.type = 5 then 8 * (e % 2 ^ 20) else e % 2 ^ 20)
   | none => false)

/-- Cores of a mask in a cluster of a die. -/
def maskCores (m : BitVec 192) (cluster : Nat) : List Nat := (List.range 16).filter fun k => bit m (16 * cluster + k)

/-- The code of R365, none where the launch stands: the image, its levels, the queues it names. -/
def State.launchCode (s : State) (k : List Byte) (ls : Option (List Level6)) (die tq : Nat) : Option Nat :=
  if !Kernel.wellFormed k || !Kernel.chamberOk k then some 1
  else if Kernel.re k = 3 then some 2
  else if !(List.range 16).all (s.regionFits k) then some 3
  else match ls with
    | none => some 4
    | some l =>
      if !levelsOk l then some 4
      else
        let short (c : Nat) : Bool := (maskCores (s.tqOf die tq).mask c).length < Kernel.gsz k + 1
        let wide := l.any fun x => x.kind == 3 && x.ext > 1
        if Kernel.gang k && (wide || (List.range 12).all short) then some 5 else none

/-! ### Launching (R331, R367, R368) -/

/-- Sectors of a kernel's text, one by one: one that cannot be read, or is poisoned, stands as zeros with its number, and a fetch or
an `ldp` of it traps (R365, R401, assumption 80). -/
def State.textParts (s : State) (roots : Word × Word) : List (Nat × Nat) → Except PodReq ((List Byte × List Nat) × State)
  | [] => .ok (([], []), s)
  | x :: xs =>
    let one : Except PodReq ((List Byte × List Nat) × State) := match s.hubRead launchAgent roots false x.1 x.2 with
      | .error (.ask r) => .error r
      | .ok ((bs, false), t) => .ok ((bs, []), t)
      | .ok ((_, true), t) => .ok ((List.replicate x.2 0, [x.1 / 32]), t)
      | .error _ => .ok ((List.replicate x.2 0, [x.1 / 32]), s)
    match one with
    | .error r => .error r
    | .ok (h, t) => match t.textParts roots xs with
      | .error r => .error r
      | .ok (r, u) => .ok ((h.1 ++ r.1, h.2 ++ r.2), u)

/-- The kernel image at a descriptor's address: 256 bytes, then what TEXTLEN asks for; none where the descriptor cannot be read. -/
def State.kernelAt (s : State) (roots : Word × Word) (desc : Nat) : Except PodReq (Option (List Byte × List Nat) × State) :=
  match s.hubRead launchAgent roots false desc 256 with
  | .error (.ask r) => .error r
  | .ok ((d, false), t) =>
    if Kernel.textLen d < 0x104 || 0x1000000 < Kernel.textLen d then .ok (some (d, []), t)
    else match t.textParts roots (sectorsIn (desc + 256) (Kernel.textLen d - 256)) with
      | .error r => .error r
      | .ok (r, u) => .ok (some (d ++ r.1, r.2), u)
  | _ => .ok (none, s)

/-- The request to another node that a launch waits for. -/
def State.launchAsk (s : State) (roots : Word × Word) (desc : Nat) (rl : List Word) : Option PodReq :=
  match s.kernelAt roots desc with
  | .error r => some r
  | .ok (some k, _) => ((List.range 6).map (Kernel.loop k.1)).findSome? (s.extentAsk roots rl)
  | .ok (none, _) => none

/-- The first place from the n-th on that is not taken. -/
def firstFree (taken : List Nat) (place : Nat → Nat) (n : Nat) : Nat :=
  (((List.range (taken.length + 1)).map fun k => place (n + k)).find? fun p => !taken.contains p).getD (place n)

/-- Save images that stand: those of saved records and those that a core still holds data for. -/
def State.images (s : State) : List Nat :=
  (s.cores.flatMap fun c => c.held.map (·.frame)) ++
  s.share.dies.toList.flatMap fun d =>
    (d.tq.toList.flatMap fun q => q.records.flatMap fun r => r.kept.map (·.frame)) ++
    d.gangs.flatMap fun g => g.record.kept.map (·.frame)

/-- A place for a launch frame in a die's stack where no other launch has its frame, and one for a save image where no other
image stands (assumption 14). -/
def State.framePlace (s : State) (die : Nat) : Nat :=
  firstFree (s.hub.launches.map (·.frame)) (fun n => stackAt die (256 * (n % 2 ^ 26 + 1))) (Config.freePlace s.fresh)
def State.imagePlace (s : State) (die : Nat) : Nat :=
  firstFree s.images (fun n => stackAt die (2 ^ 35 + 2 ^ 24 * (n % 2 ^ 10))) (Config.freePlace s.fresh)

/-- The bytes of a launch frame. -/
def frameBytes (rl : List Word) (desc count header : Nat) : List Byte :=
  padTo 256 (words8 (((List.range 16).map fun i => (rl[i]?.getD 0).toNat) ++ [desc, count, header]))

/-- A launch that stands: its frame is written with the number of leaves, and the leaves wait to be enqueued. -/
def State.putLaunch (s : State) (inv header : Nat) (desc die tq : Nat) (roots : Word × Word) (rl : List Word) (k : List Byte)
    (bad : List Nat) (ls : List Level6) : State :=
  let frame := s.framePlace die
  let l : Launch := ⟨inv, desc, die, tq, frame, leaves ls, 0, ls.map (·.ext), ls.map (·.kind), roots.1, roots.2, k, bad⟩
  ((s.homeWrite .dev false frame (frameBytes rl desc (leaves ls) header)).modHub fun h => { h with launches := h.launches ++ [l] }) |>
    fun t => { t with fresh := t.fresh + 1 }

/-- A launch: the state with it, or the code that refuses it. -/
def State.launch (s : State) (inv header desc die tq : Nat) (roots : Word × Word) (rl : List Word) : Except Nat State :=
  match s.kernelAt roots desc with
  | .ok (some k, t) =>
    let ls := t.levels roots rl k.1
    match t.launchCode k.1 ls die tq with
    | some c => .error c
    | none => .ok ((t.readExtents roots rl ((List.range 6).map (Kernel.loop k.1))).putLaunch inv header desc die tq roots rl k.1 k.2 (ls.getD []))
  | _ => .error 1

/-! ### Leaves (R367, R370) -/

def Launch.levels (l : Launch) : List Level6 := (l.kinds.zip l.exts).map fun x => ⟨x.1, x.2⟩

/-- Room for one record more. -/
def TaskQueue.room (q : TaskQueue) : Bool := q.enabled && q.records.length < 64 + q.splen / 32

/-- A record enqueued; the first to stand at the head is there from now. -/
def TaskQueue.push (q : TaskQueue) (r : Record) (now : Nat) : TaskQueue := q.withRecords (q.records ++ [{ r with slot := none }]) now
def TaskQueue.pushHead (q : TaskQueue) (r : Record) (now : Nat) : TaskQueue :=
  { q with records := { r with slot := none } :: q.records, headSince := now }

/-- The cores of a strand that had started, in the order of members (R377). -/
def rerunOn (ran : List Ran) (join : Bool) (idx : Word) : List Nat :=
  (List.range 16).filterMap fun m => (ran.find? fun x => x.join == join && x.idx == idx && x.member == m).map (·.core)

/-- Leaf n of a launch. -/
def Launch.leaf (l : Launch) (n : Nat) (ran : List Ran) : Record :=
  let idx : Word := BitVec.ofNat 64 (packIdx (leafOf l.levels n))
  { code := BitVec.ofNat 64 (l.desc + Kernel.entry l.kernel), frame := BitVec.ofNat 64 l.frame, join := BitVec.ofNat 64 (l.frame + 136),
    idx := idx, inv := l.inv, halted := 0, rset := BitVec.ofNat 16 (Kernel.rset l.kernel), kept := [], launch := l.frame,
    rerun := rerunOn ran false idx, slot := none }

/-- The die of leaf n. -/
def Launch.leafDie (l : Launch) (n : Nat) : Nat := (l.die + dieIndex (leafOf l.levels n)) % 8

/-- The strands of an invocation that had started. -/
def State.ranOf (s : State) (inv : Nat) : List Ran := ((s.hub.invocations.find? fun v => v.id == inv).map (·.ran)).getD []

/-- The next leaf of the first launch that has one, or of that in input a, is enqueued when its queue has room. -/
def execLaunchExpand (s : State) : Answer :=
  match (s.hub.launches.filter fun l => l.next < l.total)[s.input.a]? with
  | none => .next s
  | some l =>
    let die := l.leafDie l.next
    if !(s.tqOf die l.tq).room then .next s
    else
      let t := s.modTq die l.tq fun q => q.push (l.leaf l.next (s.ranOf l.inv)) s.clk
      .next (t.modHub fun h => { h with launches := h.launches.map fun x => if x.frame = l.frame then { x with next := x.next + 1 } else x })

/-! ### The end of a strand's record (R369) -/

/-- A launch has completed: with it ends its invocation. -/
def State.endLaunch (s : State) (l : Launch) : State :=
  let t := s.modHub fun h => { h with launches := h.launches.filter fun x => x.frame != l.frame }
  match t.hub.invocations.find? fun v => v.id == l.inv with
  | some v => t.closeInvocation v
  | none => t

/-- A record whose strand has halted and released: the join counter falls; at 0 the join strand is enqueued, or the launch
ends. -/
def State.endRecord (s : State) (r : Record) (tq die : Nat) : State :=
  match s.hub.launches.find? fun l => l.frame == r.launch with
  | none => s
  | some l =>
    if r.join = 0 then s.endLaunch l
    else
      let n := s.mem.phys8 r.join.toNat - 1
      let t := s.homeWrite .dev false r.join.toNat (leBytes 8 n.toNat)
      if n ≠ 0 then t
      else if Kernel.joinPc l.kernel = 0 then t.endLaunch l
      else t.modTq die tq fun q => q.push { r with
        code := BitVec.ofNat 64 (l.desc + Kernel.joinPc l.kernel), frame := BitVec.ofNat 64 l.frame, join := 0, idx := 0, halted := 0,
        kept := [], rerun := rerunOn (s.ranOf r.inv) true 0 } s.clk

end Sys2Proof.Machine
end

