-- ==== Sys2Proof/Machine/Saves.lean ====
section
/-!
DEFINITION. Saving a strand, what a saved record holds in place, and restoring it
(R19, R27, R40, R192, R224, R225, R253, R271, R295, R323, R375, R376, R378 to R381, R384, R417).
-/
namespace Sys2Proof.Machine

/-! ### Copying whole ranges -/

/-- Cells of n bytes at a laid at b; what lay there goes. -/
def Cells.place (src : List Host.Cell) (a n : Nat) (dst : List Host.Cell) (b : Nat) : List Host.Cell :=
  (dst.filter fun c => c.1 < b) ++ ((src.filter fun c => a ≤ c.1 && c.1 < a + n).map fun c => (b + (c.1 - a), c.2)) ++
    dst.filter fun c => b + n ≤ c.1

/-- Marks of n bytes at a, with units of z bytes, laid at b with units of w bytes. -/
def placeMarks (z : Nat) (src : List Nat) (a n w : Nat) (dst : List Nat) (b : Nat) : List Nat :=
  let kept := dst.filter fun i => !(b ≤ w * i && w * i < b + n)
  let new := (src.filter fun i => a ≤ z * i && z * i < a + n).flatMap fun i =>
    (List.range (max 1 (z / w))).map fun k => (b + (z * i - a)) / w + k
  new.foldl insertNat kept

/-- A range of one memory copied over a range of another, marks included. -/
def State.copyRange (s : State) (sp : Space) (a n : Nat) (out : Space) (b : Nat) : State :=
  let x := s.mem.bank sp false
  let y := s.mem.bank out false
  let z : Bank := ⟨Cells.place x.cells a n y.cells b, placeMarks (unitOf sp) x.poison a n (unitOf out) y.poison b⟩
  let m := (s.hostGivesUp out b n).mem.setBank out false z
  let m1 := if out == .dev then { m with later := m.later.filter fun i => !(b ≤ 32 * i && 32 * i < b + n) } else m
  ({ s with mem := m1 }).mapCores fun c => c.wake out b n

/-! ### Places in an image (R379) -/

def imageLive (s : State) (frame : Nat) : List Nat := (List.range 48).filter fun i => bit (s.mem.phys8 (frame + 24)) i
def imageBanks (s : State) (frame : Nat) : List Nat := (List.range 8).filter fun i => bit (s.mem.phys8 (frame + 8)) (24 + i)
def bankPlace (s : State) (frame b : Nat) : Nat :=
  frame + 0x18000 + 16384 * (imageLive s frame).length + 2 ^ 20 * ((imageBanks s frame).filter (· < b)).length
def lanesPlace (s : State) (frame : Nat) : Nat := bankPlace s frame 8

/-! ### What a saved record holds in place (R225, R378) -/

/-- Does a pin entry that is not FREE cover a byte of a bank? -/
def Pin.covers (p : Pin) (b : Nat) : Bool := p.state != 0 && p.off / 2 ^ 20 ≤ b && b * 2 ^ 20 < p.off + p.size

/-- The bytes of a tile. -/
def Tile.bytes (t : Tile) : List Byte := padTo 16384 (t.data.flatMap fun x => leBytes 4 x.toNat)

/-- Live tiles written in ascending number, poisoned ones with every sector poisoned (R417). -/
def State.writeTiles (s : State) (at_ : Nat) : List Tile → State
  | [] => s
  | t :: ts =>
    let u := s.homeWrite .dev false at_ t.bytes
    let v := if t.poisoned then (List.range 512).foldl (fun x i => x.setPoison .dev false (at_ / 32 + i) true) u else u
    v.writeTiles (at_ + 16384) ts

/-- Tiles, banks and lane slices that a record holds on a core go to its image, but for banks that an entry covers; FLG[4]
is set once none is left. -/
def State.writeHeld (s : State) (core : Nat) (h : Held) : State :=
  let stays (b : Nat) : Bool := (s.coreAt core).oldPins.any fun o => o.frame == h.frame && o.pin.covers b
  let go := (List.range 8).filter fun b => bit h.banks b && !stays b
  let s1 := if h.lanes then
      (s.writeTiles (h.frame + 0x18000) (h.tiles.toList.filter (·.live))).copyRange .lane (laneAt core 0 0) 262144 .dev (lanesPlace s h.frame)
    else s
  let s2 := go.foldl (fun t b => t.copyRange .cham (chamAt core (b * 2 ^ 20)) (2 ^ 20) .dev (bankPlace s h.frame b)) s1
  let left := go.foldl (fun (m : BitVec 8) b => m &&& ~~~(1#8 <<< b)) h.banks
  let s3 := if left = 0 then s2.homeWrite .dev false (h.frame + 10) (leBytes 1 ((s2.mem.phys8 (h.frame + 8)).toNat / 2 ^ 16 % 256 ||| 16)) else s2
  let c := s3.coreAt core
  let rest := if left = 0 then c.held.filter fun x => x.frame != h.frame
    else c.held.map fun x => if x.frame = h.frame then { x with tiles := .replicate 48 Tile.dead, banks := left, lanes := false } else x
  s3.setCore { c with held := rest }

/-- Everything that a core holds for records other than those of these images is written out. -/
def State.writeHeldBut (s : State) (frames : List Nat) (core : Nat) : State :=
  ((s.coreAt core).held.filter fun h => !frames.contains h.frame).foldl (fun t h => t.writeHeld core h) s

/-- What the cores of a quad hold for other records is written out before one of them, and with it their array, starts another (R378). -/
def State.clearQuad (s : State) (frames : List Nat) : State :=
  (List.range 4).foldl (fun t k => t.writeHeldBut frames (s.core.id / 4 * 4 + k)) s

/-- What record a of those that the core holds data for has in place is written out. -/
def execSavedBankWrite (s : State) : Answer :=
  match s.core.held[s.input.a]? with
  | some h => .next (s.writeHeld s.core.id h)
  | none => .next s

/-! ### Saving (R378) -/

/-- May the strand of the core be saved now: it must be and it stands between instructions, with every queue entry filled,
every request answered and the engines quiesced? -/
def State.saveReady (s : State) : Bool :=
  let c := s.core
  let t := c.strand
  c.mode == .running && !c.frozen && !c.halted && !c.gated && t.ap.bind == .none && t.ep.bind == .none &&
  (c.saveDue || (t.ap.ending == some .yield && t.ep.seq == t.ap.seq)) &&
  (t.queues.q.toList.all fun q => q.all fun e => e.data.isSome) &&
  !(s.share.pod.any fun r => r.core == c.id && r.agent ≤ 8) &&
  (List.range 6).all fun n => (s.engine n).quiet n

/-- Has a chain read every column of its last row?  It takes no element any more. -/
def State.chainRead (s : State) : Bool :=
  s.ep.chain.any fun c => (s.strand.image.chain c.cpc).any fun ch =>
    let geo := s.geometry ch.stages
    geo.count ≤ c.row * geo.row + c.ahead.length

/-- Broadcast elements that an unretired instruction has popped go back to the heads of their queues, and do not count in POIS
until they are taken again; those of a chain that takes no element any more have been used (R13, R147). -/
def State.unlatch (s : State) : State :=
  let back (t : State) (l : Latch) : State := match l.entry with
    | some e => (t.modQueues fun z =>
        let q := (t.stream l.stream).epVersion.space - 8
        { z with q := z.q.setIfInBounds q (e :: z.q[q]?.getD []) }).modStream l.stream fun y => { y with pois := l.pois }
    | none => t
  (if s.chainRead then s else s.ep.latched.reverse.foldl back s).modEp fun e => { e with latched := [] }

/-- Ring 5 at an entry that waits for its counter counts as not started: its unit goes back. -/
def State.unstart (s : State) : State :=
  let e := s.engine 5
  if e.phase != .handed || e.stopped then s
  else
    let g := ((s.cmdSync 5).map syWait).getD 63
    let t := if g = 63 then s else s.setSema g (s.sema g + 1)
    t.modEngine 5 fun x => { x with phase := .start }

/-- The open segment takes the lease's count with it (R271). -/
def State.parkSegment (s : State) : State :=
  let n := s.array.cmds
  let own := s.holdsArray
  s.modEngine 0 fun e => { e with seg := e.seg.map fun g => { g with resumed := true, cmds := if own then n else g.cmds } }

/-- Does anything bind the strand to its core (R225, R295)? -/
def Core.binds (c : Core) : Bool :=
  c.regs.wcnt.toList.any (· != 0) || c.strand.pins.toList.any fun p => p.state != 0

/-- The image's header and its sections written. -/
def State.writeImage (s : State) (frame : Nat) (r : Record) : State :=
  let c := s.core
  let t := c.strand
  let flags := imageFlags c.saveDue t.ep.chain.isSome (s.engine 0).seg.isSome c.binds false (t.ep.chain.isNone && t.ep.xr.kind != 0)
  let head := t.header r (s.podName c.id) flags
  (t.sections c.engines).foldl (fun u x => u.homeWrite .dev false (frame + x.1) x.2) (s.homeWrite .dev false frame head)

/-- ONE STRAND SAVED at a frame: the state with the core idle, and what is kept beside the image. -/
def State.saveOne (s : State) (frame : Nat) : State × List Kept :=
  match s.core.running with
  | none => (s, [])
  | some r =>
    let s1 := s.unlatch.unstart.parkSegment.releaseAll
    let s2 := s1.writeImage frame r.record
    let c := s2.core
    let t := c.strand
    let held : Held := ⟨frame, t.tiles, t.info.banks, true, c.binds⟩
    let t1 := { t with pins := t.pins.map Pin.emptied }
    let c1 := { c with held := held :: c.held, oldPins := c.oldPins ++ livePins frame t.pins.toList, strand := t1 }
    let s3 := (s2.setCore c1).dropStrand c.id
    (s3.modShare fun h => { h with replies := h.replies.filter fun x => x.core != c.id }, [⟨frame, c.id, r.member, c.binds, t, c.engines, s2.slotsOf c⟩])

/-- The cores that run the members of the core's gang, in the order of members; the core alone outside a gang. -/
def State.gangCores (s : State) : List Nat :=
  let g := s.cores.filter fun d => d.id == s.core.id || sameGang s.core d
  (List.range 16).flatMap fun m => (g.filter fun d => d.running.any fun r => r.member == m).map (·.id)

/-- Every member saved, one after another. -/
def State.saveMembers (s : State) : List Nat → State × List Kept
  | [] => (s, [])
  | k :: ks =>
    let t := s.focus k
    let x := t.saveOne (t.imagePlace (dieOf k))
    let y := State.saveMembers { x.1 with fresh := x.1.fresh + 1 } ks
    (y.1, x.2 ++ y.2)

/-- The saved record (R368). -/
def Record.saved (r : Record) (ks : List Kept) : Record :=
  match ks with
  | [] => r
  | k :: _ =>
    { r with code := r.code ||| 1, frame := BitVec.ofNat 64 k.frame, kept := ks,
             idx := BitVec.ofNat 64 (k.core + if ks.any (·.bound) then 2 ^ 11 else 0) }

/-- The strand, with every member of its gang, is saved once each is ready; its record goes to the head of its queue. -/
def execStrandSave (s : State) : Answer :=
  let id := s.core.id
  match s.core.running with
  | none => .next s
  | some r =>
    let ids := s.gangCores
    let t := (ids.foldl (fun t k => (t.focus k).drainAll) s).focus id
    if !(ids.all fun k => (s.focus k).saveReady) then .next s
    else if !(ids.all fun k => (t.focus k).storesDone) then .next t
    else
      let x := t.saveMembers ids
      .next ((x.1.modTq (dieOf id) r.tq fun q => q.pushHead (r.record.saved x.2) s.clk).focus id)

/-! ### Restoring (R380) -/

/-- The bytes of an image at a frame. -/
def State.imageReader (s : State) (frame : Nat) : Reader := fun o n => (s.homeBytes .dev false (frame + o) n).1

/-- Tiles of an image: a poisoned sector marks its tile (R417). -/
def State.imageTiles (s : State) (frame : Nat) : Vector Tile 48 :=
  let live := imageLive s frame
  Vector.ofFn fun i => match live.findIdx? (· == i.val) with
    | some j =>
      let h := s.homeBytes .dev false (frame + 0x18000 + 16384 * j) 16384
      ⟨true, h.2, (elements 4 4096 h.1).map (BitVec.ofNat 32)⟩
    | none => Tile.dead

/-- Banks and lane slices that do not lie in place are copied from the image. -/
def State.fillBanks (s : State) (frame : Nat) (inPlace : BitVec 8) (lanes : Bool) : State :=
  let id := s.core.id
  let go := (imageBanks s frame).filter fun b => !bit inPlace b
  let t := go.foldl (fun t b => t.copyRange .dev (bankPlace s frame b) (2 ^ 20) .cham (chamAt id (b * 2 ^ 20))) s
  if lanes then t else t.copyRange .dev (lanesPlace s frame) 262144 .lane (laneAt id 0 0)

/-- Pin entries from the live state of the port engine (R225); those that are FREE go on from the core's generations. -/
def Core.restoredPins (c : Core) (frame : Nat) (kept : Vector Pin 16) : Vector Pin 16 :=
  Vector.ofFn fun i => match c.oldPins.find? fun o => o.frame == frame && o.ix == i.val with
    | some o => o.pin
    | none => { kept[i.val]?.getD Pin.free with state := 0, gen := (c.strand.pins[i.val]?.getD Pin.free).gen }

/-- An engine as restored; a stopped one stays stopped (R384). -/
def restoredEngine (k e : Engine) : Engine :=
  if k.stopped then { e with stopped := true, phase := k.phase, resumeAt := k.resumeAt, overflow := k.overflow, fails := k.fails } else e

/-- A strand as restored; entries that expired while it was out have their traps raised (R222, R225). -/
def restoredStrand (k : Kept) (rd : Reader) (pins : Vector Pin 16) (tiles : Vector Tile 48) : Strand :=
  let t := (k.strand.ofImage rd).withChain rd
  let late := (List.range 16).filter fun i => (pins[i]?.getD Pin.free).state == 2 && (k.strand.pins[i]?.getD Pin.free).state != 2
  { t with
    pins := pins, tiles := tiles, pend := t.pend ++ late.map fun i => { mkTrap .b 0x2A i with src := 3 },
    shadow := Strand.reset.shadow,
    ap := { t.ap with block := none, bind := .none, monitor := t.ap.monitor.map (Monitor.woken 3),
                      ending := if t.ap.ending = some .halt then some .halt else none, issued := false, arrived := false,
                      offer := none, offered := false, fence := none },
    ep := { t.ep with block := none, bind := .none, leaves := [] } }

/-- The strand of a member restored on the core: the record as taken stands in its image. -/
def State.restoreOne (s : State) (r : Record) (tq : Nat) (k : Kept) : State :=
  let id := s.core.id
  let s1 := s.clearQuad (r.kept.map (·.frame))
  let s2 := if k.core = id then s1
    else match ((s1.coreAt k.core).held.find? fun h => h.frame == k.frame) with
      | some h => s1.writeHeld k.core h
      | none => s1
  let s3 := s2.cleanCore
  let rd := s3.imageReader k.frame
  let held := s3.core.held.find? fun h => h.frame == k.frame
  let lanes := (held.map (·.lanes)).getD false
  let tiles := match held with
    | some h => if h.lanes then h.tiles else s3.imageTiles k.frame
    | none => s3.imageTiles k.frame
  let s4 := s3.fillBanks k.frame ((held.map (·.banks)).getD 0) lanes
  let es := enginesOf rd
  let engines := Vector.ofFn fun (i : Fin 6) => restoredEngine k.engines[i] es[i]
  let rec_ : Record := { r with code := rd.word 48, frame := rd.word 56, join := rd.word 64, idx := rd.word 72, kept := [] }
  let c := s4.core
  let c1 := { c with
    mode := .running, strand := restoredStrand k rd (c.restoredPins k.frame k.strand.pins) tiles,
    running := some ⟨rec_, tq, s.clk, k.member, k.strand.info.desc⟩,
    held := c.held.filter fun h => h.frame != k.frame, oldPins := c.oldPins.filter fun o => o.frame != k.frame,
    engines := engines, trap := none, frozen := false, saveDue := false,
    regs := { c.regs with yreq := 0, ydead := setField c.regs.ydead 32 32 (field c.regs.ydead 0 32) } }
  let s5 := (s4.setCore c1).unaskOf id
  if (engines[0].seg).isSome then s5.requestArray else s5

/-- Why a record may not be restored: the first member whose image is refused, on the core it would run on. -/
def State.whyRefused (s : State) (r : Record) (place : Kept → Nat) : Option (Kept × Nat) :=
  r.kept.findSome? fun k => (k.refused (s.podName (place k)) (s.imageReader k.frame)).map fun c => (k, c)

/-- A refused restore: its fault record, its pin entries force-released, the record dropped, the invocation failed. -/
def State.refuseRestore (s : State) (r : Record) (k : Kept) (code core : Nat) : State :=
  let v := s.hub.invocations.find? fun v => v.id == r.inv
  let rec_ : FaultRecord := ⟨code, s.podName core, 0xFF, 0, 0, 0, (v.map (·.header)).getD 0, 0, s.hub.hubClk⟩
  let frames := k.frame :: r.kept.map (·.frame)
  let t := s.mapCores fun c => { c with
    held := c.held.filter fun h => !frames.contains h.frame,
    oldPins := c.oldPins.map fun o => if frames.contains o.frame then { o with frame := 0, pin := o.pin.forceRelease } else o }
  match v with
  | some v => t.failInvocation v rec_
  | none => t.addRecord rec_

/-- A core runs a strand of an invocation: the record remembers which (R377). -/
def State.noteRun (s : State) (inv : Nat) (x : Ran) : State :=
  s.modInvocation inv fun v => { v with ran := x :: v.ran.filter fun y => !(y.idx == x.idx && y.join == x.join && y.member == x.member) }

/-- A saved record restored on cores, one for each kept member, or refused as a whole. -/
def State.restoreRecord (s : State) (r : Record) (tq : Nat) (place : Kept → Nat) : State :=
  let id := s.core.id
  match s.whyRefused r place with
  | some x => s.refuseRestore r x.1 x.2 (place x.1)
  | none => (r.kept.foldl (fun t k =>
      let u := (t.focus (place k)).restoreOne r tq k
      u.noteRun r.inv ⟨k.strand.sys.lpidx, r.join == 0, k.member, place k⟩) s).focus id

end Sys2Proof.Machine
end

