-- ==== Sys2Proof/Machine/Schedule.lean ====
section
/-!
DEFINITION. The scheduler: starting a strand, choosing a record, gangs, the preloaded task, pre-emption, the end of a strand,
replay and failure of invocations
(R19, R31, R32, R92, R96, R323, R348, R349, R364, R367 to R378, R389, R397, R440, R441).
-/
namespace Sys2Proof.Machine

/-! ### Starting a strand (R31, R323, R364, R379, R440, R441) -/

def State.launchOf (s : State) (r : Record) : Option Launch := s.hub.launches.find? fun l => l.frame == r.launch

/-- The Chamber image list copied into the banks. -/
def State.loadChamber (s : State) (k : List Byte) : State :=
  (Kernel.chamber k).foldl (fun t e => t.homeWrite .cham false (chamAt t.core.id e.1) ((k.drop e.2.2).take e.2.1)) s

/-- Every lane slice of the core becomes 0. -/
def State.zeroLanes (s : State) : State :=
  let a := laneAt s.core.id 0 0
  let b := s.mem.lane
  let out (x : Nat) : Bool := !(a ≤ x && x < a + 262144)
  { s with mem := { s.mem with lane := ⟨b.cells.filter fun c => out c.1, b.poison.filter fun i => out (8 * i)⟩ } }

/-- Relocation registers of a launch frame. -/
def State.frameRl (s : State) (frame : Nat) : Vector Word 16 := Vector.ofFn fun i => s.mem.phys8 (frame + 8 * i.val)

/-- The initialiser of a stream: its descriptor with POS and POIS 0. -/
def Kernel.stream (k : List Byte) (n : Nat) : Stream :=
  match (Kernel.streamsNamed k).findIdx? (· == n) with
  | none => ⟨[Version.zero], 0⟩
  | some j =>
    let w (i : Nat) : Word := BitVec.ofNat 64 (kfield k (Kernel.strm k + 32 * j + 8 * i) 8)
    ⟨[⟨w 0, setField (w 1) 32 16 0, w 2, w 3 &&& 0xFFFFFFFF#64, 0, false⟩], 0⟩

def Kernel.streams (k : List Byte) : Vector Stream 16 := Vector.ofFn fun i => Kernel.stream k i.val
def Kernel.waitTable (k : List Byte) : Vector Word32 16 :=
  Vector.ofFn fun i => if i.val = 15 then 0xFFFFFFFF#32 else BitVec.ofNat 32 (Kernel.wait k i.val)

/-- What a launch keeps of the descriptor. -/
def Launch.info (l : Launch) : KernelInfo :=
  let k := l.kernel
  ⟨l.desc, Kernel.textLen k, Kernel.entry k, Kernel.joinPc k, Kernel.handler k, Kernel.priv k, Kernel.repl k, Kernel.gang k,
    Kernel.gsz k, Kernel.banks k, BitVec.ofNat 16 (Kernel.rset k), (List.range 16).map fun i => BitVec.ofNat 32 (Kernel.rgn k i)⟩

/-- Extent of a temporal level; 0 for others. -/
def Launch.lpext (l : Launch) (i : Nat) : Word :=
  if l.kinds[i]? = some 1 then BitVec.ofNat 64 (l.exts[i]?.getD 0) else 0

/-- A strand as launched, member m of a gang of n, or alone with n = 0. -/
def Launch.strand (l : Launch) (r : Record) (rl : Vector Word 16) (m n : Nat) : Strand :=
  let k := l.kernel
  let pc := r.code.setWidth 56
  let b := Strand.reset
  { b with
    regs := { b.regs with rl := rl, waitb := Kernel.waitTable k, waitbEp := Kernel.waitTable k, rotbase := BitVec.ofNat 64 (Kernel.ra k * 2 ^ 34 + Kernel.re k * 2 ^ 32) },
    sys := { b.sys with
      shvec := if Kernel.handler k = 0 then 0 else BitVec.ofNat 64 (l.desc + Kernel.handler k) &&& 0x00FFFFFFFFFFFFFC#64,
      ptbase := l.root, hptbase := l.hroot, lpidx := r.idx, gangid := if n = 0 then 0 else BitVec.ofNat 64 (16 * (n - 1) + m),
      lpext := Vector.ofFn fun i => l.lpext i.val },
    streams := Kernel.streams k,
    ap := { b.ap with pc := pc }, ep := { b.ep with pc := pc },
    image := ⟨l.desc + 256, k.drop 256, l.bad⟩, info := l.info }

/-- The rings that a kernel asks for start at once: each is an entry of the Chamber image list that is a `.ring` section, at OFF with
LEN / 4 words (R440, R441, assumption 16); SIZE 16 is written as 0 (assumption 71). -/
def Kernel.engines (k : List Byte) : Vector Engine 6 :=
  (Config.ringsOf k).foldl (fun es x =>
    match (Kernel.chamber k)[x.2.1]? with
    | some e =>
      if x.1 < 6 && 8 ≤ x.2.2 && x.2.2 ≤ 16 && e.1 % 2 ^ x.2.2 == 0 && e.2.1 % 4 == 0 && e.2.1 ≤ 2 ^ x.2.2 then
        es.setIfInBounds x.1 { Engine.reset with
          cfg := BitVec.ofNat 64 (2 ^ 27 + x.2.2 % 16 * 2 ^ 23 + e.1 % 2 ^ 23), wp := BitVec.ofNat 16 (e.2.1 / 4) }
      else es
    | none => es) (.replicate 6 Engine.reset)

/-- The record that the preload context holds goes back to the head of its queue. -/
def State.cancelPreload (s : State) : State :=
  match s.core.preload with
  | none => s
  | some p => (s.modTq (dieOf s.core.id) p.tq fun z => z.pushHead p.record s.clk).modCore fun c => { c with preload := none }

/-- A strand with banks that meet the preload's takes them: the preload is cancelled (R32, R377). -/
def State.makeRoom (s : State) (banks : BitVec 8) : State :=
  if s.core.preload.any fun p => p.banks &&& banks != 0 then s.cancelPreload else s

/-- A STRAND STARTED on the core, as member m of n (n = 0 outside a gang), from its preload context or afresh. -/
def State.startStrand (s : State) (l : Launch) (r : Record) (tq m n : Nat) (pre : Option Preload) : State :=
  let id := s.core.id
  let k := l.kernel
  let s0 := if pre.isSome then s else s.makeRoom (Kernel.banks k)
  let s1 := (s0.clearQuad []).cleanCore
  let s2 := (if pre.isSome then s1 else s1.loadChamber k).zeroLanes
  let t := l.strand r ((pre.map (·.rl)).getD (s2.frameRl l.frame)) m n
  let s3 := s2.modCore fun c => { c with
    mode := .running, strand := { t with pins := c.strand.pins.map Pin.emptied }, preload := if pre.isSome then none else c.preload, running := some ⟨{ r with rerun := [], slot := none }, tq, s.clk, m, l.desc⟩,
    engines := Kernel.engines k, trap := none, frozen := false, saveDue := false,
    regs := { c.regs with yreq := 0, ydead := setField c.regs.ydead 32 32 (field c.regs.ydead 0 32), wcnt := .replicate 16 0 } }
  (s3.unaskOf id).noteRun r.inv ⟨r.idx, r.join == 0, m, id⟩

/-! ### What a core may take (R224, R225, R368, R374, R377) -/

/-- Does a record stand for a gang, and how many cores does it need? -/
def Record.gangSize (r : Record) (l : Launch) : Nat :=
  match r.kept with
  | [] => if Kernel.gang l.kernel && r.join != 0 then Kernel.gsz l.kernel + 1 else 0
  | k :: _ => if field k.strand.sys.gangid 4 4 = 0 then 0 else r.kept.length

/-- Banks of a launch's kernel that a core holds shut for another record's pin entries. -/
def Core.shut (c : Core) (r : Record) (b : Nat) : Bool :=
  c.oldPins.any fun o => o.pin.covers b && !(r.kept.any fun k => k.frame == o.frame)

/-- May the core take the record: it is not bound or placed elsewhere, and its banks are free? -/
def State.canTake (s : State) (c : Core) (r : Record) : Bool :=
  match s.launchOf r with
  | none => false
  | some l =>
    let gang := r.gangSize l != 0
    let banks := Kernel.banks l.kernel
    (r.rerun.isEmpty || r.rerun.contains c.id) &&
    (if gang then (r.kept.all fun k => !k.bound) || (r.kept.any fun k => k.core == c.id)
     else r.kept.all fun k => !k.bound || k.core == c.id) &&
    (List.range 8).all fun b => !bit banks b || !c.shut r b

/-! ### Selection (R371) -/

/-- A queue that offers the core a record: its number, the record's index, the record. -/
structure Offer where
  q : Nat
  ix : Nat
  rec_ : Record
deriving DecidableEq, Repr

def State.offers (s : State) (c : Core) (ok : Record → Bool) : List Offer :=
  (List.range 32).filterMap fun q =>
    let z := s.tqOf (dieOf c.id) q
    if z.enabled && bit z.mask (c.id % 256) then
      match z.records.findIdx? fun r => ok r && s.canTake c r with
      | some i => (z.records[i]?).map fun r => ⟨q, i, r⟩
      | none => none
    else none

/-- The effective class of a queue. -/
def TaskQueue.ep (z : TaskQueue) (now : Nat) : Nat :=
  if z.age = 0 then z.prio else min 7 (z.prio + (now - z.headSince) / (256 * z.age))

/-- The offer that R371 takes, with the credits and the scan position after it. -/
def State.choose (s : State) (die : Nat) (os : List Offer) : Option (Offer × State) :=
  let ep (o : Offer) : Nat := (s.tqOf die o.q).ep s.clk
  let p := os.foldl (fun m o => max m (ep o)) 0
  let d := os.filter fun o => ep o == p
  let t := if d.all fun o => (s.tqOf die o.q).credit == 0 then
      d.foldl (fun t o => t.modTq die o.q fun z => { z with credit := z.wgt }) s
    else s
  let rr := ((t.share.dies[die]?.getD Die.reset).rr[p]?).getD 0
  let scan := (List.range 32).map fun i => (rr + 1 + i) % 32
  match scan.findSome? fun q => d.find? fun o => o.q == q && 0 < (t.tqOf die q).credit with
  | none => none
  | some o =>
    let u := t.modTq die o.q fun z => { z with credit := z.credit - 1 }
    let x := u.share.dies[die]?.getD Die.reset
    let y := { x with rr := x.rr.setIfInBounds p o.q }
    some (o, u.modShare fun h => { h with dies := h.dies.setIfInBounds die y })

/-- A record leaves its queue; what is then at the head stands there from now. -/
def TaskQueue.remove (z : TaskQueue) (ix now : Nat) : TaskQueue :=
  { z.withRecords (z.records.eraseIdx ix) now with headSince := if ix = 0 then now else z.headSince }

/-- The record that the core takes: the one it was asked to give way to, or that of R371. -/
def State.select (s : State) (ok : Record → Bool) : Option (Offer × State) :=
  let die := dieOf s.core.id
  let os := s.offers s.core ok
  match os.find? fun o => (s.tqOf die o.q).asked == some s.core.id with
  | some o => some (o, s.modTq die o.q fun z => { z with asked := none })
  | none => s.choose die os

/-! ### Gangs (R374, R376) -/

def State.dieAt (s : State) (d : Nat) : Die := s.share.dies[d]?.getD Die.reset
def State.modDieAt (s : State) (d : Nat) (f : Die → Die) : State :=
  s.modShare fun h => { h with dies := h.dies.setIfInBounds d (f (h.dies[d]?.getD Die.reset)) }

/-- Does the core hold a reservation? -/
def State.reserved (s : State) (core : Nat) : Bool := (s.dieAt (dieOf core)).gangs.any fun g => g.cores.contains core

/-- A core reserves itself for a leaf. -/
def State.reserve (s : State) (tq : Nat) (r : Record) : State :=
  let id := s.core.id
  s.modDieAt (dieOf id) fun d =>
    if d.gangs.any fun g => g.record.same r then
      { d with gangs := d.gangs.map fun g => if g.record.same r then { g with cores := insertNat g.cores id, since := s.clk } else g }
    else { d with gangs := d.gangs ++ [⟨tq, r, [id], s.clk⟩] }

/-- Which records the core may select: with a preload loaded, only a rerun that belongs to it (R377). -/
def State.wants (s : State) (r : Record) : Bool := s.core.preload.isNone || r.rerun.contains s.core.id

/-- The reservation of its cluster that an idle core joins. -/
def State.joins (s : State) : Option Reservation :=
  let c := s.core
  (s.dieAt (dieOf c.id)).gangs.find? fun g =>
    s.wants g.record && (g.cores.any fun k => clusterOf k == clusterOf c.id) && bit (s.tqOf (dieOf c.id) g.tq).mask (c.id % 256) && s.canTake c g.record

/-- Cores of one cluster that a reservation can start on, in the order of members. -/
def Reservation.team (g : Reservation) (n cluster : Nat) : Option (List Nat) :=
  let cs := g.cores.filter fun k => clusterOf k == cluster
  let named := (g.record.kept.filter (·.bound)).map (·.core)
  if cs.length < n || !named.all cs.contains then none
  else
    let free := cs.filter fun k => !named.contains k
    match g.record.kept with
    | [] =>
      if g.record.rerun.isEmpty then some (cs.take n) else if g.record.rerun.all cs.contains then some g.record.rerun else none
    | ks =>
      let go := ks.foldl (fun (x : List Nat × List Nat) k =>
        if k.bound then (x.1 ++ [k.core], x.2) else (x.1 ++ x.2.take 1, x.2.drop 1)) ([], free)
      if go.1.length = n then some go.1 else none

/-- The members of a leaf start on their cores in one clk. -/
def State.startTeam (s : State) (l : Launch) (g : Reservation) (cores : List Nat) : State :=
  let id := s.core.id
  match g.record.kept with
  | [] => (cores.zipIdx.foldl (fun t x => (t.focus x.1).startStrand l g.record g.tq x.2 cores.length none) s).focus id
  | ks => (cores.foldl (fun t c => (t.focus c).makeRoom (Kernel.banks l.kernel)) s |>.focus id).restoreRecord g.record g.tq fun k => ((ks.zip cores).find? fun x => x.1.member == k.member).map (·.2) |>.getD k.core

/-- A reserved gang of the die whose members are all there since an earlier clk starts; other reservations for its leaf are freed
(R374). -/
def execGangStart (s : State) : Answer :=
  let die := dieOf s.core.id
  let ready := ((s.dieAt die).gangs.filter fun g => g.since < s.clk).filterMap fun g =>
    match s.launchOf g.record with
    | none => none
    | some l => ((List.range 12).findSome? fun c => g.team (g.record.gangSize l) (16 * die + c)).map fun cs => (g, l, cs)
  match ready with
  | [] => .next s
  | (g, l, cs) :: _ =>
    let t := s.modDieAt die fun d => { d with gangs := d.gangs.filter fun x => !x.record.same g.record }
    let u := match (t.tqOf die g.tq).records.findIdx? (·.same g.record) with
      | some i => t.modTq die g.tq fun z => z.remove i s.clk
      | none => t
    .next (u.startTeam l g cs)

/-! ### An idle core takes a record (R371, R374, R377, R380) -/

/-- May the core select? -/
def State.canSelect (s : State) : Bool :=
  let c := s.core
  c.mode == .idle && !c.draining && !c.gated && !c.halted && coreOk c.id && s.dieReady (dieOf c.id) && !s.reserved c.id

/-- A selected record: a gang's leaf is reserved; a saved record is restored; any other starts. -/
def State.take (s : State) (o : Offer) (l : Launch) : State :=
  let die := dieOf s.core.id
  if o.rec_.gangSize l ≠ 0 then s.reserve o.q o.rec_
  else
    let t := s.modTq die o.q fun z => z.remove o.ix s.clk
    let u := t.makeRoom (Kernel.banks l.kernel)
    if o.rec_.kept.isEmpty then u.startStrand l o.rec_ o.q 0 0 none
    else u.restoreRecord o.rec_ o.q fun _ => u.core.id

def execRecordSelect (s : State) : Answer :=
  if !s.canSelect then .next s
  else match s.joins with
    | some g => .next (s.reserve g.tq g.record)
    | none => match s.select s.wants with
      | none => .next s
      | some (o, t) => match s.launchOf o.rec_ with
        | some l => .next (t.take o l)
        | none => .next s

/-- An idle core whose next record is a saved one restores it, or refuses its image (R380). -/
def execStrandRestore (s : State) : Answer :=
  if !s.canSelect then .next s
  else match s.select s.wants with
    | none => .next s
    | some (o, t) => match s.launchOf o.rec_ with
      | some l => if o.rec_.kept.isEmpty || o.rec_.gangSize l ≠ 0 then .next s else .next (t.take o l)
      | none => .next s

/-! ### The preloaded task (R32, R377) -/

/-- The next record is loaded into the preload context of a core that runs one: its start values and its banks. -/
def execPreloadLoad (s : State) : Answer :=
  let c := s.core
  if c.mode = .idle ∨ c.preload.isSome ∨ c.regs.yreq = 1 ∨ !s.dieReady (dieOf c.id) then .next s
  else match s.select fun r => r.rerun.isEmpty with
    | none => .next s
    | some (o, t) => match s.launchOf o.rec_ with
      | none => .next s
      | some l =>
        let banks := Kernel.banks l.kernel
        if !o.rec_.kept.isEmpty || o.rec_.gangSize l ≠ 0 || banks &&& c.strand.info.banks != 0 then .next s
        else
          let p : Preload := ⟨o.rec_, o.q, o.rec_.code.setWidth 56, Kernel.waitTable l.kernel, Kernel.streams l.kernel, s.frameRl l.frame, banks⟩
          let u := (t.modTq (dieOf c.id) o.q fun z => z.remove o.ix s.clk).writeHeldBut [] c.id
          .next ((u.loadChamber l.kernel).modCore fun c => { c with preload := some p })

/-- A rerun that waits for the core comes before its preload. -/
def State.rerunWaits (s : State) : Bool := !(s.offers s.core fun r => r.rerun.contains s.core.id).isEmpty

/-- The preload context becomes active 64 clk after the core was released. -/
def execPreloadActivate (s : State) : Answer :=
  let c := s.core
  match c.preload with
  | none => .next s
  | some p =>
    if c.mode != .idle || c.draining || c.gated || c.halted || s.clk < c.released + 64 || s.rerunWaits then .next s
    else match s.launchOf p.record with
      | some l => .next (s.startStrand l p.record p.tq 0 0 (some p))
      | none => .next (s.modCore fun c => { c with preload := none })

/-! ### Pre-emption (R92, R373, R375, R378) -/

/-- The core among those of a queue's mask that a request goes to: the lowest PRIO, then the last started, then the lowest. -/
def State.victim (s : State) (die : Nat) (z : TaskQueue) : Option Core :=
  let ks := ((List.range 192).filter fun k => bit z.mask k).map fun k => s.coreAt (die * 256 + k)
  if ks.any fun c => c.mode == .idle then none
  else
    let prio (c : Core) : Nat := (c.running.map fun r => (s.tqOf die r.tq).prio).getD 8
    let below := ks.filter fun c => prio c < z.ep s.clk && c.regs.yreq == 0
    below.foldl (fun b c => match b with
      | none => some c
      | some d =>
        let sc := (c.running.map (·.started)).getD 0
        let sd := (d.running.map (·.started)).getD 0
        if prio c < prio d || (prio c == prio d && sd < sc) then some c else b) none

/-- A request to the core, and to every member of its gang; a bound of 0 makes the save due at once. -/
def Core.demand (c : Core) : Core :=
  if c.regs.yreq = 1 then c
  else
    let d := c.request
    if field d.regs.ydead 0 32 = 0 && d.strand.ap.ending != some .yield then { d with saveDue := true } else d

def State.demand (s : State) : State :=
  let c := s.core
  { s with core := c.demand, parked := s.parked.map fun d => if sameGang c d then d.demand else d }

/-- The preloads of the core, and of the cores that run the members of its gang, are cancelled (R377). -/
def State.cancelPreloads (s : State) : State := s.gangCores.foldl (fun t k => (t.focus k).cancelPreload) s

/-- The first queue of the die with PRE whose head waits while its mask runs lower work requests a core, whose preload is cancelled
(R373, R377). -/
def execPreemptRequest (s : State) : Answer :=
  let die := dieOf s.core.id
  let hit := (List.range 32).findSome? fun q =>
    let z := s.tqOf die q
    if z.enabled && z.pre && !z.records.isEmpty && z.asked.isNone then (s.victim die z).map fun c => (q, c.id) else none
  match hit with
  | none => .next s
  | some (q, k) => .next ((((s.modTq die q fun z => { z with asked := some k }).focus k).demand.cancelPreloads).focus s.core.id)

/-- LEFT has reached 0 under a request and the strand has not yielded: it must be saved (R378). -/
def execDeadlineExpiry (s : State) : Answer :=
  let c := s.core
  if c.mode != .idle && c.regs.yreq == 1 && field c.regs.ydead 32 32 == 0 && c.strand.ap.ending != some .yield then
    .next (s.modCore fun c => { c with saveDue := true })
  else .next s

/-! ### The end of a strand (R19, R96, R369, R374, R376) -/

/-- The strand's stores are performed, loads that are still in flight complete to memory, the strand's writes are released at
SYSTEM and the core is released; the record ends, for a gang with its last member (R19, R96). -/
def execHaltComplete (s : State) : Answer :=
  if !s.haltReady then .next s
  else if !s.drainAll.storesDone then .next s.drainAll
  else
    let t := s.drainAll.completeLoads.releaseAll
    let c := t.core
    match c.running with
    | none => .next (t.dropCore c.id)
    | some r =>
      let mates := (t.parked.filter fun d => sameGang c d).map (·.id)
      let u := t.dropCore c.id
      if mates.isEmpty then .next (u.endRecord r.record r.tq (dieOf c.id))
      else
        let mask := r.record.halted ||| 2 ^ r.member
        let mark (d : Core) : Core := if mates.contains d.id then
            { d with running := d.running.map fun q => { q with record := { q.record with halted := mask } } } else d
        .next (u.mapCores mark)

/-! ### Replay and failure (R348, R349) -/

/-- Buffers of an `invoke` body in `rl0` upward, 0 above. -/
def invokeRl (body : List Word32) : List Word :=
  let n := min 16 (field (body.headD 0) 8 5)
  (List.range 16).map fun i => if i < n then
      (body[1 + 2 * i]?.getD 0).setWidth 64 ||| ((body[2 + 2 * i]?.getD 0).setWidth 64 <<< 32) else 0

/-- What the launch of a slot's kernel with a body waits for of another node. -/
def State.invokeAsk (s : State) (q slot : Nat) (body : List Word32) : Option PodReq :=
  let x := s.hub.slots[slot]?.getD ModelSlot.reset
  s.launchAsk (s.rootsOf (s.queue q).asid) (x.base + 0x2000) (invokeRl body)

/-- The launch of an invocation's record: the kernel of its slot, on its die and queue; a refusal fails the invocation. -/
def State.launchInvocation (s : State) (v : Invocation) : State :=
  let w := v.body.headD 0
  let z := s.queue v.queue
  let x := s.hub.slots[v.slot]?.getD ModelSlot.reset
  match s.launch v.id v.header (x.base + 0x2000) (field w 21 3) (field w 16 5) (s.rootsOf z.asid) (invokeRl v.body) with
  | .ok t => t.hubDone launchAgent
  | .error code => s.failInvocation v ⟨0x38, 0, 0xFF, 0, 0, 0, v.header, code, s.hub.hubClk⟩

/-- May the invocation be replayed? -/
def State.replayable (s : State) (v : Invocation) : Bool :=
  v.replays < 2 && ((s.hub.launches.find? fun l => l.inv == v.id).map fun l => Kernel.repl l.kernel).getD false

/-- A contained fault of a replayable invocation, whose strands have ended: it is launched again from its record. -/
def execInvocationReplay (s : State) : Answer :=
  match s.hub.invocations.find? fun v => v.fault.isSome && s.replayable v with
  | none => .next s
  | some v => match s.invokeAsk v.queue v.slot v.body with
  | some r => .next (s.podAsk r)
  | none =>
    let t := (s.dropCores (s.coresOf v.id)).dropRecords v.id
    let w := { v with replays := v.replays + 1, fault := none }
    let u := t.modHub fun h => { h with
      invocations := h.invocations.map fun x => if x.id = v.id then w else x, launches := h.launches.filter fun l => l.inv != v.id }
    .next ((u.addEvent v.queue 4 v.header).launchInvocation w)

/-- A contained fault of an invocation that is not replayed: the invocation fails. -/
def execInvocationFail (s : State) : Answer :=
  match s.hub.invocations.find? fun v => v.fault.isSome && !s.replayable v with
  | none => .next s
  | some v => match v.fault with
    | some r => .next (s.failInvocation v r)
    | none => .next s

end Sys2Proof.Machine
end

