-- ==== Sys2Proof/Machine/Queues.lean ====
section
/-!
DEFINITION. Queues of the hub: levels and fetch-ahead, the end of a packet, control blocks and commits, doorbells, Cricket
images (R327, R329, R330, R334, R335, R341 to R343, R353 to R361, R430).
-/
namespace Sys2Proof.Machine

/-! ### Levels (R327, R329) -/

/-- Level 0. -/
def Level.bottom : Level := ⟨false, 0, 0, 0, 0, [], []⟩

namespace HubQueue

/-- The levels, the innermost first, level 0 last. -/
def stack (z : HubQueue) : List Level := if z.levels.isEmpty then [Level.bottom] else z.levels
def top (z : HubQueue) : Level := z.stack.headD Level.bottom
def atZero (z : HubQueue) : Bool := z.stack.length == 1

/-- The number of the level of the packet that runs. -/
def level (z : HubQueue) : Nat := (z.stack.filter fun l => !l.isLoop).length - 1

/-- Place of the packet that runs in its level. -/
def posOf (z : HubQueue) : List Level → Nat
  | l :: _ :: _ => l.pos
  | _ => z.rp.toNat
def pos (z : HubQueue) : Nat := z.posOf z.stack

/-- Words from the packet's header to the end of its level. -/
def left (z : HubQueue) : Nat := if z.atZero then (z.wp - z.rp).toNat else z.top.size - z.top.pos

/-- Address of word i of a level; a held body's words lie after the `loop` that holds it. -/
def addrIn (z : HubQueue) : List Level → Nat → Nat
  | l :: r :: rest, i => if l.isLoop then addrIn z (r :: rest) (z.posOf (r :: rest) + 3 + i) else l.base + 4 * i
  | _, i => z.wordAt (BitVec.ofNat 32 i)

/-- Address of the packet's header. -/
def here (z : HubQueue) : Nat := z.addrIn z.stack z.pos

/-- Is word i of the level at depth d in sight of fetching? -/
def inLimit (z : HubQueue) (d i : Nat) : Bool :=
  if d + 1 = z.stack.length then (BitVec.ofNat 32 i - z.rp).toNat < (z.wp - z.rp).toNat
  else i < (z.stack[d]?.getD Level.bottom).size

end HubQueue

/-! ### Fetching (R330) -/

/-- A poisoned word that a queue processor has read halts the queue as poisoned data (R412); `word` names it where it was
fetched. -/
def wordOrPoison (word : Option Nat) (r : (List Byte × Bool) × State) : Except HubStop (Word32 × State) :=
  if r.1.2 then .error (.cause 0x16 0 word) else .ok (BitVec.ofNat 32 (leNat r.1.1), r.2)

/-- A fault of a fetch names the word at an address (R335). -/
def HubStop.at_ (e : HubStop) (a : Nat) : HubStop :=
  match e with
  | .cause c x _ => .cause c x (some a)
  | .ask r => .ask r

/-- Word i of the level at depth d: as held, as fetched, or fetched now. -/
def State.qWord (s : State) (q d i : Nat) : Except HubStop (Word32 × State) :=
  let z := s.queue q
  let l := z.stack[d]?.getD Level.bottom
  if l.isLoop then .ok (l.body[i]?.getD 0, s)
  else match l.fetched.find? fun x => x.1 == i with
    | some x => .ok (x.2, s)
    | none =>
      let zero := d + 1 = z.stack.length
      let a := if zero then z.wordAt (BitVec.ofNat 32 i) else l.base + 4 * i
      let r := if zero then s.hubRead (hubAgent q) (s.rootsOf z.asid) z.host a 4 else s.qRead q a 4
      match r with
      | .error e => .error (e.at_ a)
      | .ok x => match wordOrPoison (some a) x with
        | .error e => .error e
        | .ok (w, t) => .ok (w, t.modQueue q fun z =>
            { z with levels := z.stack.set d { l with fetched := l.fetched ++ [(i, w)] } })

/-- Words k, k + 1, … of the packet's level, counted from its header. -/
def State.qWords (s : State) (q k : Nat) : Nat → Except HubStop (List Word32 × State)
  | 0 => .ok ([], s)
  | n + 1 =>
    match s.qWord q 0 (((s.queue q).pos + k) % 2 ^ 32) with
    | .error e => .error e
    | .ok (w, t) => match t.qWords q (k + 1) n with
      | .error e => .error e
      | .ok (ws, u) => .ok (w :: ws, u)

/-- Word i of a level fetched if it can be; a word that cannot is fetched when it is used, one of another node is asked for. -/
def State.tryFetch (s : State) (q d i : Nat) : State :=
  if !(s.queue q).inLimit d i then s
  else match s.qWord q d i with
    | .ok (_, t) => t
    | .error (.ask r) => s.podAsk r
    | .error _ => s

/-- Is a word that the queue has asked another node for still on its way? -/
def State.fetching (s : State) (q : Nat) : Bool := s.share.pod.any fun r => r.agent == hubAgent q && r.kind == .read

/-- When a packet begins, the word of its header and the 256 after it are fetched; for a packet of a held body, those of
the level that the body lies in. -/
def State.fetchAhead (s : State) (q : Nat) : State :=
  let z := s.queue q
  let loop := z.top.isLoop
  let p := if loop then z.posOf (z.stack.drop 1) + 3 + z.pos else z.pos
  (List.range 257).foldl (fun t i => t.tryFetch q (if loop then 1 else 0) ((p + i) % 2 ^ 32)) s

/-- The words of the packet at the queue's place: none while its level does not hold them all, its header alone where that is no packet
the queue permits, where a buffer ends before it, or where the ring cannot hold it (R326, R340). -/
def State.packetWords (s : State) (q : Nat) : Except HubStop (Option (List Word32) × State) :=
  let z := s.queue q
  if z.left = 0 then .ok (none, s)
  else match s.qWords q 0 1 with
    | .error e => .error e
    | .ok (hs, t) =>
      let n := field (hs.headD 0) 0 16
      let op := field (hs.headD 0) 24 8
      if z.left < n + 1 then .ok (if z.atZero && n < 2 ^ z.log2sz && op < 14 && z.allows op then none else some hs, t)
      else match t.qWords q 1 n with
        | .error e => .error e
        | .ok (ws, u) => .ok (some (hs ++ ws), u)

/-! ### Control blocks and commits (R353 to R361) -/

/-- Windows and instructions of a Cricket image, by its words. -/
def cricketOf (ws : List Word32) : Cricket :=
  let h := ws.headD 0
  let nw := field h 12 4
  let at_ (k : Nat) : Nat := (ws[k]?.getD 0).toNat
  ⟨(List.range nw).map fun w => (at_ (1 + 4 * w) + at_ (2 + 4 * w) * 2 ^ 32, at_ (3 + 4 * w)), (ws.drop (1 + 4 * nw)).take (field h 0 12)⟩

/-- The bodies of the loops of a program, first and last word. -/
def cricketBodies (is : List Instr) : List (Nat × Nat) :=
  is.zipIdx.filterMap fun x => match x.1 with
    | .cricketLoop _ l => some (x.2 + 1, x.2 + l.toNat)
    | _ => none

def within (x : Nat × Nat) (i : Nat) : Bool := x.1 ≤ i && i ≤ x.2

/-- The innermost body that holds a word. -/
def innermost (bs : List (Nat × Nat)) (i : Nat) : Option (Nat × Nat) :=
  (bs.filter fun b => within b i).foldl (fun m b => match m with
    | none => some b
    | some c => if c.1 < b.1 then some b else some c) none

/-- A branch target: in the program, in the branch's innermost body, and in no body that does not hold the branch. -/
def cricketTargetOk (bs : List (Nat × Nat)) (n i off : Nat) : Bool :=
  let t := i + off
  1 ≤ off && t < n && ((innermost bs i).all fun b => within b t) && bs.all fun b => !within b t || within b i

/-- Words of a window. -/
def Cricket.wordsOf (c : Cricket) (w : Nat) : Nat := (c.windows[w]?.getD (0, 0)).2 / 4

/-- An instruction at a place, its fields beyond the encoding (R343). -/
def cricketInstrOk (c : Cricket) (bs : List (Nat × Nat)) (n i : Nat) : Instr → Bool
  | .cricketHalt _ v => v != 3#2
  | .cricketSetpkt _ k => k != 0#10
  | .cricketLd _ w o | .cricketSt _ w o => w.toNat < c.windows.length && o.toNat < c.wordsOf w.toNat
  | .cricketLdr _ _ w | .cricketStr _ _ w => w.toNat < c.windows.length && (List.range 13).any fun k => 2 ^ k == c.wordsOf w.toNat
  | .cricketBz _ o | .cricketBnz _ o => cricketTargetOk bs n i o.toNat
  | .cricketLoop _ l =>
    1 ≤ l.toNat && i + l.toNat < n && ((bs.filter fun b => within b i).all fun b => i + l.toNat ≤ b.2) &&
    (bs.filter fun b => within b i).length < 2
  | _ => true

/-- The instructions of an image, none where a word is not one. -/
def Cricket.instrs (c : Cricket) : Option (List Instr) :=
  c.code.foldr (fun w r => match decodeCricket w, r with
    | .ok i, some is => some (i :: is)
    | _, _ => none) (some [])

/-- May a program be installed in a queue with these ranges (R343)? -/
def Cricket.ok (c : Cricket) (b : Vector Word 32) : Bool :=
  (c.windows.all fun x => 4 ≤ x.2 && x.2 ≤ 16384 && x.2 % 4 == 0 && (inRange b x.1 x.2).isSome) &&
  match c.instrs with
  | none => false
  | some is =>
    let bs := cricketBodies is
    (is.zipIdx.all fun x => cricketInstrOk c bs is.length x.2 x.1) &&
    match is.getLast? with
    | some (.cricketHalt ..) => true
    | _ => false

/-- Words at CPROG of a block; none where they cannot be read. -/
def State.cricketWords (s : State) (q : Nat) (b : Vector Word 32) (n : Nat) : Except PodReq (Option (List Word32)) :=
  let a := (blockWord b 48).toNat
  match inRange b a n with
  | some r => match s.hubRead (hubAgent q) (s.rootsOf (field (blockWord b 8) 32 16)) r.2.2 a n with
    | .ok ((bs, false), _) => .ok (some (words32 bs))
    | .error (.ask r) => .error r
    | _ => .ok none
  | none => .ok none

/-- The image at CPROG of a block, read for its installation; none where it is refused. -/
def State.readCricket (s : State) (q : Nat) (b : Vector Word 32) : Except PodReq (Option Cricket) :=
  match s.cricketWords q b 4 with
  | .error r => .error r
  | .ok none => .ok none
  | .ok (some h) =>
    let x := h.headD 0
    let nw := field x 12 4
    let ni := field x 0 12
    if 4 < nw || ni = 0 || 1024 < ni || field x 16 16 ≠ 0 then .ok none
    else match s.cricketWords q b (4 * (1 + 4 * nw + ni)) with
      | .error r => .error r
      | .ok none => .ok none
      | .ok (some ws) =>
        let c := cricketOf ws
        .ok (if c.ok b && (List.range nw).all fun w => ws[4 + 4 * w]?.getD 0 == 0 then some c else none)

/-- Do the fields of a shadow block keep R353, apart from RP and STAT? -/
def blockFields (b : Vector Word 32) : Bool :=
  let w (off : Nat) : Word := blockWord b off
  let cfg := w 8
  let k := field cfg 0 5
  8 ≤ k && k ≤ 20 && field cfg 6 10 == 0 && field cfg 27 5 == 0 && field (w 16) 0 32 == 0 && (w 24).toNat % 256 == 0 &&
  (w 32).toNat % 64 == 0 && (w 40).toNat % 512 == 0 && w 56 == 0 && field (w 64) 14 50 == 0 && w 72 == 0 && w 80 == 0 && w 88 == 0 &&
  (w 224 == 0 && w 232 == 0 && w 240 == 0 && w 248 == 0) && (List.range 8).all fun i => field (w (104 + 16 * i)) 48 15 == 0

/-- Do no two ranges in use overlap? -/
def rangesApart (b : Vector Word 32) : Bool :=
  let rs := ((List.range 8).map (rangeOf b)).filter fun r => r.2.1 != 0
  rs.zipIdx.all fun x => rs.zipIdx.all fun y =>
    x.2 == y.2 || x.1.1 + x.1.2.1 ≤ y.1.1 || y.1.1 + y.1.2.1 ≤ x.1.1

/-- Do the ring, the event ring and the error record lie in the ranges? -/
def placesOk (b : Vector Word 32) : Bool :=
  (inRange b (blockWord b 24).toNat (4 * 2 ^ field (blockWord b 8) 0 5)).isSome && (inRange b (blockWord b 32).toNat 64).isSome &&
  (inRange b (blockWord b 40).toNat 512).isSome

/-- The program that a queue's shadow names: while CPROG stands, the copy that the queue has installed, held to the shadow's
ranges (R341, R356). -/
def State.named (s : State) (q : Nat) : Except PodReq (Option Cricket) :=
  let z := s.queue q
  let b := z.shadow
  if blockWord b 48 = 0 then .ok none
  else if blockWord b 48 = z.cprog then match z.cricket with
    | some c => .ok (if c.ok b && (inRange b z.cprog 4).isSome then some c else none)
    | none => s.readCricket q b
  else s.readCricket q b

/-- The RES of a commit word that the queue refuses, with the program that an accepted one installs. -/
def State.commitCheck (s : State) (q : Nat) (w : Word) : Nat × Option Cricket :=
  let z := s.queue q
  let b := z.shadow
  if z.rolled then (3, none)
  else if (field w 0 32) ≠ (z.gen + 1) % 2 ^ 32 then (1, none)
  else
    let c := match s.named q with
      | .ok c => c
      | .error _ => none
    if (bit w 32 && bit w 33) || !blockFields b || !rangesApart b || !placesOk b || (blockWord b 48 != 0 && c.isNone) then (2, none)
    else (0, c)

/-- A commit applied or refused (R356, R359, R360). -/
def State.applyCommit (s : State) (q : Nat) (w : Word) : State :=
  let z := s.queue q
  let r := s.commitCheck q w
  if r.1 ≠ 0 then s.modQueue q fun z => { z with commit := w, status := BitVec.ofNat 64 r.1, rolled := false }
  else
    let mode := if bit w 32 then 1 else if bit w 33 then 0 else z.mode
    let stat : Word := BitVec.ofNat 64 (field w 0 32 + mode * 2 ^ 32)
    let rp := if z.mode = 1 then z.rp else bits (blockWord z.shadow 16) 32 32
    let same := blockWord z.shadow 48 == blockWord z.active 48
    s.modQueue q fun z =>
      let a := { z with active := z.shadow.setIfInBounds 0 stat }
      { a.setRp rp with
        commit := w, status := 0, dirty := false, rolled := false,
        levels := if z.mode = 1 then z.levels.map fun l => { l with fetched := [] } else [],
        cricket := if same then z.cricket else r.2, wait := if z.mode = 1 then z.wait else none, run := if z.mode = 1 then z.run else none,
        taken := if z.mode = 1 then z.taken else [] }

/-- Bytes of a control block replaced. -/
def putBlock (b : Vector Word 32) (off : Nat) (bs : List Byte) : Vector Word 32 :=
  let old := b.toList.flatMap fun w => leBytes 8 w.toNat
  let new := overlay old off bs
  Vector.ofFn fun i => leWord ((new.drop (8 * i.val)).take 8)

def State.qcbApply (s : State) (q : Nat) : QcbOp → State
  | .write off bs => s.modQueue q fun z => { z with shadow := putBlock z.shadow off bs, dirty := true }
  | .commit w => s.applyCommit q w

/-- What a write waits for: a commit that installs a program of another node's window waits for its words. -/
def State.qcbAwaits (s : State) (q : Nat) : QcbOp → Option PodReq
  | .write .. => none
  | .commit w =>
    if (field w 0 32) ≠ ((s.queue q).gen + 1) % 2 ^ 32 || (s.queue q).rolled then none
    else match s.named q with
      | .error r => some r
      | .ok _ => none

/-- Writes applied in order, up to one that waits. -/
def State.qcbApplyAll (s : State) (q : Nat) : List QcbOp → State
  | [] => s.modQueue q fun z => { z with pending := [] }
  | o :: os => match s.qcbAwaits q o with
    | some r => (s.podAsk r).modQueue q fun z => { z with pending := o :: os }
    | none => (s.qcbApply q o).qcbApplyAll q os

/-- What has waited for the packet boundary is applied in its order. -/
def State.boundary (s : State) (q : Nat) : State := s.qcbApplyAll q (s.queue q).pending

/-- A write to the shadow or the commit word takes its place in the queue's order: a commit of a running queue waits for
its next packet boundary, and what comes after it with it. -/
def State.qcbPut (s : State) (q : Nat) (o : QcbOp) : State :=
  let z := s.queue q
  let now := z.pending.isEmpty && (z.mode != 1 || match o with
    | .write .. => true
    | .commit _ => false)
  if now && (s.qcbAwaits q o).isNone then s.qcbApply q o else s.modQueue q fun z => { z with pending := z.pending ++ [o] }

/-! ### The end of a packet (R327, R329, R334) -/

/-- The levels after n words of the innermost one, with the words that RP advances by, and the levels whose packet has
completed last. -/
def advance : List Level → Nat → List Level × Nat × List Level
  | l :: r :: rest, n =>
    let p := l.pos + n
    if p < l.size then ({ l with pos := p, fetched := l.fetched.filter fun x => p ≤ x.1 } :: r :: rest, 0, l :: r :: rest)
    else if l.isLoop && 1 < l.passes then ({ l with pos := 0, passes := l.passes - 1 } :: r :: rest, 0, l :: r :: rest)
    else
      let a := advance (r :: rest) (if l.isLoop then 3 + l.size else 4)
      (a.1, a.2.1, a.2.2)
  | ls, n => (ls, n, ls)

/-- The packet of n words has completed. -/
def HubQueue.retire (z : HubQueue) (n : Nat) : HubQueue :=
  let a := advance z.stack n
  let rp := z.rp + BitVec.ofNat 32 a.2.1
  let keep (x : Nat × Word32) : Bool := (BitVec.ofNat 32 x.1 - z.rp).toNat ≥ a.2.1
  let ls := match a.1.getLast? with
    | some l => a.1.dropLast ++ [{ l with fetched := l.fetched.filter keep }]
    | none => []
  { z.setRp rp with levels := ls, last := BitVec.ofNat 64 (z.addrIn a.2.2 (z.posOf a.2.2)), wait := none, run := none, taken := [] }

def State.retirePacket (s : State) (q n : Nat) : State := ((s.modQueue q fun z => z.retire n).hubDone (hubAgent q)).boundary q

/-- The packet that runs halts its queue, with the address of the word at fault; what waited for a packet boundary is then applied at
once. -/
def State.haltWord (s : State) (q code arg word : Nat) : State :=
  (s.haltQueue q code arg (s.queue q).here word).boundary q

/-- The packet that runs halts its queue, and no single word of it is at fault. -/
def State.haltAt (s : State) (q code arg : Nat) : State := s.haltWord q code arg (s.queue q).here

/-- The packet waits, from now if it has just begun. -/
def State.waitPacket (s : State) (q : Nat) : State :=
  s.modQueue q fun z => { z with wait := some (z.wait.getD s.hub.hubClk) }

/-- An access of the packet does not complete: its queue halts, or the packet waits for another node and then begins anew. -/
def State.stopPacket (s : State) (q : Nat) : HubStop → State
  | .cause c a w => s.haltWord q c a (w.getD (s.queue q).here)
  | .ask r => (s.podAsk r).waitPacket q

/-- A packet opens a level. -/
def State.pushLevel (s : State) (q : Nat) (l : Level) : State :=
  ((s.modQueue q fun z => { z with levels := l :: z.stack, wait := none, run := none, taken := [] }).hubDone (hubAgent q)).boundary q

/-! ### The doorbell (R334, R430) -/

/-- A new WP; one too far ahead halts the queue. -/
def State.setWp (s : State) (q : Nat) (wp : Word32) : State :=
  let z := s.queue q
  if 2 ^ z.log2sz < (wp - z.rp).toNat then
    (if z.mode = 2 then s else (s.haltQueue q 0x40 0 (z.wordAt z.rp) (z.wordAt z.rp)).boundary q)
  else s.modQueue q fun z => { z with wp := wp }

/-- A doorbell of queue a with the new WP in b; before its queue processor is ready it is recorded.  In recovery the host reaches no
doorbell and no control block (R362). -/
def execQueueDoorbell (s : State) : Answer :=
  let q := s.input.a
  let wp := BitVec.ofNat 32 s.input.b
  .next (if s.recovery then s else if s.qpReady q then s.setWp q wp else s.modQueue q fun z => { z with held := some wp })

/-- A write of 4 or 8 bytes at offset b of the shadow of queue a. -/
def execQcbShadowWrite (s : State) : Answer :=
  let x := s.input
  let n := x.bytes.length
  .next (if !s.recovery ∧ (n = 4 ∨ n = 8) ∧ x.b % n = 0 ∧ x.b + n ≤ 256 then s.qcbPut x.a (.write x.b x.bytes) else s)

/-- A write of the commit word b of queue a. -/
def execQcbCommit (s : State) : Answer :=
  .next (if s.recovery then s else s.qcbPut s.input.a (.commit (BitVec.ofNat 64 s.input.b)))

/-- Is the operation a write to the shadow? -/
def QcbOp.isWrite : QcbOp → Bool
  | .write .. => true
  | .commit _ => false

/-- The firmware's watchdog: every half-written shadow is rolled back, with an event; writes that wait for their place are part of it
(R358, assumption 85). -/
def execWatchdogRollback (s : State) : Answer :=
  .next ((List.range 256).foldl (fun t q =>
    let z := t.queue q
    if z.dirty || z.pending.any QcbOp.isWrite then
      (t.modQueue q fun z => { z with shadow := z.active, dirty := false, rolled := true, pending := z.pending.filter (!·.isWrite) }).addEvent q 3 z.gen
    else t) s)

/-! ### Errors of storage (R348, R408, R412, R418) -/

/-- An invocation record is struck: the invocation fails with a poisoned-data record (R348). -/
def State.strikeInvocation (s : State) (id : Nat) : State :=
  match s.hub.invocations.find? fun v => v.id == id with
  | some v => s.failInvocation v ⟨0x16, 0, 0xFF, 0, 0, 0, v.header, 0, s.hub.hubClk⟩
  | none => s

/-- Words that a queue has fetched, or its Cricket copy, are struck: the queue halts with the poisoned-data cause (R335,
assumption 84). -/
def State.strikeQueue (s : State) (q : Nat) : State :=
  let z := s.queue q
  if z.mode = 1 then s.haltQueue q 0x16 0 (z.wordAt z.rp) (z.wordAt z.rp) else s

/-- An uncorrectable error poisons its sector at the home and is counted.  Input b is the space of a data sector and a its place; c is 0
where its home storage is struck, 1 on its compressed view, 2 in the SRAM of the home L2, 4 in that of the core's L1; on space 5 with c 0
it is a reply of the host with the poison indication.  b = 6 is a queue's fetched words or Cricket copy, 7 an invocation record, with its
number in a.  An error that strikes a ring word between FP and WP ends the strand (R348, R408, R412, R418). -/
def execSramUncorrectableError (s : State) : Answer :=
  let x := s.input
  if x.b = 6 then .next (s.strikeQueue (x.a % 256))
  else if x.b = 7 then .next (s.strikeInvocation x.a)
  else
    let sp := spaceNo x.b
    let view := sp == .dev && x.c % 2 == 1
    let t := s.poisonSector sp view x.a
    let u := if 4 ≤ x.c then (t.poisonL1 sp view x.a).countEcc (dieOf s.core.id) 56 8
      else if sp = .dev then t.countEcc (dieAt sp x.a) (if 2 ≤ x.c then 56 else 32) 8
      else if sp = .host then (if 2 ≤ x.c then t.countEcc (dieOf s.core.id) 56 8 else t) else t.countEcc (dieAt sp x.a) 56 8
    .next (match s.ringStruck sp x.a with
      | some k => ((u.focus k).stateError).focus s.core.id
      | none => u)

end Sys2Proof.Machine
end

