-- ==== Sys2Proof/Machine/Packets.lean ====
section
/-!
DEFINITION. Packets: the validator and the meaning of each (R326 to R331, R337 to R340, R344 to R352, R361).
The queue that runs the packet is input a.
-/
namespace Sys2Proof.Machine

/-! ### The validator (R340) -/

/-- Word i of a body, and the address at words i and i + 1. -/
def bw (b : List Word32) (i : Nat) : Nat := (b[i]?.getD 0).toNat
def ba (b : List Word32) (i : Nat) : Nat := bw b i + 2 ^ 32 * bw b (i + 1)

/-- A packet of a running queue: its opcode, its format and its regions are checked in order, then it acts. -/
def State.runPacket (s : State) (op : Nat) (body : List Word32) (format : Bool) (regions : HubQueue → Bool)
    (act : Nat → State → State) : Answer :=
  let q := s.input.a
  let z := s.queue q
  if z.mode ≠ 1 ∨ !s.qpReady q ∨ s.recovery then .next s
  else if 14 ≤ op ∨ !z.allows op then .next (s.haltAt q 0x41 op)
  else if z.left < body.length + 1 then .next (if z.atZero then s else s.haltAt q 0x42 0)
  else if !format then .next (s.haltAt q 0x42 0)
  else if !regions z then .next (s.haltAt q 0x43 0)
  else .next (act q s)

def noRegion (_ : HubQueue) : Bool := true
def region (a n : Nat) (z : HubQueue) : Bool := (inRange z.active a n).isSome

/-- A breach of a limit that is checked as the packet executes (R328, R337). -/
def State.breach (s : State) (q : Nat) : State := s.haltAt q 0x42 0

/-- A word of memory, read at the home. -/
def State.memWord (s : State) (q a : Nat) : Except HubStop (Word32 × State) :=
  match s.qRead q a 4 with
  | .error e => .error e
  | .ok r => wordOrPoison none r

/-- The conditions of `cond` and `waitmem`. -/
def holds (code : Nat) (m r : Word32) : Bool :=
  match code with
  | 0 => m == r
  | 1 => m != r
  | 2 => r.toNat ≤ m.toNat
  | _ => m.toNat < r.toNat

/-! ### Data packets (R328, R337, R338) -/

def execPktNop (b : List (BitVec 32)) (s : State) : Answer :=
  s.runPacket 0 b true noRegion fun q t => t.retirePacket q (b.length + 1)

def writeLen (b : List Word32) : Bool := 3 ≤ b.length && b.length ≤ 1026

def execPktWrite (b : List (BitVec 32)) (s : State) : Answer :=
  s.runPacket 1 b (writeLen b) (region (ba b 0) (4 * (b.length - 2))) fun q t =>
    if ba b 0 % 4 ≠ 0 then t.breach q
    else match t.qWrite q (ba b 0) ((b.drop 2).flatMap fun w => leBytes 4 w.toNat) with
      | .ok u => u.retirePacket q (b.length + 1)
      | .error e => t.stopPacket q e

/-- One word added, as one read-modify-write at its home, which may be another node's. -/
def State.addWord (s : State) (q a : Nat) (w : Word32) : Except HubStop State :=
  let z := s.queue q
  match s.hubPlace (s.rootsOf z.asid) (z.hostAt a 4) a true with
  | .error e => .error (.cause e.1 e.2 none)
  | .ok (p, t) => match t.targetOf p.space p.pa with
    | .pod node off =>
      if t.hubAdded (hubAgent q) node off then .ok t
      else .error (.ask ⟨0, hubAgent q, node, off, .atomic 10, leBytes 4 w.toNat, t.hub.hubClk, false, false, false, 0⟩)
    | _ => match s.qRead q a 4 with
      | .error e => .error e
      | .ok r => r.2.qWrite q a (leBytes 4 ((leNat r.1.1 + w.toNat) % 2 ^ 32))

/-- Words added at addresses upward. -/
def State.addWords (s : State) (q a : Nat) : List Word32 → Except HubStop State
  | [] => .ok s
  | w :: ws => match s.addWord q a w with
    | .error e => .error e
    | .ok t => t.addWords q (a + 4) ws

def execPktWriteAdd (b : List (BitVec 32)) (s : State) : Answer :=
  s.runPacket 1 b (writeLen b) (region (ba b 0) (4 * (b.length - 2))) fun q t =>
    if ba b 0 % 4 ≠ 0 then t.breach q
    else match t.addWords q (ba b 0) (b.drop 2) with
      | .ok u => u.retirePacket q (b.length + 1)
      | .error e => t.stopPacket q e

/-- `waitmem` completes at the first read at which its condition holds. -/
def execPktWaitmem (c : BitVec 8) (b : List (BitVec 32)) (s : State) : Answer :=
  s.runPacket 2 b (b.length == 5 && c.toNat < 4) (region (ba b 0) 4) fun q t =>
    if ba b 0 % 4 ≠ 0 then t.breach q
    else match t.memWord q (ba b 0) with
      | .error e => t.stopPacket q e
      | .ok (m, u) => if holds c.toNat (m &&& b[3]?.getD 0) (b[2]?.getD 0) then u.retirePacket q 6 else (u.hubDone (hubAgent q)).waitPacket q

/-- Has the `waitmem` at the queue's place outlasted its bound? -/
def HubQueue.waitedOut (z : HubQueue) (now : Nat) (ws : List Word32) : Bool :=
  field (ws.headD 0) 24 8 == 2 && bw ws 5 != 0 && z.wait.any fun w => w + 1024 * bw ws 5 ≤ now

/-- The words that the queue runs: as fetched, or as its program has rewritten them. -/
def State.currentWords (s : State) (q : Nat) : List Word32 :=
  match (s.queue q).run with
  | some r => r.words
  | none => match s.packetWords q with
    | .ok (some ws, _) => ws
    | _ => []

/-- A `waitmem` that has passed its timeout halts its queue, but where its condition holds at the read of that moment. -/
def execWaitmemTimeout (s : State) : Answer :=
  let q := s.input.a
  let z := s.queue q
  let ws := s.currentWords q
  if z.mode ≠ 1 ∨ !z.waitedOut s.hub.hubClk ws then .next s
  else match s.memWord q (ba ws 1) with
    | .ok (m, u) => if holds (field (ws.headD 0) 16 8) (m &&& ws[4]?.getD 0) (ws[3]?.getD 0) then .next (u.retirePacket q 6) else .next (s.haltAt q 0x44 0)
    | .error (.ask _) => .next (s.haltAt q 0x44 0)
    | .error e => .next (s.stopPacket q e)

/-! ### Control packets (R328, R329) -/

/-- Does a walk over n words by their headers, k words after the packet's own, end on a packet boundary?  The fuel is n. -/
def State.walkHeaders (s : State) (q : Nat) : Nat → Nat → Nat → Except HubStop (Bool × State)
  | 0, _, n => .ok (n == 0, s)
  | f + 1, k, n =>
    if n = 0 then .ok (true, s)
    else match s.qWords q k 1 with
      | .error e => .error e
      | .ok (hs, t) =>
        let m := field (hs.headD 0) 0 16 + 1
        if n < m then .ok (false, t) else t.walkHeaders q f (k + m) (n - m)

/-- `cond` runs the next n words, or passes over them. -/
def execPktCond (c : BitVec 8) (b : List (BitVec 32)) (s : State) : Answer :=
  s.runPacket 3 b (b.length == 4 && c.toNat < 4) (region (ba b 0) 4) fun q t =>
    let n := bw b 3
    if (t.queue q).left < 5 + n then (if (t.queue q).atZero then t.waitPacket q else t.breach q)
    else match t.walkHeaders q n 5 n with
      | .error e => t.stopPacket q e
      | .ok (false, u) => u.breach q
      | .ok (true, u) => match u.memWord q (ba b 0) with
        | .error e => u.stopPacket q e
        | .ok (m, v) => v.retirePacket q (if holds c.toNat m (b[2]?.getD 0) then 5 else 5 + n)

/-- `ib` runs a buffer at the next level. -/
def execPktIb (b : List (BitVec 32)) (s : State) : Answer :=
  let n := bw b 2 % 2 ^ 20
  s.runPacket 4 b (b.length == 3) (region (ba b 0) (4 * n)) fun q t =>
    if n = 0 ∨ 2 ≤ (t.queue q).level then t.breach q
    else t.pushLevel q ⟨false, ba b 0, n, 0, 0, [], []⟩

/-- May a list of words be a loop's body: packets that end where it ends, no `loop`, no `ffence`, no `cond` that passes
its end?  The fuel is its length. -/
def bodyOk : Nat → List Word32 → Bool
  | _, [] => true
  | 0, _ => false
  | f + 1, h :: ws =>
    let n := field h 0 16
    let op := field h 24 8
    n ≤ ws.length && op != 5 && op != 10 && !(op == 3 && ws.length < 4 + bw ws 3) && bodyOk f (ws.drop n)

/-- `loop` holds the next n words and runs them c times. -/
def execPktLoop (b : List (BitVec 32)) (s : State) : Answer :=
  s.runPacket 5 b (b.length == 2) noRegion fun q t =>
    let n := bw b 0
    let c := bw b 1
    if n = 0 ∨ 256 < n ∨ 65535 < c then t.breach q
    else if (t.queue q).left < 3 + n then (if (t.queue q).atZero then t.waitPacket q else t.breach q)
    else match t.qWords q 3 n with
      | .error e => t.stopPacket q e
      | .ok (ws, u) =>
        if !bodyOk n ws then u.breach q
        else if c = 0 then u.retirePacket q (3 + n)
        else u.pushLevel q ⟨true, 0, n, 0, c, ws, []⟩

/-- `ffence` discards every fetched word of every level. -/
def execPktFfence (s : State) : Answer :=
  s.runPacket 10 [] true noRegion fun q t =>
    (t.retirePacket q 1).modQueue q fun z => { z with levels := z.levels.map fun l => { l with fetched := [] } }

/-- `fence` waits until every invocation of the queue has ended. -/
def execPktFence (s : State) : Answer :=
  s.runPacket 9 [] true noRegion fun q t =>
    if t.hub.invocations.any fun v => v.queue == q then t.waitPacket q else t.retirePacket q 1

/-- The record that a packet writes is taken as it begins. -/
def State.takeRecord (s : State) (q : Nat) (bs : List Byte) : State :=
  s.modQueue q fun z => if z.taken.isEmpty then { z with taken := bs } else z

/-- `event` writes the queue's next record at its home, and then its vector is signalled (R327, R336, R340). -/
def execPktEvent (b : List (BitVec 32)) (s : State) : Answer :=
  s.runPacket 11 b (b.length == 2) noRegion fun q t =>
    let u := t.takeRecord q (t.eventBytes q 1 (ba b 0))
    let z := u.queue q
    match u.qWrite q z.eventAt z.taken with
    | .ok v => ((v.modQueue q fun y => { y with events := y.events + 1 }).signal z.vec).retirePacket q 3
    | .error e => u.stopPacket q e

/-- A header that is no packet halts the queue. -/
def execNotAPacket (h : BitVec 32) (s : State) : Answer :=
  s.runPacket (field h 24 8) [] true noRegion fun q t => t.haltAt q 0x41 (field h 24 8)

/-! ### Slots (R344 to R346) -/

/-- Bytes copied at their homes in pieces of a sector of the destination, each with its mark; the fuel is the number of
pieces. -/
def State.copyHome (s : State) (q : Nat) : Nat → Nat → Nat → Nat → Except HubStop State
  | 0, _, _, _ => .ok s
  | f + 1, dst, src, n =>
    if n = 0 then .ok s
    else
      let k := min n (32 - dst % 32)
      match s.qRead q src k with
      | .error e => .error e
      | .ok r => match r.2.qWrite q dst r.1.1 with
        | .error e => .error e
        | .ok t =>
          let z := t.queue q
          let u := if !r.1.2 then t else match t.hubPlace (t.rootsOf z.asid) (z.hostAt dst k) dst true with
            | .ok (p, v) => if v.targetOf p.space p.pa = .stack then v.setPoison p.space p.view (p.pa / unitOf p.space) true else t
            | .error _ => t
          u.copyHome q f (dst + k) (src + k) (n - k)

/-- Physical pages of 64 KiB of a range. -/
def State.pagesAt (s : State) (q : Nat) : List Nat → Option (List Nat)
  | [] => some []
  | a :: as =>
    match s.hubPlace (s.rootsOf (s.queue q).asid) false a false, s.pagesAt q as with
    | .ok (p, _), some ps => some (p.pa :: ps)
    | _, _ => none

/-- The checks of step 3 of R345: the physical pages of an image that passes; host memory lies in no stack. -/
def State.slotImage (s : State) (q dst len : Nat) : Option (List Nat) :=
  if len % 65536 ≠ 0 ∨ len < 65536 ∨ 48 * 2 ^ 30 < len ∨ dst % 65536 ≠ 0 ∨ (s.queue q).hostAt dst len then none
  else match s.pagesAt q ((List.range (len / 65536)).map fun i => dst + 65536 * i), s.qRead q (dst + 0x2000) 256 with
    | some ps, .ok ((d, false), _) =>
      let one := (ps.map stackOf).all fun x => x.isSome && x == (ps.head?.bind stackOf)
      if one && Kernel.wellFormed d && Kernel.textLen d + 0x2000 ≤ len then some ps else none
    | _, _ => none

/-- Is nothing in flight against a slot (R199, R345)? -/
def State.slotFree (s : State) (n : Nat) : Bool := s.slotRefs n == 0 && (s.slot n).infl == 0

/-- Steps 2 to 5 of `loadslot`. -/
def State.loadSlot (s : State) (q n dst src len : Nat) : State :=
  let empty (t : State) : State := t.modSlot n fun _ => ModelSlot.reset
  match s.copyHome q (len / 32 + 2) dst src len with
  | .error (.ask r) => s.stopPacket q (.ask r)
  | .error e => (empty s).stopPacket q e
  | .ok t => match t.slotImage q dst len with
    | none => (empty t).haltAt q 0x47 n
    | some ps => (t.modSlot n fun x => { x with state := .loaded, base := dst, phys := ps, len := len, stack := ps.headD 0 / 2 ^ 36, infl := 0 }).retirePacket q 8

/-- `loadslot`: the slot is LOADING from the turn in which it is free until the image has been copied and checked. -/
def execPktLoadslot (b : List (BitVec 32)) (s : State) : Answer :=
  let n := bw b 0 % 64
  let len := ba b 5
  s.runPacket 6 b (b.length == 7 && bw b 0 < 64) (fun z => region (ba b 1) len z && region (ba b 3) len z) fun q t =>
    let x := t.slot n
    if x.state = .loading ∧ x.owner = q then t.loadSlot q n (ba b 1) (ba b 3) len
    else if x.state = .empty ∨ (x.state = .loaded ∧ t.slotFree n) then
      (t.modSlot n fun x => { ModelSlot.reset with state := .loading, owner := q, base := x.base, len := x.len }).waitPacket q
    else t.waitPacket q

/-- `evictslot` waits with EVICTING set while the slot is in use. -/
def execPktEvictslot (b : List (BitVec 32)) (s : State) : Answer :=
  let n := bw b 0 % 64
  s.runPacket 7 b (b.length == 1 && bw b 0 < 64) noRegion fun q t =>
    let x := t.slot n
    let gone (t : State) : State := (t.modSlot n fun _ => ModelSlot.reset).retirePacket q 2
    match x.state with
    | .empty => gone t
    | .loaded => if t.slotFree n then gone t else (t.modSlot n fun x => { x with state := .evicting, owner := q }).waitPacket q
    | .evicting => if x.owner = q ∧ t.slotFree n then gone t else t.waitPacket q
    | .loading => t.waitPacket q

/-! ### `invoke` (R331, R347) -/

/-- The invocation's record is taken, the slot referenced and the launch enqueued. -/
def State.invoke (s : State) (q : Nat) (b : List Word32) : State :=
  let n := bw b 0 % 64
  let id := s.hub.nextInv
  let v : Invocation := ⟨id, q, (s.queue q).here, b, 0, n, none, []⟩
  let t := (s.modHub fun h => { h with nextInv := id + 1, invocations := h.invocations ++ [v] }).modSlot n fun x => { x with infl := x.infl + 1 }
  (t.launchInvocation v).retirePacket q (b.length + 1)

/-- Does an `invoke` body keep its form? -/
def invokeForm (b : List Word32) : Bool :=
  let w := b.headD 0
  let n := field w 8 5
  n ≤ 16 && b.length == 1 + 2 * n && field w 13 3 == 0 && field w 24 8 == 0

/-- The buffers lie in the ranges; an address of 0 passes. -/
def buffersIn (b : List Word32) (z : HubQueue) : Bool :=
  (List.range ((b.length - 1) / 2)).all fun i => ba b (1 + 2 * i) == 0 || region (ba b (1 + 2 * i)) 8 z

def execPktInvoke (b : List (BitVec 32)) (s : State) : Answer :=
  s.runPacket 8 b (invokeForm b) (buffersIn b) fun q t =>
    let w := b.headD 0
    let n := field w 0 6
    let die := field w 21 3
    match (t.slot n).state with
    | .loading => t.waitPacket q
    | .loaded =>
      if !t.dieReady die ∨ !(t.tqOf die (field w 16 5)).enabled ∨
          256 ≤ (t.hub.invocations.filter fun v => v.queue / 16 == q / 16).length then t.waitPacket q
      else match t.invokeAsk q n b with
        | some r => t.stopPacket q (.ask r)
        | none => t.invoke q b
    | _ => if !t.dieReady die then t.waitPacket q else t.haltAt q 0x48 n

/-! ### The summary (R350 to R352) -/

def FaultRecord.bytes (r : FaultRecord) : List Byte :=
  leBytes 4 r.code ++ leBytes 4 r.core ++ leBytes 1 0 ++ leBytes 1 r.eng ++ leBytes 2 r.rp ++ leBytes 2 r.wp ++ leBytes 2 r.fp ++
    leBytes 8 r.header ++ leBytes 8 r.clk

def State.queueEntry (s : State) (q : Nat) (rp last : Nat) : List Byte :=
  let z := s.queue q
  leBytes 4 rp ++ leBytes 4 z.wp.toNat ++ leBytes 8 last ++ leBytes 2 0 ++ leBytes 1 z.level ++ leBytes 1 z.mode ++
    leBytes 2 (s.hub.invocations.filter fun v => v.queue == q).length ++ leBytes 2 z.cause ++ leBytes 4 z.gen ++ leBytes 4 0

def SlotState.number : SlotState → Nat
  | .empty => 0
  | .loading => 1
  | .loaded => 2
  | .evicting => 3

def ModelSlot.bytes (x : ModelSlot) : List Byte :=
  leBytes 8 x.base ++ leBytes 1 x.state.number ++ leBytes 1 x.stack ++ leBytes 2 x.infl ++ leBytes 4 (x.len / 65536)

/-- The summary; the queue that asks for it shows RP past its packet and LAST at it. -/
def State.summary (s : State) (own : Option (Nat × Nat × Nat)) : List Byte :=
  let entry (q : Nat) : List Byte := match own with
    | some o => if o.1 = q then s.queueEntry q o.2.1 o.2.2 else s.queueEntry q (s.queue q).rp.toNat (s.queue q).last.toNat
    | none => s.queueEntry q (s.queue q).rp.toNat (s.queue q).last.toNat
  padTo 64 (leBytes 4 1 ++ leBytes 4 0x2C80 ++ leBytes 8 s.hub.hubClk ++ leBytes 4 s.hub.faults.length) ++
  padTo 64 (leBytes 8 (s.hub.fw.rdy.toNat % 2 ^ 41)) ++ (List.range 256).flatMap entry ++
  s.hub.slots.toList.flatMap ModelSlot.bytes ++ padTo 2048 (s.hub.faults.flatMap FaultRecord.bytes)

def execPktSummary (b : List (BitVec 32)) (s : State) : Answer :=
  s.runPacket 12 b (b.length == 2) (region (ba b 0) 0x2C80) fun q t =>
    let z := t.queue q
    let rp := if z.atZero then (z.rp + 3).toNat else z.rp.toNat
    let u := t.takeRecord q (t.summary (some (q, rp, z.here)))
    match u.qWrite q (ba b 0) (u.queue q).taken with
    | .ok v => v.retirePacket q 3
    | .error e => u.stopPacket q e

/-! ### `qcb` (R361) -/

/-- The queue of the same processor that a `qcb` packet names, and whether it may reach it. -/
def peer (q : Nat) (b : List Word32) : Nat := 16 * (q / 16) + bw b 0 % 16
def managed (b : List Word32) (z : HubQueue) : Bool := z.mgmt (bw b 0 % 16)

def execPktQcbSh (b : List (BitVec 32)) (s : State) : Answer :=
  let n := b.length - 2
  s.runPacket 13 b (3 ≤ b.length && n ≤ 64) (managed b) fun q t =>
    if bw b 1 % 4 ≠ 0 ∨ 256 < bw b 1 + 4 * n then t.breach q
    else (t.qcbPut (peer q b) (.write (bw b 1) ((b.drop 2).flatMap fun w => leBytes 4 w.toNat))).retirePacket q (b.length + 1)

/-- A commit of another queue is waited for; one of the own queue is applied after the packet. -/
def execPktQcbCommit (b : List (BitVec 32)) (s : State) : Answer :=
  s.runPacket 13 b (b.length == 3) (managed b) fun q t =>
    let p := peer q b
    let w : Word := BitVec.ofNat 64 (ba b 1)
    if p = q then (t.qcbPut q (.commit w)).retirePacket q 4
    else if (t.queue q).wait.isNone then (t.qcbPut p (.commit w)).waitPacket q
    else if (t.queue p).pending.isEmpty then t.retirePacket q 4
    else t

def execPktQcbRead (b : List (BitVec 32)) (s : State) : Answer :=
  s.runPacket 13 b (b.length == 3) (fun z => managed b z && region (ba b 1) 256 z) fun q t =>
    let u := t.takeRecord q ((t.queue (peer q b)).active.toList.flatMap fun w => leBytes 8 w.toNat)
    match u.qWrite q (ba b 1) (u.queue q).taken with
    | .ok v => v.retirePacket q 4
    | .error e => u.stopPacket q e

end Sys2Proof.Machine
end

