-- ==== Sys2Proof/Machine/Cricket.lean ====
section
/-!
DEFINITION. Cricket programs: the run on a packet and each instruction (R341 to R343).  The queue that runs is input a.
-/
namespace Sys2Proof.Machine

/-- The run at the start of a packet: c1 holds the header and c2 the level (R341). -/
def CricketRun.start (ws : List Word32) (level : Nat) : CricketRun :=
  ⟨((Vector.replicate 8 0#32).setIfInBounds 1 (ws.headD 0)).setIfInBounds 2 (BitVec.ofNat 32 level), 0, [], 0, ws, false, none, 0⟩

/-- At the end of a body the loop goes round or is left. -/
def CricketRun.settle : List (Nat × Nat × Nat) → CricketRun → CricketRun
  | [], r => { r with loops := [] }
  | l :: ls, r =>
    if r.pc = l.2.1 + 1 then
      (if 1 < l.2.2 then { r with pc := l.1, loops := (l.1, l.2.1, l.2.2 - 1) :: ls } else settle ls r)
    else { r with loops := l :: ls }

def CricketRun.get (r : CricketRun) (c : BitVec 3) : Word32 := r.regs[c.toNat]
def CricketRun.put (r : CricketRun) (c : BitVec 3) (v : Word32) : CricketRun := { r with regs := r.regs.set c.toNat v }

/-- One instruction of a run: it counts one step and moves on, unless the verdict is reached or no step is left. -/
def State.cricketStep (s : State) (f : CricketRun → Cricket → State → Except HubStop (CricketRun × State)) : Answer :=
  let q := s.input.a
  let z := s.queue q
  match z.run, z.cricket with
  | some r, some c =>
    if z.mode ≠ 1 ∨ r.verdict.isSome ∨ 512 ≤ r.steps then .next s
    else match f { r with pc := r.pc + 1, steps := r.steps + 1 } c s with
      | .error (.ask r) => .next (s.podAsk r)
      | .error e => .next (s.stopPacket q e)
      | .ok (r1, t) => .next ((t.hubDone (hubAgent q)).modQueue q fun z => { z with run := some (r1.settle r1.loops) })
  | _, _ => .next s

/-- An instruction that works on the registers only. -/
def State.cricketReg (s : State) (f : CricketRun → CricketRun) : Answer := s.cricketStep fun r _ t => .ok (f r, t)

/-- Words of the packet, its header among them. -/
def CricketRun.length (r : CricketRun) : Nat := field (r.words.headD 0) 0 16 + 1

/-- The verdict: a halt stops the queue with its code, a skip retires the packet without effect; one that the ring cannot hold is
malformed (assumption 39). -/
def execCricketHalt (c : BitVec 16) (v : BitVec 2) (s : State) : Answer :=
  let q := s.input.a
  match (s.queue q).run with
  | none => .next s
  | some r =>
    if (s.queue q).mode ≠ 1 ∨ r.verdict.isSome ∨ 512 ≤ r.steps then .next s
    else match v.toNat with
      | 0 => .next (s.modQueue q fun z => { z with run := some { r with steps := r.steps + 1, verdict := some 0 } })
      | 1 =>
        let n := r.length
        .next (if (s.queue q).left < n && (s.queue q).atZero then s.haltAt q 0x42 0 else s.retirePacket q n)
      | _ => .next (s.haltAt q 0x45 c.toNat)

def execCricketLi (d : BitVec 3) (i : BitVec 20) (s : State) : Answer := s.cricketReg fun r => r.put d (i.signExtend 32)
def execCricketLhi (d : BitVec 3) (i : BitVec 16) (s : State) : Answer :=
  s.cricketReg fun r => r.put d ((r.get d &&& 0xFFFF#32) ||| (i.setWidth 32 <<< 16))
def execCricketAdd (d a b : BitVec 3) (s : State) : Answer := s.cricketReg fun r => r.put d (r.get a + r.get b)
def execCricketSub (d a b : BitVec 3) (s : State) : Answer := s.cricketReg fun r => r.put d (r.get a - r.get b)
def execCricketAnd (d a b : BitVec 3) (s : State) : Answer := s.cricketReg fun r => r.put d (r.get a &&& r.get b)
def execCricketOr (d a b : BitVec 3) (s : State) : Answer := s.cricketReg fun r => r.put d (r.get a ||| r.get b)
def execCricketXor (d a b : BitVec 3) (s : State) : Answer := s.cricketReg fun r => r.put d (r.get a ^^^ r.get b)
def execCricketSltu (d a b : BitVec 3) (s : State) : Answer :=
  s.cricketReg fun r => r.put d (if (r.get a).toNat < (r.get b).toNat then 1 else 0)
def execCricketAddi (d a : BitVec 3) (i : BitVec 20) (s : State) : Answer := s.cricketReg fun r => r.put d (r.get a + i.signExtend 32)
def execCricketShli (d a : BitVec 3) (n : BitVec 5) (s : State) : Answer := s.cricketReg fun r => r.put d (r.get a <<< n.toNat)
def execCricketShri (d a : BitVec 3) (n : BitVec 5) (s : State) : Answer := s.cricketReg fun r => r.put d (r.get a >>> n.toNat)

/-- A word of the packet; 0 beyond it. -/
def execCricketPkt (d : BitVec 3) (n : BitVec 10) (s : State) : Answer := s.cricketReg fun r => r.put d (r.words[n.toNat]?.getD 0)

/-- A body word replaced for this execution. -/
def execCricketSetpkt (a : BitVec 3) (n : BitVec 10) (s : State) : Answer :=
  s.cricketReg fun r => if n = 0#10 then r else { r with words := r.words.set n.toNat (r.get a), changed := true }

/-- Address of word i of a window; none where there is no such window. -/
def Cricket.wordAt (c : Cricket) (w i : Nat) : Option Nat := (c.windows[w]?).map fun x => x.1 + 4 * i

/-- A window word read, and written, at its home. -/
def windowRead (d : BitVec 3) (w : Nat) (i : CricketRun → Cricket → Nat) (s : State) : Answer :=
  s.cricketStep fun r c t => match c.wordAt w (i r c) with
    | none => .ok (r, t)
    | some a => match t.memWord t.input.a a with
      | .error e => .error e
      | .ok (v, u) => .ok (r.put d v, u)
def windowWrite (v : CricketRun → Word32) (w : Nat) (i : CricketRun → Cricket → Nat) (s : State) : Answer :=
  s.cricketStep fun r c t => match c.wordAt w (i r c) with
    | none => .ok (r, t)
    | some a => match t.qWrite t.input.a a (leBytes 4 (v r).toNat) with
      | .error e => .error e
      | .ok u => .ok (r, u)

def execCricketLd (d : BitVec 3) (w : BitVec 2) (o : BitVec 12) (s : State) : Answer := windowRead d w.toNat (fun _ _ => o.toNat) s
def execCricketSt (a : BitVec 3) (w : BitVec 2) (o : BitVec 12) (s : State) : Answer :=
  windowWrite (fun r => r.get a) w.toNat (fun _ _ => o.toNat) s
def execCricketLdr (d a : BitVec 3) (w : BitVec 2) (s : State) : Answer :=
  windowRead d w.toNat (fun r c => (r.get a).toNat % c.wordsOf w.toNat) s
def execCricketStr (a b : BitVec 3) (w : BitVec 2) (s : State) : Answer :=
  windowWrite (fun r => r.get b) w.toNat (fun r c => (r.get a).toNat % c.wordsOf w.toNat) s

/-- A branch skips to the word off ahead of itself. -/
def execCricketBz (a : BitVec 3) (o : BitVec 20) (s : State) : Answer :=
  s.cricketReg fun r => if r.get a = 0 then { r with pc := r.pc - 1 + o.toNat } else r
def execCricketBnz (a : BitVec 3) (o : BitVec 20) (s : State) : Answer :=
  s.cricketReg fun r => if r.get a ≠ 0 then { r with pc := r.pc - 1 + o.toNat } else r

/-- A loop runs the next l instructions n + 1 times. -/
def execCricketLoop (n : BitVec 8) (l : BitVec 12) (s : State) : Answer :=
  s.cricketReg fun r => { r with loops := (r.pc, r.pc + l.toNat - 1, n.toNat + 1) :: r.loops }

/-- The 513th step halts the queue, and the packet does not run. -/
def execCricketBudgetExceeded (s : State) : Answer :=
  let q := s.input.a
  match (s.queue q).run with
  | none => .next s
  | some r => .next (if (s.queue q).mode = 1 ∧ r.verdict.isNone ∧ 512 ≤ r.steps then s.haltAt q 0x46 0 else s)

end Sys2Proof.Machine
end

