-- ==== Sys2Proof/Machine/Firmware.lean ====
section
/-!
DEFINITION. Firmware: reset of the hub, the boot, the mailbox and the ready bits (R92, R362, R363, R397, R419, R422,
R428 to R430).
-/
namespace Sys2Proof.Machine

/-! ### Images in flash (R362) -/

def flashAt (slot : Nat) : Nat := slot * 2 ^ 24

/-- Bytes of an image: n at offset o from a place. -/
def imageBytes (m : List Host.Cell) (a o n : Nat) : List Byte := Cells.read m (a + o) n
def imageNat (m : List Host.Cell) (a o n : Nat) : Nat := leNat (imageBytes m a o n)
def imageLen (m : List Host.Cell) (a : Nat) : Nat := imageNat m a 12 4
def imageVersion (m : List Host.Cell) (a : Nat) : Nat := imageNat m a 8 4

/-- Is the image at a place good: the key is the fused one, digest and signature verify, the version suffices? -/
def goodImage (m : List Host.Cell) (a : Nat) : Bool :=
  let body := imageBytes m a 512 (imageLen m a)
  let key := imageBytes m a 104 96
  Config.sha384 key == Config.fusedKeyHash && Config.sha384 body == imageNat m a 56 48 &&
  Config.p384Verify key (imageBytes m a 0 200 ++ body) (imageBytes m a 200 96) && Config.fusedMinVersion ≤ imageVersion m a

/-- The slot that the boot ROM boots: the good one with the higher version, A when they are equal. -/
def bootSlot (m : List Host.Cell) : Option Nat :=
  match goodImage m (flashAt 0), goodImage m (flashAt 1) with
  | true, true => some (if imageVersion m (flashAt 0) < imageVersion m (flashAt 1) then 1 else 0)
  | true, false => some 0
  | false, true => some 1
  | false, false => none

/-! ### Reset and boot (R362, R419, R428) -/

/-- A core as the hub's reset leaves it: `rplstat` stands until power-up. -/
def Core.hubReset (c : Core) : Core :=
  let r := Core.reset c.id
  { r with regs := { r.regs with rplstat := c.regs.rplstat } }

/-- THE HUB RESETS: registers and queues as at reset, its count of clk from 0 (R1), memories and flash as they were; then the boot ROM boots the good
slot, whose firmware gives the node number and the root tables, or the hub enters recovery. -/
def State.hubBoot (s : State) : State :=
  let r := State.reset
  let f := s.hub.fw
  let ok := (bootSlot f.flash).isSome
  let rdy : Word := if ok then 0 else 0x8000000000000001#64
  let fw : Firmware := ⟨f.flash, f.staging, 0, f.buffer, rdy, if ok then Config.roots s.fresh else [], ok⟩
  let p := r.share.pack
  let node := field (Config.freeWord (s.fresh + 1)) 0 16
  let pack := if ok then { p with ualnode := setField p.ualnode 0 16 node } else p
  { r with
    core := s.core.hubReset, parked := s.parked.map Core.hubReset, share := { r.share with pack := pack },
    hub := { r.hub with fw := fw, throttle := s.hub.throttle },
    mem := s.mem, agenda := s.agenda, rota := s.rota, late := s.late, clk := s.clk, fresh := s.fresh + 2 }

def execHubReset (s : State) : Answer := .next s.hubBoot

/-! ### The mailbox (R363) -/

/-- `mbox` after a command: ARG and STATUS. -/
def State.mboxDone (s : State) (arg status : Nat) : State :=
  s.modHub fun h => { h with fw := { h.fw with mbox := BitVec.ofNat 64 (arg % 2 ^ 32 * 2 ^ 32 + status * 2 ^ 16) } }

/-- Bytes of CMD that no command has: 0x01 is this row's, and 0 in the input stands for it; 0x10 to 0x12 are other rows'. -/
def otherCmd (b : Nat) : Bool := !([0, 1, 0x10, 0x11, 0x12].contains (b % 256))

/-- The summary goes into the buffer while firmware runs; any other command, which input b names, is refused with STATUS 3
(assumption 43). -/
def execMboxSummary (s : State) : Answer :=
  let a := s.input.a
  if !s.hub.fw.running || s.recovery || otherCmd s.input.b then .next (s.mboxDone a 3)
  else
    let t := s.modHub fun h => { h with fw := { h.fw with buffer := Cells.write h.fw.buffer 0 (s.summary none) } }
    .next (t.mboxDone a 2)

/-- The buffer, with what the host has just written into it, is staged at offset ARG times 64 KiB; ARG is input a. -/
def execMboxStage (s : State) : Answer :=
  let a := s.input.a % 2 ^ 32
  let buf := Cells.write s.hub.fw.buffer 0 (s.input.bytes.take 65536)
  let t := s.modHub fun h => { h with fw := { h.fw with buffer := buf, staging := Cells.place buf 0 65536 h.fw.staging (a * 65536) } }
  .next (t.mboxDone a 2)

/-- A good staged image is written to slot ARG bit 0; any other leaves both slots unchanged. -/
def execMboxVerifyWrite (s : State) : Answer :=
  let a := s.input.a
  let m := s.hub.fw.staging
  if goodImage m 0 then
    let t := s.modHub fun h => { h with fw := { h.fw with flash := Cells.place m 0 (512 + imageLen m 0) h.fw.flash (flashAt (a % 2)) } }
    .next (t.mboxDone a 2)
  else .next (s.mboxDone a 4)

def execMboxResetBoot (s : State) : Answer := .next s.hubBoot

/-! ### Ready bits (R428 to R430) -/

/-- Doorbells that were recorded for a queue processor are applied. -/
def State.applyHeld (s : State) (p : Nat) : State :=
  (List.range 16).foldl (fun t i =>
    let q := 16 * p + i
    match (t.queue q).held with
    | some wp => (t.modQueue q fun z => { z with held := none }).setWp q wp
    | none => t) s

/-- The function with ready bit a has passed its initialisation; in recovery only the host link has one. -/
def execFunctionReady (s : State) : Answer :=
  let a := s.input.a
  if 40 < a ∨ (s.recovery ∧ a ≠ 0) then .next s
  else
    let t := s.modHub fun h => { h with fw := { h.fw with rdy := setField h.fw.rdy a 1 1 } }
    .next (if 25 ≤ a then t.applyHeld (a - 25) else t)

end Sys2Proof.Machine
end

