-- ==== Sys2Proof/Machine/Integer.lean ====
section
/-!
DEFINITION. Integer arithmetic of the shared control subset (R54, R55, R71, R72, R98).
-/
namespace Sys2Proof.Machine

/-! ### Values (R71) -/

namespace Alu

def ofInt (i : Int) : Word := BitVec.ofInt 64 i

def min (a b : Word) : Word := if a.slt b then a else b
def max (a b : Word) : Word := if a.slt b then b else a
def minu (a b : Word) : Word := if a.ult b then a else b
def maxu (a b : Word) : Word := if a.ult b then b else a

/-- The shift amount b[5:0]. -/
def amount (b : Word) : Nat := field b 0 6

def shl (a b : Word) : Word := a <<< amount b
def shr (a b : Word) : Word := a >>> amount b
def sra (a b : Word) : Word := a.sshiftRight (amount b)

/-- Bits [127:64] of the signed and of the unsigned product. -/
def mulh (a b : Word) : Word := ofInt (a.toInt * b.toInt / 2 ^ 64)
def mulhu (a b : Word) : Word := BitVec.ofNat 64 (a.toNat * b.toNat / 2 ^ 64)

/-- A signed result clamped to -2^63 .. 2^63 - 1. -/
def clamp (i : Int) : Word :=
  if i > 2 ^ 63 - 1 then ofInt (2 ^ 63 - 1) else if i < -2 ^ 63 then ofInt (-2 ^ 63) else ofInt i

/-- An unsigned result clamped to 0 .. 2^64 - 1. -/
def clampU (i : Int) : Word := if i > 2 ^ 64 - 1 then ofInt (2 ^ 64 - 1) else if i < 0 then 0 else ofInt i

def adds (a b : Word) : Word := clamp (a.toInt + b.toInt)
def subs (a b : Word) : Word := clamp (a.toInt - b.toInt)
def addus (a b : Word) : Word := clampU ((a.toNat : Int) + b.toNat)
def subus (a b : Word) : Word := clampU ((a.toNat : Int) - b.toNat)

def sextb (a : Word) : Word := signExt (bits a 0 8)
def sexth (a : Word) : Word := signExt (bits a 0 16)
def sextw (a : Word) : Word := signExt (bits a 0 32)

/-- Number of leading zero bits; 64 when a = 0. -/
def clz (a : Word) : Word := if a = 0 then 64 else BitVec.ofNat 64 (63 - a.toNat.log2)

/-- Number of 1 bits. -/
def popc (a : Word) : Word := BitVec.ofNat 64 (popCount 64 a.toNat)

end Alu

/-! ### The forms -/

/-- d := f a b, both sources registers; field a is read before field b (R22). -/
def aluRR (e : BitVec 1) (d a b : BitVec 6) (f : Word → Word → Word) : M Flow := do
  let x ← rd e a
  let y ← rd e b
  wr e d (f x y)
  return .seq

/-- d := f a imm, with the sign-extended IMM12 (R55). -/
def aluRI (e : BitVec 1) (d a : BitVec 6) (i : BitVec 12) (f : Word → Word → Word) : M Flow := do
  let x ← rd e a
  wr e d (f x (imm12 i))
  return .seq

/-- d := f a n, with the shift amount n (R55). -/
def aluShift (e : BitVec 1) (d a n : BitVec 6) (f : Word → Word → Word) : M Flow := do
  let x ← rd e a
  wr e d (f x (zeroExt n))
  return .seq

/-- d := f a (R71). -/
def aluR (e : BitVec 1) (d a : BitVec 6) (f : Word → Word) : M Flow := do
  let x ← rd e a
  wr e d (f x)
  return .seq

/-! ### The instructions (R71) -/

def execAdd (e : BitVec 1) (d a b : BitVec 6) (s : State) : Answer :=
  runShared (.add e d a b) (aluRR e d a b (· + ·)) s

def execSub (e : BitVec 1) (d a b : BitVec 6) (s : State) : Answer :=
  runShared (.sub e d a b) (aluRR e d a b (· - ·)) s

def execAnd (e : BitVec 1) (d a b : BitVec 6) (s : State) : Answer :=
  runShared (.and e d a b) (aluRR e d a b (· &&& ·)) s

def execOr (e : BitVec 1) (d a b : BitVec 6) (s : State) : Answer :=
  runShared (.or e d a b) (aluRR e d a b (· ||| ·)) s

def execXor (e : BitVec 1) (d a b : BitVec 6) (s : State) : Answer :=
  runShared (.xor e d a b) (aluRR e d a b (· ^^^ ·)) s

def execAndn (e : BitVec 1) (d a b : BitVec 6) (s : State) : Answer :=
  runShared (.andn e d a b) (aluRR e d a b (fun x y => x &&& ~~~y)) s

def execShl (e : BitVec 1) (d a b : BitVec 6) (s : State) : Answer :=
  runShared (.shl e d a b) (aluRR e d a b Alu.shl) s

def execShr (e : BitVec 1) (d a b : BitVec 6) (s : State) : Answer :=
  runShared (.shr e d a b) (aluRR e d a b Alu.shr) s

def execSra (e : BitVec 1) (d a b : BitVec 6) (s : State) : Answer :=
  runShared (.sra e d a b) (aluRR e d a b Alu.sra) s

def execMin (e : BitVec 1) (d a b : BitVec 6) (s : State) : Answer :=
  runShared (.min e d a b) (aluRR e d a b Alu.min) s

def execMax (e : BitVec 1) (d a b : BitVec 6) (s : State) : Answer :=
  runShared (.max e d a b) (aluRR e d a b Alu.max) s

def execMinu (e : BitVec 1) (d a b : BitVec 6) (s : State) : Answer :=
  runShared (.minu e d a b) (aluRR e d a b Alu.minu) s

def execMaxu (e : BitVec 1) (d a b : BitVec 6) (s : State) : Answer :=
  runShared (.maxu e d a b) (aluRR e d a b Alu.maxu) s

def execMul (e : BitVec 1) (d a b : BitVec 6) (s : State) : Answer :=
  runShared (.mul e d a b) (aluRR e d a b (· * ·)) s

def execMulh (e : BitVec 1) (d a b : BitVec 6) (s : State) : Answer :=
  runShared (.mulh e d a b) (aluRR e d a b Alu.mulh) s

def execMulhu (e : BitVec 1) (d a b : BitVec 6) (s : State) : Answer :=
  runShared (.mulhu e d a b) (aluRR e d a b Alu.mulhu) s

def execAdds (e : BitVec 1) (d a b : BitVec 6) (s : State) : Answer :=
  runShared (.adds e d a b) (aluRR e d a b Alu.adds) s

def execSubs (e : BitVec 1) (d a b : BitVec 6) (s : State) : Answer :=
  runShared (.subs e d a b) (aluRR e d a b Alu.subs) s

def execAddus (e : BitVec 1) (d a b : BitVec 6) (s : State) : Answer :=
  runShared (.addus e d a b) (aluRR e d a b Alu.addus) s

def execSubus (e : BitVec 1) (d a b : BitVec 6) (s : State) : Answer :=
  runShared (.subus e d a b) (aluRR e d a b Alu.subus) s

def execSextb (e : BitVec 1) (d a : BitVec 6) (s : State) : Answer :=
  runShared (.sextb e d a) (aluR e d a Alu.sextb) s

def execSexth (e : BitVec 1) (d a : BitVec 6) (s : State) : Answer :=
  runShared (.sexth e d a) (aluR e d a Alu.sexth) s

def execSextw (e : BitVec 1) (d a : BitVec 6) (s : State) : Answer :=
  runShared (.sextw e d a) (aluR e d a Alu.sextw) s

def execClz (e : BitVec 1) (d a : BitVec 6) (s : State) : Answer :=
  runShared (.clz e d a) (aluR e d a Alu.clz) s

def execPopc (e : BitVec 1) (d a : BitVec 6) (s : State) : Answer :=
  runShared (.popc e d a) (aluR e d a Alu.popc) s

def execAddi (e : BitVec 1) (d a : BitVec 6) (i : BitVec 12) (s : State) : Answer :=
  runShared (.addi e d a i) (aluRI e d a i (· + ·)) s

def execAndi (e : BitVec 1) (d a : BitVec 6) (i : BitVec 12) (s : State) : Answer :=
  runShared (.andi e d a i) (aluRI e d a i (· &&& ·)) s

def execOri (e : BitVec 1) (d a : BitVec 6) (i : BitVec 12) (s : State) : Answer :=
  runShared (.ori e d a i) (aluRI e d a i (· ||| ·)) s

def execXori (e : BitVec 1) (d a : BitVec 6) (i : BitVec 12) (s : State) : Answer :=
  runShared (.xori e d a i) (aluRI e d a i (· ^^^ ·)) s

def execMini (e : BitVec 1) (d a : BitVec 6) (i : BitVec 12) (s : State) : Answer :=
  runShared (.mini e d a i) (aluRI e d a i Alu.min) s

def execMaxi (e : BitVec 1) (d a : BitVec 6) (i : BitVec 12) (s : State) : Answer :=
  runShared (.maxi e d a i) (aluRI e d a i Alu.max) s

def execShli (e : BitVec 1) (d a n : BitVec 6) (s : State) : Answer :=
  runShared (.shli e d a n) (aluShift e d a n Alu.shl) s

def execShri (e : BitVec 1) (d a n : BitVec 6) (s : State) : Answer :=
  runShared (.shri e d a n) (aluShift e d a n Alu.shr) s

def execSrai (e : BitVec 1) (d a n : BitVec 6) (s : State) : Answer :=
  runShared (.srai e d a n) (aluShift e d a n Alu.sra) s

end Sys2Proof.Machine
end

