-- ==== Sys2Proof/Machine/Outside.lean ====
section
/-!
DEFINITION. The host, the pod and the debugger (R92, R110, R214, R216, R298, R300, R314, R365, R368, R407, R408, R420 to R427,
R430).
-/
namespace Sys2Proof.Machine

/-! ### The host (R314, R420, R421, R430) -/

/-- What an offset of BAR0 reaches (R420): the mailbox, the identity words, the mailbox buffer, a doorbell or a control block with its queue. -/
inductive Bar0 where
  | mailbox (off : Nat)
  | identity (off : Nat)
  | buffer (off : Nat)
  | doorbell (queue : Nat)
  | block (queue off : Nat)
deriving DecidableEq, Repr

/-- The map of BAR0, 2 MiB (R334, R353, R363, R420, R428). -/
def bar0 (o : Nat) : Option Bar0 :=
  if o < 8 then some (.mailbox o)
  else if 0x200 ≤ o ∧ o < 0x208 then some (.identity (o - 0x200))
  else if 0x10000 ≤ o ∧ o < 0x20000 then some (.buffer (o - 0x10000))
  else if 0x20000 ≤ o ∧ o < 0x20800 then some (.doorbell ((o - 0x20000) / 8))
  else if 0x100000 ≤ o ∧ o < 0x140000 then some (.block ((o - 0x100000) / 1024) ((o - 0x100000) % 1024))
  else none

/-- The 1,024 bytes of a queue's control block: active, shadow, commit word, status word. -/
def HubQueue.blockBytes (z : HubQueue) : List Byte :=
  padTo 1024 (words8 (z.active.toList.map (·.toNat) ++ z.shadow.toList.map (·.toNat) ++ [z.commit.toNat, z.status.toNat]))

/-- A read of n bytes at an offset of BAR0; in recovery only the mailbox register and the identity words answer, and a doorbell, which the
manual has the host write, reads 0 (R362, assumption 89). -/
def State.bar0Read (s : State) (o n : Nat) : State :=
  let cut (bs : List Byte) (off : Nat) : List Byte := padTo n (bs.drop off)
  match bar0 o with
  | some (.mailbox off) => s.answer (cut (leBytes 8 s.hub.fw.mbox.toNat) off) false false
  | some (.identity off) => s.answer (cut (leBytes 8 s.hub.fw.rdy.toNat) off) false false
  | some (.buffer off) => if s.recovery then s.answer [] false true else s.answer (Cells.read s.hub.fw.buffer off n) false false
  | some (.doorbell _) => if s.recovery then s.answer [] false true else s.answer (List.replicate n 0) false false
  | some (.block q off) => if s.recovery then s.answer [] false true else s.answer (cut (s.queue q).blockBytes off) false false
  | none => s.answer [] false true

/-- The device address of an offset of the host-managed memory. -/
def hdmAddr (o : Nat) : Nat := stackAt (o / (48 * 2 ^ 30)) (o % (48 * 2 ^ 30))

/-- The sectors of a read at the home L2 count there (R109). -/
def State.touchRange (s : State) (sp : Space) (a n : Nat) : State :=
  (sectorsIn a n).foldl (fun t x => t.touchL2 sp false x.1) s

/-- The host holds the device lines that it has read under CXL.mem, until a device write back-invalidates them (R421). -/
def State.hostHolds (s : State) (pa n : Nat) : State :=
  { s with mem := { s.mem with hostHeld := (List.range (ceilDiv (pa % 64 + n) 64)).foldl (fun ls i => insertNat ls (pa / 64 + i)) s.mem.hostHeld } }

/-- A read of b bytes at offset a of the device memory that the host manages, or with c = 1 of BAR0; a stack that is not ready reads as
poisoned. -/
def execHostMemRead (s : State) : Answer :=
  let o := s.input.a
  if s.input.c = 1 then .next (s.bar0Read o s.input.b)
  else if 384 * 2 ^ 30 ≤ o then .next s
  else if !s.stackReady (o / (48 * 2 ^ 30)) then .next (s.answer (List.replicate s.input.b 0) true false)
  else
    let h := s.homeBytes .dev false (hdmAddr o) s.input.b
    .next (((s.touchRange .dev (hdmAddr o) s.input.b).hostHolds (hdmAddr o) s.input.b).answer h.1 h.2 false)

/-- Bytes written from outside, sector by sector, each posted (R314). -/
def State.outsideBytes (s : State) (pa : Nat) (bs : List Byte) : State :=
  ((sectorsIn pa bs.length).foldl (fun (x : State × List Byte) p => (x.1.outsideWrite p.1 (x.2.take p.2), x.2.drop p.2)) (s, bs)).1

/-- A write of the input's bytes at offset a; one to a stack that is not ready is discarded. -/
def execHostMemWrite (s : State) : Answer :=
  let o := s.input.a
  if 384 * 2 ^ 30 ≤ o ∨ !s.stackReady (o / (48 * 2 ^ 30)) then .next s else .next (s.outsideBytes (hdmAddr o) s.input.bytes)

/-- The host writes bytes of its own memory at a: the device's copies of the lines are written back and invalidated before
the write completes (R314, R420). -/
def execHostCacheInvalidate (s : State) : Answer :=
  let a := s.input.a
  let n := s.input.bytes.length
  let hit (x : L1Sector) : Bool := x.space == .host && x.addr / 64 * 64 < a + n && a < x.addr / 64 * 64 + 64
  let back (t : State) (c : Core) : State := (c.order.l1.filter hit).foldl State.writeBack (t.focus c.id)
  let t := (s.cores.foldl back s).focus s.core.id
  let u := t.homeWrite .host false a s.input.bytes
  .next (u.mapCores fun c => { c with order := { c.order with l1 := c.order.l1.filter fun x => !hit x } })

/-! ### Inbound requests (R424, R425) -/

/-- An entry of the inbound table that holds offset x for a peer: its kind and the local address. -/
def inboundEntry (lo hi : Word) (peer x : Nat) : Option (Nat × Nat) :=
  let kind := field lo 0 3
  let off := field lo 32 11 * 2 ^ 21
  let len := field hi 16 20
  if bit lo 3 && (kind == 1 || kind == 2 || kind == 4) && field lo 4 28 == 0 && field lo 43 21 == 0 && field hi 56 8 == 0 &&
      1 ≤ len && len ≤ 2048 && (field hi 0 16 == peer || field hi 0 16 == 0xFFFF) && off ≤ x && x < off + len * 2 ^ 21 then
    some (kind, field hi 36 20 * 2 ^ 32 + (x - off))
  else none

/-- What offset x reaches for a peer: the lowest entry that holds it, in one stack; nothing for a quarantined peer. -/
def State.inbound (s : State) (peer x : Nat) : Option (Nat × Nat) :=
  let cfg := s.share.pack.ualcfg
  let base := field cfg 12 40 * 4096
  if s.share.pack.quarantined.contains peer then none
  else match (List.range (field cfg 0 12)).findSome? fun i => inboundEntry (s.mem.phys8 (base + 16 * i)) (s.mem.phys8 (base + 16 * i + 8)) peer x with
    | some e => if (stackOf e.2).isSome then some e else none
    | none => none

def State.refuseInbound (s : State) : State := s.answer [] false true

/-- A read of c bytes at offset b by peer a: it needs an export. -/
def execInboundRead (s : State) : Answer :=
  match s.inbound s.input.a s.input.b with
  | some (1, pa) => let h := s.homeBytes .dev false pa s.input.c; .next ((s.touchRange .dev pa s.input.c).answer h.1 h.2 false)
  | _ => .next s.refuseInbound

/-- A write at offset b by peer a: it needs a landing window. -/
def execInboundWrite (s : State) : Answer :=
  match s.inbound s.input.a s.input.b with
  | some (2, pa) => .next ((s.outsideBytes pa s.input.bytes).answer [] false false)
  | _ => .next s.refuseInbound

/-- An atomic with op c at offset b by peer a, its operand and the expected value in the bytes: it needs a landing
window, and answers the old value. -/
def execInboundAtomic (s : State) : Answer :=
  match s.inbound s.input.a s.input.b with
  | some (2, pa) =>
    if pa % 8 ≠ 0 then .next s.refuseInbound
    else
      let h := s.homeBytes .dev false pa 8
      let old := leWord h.1
      let x := leWord (s.input.bytes.take 8)
      let e := leWord ((s.input.bytes.drop 8).take 8)
      let t := if !h.2 && amoWrites s.input.c old e then s.outsideWrite pa (leBytes 8 (amoNew s.input.c old x e).toNat) else s.touchL2 .dev false pa
      .next (t.answer h.1 h.2 false)
  | _ => .next s.refuseInbound

/-- Do the words of a notice from another node keep R214, and its names R6? -/
def noticeOk (n : List Word32) : Bool :=
  let w1 := noticeWord n 1
  let grp := bit w1 27
  let nc := field w1 28 3
  let size := noticeSize n
  let rest := (List.range 4).filter fun i => (if grp then 1 else nc) ≤ i
  !bit w1 31 && (if grp then nc == 0 && field (noticeWord n 4) 6 26 == 0 else 1 ≤ nc && nc ≤ 4) && 32 ≤ size && size ≤ 0x800000 &&
  size % 32 == 0 && field (noticeWord n 2) 27 5 == 0 && podNameOk (noticeProd n) && !bit (noticeWord n 3) 23 && noticeOff n % 32 == 0 &&
  noticeOff n + size ≤ 0x800000 && (grp || (List.range nc).all fun i => podNameOk (noticeWord n (4 + i)).toNat) &&
  rest.all fun i => noticeWord n (4 + i) == 0

/-- Does the notice name a consumer? A group's members are not in it. -/
def names (n : List Word32) (consumer : Nat) : Bool :=
  bit (noticeWord n 1) 27 || (List.range (field (noticeWord n 1) 28 3)).any fun i => (noticeWord n (4 + i)).toNat == consumer

/-- Notices that a station holds and no port engine has taken yet. -/
def State.undelivered (s : State) (station : Nat) : Nat :=
  (s.share.ports.flatMap fun x => x.2.outgoing.filter fun c => c.station == station).length

/-- A notice of 32 bytes at offset b by peer a for the core in the low 11 bits of c, a republished copy where bit 11 of c is 1, on the
station in the three bits above: it needs an inbox, room at its station and a good form, and waits for its port engine. -/
def execInboundNotice (s : State) : Answer :=
  let x := s.input
  let core := x.c % 2048
  let n := words32 x.bytes
  match s.inbound x.a x.b with
  | some (4, _) =>
    if x.b % 32 ≠ 0 ∨ x.bytes.length ≠ 32 ∨ !noticeOk n ∨ !coreOk core ∨ !names n (s.podName core) ∨ 64 ≤ s.undelivered (x.c / 4096 % 8) then .next s.refuseInbound
    else
      let p := s.share.port (clusterOf core)
      let t := s.modShare fun h => h.setPort (clusterOf core) { p with outgoing := p.outgoing ++ [⟨s.podName core, n, x.c / 2048 % 2 != 0, x.c / 4096 % 8⟩] }
      .next (t.answer [] false false)
  | _ => .next s.refuseInbound

/-! ### Replies and timeouts (R298, R300, R426) -/

def State.dropPod (s : State) (i : Nat) : State := s.modShare fun h => { h with pod := h.pod.eraseIdx i }

/-- The same request issued twice: once one is answered, nothing waits for the other (R298). -/
def State.superseded (s : State) (r : PodReq) : State :=
  s.modShare fun h => { h with pod := h.pod.map fun q => if q.same r then { q with late := true } else q }

/-- The tuple with which the units of a reply come: that of their pull, or one that follows the data (R298, R299). -/
def tupleOf (bs : List Byte) (len : Nat) (own : Nat × Nat × Nat) : Nat × Nat × Nat :=
  let f (o n : Nat) : Nat := leNat ((bs.drop (len + o)).take n)
  if len + 5 ≤ bs.length then (f 0 2, f 2 2, f 4 1 % 64) else own

/-- The TAG of the producer's entry, which may follow the tuple (R241). -/
def tagOf (bs : List Byte) (len : Nat) (own : Word32) : Word32 :=
  if len + 9 ≤ bs.length then BitVec.ofNat 32 (leNat ((bs.drop (len + 5)).take 4)) else own

/-- A pull of a copy engine learns the TAG of its producer's entry from a reply. -/
def Pull.tagged (p : Pull) (bs : List Byte) (len : Nat) : Pull :=
  match p.kind with
  | .engine _ => { p with tag := tagOf bs len p.tag }
  | _ => p

/-- Have all units of a part of a pull landed? -/
def State.partLanded (s : State) (id off len : Nat) : Bool :=
  (s.workOf id).any fun w => (List.range (ceilDiv len 256)).all fun k => w.landed.contains (off / 256 + k)

/-- The reply to request a of those outstanding: data in the bytes; c is 0, 1 for poisoned data, 2 and above for an error,
for a pull its STATUS, with the poison of its sectors in b and, after its data, perhaps the tuple of its units and the producer's TAG.  While no station is
ready the request has not been sent (R430). -/
def execPodReplyArrival (s : State) : Answer :=
  let x := s.input
  match s.share.pod[x.a]? with
  | none => .next s
  | some r =>
    if !s.stationReady then .next s
    else
    let t := s.dropPod x.a
    match r.kind with
    | .write =>
      if r.agent = 10 then .next ((t.focus r.core).storeDone.focus s.core.id)
      else if r.agent = 6 ∨ 12 ≤ r.agent then .next (t.modShare fun h => { h with replies := h.replies ++ [⟨r.core, r.agent, r.node, r.offset, [], false⟩] })
      else .next t
    | .read | .atomic _ =>
      if r.agent = 11 then .next t
      else
      let n := if r.kind == .atomic 10 then 4 else 32
      let bs := if 2 ≤ x.c then (freeBytes t.fresh).take n else padTo n x.bytes
      let u := if 2 ≤ x.c then { t with fresh := t.fresh + 4 } else t
      .next (u.modShare fun h => { h with replies := h.replies ++ [⟨r.core, r.agent, r.node, r.offset, bs, x.c == 1⟩] })
    | .event vec => .next (t.signal vec)
    | .notice => .next (if x.c = 0 then t else s.modShare fun h => { h with pod := h.pod.set x.a { r with issued := s.hub.hubClk, reissued := false } })
    | .pull id off len =>
      if 2 ≤ x.c then .next (if t.partLanded id off len then t.tidy id else (t.modPull id fun p => p.tagged x.bytes 0).decide id x.c)
      else match t.pullOf id, t.workOf id with
        | some p, some w =>
          let secs := (List.range (len / 32)).map fun k => ((padTo len x.bytes).drop (32 * k) |>.take 32, bit (BitVec.ofNat 64 x.b) k)
          .next (((t.superseded r).modPull id fun p => p.tagged x.bytes len).modShare fun h =>
            { h with net := h.net ++ unitsOf id (p.routes w true) (tupleOf x.bytes len w.tuple) (off / 256) (cutUnits secs) })
        | _, _ => .next t
    | _ => .next t

/-- Has a request that something waits for waited as long as it may? -/
def State.timedOut (s : State) (r : PodReq) : Bool := !r.late && r.issued + s.timeout ≤ s.hub.hubClk

/-- Request a has had no reply in time: it is issued again, once, on another station; a pull's first request may still be answered
too (R298). -/
def execPeerTimeoutReissue (s : State) : Answer :=
  match s.share.pod[s.input.a]? with
  | some r =>
    if s.timedOut r && !r.reissued then
      let again : PodReq := { r with issued := s.hub.hubClk, reissued := true, station := (s.stations.find? (· != r.station)).getD r.station }
      .next (s.modShare fun h => { h with pod := match r.kind with
        | .pull .. => h.pod.set s.input.a { r with late := true } ++ [again]
        | _ => h.pod.set s.input.a again })
    else .next s
  | none => .next s

/-- Pulls that wait for a node. -/
def State.pullsFrom (s : State) (n : Nat) : List Nat :=
  (s.share.pulls.filter fun p => !p.foreign && !p.device && p.prod / 2048 == n &&
    (s.workOf p.id).any fun w => w.status.isNone && !w.done).map (·.id)

/-- Is a request a signal, which a work entry waits for? -/
def PodReq.isSignal (r : PodReq) : Bool :=
  match r.kind with
  | .signal .. => true
  | _ => false

/-- Node n is quarantined: its pulls and entries end, what was asked of it is given up, and one record is written, once. -/
def State.quarantine (s : State) (n : Nat) (r : PodReq) : State :=
  let again := s.share.pack.quarantined.contains n
  let t := s.modPack fun p => { p with quarantined := insertNat p.quarantined n }
  let u := (t.pullsFrom n).foldl (fun t id => t.decide id 4) t
  let signals := u.share.pod.filter fun q => q.node == n && q.isSignal && !q.late
  let v := signals.foldl (fun t q => t.modCoreAt q.core fun c => { c with wstat := addSat c.wstat 0 16 1 }) u
  let events := (v.share.pod.filter fun q => q.node == n && !q.late).filterMap fun q => match q.kind with
    | .event vec => some vec
    | _ => none
  let w := events.foldl State.signal (v.modShare fun h => { h with pod := h.pod.filter fun q => q.node != n })
  if again then w else w.addRecord (w.mkRecord (w.coreAt r.core) 0x34 n 0xFF)

/-- Request a has been issued again without a reply in time: its node is quarantined. -/
def execPeerQuarantine (s : State) : Answer :=
  match s.share.pod[s.input.a]? with
  | some r => if s.timedOut r && r.reissued then .next (s.quarantine r.node r) else .next s
  | none => .next s

/-! ### The debugger (R92, R368, R407, R408) -/

/-- The debugger halts the core. -/
def execUzoantHalt (s : State) : Answer := .next (s.modCore fun c => { c with halted := true })

def execUzoantResume (s : State) : Answer := .next (s.modCore fun c => { c with halted := false })

/-- The debugger writes: with a = 0 bytes at place c of space b, 1 the poison mark of the unit there, 2 BOUND of `ydead`,
3 a request to the core. -/
def execUzoantWrite (s : State) : Answer :=
  let x := s.input
  let sp := spaceNo x.b
  match x.a with
  | 0 => .next (s.homeWrite sp false x.c x.bytes)
  | 1 => .next (s.setPoison sp false (x.c / unitOf sp) (x.bytes.headD 0 != 0))
  | 2 => .next (s.modCoreRegs fun r => r.writeBound (BitVec.ofNat 64 x.b))
  | 3 => .next (if s.core.mode = .idle then s else s.demand)
  | _ => .next s

/-- The debugger launches (again, when words of another node had to be fetched) the kernel at descriptor a of address space b, on task queue c of the core's die, with the
relocation registers in the bytes: its first leaf starts on the core if that is idle, and the invoke header is 0. -/
def execUzoantLaunch (s : State) : Answer :=
  let x := s.input
  let rl := (List.range 16).map fun i => leWord (padTo 8 ((x.bytes.drop (8 * i)).take 8))
  if s.recovery then .next s
  else match s.launchAsk (s.rootsOf x.b) x.a rl with
  | some r => .next (s.podAsk r)
  | none =>
  match s.launch 0 0 x.a (dieOf s.core.id) (x.c % 32) (s.rootsOf x.b) rl with
  | .error code => .next (s.addRecord ⟨0x38, s.podName s.core.id, 0xFF, 0, 0, 0, 0, code, s.hub.hubClk⟩)
  | .ok t =>
    match t.hub.launches.getLast? with
    | none => .next t
    | some l =>
      if !t.canSelect ∨ (l.leaf 0 []).gangSize l ≠ 0 then .next t
      else
        let u := t.modHub fun h => { h with launches := h.launches.map fun y => if y.frame = l.frame then { y with next := 1 } else y }
        .next (u.startStrand l (l.leaf 0 []) l.tq 0 0 none)

end Sys2Proof.Machine
end

