-- ==== Sys2Proof/Machine/Predicates.lean ====
section
/-!
DEFINITION. Compares and predicate logic (R55, R56, R74 to R76, R98).
-/
namespace Sys2Proof.Machine

/-- The signed 9-bit operand of `cmpi`, sign-extended (R74). -/
def imm9 (i : BitVec 9) : Word := signExt i

/-- PWrite(D, f a b) over source predicates. -/
def predRR (e : BitVec 1) (d a b : BitVec 6) (f : Bool → Bool → Bool) : M Flow := do
  let x ← rdPred e a
  let y ← rdPred e b
  wrPred d (f x y)
  return .seq

def execCmp (e : BitVec 1) (d a b : BitVec 6) (c : BitVec 3) (s : State) : Answer :=
  runShared (.cmp e d a b c) (do
    let x ← rd e a
    let y ← rd e b
    wrPred d (cond c x y)
    return .seq) s

def execCmpi (e : BitVec 1) (d a : BitVec 6) (c : BitVec 3) (i : BitVec 9) (s : State) : Answer :=
  runShared (.cmpi e d a c i) (do
    let x ← rd e a
    wrPred d (cond c x (imm9 i))
    return .seq) s

def execPand (e : BitVec 1) (d a b : BitVec 6) (s : State) : Answer :=
  runShared (.pand e d a b) (predRR e d a b (· && ·)) s

def execPor (e : BitVec 1) (d a b : BitVec 6) (s : State) : Answer :=
  runShared (.por e d a b) (predRR e d a b (· || ·)) s

def execPxor (e : BitVec 1) (d a b : BitVec 6) (s : State) : Answer :=
  runShared (.pxor e d a b) (predRR e d a b (· != ·)) s

def execPandn (e : BitVec 1) (d a b : BitVec 6) (s : State) : Answer :=
  runShared (.pandn e d a b) (predRR e d a b (fun x y => x && !y)) s

def execPnot (e : BitVec 1) (d a : BitVec 6) (s : State) : Answer :=
  runShared (.pnot e d a) (do
    let x ← rdPred e a
    wrPred d (!x)
    return .seq) s

end Sys2Proof.Machine
end

