-- ==== Sys2Proof/Machine/Dispatch.lean ====
section
/-!
DEFINITION. The meaning of every instruction, one arm each.
-/
namespace Sys2Proof.Machine

def exec (i : Instr) (s : State) : Host.Outcome State Fault Refusal :=
  match i with
  | .bt c o => Sys2Proof.Machine.execBt c o s
  | .bf c o => Sys2Proof.Machine.execBf c o s
  | .call c o => Sys2Proof.Machine.execCall c o s
  | .jr a => Sys2Proof.Machine.execJr a s
  | .lbeg r l a n => Sys2Proof.Machine.execLbeg r l a n s
  | .lend l o => Sys2Proof.Machine.execLend l o s
  | .add e d a b => Sys2Proof.Machine.execAdd e d a b s
  | .sub e d a b => Sys2Proof.Machine.execSub e d a b s
  | .and e d a b => Sys2Proof.Machine.execAnd e d a b s
  | .or e d a b => Sys2Proof.Machine.execOr e d a b s
  | .xor e d a b => Sys2Proof.Machine.execXor e d a b s
  | .andn e d a b => Sys2Proof.Machine.execAndn e d a b s
  | .shl e d a b => Sys2Proof.Machine.execShl e d a b s
  | .shr e d a b => Sys2Proof.Machine.execShr e d a b s
  | .sra e d a b => Sys2Proof.Machine.execSra e d a b s
  | .min e d a b => Sys2Proof.Machine.execMin e d a b s
  | .max e d a b => Sys2Proof.Machine.execMax e d a b s
  | .minu e d a b => Sys2Proof.Machine.execMinu e d a b s
  | .maxu e d a b => Sys2Proof.Machine.execMaxu e d a b s
  | .mul e d a b => Sys2Proof.Machine.execMul e d a b s
  | .mulh e d a b => Sys2Proof.Machine.execMulh e d a b s
  | .mulhu e d a b => Sys2Proof.Machine.execMulhu e d a b s
  | .adds e d a b => Sys2Proof.Machine.execAdds e d a b s
  | .subs e d a b => Sys2Proof.Machine.execSubs e d a b s
  | .addus e d a b => Sys2Proof.Machine.execAddus e d a b s
  | .subus e d a b => Sys2Proof.Machine.execSubus e d a b s
  | .sextb e d a => Sys2Proof.Machine.execSextb e d a s
  | .sexth e d a => Sys2Proof.Machine.execSexth e d a s
  | .sextw e d a => Sys2Proof.Machine.execSextw e d a s
  | .clz e d a => Sys2Proof.Machine.execClz e d a s
  | .popc e d a => Sys2Proof.Machine.execPopc e d a s
  | .addi e d a n => Sys2Proof.Machine.execAddi e d a n s
  | .andi e d a n => Sys2Proof.Machine.execAndi e d a n s
  | .ori e d a n => Sys2Proof.Machine.execOri e d a n s
  | .xori e d a n => Sys2Proof.Machine.execXori e d a n s
  | .shli e d a n => Sys2Proof.Machine.execShli e d a n s
  | .shri e d a n => Sys2Proof.Machine.execShri e d a n s
  | .srai e d a n => Sys2Proof.Machine.execSrai e d a n s
  | .mini e d a n => Sys2Proof.Machine.execMini e d a n s
  | .maxi e d a n => Sys2Proof.Machine.execMaxi e d a n s
  | .cmp e d a b c => Sys2Proof.Machine.execCmp e d a b c s
  | .cmpi e d a c n => Sys2Proof.Machine.execCmpi e d a c n s
  | .pand e d a b => Sys2Proof.Machine.execPand e d a b s
  | .por e d a b => Sys2Proof.Machine.execPor e d a b s
  | .pxor e d a b => Sys2Proof.Machine.execPxor e d a b s
  | .pandn e d a b => Sys2Proof.Machine.execPandn e d a b s
  | .pnot e d a => Sys2Proof.Machine.execPnot e d a s
  | .ldp e d o => Sys2Proof.Machine.execLdp e d o s
  | .sgwait x w => Sys2Proof.Machine.execSgwait x w s
  | .sgraise x => Sys2Proof.Machine.execSgraise x s
  | .repN e n => Sys2Proof.Machine.execRepN e n s
  | .repReg e c => Sys2Proof.Machine.execRepReg e c s
  | .accessPrefix c a l x v p z => Sys2Proof.Machine.execAccessPrefix c a l x v p z s
  | .hint e x => Sys2Proof.Machine.execHint e x s
  | .ldl z x a r o => Sys2Proof.Machine.execLdl z x a r o s
  | .stl z x a r o => Sys2Proof.Machine.execStl z x a r o s
  | .ldc d b z p w n => Sys2Proof.Machine.execLdc d b z p w n s
  | .stc d b z p w n => Sys2Proof.Machine.execStc d b z p w n s
  | .ldcx d b z w x => Sys2Proof.Machine.execLdcx d b z w x s
  | .stcx d b z w x => Sys2Proof.Machine.execStcx d b z w x s
  | .ldg d b z f w n => Sys2Proof.Machine.execLdg d b z f w n s
  | .stg d b z f w n => Sys2Proof.Machine.execStg d b z f w n s
  | .ldo d b z w n => Sys2Proof.Machine.execLdo d b z w n s
  | .sto d b z w n => Sys2Proof.Machine.execSto d b z w n s
  | .ldd d h x l w n => Sys2Proof.Machine.execLdd d h x l w n s
  | .lddQ q p z h x l w n => Sys2Proof.Machine.execLddQ q p z h x l w n s
  | .std d h x l w n => Sys2Proof.Machine.execStd d h x l w n s
  | .ldh d a w => Sys2Proof.Machine.execLdh d a w s
  | .ldhQ q p z a w => Sys2Proof.Machine.execLdhQ q p z a w s
  | .sth d a w => Sys2Proof.Machine.execSth d a w s
  | .amoAdd d a b x => Sys2Proof.Machine.execAmoAdd d a b x s
  | .amoAnd d a b x => Sys2Proof.Machine.execAmoAnd d a b x s
  | .amoOr d a b x => Sys2Proof.Machine.execAmoOr d a b x s
  | .amoXor d a b x => Sys2Proof.Machine.execAmoXor d a b x s
  | .amoSmax d a b x => Sys2Proof.Machine.execAmoSmax d a b x s
  | .amoSmin d a b x => Sys2Proof.Machine.execAmoSmin d a b x s
  | .amoUmax d a b x => Sys2Proof.Machine.execAmoUmax d a b x s
  | .amoUmin d a b x => Sys2Proof.Machine.execAmoUmin d a b x s
  | .amoSwap d a b x => Sys2Proof.Machine.execAmoSwap d a b x s
  | .amoCas d a b x => Sys2Proof.Machine.execAmoCas d a b x s
  | .waita d a m w => Sys2Proof.Machine.execWaita d a m w s
  | .facq x => Sys2Proof.Machine.execFacq x s
  | .frel x => Sys2Proof.Machine.execFrel x s
  | .facqrel x => Sys2Proof.Machine.execFacqrel x s
  | .cinv a b => Sys2Proof.Machine.execCinv a b s
  | .dcfence a b => Sys2Proof.Machine.execDcfence a b s
  | .sbaseD y h x l n => Sys2Proof.Machine.execSbaseD y h x l n s
  | .sbase x a n => Sys2Proof.Machine.execSbase x a n s
  | .sld x a w n => Sys2Proof.Machine.execSld x a w n s
  | .sst x a w n => Sys2Proof.Machine.execSst x a w n s
  | .sset x a k => Sys2Proof.Machine.execSset x a k s
  | .sget d x k => Sys2Proof.Machine.execSget d x k s
  | .xpop d w => Sys2Proof.Machine.execXpop d w s
  | .xpush a w => Sys2Proof.Machine.execXpush a w s
  | .cvt d a r t x => Sys2Proof.Machine.execCvt d a r t x s
  | .vadd d a b f r => Sys2Proof.Machine.execVadd d a b f r s
  | .vsub d a b f r => Sys2Proof.Machine.execVsub d a b f r s
  | .vmul d a b f r => Sys2Proof.Machine.execVmul d a b f r s
  | .vfma d a b f r => Sys2Proof.Machine.execVfma d a b f r s
  | .vdiv d a b f r => Sys2Proof.Machine.execVdiv d a b f r s
  | .vsqrt d a f r => Sys2Proof.Machine.execVsqrt d a f r s
  | .vneg d a f r => Sys2Proof.Machine.execVneg d a f r s
  | .vabs d a f r => Sys2Proof.Machine.execVabs d a f r s
  | .vmin d a b f r => Sys2Proof.Machine.execVmin d a b f r s
  | .vmax d a b f r => Sys2Proof.Machine.execVmax d a b f r s
  | .vmov d a f r => Sys2Proof.Machine.execVmov d a f r s
  | .vadds d a b f r => Sys2Proof.Machine.execVadds d a b f r s
  | .vsubs d a b f r => Sys2Proof.Machine.execVsubs d a b f r s
  | .vand d a b f r => Sys2Proof.Machine.execVand d a b f r s
  | .vor d a b f r => Sys2Proof.Machine.execVor d a b f r s
  | .vxor d a b f r => Sys2Proof.Machine.execVxor d a b f r s
  | .vshl d a b f r => Sys2Proof.Machine.execVshl d a b f r s
  | .vshr d a b f r => Sys2Proof.Machine.execVshr d a b f r s
  | .vsra d a b f r => Sys2Proof.Machine.execVsra d a b f r s
  | .vexp d a f r => Sys2Proof.Machine.execVexp d a f r s
  | .vlog d a f r => Sys2Proof.Machine.execVlog d a f r s
  | .vrsqrt d a f r => Sys2Proof.Machine.execVrsqrt d a f r s
  | .vtanh d a f r => Sys2Proof.Machine.execVtanh d a f r s
  | .vsigm d a f r => Sys2Proof.Machine.execVsigm d a f r s
  | .vrsum d a f => Sys2Proof.Machine.execVrsum d a f s
  | .vdot d a b f => Sys2Proof.Machine.execVdot d a b f s
  | .vrmax d a f => Sys2Proof.Machine.execVrmax d a f s
  | .vrmin d a f => Sys2Proof.Machine.execVrmin d a f s
  | .vrsums d a f => Sys2Proof.Machine.execVrsums d a f s
  | .vdots d a b f => Sys2Proof.Machine.execVdots d a b f s
  | .vcvt d a f r => Sys2Proof.Machine.execVcvt d a f r s
  | .vcvtH16 d a f r => Sys2Proof.Machine.execVcvtH16 d a f r s
  | .vcvtH32 d a f r => Sys2Proof.Machine.execVcvtH32 d a f r s
  | .vsign d a f r => Sys2Proof.Machine.execVsign d a f r s
  | .vcmpgt d a b f r => Sys2Proof.Machine.execVcmpgt d a b f r s
  | .vcmpge d a b f r => Sys2Proof.Machine.execVcmpge d a b f r s
  | .vcmpeq d a b f r => Sys2Proof.Machine.execVcmpeq d a b f r s
  | .vthr d a b f r => Sys2Proof.Machine.execVthr d a b f r s
  | .vargmax d a f r => Sys2Proof.Machine.execVargmax d a f r s
  | .vargmin d a f r => Sys2Proof.Machine.execVargmin d a f r s
  | .vtopk d a f r => Sys2Proof.Machine.execVtopk d a f r s
  | .mmz t a b => Sys2Proof.Machine.execMmz t a b s
  | .mma t a b => Sys2Proof.Machine.execMma t a b s
  | .mdr t a b => Sys2Proof.Machine.execMdr t a b s
  | .mxz t a b => Sys2Proof.Machine.execMxz t a b s
  | .mxa t a b => Sys2Proof.Machine.execMxa t a b s
  | .mld t a b => Sys2Proof.Machine.execMld t a b s
  | .seg a b => Sys2Proof.Machine.execSeg a b s
  | .mxzHd16 t a b => Sys2Proof.Machine.execMxzHd16 t a b s
  | .mxaHd16 t a b => Sys2Proof.Machine.execMxaHd16 t a b s
  | .tget d a => Sys2Proof.Machine.execTget d a s
  | .tput a b => Sys2Proof.Machine.execTput a b s
  | .tkill t => Sys2Proof.Machine.execTkill t s
  | .mxzHd32 t a b => Sys2Proof.Machine.execMxzHd32 t a b s
  | .mxaHd32 t a b => Sys2Proof.Machine.execMxaHd32 t a b s
  | .copy a b n => Sys2Proof.Machine.execCopy a b n s
  | .cnv r a b => Sys2Proof.Machine.execCnv r a b s
  | .cnvH16 r a b => Sys2Proof.Machine.execCnvH16 r a b s
  | .cnvH32 r a b => Sys2Proof.Machine.execCnvH32 r a b s
  | .nbmv d a b k => Sys2Proof.Machine.execNbmv d a b k s
  | .nbmva d a b k => Sys2Proof.Machine.execNbmva d a b k s
  | .wqe a b => Sys2Proof.Machine.execWqe a b s
  | .rapp n a w => Sys2Proof.Machine.execRapp n a w s
  | .publ d a b => Sys2Proof.Machine.execPubl d a b s
  | .pull d a b => Sys2Proof.Machine.execPull d a b s
  | .decl a => Sys2Proof.Machine.execDecl a s
  | .ljoin a b r => Sys2Proof.Machine.execLjoin a b r s
  | .linc a b r => Sys2Proof.Machine.execLinc a b r s
  | .lst a b r => Sys2Proof.Machine.execLst a b r s
  | .lld d a r => Sys2Proof.Machine.execLld d a r s
  | .lldt d b w r => Sys2Proof.Machine.execLldt d b w r s
  | .csrr d n => Sys2Proof.Machine.execCsrr d n s
  | .csrw a n => Sys2Proof.Machine.execCsrw a n s
  | .trap n => Sys2Proof.Machine.execTrap n s
  | .mmzCmd x t b => Sys2Proof.Machine.execMmzCmd x t b s
  | .mmaCmd x t b => Sys2Proof.Machine.execMmaCmd x t b s
  | .mdrCmd x t b => Sys2Proof.Machine.execMdrCmd x t b s
  | .mxzCmd x t h o => Sys2Proof.Machine.execMxzCmd x t h o s
  | .mxaCmd x t h o => Sys2Proof.Machine.execMxaCmd x t h o s
  | .mldCmd x t b => Sys2Proof.Machine.execMldCmd x t b s
  | .segCmd x b => Sys2Proof.Machine.execSegCmd x b s
  | .cpq x b => Sys2Proof.Machine.execCpq x b s
  | .cvq x h r b => Sys2Proof.Machine.execCvq x h r b s
  | .nbq x r => Sys2Proof.Machine.execNbq x r s
  | .wqeCmd x b => Sys2Proof.Machine.execWqeCmd x b s
  | .illegalCommand n => Sys2Proof.Machine.execIllegalCommand n s
  | .engineSyncWaitDone n => Sys2Proof.Machine.execEngineSyncWaitDone n s
  | .engineCommandComplete n => Sys2Proof.Machine.execEngineCommandComplete n s
  | .nbPassStart st => Sys2Proof.Machine.execNbPassStart st s
  | .nbPassComplete st => Sys2Proof.Machine.execNbPassComplete st s
  | .blockEnd e => Sys2Proof.Machine.execBlockEnd e s
  | .progressTrap e => Sys2Proof.Machine.execProgressTrap e s
  | .ringcfgWrite n v => Sys2Proof.Machine.execRingcfgWrite n v s
  | .pinopExtend n dl => Sys2Proof.Machine.execPinopExtend n dl s
  | .pinopForceRelease n => Sys2Proof.Machine.execPinopForceRelease n s
  | .pinopRepublish n dl => Sys2Proof.Machine.execPinopRepublish n dl s
  | .pinDeadlineExpiry n => Sys2Proof.Machine.execPinDeadlineExpiry n s
  | .pswinWrite v => Sys2Proof.Machine.execPswinWrite v s
  | .psrateWrite v => Sys2Proof.Machine.execPsrateWrite v s
  | .rgctlInstallRegion v => Sys2Proof.Machine.execRgctlInstallRegion v s
  | .rgctlRetireRegion v => Sys2Proof.Machine.execRgctlRetireRegion v s
  | .rgctlInstallSchedule v => Sys2Proof.Machine.execRgctlInstallSchedule v s
  | .apctlInstall v => Sys2Proof.Machine.execApctlInstall v s
  | .apctlRetire v => Sys2Proof.Machine.execApctlRetire v s
  | .tqctlConfigure v => Sys2Proof.Machine.execTqctlConfigure v s
  | .tqctlDisable v => Sys2Proof.Machine.execTqctlDisable v s
  | .tlbopInvalidateVa v => Sys2Proof.Machine.execTlbopInvalidateVa v s
  | .tlbopInvalidateAsid v => Sys2Proof.Machine.execTlbopInvalidateAsid v s
  | .tlbopInvalidateAll v => Sys2Proof.Machine.execTlbopInvalidateAll v s
  | .ualpeerQuery v => Sys2Proof.Machine.execUalpeerQuery v s
  | .ualpeerRelease v => Sys2Proof.Machine.execUalpeerRelease v s
  | .pktNop body => Sys2Proof.Machine.execPktNop body s
  | .pktWrite body => Sys2Proof.Machine.execPktWrite body s
  | .pktWriteAdd body => Sys2Proof.Machine.execPktWriteAdd body s
  | .pktWaitmem sub body => Sys2Proof.Machine.execPktWaitmem sub body s
  | .pktCond sub body => Sys2Proof.Machine.execPktCond sub body s
  | .pktIb body => Sys2Proof.Machine.execPktIb body s
  | .pktLoop body => Sys2Proof.Machine.execPktLoop body s
  | .pktLoadslot body => Sys2Proof.Machine.execPktLoadslot body s
  | .pktEvictslot body => Sys2Proof.Machine.execPktEvictslot body s
  | .pktInvoke body => Sys2Proof.Machine.execPktInvoke body s
  | .pktEvent body => Sys2Proof.Machine.execPktEvent body s
  | .pktSummary body => Sys2Proof.Machine.execPktSummary body s
  | .pktQcbSh body => Sys2Proof.Machine.execPktQcbSh body s
  | .pktQcbCommit body => Sys2Proof.Machine.execPktQcbCommit body s
  | .pktQcbRead body => Sys2Proof.Machine.execPktQcbRead body s
  | .cricketHalt c v => Sys2Proof.Machine.execCricketHalt c v s
  | .cricketLi d n => Sys2Proof.Machine.execCricketLi d n s
  | .cricketLhi d n => Sys2Proof.Machine.execCricketLhi d n s
  | .cricketAdd d a b => Sys2Proof.Machine.execCricketAdd d a b s
  | .cricketSub d a b => Sys2Proof.Machine.execCricketSub d a b s
  | .cricketAnd d a b => Sys2Proof.Machine.execCricketAnd d a b s
  | .cricketOr d a b => Sys2Proof.Machine.execCricketOr d a b s
  | .cricketXor d a b => Sys2Proof.Machine.execCricketXor d a b s
  | .cricketSltu d a b => Sys2Proof.Machine.execCricketSltu d a b s
  | .cricketAddi d a n => Sys2Proof.Machine.execCricketAddi d a n s
  | .cricketShli d a n => Sys2Proof.Machine.execCricketShli d a n s
  | .cricketShri d a n => Sys2Proof.Machine.execCricketShri d a n s
  | .cricketPkt d n => Sys2Proof.Machine.execCricketPkt d n s
  | .cricketSetpkt a n => Sys2Proof.Machine.execCricketSetpkt a n s
  | .cricketLd d w o => Sys2Proof.Machine.execCricketLd d w o s
  | .cricketSt a w o => Sys2Proof.Machine.execCricketSt a w o s
  | .cricketLdr d a w => Sys2Proof.Machine.execCricketLdr d a w s
  | .cricketStr a b w => Sys2Proof.Machine.execCricketStr a b w s
  | .cricketBz a o => Sys2Proof.Machine.execCricketBz a o s
  | .cricketBnz a o => Sys2Proof.Machine.execCricketBnz a o s
  | .cricketLoop n l => Sys2Proof.Machine.execCricketLoop n l s
  | .illegalInstruction w => Sys2Proof.Machine.execIllegalInstruction w s
  | .notAPacket h => Sys2Proof.Machine.execNotAPacket h s
  | .waitaWake => Sys2Proof.Machine.execWaitaWake s
  | .waitaBoundWake => Sys2Proof.Machine.execWaitaBoundWake s
  | .chainB => Sys2Proof.Machine.execChainB s
  | .chainE => Sys2Proof.Machine.execChainE s
  | .pfence => Sys2Proof.Machine.execPfence s
  | .halt => Sys2Proof.Machine.execHalt s
  | .tfence => Sys2Proof.Machine.execTfence s
  | .yield => Sys2Proof.Machine.execYield s
  | .yieldp => Sys2Proof.Machine.execYieldp s
  | .haltComplete => Sys2Proof.Machine.execHaltComplete s
  | .segmentCountOverrun => Sys2Proof.Machine.execSegmentCountOverrun s
  | .wqeIssue => Sys2Proof.Machine.execWqeIssue s
  | .workSignalArrival => Sys2Proof.Machine.execWorkSignalArrival s
  | .wqeCompletion => Sys2Proof.Machine.execWqeCompletion s
  | .leaseGrant => Sys2Proof.Machine.execLeaseGrant s
  | .leaseIdleExpiry => Sys2Proof.Machine.execLeaseIdleExpiry s
  | .storePerform => Sys2Proof.Machine.execStorePerform s
  | .l1Writeback => Sys2Proof.Machine.execL1Writeback s
  | .l1Drop => Sys2Proof.Machine.execL1Drop s
  | .scratchCopyDrop => Sys2Proof.Machine.execScratchCopyDrop s
  | .queueEntryFill => Sys2Proof.Machine.execQueueEntryFill s
  | .loadDataReturn => Sys2Proof.Machine.execLoadDataReturn s
  | .trapDelivery => Sys2Proof.Machine.execTrapDelivery s
  | .shretRetry => Sys2Proof.Machine.execShretRetry s
  | .shretSkip => Sys2Proof.Machine.execShretSkip s
  | .shretFail => Sys2Proof.Machine.execShretFail s
  | .shadowFault => Sys2Proof.Machine.execShadowFault s
  | .aflagsWrite => Sys2Proof.Machine.execAflagsWrite s
  | .noticeDelivery => Sys2Proof.Machine.execNoticeDelivery s
  | .pullRequestIssue => Sys2Proof.Machine.execPullRequestIssue s
  | .pullRequestArrival => Sys2Proof.Machine.execPullRequestArrival s
  | .pullServed => Sys2Proof.Machine.execPullServed s
  | .declineArrival => Sys2Proof.Machine.execDeclineArrival s
  | .pullUnitLanding => Sys2Proof.Machine.execPullUnitLanding s
  | .routeAck => Sys2Proof.Machine.execRouteAck s
  | .pullCompletion => Sys2Proof.Machine.execPullCompletion s
  | .exchangeRoundStart => Sys2Proof.Machine.execExchangeRoundStart s
  | .exchangeMerge => Sys2Proof.Machine.execExchangeMerge s
  | .apertureRead => Sys2Proof.Machine.execApertureRead s
  | .launchExpand => Sys2Proof.Machine.execLaunchExpand s
  | .recordSelect => Sys2Proof.Machine.execRecordSelect s
  | .gangStart => Sys2Proof.Machine.execGangStart s
  | .preloadLoad => Sys2Proof.Machine.execPreloadLoad s
  | .preloadActivate => Sys2Proof.Machine.execPreloadActivate s
  | .preemptRequest => Sys2Proof.Machine.execPreemptRequest s
  | .deadlineExpiry => Sys2Proof.Machine.execDeadlineExpiry s
  | .strandSave => Sys2Proof.Machine.execStrandSave s
  | .savedBankWrite => Sys2Proof.Machine.execSavedBankWrite s
  | .strandRestore => Sys2Proof.Machine.execStrandRestore s
  | .invocationReplay => Sys2Proof.Machine.execInvocationReplay s
  | .invocationFail => Sys2Proof.Machine.execInvocationFail s
  | .strandStateError => Sys2Proof.Machine.execStrandStateError s
  | .queueDoorbell => Sys2Proof.Machine.execQueueDoorbell s
  | .waitmemTimeout => Sys2Proof.Machine.execWaitmemTimeout s
  | .pktFence => Sys2Proof.Machine.execPktFence s
  | .pktFfence => Sys2Proof.Machine.execPktFfence s
  | .cricketBudgetExceeded => Sys2Proof.Machine.execCricketBudgetExceeded s
  | .qcbShadowWrite => Sys2Proof.Machine.execQcbShadowWrite s
  | .qcbCommit => Sys2Proof.Machine.execQcbCommit s
  | .watchdogRollback => Sys2Proof.Machine.execWatchdogRollback s
  | .mboxSummary => Sys2Proof.Machine.execMboxSummary s
  | .mboxStage => Sys2Proof.Machine.execMboxStage s
  | .mboxVerifyWrite => Sys2Proof.Machine.execMboxVerifyWrite s
  | .mboxResetBoot => Sys2Proof.Machine.execMboxResetBoot s
  | .hubReset => Sys2Proof.Machine.execHubReset s
  | .functionReady => Sys2Proof.Machine.execFunctionReady s
  | .hostMemRead => Sys2Proof.Machine.execHostMemRead s
  | .hostMemWrite => Sys2Proof.Machine.execHostMemWrite s
  | .hostCacheInvalidate => Sys2Proof.Machine.execHostCacheInvalidate s
  | .inboundRead => Sys2Proof.Machine.execInboundRead s
  | .inboundWrite => Sys2Proof.Machine.execInboundWrite s
  | .inboundAtomic => Sys2Proof.Machine.execInboundAtomic s
  | .inboundNotice => Sys2Proof.Machine.execInboundNotice s
  | .podReplyArrival => Sys2Proof.Machine.execPodReplyArrival s
  | .peerTimeoutReissue => Sys2Proof.Machine.execPeerTimeoutReissue s
  | .peerQuarantine => Sys2Proof.Machine.execPeerQuarantine s
  | .sramUncorrectableError => Sys2Proof.Machine.execSramUncorrectableError s
  | .powerThrottle => Sys2Proof.Machine.execPowerThrottle s
  | .streamElementArrival => Sys2Proof.Machine.execStreamElementArrival s
  | .correctableError => Sys2Proof.Machine.execCorrectableError s
  | .powerOn => Sys2Proof.Machine.execPowerOn s
  | .corePowerGate => Sys2Proof.Machine.execCorePowerGate s
  | .corePowerUngate => Sys2Proof.Machine.execCorePowerUngate s
  | .uzoantHalt => Sys2Proof.Machine.execUzoantHalt s
  | .uzoantResume => Sys2Proof.Machine.execUzoantResume s
  | .uzoantWrite => Sys2Proof.Machine.execUzoantWrite s
  | .uzoantLaunch => Sys2Proof.Machine.execUzoantLaunch s

end Sys2Proof.Machine
end

