-- ==== Sys2Proof/Machine/Fetch.lean ====
section
/-!
DEFINITION. Which turn comes next, and the instruction that an agent fetches in its turn
(R15 to R18, R34, R37, R50, R66, R78, R80, R96, R180, R295, R327, R338, R341, R361, R375, R378, R384, R390; assumptions 1 and 8).
-/
namespace Sys2Proof.Machine

/-- What a turn does: it runs an instruction, or it is over. -/
inductive Todo where
  | run (i : Instr) (s : State)
  | done (s : State)
deriving DecidableEq, Repr

/-! ### The AP and the shadow -/

/-- Must the processors of the core hold at an instruction boundary: a forced save has fallen due, or a member of the gang
drives the stall wire? -/
def State.apHolds (s : State) : Bool := s.core.saveDue || s.stalled s.core

/-- What the word at the AP's place does once it is fetched. -/
def State.apWord (s : State) (w : Word32) : Todo :=
  match decodeStrand w with
  | .error _ =>
    match s.ap.bind with
    | .access p => .run (.illegalInstruction (BitVec.ofNat 32 p.word)) s
    | _ => .run (.illegalInstruction w) s
  | .ok i =>
    match s.ap.chainPc with
    | some c => match s.passInChain c i with
      | some t => if strandWf i then .done t else .run (.illegalInstruction w) s
      | none => .run i s
    | none =>
      if !onEp i then .run i s
      else match s.ap.bind with
        | .access p => if i = .chainB ∨ i = .chainE then .done (s.passTrap 7 0)
          else .run (.illegalInstruction (BitVec.ofNat 32 p.word)) s
        | _ => if !strandWf i then .run (.illegalInstruction w) s else .done (s.apPass i)

/-- What a fetch needs of its leaf (R401). -/
def fetchNeed : Need := ⟨false, true, false, 2⟩

/-- The word of the image at the AP's place, where its leaf lets the strand fetch it (R78, R401). -/
def State.fetched (s : State) (w : Word32) : Todo :=
  let va : Word := s.wordPc.setWidth 64
  match s.translate va fetchNeed s.strand.info.priv with
  | .error t => .done ((s.missed va false).takeTrap t)
  | .ok (_, t) =>
    if s.strand.image.badAt s.wordPc 4 then .done (t.takeTrap (accessTrap 0x16 0 va fetchNeed s.strand.info.priv))
    else t.apWord w

/-- The active AP. -/
def State.activeTodo (s : State) : Todo :=
  if s.core.frozen then .done s
  else if s.apHolds then .done (s.modAp fun a => { a with bind := .none })
  else if s.canDeliverTrap then .run .trapDelivery s
  else match s.ap.ending with
    | some .halt => if s.ap.block.any Block.expired then .run (.progressTrap 0#1) s else .done s
    | some .yield => .done s
    | none =>
      if s.ap.issued && !s.ap.arrived then .done s
      else match s.strand.image.word s.wordPc with
        | some w => s.fetched w
        | none => .done (s.takeTrap (mkTrap .p 3 0))

/-- The shadow. -/
def State.shadowTodo (s : State) : Todo :=
  if s.ap.issued && !s.ap.arrived then .done s
  else match shadowWord 2 s.wordPc s with
    | .error (.trap k t) => .done ((k.getD s).takeTrap t)
    | .error (.ask r) => .done (s.podAsk r)
    | .error (.block _) => .done s
    | .ok (x, t) =>
      let w : Word32 := BitVec.ofNat 32 (leNat x.1)
      if x.2 then .done (t.takeTrap { accessTrap 0x16 0 (s.wordPc.setWidth 64) fetchNeed true with cls := .p })
      else match decodeStrand w with
        | .ok i => .run i t
        | .error _ => .run (.illegalInstruction w) t

/-- The turn of the AP. -/
def State.apTodo (s : State) : Todo :=
  if s.core.gated || s.core.halted then .done s
  else match s.core.mode with
    | .idle => .done s
    | .shadow => s.shadowTodo
    | .running => s.activeTodo

/-! ### The EP -/

/-- Has the EP a word to run: one that the AP has passed, or the one at which the AP stands with checked elements? -/
def State.epReady (s : State) : Bool :=
  s.ep.seq < s.ap.seq || (s.ep.seq == s.ap.seq && s.ap.offer.isSome)

/-- What the EP does at its word; an illegal word that SKIP has passed is passed (R391). -/
def State.epWord (s : State) : Todo :=
  match (s.strand.image.word s.wordPcEp).map decodeStrand with
  | none => .done s
  | some (.error _) => .done (s.epPass.modEp fun e => { e with pc := e.pc + 4 })
  | some (.ok i) =>
    if onEp i then .run i s
    else if !isPrefix i then .done (s.follow i 4)
    else match (s.strand.image.word (s.ep.pc + 4)).map decodeStrand with
      | some (.ok j) => .done (s.follow j 8)
      | _ => .done (s.epPass.modEp fun e => { e with pc := e.pc + 8 })

/-- The turn of the EP: no word starts while a write to another node of an earlier one is not performed (R151, R423). -/
def State.epTodo (s : State) : Todo :=
  let c := s.core
  if c.mode != .running || c.gated || c.halted || c.frozen then .done s
  else if s.ep.held || s.apHolds then .done (s.modEp fun e => { e with bind := .none })
  else if s.share.pod.any fun r => r.core == c.id && r.agent == 7 && r.kind == .write then .done s
  else if s.ep.chain.isSome then .run .chainE s
  else if s.epReady then s.epWord
  else .done s

/-! ### The engines -/

/-- The command of engine n at step 3. -/
def State.engineRun (s : State) (n : Nat) : Todo :=
  match decodeRing n (s.cmdWord n) with
  | .ok i =>
    if n = 0 && isArrayCmd i && !s.holdsArray then .run .leaseGrant s
    else .run i { s with onEngine := some n }
  | .error _ => .done s

/-- Do the engines hold before step 1: as the processors do, and while the save of a yield waits for them (R40, R95)? -/
def State.engineHolds (s : State) : Bool :=
  s.apHolds || (s.ap.ending == some .yield && s.ep.seq == s.ap.seq)

/-- The turn of engine n, by the step of R37 at which it stands. -/
def State.engineTodo (s : State) (n : Nat) : Todo :=
  if !s.engineLive n then .done s
  else if n = 0 && s.segDue && ((s.engine 0).fails ≠ 0 || !s.engineHolds) then .run .segmentCountOverrun s
  else match (s.engine n).phase with
    | .start =>
      if s.engineHolds then .done s
      else if s.cmdLegal n then .run (.engineSyncWaitDone (BitVec.ofNat 3 n)) s
      else .run (.illegalCommand (BitVec.ofNat 3 n)) s
    | .waited => .run (.engineSyncWaitDone (BitVec.ofNat 3 n)) s
    | .acquired => s.engineRun n
    | .handed => .done (if n = 1 || n = 2 then s.copyEnd n else s)
    | .performed | .released => .run (.engineCommandComplete (BitVec.ofNat 3 n)) s

/-- The AP, when its word raises a semaphore. -/
def State.apRaises (s : State) : Bool :=
  s.core.mode == .running && (match (s.strand.image.word s.wordPc).map decodeStrand with
    | some (.ok (.sgraise _)) => true
    | _ => false)

/-- The turn of an engine that stands at steps 4 and 5, or of the AP at a `sgraise` (R39). -/
def State.raiseTodo (s : State) (n : Nat) : Todo :=
  if n = 6 then (if s.apRaises then s.apTodo else .done s)
  else match (s.engine n).phase with
    | .performed | .released => s.engineTodo n
    | _ => .done s

/-! ### The queues -/

/-- The packet with these words. -/
def State.packetTodo (s : State) (q : Nat) (ws : List Word32) : Todo :=
  if (s.queue q).waitedOut s.hub.hubClk ws then .run .waitmemTimeout s
  else match decodePacketAt ws with
    | .ok (i, _) => .run i s
    | .error _ => .done (s.haltAt q 0x42 0)

/-- The next instruction of the Cricket program that runs on the packet. -/
def State.cricketTodo (s : State) (c : Cricket) (r : CricketRun) : Todo :=
  if 512 ≤ r.steps then .run .cricketBudgetExceeded s
  else match (c.code[r.pc]?).map decodeCricket with
    | some (.ok i) => .run i s
    | _ => .done s

/-- The checks before a packet runs, then its program or the packet itself (R335, R337, R341). -/
def State.headerTodo (s : State) (q : Nat) (ws : List Word32) : Todo :=
  let z := s.queue q
  let h := ws.headD 0
  let op := field h 24 8
  match z.run with
  | some r => match r.verdict, z.cricket with
    | none, some c => s.cricketTodo c r
    | _, _ => s.packetTodo q r.words
  | none =>
    if 14 ≤ op then .run (.notAPacket h) s
    else if !z.allows op then .done (s.haltAt q 0x41 op)
    else if z.cricket.isSome && z.wait.isNone then
      .done (s.modQueue q fun z => { z with run := some (CricketRun.start ws z.level) })
    else s.packetTodo q ws

/-- Does another queue of the same processor run a packet (R327)? -/
def State.processorBusy (s : State) (q : Nat) : Bool :=
  (List.range 16).any fun i =>
    let p := 16 * (q / 16) + i
    let z := s.queue p
    p != q && z.mode == 1 && (z.wait.isSome || z.run.isSome)

/-- The turn of queue q. -/
def State.queueTodo (s : State) (q : Nat) : Todo :=
  let z := s.queue q
  if !z.pending.isEmpty && z.wait.isNone && z.run.isNone then .done (s.boundary q)
  else if z.mode ≠ 1 || !s.qpReady q || s.recovery then .done s
  else if s.processorBusy q then .done s
  else if (s.fetchAhead q).fetching q && z.wait.isNone && z.run.isNone then .done (s.fetchAhead q)
  else match (s.fetchAhead q).packetWords q with
    | .error (.ask r) => .done ((s.fetchAhead q).podAsk r)
    | .error e => .done (s.stopPacket q e)
    | .ok (none, t) => .done t
    | .ok (some ws, t) => ({ t with input := ⟨q, 0, 0, []⟩ } : State).headerTodo q ws

/-! ### Which turn comes next (assumption 1) -/

def noInput : Input := ⟨0, 0, 0, []⟩

/-- The turns of one core in one clk: raises come before waits, and the AP comes after the engines (R34, R39, R87). -/
def coreMovers : List Mover :=
  (List.range 7).map .raise ++ (List.range 6).map .engine ++ [.ap, .ep] ++
  ([.storePerform, .loadDataReturn, .queueEntryFill, .noticeDelivery, .pullRequestIssue] : List Instr).map (.event · noInput) ++
  ([.haltComplete, .strandSave, .preloadActivate, .gangStart, .recordSelect, .preloadLoad, .preemptRequest] : List Instr).map
    (.event · noInput)

/-- The turns that concern no core, at the end of a clk: arrivals come after what the cores write (R295). Two of each processor's
16 queues have their turn, so a waiting packet reads its word again within eight clk, which are 11 hub clk (R338). -/
def sharedMovers (clk : Nat) : List Mover :=
  (List.range 16).flatMap (fun p => [.queue (16 * p + 2 * clk % 16), .queue (16 * p + 2 * clk % 16 + 1)]) ++
  ([.launchExpand, .invocationReplay, .invocationFail, .pullRequestArrival, .pullUnitLanding, .pullCompletion, .routeAck,
    .workSignalArrival, .wqeCompletion] : List Instr).map (.event · noInput) ++
  (List.range 8).map (fun k => Mover.event (.nbPassStart (BitVec.ofNat 3 k)) noInput) ++
  (List.range 8).map fun k => Mover.event (.nbPassComplete (BitVec.ofNat 3 k)) noInput

/-- The core after this one: 192 cores in each of eight dies, numbered from 256 times the die (R7). -/
def nextCore (id : Nat) : Nat :=
  if id % 256 + 1 < 192 then id + 1 else if id / 256 + 1 < 8 then (id / 256 + 1) * 256 else 0

/-- The rotation at the core whose turn it is: merges begin a clk (R287). -/
def State.movers (s : State) : List Mover :=
  (if s.core.id = 0 then [.event .exchangeMerge noInput] else []) ++ coreMovers ++
  (if nextCore s.core.id = 0 then sharedMovers s.clk else [])

/-- What ends a clk: the arm tests of work entries (R295), the deadline tests of every pin table (R221), then the tick; before it come the
timeouts of requests, one after another (R426). -/
def State.clkEnd (s : State) : List Turn := s.cores.flatMap Core.dueArm ++ s.cores.flatMap Core.duePins ++ [⟨0, .tick⟩]

/-- The turn that comes next, and the state without it: the head of the agenda, or the rotation. -/
def State.nextTurn (s : State) : Turn × State :=
  match s.agenda with
  | t :: r => (t, { s with agenda := r })
  | [] =>
    match s.movers[s.rota]? with
    | some m => (⟨s.core.id, m⟩, { s with rota := s.rota + 1 })
    | none =>
      let k := nextCore s.core.id
      if k = 0 then
        match s.duePeers, s.clkEnd with
        | t :: _, _ => (t, s)
        | [], t :: r => (t, { s with rota := 0, agenda := r })
        | [], [] => (⟨0, .tick⟩, { s with rota := 0 })
      else (⟨k, .raise 0⟩, { s with rota := 1 })

/-- What a mover does in its turn. -/
def State.todo (s : State) : Mover → Todo
  | .ap => s.apTodo
  | .ep => s.epTodo
  | .engine n => s.engineTodo n
  | .raise n => s.raiseTodo n
  | .queue q => s.queueTodo q
  | .event i x => .run i { s with input := x }
  | .upset k => .done (s.setArray { s.array with upset := if k = 6 then 6 else 5 })
  | .tick => .done s.tick

/-- What a step does. -/
def State.pick (s : State) : Todo :=
  let x := s.nextTurn
  (x.2.focus x.1.core).todo x.1.mover

/-- What comes with a turn is gone after it. -/
def State.settled (s : State) : State := { s with onEngine := none, input := noInput }

/-- The end of a step that ran an instruction. -/
def settle : Answer → Answer
  | .next s => .next s.settled
  | r => r

/-! ### Placing an instruction where the next step fetches it (assumption 8) -/

/-- The next turn is the given mover's. -/
def State.turnOf (s : State) (m : Mover) : State := { s with agenda := [⟨s.core.id, m⟩] }

/-- The bytes of words, as memory holds them. -/
def wordBytes (ws : List Word32) : List Byte := ws.flatMap fun w => leBytes 4 w.toNat

/-- A leaf of 64 KiB for an address, with R and U and at physical address 0. -/
def codeLeaf (asid : Nat) (pc : BitVec 56) : TlbLeaf := ⟨asid, false, pc.toNat / 65536 * 65536, 16, 0x6D#64, 0⟩

/-- A strand runs, its image holds the words at the AP's place, where nothing else comes first, and a leaf lets it fetch them. -/
def State.placeAp (s : State) (ws : List Word32) : State :=
  (s.modCore fun c =>
    { c with
      tlb := codeLeaf s.asid c.strand.ap.pc :: c.tlb,
      mode := .running, gated := false, halted := false, frozen := false, saveDue := false, trap := none,
      strand := { c.strand with
        pend := [], image := ⟨c.strand.ap.pc.toNat, wordBytes ws, []⟩,
        ap := { c.strand.ap with block := none, bind := .none, ending := none, issued := false, arrived := false,
                                 offer := none, offered := false, chainPc := none } } }).turnOf .ap

/-- The same for the EP, at a word that the AP has passed. -/
def State.placeEp (s : State) (ws : List Word32) : State :=
  ((s.placeAp ws).modStrand fun t =>
    { t with
      image := ⟨t.ep.pc.toNat, wordBytes ws, []⟩,
      ap := { t.ap with pc := t.ep.pc + 4, seq := t.ep.seq + 1 },
      ep := { t.ep with block := none, bind := .none, held := false, chain := none } }).turnOf .ep

/-- Engine n stands at step 3 of the command with these words; engine 0 holds the array. -/
def State.placeRing (s : State) (n : Nat) (ws : List Word32) : State :=
  let size := if bit (ws.headD 0) 24 then 2 else 1
  let e0 := s.engine n
  let e := { e0 with cfg := e0.cfg ||| 0x8000000#64, wp := e0.rp + size, phase := .acquired, stopped := false, entered := false, fails := 0, sweeps := [], marked := [], leaves := [],
                     repLeft := 0, got := [], left := [] }
  let a := chamAt s.core.id (e.wordOff e.rp)
  let t := (s.placeAp []).setEngine n e
  let u := if n = 0 then t.setArray { t.array with held := true, holder := t.core.id % 4 } else t
  (ws.take size).zipIdx.foldl (fun v x =>
    { v with mem := { v.mem with cham := v.mem.cham.write (unitOf .cham) (a + 4 * x.2) (leBytes 4 x.1.toNat) } })
    (u.turnOf (.engine n))

/-- Queue 0 runs the packet with these words. -/
def State.placePacket (s : State) (ws : List Word32) : State :=
  let n := field (ws.headD 0) 0 16 + 1
  let fetched := (ws.take n).zipIdx.map fun x => (x.2, x.1)
  let t := s.modHub fun h => { h with fw := { h.fw with rdy := setField (setField h.fw.rdy 25 1 1) 63 1 0 } }
  (t.modQueue 0 fun z =>
    let y := (({ z with active := z.active.setIfInBounds 8 0x3FFF#64 } : HubQueue).setMode 1).setRp 0
    { y with wp := BitVec.ofNat 32 n, levels := [{ Level.bottom with fetched := fetched }], pending := [], wait := none,
             cricket := none, run := none }).turnOf (.queue 0)

/-- Queue 0 runs its program, of this one instruction, on an empty packet. -/
def State.placeCricket (s : State) (w : Word32) : State :=
  (s.placePacket [0]).modQueue 0 fun z =>
    { z with cricket := some ⟨[], [w]⟩, run := some (CricketRun.start [0] 0) }

/-- The engine that reads a word, of those that may. -/
def ringOf (w : Word32) : Nat := ([0, 1, 3, 4, 5].find? fun n => (decodeRing n w).isOk).getD 0

/-- The words placed for the agent that reads them. -/
def State.place (s : State) (ws : List Word32) : State :=
  let h := ws.headD 0
  match decodeStrand h with
  | .ok i => if onEp i then s.placeEp ws else s.placeAp ws
  | .error _ =>
    if (decodeRing (ringOf h) h).isOk then s.placeRing (ringOf h) ws
    else if (decodeCricket h).isOk && !(h == 0x09000000#32 || h == 0x0A000000#32) then s.placeCricket h
    else s.placePacket ws

end Sys2Proof.Machine
end

