-- ==== Sys2Proof/Machine/Step.lean ====
section
/-!
DEFINITION. One step of the machine: a turn of one agent, which runs the instruction that the agent fetches
(assumption 1), and the placing of an instruction for the next step (assumption 8).
-/
namespace Sys2Proof.Machine

/-- One turn. -/
def step (s : State) : Host.Outcome State Fault Refusal :=
  match s.pick with
  | .run i t => settle (exec i t)
  | .done t => .next t.settled

/-- The machine with an instruction where the next step fetches it. -/
def State.withFetchWord (s : State) (nbits w : Nat) : State := s.place (wordsOf nbits w ++ List.replicate 64 0)

end Sys2Proof.Machine
end

