-- ==== Sys2Proof/Safety.lean ====
section
/-!
DEFINITION. The terms in which claims about the machine are stated: who reads a word, what it takes for a word to run
and how the state stands after it, and the invariant that every memory is in canonical form.
-/
namespace Sys2Proof

/-- The sequencer that reads an instruction: a strand's processors, the ring of an engine, a queue, its Cricket program;
an event is read by none (R43, R68, R326, R342). -/
inductive Reader where
  | strand
  | ring (n : Nat)
  | packet
  | cricket
  | event
deriving DecidableEq, Repr

/-- Who reads the words of an instruction. -/
def readerOf : Instr → Reader
  | .bt .. | .bf .. | .call .. | .jr .. | .lbeg .. | .lend .. | .add .. | .sub .. | .and .. | .or .. | .xor ..
  | .andn .. | .shl .. | .shr .. | .sra .. | .min .. | .max .. | .minu .. | .maxu .. | .mul .. | .mulh .. | .mulhu ..
  | .adds .. | .subs .. | .addus .. | .subus .. | .sextb .. | .sexth .. | .sextw .. | .clz .. | .popc .. | .addi ..
  | .andi .. | .ori .. | .xori .. | .shli .. | .shri .. | .srai .. | .mini .. | .maxi .. | .cmp .. | .cmpi ..
  | .pand .. | .por .. | .pxor .. | .pandn .. | .pnot .. | .ldp .. | .sgwait .. | .sgraise .. | .repN .. | .repReg ..
  | .accessPrefix .. | .hint .. | .ldl .. | .stl .. | .ldc .. | .stc .. | .ldcx .. | .stcx .. | .ldg .. | .stg ..
  | .ldo .. | .sto .. | .ldd .. | .lddQ .. | .std .. | .ldh .. | .ldhQ .. | .sth .. | .amoAdd .. | .amoAnd ..
  | .amoOr .. | .amoXor .. | .amoSmax .. | .amoSmin .. | .amoUmax .. | .amoUmin .. | .amoSwap .. | .amoCas ..
  | .waita .. | .facq .. | .frel .. | .facqrel .. | .cinv .. | .dcfence .. | .sbaseD .. | .sbase .. | .sld ..
  | .sst .. | .sset .. | .sget .. | .xpop .. | .xpush .. | .cvt .. | .vadd .. | .vsub .. | .vmul .. | .vfma ..
  | .vdiv .. | .vsqrt .. | .vneg .. | .vabs .. | .vmin .. | .vmax .. | .vmov .. | .vadds .. | .vsubs .. | .vand ..
  | .vor .. | .vxor .. | .vshl .. | .vshr .. | .vsra .. | .vexp .. | .vlog .. | .vrsqrt .. | .vtanh .. | .vsigm ..
  | .vrsum .. | .vdot .. | .vrmax .. | .vrmin .. | .vrsums .. | .vdots .. | .vcvt .. | .vcvtH16 .. | .vcvtH32 ..
  | .vsign .. | .vcmpgt .. | .vcmpge .. | .vcmpeq .. | .vthr .. | .vargmax .. | .vargmin .. | .vtopk .. | .mmz ..
  | .mma .. | .mdr .. | .mxz .. | .mxa .. | .mld .. | .seg .. | .mxzHd16 .. | .mxaHd16 .. | .tget .. | .tput ..
  | .tkill .. | .mxzHd32 .. | .mxaHd32 .. | .copy .. | .cnv .. | .cnvH16 .. | .cnvH32 .. | .nbmv .. | .nbmva ..
  | .wqe .. | .rapp .. | .publ .. | .pull .. | .decl .. | .ljoin .. | .linc .. | .lst .. | .lld .. | .lldt ..
  | .csrr .. | .csrw .. | .trap .. | .chainB | .chainE | .pfence | .halt | .tfence | .yield | .yieldp => .strand
  | .mmzCmd .. | .mmaCmd .. | .mdrCmd .. | .mxzCmd .. | .mxaCmd .. | .mldCmd .. | .segCmd .. => .ring 0
  | .cpq .. => .ring 1
  | .cvq .. => .ring 3
  | .nbq .. => .ring 4
  | .wqeCmd .. => .ring 5
  | .pktNop .. | .pktWrite .. | .pktWriteAdd .. | .pktWaitmem .. | .pktCond .. | .pktIb .. | .pktLoop ..
  | .pktLoadslot .. | .pktEvictslot .. | .pktInvoke .. | .pktEvent .. | .pktSummary .. | .pktQcbSh ..
  | .pktQcbCommit .. | .pktQcbRead .. | .pktFence | .pktFfence => .packet
  | .cricketHalt .. | .cricketLi .. | .cricketLhi .. | .cricketAdd .. | .cricketSub .. | .cricketAnd ..
  | .cricketOr .. | .cricketXor .. | .cricketSltu .. | .cricketAddi .. | .cricketShli .. | .cricketShri ..
  | .cricketPkt .. | .cricketSetpkt .. | .cricketLd .. | .cricketSt .. | .cricketLdr .. | .cricketStr ..
  | .cricketBz .. | .cricketBnz .. | .cricketLoop .. => .cricket
  | .illegalCommand .. | .engineSyncWaitDone .. | .engineCommandComplete .. | .nbPassStart .. | .nbPassComplete ..
  | .blockEnd .. | .progressTrap .. | .ringcfgWrite .. | .pinopExtend .. | .pinopForceRelease .. | .pinopRepublish ..
  | .pinDeadlineExpiry .. | .pswinWrite .. | .psrateWrite .. | .rgctlInstallRegion .. | .rgctlRetireRegion ..
  | .rgctlInstallSchedule .. | .apctlInstall .. | .apctlRetire .. | .tqctlConfigure .. | .tqctlDisable ..
  | .tlbopInvalidateVa .. | .tlbopInvalidateAsid .. | .tlbopInvalidateAll .. | .ualpeerQuery .. | .ualpeerRelease ..
  | .illegalInstruction .. | .notAPacket .. | .waitaWake | .waitaBoundWake | .haltComplete | .segmentCountOverrun
  | .wqeIssue | .workSignalArrival | .wqeCompletion | .leaseGrant | .leaseIdleExpiry | .storePerform | .l1Writeback
  | .l1Drop | .scratchCopyDrop | .queueEntryFill | .loadDataReturn | .trapDelivery | .shretRetry | .shretSkip
  | .shretFail | .shadowFault | .aflagsWrite | .noticeDelivery | .pullRequestIssue | .pullRequestArrival | .pullServed
  | .declineArrival | .pullUnitLanding | .routeAck | .pullCompletion | .exchangeRoundStart | .exchangeMerge
  | .apertureRead | .launchExpand | .recordSelect | .gangStart | .preloadLoad | .preloadActivate | .preemptRequest
  | .deadlineExpiry | .strandSave | .savedBankWrite | .strandRestore | .invocationReplay | .invocationFail
  | .strandStateError | .queueDoorbell | .waitmemTimeout | .cricketBudgetExceeded | .qcbShadowWrite | .qcbCommit
  | .watchdogRollback | .mboxSummary | .mboxStage | .mboxVerifyWrite | .mboxResetBoot | .hubReset | .functionReady
  | .hostMemRead | .hostMemWrite | .hostCacheInvalidate | .inboundRead | .inboundWrite | .inboundAtomic
  | .inboundNotice | .podReplyArrival | .peerTimeoutReissue | .peerQuarantine | .sramUncorrectableError
  | .powerThrottle | .streamElementArrival | .correctableError | .powerOn | .corePowerGate | .corePowerUngate
  | .uzoantHalt | .uzoantResume | .uzoantWrite | .uzoantLaunch => .event

/-- The instruction's words, read by its sequencer, are the instruction; a packet's length must fit its header. -/
def readsBack (i : Instr) : Prop :=
  match readerOf i with
  | .strand => encode i = [(encode i).headD 0] ∧ decodeStrand ((encode i).headD 0) = .ok i
  | .ring n => encode i = [(encode i).headD 0] ∧ decodeRing n ((encode i).headD 0) = .ok i
  | .cricket => encode i = [(encode i).headD 0] ∧ decodeCricket ((encode i).headD 0) = .ok i
  | .packet => packetWf i = true → ∀ rest, decodePacketAt (encode i ++ rest) = .ok (i, rest)
  | .event => True

namespace Machine

/-! ### Running a word and ending it -/

/-- May the agent that reads a word of the shared subset, or of the AP, run it now: the word is legal there, and `bq` has
room for an entry that it pushes (R16, R18, R46, R66, R98)? -/
def State.mayRun (s : State) (i : Instr) : Bool :=
  match s.onEngine with
  | some _ => engineWf i
  | none =>
    if onEp i then !s.inShadow && strandWf i
    else apLegal s i && !(pushesBq s i && 64 ≤ s.strand.queues.bq.length)

/-- The state when a word ends after its effect has made `t` of `s`: the processor retires it, or the engine's command is
performed and goes on behind it (R18, R37, R98). -/
def State.after (s t : State) (i : Instr) (f : Flow) : State :=
  match s.onEngine with
  | some n => t.modEngine n fun x =>
      { x with next := (match f with | .goto p _ => p.setWidth 16 | _ => s.afterCmd (s.engine n)), phase := .performed }
  | none => if onEp i then (t.podDone 7).retireEp f else (t.podDone 6).retireAp i f

/-- A destination register written by the agent that runs the word (R46). -/
def State.wrote (s : State) (e : BitVec 1) (d : BitVec 6) (v : Word) : State :=
  match s.onEngine with
  | some n => s.modEngine n fun x => x.nwrite d.toNat v
  | none => if e = 1#1 then s.ewrite d.toNat v else s.awrite d.toNat v

/-- A destination predicate or flag written (R26, R98). -/
def State.wrotePred (s : State) (d : BitVec 6) (v : Bool) : State :=
  match s.onEngine with
  | some n => s.modEngine n fun x => x.fwrite d.toNat v
  | none => s.predWrite d.toNat v

/-- On an engine a branch goes on only within its window or ahead of it (R36, R98). -/
def State.branchOk (s : State) (p : BitVec 56) : Bool :=
  match s.onEngine with
  | some n => (s.engine n).reaches (p.setWidth 16)
  | none => true

/-- The AP runs the word: it is legal in the context that executes, and `bq` has room for what it pushes. -/
def State.apRuns (s : State) (i : Instr) : Prop := s.onEngine = none ∧ onEp i = false ∧ s.mayRun i = true

/-- The EP runs the word. -/
def State.epRuns (s : State) (i : Instr) : Prop := s.onEngine = none ∧ onEp i = true ∧ s.mayRun i = true

/-! ### Memory -/

/-- One byte of a memory, by its place. -/
def State.byteAt (s : State) (sp : Space) (view : Bool) (a : Nat) : Byte := Cells.get (s.mem.bank sp view).cells a

/-- Every memory lists its bytes in the one canonical form. -/
def State.memOk (s : State) : Prop := s.mem.wf = true

end Machine
end Sys2Proof
end

