-- ==== Sys2Proof/Certificates/Slice0/Obligations.lean ====
section
/-!
DEFINITION. The statements for the provers.

A statement that an instruction completes says of which state, by its own effect, and how the word then ends: `after` is
the end of the word on the agent that runs it, and what it does is stated for each agent (`ApRetires`, `EpRetires`,
`RepeatCounts`).  A statement quantifies over every operand; where a word is not legal it traps (`IllegalWordTraps`).
-/
open Sys2Proof Sys2Proof.Machine

/-! ### Words -/

/-- Every instruction's words, read by its sequencer, are that instruction (R43 to R65, R68, R326, R342). -/
def Obligations.WordsReadBack : Prop := ∀ i : Instr, readsBack i

/-- A few words written out from the encodings of the manual decode to the instructions they stand for. -/
def Obligations.SampleWordsDecode : Prop :=
  decodeStrand 0x22141005#32 = .ok (.addi 0 5 1 5) ∧
  decodeStrand 0xD6105180#32 = .ok (.publ 4 5 6) ∧
  decodeStrand 0xD63CB301#32 = .ok (.pull 15 11 12) ∧
  decodeStrand 0xD600B002#32 = .ok (.decl 11) ∧
  decodeStrand 0xD6000003#32 = .ok .pfence

/-- A step runs the instruction that the agent whose turn it is fetches, and then only clears what came with the turn. -/
def Sys2Proof.Clauses.StepRunsFetchedInstruction : Prop :=
  ∀ (s t : State) (i : Instr), s.pick = .run i t →
    step s = match exec i t with
      | .next u => .next u.settled
      | r => r

/-- The AP's turn: where it stands free, its leaf lets it fetch and the sector of the launched image was read at the launch (assumption
80, the model's choice), the step is the run of the word at its place, when that is a word of the AP; and at a word that no row
decodes it is the run of the illegal-instruction event, with the access prefix before it where one is bound. -/
def Sys2Proof.Clauses.ApStepRunsWord : Prop :=
  ∀ (s t : State) (w : Word32) (p : Phys) (c : List Turn),
    s.agenda = ⟨s.core.id, .ap⟩ :: c → s.core.mode = .running → s.core.gated = false → s.core.halted = false →
    s.core.frozen = false → s.apHolds = false → s.canDeliverTrap = false → s.ap.ending = none → s.ap.issued = false →
    s.ap.chainPc = none → s.strand.image.word s.wordPc = some w → s.strand.image.badAt s.wordPc 4 = false →
    ({ s with agenda := c } : State).translate (s.wordPc.setWidth 64) ⟨false, true, false, 2⟩ s.strand.info.priv = .ok (p, t) →
    (∀ i, decodeStrand w = .ok i → onEp i = false →
      step s = match exec i t with
        | .next u => .next u.settled
        | r => r) ∧
    (∀ e, decodeStrand w = .error e →
      step s = match exec (.illegalInstruction (match s.ap.bind with
          | .access x => BitVec.ofNat 32 x.word
          | _ => w)) t with
        | .next u => .next u.settled
        | r => r)

/-- The AP's turn at a word that is no instruction takes the illegal-instruction trap with the word as its argument. -/
def Sys2Proof.Clauses.IllegalWordTraps : Prop :=
  ∀ (s : State) (w : Word32) (i : Instr), decodeStrand w = .ok i → s.onEngine = none → onEp i = false →
    apLegal s i = false →
    exec i s = .next (s.takeTrap (mkTrap .p 1 (match s.ap.bind with
      | .access p => p.word
      | _ => w.toNat)))

/-! ### Registers -/

/-- `a0` reads 0 and discards writes, and every other register reads what was written to it, whatever the rotation; a
write to one leaves every other as it was (R28 to R30, R69). -/
def Sys2Proof.Clauses.ApRegistersHold : Prop :=
  ∀ (s : State) (c d : Nat) (v : Word), s.inShadow = false → 1 ≤ c → c < 64 → d < 64 →
    s.aread 0 = 0 ∧ s.awrite 0 v = s ∧ (s.awrite c v).aread c = v ∧ (d ≠ c → (s.awrite c v).aread d = s.aread d)

/-- The same of the EP's registers, which have no constant among them (R28 to R30). -/
def Sys2Proof.Clauses.EpRegistersHold : Prop :=
  ∀ (s : State) (c d : Nat) (v : Word), c < 32 → d < 32 →
    (s.ewrite c v).eread c = v ∧ (d ≠ c → (s.ewrite c v).eread d = s.eread d)

/-- A rotating register 32 + i of the AP, with n its allotment and k its step, names physical register
32 + ((i − k) mod n); on the EP likewise from 16; the other codes name themselves (R30). -/
def Sys2Proof.Clauses.RotationNamesRegisters : Prop :=
  ∀ (r : Regs) (c : Nat),
    (r.apPhys c : Int) = (if 32 ≤ c ∧ c < 32 + allotAp r.rotbase
      then 32 + (((c : Int) - 32) - (field r.rotbase 0 16 : Nat)) % (allotAp r.rotbase : Nat) else c) ∧
    (r.epPhys c : Int) = (if 16 ≤ c ∧ c < 16 + allotEp r.rotbase
      then 16 + (((c : Int) - 16) - (field r.rotbase 16 16 : Nat)) % (allotEp r.rotbase : Nat) else c)

/-- A source code from 32 to 39 of the EP pops the queue: the head's data, 0 under the zero-poison mark, and the entry is
gone; the EP blocks under class 0 while the queue is empty or its head awaits data; a head with poison mark 2 is popped and
traps on the EP (R22, R24, R69, R410). -/
def Sys2Proof.Clauses.QueueOperandPops : Prop :=
  ∀ (s : State) (q : Nat) (x : QEntry) (rest : List QEntry) (v : Word), s.onEngine = none → s.ep.taken = [] → q < 8 →
    (s.strand.queues.q[q]?.getD [] = [] →
      rd 1#1 (BitVec.ofNat 6 (32 + q)) s = .error (.block { cls := 0, kind := 0, obj := q })) ∧
    (s.strand.queues.q[q]?.getD [] = x :: rest → x.data = none →
      rd 1#1 (BitVec.ofNat 6 (32 + q)) s = .error (.block { cls := 0, kind := 0, obj := q })) ∧
    (s.strand.queues.q[q]?.getD [] = x :: rest → x.data = some v → x.mark ≠ 2#2 →
      ∃ t, rd 1#1 (BitVec.ofNat 6 (32 + q)) s = .ok (if x.mark = 0#2 then v else 0, t) ∧
        t.strand.queues.q[q]?.getD [] = rest ∧ t.regs = s.regs ∧ t.mem = s.mem ∧
        ∀ k, k ≠ q → t.strand.queues.q[k]? = s.strand.queues.q[k]?) ∧
    (s.strand.queues.q[q]?.getD [] = x :: rest → x.data = some v → x.mark = 2#2 →
      ∃ t u, rd 1#1 (BitVec.ofNat 6 (32 + q)) s = .error (.trap (some t) u) ∧ u.cls = .e ∧ u.code = 0x16 ∧
        t.strand.queues.q[q]?.getD [] = rest)

/-! ### The end of a word -/

/-- A word of the active AP that ends by going on, with no prefix bound: the pc moves to the next word, one more word of
the path is passed, and a writer of a predicate in p1 to p31 pushes its predicate entry into `bq`; registers, streams,
memory and other cores stand (R18, R28). -/
def Sys2Proof.Clauses.ApRetires : Prop :=
  ∀ (s : State) (i : Instr), s.inShadow = false → s.ap.bind = .none →
    let t := s.retireAp i .seq
    t.ap.pc = s.ap.pc + 4 ∧ t.ap.seq = s.ap.seq + 1 ∧ t.ap.block = none ∧ t.ap.bind = .none ∧
    t.regs = s.regs ∧ t.strand.sys = s.strand.sys ∧ t.strand.streams = s.strand.streams ∧ t.ep = s.ep ∧
    t.strand.sg = s.strand.sg ∧ t.strand.pins = s.strand.pins ∧ t.strand.tiles = s.strand.tiles ∧
    t.mem = s.mem ∧ t.parked = s.parked ∧ t.share = s.share ∧ t.hub = s.hub ∧ t.core.engines = s.core.engines ∧
    t.strand.queues.q = s.strand.queues.q ∧ t.strand.queues.xq = s.strand.queues.xq ∧
    t.strand.queues.bq = s.strand.queues.bq ++ (match apPredDest i with
      | some d => [predEntry (s.predAp d) d]
      | none => [])

/-- A control transfer of the active AP pushes its path entry, with TAKEN 1 when the target is not the word after it, and
goes to its target; nothing else of the strand's registers and memory changes (R18). -/
def Sys2Proof.Clauses.TransfersPushPathEntries : Prop :=
  ∀ (s : State) (i : Instr) (p : BitVec 56) (rot : Bool), s.inShadow = false → s.ap.bind = .none →
    let t := s.retireAp i (.goto p rot)
    t.ap.pc = p ∧ t.ap.seq = s.ap.seq + 1 ∧ t.regs = s.regs ∧ t.mem = s.mem ∧ t.strand.sg = s.strand.sg ∧
    ∃ w, t.strand.queues.bq = s.strand.queues.bq ++ [w] ∧ field w 62 2 = 0 ∧ bit w 61 = (p != s.ap.pc + 4) ∧
      bit w 60 = rot ∧ bits w 0 56 = p

/-- A word of the EP that ends by going on, with no prefix bound: the EP's pc moves to the next word and its place in
program order by one; the AP, its registers, queues and memory stand (R15, R18). -/
def Sys2Proof.Clauses.EpRetires : Prop :=
  ∀ (s : State), s.ep.bind = .none → s.ep.writes = [] →
    let t := s.retireEp .seq
    t.ep.pc = s.ep.pc + 4 ∧ t.ep.seq = s.ep.seq + 1 ∧ t.ep.block = none ∧ t.regs = s.regs ∧ t.ap = s.ap ∧
    t.strand.queues = s.strand.queues ∧ t.mem = s.mem ∧ t.strand.sys = s.strand.sys ∧ t.parked = s.parked ∧
    t.share = s.share ∧ t.hub = s.hub ∧ t.core.engines = s.core.engines

/-- Under `rep` each repetition takes one from its processor's half of `rc` and one rotation step; the word runs again
until the half is 0, and then the processor goes on behind the prefix and the word (R30, R83 to R85). -/
def Sys2Proof.Clauses.RepeatCounts : Prop :=
  (∀ (s : State) (i : Instr), s.inShadow = false → s.ap.bind = .rep → apPredDest i = none →
    1 ≤ field s.regs.rc 0 32 →
    let t := s.retireAp i .seq
    field t.regs.rc 0 32 = field s.regs.rc 0 32 - 1 ∧ field t.regs.rc 32 32 = field s.regs.rc 32 32 ∧
    field t.regs.rotbase 0 16 = (field s.regs.rotbase 0 16 + 1) % 2 ^ 16 ∧
    field t.regs.rotbase 16 16 = field s.regs.rotbase 16 16 ∧ t.regs.a = s.regs.a ∧ t.mem = s.mem ∧
    t.ap.pc = (if field t.regs.rc 0 32 = 0 then s.ap.pc + 8 else s.ap.pc)) ∧
  (∀ (s : State), s.ep.bind = .rep → s.ep.writes = [] → 1 ≤ field s.regs.rc 32 32 →
    let t := s.retireEp .seq
    field t.regs.rc 32 32 = field s.regs.rc 32 32 - 1 ∧ field t.regs.rc 0 32 = field s.regs.rc 0 32 ∧
    field t.regs.rotbase 16 16 = (field s.regs.rotbase 16 16 + 1) % 2 ^ 16 ∧
    field t.regs.rotbase 0 16 = field s.regs.rotbase 0 16 ∧ t.regs.e = s.regs.e ∧ t.mem = s.mem ∧
    t.ep.pc = (if field t.regs.rc 32 32 = 0 then s.ep.pc + 8 else s.ep.pc))

/-! ### The shared control subset: integers and predicates -/

/-- Register forms of integer arithmetic with their results (R71). -/
def Sys2Proof.integerForms : List ((BitVec 1 → BitVec 6 → BitVec 6 → BitVec 6 → Instr) × (Word → Word → Word)) :=
  [(.add, fun x y => x + y), (.sub, fun x y => x - y), (.and, fun x y => x &&& y), (.or, fun x y => x ||| y),
   (.xor, fun x y => x ^^^ y), (.andn, fun x y => x &&& ~~~y),
   (.shl, fun x y => x <<< (y.toNat % 64)), (.shr, fun x y => x >>> (y.toNat % 64)),
   (.sra, fun x y => x.sshiftRight (y.toNat % 64)),
   (.min, fun x y => if x.toInt < y.toInt then x else y), (.max, fun x y => if x.toInt < y.toInt then y else x),
   (.minu, fun x y => if x.toNat < y.toNat then x else y), (.maxu, fun x y => if x.toNat < y.toNat then y else x),
   (.mul, fun x y => (x.setWidth 128 * y.setWidth 128).extractLsb' 0 64),
   (.mulh, fun x y => (x.signExtend 128 * y.signExtend 128).extractLsb' 64 64),
   (.mulhu, fun x y => (x.setWidth 128 * y.setWidth 128).extractLsb' 64 64),
   (.adds, fun x y => BitVec.ofInt 64 (max (-2 ^ 63) (min (2 ^ 63 - 1) (x.toInt + y.toInt)))),
   (.subs, fun x y => BitVec.ofInt 64 (max (-2 ^ 63) (min (2 ^ 63 - 1) (x.toInt - y.toInt)))),
   (.addus, fun x y => BitVec.ofNat 64 (min (x.toNat + y.toNat) (2 ^ 64 - 1))),
   (.subus, fun x y => BitVec.ofNat 64 (x.toNat - y.toNat))]

/-- Forms of integer arithmetic with one source register (R71). -/
def Sys2Proof.integerUnary : List ((BitVec 1 → BitVec 6 → BitVec 6 → Instr) × (Word → Word)) :=
  [(.sextb, fun x => (x.setWidth 8).signExtend 64), (.sexth, fun x => (x.setWidth 16).signExtend 64),
   (.sextw, fun x => (x.setWidth 32).signExtend 64),
   (.clz, fun x => BitVec.ofNat 64 ((List.range 64).takeWhile fun k => !x.getLsbD (63 - k)).length),
   (.popc, fun x => BitVec.ofNat 64 ((List.range 64).filter x.getLsbD).length)]

/-- Forms of integer arithmetic with a sign-extended IMM12 (R55, R71). -/
def Sys2Proof.integerImmediates : List ((BitVec 1 → BitVec 6 → BitVec 6 → BitVec 12 → Instr) × (Word → Word → Word)) :=
  [(.addi, fun x y => x + y), (.andi, fun x y => x &&& y), (.ori, fun x y => x ||| y), (.xori, fun x y => x ^^^ y),
   (.mini, fun x y => if x.toInt < y.toInt then x else y), (.maxi, fun x y => if x.toInt < y.toInt then y else x)]

/-- Shifts by an immediate amount (R55, R71). -/
def Sys2Proof.integerShifts : List ((BitVec 1 → BitVec 6 → BitVec 6 → BitVec 6 → Instr) × (Word → Nat → Word)) :=
  [(.shli, fun x n => x <<< n), (.shri, fun x n => x >>> n), (.srai, fun x n => x.sshiftRight n)]

/-- Every register form of integer arithmetic writes its result to D on the agent that runs it, once its sources can be
read, field A before field B, and the word ends (R22, R71, R98). -/
def Sys2Proof.Clauses.IntegerFormsWriteResult : Prop :=
  ∀ (s s1 s2 : State) (e : BitVec 1) (d a b : BitVec 6) (x y : Word),
    rd e a s = .ok (x, s1) → rd e b s1 = .ok (y, s2) →
    ∀ p ∈ integerForms, s.mayRun (p.1 e d a b) = true →
      exec (p.1 e d a b) s = .next (s.after (s2.wrote e d (p.2 x y)) (p.1 e d a b) .seq)

/-- The forms with one register source and an immediate or no second operand (R55, R71, R98). -/
def Sys2Proof.Clauses.IntegerImmediatesWriteResult : Prop :=
  ∀ (s s1 : State) (e : BitVec 1) (d a n : BitVec 6) (m : BitVec 12) (x : Word), rd e a s = .ok (x, s1) →
    (∀ p ∈ integerUnary, s.mayRun (p.1 e d a) = true →
      exec (p.1 e d a) s = .next (s.after (s1.wrote e d (p.2 x)) (p.1 e d a) .seq)) ∧
    (∀ p ∈ integerImmediates, s.mayRun (p.1 e d a m) = true →
      exec (p.1 e d a m) s = .next (s.after (s1.wrote e d (p.2 x (m.signExtend 64))) (p.1 e d a m) .seq)) ∧
    (∀ p ∈ integerShifts, s.mayRun (p.1 e d a n) = true →
      exec (p.1 e d a n) s = .next (s.after (s1.wrote e d (p.2 x n.toNat)) (p.1 e d a n) .seq))

/-- The AP's plain run of an integer form, seen from outside: D holds the result, `a0` stays 0, every other register, the
EP, the queues, streams and memory are unchanged, and the pc moves to the next word (R18, R28, R71). -/
def Obligations.IntegerFormsFrameOnAp : Prop :=
  ∀ (s : State) (d a b : BitVec 6), s.inShadow = false → s.ap.bind = .none →
    ∀ p ∈ integerForms, s.apRuns (p.1 0#1 d a b) →
      ∃ t, exec (p.1 0#1 d a b) s = .next t ∧
        t.aread d.toNat = (if d = 0#6 then 0 else p.2 (s.aread a.toNat) (s.aread b.toNat)) ∧
        (∀ c, c < 64 → c ≠ d.toNat → t.aread c = s.aread c) ∧
        t.regs.e = s.regs.e ∧ t.regs.p = s.regs.p ∧ t.regs.pe = s.regs.pe ∧ t.regs.rl = s.regs.rl ∧
        t.regs.lc = s.regs.lc ∧ t.regs.rc = s.regs.rc ∧ t.regs.rotbase = s.regs.rotbase ∧
        t.regs.waitb = s.regs.waitb ∧ t.regs.waitbEp = s.regs.waitbEp ∧ t.regs.aflags = s.regs.aflags ∧ t.strand.sys = s.strand.sys ∧
        t.ep = s.ep ∧ t.strand.queues = s.strand.queues ∧ t.strand.streams = s.strand.streams ∧
        t.strand.sg = s.strand.sg ∧ t.strand.tiles = s.strand.tiles ∧ t.strand.pins = s.strand.pins ∧
        t.core.engines = s.core.engines ∧ t.core.trap = s.core.trap ∧ t.mem = s.mem ∧ t.ap.pc = s.ap.pc + 4

/-- Conditions of a compare by their code (R55, R74). -/
def Sys2Proof.compareCondition (c : BitVec 3) (x y : Word) : Bool :=
  match c.toNat with
  | 0 => decide (x = y)
  | 1 => decide (x ≠ y)
  | 2 => decide (x.toInt < y.toInt)
  | 3 => decide (y.toInt ≤ x.toInt)
  | 4 => decide (x.toNat < y.toNat)
  | 5 => decide (y.toNat ≤ x.toNat)
  | 6 => x.getLsbD (y.toNat % 64)
  | _ => !x.getLsbD (y.toNat % 64)

/-- Predicate logic with its results (R76). -/
def Sys2Proof.predicateForms : List ((BitVec 1 → BitVec 6 → BitVec 6 → BitVec 6 → Instr) × (Bool → Bool → Bool)) :=
  [(.pand, fun x y => x && y), (.por, fun x y => x || y), (.pxor, fun x y => xor x y), (.pandn, fun x y => x && !y)]

/-- A compare writes the condition to its predicate, and a predicate operation its result, once the sources can be read
(R74 to R76, R98). -/
def Sys2Proof.Clauses.ComparesWritePredicate : Prop :=
  (∀ (s s1 s2 : State) (e : BitVec 1) (d a b : BitVec 6) (c : BitVec 3) (x y : Word),
    rd e a s = .ok (x, s1) → rd e b s1 = .ok (y, s2) → s.mayRun (.cmp e d a b c) = true →
    exec (.cmp e d a b c) s = .next (s.after (s2.wrotePred d (compareCondition c x y)) (.cmp e d a b c) .seq)) ∧
  (∀ (s s1 : State) (e : BitVec 1) (d a : BitVec 6) (c : BitVec 3) (m : BitVec 9) (x : Word),
    rd e a s = .ok (x, s1) → s.mayRun (.cmpi e d a c m) = true →
    exec (.cmpi e d a c m) s =
      .next (s.after (s1.wrotePred d (compareCondition c x (m.signExtend 64))) (.cmpi e d a c m) .seq)) ∧
  (∀ (s : State) (e : BitVec 1) (d a b : BitVec 6) (x y : Bool), rdPred e a s = .ok (x, s) → rdPred e b s = .ok (y, s) →
    ∀ p ∈ predicateForms, s.mayRun (p.1 e d a b) = true →
      exec (p.1 e d a b) s = .next (s.after (s.wrotePred d (p.2 x y)) (p.1 e d a b) .seq)) ∧
  (∀ (s : State) (e : BitVec 1) (d a : BitVec 6) (x : Bool), rdPred e a s = .ok (x, s) → s.mayRun (.pnot e d a) = true →
    exec (.pnot e d a) s = .next (s.after (s.wrotePred d (!x)) (.pnot e d a) .seq))

/-- `p0` reads 1 and ignores writes; a predicate read after a write gives what was written, and a write leaves the other
predicates as they were (R26). -/
def Sys2Proof.Clauses.PredicatesHold : Prop :=
  ∀ (s : State) (c d : Nat) (v : Bool), s.inShadow = false →
    s.predAp 0 = true ∧ s.predEp 0 = true ∧ s.predWrite 0 v = s ∧
    (1 ≤ c → c < 48 → (s.predWrite c v).predAp c = v ∧ (d ≠ c → (s.predWrite c v).predAp d = s.predAp d))

/-- The AP waits for a predicate in p32 to p47 that an earlier word of the EP still has to write (R26). -/
def Sys2Proof.Clauses.ApWaitsForEpPredicates : Prop :=
  ∀ (s : State) (c : BitVec 6), s.onEngine = none → s.inShadow = false →
    (s.ep.pPend.any (fun w => w.pred == c.toNat) = true →
      rdPred 0#1 c s = .error (.block { cls := 0, kind := 9, obj := 0, tally := c.toNat + 2 })) ∧
    (s.ep.pPend.any (fun w => w.pred == c.toNat) = false → rdPred 0#1 c s = .ok (s.predAp c.toNat, s))

/-! ### Control flow -/

/-- `bt` and `bf` go to PC + 4·SignExt(OFF18, 18) when their condition holds and to the next word when it does not; `call`
leaves the address of the next word in its register; `jr` goes to an aligned address, its bits [63:56] dropped (assumption 57, the
model's choice), and an address whose bits [1:0] are not 0 traps (R79, R80, R98). -/
def Sys2Proof.Clauses.BranchesTransfer : Prop :=
  (∀ (s : State) (c : BitVec 6) (o : BitVec 18) (v : Bool), rdPred 0#1 c s = .ok (v, s) →
    (s.mayRun (.bt c o) = true → s.branchOk (if v then s.branchTo o else s.nextWord) = true →
      exec (.bt c o) s = .next (s.after s (.bt c o) (.goto (if v then s.branchTo o else s.nextWord) false))) ∧
    (s.mayRun (.bf c o) = true → s.branchOk (if v then s.nextWord else s.branchTo o) = true →
      exec (.bf c o) s = .next (s.after s (.bf c o) (.goto (if v then s.nextWord else s.branchTo o) false)))) ∧
  (∀ (s : State) (c : BitVec 6) (o : BitVec 18), s.apRuns (.call c o) →
    exec (.call c o) s =
      .next (s.after (s.awrite c.toNat (s.nextWord.setWidth 64)) (.call c o) (.goto (s.branchTo o) false))) ∧
  (∀ (s : State) (a : BitVec 6), s.apRuns (.jr a) →
    (field (s.aread a.toNat) 0 2 = 0 →
      exec (.jr a) s = .next (s.after s (.jr a) (.goto ((s.aread a.toNat).setWidth 56) false))) ∧
    (field (s.aread a.toNat) 0 2 ≠ 0 →
      exec (.jr a) s = .next (s.takeTrap { mkTrap .p 2 0 with va := s.aread a.toNat })))

/-- Where the branches go on the AP: from the address of the word itself, a prefix before it aside (R45, R79). -/
def Sys2Proof.Clauses.BranchTargets : Prop :=
  ∀ (s : State) (o : BitVec 18), s.onEngine = none → s.inShadow = false → s.ap.bind = .none →
    s.branchTo o = s.ap.pc + 4 * o.signExtend 56 ∧ s.nextWord = s.ap.pc + 4

/-- A branch of an engine to a command that its ring no longer holds stops the engine with the ring-branch cause (R36,
R98). -/
def Sys2Proof.Clauses.EngineBranchOutOfWindowStops : Prop :=
  ∀ (s : State) (n : Nat) (c : BitVec 6) (o : BitVec 18), s.onEngine = some n → engineWf (.bt c o) = true →
    (s.engine n).fread c.toNat = true → (s.engine n).reaches ((s.branchTo o).setWidth 16) = false →
    exec (.bt c o) s = .next (s.stopEngine n 0x22 ((s.engine n).posArg 0) 0 0 false)

/-- `lbeg` with a count of 0, or with an empty body, clears ACTIVE and the counter and goes behind the body; otherwise it
writes the counter, START with ROT and ACTIVE, and END, and enters the body.  `lend` of the level whose END is its address
and whose START is its target takes one from the counter and goes back, or, with the counter at 1 or 0, clears it and
ACTIVE and goes on; any other `lend` traps with its level (R81, R82). -/
def Obligations.HardwareLoopsCount : Prop :=
  (∀ (s : State) (r : BitVec 1) (l : BitVec 3) (a : BitVec 6) (n : BitVec 12), s.apRuns (.lbeg r l a n) →
    (s.aread a.toNat = 0 ∨ n = 1#12 →
      exec (.lbeg r l a n) s = .next (s.after (s.modRegs fun g => { g with
          lcst := g.lcst.setIfInBounds l.toNat ((g.lcst[l.toNat]?.getD 0) &&& ~~~1), lc := g.lc.setIfInBounds l.toNat 0 })
        (.lbeg r l a n) (.goto (s.wordPc + 4 * n.setWidth 56) false))) ∧
    (s.aread a.toNat ≠ 0 → n ≠ 1#12 →
      exec (.lbeg r l a n) s = .next (s.after (s.modRegs fun g => { g with
          lc := g.lc.setIfInBounds l.toNat (s.aread a.toNat),
          lcst := g.lcst.setIfInBounds l.toNat (lcstWord (s.wordPc + 4) r),
          lcend := g.lcend.setIfInBounds l.toNat (lcendWord (s.wordPc + 4 * (n - 1).setWidth 56)) })
        (.lbeg r l a n) (.goto (s.wordPc + 4) false)))) ∧
  (∀ (s : State) (l : BitVec 3) (o : BitVec 18) (st : Word), s.apRuns (.lend l o) →
    st = s.regs.lcst[l.toNat]?.getD 0 →
    (bit st 0 = true ∧ s.wordPc = (s.regs.lcend[l.toNat]?.getD 0).setWidth 56 ∧
        s.branchTo o = (st &&& ~~~3).setWidth 56 →
      (2 ≤ (s.regs.lc[l.toNat]?.getD 0).toNat →
        exec (.lend l o) s = .next (s.after (s.modRegs fun g => { (if bit st 1 then g.stepKap else g) with
            lc := g.lc.setIfInBounds l.toNat ((g.lc[l.toNat]?.getD 0) - 1) })
          (.lend l o) (.goto (s.branchTo o) (bit st 1)))) ∧
      ((s.regs.lc[l.toNat]?.getD 0).toNat ≤ 1 →
        exec (.lend l o) s = .next (s.after (s.modRegs fun g => { (if bit st 1 then g.stepKap else g) with
            lc := g.lc.setIfInBounds l.toNat 0, lcst := g.lcst.setIfInBounds l.toNat (st &&& ~~~1) })
          (.lend l o) (.goto s.nextWord (bit st 1))))) ∧
    (¬(bit st 0 = true ∧ s.wordPc = (s.regs.lcend[l.toNat]?.getD 0).setWidth 56 ∧
        s.branchTo o = (st &&& ~~~3).setWidth 56) →
      exec (.lend l o) s = .next (s.takeTrap (mkTrap .p 5 l.toNat))))

/-- `sgwait` takes one from a semaphore that counts more than the engines that wait on it before the AP, and blocks under its
wait class at one that does not; `sgraise` adds one, and a raise of a semaphore that holds 65,535 is the semaphore-overflow
trap with the semaphore's number (R38, R39, R87, R88). -/
def Obligations.SemaphoresCount : Prop :=
  ∀ (s : State) (g : BitVec 6) (w : BitVec 4),
    (s.apRuns (.sgwait g w) →
      (s.waitsAhead g.toNat 6 < (s.sema g.toNat).toNat →
        exec (.sgwait g w) s = .next (s.after (s.setSema g.toNat (s.sema g.toNat - 1)) (.sgwait g w) .seq)) ∧
      ((s.sema g.toNat).toNat ≤ s.waitsAhead g.toNat 6 →
        exec (.sgwait g w) s = .next (s.blockAp { cls := w.toNat, kind := 2, obj := g.toNat }))) ∧
    (s.apRuns (.sgraise g) →
      (s.sema g.toNat ≠ 65535#16 →
        exec (.sgraise g) s = .next (s.after (s.setSema g.toNat (s.sema g.toNat + 1)) (.sgraise g) .seq)) ∧
      (s.sema g.toNat = 65535#16 → exec (.sgraise g) s = .next (s.takeTrap (mkTrap .p 0x20 g.toNat))))

/-- A block lasts: while its count is within the bound of its wait class the AP only notes it and unbinds the prefix; past
the bound the progress trap is taken, with the block's class, kind and object in its argument (R24, R41, R42, R394). -/
def Sys2Proof.Clauses.BlocksEndInProgressTrap : Prop :=
  ∀ (s : State) (w : Wait) (b : Block), s.inShadow = false → w.bounded = true → b = nextBlock s.regs s.ap.block w →
    (b.cls = 15 ∨ b.count ≤ b.bound →
      s.blockAp w = s.modAp fun a => { a with block := some b, bind := .none }) ∧
    (b.cls ≠ 15 → b.bound < b.count → b.kind ≠ 2 → b.kind ≠ 7 →
      s.blockAp w = s.takeTrap { mkTrap .p 0xA (b.rpos * 2 ^ 16 + b.kind * 2 ^ 12 + b.obj * 2 ^ 4 + b.cls) with
        eng := b.eng })

/-! ### Prefixes and literals -/

/-- `hint` only moves on; `ldp` loads the literal of the image as launched into its register, where its leaf has R; outside the
image it is the literal-range trap, a fault of the translation is a precise trap, and a literal in a sector that the launch could not
read is the poisoned-data trap (assumption 80, the model's choice) (R67, R77, R78, R98, R401). -/
def Sys2Proof.Clauses.HintsAndLiterals : Prop :=
  (∀ (s : State) (e : BitVec 1) (x : BitVec 24), s.mayRun (.hint e x) = true →
    exec (.hint e x) s = .next (s.after s (.hint e x) .seq)) ∧
  (∀ (s : State) (d : BitVec 6) (o : BitVec 18) (a : BitVec 56), s.apRuns (.ldp 0#1 d o) → s.inShadow = false →
    a = s.wordPc + 4 * o.signExtend 56 → a.toNat % 8 = 0 →
    (∀ bs, s.strand.image.read a.toNat 8 = some bs →
      (∀ x, s.translate (a.setWidth 64) ⟨false, true, false, 0⟩ s.privileged = .error x →
        exec (.ldp 0#1 d o) s = .next ((s.missed (a.setWidth 64) false).takeTrap x)) ∧
      (∀ p t, s.translate (a.setWidth 64) ⟨false, true, false, 0⟩ s.privileged = .ok (p, t) →
        (s.strand.image.badAt a 8 = false →
          exec (.ldp 0#1 d o) s = .next (s.after (t.awrite d.toNat (leWord bs)) (.ldp 0#1 d o) .seq)) ∧
        (s.strand.image.badAt a 8 = true →
          exec (.ldp 0#1 d o) s = .next (t.takeTrap { mkTrap .p 0x16 0 with va := a.setWidth 64, priv := s.privileged })))) ∧
    (s.strand.image.read a.toNat 8 = none → exec (.ldp 0#1 d o) s = .next (s.takeTrap (mkTrap .p 4 0)))) ∧
  (∀ (s : State) (d : BitVec 6) (o : BitVec 18) (bs : List Byte), s.epRuns (.ldp 1#1 d o) →
    s.strand.image.read (s.wordPcEp + 4 * o.signExtend 56).toNat 8 = some bs →
    s.strand.image.badAt (s.wordPcEp + 4 * o.signExtend 56) 8 = false →
    exec (.ldp 1#1 d o) s = .next (s.after (s.ewrite d.toNat (leWord bs)) (.ldp 1#1 d o) .seq))

/-- A `rep` of the AP or the EP before a word that it may bind: with its half of `rc` 0 and a count from 1 to its
allotment, or any count without one, the half takes the count and the word is bound; a count of 0 goes behind the word;
more than the allotment is the illegal-repeat trap of the AP; a half that is not 0 goes on (R83 to R85; that a prefix takes a turn of
its own and only binds is the model's choice, assumption 22). -/
def Sys2Proof.Clauses.RepeatPrefixBinds : Prop :=
  (∀ (s : State) (n : BitVec 20) (j : Instr), s.onEngine = none → s.inShadow = false → apLegal s (.repN 0#1 n) = true →
    s.repTarget 0#1 = some j →
    (field s.regs.rc 0 32 ≠ 0 → exec (.repN 0#1 n) s = .next (s.modAp fun a => { a with bind := .rep })) ∧
    (field s.regs.rc 0 32 = 0 → n ≠ 0 → (allotAp s.regs.rotbase = 0 ∨ n.toNat ≤ allotAp s.regs.rotbase) →
      exec (.repN 0#1 n) s = .next ((s.modRegs fun r => { r with rc := setField r.rc 0 32 n.toNat }).modAp
        fun a => { a with bind := .rep })) ∧
    (field s.regs.rc 0 32 = 0 → n ≠ 0 → allotAp s.regs.rotbase ≠ 0 → allotAp s.regs.rotbase < n.toNat →
      exec (.repN 0#1 n) s = .next (s.takeTrap (mkTrap .p 6 n.toNat))) ∧
    (field s.regs.rc 0 32 = 0 → n = 0 → writesApPred j = false → apPredDest j = none →
      ∃ t, exec (.repN 0#1 n) s = .next t ∧ t.ap.pc = s.ap.pc + 8 ∧ t.regs = s.regs ∧ t.mem = s.mem)) ∧
  (∀ (s : State) (c : BitVec 6) (j : Instr), s.onEngine = none → s.inShadow = false → apLegal s (.repReg 0#1 c) = true →
    s.repTarget 0#1 = some j → field s.regs.rc 0 32 = 0 → field (s.aread c.toNat) 0 32 ≠ 0 →
    (allotAp s.regs.rotbase = 0 ∨ field (s.aread c.toNat) 0 32 ≤ allotAp s.regs.rotbase) →
    exec (.repReg 0#1 c) s = .next ((s.modRegs fun r => { r with rc := setField r.rc 0 32 (field (s.aread c.toNat) 0 32) }).modAp
      fun a => { a with bind := .rep })) ∧
  (∀ (s : State) (n : BitVec 20) (j : Instr), s.onEngine = none → s.inShadow = false → s.repTarget 1#1 = some j →
    field s.regs.rc 32 32 = 0 → n ≠ 0 →
    exec (.repN 1#1 n) s = .next ((s.modRegs fun r => { r with rc := setField r.rc 32 32 n.toNat }).modEp
      fun e => { e with bind := .rep, repCount := n.toNat })) ∧
  (∀ (s : State) (c : BitVec 6) (j : Instr), s.onEngine = none → s.inShadow = false → s.repTarget 1#1 = some j →
    c.toNat < 32 → field s.regs.rc 32 32 = 0 → field (s.eread c.toNat) 0 32 ≠ 0 →
    (allotEp s.regs.rotbase = 0 ∨ field (s.eread c.toNat) 0 32 ≤ allotEp s.regs.rotbase) →
    ∃ t, exec (.repReg 1#1 c) s = .next t ∧ t.ep.bind = .rep ∧ field t.regs.rc 32 32 = field (s.eread c.toNat) 0 32 ∧
      field t.regs.rc 0 32 = field s.regs.rc 0 32 ∧ t.regs.e = s.regs.e ∧ t.ep.pc = s.ep.pc ∧ t.mem = s.mem)

/-- An access prefix binds the next word with its options, and nothing else changes (R50, R51; that it takes a turn of its own is the
model's choice, assumption 22). -/
def Sys2Proof.Clauses.AccessPrefixBinds : Prop :=
  ∀ (s : State) (c : BitVec 4) (a l : BitVec 1) (k : BitVec 3) (v : BitVec 1) (p : BitVec 2) (z : BitVec 1),
    s.apRuns (.accessPrefix c a l k v p z) →
    exec (.accessPrefix c a l k v p z) s = .next (s.modAp fun x => { x with
      bind := .access ⟨c.toNat, a == 1#1, l == 1#1, k.toNat, v == 1#1, p.toNat, z == 1#1⟩ })

/-! ### System instructions -/

/-- `trap n` completes and then takes the software trap with its own address; `tfence` passes at once; `yield`, and
`yieldp` under a request, give up the core: the AP stops behind the instruction with its path entry pushed, or, with LEFT
already 0 under a request, the forced save is due instead; `yieldp` without a request only goes on; `halt` pushes its path
entry and stops the AP until the core is released (R85, R93 to R96). -/
def Obligations.SystemInstructionsAct : Prop :=
  ∀ (s : State),
    (∀ n : BitVec 12, s.apRuns (.trap n) →
      exec (.trap n) s =
        .next ((s.retireAp (.trap n) .seq).takeTrap { mkTrap .p 8 n.toNat with pc := some s.ap.pc })) ∧
    (s.apRuns .tfence → exec .tfence s = .next (s.after s .tfence (.goto s.nextWord false))) ∧
    (s.apRuns .yield → ¬(s.core.regs.yreq = 1 ∧ field s.core.regs.ydead 32 32 = 0) →
      ∃ t, exec .yield s = .next t ∧ t.ap.ending = some .yield ∧ t.ap.pc = s.nextWord ∧ t.ap.seq = s.ap.seq + 1 ∧
        t.regs = s.regs ∧ t.mem = s.mem ∧ t.core.saveDue = s.core.saveDue ∧
        t.strand.queues.bq = s.strand.queues.bq ++ [pathEntry false false s.nextWord]) ∧
    (s.apRuns .yield → s.core.regs.yreq = 1 → field s.core.regs.ydead 32 32 = 0 →
      ∃ t, exec .yield s = .next t ∧ t.core.saveDue = true ∧ t.ap.pc = s.ap.pc ∧ t.strand.queues = s.strand.queues ∧
        t.regs = s.regs ∧ t.mem = s.mem) ∧
    (s.apRuns .yieldp → s.core.regs.yreq = 1 → field s.core.regs.ydead 32 32 ≠ 0 →
      ∃ t, exec .yieldp s = .next t ∧ t.ap.ending = some .yield ∧ t.ap.pc = s.nextWord ∧ t.regs = s.regs ∧ t.mem = s.mem) ∧
    (s.apRuns .yieldp → s.core.regs.yreq ≠ 1 →
      exec .yieldp s = .next (s.after s .yieldp (.goto s.nextWord false))) ∧
    (s.apRuns .halt →
      ∃ t, exec .halt s = .next t ∧ t.ap.ending = some .halt ∧ t.ap.pc = s.ap.pc ∧ t.ap.seq = s.ap.seq + 1 ∧
        t.regs = s.regs ∧ t.mem = s.mem ∧
        t.strand.queues.bq = s.strand.queues.bq ++ [pathEntry false false s.nextWord] ∧
        ∃ b, t.ap.block = some b ∧ b.cls = 0 ∧ b.count = 1 ∧ b.kind = 7)

/-! ### Traps and the shadow -/

/-- Delivery of a trap to a strand with a handler: `trapcause`, `tpc`, `tval` and `tinfo` are written, the shadow starts
at ADDR of `shvec`, and the registers of the strand, its queues, streams, engines and memory stand as they were (R33,
R387 to R389). -/
def Sys2Proof.Clauses.TrapEntersHandler : Prop :=
  ∀ (s : State) (t : Trap), s.inShadow = false → field s.strand.sys.shvec 2 54 ≠ 0 →
    let u := s.takeTrap t
    u.inShadow = true ∧ u.core.trap = some t ∧
    u.strand.shadow.pc.toNat = 4 * field s.strand.sys.shvec 2 54 ∧
    field u.strand.sys.trapcause 32 32 = t.arg % 2 ^ 32 ∧ bit u.strand.sys.trapcause 31 = !s.strand.pend.isEmpty ∧
    field u.strand.sys.trapcause 24 4 = t.src % 16 ∧ field u.strand.sys.trapcause 16 8 = t.eng % 256 ∧
    field u.strand.sys.trapcause 0 16 = t.code % 2 ^ 16 ∧ field u.strand.sys.trapcause 28 3 = 0 ∧
    u.strand.sys.tpc = (s.trapPc t).setWidth 64 ∧ u.strand.sys.tval = t.va ∧
    bit u.strand.sys.tinfo 33 = t.priv ∧ bit u.strand.sys.tinfo 32 = t.host ∧
    field u.strand.sys.tinfo 24 8 = t.kind % 256 ∧ field u.strand.sys.tinfo 34 30 = 0 ∧
    (t.src = 1 → field u.strand.sys.tinfo 16 4 = t.stream % 16 ∧ field u.strand.sys.tinfo 0 16 = t.elem % 2 ^ 16) ∧
    u.strand.sys.shvec = s.strand.sys.shvec ∧
    u.regs = s.regs ∧ u.ap.pc = s.ap.pc ∧ u.ap.seq = s.ap.seq ∧ u.ep.pc = s.ep.pc ∧ u.ep.seq = s.ep.seq ∧
    u.strand.queues = s.strand.queues ∧ u.strand.streams = s.strand.streams ∧ u.strand.pins = s.strand.pins ∧
    u.strand.tiles = s.strand.tiles ∧ u.strand.sg = s.strand.sg ∧ u.strand.pend = s.strand.pend ∧
    u.strand.shadow.h = s.strand.shadow.h ∧ u.strand.shadow.hp = s.strand.shadow.hp ∧
    u.core.engines = s.core.engines ∧ u.mem = s.mem ∧ u.parked = s.parked ∧ u.hub = s.hub

/-- With ADDR 0 the handler is not entered: a strand that runs alone ends with the trap's cause in a fault record, its
pins are released and its engines stop at a command boundary; and a cause raised in the shadow ends the strand with the shadow-fault cause whose
argument is that cause (R224, R351, R389, R391, R392). -/
def Sys2Proof.Clauses.TrapWithoutHandlerEndsStrand : Prop :=
  ∀ (s : State) (t : Trap), s.core.running = none →
    (s.inShadow = false → field s.strand.sys.shvec 2 54 = 0 →
      let u := s.takeTrap t
      u.core.mode = .idle ∧ u.core.running = none ∧ u.core.trap = none ∧ u.mem = s.mem ∧
      (∃ r, u.hub.faults.head? = some r ∧ r.code = t.code ∧ r.arg = t.arg) ∧
      ∀ i, i < 16 → (u.strand.pins[i]?.getD Pin.free).state = 0) ∧
    (s.inShadow = true →
      let u := s.takeTrap t
      u.core.mode = .idle ∧ u.mem = s.mem ∧
      ∃ r, u.hub.faults.head? = some r ∧ r.code = 0x30 ∧ r.arg = t.code)

/-- The shadow's return from a precise trap: RETRY gives the core back to the active context at the instruction that
trapped; SKIP of a plain instruction passes it and clears the AP's half of `rc`; FAIL ends the strand with the trap's
cause; ACT 3 ends it with the shadow-fault cause and 0xFFFF (R391, R392). -/
def Sys2Proof.Clauses.ShadowReturns : Prop :=
  ∀ (s : State) (t : Trap), s.inShadow = true → s.core.trap = some t → t.cls = .p → t.code ≠ 8 →
    (exec .shretRetry s = .next (s.shret 0) ∧ (s.shret 0).core.mode = .running ∧ (s.shret 0).core.trap = none ∧
      (s.shret 0).ap.pc = s.ap.pc ∧ (s.shret 0).regs = s.regs ∧ (s.shret 0).mem = s.mem) ∧
    (s.skipFails = false → exec .shretSkip s = .next (s.shret 1) ∧ (s.shret 1).core.mode = .running ∧
      (s.shret 1).ap.pc = s.ap.pc + s.apSize ∧ (s.shret 1).ap.seq = s.ap.seq + 1 ∧
      field (s.shret 1).regs.rc 0 32 = 0 ∧ field (s.shret 1).regs.rc 32 32 = field s.regs.rc 32 32 ∧
      (s.shret 1).regs.a = s.regs.a ∧ (s.shret 1).strand.queues = s.strand.queues ∧ (s.shret 1).mem = s.mem) ∧
    (s.skipFails = true → s.shret 1 = s.endStrand t.code t.arg t.eng) ∧
    (exec .shretFail s = .next (s.endStrand t.code t.arg t.eng)) ∧
    s.shret 3 = s.endStrand 0x30 0xFFFF t.eng

/-- `csrw shret` ends the handler by ACT, and outside the shadow it is an illegal-instruction encoding (R391). -/
def Sys2Proof.Clauses.ShretOnlyInShadow : Prop :=
  ∀ (s : State) (a : BitVec 6),
    (s.inShadow = true → s.onEngine = none → apLegal s (.csrw a 0x1D1#12) = true →
      exec (.csrw a 0x1D1#12) s = .next (s.shret (field (s.aread a.toNat) 0 2))) ∧
    (s.inShadow = false → exec (.csrw a 0x1D1#12) s = .next (s.takeTrap (mkTrap .p 1 (s.illegalWord (.csrw a 0x1D1#12)))))

/-- A cause raised in the shadow, and ACT 3, end the strand with the shadow-fault cause, whose argument is the shadow's own
cause, or 0xFFFF for ACT 3; the strand does not run on (R392). -/
def Sys2Proof.Clauses.ShadowFaultEndsStrand : Prop :=
  ∀ (s : State) (t x : Trap), s.inShadow = true → s.core.trap = some x →
    s.takeTrap t = s.endStrand 0x30 t.code t.eng ∧ s.shret 3 = s.endStrand 0x30 0xFFFF x.eng ∧
    (∀ c a e, (s.endStrand c a e).core.mode = .idle ∧ (s.endStrand c a e).core.running = none ∧
      (s.endStrand c a e).core.trap = none) ∧
    (s.core.running = none → ∀ c a e, ∃ r, (s.endStrand c a e).hub.faults.head? = some r ∧ r.code = c ∧ r.arg = a) ∧
    ∀ (q : Running) (v : Invocation), s.core.running = some q → v ∈ s.hub.invocations → v.id = q.record.inv → v.id ≠ 0 →
      v.fault = none → ∀ c a e, ∃ w ∈ (s.endStrand c a e).hub.invocations, w.id = v.id ∧
        ∃ r, w.fault = some r ∧ r.code = c ∧ r.arg = a

/-- Pending traps wait for an instruction boundary of the active context and are delivered one at a time: EP-precise ones
first, then those of engines by number, then those of pin entries by number (R383, R384). -/
def Sys2Proof.Clauses.PendingTrapsDelivered : Prop :=
  ∀ (s : State) (t : Trap),
    (s.canDeliverTrap = true → firstTrap s.strand.pend = some t →
      exec .trapDelivery s =
        .next ((s.modStrand fun x => { x with pend := x.pend.erase t }).takeTrap t) ∧
      t ∈ s.strand.pend ∧ ∀ u ∈ s.strand.pend,
        (u.cls = .e → t.cls ≠ .b) ∧
        (t.cls = .b ∧ u.cls = .b → t.src = 3 ∧ u.src = 3 → t.arg ≤ u.arg) ∧
        (t.cls = .b ∧ u.cls = .b → t.src ≠ 3 ∧ u.src ≠ 3 → t.eng ≤ u.eng) ∧
        (t.cls = .b ∧ u.cls = .b → u.src ≠ 3 → u.eng < 98 → t.src ≠ 3)) ∧
    (s.canDeliverTrap = false → exec .trapDelivery s = .next s)

/-- The words and events that stop a strand otherwise: an illegal word, a cause raised in the shadow, an uncorrectable
error in a strand's state, which writes a fault record even where its invocation is replayed, and one in the storage of an accumulator
tile, which only marks the tile (R66, R392, R408, R412, R417). -/
def Sys2Proof.Clauses.ErrorsEndStrand : Prop :=
  ∀ (s : State),
    (∀ w : BitVec 32, s.core.mode ≠ .idle → exec (.illegalInstruction w) s = .next (s.takeTrap (mkTrap .p 1 w.toNat))) ∧
    (s.inShadow = true → exec .shadowFault s = .next (s.endStrand 0x30 (s.input.a % 2 ^ 16) 0xFF)) ∧
    (s.core.mode ≠ .idle → s.input.c ≠ 1 → exec .strandStateError s = .next s.stateError) ∧
    s.stateError.core.mode = .idle ∧ s.stateError.core.running = none ∧
    (s.unrecorded = false → s.stateError = s.endStrand 0x16 0 0xFF) ∧
    (s.unrecorded = true → ∃ r, s.stateError.hub.faults.head? = some r ∧ r.code = 0x16 ∧ r.arg = 0) ∧
    (s.core.mode ≠ .idle → s.input.c = 1 →
      ∃ t, exec .strandStateError s = .next t ∧ (t.strand.tile (s.input.a % 48)).live = (s.strand.tile (s.input.a % 48)).live ∧
        (t.strand.tile (s.input.a % 48)).poisoned = true ∧ t.core.mode = s.core.mode ∧ t.regs = s.regs ∧ t.mem = s.mem)

/-! ### System registers -/

/-- `csrr` writes the value of the system register to its destination and changes nothing else; with `a0` as the destination
the value is dropped (R89, R90). -/
def Sys2Proof.Clauses.CsrrReads : Prop :=
  ∀ (s : State) (d : BitVec 6) (n : BitVec 12), s.apRuns (.csrr d n) →
    exec (.csrr d n) s = .next (s.after (s.awrite d.toNat (s.sysRead n.toNat)) (.csrr d n) .seq)

/-- What `csrr` reads of the registers that the strand and its core hold, by their numbers (R12, R25, R29, R41, R42, R81,
R85, R92, R111, R206, R269, R387 to R389, R397). -/
def Sys2Proof.Clauses.CsrrNumbers : Prop :=
  ∀ (s : State),
    (∀ n, n < 16 → s.sysRead n = (s.regs.waitb[n]?.getD 0).setWidth 64) ∧
    (∀ n, n < 16 → s.sysRead (0x40 + n) = s.regs.rl[n]?.getD 0) ∧
    (∀ n, n < 6 → s.sysRead (0x20 + n) = (s.engine n).cfg ∧ s.sysRead (0x28 + n) = (s.engine n).pointers ∧
      s.sysRead (0x30 + n) = s.regs.lc[n]?.getD 0 ∧ s.sysRead (0x100 + n) = s.regs.lcst[n]?.getD 0 ∧
      s.sysRead (0x108 + n) = s.regs.lcend[n]?.getD 0) ∧
    s.sysRead 0x10 = s.regs.rotbase ∧ s.sysRead 0x11 = s.regs.rc ∧ s.sysRead 0x12 = s.strand.sys.lodstall ∧
    s.sysRead 0x13 = s.strand.sys.lodpred ∧ s.sysRead 0x14 = s.regs.srseed ∧ s.sysRead 0x15 = s.core.regs.yreq ∧
    s.sysRead 0x16 = s.core.regs.ydead ∧ s.sysRead 0x17 = s.strand.sys.trapcause ∧
    s.sysRead 0x111 = s.strand.sys.zpcnt ∧ s.sysRead 0x112 = s.strand.sys.digcancel ∧
    s.sysRead 0x1D0 = s.strand.sys.shvec ∧ s.sysRead 0x1D2 = s.strand.sys.tval ∧ s.sysRead 0x1D3 = s.strand.sys.tpc ∧
    s.sysRead 0x1D4 = s.strand.sys.tinfo ∧ s.sysRead 0x1D8 = s.strand.sys.ptbase ∧
    s.sysRead 0x1D9 = s.strand.sys.hptbase ∧ s.sysRead 0x1E0 = s.die.eccstat ∧ s.sysRead 0x1E1 = s.core.regs.rplstat

/-- Registers that any code may write, with the write; those of R89 that the EP uses go to it in program order (R42, R89,
R91, R111, R206, R223, R235, R269, R295, R296, R320). -/
def Sys2Proof.openRegisters (v : Word) : List (Nat × (State → State)) :=
  ((List.range 15).map fun k =>
    (k, fun s => (s.modRegs fun r => { r with waitb := r.waitb.setIfInBounds k (v.setWidth 32) }).writeEp k v)) ++
  ((List.range 6).map fun k => (0x30 + k, fun s => s.modRegs fun r => { r with lc := r.lc.setIfInBounds k v })) ++
  ((List.range 16).map fun k =>
    (0x180 + k, fun s => s.modCoreRegs fun r => { r with wcnt := r.wcnt.setIfInBounds k (v.setWidth 32) })) ++
  [(0x14, fun s => s.writeSrseed v), (0x110, fun s => s.writeAflags v),
   (0x111, fun s => s.modSys fun y => { y with zpcnt := (v.setWidth 32).setWidth 64 }),
   (0x113, fun s => s.modSys fun y => { y with nbpois := v }),
   (0x1A0, fun s => s.modSys fun y => { y with ordstat := v }), (0x121, fun s => s.modCoreRegs fun r => { r with rtcnt := v }),
   (0x122, fun s => s.modCoreRegs fun r => { r with landfree := (v.setWidth 16).setWidth 64 }),
   (0x192, fun s => s.modCoreRegs fun r => { r with wstat := v })]

/-- Registers, or fields, that only privileged code writes (R12, R25, R29, R85, R92, R186, R389, R418, R419). -/
def Sys2Proof.privilegedRegisters (v : Word) : List (Nat × (State → State)) :=
  [(0x10, fun s => s.writeRot v), (0x11, fun s => s.writeRc v),
   (0x12, fun s => s.modSys fun y => { y with lodstall := v }), (0x13, fun s => s.modSys fun y => { y with lodpred := v }),
   (0x16, fun s => s.modCoreRegs fun r => r.writeBound v), (0x112, fun s => s.modSys fun y => { y with digcancel := v }),
   (0x1D0, fun s => s.modSys fun y => { y with shvec := v &&& 0x00FFFFFFFFFFFFFC#64 }),
   (0x1E0, fun s => s.modDie fun d => { d with eccstat := v }),
   (0x1E1, fun s => s.modCoreRegs fun r => { r with rplstat := v })]

/-- Registers that no code writes (R89, R92, R387, R388, R397). -/
def Sys2Proof.readOnlyRegisters : List Nat := [0x15, 0x17, 0x40, 0x100, 0x108, 0x134, 0x160, 0x161, 0x171, 0x1D2, 0x1D3, 0x1D4, 0x1D8, 0x1D9]

/-- A `csrw` of a register that any code may write ends with the register written; of a privileged one, with the register
written in privileged code and unchanged in any other; of a read-only one, with it unchanged (R65, R89). -/
def Sys2Proof.Clauses.CsrwWrites : Prop :=
  ∀ (s : State) (a : BitVec 6) (n : BitVec 12), s.apRuns (.csrw a n) →
    (∀ p ∈ openRegisters (s.aread a.toNat), n.toNat = p.1 →
      exec (.csrw a n) s = .next (s.after (p.2 s) (.csrw a n) .seq)) ∧
    (∀ p ∈ privilegedRegisters (s.aread a.toNat), n.toNat = p.1 →
      exec (.csrw a n) s = .next (s.after (if s.privileged then p.2 s else s) (.csrw a n) .seq)) ∧
    (n.toNat ∈ readOnlyRegisters → exec (.csrw a n) s = .next (s.after s (.csrw a n) .seq))

/-- The value of `aflags` on its way to the EP: the AP sees EN and FTZ at once, and the EP takes the value at the word's
place in its own program order, where it replaces every field, so that flags set after it are ORed in; a bound of a wait class reaches
the EP so too (R42, R89 to R91). -/
def Sys2Proof.Clauses.AflagsWrittenInProgramOrder : Prop :=
  ∀ (s : State) (v : Word), s.inShadow = false →
    (s.writeAflags v).regs.aflagsAp = v &&& 0x17F7F#64 ∧ (s.writeAflags v).regs.aflags = s.regs.aflags ∧
    (s.writeAflags v).ep.writes = s.ep.writes ++ [⟨s.ap.seq, 0x110, v &&& 0x17F7F#64⟩] ∧
    (s.input.a = v.toNat → exec .aflagsWrite s = .next (s.writeAflags v)) ∧
    (∀ w, s.ep.writes = [⟨s.ep.seq, 0x110, w⟩] → s.epPass.regs.aflags = w ∧ s.epPass.ep.writes = []) ∧
    (∀ w k, k < 15 → s.ep.writes = [⟨s.ep.seq, k, w⟩] →
      s.epPass.regs.waitbEp[k]? = some (w.setWidth 32) ∧ s.epPass.regs.waitb = s.regs.waitb ∧ s.epPass.ep.writes = [])

/-! ### Scratchpad memory -/

/-- A scratchpad access: its word, space, size as addressed, offset, place, and whether it increments its base after. -/
structure Sys2Proof.ScratchForm where
  word : Instr
  space : Space
  size : Nat
  offset : Nat
  place : Nat
  post : Bool

/-- The forms of a scratchpad access with their addresses, given the words of the Chamber, Gallery and Grotto forms:
base plus IMM5 times the size, the base alone with the increment after it, base plus index shifted by log2 of the size, the
interleaved Gallery, a core of the cluster by its number, and the Grotto of the die (R103 to R106). -/
def Sys2Proof.scratchForms (s : State) (ldc ldcP ldcx ldg ldgF ldo : Instr) (b : BitVec 6) (z : BitVec 2) (n : BitVec 5) :
    List ScratchForm :=
  let ea := (s.aread b.toNat + BitVec.ofNat 64 (n.toNat * 2 ^ z.toNat)).toNat
  let base := (s.aread b.toNat).toNat
  let idx := (s.aread b.toNat + (s.aread n.toNat <<< z.toNat)).toNat
  let id := s.core.id
  [⟨ldc, .cham, 2 ^ 23, ea, chamAt id ea, false⟩, ⟨ldcP, .cham, 2 ^ 23, base, chamAt id base, true⟩,
   ⟨ldcx, .cham, 2 ^ 23, idx, chamAt id idx, false⟩, ⟨ldg, .gal, 2 ^ 24, ea, galInterleaved id ea, false⟩,
   ⟨ldgF, .gal, 2 ^ 20, base, galAt (id / 16 * 16 + n.toNat % 16) base, false⟩,
   ⟨ldo, .grot, 2 ^ 26, ea, grotAt (id / 256) ea, false⟩]

/-- The loads from a scratchpad. -/
def Sys2Proof.scratchLoads (s : State) (d b : BitVec 6) (z : BitVec 2) (w : BitVec 4) (n : BitVec 5) : List ScratchForm :=
  scratchForms s (.ldc d b z 0 w n) (.ldc d b z 1 w n) (.ldcx d b z w n) (.ldg d b z 0 w n) (.ldg d b z 1 w n)
    (.ldo d b z w n) b z n

/-- The stores to a scratchpad. -/
def Sys2Proof.scratchStores (s : State) (d b : BitVec 6) (z : BitVec 2) (w : BitVec 4) (n : BitVec 5) : List ScratchForm :=
  scratchForms s (.stc d b z 0 w n) (.stc d b z 1 w n) (.stcx d b z w n) (.stg d b z 0 w n) (.stg d b z 1 w n)
    (.sto d b z w n) b z n

/-- The base register incremented by IMM5 times the size, in the forms that do so (R103). -/
def Sys2Proof.incremented (s : State) (f : ScratchForm) (b : BitVec 6) (z : BitVec 2) (n : BitVec 5) : State :=
  if f.post then s.awrite b.toNat (s.aread b.toNat + BitVec.ofNat 64 (n.toNat * 2 ^ z.toNat)) else s

/-- An aligned load inside its space, open to the strand, with a free request and clean data, writes the little-endian value
of its bytes to D, zero-extended, and then increments its base where its form does (R99, R101, R103 to R106, R312). -/
def Sys2Proof.Clauses.ScratchLoadsReadBytes : Prop :=
  ∀ (s : State) (d b : BitVec 6) (z : BitVec 2) (w : BitVec 4) (n : BitVec 5), ∀ f ∈ scratchLoads s d b z w n,
    s.apRuns f.word → f.offset % 2 ^ z.toNat = 0 → f.offset + 2 ^ z.toNat ≤ f.size →
    s.refusal f.space f.offset (2 ^ z.toNat) false = none → (f.space = .cham ∨ s.inFlight < 8192) →
    (s.late = false ∨ s.ap.arrived = true) → s.accessOpts.acq = false →
    ∀ r, r = s.readScratch f.space f.place (2 ^ z.toNat) → r.1.2 = false →
      exec f.word s =
        .next (s.after (incremented (r.2.awrite d.toNat (BitVec.ofNat 64 (leNat r.1.1))) f b z n) f.word .seq)

/-- What a scratchpad read within one sector sees: with nothing in the store buffer and no copy of the sector, the bytes
of the memory; and right after a store of the strand to the same bytes, the bytes stored (R312, R313). -/
def Sys2Proof.Clauses.ScratchReadsSeeStores : Prop :=
  ∀ (s : State) (sp : Space) (a n : Nat), sp = .cham ∨ sp = .gal ∨ sp = .grot → a % 32 + n ≤ 32 →
    (s.core.order.stores = [] → (s.core.order.scratch.find? fun c => c.space == sp && c.addr == a / 32 * 32) = none →
      (s.readScratch sp a n).1.1 = (List.range n).map fun k => s.byteAt sp false (a + k)) ∧
    (∀ e : StoreEntry, e.space = sp → e.addr = a → e.data.length = n → (∀ c ∈ s.core.order.scratch, c.data.length = 32) →
      ((s.modOrder fun q => { q with stores := q.stores ++ [e] }).readScratch sp a n).1.1 = e.data)

/-- An aligned store inside its space, open to the strand, to bytes that no pin holds, enters the store buffer with the low
bytes of its register, and nothing else changes but the base where its form increments it; to pinned bytes it blocks under
its wait class and names the pin (R101, R103 to R106, R218, R311). -/
def Sys2Proof.Clauses.ScratchStoresEnterBuffer : Prop :=
  ∀ (s : State) (d b : BitVec 6) (z : BitVec 2) (w : BitVec 4) (n : BitVec 5), ∀ f ∈ scratchStores s d b z w n,
    s.apRuns f.word → f.offset % 2 ^ z.toNat = 0 → f.offset + 2 ^ z.toNat ≤ f.size →
    s.refusal f.space f.offset (2 ^ z.toNat) true = none →
    ((f.space = .cham → s.core.pinnedBy f.offset (2 ^ z.toNat) = none) → (f.space = .cham ∨ s.inFlight < 8192) →
      s.accessOpts.rel = false →
      exec f.word s = .next (s.after (incremented (s.modOrder fun q => { q with stores := q.stores ++
          [⟨f.space, f.place, leBytes (2 ^ z.toNat) (s.aread d.toNat).toNat, 0, false, false⟩] }) f b z n) f.word .seq)) ∧
    (∀ k, f.space = .cham → s.core.pinnedBy f.offset (2 ^ z.toNat) = some k →
      exec f.word s = .next (s.blockAp { cls := w.toNat, kind := 4, obj := k }))

/-- The checks of a scratchpad access in their order: alignment, range, and what keeps the strand out, each with its cause,
for loads with kind 0 and for stores with kind 1; nothing is read, stored or incremented (R99, R100, R104, R106, R388). -/
def Sys2Proof.Clauses.ScratchAccessChecks : Prop :=
  ∀ (s : State) (d b : BitVec 6) (z : BitVec 2) (w : BitVec 4) (n : BitVec 5) (k : Nat), k < 2 →
    ∀ f ∈ (if k = 0 then scratchLoads s d b z w n else scratchStores s d b z w n), s.apRuns f.word →
    (f.offset % 2 ^ z.toNat ≠ 0 →
      exec f.word s = .next (s.takeTrap { mkTrap .p 0x10 0 with kind := k, priv := s.privileged })) ∧
    (f.offset % 2 ^ z.toNat = 0 → f.size < f.offset + 2 ^ z.toNat →
      exec f.word s = .next (s.takeTrap { mkTrap .p 0x11 0 with kind := k, priv := s.privileged })) ∧
    (∀ x, f.offset % 2 ^ z.toNat = 0 → f.offset + 2 ^ z.toNat ≤ f.size →
      s.refusal f.space f.offset (2 ^ z.toNat) (k == 1) = some x →
      exec f.word s = .next (s.takeTrap { mkTrap .p x.1 x.2 with kind := k, priv := s.privileged }))

/-- The oldest store of the buffer is performed: its bytes stand in the memory of its scratchpad, every other byte of every
memory is unchanged, and the younger stores stay in order (R311). -/
def Sys2Proof.Clauses.OldestStorePerformed : Prop :=
  ∀ (s : State) (e : StoreEntry) (rest : List StoreEntry), s.memOk → s.input.a = 0 → s.core.order.stores = e :: rest →
    e.space = .cham ∨ e.space = .gal ∨ e.space = .grot →
    ∃ t, exec .storePerform s = .next t ∧ t.core.order.stores = rest ∧
      (∀ a, t.byteAt e.space false a =
        if e.addr ≤ a ∧ a < e.addr + e.data.length then e.data[a - e.addr]?.getD 0 else s.byteAt e.space false a) ∧
      (∀ sp view a, sp ≠ e.space → t.byteAt sp view a = s.byteAt sp view a) ∧
      t.regs = s.regs ∧ t.strand.queues = s.strand.queues

/-- The other transitions of the order machine: a dirty sector of the L1 may be written back, a clean one and a copy of the
scratch read buffer may be dropped; registers, queues and the store buffer stand (R311, R313, R314). -/
def Sys2Proof.Clauses.OrderTransitions : Prop :=
  ∀ (s : State),
    (∀ x, s.core.order.l1[s.input.a]? = some x → exec .l1Writeback s = .next (s.writeBack x)) ∧
    (∀ x, s.core.order.l1[s.input.a]? = some x → x.dirty = 0#32 →
      ∃ t, exec .l1Drop s = .next t ∧ (∀ y, y ∈ t.core.order.l1 ↔ (y ∈ s.core.order.l1 ∧ y ≠ x)) ∧ t.regs = s.regs ∧
        t.core.order.stores = s.core.order.stores ∧ t.strand.queues = s.strand.queues ∧ t.mem = s.mem) ∧
    (s.input.b = 0 → ∃ t, exec .scratchCopyDrop s = .next t ∧ t.core.order.scratch = s.core.order.scratch.eraseIdx s.input.a ∧
      t.core.order.l1 = s.core.order.l1 ∧ t.core.order.stores = s.core.order.stores ∧ t.regs = s.regs ∧ t.mem = s.mem)

/-! ### Device and host memory -/

/-- Translation of an address that the TLB holds: the physical address is the leaf's plus the offset in its page, when the
leaf gives the permissions, the address is mapped and A and D stand as the access needs them; without a permission, or at
an address that nothing answers, the access cause with the missing bits; an address outside its space is the translation
cause with 15 (R397, R400 to R403; the bit of ARG for a page of an aperture window or of a loaded slot's image, and the cause of a host
access while hptbase is off, are the model's choice, assumption 53). -/
def Sys2Proof.Clauses.TranslationUsesLeaf : Prop :=
  ∀ (s : State) (va : Word) (n : Need) (priv : Bool) (l : TlbLeaf),
    (vaBad n.host va = true → s.translate va n priv = .error (accessTrap 0x12 15 va n priv)) ∧
    (vaBad n.host va = false → (n.host = true → bit s.strand.sys.hptbase 0 = true) →
      s.tlbFind n.host (field va 0 56) = some l →
      ∀ pa bad, pa = field l.entry 8 44 * 256 + field va 0 56 % 2 ^ l.size →
        bad = (if n.read ∧ bit l.entry 3 = false then 1 else 0) +
          (if n.write ∧ (bit l.entry 4 = false ∨ (n.host = false ∧ (s.slotProtects pa ∨ s.isWindow pa))) then 2 else 0) +
          (if priv = false ∧ bit l.entry 5 = false then 4 else 0) +
          (if n.host = false ∧ s.target pa = .nothing then 8 else 0) →
        (bad ≠ 0 → s.translate va n priv = .error (accessTrap 0x13 bad va n priv)) ∧
        (bad = 0 → bit l.entry 6 = true → (n.write = true → bit l.entry 7 = true) →
          ∃ t, s.translate va n priv = .ok (⟨pa, bit l.entry 57, bit l.entry 56⟩, t) ∧ t.mem = s.mem ∧ t.regs = s.regs ∧
            t.share = s.share ∧ t.core.order = s.core.order))

/-- The address of a device form: `rl` of its window and list, an index register, and IMM5 times 8 (R69, R107). -/
def Sys2Proof.deviceAddress (s : State) (h : BitVec 1) (x : BitVec 5) (l : BitVec 3) (n : BitVec 5) : Word :=
  (s.regs.rl[8 * h.toNat + l.toNat]?.getD 0) + s.aread x.toNat + BitVec.ofNat 64 (8 * n.toNat)

/-- Loads of device and host memory into a register: an aligned address that translates is read, and D holds its 8 bytes;
a fault of the translation is a precise trap, and a misaligned address the misaligned-access trap with the address (R100, R107, R108,
R312, R388). -/
def Sys2Proof.Clauses.DeviceLoadsReadBytes : Prop :=
  ∀ (s : State) (d a : BitVec 6) (h : BitVec 1) (x : BitVec 5) (l : BitVec 3) (w : BitVec 4) (n : BitVec 5),
    ∀ p ∈ [(Instr.ldd d h x l w n, Space.dev, deviceAddress s h x l n), (.ldh d a w, .host, s.aread a.toNat)],
      s.apRuns p.1 →
      (p.2.2.toNat % 8 ≠ 0 → exec p.1 s = .next (s.takeTrap
        { mkTrap .p 0x10 0 with priv := s.privileged, va := p.2.2, host := p.2.1 == .host })) ∧
      (∀ t, p.2.2.toNat % 8 = 0 → s.translate p.2.2 ⟨p.2.1 == .host, true, false, 0⟩ s.privileged = .error t →
        exec p.1 s = .next ((s.missed p.2.2 (p.2.1 == .host)).takeTrap t)) ∧
      (∀ q t bs u, p.2.2.toNat % 8 = 0 → s.translate p.2.2 ⟨p.2.1 == .host, true, false, 0⟩ s.privileged = .ok (q, t) →
        t.inFlight < 8192 → (t.late = false ∨ t.ap.arrived = true) → t.accessOpts.acq = false →
        t.readPhys 6 p.2.1 q 8 t.accessOpts.policy t.accessOpts.rc = .data bs false u →
        exec p.1 s = .next (s.after (u.awrite d.toNat (BitVec.ofNat 64 (leNat bs))) p.1 .seq))

/-- In the mode in which loads wait (log entry 5, the model's own), a load is issued first, and the AP stands at it until
its data has come; the arrival lets it complete (R382). -/
def Sys2Proof.Clauses.LateLoadsWait : Prop :=
  (∀ (s : State) (d b : BitVec 6) (z : BitVec 2) (w : BitVec 4) (n : BitVec 5), ∀ f ∈ scratchLoads s d b z w n,
    s.apRuns f.word → f.offset % 2 ^ z.toNat = 0 → f.offset + 2 ^ z.toNat ≤ f.size →
    s.refusal f.space f.offset (2 ^ z.toNat) false = none → (f.space = .cham ∨ s.inFlight < 8192) → s.inShadow = false →
    s.late = true → s.ap.arrived = false →
    ∃ t, exec f.word s = .next t ∧ t.ap.issued = true ∧ t.ap.pc = s.ap.pc ∧ t.regs = s.regs ∧ t.mem = s.mem) ∧
  (∀ s : State, s.ap.issued = true →
    exec .loadDataReturn s = .next (s.modAp fun a => { a with issued := false, arrived := true }))

/-- Stores to device and host memory: an aligned address that translates for writing enters the store buffer with the
physical address, the 8 bytes of D and the policy of the access prefix (R100, R107, R311). -/
def Sys2Proof.Clauses.DeviceStoresEnterBuffer : Prop :=
  ∀ (s : State) (d a : BitVec 6) (h : BitVec 1) (x : BitVec 5) (l : BitVec 3) (w : BitVec 4) (n : BitVec 5),
    ∀ p ∈ [(Instr.std d h x l w n, Space.dev, deviceAddress s h x l n), (.sth d a w, .host, s.aread a.toNat)],
      s.apRuns p.1 →
      (p.2.2.toNat % 8 ≠ 0 → exec p.1 s = .next (s.takeTrap
        { mkTrap .p 0x10 0 with kind := 1, priv := s.privileged, va := p.2.2, host := p.2.1 == .host })) ∧
      (∀ t, p.2.2.toNat % 8 = 0 → s.translate p.2.2 ⟨p.2.1 == .host, false, true, 1⟩ s.privileged = .error t →
        exec p.1 s = .next ((s.missed p.2.2 (p.2.1 == .host)).takeTrap t)) ∧
      (∀ q t, p.2.2.toNat % 8 = 0 → s.translate p.2.2 ⟨p.2.1 == .host, false, true, 1⟩ s.privileged = .ok (q, t) →
        t.inFlight < 8192 → t.accessOpts.rel = false →
        exec p.1 s = .next (s.after (t.modOrder fun o => { o with stores := o.stores ++
          [⟨p.2.1, q.pa, leBytes 8 (t.aread d.toNat).toNat, t.accessOpts.policy, q.view, q.uc⟩] }) p.1 .seq))

/-- Queue forms: one entry that awaits its data is allotted at the queue's end, and a full queue blocks; when the data comes
the oldest waiting entry is filled, with its poison marked by the form (R21, R107, R395). -/
def Sys2Proof.Clauses.QueueLoadsAllotAndFill : Prop :=
  (∀ (s : State) (q : BitVec 3) (p : BitVec 2) (zp : BitVec 1) (a : BitVec 6) (h : BitVec 1) (x : BitVec 5) (l : BitVec 3)
      (w : BitVec 4) (n : BitVec 5),
    ∀ i ∈ [(Instr.lddQ q p zp h x l w n, Space.dev, deviceAddress s h x l n), (.ldhQ q p zp a w, .host, s.aread a.toNat)],
      ∀ r t, s.apRuns i.1 → i.2.2.toNat % 8 = 0 →
        s.translate i.2.2 ⟨i.2.1 == .host, true, false, 0⟩ s.privileged = .ok (r, t) → t.inFlight < 8192 →
        t.accessOpts.acq = false →
        ((t.strand.queues.q[q.toNat]?.getD []).length < 64 →
          ∀ e : QEntry, e = ⟨none, 0, some ⟨i.2.1, r.pa, p.toNat, zp = 1#1, t.accessOpts.rc, r.view, r.uc⟩⟩ →
          exec i.1 s = .next (s.after (t.modQueues fun y =>
            { y with q := y.q.setIfInBounds q.toNat ((t.strand.queues.q[q.toNat]?.getD []) ++ [e]) }) i.1 .seq)) ∧
        (64 ≤ (t.strand.queues.q[q.toNat]?.getD []).length →
          exec i.1 s = .next (s.blockAp { cls := w.toNat, kind := 1, obj := q.toNat }))) ∧
  (∀ (s t : State) (k ix : Nat) (r : LoadReq) (bs : List Byte) (poison : Bool), k < 8 → s.input.a = k + 1 →
    (awaiting (s.strand.queues.q[k]?.getD []))[s.input.b]? = some ix →
    ((s.strand.queues.q[k]?.getD [])[ix]?).bind (·.req) = some r →
    readAt 8 r.space ⟨r.addr, r.view, r.uc⟩ 8 r.pol r.rc s = .ok ((bs, poison), t) →
    ∃ u, exec .queueEntryFill s = .next u ∧
      u.strand.queues.q[k]?.getD [] = (s.strand.queues.q[k]?.getD []).set ix
        (if poison then ⟨some 0, if r.zp then 1 else 2, none⟩ else ⟨some (BitVec.ofNat 64 (leNat bs)), 0, none⟩))

/-! ### Atomics, waiting and fences -/

/-- The atomics with the word that each leaves, given the old word, register B and the expected word (R112). -/
def Sys2Proof.atomicForms : List ((BitVec 6 → BitVec 6 → BitVec 6 → BitVec 2 → Instr) × (Word → Word → Word → Word)) :=
  [(.amoAdd, fun old b _ => old + b), (.amoAnd, fun old b _ => old &&& b), (.amoOr, fun old b _ => old ||| b),
   (.amoXor, fun old b _ => old ^^^ b), (.amoSmax, fun old b _ => if old.toInt < b.toInt then b else old),
   (.amoSmin, fun old b _ => if old.toInt < b.toInt then old else b),
   (.amoUmax, fun old b _ => if old.toNat < b.toNat then b else old),
   (.amoUmin, fun old b _ => if old.toNat < b.toNat then old else b), (.amoSwap, fun _ b _ => b),
   (.amoCas, fun old b x => if old = x then b else old)]

/-- The space that an atomic's field names. -/
def Sys2Proof.atomicSpace (z : BitVec 2) : Space := if z = 0 then .gal else if z = 1 then .grot else if z = 2 then .dev else .host

/-- An atomic at an aligned address of this package reads the old word at its home, once the strand's own stores to it are
performed (assumption 21, the model's choice) and its own copy is gone, writes the new one there, and gives the old one to D; a `cas`
that fails writes nothing, and its read counts at the home as the others do; a misaligned address traps as kind 3 (R60, R109, R112,
R319). -/
def Obligations.AtomicsReadModifyWrite : Prop :=
  ∀ (s : State) (d a b : BitVec 6) (z : BitVec 2), ∀ f ∈ atomicForms, s.apRuns (f.1 d a b z) →
    ((s.aread a.toNat).toNat % 8 ≠ 0 →
      exec (f.1 d a b z) s = .next (s.takeTrap { mkTrap .p 0x10 0 with
        kind := 3, priv := s.privileged, va := if 2 ≤ z.toNat then s.aread a.toNat else 0, host := z == 3#2 })) ∧
    (∀ p t u bs, (s.aread a.toNat).toNat % 8 = 0 → amoPlace (atomicSpace z) (s.aread a.toNat) s = .ok (p, t) →
      t.inFlight < 8192 → (t.late = false ∨ t.ap.arrived = true) →
      t.accessOpts.rel = false → t.accessOpts.acq = false → (∀ n o, t.targetOf (atomicSpace z) p.pa ≠ .pod n o) →
      (t.drainFor (atomicSpace z) p.pa 8).storesAhead (atomicSpace z) p.pa 8 = false →
      u = ((t.drainFor (atomicSpace z) p.pa 8).dropOwn (atomicSpace z) p.pa).touchL2 (atomicSpace z) p.view p.pa →
      u.homeBytes (atomicSpace z) p.view p.pa 8 = (bs, false) →
      exec (f.1 d a b z) s = .next (s.after
        ((if f.1 d a b z = .amoCas d a b z ∧ leWord bs ≠ s.aread d.toNat then u
          else u.amoWrite (atomicSpace z) p (leBytes 8 (f.2 (leWord bs) (s.aread b.toNat) (s.aread d.toNat)).toNat)).awrite
          d.toNat (leWord bs)) (f.1 d a b z) .seq))

/-- `waita` of a Chamber word ends at once with reason 0 when the word differs from D, and arms its monitor and blocks when
it does not; a write to the sector wakes the monitor, the bound's passing wakes it with 4, a spurious or a lost monitor with
its reason; the woken instruction gives the reason to D (R114, R115). -/
def Obligations.WaitaWatchesWord : Prop :=
  (∀ (s : State) (d a : BitVec 6) (w : BitVec 4) (bs : List Byte), s.apRuns (.waita d a 0 w) → s.monitor = none →
    s.inShadow = false → s.ap.bind ≠ .rep → (s.aread a.toNat).toNat % 8 = 0 → (s.aread a.toNat).toNat + 8 ≤ 2 ^ 23 →
    s.refusal .cham (s.aread a.toNat).toNat 8 false = none → s.accessOpts.acq = false → s.core.order.stores = [] →
    s.homeBytes .cham false (chamAt s.core.id (s.aread a.toNat).toNat) 8 = (bs, false) →
    (leWord bs ≠ s.aread d.toNat →
      ∃ t, exec (.waita d a 0 w) s = .next t ∧ t.ap.pc = s.ap.pc + boundSize s.ap.bind ∧
        (1 ≤ d.toNat → t.aread d.toNat = 0) ∧ t.ap.monitor = none ∧ t.mem = s.mem) ∧
    (leWord bs = s.aread d.toNat → (s.regs.waitb[w.toNat]?.getD 0xFFFFFFFF#32).toNat ≠ 0 ∨ w = 15#4 →
      ∃ t, exec (.waita d a 0 w) s = .next t ∧ t.ap.pc = s.ap.pc ∧ t.regs = s.regs ∧ t.mem = s.mem ∧
        (∃ n, t.ap.monitor = some ⟨.cham, chamAt s.core.id (s.aread a.toNat).toNat / 32 * 32, none, n⟩) ∧
        ∃ k, t.ap.block = some k ∧ k.cls = w.toNat ∧ k.count = 1)) ∧
  (∀ (s : State) (d a : BitVec 6) (c : BitVec 3) (w : BitVec 4) (m : Monitor) (r : Nat), s.apRuns (.waita d a c w) →
    s.inShadow = false → s.ap.bind ≠ .rep → s.ap.monitor = some m → m.wake = some r → s.accessOpts.acq = false →
    ∃ t, exec (.waita d a c w) s = .next t ∧ t.ap.pc = s.ap.pc + boundSize s.ap.bind ∧
      (1 ≤ d.toNat → t.aread d.toNat = BitVec.ofNat 64 r) ∧ t.ap.monitor = none ∧ t.mem = s.mem) ∧
  (∀ (s : State) (m : Monitor), s.inShadow = false → s.ap.monitor = some m → m.wake = none →
    (∃ t, exec .waitaWake s = .next t ∧ t.regs = s.regs ∧ t.mem = s.mem ∧
      t.ap.monitor = some { m with wake :=
        if s.input.a = 2 then (if m.space = .dev ∨ m.space = .host then some 2 else none) else some 5 }) ∧
    (∀ k, s.ap.block = some k → k.cls ≠ 15 → k.bound < k.count →
      ∃ t, exec .waitaBoundWake s = .next t ∧ t.ap.monitor = some { m with wake := some 4 } ∧ t.mem = s.mem) ∧
    (∀ sp a bs, sp = m.space → m.sector < a + bs.length → a < m.sector + 32 →
      (s.homeWrite sp false a bs).ap.monitor = some { m with wake := some 1 }))

/-- A release at a scope performs the stores of the buffer, as far as none is on its way to another node, writes every dirty byte of the L1 back, posts the signature of what the
strand wrote at its boards from CORE up to the scope, and clears those accumulators; an acquire at a scope brings the seen
numbers of those boards up to date and drops the copies of the scratch read buffer (R313, R317, R318). -/
def Sys2Proof.Clauses.ReleaseAndAcquire : Prop :=
  ∀ (s : State) (k : Nat) (x : BitVec 512), k < 6 →
    (s.releaseWith k x).core.order.stores = s.drainAll.core.order.stores ∧ (∀ y ∈ (s.releaseWith k x).core.order.l1, y.dirty = 0) ∧
    (∀ i, i ≤ k → (s.releaseWith k x).core.order.accAt i = 0) ∧
    (∀ i, k < i → i < 6 → (s.releaseWith k x).core.order.accAt i = s.drainAll.writeBackAll.core.order.accAt i) ∧
    (∀ i, i ≤ k → ((s.releaseWith k x).share.pack.board i (scopeInst i s.core.id)).posts.head? =
      some ((s.drainAll.writeBackAll.share.pack.board i (scopeInst i s.core.id)).seq + 1,
        s.drainAll.writeBackAll.core.order.accAt k ||| x)) ∧
    (s.acquire k).core.order.scratch = [] ∧
    (∀ i, i ≤ k → (s.acquire k).core.order.seen[i]? = some (s.share.pack.board i (scopeInst i s.core.id)).seq) ∧
    (s.acquire k).core.order.stores = s.core.order.stores

/-- The fences make the release, the acquire, or both, at their scope, and end once the stores that the release must
see performed are, those to other nodes too; an acquire at DIE or wider comes after the strand's uncached stores (R113,
R317 to R319, R324, R325). -/
def Sys2Proof.Clauses.FencesReleaseAndAcquire : Prop :=
  ∀ (s : State) (c : BitVec 3),
    (∀ t, t = (if 3 ≤ c.toNat then State.drain (lastUncached s.core.order.stores) s else s) → s.apRuns (.facq c) →
      (3 ≤ c.toNat → lastUncached t.core.order.stores = 0) →
      exec (.facq c) s = .next (s.after (t.acquire c.toNat) (.facq c) .seq)) ∧
    (s.apRuns (.frel c) → s.drainAll.storesDone = true →
      exec (.frel c) s = .next (s.after (s.drainAll.releaseWith c.toNat 0) (.frel c) .seq)) ∧
    (s.apRuns (.facqrel c) → s.drainAll.storesDone = true →
      exec (.facqrel c) s = .next (s.after ((s.drainAll.releaseWith c.toNat 0).acquire c.toNat) (.facqrel c) .seq))

/-- `cinv` and `dcfence` of a length of 2^30 or more trap, of length 0 do nothing, and of a range in one page, once it
translates, act on the whole sectors of the range after the strand's own stores are performed: `cinv` drops its L1 copies,
`dcfence` drops them and joins the two views of each sector (R113, R314, R322). -/
def Sys2Proof.Clauses.RangeMaintenance : Prop :=
  ∀ (s : State) (a b : BitVec 6) (va n : Nat), va = (s.aread a.toNat).toNat → n = (s.aread b.toNat).toNat →
    ∀ f ∈ [(Instr.cinv a b, (⟨false, true, false, 0⟩ : Need), State.cinvPart),
        (.dcfence a b, ⟨false, true, true, 1⟩, State.dcfencePart)], s.apRuns f.1 →
      (2 ^ 30 ≤ n → exec f.1 s = .next (s.takeTrap { mkTrap .p 0x11 0 with priv := s.privileged })) ∧
      (n = 0 → exec f.1 s = .next (s.after s f.1 .seq)) ∧
      (∀ p t lo len, 1 ≤ n → n < 2 ^ 30 → s.drainAll.core.order.stores = [] → lo = va / 32 * 32 → len = 32 * ((va + n - 1) / 32 - va / 32 + 1) →
        lo / 65536 = (lo + len - 1) / 65536 →
        s.drainAll.translate (BitVec.ofNat 64 lo) f.2.1 s.drainAll.privileged = .ok (p, t) →
        exec f.1 s = .next (s.after (f.2.2 t p.pa len) f.1 .seq))

/-! ### Stream descriptors -/

/-- The instructions that make a version of stream k, with the words that each makes of the AP's current one: a new base, or
one word replaced, where the bits of POS and POIS are not taken from the register (R116, R120). -/
def Sys2Proof.descriptorForms (s : State) (k : BitVec 4) (a : BitVec 6) (h : BitVec 1) (x : BitVec 5) (l : BitVec 3) (n : BitVec 5)
    (m : BitVec 12) : List (Instr × (Version → Version)) :=
  let w := s.aread a.toNat
  [(.sbaseD k h x l n, fun v => { v with w0 := deviceAddress s h x l n }),
   (.sbase k a m, fun v => { v with w0 := w + m.signExtend 64 }),
   (.sset k a 0, fun v => { v with w0 := w }),
   (.sset k a 1, fun v => { v with w1 := setField w 32 16 (field v.w1 32 16) }),
   (.sset k a 2, fun v => { v with w2 := w }),
   (.sset k a 3, fun v => { v with w3 := setField w 32 32 0 })]

/-- A new version stands behind the older ones of its stream, which the EP goes on using until it has passed the word, and
starts at its base, with POS 0 (for `sset` assumption 77, the model's choice), whatever the EP has done in the older ones; with nine versions the AP blocks; `sget` reads a word of the AP's current version, with POIS in word 3 (R11, R116, R120). -/
def Sys2Proof.Clauses.DescriptorVersionsMade : Prop :=
  (∀ (s : State) (k : BitVec 4) (a : BitVec 6) (h : BitVec 1) (x : BitVec 5) (l : BitVec 3) (n : BitVec 5) (m : BitVec 12),
    ∀ f ∈ descriptorForms s k a h x l n m, s.apRuns f.1 → s.ap.repWrote = false →
      ((s.stream k.toNat).versions.length ≤ 8 →
        ∃ t, exec f.1 s = .next (s.after t f.1 .seq) ∧
          (t.stream k.toNat).versions = (s.stream k.toNat).versions ++
            [{ (f.2 (s.stream k.toNat).apVersion).setPos 0 with seq := s.ap.seq, clears := false }] ∧
          (t.stream k.toNat).pois = (s.stream k.toNat).pois ∧
          (∀ j, j ≠ k.toNat → t.stream j = s.stream j) ∧ t.regs = s.regs ∧ t.mem = s.mem ∧ t.ep = s.ep ∧
          t.strand.queues = s.strand.queues) ∧
      (9 ≤ (s.stream k.toNat).versions.length →
        exec f.1 s = .next (s.blockAp { cls := 0, kind := 8, obj := k.toNat }))) ∧
  (∀ (s : State) (d : BitVec 6) (k : BitVec 4) (v : Version), v = (s.stream k.toNat).apVersion →
    ∀ p ∈ [(0#2, v.w0), (1#2, v.w1), (2#2, v.w2), (3#2, setField v.w3 32 32 (s.stream k.toNat).pois.toNat)],
      s.apRuns (.sget d k p.1) →
      exec (.sget d k p.1) s = .next (s.after (s.awrite d.toNat p.2) (.sget d k p.1) .seq))

/-- `sld` and `sst` at an aligned Chamber address: the 32 bytes of the descriptor become a version with POS 0 that clears
POIS when the EP takes it, the ninth version blocks under the instruction's wait class, and the current version enters the store buffer with POS written as 0; a misaligned address and
one past the Chamber trap (R100, R116, R120). -/
def Sys2Proof.Clauses.DescriptorsLoadAndStore : Prop :=
  ∀ (s : State) (k : BitVec 4) (a : BitVec 6) (w : BitVec 4) (n : BitVec 5) (off : Nat),
    off = (s.aread a.toNat + BitVec.ofNat 64 (32 * n.toNat)).toNat →
    (s.apRuns (.sld k a w n) → off % 32 = 0 → off + 32 ≤ 2 ^ 23 → s.refusal .cham off 32 false = none →
      (s.late = false ∨ s.ap.arrived = true) → s.ap.repWrote = false → (s.stream k.toNat).versions.length ≤ 8 →
      ∀ r, r = s.readScratch .cham (chamAt s.core.id off) 32 → r.1.2 = false →
      ∃ t, exec (.sld k a w n) s = .next (s.after t (.sld k a w n) .seq) ∧
        ∃ v, (t.stream k.toNat).apVersion = v ∧ v.w0 = leWord (r.1.1.take 8) ∧
          v.w1 = setField (leWord ((r.1.1.drop 8).take 8)) 32 16 0 ∧ v.w2 = leWord ((r.1.1.drop 16).take 8) ∧
          v.w3 = setField (leWord ((r.1.1.drop 24).take 8)) 32 32 0 ∧ v.clears = true ∧ v.seq = s.ap.seq) ∧
    (s.apRuns (.sld k a w n) → off % 32 = 0 → off + 32 ≤ 2 ^ 23 → s.refusal .cham off 32 false = none →
      (s.late = false ∨ s.ap.arrived = true) → s.ap.repWrote = false → 9 ≤ (s.stream k.toNat).versions.length →
      (s.readScratch .cham (chamAt s.core.id off) 32).1.2 = false →
      exec (.sld k a w n) s = .next (s.blockAp { cls := w.toNat, kind := 8, obj := k.toNat })) ∧
    (s.apRuns (.sst k a w n) → off % 32 = 0 → off + 32 ≤ 2 ^ 23 → s.refusal .cham off 32 true = none →
      s.core.pinnedBy off 32 = none →
      ∀ v, v = (s.stream k.toNat).apVersion →
      exec (.sst k a w n) s = .next (s.after (s.modOrder fun q => { q with stores := q.stores ++
        [⟨.cham, chamAt s.core.id off, leBytes 8 v.w0.toNat ++ leBytes 8 (setField v.w1 32 16 0).toNat ++
          leBytes 8 v.w2.toNat ++ leBytes 8 (setField v.w3 32 32 (s.stream k.toNat).pois.toNat).toNat,
          0, false, false⟩] }) (.sst k a w n) .seq)) ∧
    (s.apRuns (.sld k a w n) → off % 32 ≠ 0 →
      exec (.sld k a w n) s = .next (s.takeTrap { mkTrap .p 0x10 0 with priv := s.privileged })) ∧
    (s.apRuns (.sst k a w n) → off % 32 = 0 → 2 ^ 23 < off + 32 →
      exec (.sst k a w n) s = .next (s.takeTrap { mkTrap .p 0x11 0 with kind := 1, priv := s.privileged }))

/-- Where element i of a Chamber stream with plain whole-byte elements lies: row i / E at base + row·STRIDE2, column
i mod E at STRIDE1 times the column in it, E being EXTENT or, at 0, COUNT; its encoding is the little-endian number of the
element's bytes (R117). -/
def Sys2Proof.Clauses.StreamElementsLieInRows : Prop :=
  ∀ (s : State) (k i : Nat) (v : Version) (a : Int), v = (s.stream k).epVersion → v.space = 0 → v.fmt ≠ 13 →
    8 ≤ v.elemBits → v.blk = 0 → v.spar = 0 → s.ep.snaps = [] →
    ∀ e, e = (if v.extent = 0 then v.count else v.extent) →
    a = (v.base : Int) + (i / e : Nat) * v.stride2 + (i % e : Nat) * v.stride1 →
    ∀ r, r = s.readScratch .cham (chamAt s.core.id (a % 2 ^ 64).toNat) (v.elemBits / 8) → r.1.2 = false →
      ∃ x, (s.epPath k).elem i s = .ok (x, r.2) ∧ x.code = leNat r.1.1 ∧ x.marked = false

/-! ### The return queue and scalar conversion -/

/-- `xpush` puts an EP register, or a popped entry, into the return queue and blocks while it holds 32; `xpop` takes the
oldest, and blocks while it is empty; `cvt` between integer types saturates to the range of its destination type, and on
any types writes one register and only adds flags (R12, R64, R166 to R168). -/
def Obligations.ReturnQueueAndConversion : Prop :=
  (∀ (s t : State) (a : BitVec 6) (w : BitVec 4) (x : Word), s.epRuns (.xpush a w) → readEp a.toNat w.toNat s = .ok (x, t) →
    (t.strand.queues.xq.length < 32 →
      exec (.xpush a w) s = .next (s.after (t.modQueues fun y => { y with xq := y.xq ++ [x] }) (.xpush a w) .seq)) ∧
    (32 ≤ t.strand.queues.xq.length →
      exec (.xpush a w) s = .next (s.blockEp { cls := w.toNat, kind := 1, obj := 9 }))) ∧
  (∀ (s : State) (d : BitVec 6) (w : BitVec 4), s.apRuns (.xpop d w) →
    (s.strand.queues.xq = [] →
      exec (.xpop d w) s = .next (s.blockAp { cls := w.toNat, kind := 0, obj := 9, tally := 1 })) ∧
    (∀ x rest, s.strand.queues.xq = x :: rest →
      exec (.xpop d w) s = .next (s.after ((s.modQueues fun y => { y with xq := rest }).awrite d.toNat x)
        (.xpop d w) .seq))) ∧
  (∀ (s t : State) (d a : BitVec 6) (r y f : BitVec 3) (x : Word), s.epRuns (.cvt d a r y f) →
    readEp a.toNat 0 s = .ok (x, t) →
    ∃ (v : Word) (g : Flags), exec (.cvt d a r y f) s =
        .next (s.after ((t.modRegs fun q => { q with aflags := q.aflags ||| g.setWidth 64 }).ewrite d.toNat v)
          (.cvt d a r y f) .seq) ∧
      (f = 0 → y = 0 → v = x) ∧
      (f = 0 → y = 1 → v = BitVec.ofInt 64 (max 0 x.toInt)) ∧
      (f = 1 → y = 0 → v = BitVec.ofInt 64 (min (2 ^ 63 - 1) x.toNat)) ∧
      (f = 0 → y = 2 → v = BitVec.ofInt 64 (max (-2 ^ 31) (min (2 ^ 31 - 1) x.toInt))) ∧
      (f = 2 → y = 0 → v = (x.setWidth 32).signExtend 64))

/-! ### Execute instructions -/

/-- Units of an execute instruction from unit u on, n of them, one after another. -/
def Sys2Proof.runUnits (unit : Nat → M Unit) : Nat → Nat → State → Option State
  | 0, _, s => some s
  | n + 1, u, s => match unit u s with
    | .ok (_, t) => runUnits unit n (u + 1) (t.podDone 7)
    | .error _ => none

/-- How an execute word runs: over its destination's elements, over the rows of its source, or over the steps of a
conversion (R147, R157, R159, R187). -/
def Sys2Proof.planOf (s : State) (x : Vec) : Option Plan :=
  match x.kind with
  | .vop f => some (elemPlan s x (vopUnit x f))
  | .vred f => some (vredPlan s x f)
  | .vcvt h => some (cvtPlan s x h)
  | .vdec f => some (vdecPlan s x f)
  | _ => none

/-- An execute word that the AP has passed runs its units in order from the one that POS names, and ends with POS 0 on
every stream it names; where a unit stops on an empty queue, a pinned byte or a poisoned element, POS keeps that unit, and a stop inside a reduction or a
conversion sets up its execute record. The
words with a plan are `vadd` `vsub` `vmul` `vfma` `vdiv` `vsqrt` `vneg` `vabs` `vmin` `vmax` `vmov` `vadds` `vsubs` `vand`
`vor` `vxor` `vshl` `vshr` `vsra` `vexp` `vlog` `vrsqrt` `vtanh` `vsigm`, the reductions `vrsum` `vdot` `vrmax` `vrmin` `vrsums`
`vdots`, the conversions `vcvt` `vcvtH16` `vcvtH32` and the decisions `vsign` `vcmpgt` `vcmpge` `vcmpeq` `vthr` `vargmax` `vargmin`
`vtopk`; with them `ldl` and `stl` (R119, R146 to R150). -/
def Sys2Proof.Clauses.ExecuteWordsRunTheirUnits : Prop :=
  (∀ (s t v : State) (i : Instr) (x : Vec) (p : Plan) (u : Nat), vecOf i = some x → planOf s x = some p → s.epRuns i →
    s.ep.seq < s.ap.seq → u = p.unitOf (s.stream p.main).epVersion.pos →
    runUnits p.unit (p.units - u) u s = some t → p.finish t = .ok ((), v) →
    exec i s = .next (s.after (p.clear v) i .seq)) ∧
  (∀ (s t : State) (i : Instr) (x : Vec) (p : Plan) (u n : Nat) (keep : Option State) (y : Trap), vecOf i = some x →
    planOf s x = some p → s.epRuns i → s.ep.seq < s.ap.seq → u = p.unitOf (s.stream p.main).epVersion.pos →
    u + n < p.units → runUnits p.unit n u s = some t → p.unit (u + n) t = .error (.trap keep y) →
    exec i s = .next (((p.hold (if y.src = 1 then y.elem else 0) (u + n) (keep.getD t)).modEp fun e =>
      { e with bind := .none, block := none }).pendTrap y)) ∧
  (∀ (s : State) (z : BitVec 2) (k : BitVec 4) (a : BitVec 6) (r : BitVec 1) (o : BitVec 10) (at_ : Nat) (t : State)
      (u n : Nat),
    at_ = (if r = 1#1 then (s.eread a.toNat + o.setWidth 64).toNat / 2 ^ z.toNat * 2 ^ z.toNat
      else o.toNat / 2 ^ z.toNat * 2 ^ z.toNat) →
    s.ep.seq < s.ap.seq → u = (s.stream k.toNat).epVersion.pos → n = (s.stream k.toNat).epVersion.count →
    (s.epRuns (.ldl z k a r o) → runUnits (ldlUnit k.toNat (2 ^ z.toNat) at_) (n - u) u s = some t →
      exec (.ldl z k a r o) s =
        .next (s.after (t.modStream k.toNat fun y => y.setPos 0) (.ldl z k a r o) .seq)) ∧
    (s.epRuns (.stl z k a r o) → runUnits (stlUnit k.toNat (2 ^ z.toNat) at_) (n - u) u s = some t →
      exec (.stl z k a r o) s =
        .next (s.after (t.modStream k.toNat fun y => y.setPos 0) (.stl z k a r o) .seq)))

/-- Element j of a lane slice lies in the register file of lane j mod 256, at the byte offset plus the size for every
full turn of the lanes, modulo 1,024; `stl` writes the low bytes of the stream's element there (R102). -/
def Sys2Proof.Clauses.LaneSlicesSpread : Prop :=
  ∀ (s : State) (k sz o j : Nat) (x : Elem) (t : State), x.marked = false → s.memOk → t.mem = s.mem →
    (s.epPath k).elem j s = .ok (x, t) →
    ∃ u, stlUnit k sz o j s = .ok ((), u) ∧
      ∀ i, i < sz → u.byteAt .lane false (laneAt s.core.id (j % 256) ((o + sz * (j / 256)) % 1024) + i) =
        BitVec.ofNat 8 (x.code / 2 ^ (8 * i))

/-- Element-wise integer results: modulo 2^w for `vadd`, `vsub`, `vmul`, `vfma`; saturated with SA set exactly when the exact
result is out of range for `vadds`, `vsubs`, `vneg` and `vabs`; the smaller and the larger; bitwise; and shifts by the
unsigned amount, where one of w or more leaves 0, or the sign (R152, R155). -/
def Sys2Proof.Clauses.IntegerElementResults : Prop :=
  ∀ (ty w rm sr : Nat) (sg ftz : Bool) (a b d : Elem), intFmt ty = some (w, sg) → a.code < 2 ^ w → b.code < 2 ^ w →
    let x := intOf w sg a.code
    let y := intOf w sg b.code
    let z := intOf w sg d.code
    let v (f : Nat) : Nat × Flags := vopResult f ty rm sr ftz a b d
    let wrap (i : Int) : Nat := (i % 2 ^ w).toNat
    let lo : Int := if sg then -2 ^ (w - 1) else 0
    let hi : Int := if sg then 2 ^ (w - 1) - 1 else 2 ^ w - 1
    let sat (f : Nat) (i : Int) : Prop := (v f).1 = wrap (max lo (min hi i)) ∧
      ((v f).2 = Flag.sa ↔ (i < lo ∨ hi < i)) ∧ ((v f).2 = Flag.none ↔ (lo ≤ i ∧ i ≤ hi))
    v 0 = (wrap (x + y), Flag.none) ∧ v 1 = (wrap (x - y), Flag.none) ∧ v 2 = (wrap (x * y), Flag.none) ∧
    v 3 = (wrap (x * y + z), Flag.none) ∧ sat 6 (-x) ∧ sat 7 (if x < 0 then -x else x) ∧
    v 8 = (wrap (min x y), Flag.none) ∧ v 9 = (wrap (max x y), Flag.none) ∧ v 10 = (a.code, Flag.none) ∧
    sat 11 (x + y) ∧ sat 12 (x - y) ∧ v 13 = (a.code &&& b.code, Flag.none) ∧ v 14 = (a.code ||| b.code, Flag.none) ∧
    v 15 = (a.code ^^^ b.code, Flag.none) ∧
    v 16 = (if b.code < w then a.code * 2 ^ b.code % 2 ^ w else 0, Flag.none) ∧
    v 17 = (if b.code < w then a.code / 2 ^ b.code else 0, Flag.none) ∧
    v 18 = (wrap (toSigned w a.code / 2 ^ min b.code w), Flag.none)

namespace Sys2Proof.Machine

/-- The real number that a finite value is. -/
noncomputable def Val.real : Val → ℝ
  | .fin s m e => (if s then -1 else 1) * (m : ℝ) * (2 : ℝ) ^ e
  | _ => 0

/-- Is q the integer that the mode takes for y: nearest with ties to even, toward zero, down, up, or by the 16 bits of R134 (R130)? -/
def roundsTo (rm sr : Nat) (y : ℝ) (q : Int) : Prop :=
  match rm with
  | 0 => |y - q| ≤ 1 / 2 ∧ (|y - q| = 1 / 2 → Even q)
  | 1 => q = if y < 0 then ⌈y⌉ else ⌊y⌋
  | 2 => q = ⌊y⌋
  | 3 => q = ⌈y⌉
  | _ => q = (if y < 0 then -1 else 1) * (⌊|y|⌋ + if 2 ^ 16 ≤ ⌊2 ^ 16 * Int.fract |y|⌋ + (sr : Int) then 1 else 0)

/-- Are an encoding and its flags the delivery of the exact result x, an exact zero with the sign `neg`: on the grid 2^u of the
format's mantissa at x the integer that the mode takes; infinity or the largest value beyond that one; and zero for a result below the
smallest normal one under FTZ (R127, R130 to R132)? -/
def FloatFmt.delivers (F : FloatFmt) (rm sr : Nat) (ftz neg : Bool) (x : ℝ) (r : Nat × Flags) : Prop :=
  let p : Int := F.mbits
  let tiny : Prop := |x| < (2 : ℝ) ^ F.emin
  (x = 0 → r = (F.signBit neg, Flag.none)) ∧
  (x ≠ 0 → ftz = true → tiny → r = (F.signBit (decide (x < 0)), Flag.uf ||| Flag.nx)) ∧
  ∀ (u q : Int), x ≠ 0 → ¬ (ftz = true ∧ tiny) → |x| < (2 : ℝ) ^ (u + p + 1) → F.emin - p ≤ u →
    (u = F.emin - p ∨ (2 : ℝ) ^ (u + p) ≤ |x|) → roundsTo rm sr (x / (2 : ℝ) ^ u) q →
    (|(q : ℝ)| * (2 : ℝ) ^ u ≤ (F.maxM : ℝ) * (2 : ℝ) ^ F.maxU →
      (∃ s m e, F.decode r.1 = .fin s m e ∧ s = decide (x < 0) ∧ (Val.fin s m e).real = q * (2 : ℝ) ^ u) ∧
      (q * (2 : ℝ) ^ u = x → r.2 = Flag.none) ∧
      (q * (2 : ℝ) ^ u ≠ x → (tiny → r.2 = Flag.uf ||| Flag.nx) ∧ (¬ tiny → r.2 = Flag.nx))) ∧
    ((F.maxM : ℝ) * (2 : ℝ) ^ F.maxU < |(q : ℝ)| * (2 : ℝ) ^ u →
      r.1 = (if rm = 1 ∨ (rm = 2 ∧ 0 < x) ∨ (rm = 3 ∧ x < 0) then F.maxEnc (decide (x < 0)) else F.infEnc (decide (x < 0))) ∧
      r.2 = Flag.of ||| Flag.nx)

end Sys2Proof.Machine

/-- Element-wise results on the types `.f32`, `.bf16` and `.f16`: `vadd`, `vsub`, `vmul`, `vfma`, `vdiv`, `vsqrt` and `vrsqrt` of
finite values deliver their exact real result rounded once, the product and the sum of `vfma` with one rounding, and an exact zero
with its sign; `vneg`, `vabs`, `vmov` change the sign alone; `vmin` and `vmax` give one of the two; infinities and zeros give what IEEE
754 gives, with NV and DZ; the functions give the values of the manual's table at its special inputs, NX elsewhere; and a NaN gives the
canonical NaN (R127, R130 to R132, R152 to R154, R156). -/
def Sys2Proof.Clauses.FloatElementsRound : Prop :=
  ∀ (ty rm sr : Nat) (F : FloatFmt) (ftz : Bool) (a b d : Elem), floatFmt ty = some F → ty ≤ 2 → rm ≤ 4 → sr < 2 ^ 16 →
    let v (f : Nat) : Nat × Flags := vopResult f ty rm sr ftz a b d
    let nan : Nat := F.canonNan
    (∀ sa ma ea, a.val = .fin sa ma ea →
      (sa = false ∨ ma = 0 → F.delivers rm sr ftz sa (Real.sqrt a.val.real) (v 5)) ∧ (sa = true → ma ≠ 0 → v 5 = (nan, Flag.nv)) ∧
      (sa = false → ma ≠ 0 → F.delivers rm sr ftz false (1 / Real.sqrt a.val.real) (v 21)) ∧
      (sa = true → ma ≠ 0 → v 20 = (nan, Flag.nv) ∧ v 21 = (nan, Flag.nv)) ∧
      (ma = 0 → F.delivers rm sr ftz false 1 (v 19) ∧ v 20 = (F.infEnc true, Flag.dz) ∧ v 21 = (F.infEnc sa, Flag.dz) ∧
        v 22 = (F.signBit sa, Flag.none) ∧ F.delivers rm sr ftz false (1 / 2) (v 23)) ∧
      (a.val.real = 1 → v 20 = (0, Flag.none)) ∧
      (ma ≠ 0 → (v 19).2 &&& Flag.nx = Flag.nx ∧ (v 22).2 &&& Flag.nx = Flag.nx ∧ (v 23).2 &&& Flag.nx = Flag.nx ∧
        (0 < a.val.real → a.val.real ≠ 1 → (v 20).2 &&& Flag.nx = Flag.nx)) ∧
      ∀ sb mb eb, b.val = .fin sb mb eb →
        F.delivers rm sr ftz (if sa = sb then sa else rm == 2) (a.val.real + b.val.real) (v 0) ∧
        F.delivers rm sr ftz (if sa = !sb then sa else rm == 2) (a.val.real - b.val.real) (v 1) ∧
        F.delivers rm sr ftz (sa != sb) (a.val.real * b.val.real) (v 2) ∧
        (∀ sd md ed, d.val = .fin sd md ed →
          F.delivers rm sr ftz (if (sa != sb) = sd then sd else rm == 2) (a.val.real * b.val.real + d.val.real) (v 3)) ∧
        (mb ≠ 0 → F.delivers rm sr ftz (sa != sb) (a.val.real / b.val.real) (v 4)) ∧
        (mb = 0 → v 4 = if ma = 0 then (nan, Flag.nv) else (F.infEnc (sa != sb), Flag.dz))) ∧
    (∀ sa, a.val = .inf sa →
      v 5 = (if sa then (nan, Flag.nv) else (F.infEnc false, Flag.none)) ∧ v 19 = (if sa then 0 else F.infEnc false, Flag.none) ∧
      v 20 = (if sa then (nan, Flag.nv) else (F.infEnc false, Flag.none)) ∧ v 21 = (if sa then (nan, Flag.nv) else (0, Flag.none)) ∧
      F.delivers rm sr ftz false (if sa then -1 else 1) (v 22) ∧ F.delivers rm sr ftz false (if sa then 0 else 1) (v 23) ∧
      (∀ sb, b.val = .inf sb → v 0 = (if sa = sb then (F.infEnc sa, Flag.none) else (nan, Flag.nv)) ∧
        v 1 = (if sa = sb then (nan, Flag.nv) else (F.infEnc sa, Flag.none)) ∧ v 2 = (F.infEnc (sa != sb), Flag.none) ∧
        v 4 = (nan, Flag.nv)) ∧
      (∀ sb mb eb, b.val = .fin sb mb eb → v 0 = (F.infEnc sa, Flag.none) ∧ v 1 = (F.infEnc sa, Flag.none) ∧
        v 2 = (if mb = 0 then (nan, Flag.nv) else (F.infEnc (sa != sb), Flag.none)) ∧ v 4 = (F.infEnc (sa != sb), Flag.none))) ∧
    (∀ sa ma ea sb, a.val = .fin sa ma ea → b.val = .inf sb → v 0 = (F.infEnc sb, Flag.none) ∧ v 1 = (F.infEnc !sb, Flag.none) ∧
      v 2 = (if ma = 0 then (nan, Flag.nv) else (F.infEnc (sa != sb), Flag.none)) ∧ v 4 = (F.signBit (sa != sb), Flag.none)) ∧
    (a.val = .nan → ∀ f ∈ [0, 1, 2, 4, 5, 6, 7, 8, 9, 10, 19, 20, 21, 22, 23], v f = (nan, Flag.none)) ∧
    (b.val = .nan → ∀ f ∈ [0, 1, 2, 4, 8, 9], v f = (nan, Flag.none)) ∧
    (a.val = .nan ∨ b.val = .nan ∨ d.val = .nan → (v 3).1 = nan) ∧
    (ftz = false → a.code < 2 ^ F.width → b.code < 2 ^ F.width → a.val = F.decode a.code → b.val = F.decode b.code → a.val ≠ .nan →
      v 6 = (a.code ^^^ 2 ^ (F.width - 1), Flag.none) ∧ v 7 = (a.code % 2 ^ (F.width - 1), Flag.none) ∧ v 10 = (a.code, Flag.none) ∧
      (b.val ≠ .nan → v 8 = (if b.val.lt a.val then b.code else a.code, Flag.none) ∧
        v 9 = (if a.val.lt b.val then b.code else a.code, Flag.none)))

/-- A block of a floating-point reduction adds the exact sum of its products to the accumulator and rounds once, to the nearest FP32
value; a row of more than 32 elements is a row of such blocks, in order, each upon what the one before has left, which a reduction keeps
in its record until the row's end, where the result is written (R144, R150, R157, R381). -/
def Sys2Proof.Clauses.BlocksRoundOnce : Prop :=
  ∀ (hd acc : Nat) (ftz : Bool) (ps : List (Val × Val)), acc < 2 ^ 32 →
    (∀ s m e, fp32.decodeFtz ftz acc = .fin s m e → (∀ p ∈ ps, p.1.isNan = false ∧ p.1.isInf = false ∧ p.2.isNan = false ∧ p.2.isInf = false) →
      ∃ neg, fp32.delivers 0 0 ftz neg
        ((Val.fin s m e).real + (ps.map fun p => p.1.real * p.2.real).sum / (2 : ℝ) ^ hd) (blockStep ftz hd acc ps)) ∧
    ((∃ p ∈ ps, p.1 = .nan ∨ p.2 = .nan) → (blockStep ftz hd acc ps).1 = fp32.canonNan) ∧
    (ps ≠ [] → ps.length ≤ 32 → blockDot ftz hd acc ps = blockStep ftz hd acc ps) ∧
    (32 < ps.length → blockDot ftz hd acc ps =
      ((blockDot ftz hd (blockStep ftz hd acc (ps.take 32)).1 (ps.drop 32)).1,
        (blockStep ftz hd acc (ps.take 32)).2 ||| (blockDot ftz hd (blockStep ftz hd acc (ps.take 32)).1 (ps.drop 32)).2)) ∧
    ∀ (x : Vec) (E q b n : Nat) (s t : State) (ys : List (Elem × Elem)) (v : Nat × Flags), b ≠ 0 → n = min 32 (E - 32 * b) →
      redPairs x (q * E + 32 * b) n s = .ok (ys, t) → (∀ y ∈ ys, pairMarked y = false) →
      v = blockStep t.ftz 0 s.xr.acc (pairVals ys) →
      (32 * b + n ≠ E → ∃ u, dotBlock x E q b s = .ok ((), u) ∧ u.xr = { s.xr with col := 32 * (b + 1), acc := v.1 } ∧ u.mem = t.mem) ∧
      (∀ y w, 32 * b + n = E → sticky v.2 t = .ok ((), y) → (y.epDest (x.sd.getD 0)).put q v.1 s.xr.poison y = .ok ((), w) →
        dotBlock x E q b s = .ok ((), w.setXr (ExecRecord.start 1 (q + 1))))

/-! ### Chains -/

/-- The EP begins a chain, once the AP has passed all its words; inside it a pass takes one step a turn; after the last
step of the last pass, when the row has been read, its elements are written in link order, POS of every stream that the chain
names is 0, and the EP goes on behind `chain.e` (R180, R182, R190 to R192). -/
def Obligations.ChainsRunInPasses : Prop :=
  (∀ (s : State) (ch : Chain), s.epRuns .chainB → s.strand.image.chain s.ep.pc = some ch →
    s.ep.seq + ch.words ≤ s.ap.seq →
    exec .chainB s = .next (s.after (s.setChain (some (ChainState.start s.ep.pc 0 ((s.geometry ch.stages).lanes 0 0)))) .chainB
      .stay)) ∧
  (∀ (s : State) (ch : Chain) (c : ChainState), s.epRuns .chainE → s.ep.chain = some c →
    s.strand.image.chain c.cpc = some ch → c.entered = true → c.step < lastStep ch.stages →
    ∃ t d, exec .chainE s = .next t ∧ t.ep.chain = some d ∧ d.step = c.step + 1 ∧ d.row = c.row ∧ d.pass = c.pass ∧
      d.lanes = c.lanes ∧ t.ep.pc = s.ep.pc ∧ t.ep.seq = s.ep.seq ∧ t.mem = s.mem ∧ t.regs = s.regs ∧
      t.ap = s.ap ∧ t.strand.queues = s.strand.queues ∧ t.strand.streams = s.strand.streams) ∧
  (∀ (s t : State) (ch : Chain) (c : ChainState) (gs : List Stage) (geo : Geometry) (named : List Nat), s.epRuns .chainE →
    s.ep.chain = some c → s.strand.image.chain c.cpc = some ch → gs = ch.stages → geo = s.geometry gs →
    c.entered = true → lastStep gs ≤ c.step → (∀ g, gs.getLast? = some g → g.vec.linkKind ≠ .reduce) →
    geo.rowSize c.row ≤ c.ahead.length → 256 * c.pass + c.lanes = geo.rowSize c.row → geo.count ≤ (c.row + 1) * geo.row →
    writeLanes gs s.ftz (c.row * geo.row + 256 * c.pass) 0 (c.entries.zip c.marks) s = .ok ((), t) →
    named = externals gs ++ (gs.filter (·.written)).flatMap (·.vec.sd.toList) →
    exec .chainE s = .next (s.after ((named.foldl (fun (u : State) k => u.modStream k fun x => x.setPos 0) (t.setChain none)).modEp
      fun e => { e with seq := e.seq + (ch.words - 1) }) .chainE (.goto (ch.last + 4) false)))

/-! ### Rings and engines -/

/-- An issue form with a command block: its word, its ring, the alignment and the largest offset of the block, and the
command that it appends, by X and the block's number. -/
structure Sys2Proof.IssueForm where
  word : Instr
  ring : Nat
  align : Nat
  largest : Nat
  cmd : BitVec 1 → Nat → Instr

/-- The issue forms with a block (R163, R238, R245, R259, R265, R292). -/
def Sys2Proof.issueForms (t a b : BitVec 6) (n : BitVec 1) (r : BitVec 3) : List IssueForm :=
  [⟨.mmz t a b, 0, 32, 0x7FFFC0, fun x o => .mmzCmd x t (BitVec.ofNat 18 o)⟩,
   ⟨.mma t a b, 0, 32, 0x7FFFC0, fun x o => .mmaCmd x t (BitVec.ofNat 18 o)⟩,
   ⟨.mdr t a b, 0, 32, 0x7FFFE0, fun x o => .mdrCmd x t (BitVec.ofNat 18 o)⟩,
   ⟨.mld t a b, 0, 32, 0x7FFFE0, fun x o => .mldCmd x t (BitVec.ofNat 18 o)⟩,
   ⟨.seg a b, 0, 32, 0x7FFFE0, fun x o => .segCmd x (BitVec.ofNat 18 o)⟩,
   ⟨.mxz t a b, 0, 128, 0x7FFF80, fun x o => .mxzCmd x t 0 (BitVec.ofNat 16 o)⟩,
   ⟨.mxa t a b, 0, 128, 0x7FFF80, fun x o => .mxaCmd x t 0 (BitVec.ofNat 16 o)⟩,
   ⟨.mxzHd16 t a b, 0, 128, 0x7FFF80, fun x o => .mxzCmd x t 1 (BitVec.ofNat 16 o)⟩,
   ⟨.mxaHd16 t a b, 0, 128, 0x7FFF80, fun x o => .mxaCmd x t 1 (BitVec.ofNat 16 o)⟩,
   ⟨.mxzHd32 t a b, 0, 128, 0x7FFF80, fun x o => .mxzCmd x t 2 (BitVec.ofNat 16 o)⟩,
   ⟨.mxaHd32 t a b, 0, 128, 0x7FFF80, fun x o => .mxaCmd x t 2 (BitVec.ofNat 16 o)⟩,
   ⟨.copy a b n, 1 + n.toNat, 32, 0x7FFFC0, fun x o => .cpq x (BitVec.ofNat 18 o)⟩,
   ⟨.cnv r a b, 3, 32, 0x7FFFA0, fun x o => .cvq x 0 r (BitVec.ofNat 18 o)⟩,
   ⟨.cnvH16 r a b, 3, 32, 0x7FFFA0, fun x o => .cvq x 1 r (BitVec.ofNat 18 o)⟩,
   ⟨.cnvH32 r a b, 3, 32, 0x7FFFA0, fun x o => .cvq x 2 r (BitVec.ofNat 18 o)⟩,
   ⟨.wqe a b, 5, 32, 0x7FFFC0, fun x o => .wqeCmd x (BitVec.ofNat 18 o)⟩]

/-- Words stand in the ring of engine n from its old WP on, and WP is past them; the engine's other pointers, the other
engines and the strand's registers are as they were. -/
def Sys2Proof.appended (s t : State) (n : Nat) (ws : List Word32) : Prop :=
  (t.engine n).wp = (s.engine n).wp + BitVec.ofNat 16 ws.length ∧
  (∀ (k : Nat) (w : Word32), ws[k]? = some w →
    t.ringWord (t.engine n) ((s.engine n).wp + BitVec.ofNat 16 k) = w) ∧
  (t.engine n).rp = (s.engine n).rp ∧ (t.engine n).fp = (s.engine n).fp ∧ (t.engine n).cfg = (s.engine n).cfg ∧
  (∀ m, m ≠ n → t.engine m = s.engine m) ∧ t.regs = s.regs ∧ t.strand.queues = s.strand.queues

/-- May n words be appended to the ring of engine k: no pin holds their bytes, and the strand's older stores to them can be
performed, none of them standing behind one that is on its way to another node (R219, R312)? -/
def Sys2Proof.ringReady (s : State) (k n : Nat) : Prop :=
  let off (i : Nat) : Nat := (s.engine k).wordOff ((s.engine k).wp + BitVec.ofNat 16 i)
  (∀ i, i < n → s.core.pinnedBy (off i) 4 = none) ∧
  ∀ i, i < n → ((List.range n).foldl (fun (t : State) j => t.drainFor .cham (chamAt s.core.id (off j)) 4) s).storesAhead .cham
    (chamAt s.core.id (off i)) 4 = false

/-- An issue form checks its block's offset, alignment first, and appends its command with X = 1 and the sync word of its
register, or with X = 0 where that register is `a0`; a full ring, and a pinned byte of the ring, block the AP.  `rapp` appends the words of its register,
and `nbmv` and `nbmva` those that name the slot and the descriptor at their address (R36, R46, R59, R199, R219). -/
def Obligations.IssueFormsAppendCommands : Prop :=
  (∀ (s : State) (t a b : BitVec 6) (n : BitVec 1) (r : BitVec 3), ∀ f ∈ issueForms t a b n r, s.apRuns f.word →
    ∀ off ws, off = (s.aread a.toNat).toNat →
    ws = (encode (f.cmd (if b = 0#6 then 0 else 1) (off / f.align))).headD 0 ::
      (if b = 0#6 then [] else [(s.aread b.toNat).setWidth 32]) →
    (off % f.align ≠ 0 → exec f.word s = .next (s.takeTrap (mkTrap .p 0x10 0))) ∧
    (off % f.align = 0 → f.largest < off → exec f.word s = .next (s.takeTrap (mkTrap .p 0x11 0))) ∧
    (off % f.align = 0 → off ≤ f.largest → s.memOk → ringReady s f.ring ws.length →
      (s.engine f.ring).kept + ws.length ≤ (s.engine f.ring).words →
      ∃ u, exec f.word s = .next (s.after u f.word .seq) ∧ appended s u f.ring ws) ∧
    (off % f.align = 0 → off ≤ f.largest → (s.engine f.ring).words < (s.engine f.ring).kept + ws.length →
      exec f.word s = .next (s.blockAp
        { cls := 0, kind := 3, obj := f.ring, eng := f.ring, rpos := (s.engine f.ring).rp.toNat })) ∧
    (∀ p, off % f.align = 0 → off ≤ f.largest → (s.engine f.ring).kept + ws.length ≤ (s.engine f.ring).words →
      s.core.pinnedBy ((s.engine f.ring).wordOff (s.engine f.ring).wp) 4 = some p →
      exec f.word s = .next (s.blockAp { cls := 0, kind := 4, obj := p }))) ∧
  (∀ (s : State) (n : BitVec 3) (a : BitVec 6) (w : BitVec 4) (ws : List Word32), s.apRuns (.rapp n a w) → s.memOk →
    ws = (if bit (s.aread a.toNat) 24 then [(s.aread a.toNat).setWidth 32, bits (s.aread a.toNat) 32 32]
      else [(s.aread a.toNat).setWidth 32]) →
    ((s.engine n.toNat).kept + ws.length ≤ (s.engine n.toNat).words → ringReady s n.toNat ws.length →
      ∃ u, exec (.rapp n a w) s = .next (s.after u (.rapp n a w) .seq) ∧ appended s u n.toNat ws) ∧
    ((s.engine n.toNat).words < (s.engine n.toNat).kept + ws.length →
      exec (.rapp n a w) s = .next (s.blockAp
        { cls := w.toNat, kind := 3, obj := n.toNat, eng := n.toNat, rpos := (s.engine n.toNat).rp.toNat }))) ∧
  (∀ (s t : State) (d a b : BitVec 6) (k : BitVec 3) (off j : Nat) (p : Phys),
    ∀ i ∈ [(Instr.nbmv d a b k, 0), (.nbmva d a b k, 1)], s.apRuns i.1 → s.memOk → off = (s.aread a.toNat).toNat →
    field (s.aread d.toNat) 0 6 = 0 → off % 32 = 0 → off ≤ 0x7FFFC0 →
    s.translate (s.aread d.toNat) ⟨false, true, false, 0⟩ s.privileged = .ok (p, t) → t.slotHolding p.pa = some j →
    (t.slot j).stack = dieOf s.core.id → ringReady t 4 2 → (t.engine 4).kept + 2 ≤ (t.engine 4).words →
    ∃ u, exec i.1 s = .next (s.after u i.1 .seq) ∧
      appended t u 4 [(encode (.nbq 1 (BitVec.ofNat 24
          (k.toNat * 2 ^ 21 + i.2 * 2 ^ 20 + (if bit s.regs.aflagsAp 16 then 2 ^ 19 else 0) + off / 32)))).headD 0,
        BitVec.ofNat 32 (j * 2 ^ 26 + (p.pa - (t.slot j).first) / 64 * 2 ^ 19 +
          (if b = 0#6 then 0xFFF else field (s.aread b.toNat) 0 19))])

/-- Where the oldest command in flight in ring 0 that names the tile stands: from RP on, while the ring is enabled and not
idle (R257). -/
def Sys2Proof.tileInFlight (s : State) (n : Nat) : Option (BitVec 16) :=
  if (s.engine 0).enabled && !(s.engine 0).idle then
    s.namesFrom (s.engine 0) n ((s.engine 0).wp - (s.engine 0).rp).toNat (s.engine 0).rp
  else none

/-- `tget` reads an element of a tile, +0 of a dead one, and traps on a poisoned one; `tput` writes one and makes the tile
live and clean; `tkill` makes it dead: each completes when no command in flight names the tile, and traps while one does.
A tile number or a reserved bit out of range traps `tget` and `tput` (R256 to R258). -/
def Obligations.TilesReadAndWritten : Prop :=
  ∀ (s : State) (d a b t : BitVec 6) (x : Word) (n k : Nat), x = s.aread a.toNat → n = field x 12 6 → k = field x 0 12 →
    (tileInFlight s n = none → field x 18 46 = 0 → n < 48 →
      (s.apRuns (.tget d a) →
        ((s.strand.tile n).poisoned = false → exec (.tget d a) s = .next (s.after
          (s.awrite d.toNat ((if (s.strand.tile n).live then (s.strand.tile n).data[k]?.getD 0 else 0).setWidth 64))
          (.tget d a) .seq)) ∧
        ((s.strand.tile n).poisoned = true → exec (.tget d a) s = .next (s.takeTrap (mkTrap .p 0x16 0)))) ∧
      (s.apRuns (.tput a b) → ∃ u, exec (.tput a b) s = .next (s.after u (.tput a b) .seq) ∧
        (u.strand.tile n).live = true ∧ (u.strand.tile n).poisoned = false ∧
        (u.strand.tile n).get k = (s.aread b.toNat).setWidth 32 ∧
        (∀ j, j < 4096 → j ≠ k → (u.strand.tile n).get j = (s.strand.tile n).get j) ∧
        (∀ m, m ≠ n → u.strand.tile m = s.strand.tile m) ∧ u.regs = s.regs ∧ u.mem = s.mem)) ∧
    (tileInFlight s n = none → field x 18 46 ≠ 0 ∨ 48 ≤ n →
      (s.apRuns (.tget d a) → exec (.tget d a) s = .next (s.takeTrap (mkTrap .p 0x11 0))) ∧
      (s.apRuns (.tput a b) → exec (.tput a b) s = .next (s.takeTrap (mkTrap .p 0x11 0)))) ∧
    (∀ p, tileInFlight s n = some p →
      (s.apRuns (.tget d a) → exec (.tget d a) s = .next (s.takeTrap (mkTrap .p 0x1C (p.toNat * 2 ^ 16 + n)))) ∧
      (s.apRuns (.tput a b) → exec (.tput a b) s = .next (s.takeTrap (mkTrap .p 0x1C (p.toNat * 2 ^ 16 + n))))) ∧
    (s.apRuns (.tkill t) →
      (tileInFlight s t.toNat = none →
        ∃ u, exec (.tkill t) s = .next (s.after u (.tkill t) .seq) ∧ (u.strand.tile t.toNat).live = false ∧
          (∀ m, m ≠ t.toNat → u.strand.tile m = s.strand.tile m) ∧ u.regs = s.regs ∧ u.mem = s.mem) ∧
      (∀ p, tileInFlight s t.toNat = some p →
        exec (.tkill t) s = .next (s.takeTrap (mkTrap .p 0x1C (p.toNat * 2 ^ 16 + t.toNat)))))

/-- Element (i, j) of a product is the block sum of row i of the first operand with row j of the second, upon the element
that the tile held (R246, R260). -/
def Sys2Proof.Clauses.ProductElementsAreBlockSums : Prop :=
  ∀ (ftz : Bool) (hd k i j : Nat) (init : List Word32) (x y : List Val), x.length = 64 * k → y.length = 64 * k → 1 ≤ k →
    init.length = 4096 → i < 64 → j < 64 →
    (matSums ftz hd init k x y).1.length = 4096 ∧
    (matSums ftz hd init k x y).1[64 * i + j]? = some (BitVec.ofNat 32 (blockDot ftz hd
      (init[64 * i + j]?.getD 0).toNat
      ((List.range k).map fun n => (x[k * i + n]?.getD .nan, y[k * j + n]?.getD .nan))).1)

/-- A private command of ring 0 (`mmz`, `mma`, `mdr`, `mxz`, `mxa`, `mld`) in step 3, on a core that holds the array and
outside a segment, runs with FTZ as it stood when step 3 began, leaves the tile, the memory and the flags that its step leaves, and
goes on to step 4; a failed execution is replayed, its tile and flags as they were before it, and what it has written of memory stands
until the replay, which comes with the engine's next turns (assumption 48, the model's choice); a cause of its descriptors stops the
engine with it; `seg` opens its segment with SC at 0, and stops the engine inside one (R37, R246, R260 to R262, R265, R414, R416). -/
def Sys2Proof.Clauses.MatrixCommandsPerform : Prop :=
  (∀ (s0 s t : State) (i : Instr) (e : Engine) (d : MatDone), isArrayCmd i = true → (∀ x b, i ≠ .segCmd x b) →
    s = s0.latchFtz 0 → e = s.engine 0 → s0.engineLive 0 = true → e.phase = .acquired → s0.holdsArray = true →
    engineWf i = true → e.fails = 0 →
    (e.seg = none → matStep (s.stepFtz 0) i ((e.window.head?.bind (·.init)).getD zeroTile) s.beginStep = .ok (d, t) →
      ∃ u, exec i s0 = .next u ∧ (u.engine 0).phase = .performed ∧ (u.engine 0).next = t.afterCmd (t.engine 0) ∧
        u.strand.tiles = t.strand.tiles ∧ u.mem = t.mem ∧ u.regs = t.regs ∧ u.ap = t.ap ∧ u.ep = t.ep) ∧
    (∀ (k : State) (y : Trap),
      matStep (s.stepFtz 0) i ((e.window.head?.bind (·.init)).getD zeroTile) s.beginStep = .error (.trap (some k) y) →
      (y.code = 0x31 ∨ y.code = 0x32 → (k.engine 0).fails = 0 → (k.engine 0).phase = .acquired →
        ∃ u, exec i s0 = .next u ∧ (u.engine 0).fails = 1 ∧ (u.engine 0).phase = .acquired ∧
          field u.core.regs.rplstat 32 32 = (field k.core.regs.rplstat 32 32 + 1) % 2 ^ 32 ∧
          u.strand.tiles = s0.strand.tiles ∧ u.mem = k.mem ∧
          u.regs = (if y.code = 0x32 ∧ y.arg = 7 then s0.regs.sticky Flag.tm else s0.regs)) ∧
      (y.code = 0x17 → s0.core.mode ≠ .idle →
        exec i s0 = .next ((s.standing (some k)).stopEngine 0 0x17 y.arg y.va y.kind y.host)))) ∧
  (∀ (s : State), (s.latchFtz 0).regs = s.regs ∧ (s.latchFtz 0).mem = s.mem ∧
    (∀ w ws, (s.engine 0).window = w :: ws → (s.latchFtz 0).stepFtz 0 = w.ftz.getD s.ftz)) ∧
  (∀ (s : State) (x : BitVec 1) (b : BitVec 18) (bs : List Byte) (w : Nat), s.engineLive 0 = true →
    (s.engine 0).phase = .acquired → s.holdsArray = true → engineWf (.segCmd x b) = true →
    engBlock (32 * b.toNat) 32 s = .ok (bs, s) → w = leNat bs →
    ((s.engine 0).seg = none → w / 2 ^ 64 = 0 → w / 2 ^ 25 % 2 ^ 7 = 0 →
      ∃ u g, exec (.segCmd x b) s = .next u ∧ (u.engine 0).seg = some g ∧ g.count = w % 2 ^ 24 ∧
        (g.bounded = true ↔ w / 2 ^ 24 % 2 = 1) ∧ g.crc = BitVec.ofNat 32 (w / 2 ^ 32) ∧ g.sc = 0 ∧
        g.pos = (s.engine 0).at_ ∧ (u.engine 0).phase = .performed ∧ u.array.seg = true ∧ u.mem = s.mem ∧
        u.regs = s.regs) ∧
    ((s.engine 0).seg ≠ none →
      exec (.segCmd x b) s = .next (s.stopEngine 0 0x23 ((s.engine 0).posArg 0) 0 0 false)))

/-- The commands of rings 1 to 5 in step 3: a copy, a conversion, a near-bank product and a work entry whose block passes
its checks leave what their step leaves and go on to step 4, a copy with its completion word written once every write of it
is performed, or are handed over to the port engine, the stack or the counter; a cause of the block of a copy stops the engine with it, and what the
copy has done of memory stands; a conversion runs with FTZ as it stood when step 3 began (R37, R163, R201, R204, R240, R241, R294). -/
def Sys2Proof.Clauses.BlockCommandsPerform : Prop :=
  (∀ (s t : State) (n : Nat) (x : BitVec 1) (b : BitVec 18), s.onEngine = some n → s.engineLive n = true →
    (s.engine n).phase = .acquired → engineWf (.cpq x b) = true →
    (copyStep n (32 * b.toNat) s = .ok (.over, t) →
      ∃ u, exec (.cpq x b) s = .next u ∧ (u.engine n).phase = .performed ∧ u.mem = t.mem ∧ u.regs = t.regs ∧
        u.share = t.share) ∧
    (copyStep n (32 * b.toNat) s = .ok (.pulled, t) →
      ∃ u, exec (.cpq x b) s = .next u ∧ (u.engine n).phase = .handed ∧ u.mem = t.mem ∧ u.regs = t.regs ∧
        u.share = t.share) ∧
    (∀ o v, copyStep n (32 * b.toNat) s = .ok (.word o v, t) →
      (t.enginePodWrites n = false → ∃ u, exec (.cpq x b) s = .next u ∧ (u.engine n).phase = .performed ∧
        u.mem = ((t.flushEngine n).engineWrite .cham false (chamAt t.core.id o) (leBytes 8 v)).mem ∧ u.regs = t.regs) ∧
      (t.enginePodWrites n = true → ∃ u, exec (.cpq x b) s = .next u ∧ (u.engine n).phase = .handed ∧ u.mem = t.mem ∧
        u.regs = t.regs)) ∧
    (∀ (k : Option State) (y : Trap), copyStep n (32 * b.toNat) s = .error (.trap k y) →
      exec (.cpq x b) s = .next ((s.standing k).stopEngine n y.code y.arg y.va y.kind y.host))) ∧
  (∀ (s t : State) (x : BitVec 1) (h : BitVec 2) (r : BitVec 3) (b : BitVec 18), s.engineLive 3 = true →
    (s.engine 3).phase = .acquired → engineWf (.cvq x h r b) = true →
    cvqStep h.toNat r.toNat (32 * b.toNat) (s.latchFtz 3) = .ok ((), t) →
    ∃ u, exec (.cvq x h r b) s = .next u ∧ (u.engine 3).phase = .performed ∧ u.mem = t.mem ∧ u.regs = t.regs) ∧
  (∀ (s t : State) (r : BitVec 24) (d : NbDesc) (v w : Version) (q : List NbPass), s.engineLive 4 = true →
    (s.engine 4).phase = .acquired → nbChecked r ((s.cmdSync 4).getD 0) s = .ok ((d, v, w), t) → d.stk < 8 →
    q = s.share.passes[d.stk]?.getD [] → (q.filter fun p => !p.running).length < 48 →
    ∃ u, exec (.nbq 1 r) s = .next u ∧ (u.engine 4).phase = .handed ∧
      u.share.passes[d.stk]?.getD [] = q ++ [⟨s.core.id, s.clk, false⟩] ∧ u.mem = s.mem ∧ u.regs = s.regs) ∧
  (∀ (s t : State) (x : BitVec 1) (b : BitVec 18) (bs : List Byte) (e : Entry), s.engineLive 5 = true → (s.engine 5).phase = .acquired →
    engineWf (.wqeCmd x b) = true → entryAt (32 * b.toNat) s = .ok ((bs, e), t) →
    ∃ u, exec (.wqeCmd x b) s = .next u ∧ (u.engine 5).phase = .handed ∧ (u.engine 5).got = [(bs, false)] ∧ u.mem = s.mem ∧ u.regs = s.regs ∧
      u.share = s.share)

/-- A plain copy within the Chamber leaves at every place of its destination the byte that stood at the same place of its
source before it, and every other byte of the Chamber as it was (R238 to R241). -/
def Sys2Proof.Clauses.CopiesMoveBytes : Prop :=
  ∀ (s : State) (n off : Nat) (b : CopyBlock), copyBlock n off s = .ok (b, s) → b.kind = 0 → b.cw = false → b.sp = 0 →
    s.memOk → n ≠ 0 → (s.engine n).writes = [] → (s.late = false ∨ (s.engine n).operands = []) →
    ∃ t, copyStep n off s = .ok (.over, t) ∧
      ∀ k, t.byteAt .cham false (chamAt s.core.id 0 + k) =
        if b.dst ≤ k ∧ k < b.dst + b.len then s.byteAt .cham false (chamAt s.core.id (b.src + (k - b.dst)))
        else s.byteAt .cham false (chamAt s.core.id 0 + k)

/-- The steps around a command of an engine: an illegal command stops the engine before it; the awaited semaphore gives a
unit beyond those that waiting engines with lower numbers take, and the command may begin; when it is performed the release posts what the engine wrote at every board up to its
scope, the raised semaphore takes a unit, and RP passes the command; a raise on a full semaphore stops the engine before it
(R37 to R39, R47, R68, R321); an engine whose core's strand has ended stops at the boundary behind its command, and what else its ring
holds is not run (R376, assumption 92, the model's choice). -/
def Obligations.EngineCommandSteps : Prop :=
  ∀ (s : State) (n : BitVec 3) (k : Nat) (e : Engine), k = n.toNat → e = s.engine k → s.engineLive k = true →
    (s.cmdLegal k = false → e.phase = .start →
      exec (.illegalCommand n) s = .next (s.stopEngine k 0x21 (e.rp.toNat * 2 ^ 16) 0 0 false)) ∧
    (∀ g, s.cmdLegal k = true → (k = 0 → s.segDue = false) → e.phase = .start → g = ((s.cmdSync k).map syWait).getD 63 →
      (g = 63 → ∃ u, exec (.engineSyncWaitDone n) s = .next u ∧ (u.engine k).phase = .acquired ∧ (u.engine k).rp = e.rp ∧
        u.strand.sg = s.strand.sg ∧ u.mem = s.mem) ∧
      (g ≠ 63 → s.waitsAhead g k < (s.sema g).toNat → ∃ u, exec (.engineSyncWaitDone n) s = .next u ∧ (u.engine k).phase = .acquired ∧
        (u.engine k).rp = e.rp ∧ u.sema g = s.sema g - 1 ∧ (∀ j, j ≠ g → u.sema j = s.sema j) ∧ u.mem = s.mem) ∧
      (g ≠ 63 → (s.sema g).toNat ≤ s.waitsAhead g k → exec (.engineSyncWaitDone n) s = .next s)) ∧
    (e.phase = .performed → s.enginePodWrites k = false → e.writes = [] → s.core.mode = .idle →
      ((s.cmdSync k).map syRaise).getD 63 = 63 → ∃ u, exec (.engineCommandComplete n) s = .next u ∧
        (u.engine k).rp = e.wp ∧ (u.engine k).wp = e.wp ∧ (u.engine k).phase = .start ∧ u.core.mode = .idle ∧ u.mem = s.mem) ∧
    (∀ g, e.phase = .performed → s.enginePodWrites k = false → e.writes = [] → s.core.mode ≠ .idle →
      g = ((s.cmdSync k).map syRaise).getD 63 →
      (g = 63 → ∃ u, exec (.engineCommandComplete n) s = .next u ∧
        (u.engine k).rp = (if 1 < e.repLeft then e.rp else e.next) ∧ (u.engine k).phase = .start ∧
        u.strand.sg = s.strand.sg ∧ u.mem = s.mem ∧ u.regs = s.regs) ∧
      (g ≠ 63 → s.sema g ≠ 65535 → ∃ u, exec (.engineCommandComplete n) s = .next u ∧
        (u.engine k).rp = (if 1 < e.repLeft then e.rp else e.next) ∧ (u.engine k).phase = .start ∧
        u.sema g = s.sema g + 1 ∧ (∀ j, j ≠ g → u.sema j = s.sema j) ∧ u.mem = s.mem ∧ u.regs = s.regs) ∧
      (g ≠ 63 → s.sema g = 65535 → ∃ u t, exec (.engineCommandComplete n) s = .next u ∧ (u.engine k).stopped = true ∧
        (u.engine k).overflow = true ∧ (u.engine k).rp = e.rp ∧ u.strand.pend = s.strand.pend ++ [t] ∧ t.code = 0x20 ∧
        t.arg = e.rp.toNat * 2 ^ 16 + g) ∧
      (∀ w, s.cmdSync k = some w → syRel w = true → syScope w < 6 →
        ∃ u, exec (.engineCommandComplete n) s = .next u ∧ ∀ i, i ≤ syScope w →
          ((u.share.pack.board i (scopeInst i s.core.id)).posts.head? =
            some ((s.share.pack.board i (scopeInst i s.core.id)).seq + 1, e.sig))))

/-- The array of a quad goes to the oldest request, and from a holder that has been idle for 64 clk outside a segment while
another core requests it is taken away (R253, R254). -/
def Sys2Proof.Clauses.ArrayLeases : Prop :=
  ∀ s : State,
    (s.array.held = false → s.array.requests ≠ [] →
      ∃ u r, exec .leaseGrant s = .next u ∧ r ∈ s.array.requests ∧ (∀ q ∈ s.array.requests, r.since ≤ q.since) ∧
        u.array.held = true ∧ u.array.holder = r.core ∧
        u.array.requests = (s.array.requests.filter fun q => q.core != r.core) ∧ u.mem = s.mem ∧ u.regs = s.regs) ∧
    (s.array.held = true → exec .leaseGrant s = .next s) ∧
    (s.array.held = true → s.array.seg = false → 64 ≤ s.array.idle → s.array.requests ≠ [] →
      ∃ u, exec .leaseIdleExpiry s = .next u ∧ u.array.held = false ∧ u.array.cmds = 0 ∧
        u.array.requests = s.array.requests ∧ u.array.holder = s.array.holder ∧ u.mem = s.mem ∧ u.core = s.core) ∧
    (s.array.idle < 64 → exec .leaseIdleExpiry s = .next s)

/-- A segment whose counter passes COUNT, or that has broken a rule of R266, fails before its next command enters step 3 (assumption 48, the
model's choice), and is replayed; a near-bank
stack runs its passes one at a time, the oldest first, and its pass leaves what the product leaves and lets the engine go on
(R204, R268, R414, R415). -/
def Sys2Proof.Clauses.SegmentsAndStacks : Prop :=
  (∀ (s : State) (e : Engine) (g : Segment), e = s.engine 0 → e.seg = some g → g.count < g.sc ∨ g.broken = true → e.phase = .waited →
    s.core.frozen = false → e.enabled = true → e.stopped = false → e.fails = 0 →
    ∃ u, exec .segmentCountOverrun s = .next u ∧ (u.engine 0).fails = 1 ∧ (u.engine 0).phase = .waited ∧
      field u.core.regs.rplstat 32 32 = (field s.core.regs.rplstat 32 32 + 1) % 2 ^ 32 ∧
      field u.strand.sys.mstat 0 8 = (if g.broken then 4 else 2) ∧ u.mem = s.mem ∧ u.regs = s.regs) ∧
  (∀ (s : State) (n : BitVec 3) (q : List NbPass), q = s.share.passes[n.toNat]?.getD [] → q ≠ [] →
    q.any (·.running) = false →
    ∃ u p, exec (.nbPassStart n) s = .next u ∧ p ∈ q ∧
      (∀ x ∈ q, p.arrived < x.arrived ∨ (p.arrived = x.arrived ∧ p.core ≤ x.core)) ∧
      u.share.passes[n.toNat]?.getD [] = { p with running := true } :: q.erase p ∧ u.mem = s.mem ∧ u.core = s.core) ∧
  (∀ (s t k v : State) (n : BitVec 3) (x : BitVec 1) (r : BitVec 24) (q : List NbPass) (p : NbPass),
    q = s.share.passes[n.toNat]?.getD [] → q.find? (·.running) = some p → t = s.focus p.core → t.engineLive 4 = true →
    (t.engine 4).phase = .handed → t.cmd 4 = some (.nbq x r) →
    k = (match nbKeep r ((t.cmdSync 4).getD 0) t with
      | .ok (_, u) => u
      | .error _ => t) →
    nbPass r ((t.cmdSync 4).getD 0) k = .ok ((), v) →
    ∃ u, exec (.nbPassComplete n) s = .next u ∧ (u.engine 4).phase = .performed ∧
      u.share.passes[n.toNat]?.getD [] = q.erase p ∧ u.mem = v.mem ∧ u.regs = v.regs)

/-- A work entry issues when its counter has reached its threshold and not before; a signal writes its word at the target
and increments the counter it names, the word being pinned by none and no other signal of the clk going before it; a completed entry writes its completion word and increments
its counter (R219, R294 to R297). -/
def Obligations.WorkEntriesRun : Prop :=
  (∀ (s t : State) (e : Entry), s.engineLive 5 = true → (s.engine 5).phase = .handed → e = (s.engine 5).entry →
    ((s.core.regs.wcnt[e.armOn]?.getD 0).toNat < e.thr → exec .wqeIssue s = .next s) ∧
    (e.thr ≤ (s.core.regs.wcnt[e.armOn]?.getD 0).toNat → e.issue s = .ok ((), t) →
      ∃ u, exec .wqeIssue s = .next u ∧ (u.engine 5).phase = .performed ∧ u.share = t.share ∧ u.mem = t.mem) ∧
    (e.thr ≤ (s.core.regs.wcnt[e.armOn]?.getD 0).toNat → e.kind = 2 → s.local e.peer = true →
      ∃ u, exec .wqeIssue s = .next u ∧ u.share.net = s.share.net ++
        [.signal (s.podName s.core.id) (e.peer % 2048) e.dst (BitVec.ofNat 64 e.cwval) e.bumps])) ∧
  (∀ (s : State) (src t a k : Nat) (v : Word) (rest : List Msg), s.share.net = .signal src t a v k :: rest → k < 16 →
    s.input.c = 0 → (∀ m ∈ rest, m.signalBefore s (.signal src t a v k) = false) → s.memOk → (s.coreAt t).pinnedBy a 8 = none →
    ∃ u, exec .workSignalArrival s = .next u ∧ u.share.net = rest ∧
      (∀ i, i < 8 → u.byteAt .cham false (chamAt t a + i) = v.extractLsb' (8 * i) 8) ∧
      (u.coreAt t).regs.wcnt[k]?.getD 0 = ((s.coreAt t).regs.wcnt[k]?.getD 0) + 1 ∧
      ∀ j, j ≠ k → (u.coreAt t).regs.wcnt[j]? = (s.coreAt t).regs.wcnt[j]?) ∧
  (∀ (s : State) (p : Pull) (w : PullWork) (k : Nat) (rest : List Pull), s.share.pulls = p :: rest → p.kind = .entry k →
    s.workOf p.id = some w → s.entryDone p w = true → s.wordHeld p = false → s.memOk →
    ∃ u, exec .wqeCompletion s = .next u ∧
      (∀ c i, p.cw = some c → i < 8 →
        u.byteAt .cham false (chamAt p.core c + i) = p.cwval.extractLsb' (8 * i) 8) ∧
      (k < 16 → (u.coreAt p.core).regs.wcnt[k]?.getD 0 = ((s.coreAt p.core).regs.wcnt[k]?.getD 0) + 1) ∧
      (w.ackedAll p = true → (∀ r ∈ s.share.pod, ∀ o l, r.kind ≠ .pull p.id o l) →
        (∀ m ∈ s.share.net, ∀ i a x y z bs ps, m ≠ .unit p.id i a x y z bs ps) → ∀ q ∈ u.share.pulls, q.id ≠ p.id))

/-! ### Notices, pins and pulls -/

/-- `publ` with a template of up to four consumers sets up the lowest FREE pin entry, pinned with its deadline, every
consumer yet to answer and a new generation, sends a copy of the completed notice to each, and gives the entry's number to
D; `pull` claims the oldest waiting slot of its tag and `decl` declines it; `pfence` passes once every older pull of the core
has been acknowledged on every route, and later reads of the Chamber see what has landed (R209, R210, R214, R215, R220, R229, R230). -/
def Sys2Proof.Clauses.NoticesPublishedAndTaken : Prop :=
  (∀ (s t : State) (d a b : BitVec 6) (n : List Word32) (cons : List Nat) (e : Nat), s.apRuns (.publ d a b) →
    s.aread a.toNat % 32 = 0 → (s.aread a.toNat).toNat ≤ 0x7FFFE0 → s.bankShut (s.aread a.toNat).toNat 32 = none →
    s.core.order.stores = [] →
    (∃ bs, readCham (s.aread a.toNat).toNat 4 s = .ok (bs, t) ∧ n = words32 bs) → templateOk t n = true →
    bit (noticeWord n 1) 27 = false →
    cons = ((List.range (field (noticeWord n 1) 28 3)).map fun i => (noticeWord n (4 + i)).toNat) →
    (∀ c ∈ cons, podNameOk c = true) → e < 16 → (s.strand.pins[e]?.getD Pin.free).state = 0 →
    (∀ i, i < e → (s.strand.pins[i]?.getD Pin.free).state ≠ 0) → t.landsIn (noticeOff n) (noticeSize n) = false →
    ∃ (u : State) (p : Pin), exec (.publ d a b) s = .next (s.after (u.awrite d.toNat (BitVec.ofNat 64 e)) (.publ d a b) .seq) ∧
      u.strand.pins[e]? = some p ∧ p.state = 1 ∧ p.ret = cons.length ∧ p.off = noticeOff n ∧ p.size = noticeSize n ∧
      p.left = field (s.aread b.toNat) 0 32 ∧ p.gen = ((s.strand.pins[e]?.getD Pin.free).gen + 1) % 16 ∧
      p.consumers = cons ∧ p.answered = cons.map (fun _ => false) ∧
      (∀ i, i ≠ e → u.strand.pins[i]? = s.strand.pins[i]?) ∧
      u.port.outgoing = s.port.outgoing ++ cons.map fun c => ⟨c, (n.set 2 (BitVec.ofNat 32 (s.podName s.core.id))).set 3
        (BitVec.ofNat 32 (p.gen * 2 ^ 28 + e * 2 ^ 24 + noticeOff n)), false, 8⟩) ∧
  (∀ (s : State) (d a b : BitVec 6) (x : Slot) (c g l : Word), s.apRuns (.pull d a b) → c = s.aread d.toNat →
    g = s.aread a.toNat → l = s.aread b.toNat → s.slotFor (bits g 0 32) = some x → field g 34 30 = 0 → field g 32 2 ≠ 3 →
    field c 0 3 = 0 → field l 0 5 = 0 → l.toNat + noticeSize x.notice ≤ 0x800000 → c.toNat ≤ 0x7FFFF8 →
    s.bankShut l.toNat (noticeSize x.notice) = none → s.bankShut c.toNat 8 = none →
    s.core.pinnedBy l.toNat (noticeSize x.notice) = none →
    (s.core.ringWith fun e => e.areaHas l.toNat (noticeSize x.notice)) = none →
    ∃ u p, exec (.pull d a b) s = .next (s.after u (.pull d a b) .seq) ∧ u.port.slots = s.port.slots.erase x ∧
      u.share.pulls = s.share.pulls ++ [p] ∧ p.kind = .slot ∧ p.state = .claimed ∧ p.core = s.core.id ∧
      p.prod = noticeProd x.notice ∧ p.pin = noticePin x.notice ∧ p.gen = noticeGen x.notice ∧ p.tag = bits g 0 32 ∧
      p.size = noticeSize x.notice ∧ p.src = noticeOff x.notice ∧ p.land = l.toNat ∧ p.cw = some c.toNat) ∧
  (∀ (s : State) (a : BitVec 6) (x : Slot), s.apRuns (.decl a) → s.slotFor (bits (s.aread a.toNat) 0 32) = some x →
    s.local (noticeProd x.notice) = true →
    ∃ u, exec (.decl a) s = .next (s.after u (.decl a) .seq) ∧ u.port.slots = s.port.slots.erase x ∧
      u.share.net = s.share.net ++ [.decline (noticeProd x.notice % 2048) (noticePin x.notice) (noticeGen x.notice)
        (s.podName s.core.id)]) ∧
  (∀ (s : State), s.apRuns .pfence →
    (∀ p ∈ s.share.pulls, p.core = s.core.id → p.foreign = false → p.id < s.ap.fence.getD s.share.nextPull →
      s.fences p = false) →
    ∃ u, exec .pfence s = .next (s.after u .pfence .seq) ∧ u.regs = s.regs ∧ u.mem = s.mem ∧ u.share = s.share ∧
      ∀ c ∈ u.core.order.scratch, c.space ≠ .cham)

/-- An operation on a pin entry of the core's strand is refused on a FREE and on a RELEASING entry with its result code, and
otherwise extends the deadline, releases the entry, or publishes its notice again to every consumer that has not answered;
a deadline at 0, from the clk after it was set on, makes the entry EXPIRED and a reclaim trap waits for the strand (R209,
R220 to R223). -/
def Sys2Proof.Clauses.PinOperationsAct : Prop :=
  ∀ (s : State) (i : BitVec 4) (dl : BitVec 32) (p : Pin), p = s.strand.pins[i.toNat]?.getD Pin.free →
    (p.state ≠ 0 → p.state ≠ 3 →
      (∃ u, exec (.pinopExtend i dl) s = .next u ∧ u.strand.pins[i.toNat]?.getD Pin.free =
          { p with left := dl.toNat, state := 1, fresh := true } ∧ field u.core.regs.pinop 4 4 = 0 ∧
        field u.core.regs.pinop 0 4 = i.toNat ∧ field u.core.regs.pinop 32 32 = dl.toNat ∧ u.share = s.share) ∧
      (∃ u, exec (.pinopForceRelease i) s = .next u ∧
        (u.strand.pins[i.toNat]?.getD Pin.free).state = (if p.serving.any id then 3 else 0) ∧
        field u.core.regs.pinop 4 4 = 0 ∧ u.mem = s.mem) ∧
      (∃ u, exec (.pinopRepublish i dl) s = .next u ∧ u.strand.pins[i.toNat]?.getD Pin.free =
          { p with left := dl.toNat, state := 1, fresh := true } ∧ field u.core.regs.pinop 4 4 = 0 ∧
        u.port.outgoing = s.port.outgoing ++ (p.consumers.zip p.answered).filterMap fun x =>
          if x.2 then none else some ⟨x.1, p.notice, true, 8⟩)) ∧
    (p.state = 0 ∨ p.state = 3 → ∀ j ∈ [Instr.pinopExtend i dl, .pinopForceRelease i, .pinopRepublish i dl],
      ∃ u, exec j s = .next u ∧ u.strand.pins = s.strand.pins ∧
        field u.core.regs.pinop 4 4 = (if p.state = 0 then 1 else 2) ∧ u.share = s.share) ∧
    (p.state = 1 → p.left = 0 → p.fresh = false →
      ∃ u t, exec (.pinDeadlineExpiry i) s = .next u ∧ u.strand.pins[i.toNat]?.getD Pin.free = { p with state := 2 } ∧
        u.strand.pend = s.strand.pend ++ [t] ∧ t.cls = .b ∧ t.code = 0x2A ∧ t.arg = i.toNat ∧ t.src = 3 ∧ u.mem = s.mem) ∧
    (p.state = 1 → 0 < p.left ∨ p.fresh = true → exec (.pinDeadlineExpiry i) s = .next s)

/-! ### Regions -/

/-- Joins of the cell types, 5 aside: the join of two values is above both, is itself when they are equal, and does not depend
on the order or the grouping of the values (R274). -/
def Sys2Proof.Clauses.JoinsFormSemilattice : Prop :=
  ∀ (y : Nat) (a b c : Word), y < 7 → y ≠ 5 →
    below y a (joinCell y a b) = true ∧ below y b (joinCell y a b) = true ∧ joinCell y a a = a ∧
    joinCell y a b = joinCell y b a ∧ joinCell y (joinCell y a b) c = joinCell y a (joinCell y b c) ∧
    ((y = 3 → f64Nan a = false) → joinCell y (bottom y) a = a) ∧ (below y a b = true → joinCell y a b = b)

/-- Lattice instructions on an installed region open to the strand, with a clean cell in range and no prefix: `ljoin` raises
the cell of the own die's replica to the join, `lst` to a value above it and traps on any other, `linc` adds to the own
die's slot of a group and traps where the sum passes 2^64, `lld` reads, and `lldt` waits for a threshold under its class
(R247, R248, R273, R279 to R284). -/
def Sys2Proof.Clauses.LatticeInstructionsAct : Prop :=
  ∀ (s : State) (a b d : BitVec 6) (w : BitVec 4) (r : BitVec 4) (g : Region) (k die : Nat) (v : Word),
    s.ap.bind = .none → s.core.order.stores = [] → s.memOk → bit s.strand.info.rset r.toNat = true →
    s.region r.toNat = some g → die = dieOf s.core.id → k = (s.aread a.toNat).toNat → v = s.aread b.toNat →
    (g.type ≠ 5 → k < g.cells → (g.type = 3 → f64Nan v = false) → s.cellBad g die k = false →
      (s.apRuns (.ljoin a b r) → ∃ u, exec (.ljoin a b r) s = .next (s.after u (.ljoin a b r) .seq) ∧
        u.cell g die k = joinCell g.type (s.cell g die k) v ∧ u.regs = s.regs ∧
        ∀ p, p < g.cellAt die k ∨ g.cellAt die k + 8 ≤ p → u.byteAt .grot false p = s.byteAt .grot false p) ∧
      (s.apRuns (.lst a b r) → below g.type (s.cell g die k) v = true →
        ∃ u, exec (.lst a b r) s = .next (s.after u (.lst a b r) .seq) ∧ u.cell g die k = v ∧ u.regs = s.regs ∧
          ∀ p, p < g.cellAt die k ∨ g.cellAt die k + 8 ≤ p → u.byteAt .grot false p = s.byteAt .grot false p) ∧
      (s.apRuns (.lst a b r) → below g.type (s.cell g die k) v = false →
        exec (.lst a b r) s = .next (s.takeTrap (mkTrap .p 0x1B (r.toNat * 2 ^ 20 + k % 2 ^ 20)))) ∧
      (s.apRuns (.lld d a r) →
        exec (.lld d a r) s = .next (s.after (s.awrite d.toNat (s.cell g die k)) (.lld d a r) .seq)) ∧
      (s.apRuns (.lldt b a w r) →
        (satisfies g.type v (s.cell g die k) = true →
          exec (.lldt b a w r) s = .next (s.after (s.awrite b.toNat (s.cell g die k)) (.lldt b a w r) .seq)) ∧
        (satisfies g.type v (s.cell g die k) = false →
          exec (.lldt b a w r) s = .next (s.blockAp { cls := w.toNat, kind := 6, obj := r.toNat })))) ∧
    (∀ inc, g.type = 5 → k < g.cells / 8 → s.cellBad g die (8 * k + die) = false → inc = (if b = 0 then 1 else v.toNat) →
      s.apRuns (.linc a b r) →
      ((s.cell g die (8 * k + die)).toNat + inc < 2 ^ 64 →
        ∃ u, exec (.linc a b r) s = .next (s.after u (.linc a b r) .seq) ∧ u.regs = s.regs ∧
          (u.cell g die (8 * k + die)).toNat = (s.cell g die (8 * k + die)).toNat + inc ∧
          ∀ p, p < g.cellAt die (8 * k + die) ∨ g.cellAt die (8 * k + die) + 8 ≤ p →
            u.byteAt .grot false p = s.byteAt .grot false p) ∧
      (2 ^ 64 ≤ (s.cell g die (8 * k + die)).toNat + inc →
        exec (.linc a b r) s = .next (s.takeTrap (mkTrap .p 0x1B (r.toNat * 2 ^ 20 + k % 2 ^ 20))))) ∧
    ((if g.type = 5 then g.cells / 8 else g.cells) ≤ k → s.apRuns (.lld d a r) →
      exec (.lld d a r) s = .next (s.takeTrap (mkTrap .p 0x1A r.toNat)))

/-- The exchange: a round begins with its number and clk, and a pulled cell, of a die's the one from the lowest source, is
joined with its tag into the replica of the die that pulled it; a read of an aperture window counts its second replies and changes no memory (R286, R287, R290, R303). -/
def Obligations.ExchangeJoinsReplicas : Prop :=
  (∀ (s : State) (k i : Nat) (x : Schedule), s.input.a = k → k < 4 → s.schedule k = some x →
    x.nextRound s.clk (s.share.pack.merging.any fun m => m.sched == k) = some i →
    ∃ u y, exec .exchangeRoundStart s = .next u ∧ u.schedule k = some y ∧ y.current = i ∧ y.begun = true ∧
      y.started = s.clk ∧ y.rounds = x.rounds ∧ u.mem = s.mem ∧ u.core = s.core) ∧
  (∀ (s : State) (x m : CellPull) (g : Region), s.share.pack.merging[s.input.a]? = some x →
    m = mergeFirst s.share.pack.merging x → s.region m.region = some g → s.memOk →
    m ∈ s.share.pack.merging ∧ m.dst = x.dst ∧ (∀ y ∈ s.share.pack.merging, y.dst = x.dst → m.src ≤ y.src) ∧
    ∃ u, exec .exchangeMerge s = .next u ∧ u.cell g m.dst m.cell = joinCell g.type (s.cell g m.dst m.cell) m.val ∧
      (u.mark m.region m.dst m.cell).tag = max (s.mark m.region m.dst m.cell).tag m.tag ∧
      u.share.pack.merging = s.share.pack.merging.erase m ∧ u.regs = s.regs ∧
      ∀ p, p < g.cellAt m.dst m.cell ∨ g.cellAt m.dst m.cell + 8 ≤ p →
        u.byteAt .grot false p = s.byteAt .grot false p) ∧
  (∀ (s : State) (w : Window), s.share.pack.windows[s.input.a]?.getD none = some w →
    ∃ u, exec .apertureRead s = .next u ∧ u.mem = s.mem ∧ u.core = s.core ∧
      field u.share.pack.apstat 0 32 = min (field s.share.pack.apstat 0 32 + s.input.c) (2 ^ 32 - 1))

/-! ### Operations that register writes start -/

/-- `ringcfg` sets a ring up, with its pointers at 0, and traps while commands are in the ring or for a size or base that is
not allowed; `pswin` and `psrate` take a value in their range and answer RES 0, and keep the old one and answer 1 otherwise;
a `tlbop` of the own core, once nothing there uses a leaf that it names, drops those leaves, of the current ASID and of the space that
SPACE names (assumption 52, the model's choice), and a reserved scope is answered with 1; `ualpeer` answers whether
a node is quarantined and ends its quarantine (R35, R232, R406, R427).  A ring of fewer than 256 words is a size that is not allowed, SIZE 0
among them (assumption 71, the model's choice). -/
def Obligations.ControlWordsAct : Prop :=
  (∀ (s : State) (n : BitVec 3) (v cfg : Word) (e : Engine), n.toNat < 6 → e = s.engine n.toNat →
    cfg = v &&& 0xFFFFFC0#64 →
    ((e.enabled = false ∨ e.rp = e.wp) → 8 ≤ field cfg 23 4 → field cfg 6 17 * 64 % 2 ^ field cfg 23 4 = 0 →
      ∃ u, exec (.ringcfgWrite n v) s = .next u ∧ (u.engine n.toNat).cfg = cfg ∧ (u.engine n.toNat).rp = 0 ∧
        (u.engine n.toNat).wp = 0 ∧ (u.engine n.toNat).fp = 0 ∧ (u.engine n.toNat).stopped = false ∧
        (∀ m, m ≠ n.toNat → u.engine m = s.engine m) ∧ u.mem = s.mem ∧ u.regs = s.regs) ∧
    ((e.enabled = true ∧ e.rp ≠ e.wp) ∨ field cfg 23 4 < 8 ∨ field cfg 6 17 * 64 % 2 ^ field cfg 23 4 ≠ 0 →
      exec (.ringcfgWrite n v) s = .next (s.takeTrap (mkTrap .p 0x1D n.toNat)))) ∧
  (∀ (s : State) (v : Word),
    (∃ u, exec (.pswinWrite v) s = .next u ∧ (if 0x1000 ≤ field v 0 24 ∧ field v 0 24 ≤ 0x800000
      then u.port.pswin.toNat = field v 0 24 ∧ field u.port.psrate 24 8 = 0
      else u.port.pswin = s.port.pswin ∧ field u.port.psrate 24 8 = 1) ∧ u.core = s.core ∧ u.mem = s.mem) ∧
    (∃ u, exec (.psrateWrite v) s = .next u ∧ (if 1 ≤ field v 16 8 ∧ field v 16 8 ≤ 64
      then u.port.psrate.toNat = field v 0 24
      else field u.port.psrate 0 24 = field s.port.psrate 0 24 ∧ field u.port.psrate 24 8 = 1) ∧ u.core = s.core ∧
      u.mem = s.mem)) ∧
  (∀ (s : State) (v : Word), (∀ c ∈ s.parked, c.id ≠ s.core.id) →
    (field v 4 2 = 0 → s.ep.leaves = [] → (∀ e ∈ s.core.engines.toList, e.leaves = []) → s.requestsOf s.core = false →
      (vaBad (bit v 6) (v &&& ~~~0xFFFF#64) = false →
        ∃ u, exec (.tlbopInvalidateVa v) s = .next u ∧ field u.core.regs.tlbop 8 4 = 0 ∧ u.mem = s.mem ∧
          ∀ l, l ∈ u.core.tlb ↔ (l ∈ s.core.tlb ∧ ¬(l.asid = s.asid ∧ l.host = bit v 6 ∧
            l.va ≤ vaNat (v &&& ~~~0xFFFF#64) ∧ vaNat (v &&& ~~~0xFFFF#64) < l.va + 2 ^ l.size))) ∧
      (∃ u, exec (.tlbopInvalidateAsid v) s = .next u ∧ field u.core.regs.tlbop 8 4 = 0 ∧ u.mem = s.mem ∧
        ∀ l, l ∈ u.core.tlb ↔ (l ∈ s.core.tlb ∧ ¬(l.asid = s.asid ∧ l.host = bit v 6))) ∧
      (∃ u, exec (.tlbopInvalidateAll v) s = .next u ∧ field u.core.regs.tlbop 8 4 = 0 ∧ u.mem = s.mem ∧
        u.core.tlb = [])) ∧
    (field v 4 2 = 3 → ∀ i ∈ [Instr.tlbopInvalidateVa v, .tlbopInvalidateAsid v, .tlbopInvalidateAll v],
      ∃ u, exec i s = .next u ∧ field u.core.regs.tlbop 8 4 = 1 ∧ u.core.tlb = s.core.tlb ∧ u.mem = s.mem)) ∧
  (∀ (s : State) (v : Word),
    (∃ u, exec (.ualpeerQuery v) s = .next u ∧ u.share.pack.quarantined = s.share.pack.quarantined ∧
      bit u.share.pack.ualpeer 19 = s.share.pack.quarantined.contains (field v 0 16) ∧
      field u.share.pack.ualpeer 0 16 = field v 0 16 ∧ u.core = s.core) ∧
    (∃ u, exec (.ualpeerRelease v) s = .next u ∧
      (∀ n, n ∈ u.share.pack.quarantined ↔ (n ∈ s.share.pack.quarantined ∧ n ≠ field v 0 16)) ∧ u.core = s.core))

/-- The control words with a block in the Chamber: installing a region sets every cell of every replica to the bottom of its
type; each operation answers with its result code: 0 when done, 1 for a block or an index that is not allowed, 2 where the
place is taken or in use (R275, R276, R285, R302, R370, R442). -/
def Obligations.ControlBlocksInstall : Prop :=
  (∀ (s t : State) (v : Word) (k off : Nat) (bs : Option (List Byte)), k = field v 0 4 → off = field v 8 23 →
    (ctlBlock off 32 s = .ok (bs, t) →
      (bs.bind regionOf = none → exec (.rgctlInstallRegion v) s = .next (t.rgRes k 1)) ∧
      (∀ g, bs.bind regionOf = some g →
        ((t.region k).isSome = true → exec (.rgctlInstallRegion v) s = .next (t.rgRes k 2)) ∧
        (t.region k = none → g.gbase + 8 * g.cells ≤ 2 ^ 26 →
          (∀ i x, i < 16 → t.region i = some x → rangesMeet g.gbase (8 * g.cells) x.gbase (8 * x.cells) = false) →
          (t.schedule g.sched).isSome = true → t.memOk →
          ∃ u, exec (.rgctlInstallRegion v) s = .next u ∧ u.region k = some g ∧
            field u.share.pack.rgctl 32 32 = 0 ∧ field u.share.pack.rgctl 0 4 = k ∧
            ∀ die c, die < 8 → c < g.cells → u.cell g die c = bottom g.type))) ∧
    (k < 4 → ctlBlock off 128 s = .ok (bs, t) →
      (bs.bind scheduleOf = none → exec (.rgctlInstallSchedule v) s = .next (t.rgRes k 1)) ∧
      (∀ x, bs.bind scheduleOf = some x → (∀ i g, i < 16 → t.region i = some g → g.sched ≠ k) →
        ∃ u, exec (.rgctlInstallSchedule v) s = .next u ∧ u.schedule k = some x ∧
          field u.share.pack.rgctl 32 32 = 0 ∧ u.mem = t.mem)) ∧
    (s.region k = none → exec (.rgctlRetireRegion v) s = .next (s.rgRes k 1)) ∧
    ((s.region k).isSome = true → s.regionUsed k = true → exec (.rgctlRetireRegion v) s = .next (s.rgRes k 2)) ∧
    ((s.region k).isSome = true → s.regionUsed k = false →
      ∃ u, exec (.rgctlRetireRegion v) s = .next u ∧ u.region k = none ∧ field u.share.pack.rgctl 32 32 = 0 ∧
        u.mem = s.mem) ∧
    (ctlBlock off 128 s = .ok (bs, t) →
      (bs.bind t.windowOf = none → exec (.apctlInstall v) s = .next (t.apRes k 1)) ∧
      (∀ w, bs.bind t.windowOf = some w → (∀ (i : Nat) (x : Window), t.share.pack.windows[i]? ≠ some (some x)) →
        ∃ u, exec (.apctlInstall v) s = .next u ∧ u.share.pack.windows[k]? = some (some w) ∧
          field u.share.pack.apctl 32 32 = 0 ∧ u.mem = t.mem)) ∧
    (s.share.pack.windows[k]? = some none → exec (.apctlRetire v) s = .next (s.apRes k 1)) ∧
    (∀ w, s.share.pack.windows[k]? = some (some w) →
      ∃ u, exec (.apctlRetire v) s = .next u ∧ u.share.pack.windows[k]? = some none ∧
        field u.share.pack.apctl 32 32 = 0 ∧ u.mem = s.mem)) ∧
  (∀ (s t : State) (v : Word) (k : Nat) (bs : Option (List Byte)) (q : TaskQueue), k = field v 0 5 → dieOf s.core.id < 8 →
    (ctlBlock (field v 8 23) 64 s = .ok (bs, t) → q = t.die.tq[k]?.getD TaskQueue.reset →
      (bs.bind (t.configured q) = none → exec (.tqctlConfigure v) s = .next (t.tqRes k 1)) ∧
      (∀ r, bs.bind (t.configured q) = some r →
        ∃ u, exec (.tqctlConfigure v) s = .next u ∧ u.die.tq[k]? = some r ∧ field u.die.tqctl 32 32 = 0)) ∧
    (q = s.die.tq[k]?.getD TaskQueue.reset →
      (q.records = [] → ∃ u, exec (.tqctlDisable v) s = .next u ∧ u.die.tq[k]? = some { q with enabled := false } ∧
        field u.die.tqctl 32 32 = 0) ∧
      (q.records ≠ [] → exec (.tqctlDisable v) s = .next (s.tqRes k 2))))

/-! ### Transport -/

/-- Of what ended strands have left, a core keeps only pin entries that are not FREE (R224). -/
def Sys2Proof.pinsKept (c : Core) : Prop := ∀ x ∈ c.oldPins, x.frame ≠ 0 ∨ x.pin.state ≠ 0

/-- What a pull goes through: a notice delivered as a slot, the request of the pull with the highest score, admitted at an
open position of its pin entry, its sectors sent as units, a unit's bytes landed, routes acknowledged, and the completion
word written; a decline takes one from the entry's count; where a generation fits several entries, the entry of the core's strand goes before
one swapped out, and one that an ended strand has left comes last and takes no new pull (assumption 81, the model's choice) (R210, R216, R220, R231 to R237). -/
def Obligations.PullsAreCarriedOut : Prop :=
  (∀ (s : State) (c : NoticeCopy) (rest : List NoticeCopy) (k : Nat), s.port.outgoing = c :: rest →
    s.local c.dest = true → c.again = false → k = clusterOf (c.dest % 2048) → s.slotRoom k = true →
    ∃ u, exec .noticeDelivery s = .next u ∧ u.port.outgoing = rest ∧
      (u.share.port k).slots = (s.share.port k).slots ++ [⟨c.dest % 2048, c.notice⟩] ∧ u.core = s.core ∧ u.mem = s.mem) ∧
  (∀ (s : State) (x : Pull) (w : PullWork) (n : Nat),
    bestOf (fun y => s.score s.port y.1 y.2) s.eligible = some (x, w) → n = min s.port.chunk (x.size - w.requested) →
    s.port.inflight + n ≤ s.port.win → (s.port.lastIssue = 0 ∨ s.port.lastIssue + max 1 s.port.gap ≤ s.hub.hubClk + 1) →
    x.device = true ∨ s.local x.prod = true →
    (∀ y ∈ s.eligible, s.score s.port y.1 y.2 ≤ s.score s.port x w) ∧
    ∃ u, exec .pullRequestIssue s = .next u ∧ u.port.inflight = s.port.inflight + n ∧ u.port.lastIssue = s.hub.hubClk + 1 ∧
      u.share.net = s.share.net ++ [.request x.id w.requested n (w.requested == 0)] ∧
      (u.workOf x.id).map (·.requested) = some (w.requested + n) ∧ u.mem = s.mem) ∧
  (∀ (s : State) (id off len : Nat) (first : Bool) (rest : List Msg) (p : Pull) (w : PullWork), s.input.c = 0 →
    s.share.net = .request id off len first :: rest → s.pullOf id = some p → s.workOf id = some w → w.status = none →
    w.done = false →
    (p.device = true ∨ (p.kind = .slot ∧ first = false) → ∃ u, exec .pullRequestArrival s = .next u ∧
      u.share.net = rest ++ [.serving id off len] ∧ u.mem = s.mem) ∧
    (p.device = false → p.kind = .slot → first = true →
      ((s.coreAt (p.prod % 2048)).findPin p.pin p.gen = none → ∃ u, exec .pullRequestArrival s = .next u ∧
        u.share.net = rest ∧ (u.workOf id).bind (·.status) = some 2) ∧
      (∀ c q e k, c = s.coreAt (p.prod % 2048) → pinsKept c →
        c.pinPlace p.pin p.gen false (·.isOpen (s.podName p.core)) = some q → e = c.pinIn p.pin q →
        e.openFor (s.podName p.core) = some k →
        ∃ u, exec .pullRequestArrival s = .next u ∧ u.share.net = rest ++ [.serving id off len] ∧
          (u.workOf id).bind (·.position) = some k ∧
          (u.coreAt (p.prod % 2048)).pinIn p.pin q = { e with serving := e.serving.set k true }))) ∧
  (∀ (s t x : State) (id off len : Nat) (rest : List Msg) (p : Pull) (w : PullWork) (r : List (List Byte × Bool) × State),
    s.share.net = .serving id off len :: rest → s.pullOf id = some p → s.workOf id = some w → p.foreign = false →
    t = (s.modShare fun h => { h with net := rest }).focus p.core →
    t.sourceSectors p w ((List.range (len / 32)).map fun k => off + 32 * k) = .ok r → x = (r.2.podDone 9).focus s.core.id →
    (p.device = false → r.2 = t ∧ ∀ k, k < len / 32 →
      r.1[k]? = some (s.homeBytes .cham false (chamAt (p.prod % 2048) (p.src + (off + 32 * k))) 32)) ∧
    ∃ u, exec .pullServed s = .next u ∧ u.mem = r.2.mem ∧
      u.share.net = r.2.share.net ++ unitsOf id (p.routes w false) w.tuple (off / 256) (cutUnits r.1) ∧
      ∀ c q e k, p.size ≤ off + len → w.position = some k → c = x.coreAt (p.prod % 2048) → pinsKept c →
        c.pinPlace p.pin p.gen true (fun y => y.serving[k]?.getD false) = some q → e = c.pinIn p.pin q → e.state = 1 → 2 ≤ e.ret →
        (u.coreAt (p.prod % 2048)).pinIn p.pin q =
          { e with ret := e.ret - 1, answered := e.answered.set k true, serving := e.serving.set k false }) ∧
  (∀ (s : State) (prod pin gen c k : Nat) (rest : List Msg) (q : PinPlace) (e : Pin), s.input.c = 0 →
    s.share.net = .decline prod pin gen c :: rest → pinsKept (s.coreAt prod) →
    (s.coreAt prod).pinPlace pin gen true (·.isOpen c) = some q → e = (s.coreAt prod).pinIn pin q → e.state = 1 → 2 ≤ e.ret →
    e.openFor c = some k →
    ∃ u, exec .declineArrival s = .next u ∧ u.share.net = rest ∧ u.mem = s.mem ∧
      (u.coreAt prod).pinIn pin q = { e with ret := e.ret - 1, answered := e.answered.set k true }) ∧
  (∀ (s : State) (id n acks cid step contrib : Nat) (data : List Byte) (poison : List Bool) (p : Pull) (w : PullWork),
    s.unitsReady[s.input.a]? = some (.unit id n acks cid step contrib data poison) → s.pullOf id = some p →
    s.workOf id = some w → w.status = none → w.bitmap = none → w.red = none → data.length % 32 = 0 →
    poison.length = data.length / 32 → s.memOk →
    ∃ u, exec .pullUnitLanding s = .next u ∧
      (∀ k, k < data.length → u.byteAt .cham false (chamAt p.core (p.land + 256 * n) + k) = data[k]?.getD 0) ∧
      (∀ k, k < chamAt p.core (p.land + 256 * n) ∨ chamAt p.core (p.land + 256 * n) + data.length ≤ k →
        u.byteAt .cham false k = s.byteAt .cham false k)) ∧
  (∀ (s : State) (id core r k : Nat) (rest : List Msg), s.share.net = .ack id core r k :: rest → r < 4 →
    ∃ u, exec .routeAck s = .next u ∧ u.share.net = rest ∧ u.mem = s.mem ∧
      field (u.coreAt core).regs.rtcnt (16 * r) 16 = (field (s.coreAt core).regs.rtcnt (16 * r) 16 + k) % 2 ^ 16) ∧
  (∀ (s : State) (p : Pull) (w : PullWork) (rest : List Pull) (st n c : Nat), s.share.pulls = p :: rest → p.kind = .slot →
    s.workOf p.id = some w → s.wordHeld p = false → s.finalStatus p w = some st → p.cw = some c → s.memOk → st < 2 ^ 8 →
    n = (if st = 1 ∨ st = 3 then p.size else if st = 4 then (w.landed.map fun u => min 256 (p.size - 256 * u)).sum else 0) → n < 2 ^ 24 →
    ∃ u, exec .pullCompletion s = .next u ∧ u.core.regs = s.core.regs ∧
      ∀ i, i < 8 → u.byteAt .cham false (chamAt p.core c + i) =
        (BitVec.ofNat 64 (p.tag.toNat * 2 ^ 32 + n * 2 ^ 8 + st)).extractLsb' (8 * i) 8)

/-! ### Time, errors and power -/

/-- A correctable error is corrected and counted in its field of the die's `eccstat`, which saturates, and nothing else
changes; an uncorrectable error poisons the whole sector of 32 bytes that it lies in, on the view that it strikes, and is counted, as one
of the stacks when device storage is struck and as one of SRAM otherwise, that of the L2 and of an L1 among them, with every byte as it
was; one that strikes a ring word between FP and WP ends the strand; `eccstat` is read on the core's die and written there by privileged
code (R408, R411, R412, R418). -/
def Sys2Proof.Clauses.StorageErrorsCounted : Prop :=
  ∀ (s u : State) (e : Word),
    (∀ x ∈ [(0, 40), (1, 16), (2, 0)], s.input.a = x.1 → s.input.b < 8 → e = (s.dieAt s.input.b).eccstat →
      exec .correctableError s = .next (s.modDieAt s.input.b fun d => { d with eccstat := addSat e x.2 16 1 }) ∧
      field (addSat e x.2 16 1) x.2 16 = min (field e x.2 16 + 1) 65535 ∧
      (∀ i, i < x.2 ∨ x.2 + 16 ≤ i → bit (addSat e x.2 16 1) i = bit e i)) ∧
    (∀ sp view c, sp = spaceNo s.input.b → c = s.input.c → view = (sp == .dev && c % 2 == 1) → s.input.b < 6 → sp ≠ .host → c < 4 →
      dieAt sp s.input.a < 8 → s.ringStruck sp s.input.a = none → exec .sramUncorrectableError s = .next u →
      (∀ x, x / 32 = s.input.a / 32 → (u.mem.bank sp view).poisoned (unitOf sp) x 1 = true) ∧
      (∀ v w a, u.byteAt v w a = s.byteAt v w a) ∧
      (sp = .dev → c < 2 → field (u.dieAt (dieAt sp s.input.a)).eccstat 32 8 =
        min (field (s.dieAt (dieAt sp s.input.a)).eccstat 32 8 + 1) 255) ∧
      (sp ≠ .dev ∨ 2 ≤ c → field (u.dieAt (dieAt sp s.input.a)).eccstat 56 8 =
        min (field (s.dieAt (dieAt sp s.input.a)).eccstat 56 8 + 1) 255) ∧
      u.core = s.core ∧ u.parked = s.parked ∧ u.hub = s.hub) ∧
    (∀ sp, sp = spaceNo s.input.b → s.input.b < 6 → (sp = .host ∧ 2 ≤ s.input.c) ∨ 4 ≤ s.input.c → dieOf s.core.id < 8 →
      s.ringStruck sp s.input.a = none → exec .sramUncorrectableError s = .next u →
      field (u.dieAt (dieOf s.core.id)).eccstat 56 8 = min (field (s.dieAt (dieOf s.core.id)).eccstat 56 8 + 1) 255) ∧
    (∃ t, exec .sramUncorrectableError s = .next t) ∧
    (∀ k, s.input.b < 6 → s.ringStruck (spaceNo s.input.b) s.input.a = some k →
      ∃ t, exec .sramUncorrectableError s = .next t ∧ (t.coreAt k).mode = .idle ∧ (t.coreAt k).running = none) ∧
    s.sysRead 0x1E0 = (s.dieAt (dieOf s.core.id)).eccstat ∧
    ∀ a : BitVec 6, s.apRuns (.csrw a 0x1E0) → exec (.csrw a 0x1E0) s = .next (s.after (if s.privileged then
      s.modDieAt (dieOf s.core.id) (fun d => { d with eccstat := s.aread a.toNat }) else s) (.csrw a 0x1E0) .seq)

/-- Power comes up with every core, queue and scratchpad as at reset, memory empty (assumption 4) and the flash and the host's memory as
they were (assumption 43); an idle core whose engines have quiesced, and no other (assumption 47), is gated and then holds no leaf; the
throttle moves by one step and no other result changes (R407, R419, R431; the assumptions are the model's choice). -/
def Sys2Proof.Clauses.PowerChanges : Prop :=
  ∀ s : State,
    (∃ u, exec .powerOn s = .next u ∧ u.core = Core.reset 0 ∧ u.parked = [] ∧ u.share = Share.reset ∧
      u.hub.queues = Hub.reset.queues ∧ u.hub.fw.rdy = 0 ∧ u.hub.fw.flash = s.hub.fw.flash ∧ u.mem.host = s.mem.host ∧
      u.mem.cham = Bank.reset ∧ u.mem.dev = Bank.reset) ∧
    (s.core.mode = .idle → s.core.draining = false → ∃ u, exec .corePowerGate s = .next u ∧ u.core.gated = true ∧ u.core.tlb = [] ∧
      u.ep.leaves = [] ∧ u.regs = s.regs ∧ u.mem = s.mem ∧ u.parked = s.parked) ∧
    (s.core.mode ≠ .idle ∨ s.core.draining = true → exec .corePowerGate s = .next s) ∧
    exec .corePowerUngate s = .next (s.modCore fun c => { c with gated := false }) ∧
    (s.input.c ≠ 1 → exec .powerThrottle s = .next (s.modHub fun h => { h with throttle := h.throttle + 1 })) ∧
    (s.input.c = 1 → exec .powerThrottle s = .next (s.modHub fun h => { h with throttle := h.throttle - 1 }))

/-- A poisoned element that arrives, under PPOL 0, for the word that the EP runs raises the EP-precise trap at that moment;
one that is clean changes nothing (R119, R383, R410). -/
def Sys2Proof.Clauses.PoisonedElementTraps : Prop :=
  ∀ (s : State) (k : Nat) (v : Version), k = s.input.a → v = (s.stream k).epVersion → s.core.mode = .running →
    s.ep.held = false → s.ep.chain = none → s.limit = none → k < 16 → v.isQueue = false → v.ppol = 0 → v.pos < v.count →
    s.epReads k = true →
    (∀ keep t, ((s.epPath k).elem v.pos).run s = .error (.trap keep t) → t.code = 0x16 → t.cls = .e →
      ∃ u, exec .streamElementArrival s = .next u ∧ u.strand.pend = s.strand.pend ++ [t] ∧ u.ep.held = true ∧
        u.ep.pc = s.ep.pc ∧ u.ep.seq = s.ep.seq ∧ u.regs = s.regs ∧ u.strand.queues = s.strand.queues ∧ u.mem = s.mem) ∧
    (∀ r, ((s.epPath k).elem v.pos).run s = .ok r → exec .streamElementArrival s = .next s)

/-! ### Launches and their leaves -/

/-- The leaves of a launch number its spatial levels in mixed radix, the outermost level the highest place: the indices of
leaf n give n back, and each lies below its level's extent (R367). -/
def Sys2Proof.Clauses.LeavesNumberTheLevels : Prop :=
  ∀ (ls : List Level6) (n : Nat), n < leaves ls →
    (leafOf ls n).map (·.1) = ls.filter spatial ∧ (∀ x ∈ leafOf ls n, x.2 < x.1.ext) ∧
    (leafOf ls n).foldl (fun j x => j * x.1.ext + x.2) 0 = n

/-- The next leaf of a launch becomes a record at the tail of its task queue, on the die that its indices name, when that
queue has room; otherwise it waits (R367, R368, R370). -/
def Sys2Proof.Clauses.LeavesAreEnqueued : Prop :=
  ∀ (s : State) (l : Launch) (n die : Nat), (s.hub.launches.filter fun l => l.next < l.total)[s.input.a]? = some l →
    n = l.next → die = (l.die + dieIndex (leafOf l.levels n)) % 8 →
    ((s.tqOf die l.tq).room = false → exec .launchExpand s = .next s) ∧
    ((s.tqOf die l.tq).room = true →
      ∃ u r, exec .launchExpand s = .next u ∧ (u.tqOf die l.tq).records = (s.tqOf die l.tq).records ++ [r] ∧
        r.code = BitVec.ofNat 64 (l.desc + Kernel.entry l.kernel) ∧ r.frame = BitVec.ofNat 64 l.frame ∧
        r.join = BitVec.ofNat 64 (l.frame + 136) ∧ r.idx = BitVec.ofNat 64 (packIdx (leafOf l.levels n)) ∧ r.inv = l.inv ∧
        r.kept = [] ∧ u.hub.launches = (s.hub.launches.map fun x => if x.frame = l.frame then { x with next := x.next + 1 } else x) ∧
        u.mem = s.mem ∧ u.core = s.core ∧ u.parked = s.parked)

/-- What a strand holds when its launch starts it: the descriptor's wait table, rotation and streams, the frame's relocation
registers, its index, handler and root tables, and every other register of its files 0 (R31, R323, R364, R379). -/
def Sys2Proof.Machine.Strand.asLaunched (t : Strand) (l : Launch) (r : Record) (rl : Vector Word 16) (gang : Word) : Prop :=
  t.ap.pc = r.code.setWidth 56 ∧ t.ep.pc = t.ap.pc ∧ t.ap.seq = t.ep.seq ∧ t.regs.rl = rl ∧
  t.regs.waitb = Kernel.waitTable l.kernel ∧ field t.regs.rotbase 34 2 = Kernel.ra l.kernel ∧
  field t.regs.rotbase 32 2 = Kernel.re l.kernel ∧ field t.regs.rotbase 0 32 = 0 ∧
  t.streams = Kernel.streams l.kernel ∧ t.sys.lpidx = r.idx ∧ t.sys.ptbase = l.root ∧ t.sys.hptbase = l.hroot ∧
  t.sys.gangid = gang ∧
  t.sys.shvec = (if Kernel.handler l.kernel = 0 then 0 else
    BitVec.ofNat 64 (l.desc + Kernel.handler l.kernel) &&& 0x00FFFFFFFFFFFFFC#64) ∧
  t.regs.a = .replicate 64 0 ∧ t.regs.e = .replicate 32 0 ∧ t.regs.p = .replicate 48 false ∧ t.regs.rc = 0 ∧
  t.regs.lc = .replicate 6 0 ∧ t.regs.aflags = 0 ∧ t.sg = .replicate 63 0 ∧ t.tiles = .replicate 48 Tile.dead ∧
  t.regs.waitbEp = t.regs.waitb ∧ (∀ p ∈ t.pins.toList, p = { Pin.free with gen := p.gen }) ∧ t.queues = Strand.reset.queues

/-! ### The scheduler -/

/-- The queue that a core takes from has the highest effective class of those that offer it a record, and the record is the
oldest that the core may take (R371). -/
def Sys2Proof.Clauses.SelectionOrder : Prop :=
  ∀ (s t : State) (ok : Record → Bool) (o : Offer) (die : Nat), die = dieOf s.core.id →
    (∀ q, (s.tqOf die q).asked ≠ some s.core.id) → s.select ok = some (o, t) →
    o ∈ s.offers s.core ok ∧ (∀ x ∈ s.offers s.core ok, (s.tqOf die x.q).ep s.clk ≤ (s.tqOf die o.q).ep s.clk) ∧
    (s.tqOf die o.q).enabled = true ∧ (s.tqOf die o.q).records[o.ix]? = some o.rec_ ∧ ok o.rec_ = true ∧
    (∀ i r, i < o.ix → (s.tqOf die o.q).records[i]? = some r → ok r = false ∨ s.canTake s.core r = false) ∧
    (∀ q, (t.tqOf die q).records = (s.tqOf die q).records) ∧ t.core = s.core ∧ t.parked = s.parked ∧ t.mem = s.mem ∧
    t.hub = s.hub

/-- An idle core that takes a record starts its strand as launched; a leaf of a gang is reserved for its members; a core
that may not select does nothing (R31, R371, R374). -/
def Sys2Proof.Clauses.CoresTakeRecords : Prop :=
  ∀ s : State,
    (s.canSelect = false → exec .recordSelect s = .next s) ∧
    (∀ g, s.canSelect = true → s.joins = some g → exec .recordSelect s = .next (s.reserve g.tq g.record)) ∧
    (∀ o t l, s.canSelect = true → s.core.preload = none → s.joins = none → s.select s.wants = some (o, t) →
      s.launchOf o.rec_ = some l →
      (o.rec_.gangSize l ≠ 0 → exec .recordSelect s = .next (t.reserve o.q o.rec_)) ∧
      (o.rec_.gangSize l = 0 → o.rec_.kept = [] →
        ∃ u rl, exec .recordSelect s = .next u ∧ u.core.mode = .running ∧ u.core.id = s.core.id ∧
          u.strand.asLaunched l o.rec_ rl 0 ∧
          u.core.running = some ⟨{ o.rec_ with rerun := [], slot := none }, o.q, s.clk, 0, l.desc⟩ ∧
          (u.tqOf (dieOf s.core.id) o.q).records = (s.tqOf (dieOf s.core.id) o.q).records.eraseIdx o.ix ∧
          u.core.regs.yreq = 0 ∧ field u.core.regs.ydead 32 32 = field s.core.regs.ydead 0 32))

/-- The members of a reserved gang start in one clk, each on its core, with its number and the gang's size in `gangid`
(R374, R376). -/
def Sys2Proof.Clauses.GangsStartTogether : Prop :=
  ∀ (s : State) (g : Reservation) (l : Launch) (die : Nat) (cs : List Nat), die = dieOf s.core.id → (s.dieAt die).gangs = [g] →
    g.since < s.clk → s.launchOf g.record = some l → g.record.kept = [] → cs.Nodup → cs.length ≤ 16 →
    ((List.range 12).findSome? fun c => g.team (g.record.gangSize l) (16 * die + c)) = some cs →
    ∃ u, exec .gangStart s = .next u ∧ (u.dieAt die).gangs = [] ∧ u.core.id = s.core.id ∧
      ∀ i k, cs[i]? = some k → (u.coreAt k).mode = .running ∧
        field (u.coreAt k).strand.sys.gangid 0 4 = i ∧ field (u.coreAt k).strand.sys.gangid 4 4 = cs.length - 1 ∧
        (u.coreAt k).strand.ap.pc = g.record.code.setWidth 56 ∧
        ∃ r, (u.coreAt k).running = some r ∧ r.member = i ∧ r.tq = g.tq ∧ r.record.idx = g.record.idx

/-- The next record of a busy core is loaded beside the strand that runs, with its start values, when their banks are apart;
64 clk after the core's release it starts with them (R32, R377). -/
def Sys2Proof.Clauses.PreloadedTaskStarts : Prop :=
  (∀ (s t : State) (o : Offer) (l : Launch), s.core.mode ≠ .idle → s.core.preload = none → s.core.regs.yreq ≠ 1 →
    s.dieReady (dieOf s.core.id) = true → (s.select fun r => r.rerun.isEmpty) = some (o, t) → s.launchOf o.rec_ = some l →
    o.rec_.kept = [] → o.rec_.gangSize l = 0 →
    (Kernel.banks l.kernel &&& s.strand.info.banks ≠ 0 → exec .preloadLoad s = .next s) ∧
    (Kernel.banks l.kernel &&& s.strand.info.banks = 0 →
      ∃ u p, exec .preloadLoad s = .next u ∧ u.core.preload = some p ∧ p.record = o.rec_ ∧ p.tq = o.q ∧
        p.pc = o.rec_.code.setWidth 56 ∧ p.waitb = Kernel.waitTable l.kernel ∧ p.streams = Kernel.streams l.kernel ∧
        p.rl = s.frameRl l.frame ∧ p.banks = Kernel.banks l.kernel ∧ u.core.mode = s.core.mode ∧ u.regs = s.regs ∧
        (u.tqOf (dieOf s.core.id) o.q).records = (s.tqOf (dieOf s.core.id) o.q).records.eraseIdx o.ix)) ∧
  (∀ (s : State) (p : Preload), s.core.preload = some p →
    (s.clk < s.core.released + 64 → exec .preloadActivate s = .next s) ∧
    (∀ l, s.core.mode = .idle → s.core.draining = false → s.core.gated = false → s.core.halted = false → s.core.released + 64 ≤ s.clk →
      s.rerunWaits = false → s.launchOf p.record = some l →
      ∃ u, exec .preloadActivate s = .next u ∧ u.core.mode = .running ∧ u.core.preload = none ∧
        u.strand.asLaunched l p.record p.rl 0))

/-- A queue with PRE whose head waits, while its mask runs only work and some of a lower class that no request stands
against, requests one such core; a request whose deadline passes without a yield makes the save due (R92, R373, R378). -/
def Sys2Proof.Clauses.PreemptionRequests : Prop :=
  (∀ (s : State) (die q : Nat) (z : TaskQueue) (c : Core), die = dieOf s.core.id → z = s.tqOf die q → q < 32 →
    z.enabled = true → z.pre = true → z.records ≠ [] → z.asked = none → s.victim die z = some c →
    (∀ j, j < q → (s.tqOf die j).pre = false) →
    ∃ u, exec .preemptRequest s = .next u ∧ (u.tqOf die q).asked = some c.id ∧ (u.coreAt c.id).regs.yreq = 1 ∧
      field (u.coreAt c.id).regs.ydead 32 32 = field c.regs.ydead 0 32 ∧ u.core.id = s.core.id ∧ u.mem = s.mem ∧
      c.mode ≠ .idle ∧ (c.running.map fun r => (s.tqOf die r.tq).prio).getD 8 < z.ep s.clk) ∧
  (∀ s : State, s.core.mode ≠ .idle → s.core.regs.yreq = 1 → s.strand.ap.ending ≠ some .yield →
    (field s.core.regs.ydead 32 32 = 0 → exec .deadlineExpiry s = .next (s.modCore fun c => { c with saveDue := true })) ∧
    (field s.core.regs.ydead 32 32 ≠ 0 → exec .deadlineExpiry s = .next s))

/-- A strand that has halted, with nothing of it outstanding, performs its stores, completes to memory the loads that are in
flight, releases its writes and gives its core back; the join counter of its record falls, and at 0 the launch's join strand is
enqueued, or without one the launch ends; with the join strand the launch ends (R19, R96, R369). -/
def Sys2Proof.Clauses.HaltedStrandsEnd : Prop :=
  ∀ s : State,
    (s.haltReady = false → exec .haltComplete s = .next s) ∧
    (s.haltReady = true → s.drainAll.storesDone = false → exec .haltComplete s = .next s.drainAll) ∧
    ∀ t, t = s.drainAll.completeLoads.releaseAll → s.haltReady = true → s.drainAll.storesDone = true →
      (∃ u, exec .haltComplete s = .next u ∧ u.core.mode = .idle ∧ u.core.running = none ∧ u.core.id = t.core.id) ∧
      (∀ r l n, t.core.running = some r → (∀ d ∈ t.parked, sameGang t.core d = false) →
        t.hub.launches.find? (fun l => l.frame == r.record.launch) = some l → r.record.join ≠ 0 → t.memOk →
        n = t.mem.phys8 r.record.join.toNat - 1 →
        ∃ u, exec .haltComplete s = .next u ∧ u.mem.phys8 r.record.join.toNat = n ∧
          (n ≠ 0 → u.hub.launches = t.hub.launches ∧ ∀ d q, (u.tqOf d q).records = (t.tqOf d q).records) ∧
          (n = 0 → Kernel.joinPc l.kernel ≠ 0 → dieOf t.core.id < 8 → r.tq < 32 →
            ∃ j, (u.tqOf (dieOf t.core.id) r.tq).records = (t.tqOf (dieOf t.core.id) r.tq).records ++ [j] ∧
              j.code = BitVec.ofNat 64 (l.desc + Kernel.joinPc l.kernel) ∧ j.join = 0 ∧ j.idx = 0 ∧
              j.frame = BitVec.ofNat 64 l.frame) ∧
          (n = 0 → Kernel.joinPc l.kernel = 0 → ∀ x ∈ u.hub.launches, x.frame ≠ l.frame)) ∧
      (∀ r l, t.core.running = some r → (∀ d ∈ t.parked, sameGang t.core d = false) →
        t.hub.launches.find? (fun l => l.frame == r.record.launch) = some l → r.record.join = 0 →
        ∃ u, exec .haltComplete s = .next u ∧ ∀ x ∈ u.hub.launches, x.frame ≠ l.frame)

/-- A contained fault of an invocation whose kernel may be run again, and that has been replayed less than twice, launches it
again; of any other it fails the invocation: its strands end, its record goes, the fault is recorded and its queue is told, with
its interrupt at once where the event record lies on this node, and otherwise when its write has been performed there
(R336, R348, R349). -/
def Sys2Proof.Clauses.InvocationsReplayOrFail : Prop :=
  (∀ (s : State) (v : Invocation), (s.hub.invocations.find? fun v => v.fault.isSome && s.replayable v) = some v →
    s.invokeAsk v.queue v.slot v.body = none →
    ∃ u, exec .invocationReplay s = .next u ∧ (∀ k ∈ s.coresOf v.id, (u.coreAt k).mode = .idle) ∧
      (∀ w ∈ u.hub.invocations, w.id = v.id → w.replays = v.replays + 1 ∧ w.fault = none ∧ w.body = v.body) ∧
      (∀ x, x.id ≠ v.id → (x ∈ u.hub.invocations ↔ x ∈ s.hub.invocations))) ∧
  (∀ (s : State) (v : Invocation) (r : FaultRecord),
    (s.hub.invocations.find? fun v => v.fault.isSome && !s.replayable v) = some v → v.fault = some r → v.queue < 256 →
    ∃ u, exec .invocationFail s = .next u ∧ (∀ k ∈ s.coresOf v.id, (u.coreAt k).mode = .idle) ∧
      u.hub.invocations = (s.hub.invocations.filter fun w => w.id != v.id) ∧
      u.hub.launches = (s.hub.launches.filter fun l => l.inv != v.id) ∧ u.hub.faults.head? = some r ∧
      (u.queue v.queue).events = (s.queue v.queue).events + 1 ∧
      (∀ t z, t = ((s.dropCores (s.coresOf v.id)).dropRecords v.id).addRecord r → z = s.queue v.queue → u.hub.interrupts =
        if (t.qPost v.queue (.event z.vec) z.eventAt (t.eventBytes v.queue 5 v.header)).2 then s.hub.interrupts else s.hub.interrupts ++ [z.vec]) ∧
      (v.slot < 64 → (u.slot v.slot).infl = (s.slot v.slot).infl - 1))

/-! ### Saves and restores -/

/-- A strand that must be or has offered to be saved, and stands ready, is saved once every store of it is performed: the core is idle, its record goes to the
head of its queue marked as saved, with its image's frame, the core that it was on and whether it is bound to it, and the
core holds its tiles, banks and lane slices in place (R225, R368, R378). -/
def Sys2Proof.Clauses.StrandsAreSaved : Prop :=
  ∀ (s : State) (r : Running) (die : Nat), s.core.running = some r → s.gangCores = [s.core.id] → s.saveReady = true →
    die = dieOf s.core.id → die < 8 → r.tq < 32 →
    (s.drainAll.storesDone = false → exec .strandSave s = .next s.drainAll) ∧
    (s.drainAll.storesDone = true → ∃ u q h, exec .strandSave s = .next u ∧ u.core.mode = .idle ∧ u.core.running = none ∧
      (u.tqOf die r.tq).records = q :: (s.tqOf die r.tq).records ∧ bit q.code 0 = true ∧
      (∀ i, i ≠ 0 → bit q.code i = bit r.record.code i) ∧ q.inv = r.record.inv ∧
      q.idx = BitVec.ofNat 64 (s.core.id + if s.core.binds then 2 ^ 11 else 0) ∧
      u.core.held = h :: s.core.held ∧ q.frame = BitVec.ofNat 64 h.frame ∧ h.tiles = s.strand.tiles ∧
      h.banks = s.strand.info.banks ∧ h.lanes = true)

/-- A bank that a core holds in place for a saved record, and that no pin entry covers, is written to the record's image
(R378, R379). -/
def Sys2Proof.Clauses.SavedBanksWritten : Prop :=
  ∀ (s : State) (h : Held) (b : Nat), s.core.held[s.input.a]? = some h → b < 8 → h.banks = 1#8 <<< b → h.lanes = false → s.memOk →
    (∀ o ∈ s.core.oldPins, o.frame = h.frame → o.pin.covers b = false) →
    ∃ u, exec .savedBankWrite s = .next u ∧ u.core.held = (s.core.held.filter fun x => x.frame != h.frame) ∧
      (∀ i, i < 2 ^ 20 → u.byteAt .dev false (bankPlace s h.frame b + i) = s.byteAt .cham false (chamAt s.core.id (b * 2 ^ 20) + i)) ∧
      u.regs = s.regs ∧ u.core.mode = s.core.mode

/-- An idle core whose next record is a saved one runs it again from its image, or, when the image is refused, records why
and the record is gone (R380). -/
def Sys2Proof.Clauses.SavedRecordsRestored : Prop :=
  ∀ (s t z : State) (o : Offer) (l : Launch) (k : Kept), s.canSelect = true → s.core.preload = none →
    s.select s.wants = some (o, t) → s.launchOf o.rec_ = some l → o.rec_.gangSize l = 0 → o.rec_.kept = [k] →
    z = t.modTq (dieOf s.core.id) o.q (fun q => q.remove o.ix s.clk) →
    (z.whyRefused o.rec_ (fun _ => s.core.id) = none →
      ∃ u, exec .strandRestore s = .next u ∧ u.core.id = s.core.id ∧ u.core.mode = .running ∧
        (u.core.running.map (·.member)) = some k.member ∧ (u.core.running.map (·.tq)) = some o.q ∧
        (∀ h ∈ u.core.held, h.frame ≠ k.frame) ∧ u.core.regs.yreq = 0 ∧ u.core.saveDue = false) ∧
    (∀ x c, z.whyRefused o.rec_ (fun _ => s.core.id) = some (x, c) →
      ∃ u f, exec .strandRestore s = .next u ∧ u.core.mode = .idle ∧ u.hub.faults.head? = some f ∧ f.code = c)

/-- A block ends when its condition has cleared; one that has outlasted its bound and still holds is the progress trap, at
once for the AP and at its next boundary for the EP, which is held (an `lldt`, whose condition is its cell's, takes it itself
at its next turn); after the return that retries, the word blocks again with a
fresh count (R24, R41, R393, R394). -/
def Sys2Proof.Clauses.BlockEvents : Prop :=
  ∀ (s : State) (e : BitVec 1) (b : Block), s.blockOf e = some b →
    (s.blockClear b = true → exec (.blockEnd e) s = .next (s.setBlock e none) ∧ exec (.progressTrap e) s = .next s) ∧
    (s.blockClear b = false → exec (.blockEnd e) s = .next s) ∧
    (s.blockClear b = false → b.expired = true → b.kind ≠ 6 → e = 0#1 → s.core.mode ≠ .idle → s.monitor = none →
      exec (.progressTrap e) s = .next (s.takeTrap (s.progressTrap .p b))) ∧
    (s.blockClear b = false → b.expired = true → b.kind ≠ 6 → e = 1#1 → s.core.mode = .running →
      ∃ u, exec (.progressTrap e) s = .next u ∧ u.ep.block = none ∧ u.ep.held = true ∧
        u.strand.pend = s.strand.pend ++ [s.progressTrap .e b] ∧ u.regs = s.regs ∧ u.strand.queues = s.strand.queues ∧
        u.mem = s.mem) ∧
    (s.progressTrap .p b).code = 0xA ∧ (b.cls < 16 → (s.progressTrap .p b).arg % 16 = b.cls) ∧
    (e = 0#1 → s.inShadow = false → field s.strand.sys.shvec 2 54 ≠ 0 →
      ((s.takeTrap (s.progressTrap .p b)).shret 0).core.mode = .running ∧
      ((s.takeTrap (s.progressTrap .p b)).shret 0).ap.block = none) ∧
    ∀ w, (nextBlock s.regs none w).count = 1 ∧ (nextBlock s.regs none w).cls = w.cls

/-! ### Packets -/

namespace Sys2Proof.Machine

/-- May the packet with this body run now: its queue runs and its opcode is allowed, its words are there, and no write to a
control block waits (R327, R335, R337)? -/
def State.packetRuns (s : State) (op : Nat) (b : List Word32) : Prop :=
  let z := s.queue s.input.a
  s.input.a < 256 ∧ z.mode = 1 ∧ s.qpReady s.input.a = true ∧ s.recovery = false ∧ op < 14 ∧ z.allows op = true ∧
  b.length + 1 ≤ z.left ∧ z.pending = []

/-- A packet of n words has completed at level 0: RP passes it, LAST holds its address, and the queue runs on (R327, R334). -/
def State.packetPast (s u : State) (n : Nat) : Prop :=
  let z := s.queue s.input.a
  let y := u.queue s.input.a
  y.rp = z.rp + BitVec.ofNat 32 n ∧ y.wp = z.wp ∧ y.mode = 1 ∧ y.wait = none ∧ y.run = none ∧
  y.last = BitVec.ofNat 64 (z.base + 4 * (z.rp.toNat % 2 ^ z.log2sz))

/-- The packet waits at its place (R338). -/
def State.packetWaits (s u : State) : Prop :=
  let z := s.queue s.input.a
  let y := u.queue s.input.a
  y.rp = z.rp ∧ y.mode = 1 ∧ y.levels = z.levels ∧ y.wait.isSome = true

/-- The queue has halted with a cause, at the packet (R335, R336). -/
def State.queueHalted (s u : State) (code : Nat) : Prop :=
  let z := s.queue s.input.a
  let y := u.queue s.input.a
  y.rp = z.rp ∧ y.wp = z.wp ∧ y.mode = 2 ∧ y.cause = code

end Sys2Proof.Machine

/-- The validator: a packet of an opcode that the queue does not allow halts it with 0x41, one whose form is broken with
0x42, one with a region outside the ranges with 0x43, and none of these has an effect on a core; a header of no packet halts
it as well (R335, R337, R340). -/
def Sys2Proof.Clauses.ValidatorHaltsQueue : Prop :=
  ∀ (s : State) (z : HubQueue), z = s.queue s.input.a → s.input.a < 256 → z.mode = 1 → s.qpReady s.input.a = true →
    s.recovery = false → z.pending = [] →
    (∀ op b f r act, 14 ≤ op ∨ z.allows op = false →
      ∃ u, s.runPacket op b f r act = .next u ∧ s.queueHalted u 0x41 ∧ u.regs = s.regs) ∧
    (∀ op b r act, op < 14 → z.allows op = true → b.length + 1 ≤ z.left →
      ∃ u, s.runPacket op b false r act = .next u ∧ s.queueHalted u 0x42 ∧ u.regs = s.regs) ∧
    (∀ op b r act, op < 14 → z.allows op = true → b.length + 1 ≤ z.left → r z = false →
      ∃ u, s.runPacket op b true r act = .next u ∧ s.queueHalted u 0x43 ∧ u.regs = s.regs) ∧
    (∀ h, 1 ≤ z.left → ∃ u, exec (.notAPacket h) s = .next u ∧ s.queueHalted u 0x41 ∧ u.regs = s.regs)

/-- `write` stores its data words upward from its address, and `write` with ADD adds its word to the word there, and at another
node's word waits for the one addition that it asks of that node; RP passes the packet (R328, R337). -/
def Sys2Proof.Clauses.WritePackets : Prop :=
  ∀ (s : State) (b : List Word32) (z : HubQueue) (a : Nat), z = s.queue s.input.a → s.packetRuns 1 b → z.atZero = true →
    3 ≤ b.length → b.length ≤ 1026 → a = (b[0]?.getD 0).toNat + 2 ^ 32 * (b[1]?.getD 0).toNat →
    (inRange z.active a (4 * (b.length - 2))).isSome = true → a % 4 = 0 →
    (∀ t, s.qWrite s.input.a a ((b.drop 2).flatMap fun w => leBytes 4 w.toNat) = .ok t →
      ∃ u, exec (.pktWrite b) s = .next u ∧ s.packetPast u (b.length + 1) ∧ u.mem = t.mem ∧ u.core = t.core) ∧
    (∀ p x, b.length = 3 → s.hubPlace (s.rootsOf z.asid) (z.hostAt a 4) a true = .ok (p, x) →
      (∀ v r t, (∀ node off, x.targetOf p.space p.pa ≠ .pod node off) → s.qRead s.input.a a 4 = .ok (v, r) →
        r.qWrite s.input.a a (leBytes 4 ((leNat v.1 + (b[2]?.getD 0).toNat) % 2 ^ 32)) = .ok t →
        ∃ u, exec (.pktWriteAdd b) s = .next u ∧ s.packetPast u 4 ∧ u.mem = t.mem ∧ u.core = t.core) ∧
      (∀ node off, x.targetOf p.space p.pa = .pod node off →
        (x.hubAdded (hubAgent s.input.a) node off = true →
          ∃ u, exec (.pktWriteAdd b) s = .next u ∧ s.packetPast u 4 ∧ u.mem = x.mem ∧ u.core = s.core) ∧
        (x.hubAdded (hubAgent s.input.a) node off = false →
          ∃ u, exec (.pktWriteAdd b) s = .next u ∧ s.packetWaits u ∧ u.mem = s.mem ∧
            (∀ q ∈ u.share.pod, q ∉ s.share.pod → q.kind = .atomic 10 ∧ q.node = node ∧ q.offset = off ∧
              q.data = leBytes 4 (b[2]?.getD 0).toNat))))

/-- `nop` passes; `event` writes the queue's next event record at its home and then raises its vector; `summary` writes the
summary; both write the bytes that were taken when the packet began, however often it begins anew for another node; `fence`
waits for the queue's invocations; `ffence` discards every fetched word (R328, R335, R338, R350). -/
def Sys2Proof.Clauses.PlainPackets : Prop :=
  ∀ (s : State) (b : List Word32) (q : Nat) (z : HubQueue), q = s.input.a → z = s.queue q → z.atZero = true →
    (s.packetRuns 0 b → ∃ u, exec (.pktNop b) s = .next u ∧ s.packetPast u (b.length + 1) ∧ u.mem = s.mem ∧ u.core = s.core) ∧
    (∀ t bs v, s.packetRuns 11 b → b.length = 2 → t = s.takeRecord q (s.eventBytes q 1 (ba b 0)) →
      bs = (if z.taken = [] then s.eventBytes q 1 (ba b 0) else z.taken) →
      (t.qWrite q z.eventAt bs = .ok v → ∃ u, exec (.pktEvent b) s = .next u ∧ s.packetPast u 3 ∧ (u.queue q).events = z.events + 1 ∧
        (u.queue q).taken = [] ∧ u.hub.interrupts = s.hub.interrupts ++ [z.vec] ∧ u.mem = v.mem) ∧
      (∀ r, t.qWrite q z.eventAt bs = .error (.ask r) → ∃ u, exec (.pktEvent b) s = .next u ∧ s.packetWaits u ∧
        (u.queue q).taken = bs ∧ u.hub.interrupts = s.hub.interrupts ∧ u.mem = s.mem)) ∧
    (∀ t bs v, s.packetRuns 12 b → b.length = 2 → (inRange z.active (ba b 0) 0x2C80).isSome = true →
      t = s.takeRecord q (s.summary (some (q, (z.rp + 3).toNat, z.here))) →
      bs = (if z.taken = [] then s.summary (some (q, (z.rp + 3).toNat, z.here)) else z.taken) → t.qWrite q (ba b 0) bs = .ok v →
      ∃ u, exec (.pktSummary b) s = .next u ∧ s.packetPast u 3 ∧ u.mem = v.mem) ∧
    (s.packetRuns 9 [] → (s.hub.invocations.any fun v => v.queue == q) = false →
      ∃ u, exec .pktFence s = .next u ∧ s.packetPast u 1 ∧ u.mem = s.mem) ∧
    (s.packetRuns 9 [] → (s.hub.invocations.any fun v => v.queue == q) = true →
      ∃ u, exec .pktFence s = .next u ∧ s.packetWaits u ∧ u.mem = s.mem) ∧
    (s.packetRuns 10 [] → ∃ u, exec .pktFfence s = .next u ∧ s.packetPast u 1 ∧
      (∀ l ∈ (u.queue q).levels, l.fetched = []) ∧ u.mem = s.mem)

/-- `waitmem` passes when the masked word meets its condition and waits while it does not; past its bound it halts the
queue with 0x44, unless the condition holds at the read of that moment; `cond` and `waitmem` of a condition code above 3 halt it with
0x42 before any other check of theirs; `cond` goes on with the next packet when its word meets the condition and otherwise behind its n words; `ib`
opens a buffer at the next level, and `loop` its body with its passes (R328, R329, R338, R340; that `cond` also completes at an
address that is not a multiple of 4 is the model's choice, assumption 39). -/
def Sys2Proof.Clauses.ControlPackets : Prop :=
  (∀ (s u : State) (c : BitVec 8) (b : List Word32) (z : HubQueue) (m : Word32), z = s.queue s.input.a → s.packetRuns 2 b →
    z.atZero = true → b.length = 5 → ba b 0 % 4 = 0 → c.toNat < 4 → (inRange z.active (ba b 0) 4).isSome = true →
    s.memWord s.input.a (ba b 0) = .ok (m, u) →
    (holds c.toNat (m &&& b[3]?.getD 0) (b[2]?.getD 0) = true →
      ∃ t, exec (.pktWaitmem c b) s = .next t ∧ s.packetPast t 6 ∧ t.core = u.core) ∧
    (holds c.toNat (m &&& b[3]?.getD 0) (b[2]?.getD 0) = false →
      ∃ t, exec (.pktWaitmem c b) s = .next t ∧ s.packetWaits t ∧ t.core = u.core)) ∧
  (∀ (s u : State) (z : HubQueue) (ws : List Word32) (m : Word32), z = s.queue s.input.a → s.input.a < 256 → z.mode = 1 →
    z.pending = [] → ws = s.currentWords s.input.a → z.waitedOut s.hub.hubClk ws = true →
    s.memWord s.input.a (ba ws 1) = .ok (m, u) →
    (holds (field (ws.headD 0) 16 8) (m &&& ws[4]?.getD 0) (ws[3]?.getD 0) = false →
      ∃ t, exec .waitmemTimeout s = .next t ∧ s.queueHalted t 0x44) ∧
    (holds (field (ws.headD 0) 16 8) (m &&& ws[4]?.getD 0) (ws[3]?.getD 0) = true → z.atZero = true →
      ∃ t, exec .waitmemTimeout s = .next t ∧ s.packetPast t 6 ∧ t.core = u.core)) ∧
  (∀ (s : State) (c : BitVec 8) (b : List Word32), 4 ≤ c.toNat →
    (s.packetRuns 2 b → b.length = 5 → ∃ t, exec (.pktWaitmem c b) s = .next t ∧ s.queueHalted t 0x42) ∧
    (s.packetRuns 3 b → b.length = 4 → ∃ t, exec (.pktCond c b) s = .next t ∧ s.queueHalted t 0x42)) ∧
  (∀ (s u v : State) (c : BitVec 8) (b : List Word32) (z : HubQueue) (m : Word32), z = s.queue s.input.a → s.packetRuns 3 b →
    z.atZero = true → b.length = 4 → c.toNat < 4 → (inRange z.active (ba b 0) 4).isSome = true → 5 + bw b 3 ≤ z.left →
    s.walkHeaders s.input.a (bw b 3) 5 (bw b 3) = .ok (true, u) → u.memWord s.input.a (ba b 0) = .ok (m, v) →
    ∃ t, exec (.pktCond c b) s = .next t ∧
      s.packetPast t (if holds c.toNat m (b[2]?.getD 0) then 5 else 5 + bw b 3) ∧ t.core = v.core) ∧
  (∀ (s : State) (b : List Word32) (z : HubQueue), z = s.queue s.input.a → s.packetRuns 4 b → b.length = 3 →
    field (b[2]?.getD 0) 0 20 ≠ 0 → z.level < 2 → (inRange z.active (ba b 0) (4 * field (b[2]?.getD 0) 0 20)).isSome = true →
    ∃ t, exec (.pktIb b) s = .next t ∧
      (t.queue s.input.a).levels = ⟨false, ba b 0, field (b[2]?.getD 0) 0 20, 0, 0, [], []⟩ :: z.stack ∧
      (t.queue s.input.a).rp = z.rp ∧ t.mem = s.mem ∧ t.core = s.core) ∧
  (∀ (s u : State) (b ws : List Word32) (z : HubQueue) (n c : Nat), z = s.queue s.input.a → s.packetRuns 5 b → b.length = 2 →
    n = bw b 0 → c = bw b 1 → n ≠ 0 → n ≤ 256 → c ≤ 65535 → 3 + n ≤ z.left → s.qWords s.input.a 3 n = .ok (ws, u) →
    bodyOk n ws = true →
    (c ≠ 0 → ∃ t, exec (.pktLoop b) s = .next t ∧
      (t.queue s.input.a).levels = ⟨true, 0, n, 0, c, ws, []⟩ :: (u.queue s.input.a).stack ∧ (t.queue s.input.a).rp = z.rp) ∧
    (c = 0 → z.atZero = true → ∃ t, exec (.pktLoop b) s = .next t ∧ s.packetPast t (3 + n)))

/-- `qcb.sh` writes bytes of the shadow block of a queue that the own one manages, `qcb.commit` commits it and goes on once
it is applied, and `qcb.read` writes out the active block (R354, R356, R361). -/
def Sys2Proof.Clauses.ControlBlockPackets : Prop :=
  ∀ (s : State) (b : List Word32) (q p : Nat) (z : HubQueue), q = s.input.a → z = s.queue q → p = q / 16 * 16 + bw b 0 % 16 →
    s.packetRuns 13 b → z.atZero = true → z.mgmt (bw b 0 % 16) = true →
    (3 ≤ b.length → b.length ≤ 66 → bw b 1 % 4 = 0 → bw b 1 + 4 * (b.length - 2) ≤ 256 → (s.queue p).pending = [] →
      ∃ u, exec (.pktQcbSh b) s = .next u ∧ s.packetPast u (b.length + 1) ∧ (u.queue p).dirty = true ∧
        (u.queue p).shadow = putBlock (s.queue p).shadow (bw b 1) ((b.drop 2).flatMap fun w => leBytes 4 w.toNat) ∧
        u.mem = s.mem ∧ u.core = s.core) ∧
    (∀ w, w = BitVec.ofNat 64 (ba b 1) → b.length = 3 → p ≠ q → z.wait = none → (s.queue p).pending = [] →
      (s.queue p).mode ≠ 1 → s.qcbAwaits p (.commit w) = none →
      ∃ u, exec (.pktQcbCommit b) s = .next u ∧ s.packetWaits u ∧ (u.queue p).commit = w ∧
        (u.queue p).status = BitVec.ofNat 64 (s.commitCheck p w).1 ∧
        ((s.queue p).rolled = true → (s.commitCheck p w).1 = 3) ∧ u.mem = s.mem) ∧
    (∀ w, w = BitVec.ofNat 64 (ba b 1) → b.length = 3 → p ≠ q → z.wait = none → (s.queue p).pending = [] →
      (s.queue p).mode = 1 →
      ∃ u, exec (.pktQcbCommit b) s = .next u ∧ s.packetWaits u ∧ (u.queue p).pending = [.commit w] ∧
        (u.queue p).active = (s.queue p).active ∧ u.mem = s.mem) ∧
    (b.length = 3 → p ≠ q → z.wait ≠ none → (s.queue p).pending = [] →
      ∃ u, exec (.pktQcbCommit b) s = .next u ∧ s.packetPast u 4 ∧ u.mem = s.mem) ∧
    (∀ t bs v, b.length = 3 → (inRange z.active (ba b 1) 256).isSome = true →
      t = s.takeRecord q ((s.queue p).active.toList.flatMap fun w => leBytes 8 w.toNat) →
      bs = (if z.taken = [] then (s.queue p).active.toList.flatMap fun w => leBytes 8 w.toNat else z.taken) →
      t.qWrite q (ba b 1) bs = .ok v → ∃ u, exec (.pktQcbRead b) s = .next u ∧ s.packetPast u 4 ∧ u.mem = v.mem)

/-- `loadslot` first makes its slot LOADING, then copies the image and checks it, and makes the slot LOADED with the image's
pages, or EMPTY with the queue halted (that the copy and the check take one turn after the one that makes it LOADING is the model's
choice, assumption 40); `evictslot` empties a slot once nothing is in flight against it, and its pages are read-only no more; `invoke` takes a record
of the invocation, counts it against its slot, and launches the slot's kernel, and waits while its slot loads or its die or
task queue is not ready (R331, R344 to R347). -/
def Obligations.SlotPackets : Prop :=
  ∀ (s : State) (b : List Word32) (q n : Nat) (z : HubQueue), q = s.input.a → z = s.queue q → z.atZero = true → n = bw b 0 % 64 →
    (s.packetRuns 6 b → b.length = 7 → bw b 0 < 64 → (inRange z.active (ba b 1) (ba b 5)).isSome = true →
      (inRange z.active (ba b 3) (ba b 5)).isSome = true →
      ((s.slot n).state = .empty → ∃ u, exec (.pktLoadslot b) s = .next u ∧ s.packetWaits u ∧ (u.slot n).state = .loading ∧
        (u.slot n).owner = q ∧ u.mem = s.mem) ∧
      (∀ t ps, (s.slot n).state = .loading → (s.slot n).owner = q →
        s.copyHome q (ba b 5 / 32 + 2) (ba b 1) (ba b 3) (ba b 5) = .ok t → t.slotImage q (ba b 1) (ba b 5) = some ps →
        ∃ u, exec (.pktLoadslot b) s = .next u ∧ s.packetPast u 8 ∧ (u.slot n).state = .loaded ∧ (u.slot n).phys = ps ∧
          (u.slot n).base = ba b 1 ∧ (u.slot n).len = ba b 5 ∧ (u.slot n).infl = 0 ∧ u.mem = t.mem) ∧
      (∀ t, (s.slot n).state = .loading → (s.slot n).owner = q →
        s.copyHome q (ba b 5 / 32 + 2) (ba b 1) (ba b 3) (ba b 5) = .ok t → t.slotImage q (ba b 1) (ba b 5) = none →
        ∃ u, exec (.pktLoadslot b) s = .next u ∧ s.queueHalted u 0x47 ∧ (u.slot n).state = .empty)) ∧
    (s.packetRuns 7 b → b.length = 1 → bw b 0 < 64 →
      ((s.slot n).state = .empty ∨ ((s.slot n).state = .loaded ∧ s.slotFree n = true) →
        ∃ u, exec (.pktEvictslot b) s = .next u ∧ s.packetPast u 2 ∧ u.slot n = ModelSlot.reset ∧
          (∀ pa, u.slotProtects pa = true → ∃ m, m < 64 ∧ m ≠ n ∧ ∃ x ∈ (s.slot m).phys, x ≤ pa ∧ pa < x + 65536) ∧ u.mem = s.mem) ∧
      ((s.slot n).state = .loaded → s.slotFree n = false →
        ∃ u, exec (.pktEvictslot b) s = .next u ∧ s.packetWaits u ∧ (u.slot n).state = .evicting ∧ (u.slot n).owner = q ∧
          u.mem = s.mem) ∧
      ((s.slot n).state = .evicting → (s.slot n).owner = q →
        (s.slotFree n = false → ∃ u, exec (.pktEvictslot b) s = .next u ∧ s.packetWaits u ∧ u.slot n = s.slot n ∧ u.mem = s.mem) ∧
        (s.slotFree n = true → ∃ u, exec (.pktEvictslot b) s = .next u ∧ s.packetPast u 2 ∧ u.slot n = ModelSlot.reset ∧
          (∀ pa, u.slotProtects pa = true → ∃ m, m < 64 ∧ m ≠ n ∧ ∃ x ∈ (s.slot m).phys, x ≤ pa ∧ pa < x + 65536) ∧ u.mem = s.mem))) ∧
    (∀ w die, s.packetRuns 8 b → w = b.headD 0 → die = field w 21 3 → invokeForm b = true → buffersIn b z = true →
      ((s.slot n).state = .loading ∨ s.dieReady die = false →
        ∃ u, exec (.pktInvoke b) s = .next u ∧ s.packetWaits u ∧ u.mem = s.mem) ∧
      ((s.slot n).state = .empty ∨ (s.slot n).state = .evicting → s.dieReady die = true → ∃ u, exec (.pktInvoke b) s = .next u ∧ s.queueHalted u 0x48) ∧
      ((s.slot n).state = .loaded → s.dieReady die = true → (s.tqOf die (field w 16 5)).enabled = false →
        ∃ u, exec (.pktInvoke b) s = .next u ∧ s.packetWaits u ∧ u.mem = s.mem) ∧
      ((s.slot n).state = .loaded → s.dieReady die = true → (s.tqOf die (field w 16 5)).enabled = true →
        256 ≤ (s.hub.invocations.filter fun v => v.queue / 16 == q / 16).length →
        ∃ u, exec (.pktInvoke b) s = .next u ∧ s.packetWaits u ∧ u.mem = s.mem) ∧
      ((s.slot n).state = .loaded → s.dieReady die = true → (s.tqOf die (field w 16 5)).enabled = true →
        (s.hub.invocations.filter fun v => v.queue / 16 == q / 16).length < 256 →
        s.invokeAsk q n b = none → (∀ v ∈ s.hub.invocations, v.id < s.hub.nextInv) →
        ∃ u, exec (.pktInvoke b) s = .next u ∧ s.packetPast u (b.length + 1) ∧ u.hub.nextInv = s.hub.nextInv + 1 ∧
          (∀ v ∈ u.hub.invocations, v ∉ s.hub.invocations → v.id = s.hub.nextInv ∧ v.queue = q ∧ v.header = z.here ∧
            v.body = b ∧ v.slot = n ∧ v.replays = 0 ∧ v.fault = none) ∧
          ((u.hub.launches = s.hub.launches.filter fun l => l.inv != s.hub.nextInv) ∨ ∃ l, u.hub.launches = s.hub.launches ++ [l] ∧ l.inv = s.hub.nextInv ∧ l.die = die ∧
            l.tq = field w 16 5 ∧ l.next = 0 ∧ l.desc = (s.slot n).base + 0x2000)))

/-! ### Doorbells, control blocks and firmware -/

/-- A doorbell sets WP of a queue whose processor is ready, is kept for one that is not, and halts the queue with 0x40 when it
would overrun the ring, with WP as it was (assumption 38, the model's choice); a host write changes the shadow block only; a commit of
a queue that does not run is applied at once and answers in RES, 3 for the first one after a rollback; in recovery none of them acts;
the watchdog rolls back what is half-written, with the writes that wait for their place (assumption 85, the model's choice)
(R334, R354 to R358, R362, R430). -/
def Sys2Proof.Clauses.QueueEventsAct : Prop :=
  ∀ (s : State) (q : Nat) (z : HubQueue), q = s.input.a → q < 256 → z = s.queue q →
    (s.recovery = true → exec .queueDoorbell s = .next s ∧ exec .qcbShadowWrite s = .next s ∧ exec .qcbCommit s = .next s) ∧
    (s.recovery = false → ∀ wp, wp = BitVec.ofNat 32 s.input.b →
      (s.qpReady q = true → (wp - z.rp).toNat ≤ 2 ^ z.log2sz →
        exec .queueDoorbell s = .next (s.modQueue q fun z => { z with wp := wp })) ∧
      (s.qpReady q = false → exec .queueDoorbell s = .next (s.modQueue q fun z => { z with held := some wp })) ∧
      (s.qpReady q = true → 2 ^ z.log2sz < (wp - z.rp).toNat → z.mode ≠ 2 → z.pending = [] →
        ∃ u, exec .queueDoorbell s = .next u ∧ s.queueHalted u 0x40)) ∧
    (∀ n, s.recovery = false → n = s.input.bytes.length → n = 4 ∨ n = 8 → s.input.b % n = 0 → s.input.b + n ≤ 256 → z.pending = [] →
      ∃ u, exec .qcbShadowWrite s = .next u ∧ (u.queue q).shadow = putBlock z.shadow s.input.b s.input.bytes ∧
        (u.queue q).dirty = true ∧ (u.queue q).active = z.active ∧ u.mem = s.mem ∧ u.core = s.core) ∧
    (∀ w r, s.recovery = false → w = BitVec.ofNat 64 s.input.b → r = (s.commitCheck q w).1 → z.pending = [] →
      (z.rolled = true → r = 3) ∧
      (z.mode = 1 → exec .qcbCommit s = .next (s.modQueue q fun z => { z with pending := [.commit w] })) ∧
      (∀ a, z.mode ≠ 1 → s.qcbAwaits q (.commit w) = some a →
        exec .qcbCommit s = .next (s.modQueue q fun z => { z with pending := [.commit w] })) ∧
      (z.mode ≠ 1 → s.qcbAwaits q (.commit w) = none → ∃ u, exec .qcbCommit s = .next u ∧ (u.queue q).commit = w ∧ (u.queue q).status = BitVec.ofNat 64 r ∧
        (u.queue q).rolled = false ∧ (r ≠ 0 → (u.queue q).active = z.active ∧ (u.queue q).shadow = z.shadow) ∧
        (r = 0 → (u.queue q).gen = field w 0 32 ∧ (u.queue q).rp = bits (blockWord z.shadow 16) 32 32 ∧
          (∀ i, i ≠ 0 → i ≠ 2 → (u.queue q).active[i]? = z.shadow[i]?) ∧
          (bit w 32 = true → (u.queue q).mode = 1) ∧ (bit w 32 = false → bit w 33 = true → (u.queue q).mode = 0)))) ∧
    ∃ u, exec .watchdogRollback s = .next u ∧ u.core.strand.regs = s.core.strand.regs ∧
      ((z.dirty || z.pending.any QcbOp.isWrite) = true → (u.queue q).shadow = z.active ∧ (u.queue q).dirty = false ∧
        (u.queue q).rolled = true ∧ (u.queue q).active = z.active ∧ (u.queue q).events = z.events + 1 ∧
        (u.queue q).pending = z.pending.filter fun x => !x.isWrite) ∧
      ((z.dirty || z.pending.any QcbOp.isWrite) = false → u.queue q = z)

/-- The mailbox: the summary goes to the buffer, but not in recovery and not before firmware runs, and a command that none of the
rows has is refused (the command byte comes in the input, assumption 43); a buffer is staged at 64 KiB times ARG; a staged image
is written to a flash slot only when it is good; each answers in STATUS with its ARG. A reset of the hub, by the mailbox or
from outside, leaves memory as it was (assumption 43, the model's choice) and every core and queue as at reset, and boots or enters recovery; a function that is
ready has its bit set, and for a queue processor the doorbells that came before are applied (R362, R363, R419, R428, R430). -/
def Sys2Proof.Clauses.FirmwareActs : Prop :=
  ∀ (s : State) (a : Nat), a = s.input.a →
    (s.recovery = true ∨ s.hub.fw.running = false ∨ (1 < s.input.b % 256 ∧ ¬ (0x10 ≤ s.input.b % 256 ∧ s.input.b % 256 ≤ 0x12)) →
      exec .mboxSummary s = .next (s.mboxDone a 3)) ∧
    (s.recovery = false → s.hub.fw.running = true → s.input.b % 256 ≤ 1 → Cells.wf s.hub.fw.buffer = true → ∃ u, exec .mboxSummary s = .next u ∧
      field u.hub.fw.mbox 16 16 = 2 ∧ field u.hub.fw.mbox 32 32 = a % 2 ^ 32 ∧
      Cells.read u.hub.fw.buffer 0 (s.summary none).length = s.summary none ∧ u.mem = s.mem ∧ u.core = s.core) ∧
    (∃ u, exec .mboxStage s = .next u ∧ field u.hub.fw.mbox 16 16 = 2 ∧ u.hub.fw.flash = s.hub.fw.flash ∧
      (∀ i, i < 65536 → Cells.get u.hub.fw.staging (a % 2 ^ 32 * 65536 + i) = Cells.get u.hub.fw.buffer i) ∧
      u.mem = s.mem ∧ u.core = s.core) ∧
    (goodImage s.hub.fw.staging 0 = true → ∃ u, exec .mboxVerifyWrite s = .next u ∧ field u.hub.fw.mbox 16 16 = 2 ∧
      (∀ i, i < 512 + imageLen s.hub.fw.staging 0 →
        Cells.get u.hub.fw.flash (flashAt (a % 2) + i) = Cells.get s.hub.fw.staging i)) ∧
    (goodImage s.hub.fw.staging 0 = false → exec .mboxVerifyWrite s = .next (s.mboxDone a 4)) ∧
    (∃ u, exec .mboxResetBoot s = .next u ∧ exec .hubReset s = .next u ∧ u.mem = s.mem ∧ u.core = s.core.hubReset ∧
      u.parked = s.parked.map Core.hubReset ∧ u.hub.queues = Hub.reset.queues ∧ u.hub.hubClk = 0 ∧ u.hub.fw.flash = s.hub.fw.flash ∧
      (bootSlot s.hub.fw.flash = none → u.recovery = true) ∧ (bootSlot s.hub.fw.flash ≠ none → u.hub.fw.rdy = 0)) ∧
    (a ≤ 40 → s.recovery = false → ∃ u, exec .functionReady s = .next u ∧ bit u.hub.fw.rdy a = true ∧
      (∀ i, i < 41 → i ≠ a → bit u.hub.fw.rdy i = bit s.hub.fw.rdy i) ∧
      (∀ q wp, q < 256 → 25 + q / 16 = a → (s.queue q).held = some wp → (wp - (s.queue q).rp).toNat ≤ 2 ^ (s.queue q).log2sz →
        (u.queue q).wp = wp ∧ (u.queue q).held = none)) ∧
    (a ≤ 40 → s.recovery = true → a ≠ 0 → exec .functionReady s = .next s)

/-! ### Cricket -/

namespace Sys2Proof.Machine

/-- A program that can take its next step on the packet of its queue (R341, R342). -/
def State.cricketRuns (s : State) (r : CricketRun) (c : Cricket) : Prop :=
  let z := s.queue s.input.a
  s.input.a < 256 ∧ z.mode = 1 ∧ z.run = some r ∧ z.cricket = some c ∧ r.verdict = none ∧ r.steps < 512

end Sys2Proof.Machine

/-- What an instruction of a program writes to its destination register (R342, R343). -/
def Sys2Proof.cricketResults (r : CricketRun) (d a b : BitVec 3) (i : BitVec 20) (h : BitVec 16) (k : BitVec 5) (n : BitVec 10) :
    List (Instr × Word32) :=
  let x := r.regs[a.toNat]
  let y := r.regs[b.toNat]
  [(.cricketLi d i, i.signExtend 32), (.cricketLhi d h, h ++ (r.regs[d.toNat]).setWidth 16), (.cricketAdd d a b, x + y),
   (.cricketSub d a b, x - y), (.cricketAnd d a b, x &&& y), (.cricketOr d a b, x ||| y), (.cricketXor d a b, x ^^^ y),
   (.cricketSltu d a b, if x.toNat < y.toNat then 1 else 0), (.cricketAddi d a i, x + i.signExtend 32),
   (.cricketShli d a k, x <<< k.toNat), (.cricketShri d a k, x >>> k.toNat), (.cricketPkt d n, r.words[n.toNat]?.getD 0)]

/-- An instruction of a program that writes a register counts one step, goes on behind itself, and changes no other register
and no word of the packet (R341 to R343). -/
def Sys2Proof.Clauses.CricketComputes : Prop :=
  ∀ (s : State) (r : CricketRun) (c : Cricket) (d a b : BitVec 3) (i : BitVec 20) (h : BitVec 16) (k : BitVec 5) (n : BitVec 10),
    s.cricketRuns r c → r.loops = [] →
    ∀ p ∈ cricketResults r d a b i h k n, exec p.1 s = .next ((s.hubDone (hubAgent s.input.a)).modQueue s.input.a fun z => { z with
      run := some { r with regs := r.regs.setIfInBounds d.toNat p.2, pc := r.pc + 1, steps := r.steps + 1 } })

/-- The other instructions: `setpkt` replaces a body word for this execution; the loads and stores of windows read and write
the word at the window's base; a branch goes off words ahead of itself when it is taken; a `loop` runs its body n + 1 times;
`halt` gives the verdict; past 512 steps the queue halts with 0x46 (R341 to R343; that a skip past the words of the ring halts it with
0x42 is the model's choice, assumption 39). -/
def Sys2Proof.Clauses.CricketControls : Prop :=
  ∀ (s : State) (r : CricketRun) (c : Cricket) (q : Nat), q = s.input.a → s.cricketRuns r c →
    (∀ a n, r.loops = [] → n ≠ 0#10 → exec (.cricketSetpkt a n) s = .next ((s.hubDone (hubAgent q)).modQueue q fun z => { z with run := some { r with
      words := r.words.set n.toNat (r.regs[a.toNat]'a.isLt), changed := true, pc := r.pc + 1, steps := r.steps + 1 } })) ∧
    (∀ d w o x v t, r.loops = [] → c.windows[w.toNat]? = some x → s.memWord q (x.1 + 4 * o.toNat) = .ok (v, t) →
      exec (.cricketLd d w o) s = .next ((t.hubDone (hubAgent q)).modQueue q fun z => { z with
        run := some { r with regs := r.regs.setIfInBounds d.toNat v, pc := r.pc + 1, steps := r.steps + 1 } })) ∧
    (∀ d a w x v t, r.loops = [] → c.windows[w.toNat]? = some x →
      s.memWord q (x.1 + 4 * ((r.regs[a.toNat]'a.isLt).toNat % (x.2 / 4))) = .ok (v, t) →
      exec (.cricketLdr d a w) s = .next ((t.hubDone (hubAgent q)).modQueue q fun z => { z with
        run := some { r with regs := r.regs.setIfInBounds d.toNat v, pc := r.pc + 1, steps := r.steps + 1 } })) ∧
    (∀ a w o x t, r.loops = [] → c.windows[w.toNat]? = some x →
      s.qWrite q (x.1 + 4 * o.toNat) (leBytes 4 (r.regs[a.toNat]'a.isLt).toNat) = .ok t →
      exec (.cricketSt a w o) s = .next ((t.hubDone (hubAgent q)).modQueue q fun z => { z with
        run := some { r with pc := r.pc + 1, steps := r.steps + 1 } })) ∧
    (∀ a b w x t, r.loops = [] → c.windows[w.toNat]? = some x →
      s.qWrite q (x.1 + 4 * ((r.regs[a.toNat]'a.isLt).toNat % (x.2 / 4))) (leBytes 4 (r.regs[b.toNat]'b.isLt).toNat) = .ok t →
      exec (.cricketStr a b w) s = .next ((t.hubDone (hubAgent q)).modQueue q fun z => { z with
        run := some { r with pc := r.pc + 1, steps := r.steps + 1 } })) ∧
    (∀ a o, r.loops = [] → exec (.cricketBz a o) s = .next ((s.hubDone (hubAgent q)).modQueue q fun z => { z with run := some { r with
      pc := if r.regs[a.toNat]'a.isLt = 0 then r.pc + o.toNat else r.pc + 1, steps := r.steps + 1 } })) ∧
    (∀ a o, r.loops = [] → exec (.cricketBnz a o) s = .next ((s.hubDone (hubAgent q)).modQueue q fun z => { z with run := some { r with
      pc := if r.regs[a.toNat]'a.isLt = 0 then r.pc + 1 else r.pc + o.toNat, steps := r.steps + 1 } })) ∧
    (∀ n l, 0 < l.toNat → exec (.cricketLoop n l) s = .next ((s.hubDone (hubAgent q)).modQueue q fun z => { z with run := some { r with
      pc := r.pc + 1, steps := r.steps + 1, loops := (r.pc + 1, r.pc + l.toNat, n.toNat + 1) :: r.loops } })) ∧
    (∀ x e k ls, r.loops = (x, e, k) :: ls → r.pc = e → 1 < k → ∀ d i,
      exec (.cricketLi d i) s = .next ((s.hubDone (hubAgent q)).modQueue q fun z => { z with run := some { r with
        regs := r.regs.setIfInBounds d.toNat (i.signExtend 32), pc := x, steps := r.steps + 1, loops := (x, e, k - 1) :: ls } })) ∧
    (∀ h, exec (.cricketHalt h 0#2) s = .next (s.modQueue q fun z => { z with
      run := some { r with steps := r.steps + 1, verdict := some 0 } })) ∧
    (∀ h, let n := field (r.words.headD 0) 0 16 + 1
      exec (.cricketHalt h 1#2) s = .next (if (s.queue q).left < n && (s.queue q).atZero then s.haltAt q 0x42 0 else s.retirePacket q n)) ∧
    (∀ h, (s.queue q).pending = [] → ∃ u, exec (.cricketHalt h 2#2) s = .next u ∧ s.queueHalted u 0x45)

/-- The 513th step of a program halts its queue, and the packet does not run (R341). -/
def Sys2Proof.Clauses.CricketBudgetHalts : Prop :=
  ∀ (s : State) (r : CricketRun) (z : HubQueue), z = s.queue s.input.a → s.input.a < 256 → z.mode = 1 → z.run = some r →
    r.verdict = none → z.pending = [] →
    (512 ≤ r.steps → ∃ u, exec .cricketBudgetExceeded s = .next u ∧ s.queueHalted u 0x46 ∧ u.regs = s.regs) ∧
    (r.steps < 512 → exec .cricketBudgetExceeded s = .next s)

/-! ### The host, the pod and the debugger -/

/-- The host reads and writes the device's memory at its offset; a stack that is not ready reads as poisoned and discards a
write; of a line that the host writes in its own memory no L1 keeps a copy once it has been written back (assumption 44, the model's
choice); the lines that a read under CXL.mem gives the host are held as its own; a read of BAR0 gives the mailbox register and the ready
bits at their offsets, in recovery as well, and nothing else there (R314, R362, R420, R421, R428, R430). -/
def Sys2Proof.Clauses.HostAccesses : Prop :=
  (∀ s : State, s.memOk → ∃ u, exec .hostCacheInvalidate s = .next u ∧
    Cells.read u.mem.host.cells s.input.a s.input.bytes.length = s.input.bytes ∧ u.regs = s.regs ∧
    ∀ c ∈ u.cores, ∀ x ∈ c.order.l1, x.space = .host →
      s.input.a + s.input.bytes.length ≤ x.addr / 64 * 64 ∨ x.addr / 64 * 64 + 64 ≤ s.input.a) ∧
  (∀ s : State, s.input.c = 1 →
    (s.input.a = 0 → s.input.b = 8 → exec .hostMemRead s = .next (s.answer (leBytes 8 s.hub.fw.mbox.toNat) false false)) ∧
    (s.input.a = 0x200 → s.input.b = 8 → exec .hostMemRead s = .next (s.answer (leBytes 8 s.hub.fw.rdy.toNat) false false)) ∧
    (s.recovery = true → 8 ≤ s.input.a → s.input.a < 0x200 ∨ 0x208 ≤ s.input.a → exec .hostMemRead s = .next (s.answer [] false true)) ∧
    (∀ q, s.recovery = false → q < 256 → s.input.a = 0x100000 + 1024 * q + 520 → s.input.b = 8 →
      exec .hostMemRead s = .next (s.answer (leBytes 8 (s.queue q).status.toNat) false false))) ∧
  ∀ (s : State) (o i pa : Nat), o = s.input.a → i = o / (48 * 2 ^ 30) → o < 384 * 2 ^ 30 → pa = i * 2 ^ 36 + o % (48 * 2 ^ 30) →
    (s.input.c ≠ 1 → s.stackReady i = true → ∃ u, exec .hostMemRead s = .next u ∧
      u.hub.reply = ⟨Cells.read s.mem.dev.cells pa s.input.b, s.mem.dev.poisoned 32 pa s.input.b, false⟩ ∧
      (∀ k, pa / 64 ≤ k → k * 64 < pa + s.input.b → s.input.b ≠ 0 → k ∈ u.mem.hostHeld) ∧
      (∀ sp v a, u.byteAt sp v a = s.byteAt sp v a) ∧ u.core = s.core) ∧
    (s.input.c ≠ 1 → s.stackReady i = false → exec .hostMemRead s = .next (s.answer (List.replicate s.input.b 0) true false)) ∧
    (s.stackReady i = false → exec .hostMemWrite s = .next s) ∧
    (s.stackReady i = true → s.memOk → s.input.bytes ≠ [] → o % 32 + s.input.bytes.length ≤ 32 →
      ∃ u, exec .hostMemWrite s = .next u ∧
        Cells.read u.mem.dev.cells (i * 2 ^ 36 + o % (48 * 2 ^ 30)) s.input.bytes.length = s.input.bytes ∧
        (∀ a, a < i * 2 ^ 36 + o % (48 * 2 ^ 30) ∨ i * 2 ^ 36 + o % (48 * 2 ^ 30) + s.input.bytes.length ≤ a →
          u.byteAt .dev false a = s.byteAt .dev false a) ∧ u.regs = s.regs)

/-- A request of a peer reaches memory only through an entry of the inbound table that names it or every peer: a read needs
an export, a write or an atomic a landing window, a notice an inbox; any other, and every one of a quarantined peer, is refused
with no effect; of the notices that a station brings at most 64 wait for their port engines (the limit's place and the mark of a
republished copy are the model's choice, assumption 41) (R424 to R427). -/
def Sys2Proof.Clauses.InboundRequests : Prop :=
  ∀ (s : State) (e : Option (Nat × Nat)), e = s.inbound s.input.a s.input.b →
    ((s.share.pack.quarantined.contains s.input.a) = true → e = none) ∧
    (∀ pa, e = some (1, pa) → exec .inboundRead s = .next ((s.touchRange .dev pa s.input.c).answer
      (Cells.read s.mem.dev.cells pa s.input.c) (s.mem.dev.poisoned 32 pa s.input.c) false)) ∧
    (∀ pa, e = some (2, pa) → s.memOk → s.input.bytes ≠ [] → pa % 32 + s.input.bytes.length ≤ 32 →
      ∃ u, exec .inboundWrite s = .next u ∧ Cells.read u.mem.dev.cells pa s.input.bytes.length = s.input.bytes ∧
        u.hub.reply = ⟨[], false, false⟩ ∧ u.regs = s.regs) ∧
    (∀ pa old, e = some (2, pa) → s.memOk → pa % 8 = 0 → s.mem.dev.poisoned 32 pa 8 = false → old = s.mem.phys8 pa →
      ∃ u, exec .inboundAtomic s = .next u ∧ leWord u.hub.reply.data = old ∧ u.hub.reply.error = false ∧
        (∀ x y, x = leWord (s.input.bytes.take 8) → y = leWord ((s.input.bytes.drop 8).take 8) →
          (amoWrites s.input.c old y = true → u.mem.phys8 pa = amoNew s.input.c old x y) ∧
          (amoWrites s.input.c old y = false → u.mem = s.mem))) ∧
    (∀ x n core, e = some (4, x) → n = words32 s.input.bytes → core = s.input.c % 2048 → s.input.b % 32 = 0 →
      s.input.bytes.length = 32 → noticeOk n = true → coreOk core = true → names n (s.podName core) = true →
      s.undelivered (s.input.c / 4096 % 8) < 64 →
      ∃ u, exec .inboundNotice s = .next u ∧ (u.share.port (clusterOf core)).outgoing =
        (s.share.port (clusterOf core)).outgoing ++ [⟨s.podName core, n, s.input.c / 2048 % 2 != 0, s.input.c / 4096 % 8⟩] ∧ u.hub.reply = ⟨[], false, false⟩ ∧
        u.mem = s.mem) ∧
    ((∀ pa, e ≠ some (1, pa)) → exec .inboundRead s = .next (s.answer [] false true)) ∧
    ((∀ pa, e ≠ some (2, pa)) → exec .inboundWrite s = .next (s.answer [] false true) ∧
      exec .inboundAtomic s = .next (s.answer [] false true)) ∧
    ((∀ pa, e ≠ some (4, pa)) → exec .inboundNotice s = .next (s.answer [] false true))

/-- A reply ends its request and brings its data: what waits for it has it, the store buffer drops the store that it ends, with the
core's reads of its bytes made anew, the record of an event raises its vector, and a request that nothing waits for any more (agent 11)
brings nothing; while no station is ready, none comes.  A request without a reply in time is issued again, once, on another station where
there is one, a pull's in a second copy beside the first; the second time its node is quarantined, with one fault record, and nothing
more is asked of it (R298, R423, R426, R430; the agents are the model's own, assumption 74). -/
def Sys2Proof.Clauses.PodRepliesAndTimeouts : Prop :=
  ∀ (s : State) (r : PodReq) (due : Bool), s.share.pod[s.input.a]? = some r → due = s.timedOut r →
    due = (!r.late && r.issued + 1024 * field s.share.pack.ualnode 32 32 ≤ s.hub.hubClk) ∧
    (s.stationReady = false → exec .podReplyArrival s = .next s) ∧
    (s.stationReady = true → r.kind = .read → s.input.c < 2 → r.agent ≠ 11 → exec .podReplyArrival s = .next (s.modShare fun h => { h with
      pod := h.pod.eraseIdx s.input.a,
      replies := h.replies ++ [⟨r.core, r.agent, r.node, r.offset, padTo 32 s.input.bytes, s.input.c == 1⟩] })) ∧
    (s.stationReady = true → r.kind = .read → r.agent = 11 → exec .podReplyArrival s = .next (s.dropPod s.input.a)) ∧
    (s.stationReady = true → r.kind = .write → r.agent = 6 ∨ 12 ≤ r.agent → exec .podReplyArrival s = .next (s.modShare fun h => { h with
      pod := h.pod.eraseIdx s.input.a, replies := h.replies ++ [⟨r.core, r.agent, r.node, r.offset, [], false⟩] })) ∧
    (∀ e es, s.stationReady = true → r.kind = .write → r.agent = 10 → r.core = s.core.id → s.core.order.stores = e :: es →
      ∃ u, exec .podReplyArrival s = .next u ∧ u.core.order.stores = es ∧ u.mem = s.mem ∧
        ((∀ node off, s.targetOf e.space e.addr ≠ .pod node off) → u.share.pod = s.share.pod.eraseIdx s.input.a) ∧
        (∀ node off, s.targetOf e.space e.addr = .pod node off →
          u.share.pod = (s.share.pod.eraseIdx s.input.a).map fun q =>
            if q.kind == .read && s.rereads node off e.data.length q.core q.agent q.node q.offset then { q with agent := 11 } else q)) ∧
    (∀ vec, s.stationReady = true → r.kind = .event vec →
      exec .podReplyArrival s = .next ((s.dropPod s.input.a).modHub fun h => { h with interrupts := h.interrupts ++ [vec] })) ∧
    (s.stationReady = true → r.kind = .write → r.agent < 12 → r.agent ≠ 6 → r.agent ≠ 10 → exec .podReplyArrival s = .next (s.dropPod s.input.a)) ∧
    (∀ n, due = true → r.reissued = false → n = (s.stations.find? (· != r.station)).getD r.station →
      ((∀ i o n, r.kind ≠ .pull i o n) → exec .peerTimeoutReissue s = .next (s.modShare fun h => { h with
        pod := h.pod.set s.input.a { r with issued := s.hub.hubClk, reissued := true, station := n } })) ∧
      (∀ i o k, r.kind = .pull i o k → exec .peerTimeoutReissue s = .next (s.modShare fun h => { h with
        pod := h.pod.set s.input.a { r with late := true } ++ [{ r with issued := s.hub.hubClk, reissued := true, station := n }] }))) ∧
    (due = false → exec .peerTimeoutReissue s = .next s ∧ exec .peerQuarantine s = .next s) ∧
    (due = true → r.reissued = true →
      ∃ u, exec .peerQuarantine s = .next u ∧ r.node ∈ u.share.pack.quarantined ∧ (∀ q ∈ u.share.pod, q.node ≠ r.node) ∧
        (s.share.pack.quarantined.contains r.node = false → ∃ f, u.hub.faults.head? = some f ∧ f.code = 0x34 ∧ f.arg = r.node) ∧
        u.mem = s.mem ∧ u.regs = s.regs)

/-- The debugger halts and resumes a core, writes memory, marks poison, sets BOUND and requests the core, and launches a
kernel whose first leaf starts on the idle core, or records why not, but not in recovery (R92, R362, R365, R368, R407, R408; how the
debugger names its launch is the model's choice, assumption 45). -/
def Sys2Proof.Clauses.DebuggerActs : Prop :=
  ∀ s : State,
    exec .uzoantHalt s = .next (s.modCore fun c => { c with halted := true }) ∧
    exec .uzoantResume s = .next (s.modCore fun c => { c with halted := false }) ∧
    (∀ sp, sp = spaceNo s.input.b →
      (s.input.a = 0 → s.memOk → ∃ u, exec .uzoantWrite s = .next u ∧
        Cells.read (u.mem.bank sp false).cells s.input.c s.input.bytes.length = s.input.bytes ∧ u.regs = s.regs) ∧
      (s.input.a = 1 → s.input.bytes.headD 0 ≠ 0 → ∃ u, exec .uzoantWrite s = .next u ∧
        (u.mem.bank sp false).poisoned (unitOf sp) s.input.c 1 = true ∧ u.core = s.core)) ∧
    (s.input.a = 2 → ∃ u, exec .uzoantWrite s = .next u ∧ field u.core.regs.ydead 0 32 = s.input.b % 2 ^ 32 ∧ u.mem = s.mem) ∧
    (s.input.a = 3 → s.core.mode ≠ .idle → ∃ u, exec .uzoantWrite s = .next u ∧ u.core.regs.yreq = 1 ∧ u.mem = s.mem) ∧
    (s.recovery = true → exec .uzoantLaunch s = .next s) ∧
    (∀ rl, s.recovery = false → rl = ((List.range 16).map fun i => leWord (padTo 8 ((s.input.bytes.drop (8 * i)).take 8))) →
      (∀ code, s.launchAsk (s.rootsOf s.input.b) s.input.a rl = none → s.launch 0 0 s.input.a (dieOf s.core.id) (s.input.c % 32) (s.rootsOf s.input.b) rl = .error code →
        ∃ u f, exec .uzoantLaunch s = .next u ∧ u.hub.faults.head? = some f ∧ f.code = 0x38 ∧ f.arg = code ∧ u.core = s.core ∧
          u.mem = s.mem) ∧
      (∀ r, s.launchAsk (s.rootsOf s.input.b) s.input.a rl = some r → exec .uzoantLaunch s = .next (s.podAsk r)) ∧
      (∀ t l, s.launchAsk (s.rootsOf s.input.b) s.input.a rl = none → s.launch 0 0 s.input.a (dieOf s.core.id) (s.input.c % 32) (s.rootsOf s.input.b) rl = .ok t →
        t.hub.launches.getLast? = some l → t.canSelect = true → (l.leaf 0 []).gangSize l = 0 →
        ∃ u x, exec .uzoantLaunch s = .next u ∧ u.core.mode = .running ∧ u.strand.asLaunched l (l.leaf 0 []) x 0 ∧
          (u.hub.launches.map fun y => (y.frame, y.next)) =
            t.hub.launches.map fun y => (y.frame, if y.frame = l.frame then 1 else y.next)))

/-! ### Invariants -/

/-- Every step keeps every memory in its one canonical form: addresses strictly rising and no byte listed that reads as an
unlisted one (the form is the model's own, assumption 4). -/
def Obligations.MemoryFormKept : Prop := ∀ s t : State, s.memOk → step s = .next t → t.memOk

/-- The machine after reset has the form, with nothing listed, so that every byte reads 0 (assumption 4, the model's choice); no core runs, no queue runs, the pin tables and arrays are free,
and the registers named hold what the manual gives them (R28, R29, R35, R41, R42, R92, R217, R255, R353, R387, R419, R428). -/
def Obligations.ResetState : Prop :=
  State.reset.memOk ∧ (∀ sp v a, State.reset.byteAt sp v a = 0) ∧ State.reset.core.mode = .idle ∧ State.reset.parked = [] ∧
  (∀ q, (State.reset.queue q).mode = 0 ∧ (State.reset.queue q).gen = 0) ∧ State.reset.hub.fw.rdy = 0 ∧
  State.reset.core.regs.rplstat = 0 ∧ field State.reset.core.regs.ydead 0 32 = 0x8000 ∧ State.reset.core.regs.yreq = 0 ∧
  (∀ n, n < 6 → (State.reset.engine n).cfg = 0x4000000#64 ∧ (State.reset.engine n).rp = (State.reset.engine n).wp) ∧
  (∀ i, i < 16 → (State.reset.strand.pins[i]?.getD Pin.free).state = 0) ∧ State.reset.array.held = false ∧
  field State.reset.strand.sys.trapcause 16 8 = 0xFF

/-! ### Completion -/

/-- Where the forms of tiles, slots and endings complete, each under conditions on its state and operands alone: `tget`, `tput`
and `tkill` on a tile that no command in flight names (R256 to R258); `loadslot` on the slot that it has made LOADING, whose image
copies and passes, `evictslot` on a slot that nothing is in flight against, and `invoke` of a LOADED one on a die and a task queue
that are ready (R331, R345 to R347); a halted strand with its stores performed gives its core back (R96); an invocation with a
contained fault is launched again, or fails (R348, R349). -/
def Obligations.TileSlotAndEndFormsComplete : Prop :=
  (∀ (s : State) (d a b : BitVec 6) (x : Word) (n k : Nat), x = s.aread a.toNat → n = field x 12 6 → k = field x 0 12 →
    field x 18 46 = 0 → n < 48 → tileInFlight s n = none →
    (s.apRuns (.tget d a) → (s.strand.tile n).poisoned = false →
      exec (.tget d a) s = .next (s.after (s.awrite d.toNat (((s.strand.tile n).get k).setWidth 64)) (.tget d a) .seq)) ∧
    (s.apRuns (.tput a b) → ∃ u, exec (.tput a b) s = .next (s.after u (.tput a b) .seq) ∧
      (u.strand.tile n).get k = (s.aread b.toNat).setWidth 32)) ∧
  (∀ (s : State) (t : BitVec 6), s.apRuns (.tkill t) → tileInFlight s t.toNat = none →
    ∃ u, exec (.tkill t) s = .next (s.after u (.tkill t) .seq) ∧ ∀ k, (u.strand.tile t.toNat).get k = 0) ∧
  (∀ (s t : State) (b : List Word32) (q n : Nat) (z : HubQueue) (ps : List Nat), q = s.input.a → z = s.queue q → n = bw b 0 →
    s.packetRuns 6 b → z.atZero = true → b.length = 7 → n < 64 → (inRange z.active (ba b 1) (ba b 5)).isSome = true →
    (inRange z.active (ba b 3) (ba b 5)).isSome = true → (s.slot n).state = .loading → (s.slot n).owner = q →
    s.copyHome q (ba b 5 / 32 + 2) (ba b 1) (ba b 3) (ba b 5) = .ok t → t.slotImage q (ba b 1) (ba b 5) = some ps →
    ∃ u, exec (.pktLoadslot b) s = .next u ∧ s.packetPast u 8 ∧ (u.slot n).state = .loaded ∧ (u.slot n).phys = ps) ∧
  (∀ (s : State) (b : List Word32) (n : Nat), n = bw b 0 → s.packetRuns 7 b → (s.queue s.input.a).atZero = true → b.length = 1 →
    n < 64 → (s.slot n).state = .loaded → s.slotFree n = true →
    ∃ u, exec (.pktEvictslot b) s = .next u ∧ s.packetPast u 2 ∧ (u.slot n).state = .empty) ∧
  (∀ (s : State) (b : List Word32) (q n die : Nat) (z : HubQueue), q = s.input.a → z = s.queue q → n = bw b 0 % 64 →
    die = field (b.headD 0) 21 3 → s.packetRuns 8 b → z.atZero = true → invokeForm b = true → buffersIn b z = true →
    (s.slot n).state = .loaded → s.dieReady die = true → (s.tqOf die (field (b.headD 0) 16 5)).enabled = true →
    (s.hub.invocations.filter fun v => v.queue / 16 == q / 16).length < 256 → s.invokeAsk q n b = none →
    ∃ u, exec (.pktInvoke b) s = .next u ∧ s.packetPast u (b.length + 1) ∧ u.hub.nextInv = s.hub.nextInv + 1) ∧
  (∀ s : State, s.haltReady = true → s.core.order.stores = [] → s.podWrites = false →
    ∃ u, exec .haltComplete s = .next u ∧ u.core.mode = .idle ∧ u.core.running = none) ∧
  (∀ (s : State) (v : Invocation), (s.hub.invocations.find? fun v => v.fault.isSome && s.replayable v) = some v →
    s.invokeAsk v.queue v.slot v.body = none →
    ∃ u, exec .invocationReplay s = .next u ∧ ∀ k ∈ s.coresOf v.id, (u.coreAt k).mode = .idle) ∧
  (∀ (s : State) (v : Invocation) (r : FaultRecord),
    (s.hub.invocations.find? fun v => v.fault.isSome && !s.replayable v) = some v → v.fault = some r →
    ∃ u, exec .invocationFail s = .next u ∧ u.hub.faults.head? = some r ∧ ∀ w ∈ u.hub.invocations, w.id ≠ v.id)

/-! ### Obligations of several clauses -/

/-- A step is the turn of one agent, and what it runs is the instruction that the agent fetches: exec of the decoded word on the state that
the turn has made, and then the end of the turn; for a strand's AP the word at its place in the image as launched; a word
that no row decodes is the illegal-instruction trap (R17, R66, R69, R78; assumptions 1 and 8). -/
def Obligations.StepRunsInstruction : Prop :=
  Clauses.StepRunsFetchedInstruction ∧ Clauses.ApStepRunsWord ∧ Clauses.IllegalWordTraps

/-- A register or predicate reads what was last written to it under the rotation that both had; a0 and p0 are constant (R26, R28 to R30,
R390). -/
def Obligations.RegistersAndPredicatesHold : Prop :=
  Clauses.ApRegistersHold ∧ Clauses.EpRegistersHold ∧ Clauses.RotationNamesRegisters ∧ Clauses.PredicatesHold

/-- What the end of a word does: on the AP, with its path entry, on the EP, and under a repeat (R17, R18, R83 to R85). -/
def Obligations.WordsRetire : Prop :=
  Clauses.ApRetires ∧ Clauses.TransfersPushPathEntries ∧ Clauses.EpRetires ∧ Clauses.RepeatCounts

/-- Every integer form writes the result that the manual gives it, on the AP, on the EP and on an engine (R73 to R77, R98). -/
def Obligations.IntegerFormsWriteResult : Prop :=
  Clauses.IntegerFormsWriteResult ∧ Clauses.IntegerImmediatesWriteResult

/-- Compares and predicate forms write their predicate; the AP waits for predicates that the EP has yet to write (R26, R74). -/
def Obligations.PredicateFormsWriteResult : Prop :=
  Clauses.ComparesWritePredicate ∧ Clauses.ApWaitsForEpPredicates

/-- Branches, calls and register jumps go where the manual says, and an engine's branch behind its window stops it (R36, R79, R80, R98). -/
def Obligations.BranchesTransfer : Prop :=
  Clauses.BranchesTransfer ∧ Clauses.BranchTargets ∧ Clauses.EngineBranchOutOfWindowStops

/-- A block counts, ends when its condition clears, and past its bound is the progress trap (R24, R41, R42, R393, R394). -/
def Obligations.BlocksEndOrTrap : Prop :=
  Clauses.BlocksEndInProgressTrap ∧ Clauses.BlockEvents

/-- Hints, literals, repeat prefixes and access prefixes (R49 to R51, R67, R77, R78, R83 to R85). -/
def Obligations.PrefixesBindAndLiteralsLoad : Prop :=
  Clauses.HintsAndLiterals ∧ Clauses.RepeatPrefixBinds ∧ Clauses.AccessPrefixBinds

/-- A trap enters the handler with the registers that it saves, or ends the strand (R33, R387 to R389, R391, R392). -/
def Obligations.TrapsAreTaken : Prop :=
  Clauses.TrapEntersHandler ∧ Clauses.TrapWithoutHandlerEndsStrand

/-- The ways back from the shadow, and where `shret` may be written (R391, R392). -/
def Obligations.ShadowReturns : Prop :=
  Clauses.ShadowReturns ∧ Clauses.ShretOnlyInShadow ∧ Clauses.ShadowFaultEndsStrand

/-- The order in which pending traps are delivered, and the errors that end a strand (R66, R383, R384, R392, R412, R417). -/
def Obligations.TrapsDeliveredAndErrorsEnd : Prop :=
  Clauses.PendingTrapsDelivered ∧ Clauses.ErrorsEndStrand

/-- `csrr` and what it reads (R89, R90). -/
def Obligations.SystemRegistersRead : Prop :=
  Clauses.CsrrReads ∧ Clauses.CsrrNumbers

/-- `csrw` and what it writes, and `aflags` in program order (R65, R89, R91). -/
def Obligations.SystemRegistersWritten : Prop :=
  Clauses.CsrwWrites ∧ Clauses.AflagsWrittenInProgramOrder

/-- Loads of the scratchpads, their checks, and loads whose data come later (R101 to R107, R382). -/
def Obligations.ScratchLoadsAnswer : Prop :=
  Clauses.ScratchLoadsReadBytes ∧ Clauses.LateLoadsWait ∧ Clauses.ScratchAccessChecks

/-- Stores of the scratchpads and of device and host memory enter the store buffer (R101 to R108, R311). -/
def Obligations.StoresEnterBuffer : Prop :=
  Clauses.ScratchStoresEnterBuffer ∧ Clauses.DeviceStoresEnterBuffer

/-- Reads see the older stores, the oldest store is performed, and copies come and go (R310 to R313). -/
def Obligations.OrderMachineTransitions : Prop :=
  Clauses.ScratchReadsSeeStores ∧ Clauses.OldestStorePerformed ∧ Clauses.OrderTransitions

/-- Loads of device and host memory read the bytes of the page that the tables name (R104, R397 to R402). -/
def Obligations.DeviceLoadsTranslate : Prop :=
  Clauses.TranslationUsesLeaf ∧ Clauses.DeviceLoadsReadBytes

/-- A queue-form load allots an entry, the entry is filled, and the EP pops it (R20 to R22, R24, R410). -/
def Obligations.QueueLoadsFillAndPop : Prop :=
  Clauses.QueueLoadsAllotAndFill ∧ Clauses.QueueOperandPops

/-- Releases, acquires and the maintenance of ranges (R112, R113, R317 to R321). -/
def Obligations.FencesOrderAccesses : Prop :=
  Clauses.ReleaseAndAcquire ∧ Clauses.FencesReleaseAndAcquire ∧ Clauses.RangeMaintenance

/-- Stream descriptors are made, loaded, stored, set and read; where the elements of a stream lie, and a poisoned one that arrives (R116 to
R121). -/
def Obligations.StreamsAndDescriptors : Prop :=
  Clauses.DescriptorVersionsMade ∧ Clauses.DescriptorsLoadAndStore ∧ Clauses.StreamElementsLieInRows ∧ Clauses.PoisonedElementTraps

/-- Every word of Execute runs its unit; lane slices are the lanes' own; the results of the integer formats (R144 to R172). -/
def Obligations.ExecuteWordsRunTheirUnits : Prop :=
  Clauses.ExecuteWordsRunTheirUnits ∧ Clauses.LaneSlicesSpread ∧ Clauses.IntegerElementResults

/-- Results of the floating-point types: element-wise, and of the blocks of a reduction (R127, R130 to R132, R144, R152 to R157). -/
def Obligations.FloatResultsRound : Prop :=
  Clauses.FloatElementsRound ∧ Clauses.BlocksRoundOnce

/-- The commands of ring 0 and the block sums that they form (R257 to R267). -/
def Obligations.MatrixCommandsPerform : Prop :=
  Clauses.ProductElementsAreBlockSums ∧ Clauses.MatrixCommandsPerform

/-- The commands of the other rings, and what a copy moves (R194 to R205, R241 to R244, R293). -/
def Obligations.BlockCommandsPerform : Prop :=
  Clauses.BlockCommandsPerform ∧ Clauses.CopiesMoveBytes

/-- Leases of the array, bounded segments and the passes of a stack (R204, R253, R254, R268). -/
def Obligations.LeasesSegmentsAndPasses : Prop :=
  Clauses.ArrayLeases ∧ Clauses.SegmentsAndStacks

/-- Notices published, pulled and declined, and the operations on pin entries (R209 to R230). -/
def Obligations.NoticesAndPins : Prop :=
  Clauses.NoticesPublishedAndTaken ∧ Clauses.PinOperationsAct

/-- The joins form a semilattice, and the instructions of regions join (R273 to R284). -/
def Obligations.LatticeInstructionsJoin : Prop :=
  Clauses.JoinsFormSemilattice ∧ Clauses.LatticeInstructionsAct

/-- Errors of storage, and changes of power (R407, R408, R418, R419, R431). -/
def Obligations.ErrorsAndPower : Prop :=
  Clauses.StorageErrorsCounted ∧ Clauses.PowerChanges

/-- A launch expands into its leaves (R366 to R370). -/
def Obligations.LeavesExpand : Prop :=
  Clauses.LeavesNumberTheLevels ∧ Clauses.LeavesAreEnqueued

/-- The scheduler chooses a record and starts it, alone or as a gang (R31, R371, R374). -/
def Obligations.SchedulerStartsStrands : Prop :=
  Clauses.SelectionOrder ∧ Clauses.CoresTakeRecords ∧ Clauses.GangsStartTogether

/-- The preloaded task, and requests to give way (R32, R92, R373, R377, R378). -/
def Obligations.PreloadAndPreemption : Prop :=
  Clauses.PreloadedTaskStarts ∧ Clauses.PreemptionRequests

/-- Strands end, and invocations are replayed or fail (R96, R348, R349, R369). -/
def Obligations.StrandsAndInvocationsEnd : Prop :=
  Clauses.HaltedStrandsEnd ∧ Clauses.InvocationsReplayOrFail

/-- Strands are saved, written out and restored (R378 to R381). -/
def Obligations.StrandsSavedAndRestored : Prop :=
  Clauses.StrandsAreSaved ∧ Clauses.SavedBanksWritten ∧ Clauses.SavedRecordsRestored

/-- The validator, and the packets that move data (R328, R335, R337, R340). -/
def Obligations.DataPacketsAct : Prop :=
  Clauses.ValidatorHaltsQueue ∧ Clauses.WritePackets ∧ Clauses.PlainPackets

/-- The packets that steer a queue, and those that reach control blocks (R328, R329, R338, R361). -/
def Obligations.ControlPacketsAct : Prop :=
  Clauses.ControlPackets ∧ Clauses.ControlBlockPackets

/-- Doorbells, control blocks, the mailbox, reset and readiness (R334, R354 to R358, R362, R363, R428 to R430). -/
def Obligations.QueueAndFirmwareEventsAct : Prop :=
  Clauses.QueueEventsAct ∧ Clauses.FirmwareActs

/-- The instructions of Cricket and the bound of its runs (R341 to R343). -/
def Obligations.CricketInstructionsAct : Prop :=
  Clauses.CricketComputes ∧ Clauses.CricketControls ∧ Clauses.CricketBudgetHalts

/-- The host, the pod and the debugger (R314, R420 to R427). -/
def Obligations.OutsideRequestsAct : Prop :=
  Clauses.HostAccesses ∧ Clauses.InboundRequests ∧ Clauses.PodRepliesAndTimeouts ∧ Clauses.DebuggerActs
end

