-- ==== Sys2Proof/Laws/Bits.lean ====
section
/-!
SUPPORT. Reading a bit field of a word that is put together from fields.
-/
namespace Sys2Proof.Machine

theorem bits_cat_low {m k w : Nat} (x : BitVec m) (y : BitVec k) (hw : m + k = w) (lo n : Nat) (h : lo + n ≤ k) :
    bits (cat x y hw) lo n = bits y lo n := by
  subst hw
  apply BitVec.eq_of_getLsbD_eq
  intro i hi
  simp [bits, cat, BitVec.getLsbD_append, hi, show lo + i < k by omega]

theorem bits_cat_high {m k w : Nat} (x : BitVec m) (y : BitVec k) (hw : m + k = w) (lo n : Nat) (h : k ≤ lo) :
    bits (cat x y hw) lo n = bits x (lo - k) n := by
  subst hw
  apply BitVec.eq_of_getLsbD_eq
  intro i hi
  simp [bits, cat, BitVec.getLsbD_append, hi, show ¬ lo + i < k by omega, show lo + i - k = lo - k + i by omega]

theorem bits_all {w : Nat} (x : BitVec w) : bits x 0 w = x := by
  apply BitVec.eq_of_getLsbD_eq
  intro i hi
  simp [bits, hi]

end Sys2Proof.Machine
end

