-- ==== Sys2Proof/Laws/Memory.lean ====
section
/-!
SUPPORT. Memories: a read after a write, what a write leaves alone, and that every operation keeps the canonical form.
-/
namespace Sys2Proof.Machine

namespace Cells

/-- The canonical form above a bound, as conditions on the head. -/
theorem wfFrom_cons (lo : Option Nat) (k : Nat) (v : Byte) (r : List Host.Cell) :
    wfFrom lo ((k, v) :: r) = true ↔ (∀ l, lo = some l → l < k) ∧ v ≠ 0 ∧ wfFrom (some k) r = true := by
  cases lo <;> simp [wfFrom, and_assoc]

theorem wfFrom_weaken {m : List Host.Cell} {l : Nat} {lo : Option Nat} (h : wfFrom (some l) m = true)
    (hl : ∀ x, lo = some x → x ≤ l) : wfFrom lo m = true := by
  cases m with
  | nil => simp [wfFrom]
  | cons c r =>
    obtain ⟨k, v⟩ := c
    rw [wfFrom_cons] at h ⊢
    exact ⟨fun x hx => lt_of_le_of_lt (hl x hx) (h.1 l rfl), h.2⟩

/-- Below the bound nothing is listed. -/
theorem get_below {m : List Host.Cell} {l a : Nat} (h : wfFrom (some l) m = true) (ha : a ≤ l) : get m a = 0 := by
  induction m generalizing l with
  | nil => rfl
  | cons c r ih =>
    obtain ⟨k, v⟩ := c
    rw [wfFrom_cons] at h
    have hk := h.1 l rfl
    rw [get, if_neg (by omega), ih h.2.2 (by omega)]

theorem get_put_ne (m : List Host.Cell) (a b : Nat) (v : Byte) (h : b ≠ a) : get (put m a v) b = get m b := by
  induction m with
  | nil => simp only [put]; split_ifs <;> simp [get, Ne.symm h]
  | cons c r ih =>
    obtain ⟨k, w⟩ := c
    simp only [put]
    split_ifs with h1 h2 h3 h4
    · rfl
    · simp [get, Ne.symm h]
    · subst h3; simp [get, Ne.symm h]
    · subst h3; simp [get, Ne.symm h]
    · simp [get, ih]

theorem get_put_eq {lo : Option Nat} (m : List Host.Cell) (a : Nat) (v : Byte) (h : wfFrom lo m = true) :
    get (put m a v) a = v := by
  induction m generalizing lo with
  | nil => simp only [put]; split_ifs with hv <;> simp [get, hv]
  | cons c r ih =>
    obtain ⟨k, w⟩ := c
    rw [wfFrom_cons] at h
    simp only [put]
    split_ifs with h1 h2 h3 h4
    · rw [get, if_neg (by omega), get_below h.2.2 (by omega), h2]
    · simp [get]
    · subst h3; rw [get_below h.2.2 (le_refl _), h4]
    · simp [get]
    · rw [get, if_neg (fun e => h3 e.symm), ih h.2.2]

theorem wfFrom_put {lo : Option Nat} (m : List Host.Cell) (a : Nat) (v : Byte) (h : wfFrom lo m = true)
    (ha : ∀ l, lo = some l → l < a) : wfFrom lo (put m a v) = true := by
  induction m generalizing lo with
  | nil =>
    by_cases hv : v = 0
    · simp [put, hv, wfFrom]
    · simp only [put, if_neg hv]; rw [wfFrom_cons]; exact ⟨ha, hv, rfl⟩
  | cons c r ih =>
    obtain ⟨k, w⟩ := c
    have h' := h
    rw [wfFrom_cons] at h'
    simp only [put]
    split_ifs with h1 h2 h3 h4
    · exact h
    · rw [wfFrom_cons, wfFrom_cons]
      exact ⟨ha, h2, fun l hl => by cases hl; exact h1, h'.2⟩
    · subst h3
      exact wfFrom_weaken h'.2.2 fun x hx => le_of_lt (ha x hx)
    · subst h3; rw [wfFrom_cons]; exact ⟨ha, h4, h'.2.2⟩
    · rw [wfFrom_cons]
      exact ⟨h'.1, h'.2.1, ih h'.2.2 fun l hl => by cases hl; omega⟩

/-- A byte replaced: the list stays in form. -/
theorem wf_put (m : List Host.Cell) (a : Nat) (v : Byte) (h : wf m = true) : wf (put m a v) = true :=
  wfFrom_put m a v h (by simp)

/-- A read after a write of one byte. -/
theorem get_put (m : List Host.Cell) (a b : Nat) (v : Byte) (h : wf m = true) :
    get (put m a v) b = if b = a then v else get m b := by
  split_ifs with e
  · subst e; exact get_put_eq m b v h
  · exact get_put_ne m a b v e

theorem wf_write (m : List Host.Cell) (a : Nat) (bs : List Byte) (h : wf m = true) : wf (write m a bs) = true := by
  induction bs generalizing m a with
  | nil => exact h
  | cons b bs ih => exact ih _ _ (wf_put m a b h)

theorem wf_writeMasked (m : List Host.Cell) (a k : Nat) (bs : List Byte) (h : wf m = true) :
    wf (writeMasked m a k bs) = true := by
  induction bs generalizing m a k with
  | nil => exact h
  | cons b bs ih =>
    simp only [writeMasked]
    split_ifs
    · exact ih _ _ _ (wf_put m a b h)
    · exact ih _ _ _ h

/-- A read after a write: the written bytes inside it, the old ones outside. -/
theorem get_write (m : List Host.Cell) (a b : Nat) (bs : List Byte) (h : wf m = true) :
    get (write m a bs) b = if a ≤ b ∧ b < a + bs.length then bs[b - a]?.getD 0 else get m b := by
  induction bs generalizing m a with
  | nil => simp only [write, List.length_nil]; rw [if_neg (by omega)]
  | cons x bs ih =>
    simp only [write, List.length_cons]
    rw [ih _ _ (wf_put m a x h), get_put m a b x h]
    by_cases e : b = a
    · subst e; simp
    · by_cases g : a ≤ b ∧ b < a + (bs.length + 1)
      · rw [if_pos (by omega), if_pos g, show b - a = (b - (a + 1)) + 1 by omega]; simp
      · rw [if_neg (by omega), if_neg e, if_neg g]

/-- Outside the written bytes nothing changes, whatever the list. -/
theorem get_write_outside (m : List Host.Cell) (a b : Nat) (bs : List Byte) (h : b < a ∨ a + bs.length ≤ b) :
    get (write m a bs) b = get m b := by
  induction bs generalizing m a with
  | nil => rfl
  | cons x bs ih =>
    simp only [List.length_cons] at h
    rw [write, ih _ _ (by omega), get_put_ne m a b x (by omega)]

theorem read_write (m : List Host.Cell) (a : Nat) (bs : List Byte) (h : wf m = true) :
    read (write m a bs) a bs.length = bs := by
  have gen : ∀ (n k : Nat), read (write m a bs) (a + k) n =
      (List.range n).map fun i => get (write m a bs) (a + k + i) := by
    intro n
    induction n with
    | zero => intro k; rfl
    | succ n ih =>
      intro k
      rw [read, List.range_succ_eq_map, List.map_cons, Nat.add_assoc, ih (k + 1), List.map_map]
      simp only [Nat.add_zero, List.cons.injEq, true_and]
      exact List.map_congr_left fun i _ => by simp [Nat.add_assoc, Nat.add_comm 1]
  have g := gen bs.length 0
  rw [Nat.add_zero] at g
  rw [g]
  apply List.ext_getElem
  · simp
  · intro i h1 h2
    rw [List.getElem_map, List.getElem_range, get_write m a _ bs h, if_pos (by omega)]
    simp [h2]

end Cells

/-- A write to a memory keeps its form. -/
theorem Bank.write_wf (z : Nat) (b : Bank) (a : Nat) (bs : List Byte) (h : Cells.wf b.cells = true) :
    Cells.wf (b.write z a bs).cells = true := Cells.wf_write _ _ _ h

@[simp] theorem Bank.setMark_cells (b : Bank) (i : Nat) (p : Bool) : (b.setMark i p).cells = b.cells := by
  cases p <;> rfl

theorem Mem.bank_wf (m : Mem) (sp : Space) (view : Bool) (h : m.wf = true) : Cells.wf (m.bank sp view).cells = true := by
  simp only [Mem.wf, Bool.and_eq_true] at h
  cases sp <;> cases view <;> simp_all [Mem.bank]

theorem Mem.setBank_wf (m : Mem) (sp : Space) (view : Bool) (b : Bank) (h : m.wf = true) (hb : Cells.wf b.cells = true) :
    (m.setBank sp view b).wf = true := by
  simp only [Mem.wf, Bool.and_eq_true] at h
  cases sp <;> cases view <;> simp_all [Mem.setBank, Mem.wf]

@[simp] theorem Mem.bank_setBank (m : Mem) (sp : Space) (view : Bool) (b : Bank) :
    (m.setBank sp view b).bank sp view = b := by
  cases sp <;> cases view <;> rfl

@[simp] theorem Mem.noteView_bank (m : Mem) (sp t : Space) (view v : Bool) (ns : List Nat) :
    (m.noteView sp view ns).bank t v = m.bank t v := by
  unfold Mem.noteView; split_ifs <;> rfl

theorem Mem.noteView_wf (m : Mem) (sp : Space) (view : Bool) (ns : List Nat) (h : m.wf = true) :
    (m.noteView sp view ns).wf = true := by
  unfold Mem.noteView; split_ifs <;> exact h

@[simp] theorem Mem.backInvalidate_bank (m : Mem) (sp t : Space) (v : Bool) (a n : Nat) :
    (m.backInvalidate sp a n).bank t v = m.bank t v := rfl

@[simp] theorem Mem.backInvalidate_wf (m : Mem) (sp : Space) (a n : Nat) : (m.backInvalidate sp a n).wf = m.wf := rfl

/-- Merging dirty bytes keeps every memory in form. -/
theorem Mem.mergeDirty_wf (m : Mem) (x : L1Sector) (h : m.wf = true) : (m.mergeDirty x).wf = true := by
  rw [Mem.mergeDirty, Mem.backInvalidate_wf]
  exact Mem.noteView_wf _ _ _ _ (Mem.setBank_wf m _ _ _ h (Cells.wf_writeMasked _ _ _ _ (Mem.bank_wf m _ _ h)))

theorem Mem.foldl_mergeDirty_wf (xs : List L1Sector) (m : Mem) (h : m.wf = true) : (xs.foldl Mem.mergeDirty m).wf = true := by
  induction xs generalizing m with
  | nil => exact h
  | cons x xs ih => exact ih _ (Mem.mergeDirty_wf m x h)

theorem State.giveUp_wf (s : State) (cs : List Core) (sp : Space) (a n : Nat) (h : s.mem.wf = true) :
    (s.giveUp cs sp a n).mem.wf = true := Mem.foldl_mergeDirty_wf _ _ h

@[simp] theorem State.clearL2_mem (s : State) (sp : Space) (view : Bool) (a n : Nat) : (s.clearL2 sp view a n).mem = s.mem := by
  unfold State.clearL2; split_ifs <;> rfl

@[simp] theorem State.mapCores_mem (s : State) (f : Core → Core) : (s.mapCores f).mem = s.mem := rfl

/-- A write at the home keeps every memory in form. -/
theorem State.homeWrite_wf (s : State) (sp : Space) (view : Bool) (a : Nat) (bs : List Byte) (h : s.mem.wf = true) :
    (s.homeWrite sp view a bs).mem.wf = true := by
  have g := State.giveUp_wf (s.hostGivesUp sp a bs.length) s.cores sp a bs.length h
  simpa [State.homeWrite] using
    Mem.noteView_wf _ _ _ _ (Mem.setBank_wf _ sp view _ g (Bank.write_wf (unitOf sp) _ a bs (Mem.bank_wf _ sp view g)))

/-- What a core gives up for a write lies in device or host memory. -/
theorem Core.givesUp_space (c : Core) (sp : Space) (a n : Nat) :
    ∀ x ∈ c.givesUp sp a n, x.space = .dev ∨ x.space = .host := by
  intro x hx
  unfold Core.givesUp at hx
  cases h : c.watching sp a n with
  | nil => simp [h] at hx
  | cons m ms =>
    simp only [h, List.mem_filter, L1Sector.watched, Bool.and_eq_true, Bool.or_eq_true, beq_iff_eq] at hx
    exact hx.2.1.1

theorem Mem.mergeDirty_scratch (m : Mem) (x : L1Sector) (sp : Space) (view : Bool) (hx : x.space = .dev ∨ x.space = .host)
    (h : sp ≠ .dev ∧ sp ≠ .host) : (m.mergeDirty x).bank sp view = m.bank sp view := by
  simp only [Mem.mergeDirty, Mem.noteView_bank, Mem.backInvalidate_bank]
  rcases hx with hx | hx <;> rw [hx] <;> cases sp <;> simp_all <;> cases x.view <;> rfl

theorem Mem.foldl_mergeDirty_scratch (xs : List L1Sector) (m : Mem) (sp : Space) (view : Bool)
    (hx : ∀ x ∈ xs, x.space = .dev ∨ x.space = .host) (h : sp ≠ .dev ∧ sp ≠ .host) :
    (xs.foldl Mem.mergeDirty m).bank sp view = m.bank sp view := by
  induction xs generalizing m with
  | nil => rfl
  | cons x xs ih =>
    simp only [List.mem_cons, forall_eq_or_imp] at hx
    rw [List.foldl_cons, ih _ hx.2, Mem.mergeDirty_scratch m x sp view hx.1 h]

/-- The bytes of a scratchpad that a write at the home writes. -/
theorem State.homeWrite_bank (s : State) (sp : Space) (view : Bool) (a : Nat) (bs : List Byte) (h : sp ≠ .dev ∧ sp ≠ .host) :
    ((s.homeWrite sp view a bs).mem.bank sp view).cells = Cells.write (s.mem.bank sp view).cells a bs := by
  have g : ((s.hostGivesUp sp a bs.length).giveUp s.cores sp a bs.length).mem.bank sp view = s.mem.bank sp view :=
    Mem.foldl_mergeDirty_scratch _ _ _ _ (by
      intro x hx
      obtain ⟨c, _, hc⟩ := List.mem_flatMap.1 hx
      exact c.givesUp_space _ _ _ x hc) h
  simp [State.homeWrite, Bank.write, g]

theorem State.setPoison_wf (s : State) (sp : Space) (view : Bool) (i : Nat) (p : Bool) (h : s.mem.wf = true) :
    (s.setPoison sp view i p).mem.wf = true :=
  Mem.setBank_wf s.mem sp view _ h (by simpa using Mem.bank_wf _ sp view h)

/-- After reset nothing is listed. -/
theorem State.reset_wf : State.reset.mem.wf = true := by decide

end Sys2Proof.Machine
end

