-- ==== Sys2Proof/Laws/PerInstr.lean ====
section
/-!
SUPPORT. What is proved of each constructor of Instr: its sequencer reads its words back.
-/
namespace Sys2Proof.Laws
open Machine

/-- The instruction's words read back as the instruction. -/
def RoundTrip.Statement (i : Instr) : Prop := readsBack i

theorem majorOpcode_cat (x : BitVec 7) (y : BitVec 25) (k : Nat) (h : x.toNat = k) :
    majorOpcode (cat x y rfl) = k := by
  simp [majorOpcode, bits_cat_high, bits_all, h]

theorem decodePacketAt_packetWords (op sub : BitVec 8) (body rest : List Word32) (h : body.length < 65536) :
    decodePacketAt (packetWords op sub body ++ rest) =
      (decodePacket (cat op (cat sub (BitVec.ofNat 16 body.length) rfl) rfl) body).map fun i => (i, rest) := by
  have n : (bits (cat op (cat sub (BitVec.ofNat 16 body.length) rfl) rfl : Word32) 0 16).toNat = body.length := by
    rw [bits_cat_low _ _ _ _ _ (by omega), bits_cat_low _ _ _ _ _ (by omega), bits_all]
    simpa using h
  simp only [packetWords, List.cons_append, decodePacketAt, n]
  simp only [List.length_append, List.take_left, List.drop_left]
  rw [if_neg (by omega)]
  cases decodePacket _ body <;> rfl

theorem RoundTrip.bt (c o) : RoundTrip.Statement (.bt c o) := by
  refine ⟨rfl, ?_⟩
  show decodeStrand (cat 1#7 (cat 0#1 (cat c o rfl) rfl) rfl) = _
  unfold decodeStrand; rw [majorOpcode_cat _ _ 1 rfl]
  show ite _ _ _ = _
  simp [bits_cat_low, bits_cat_high, bits_all] <;> rfl

theorem RoundTrip.bf (c o) : RoundTrip.Statement (.bf c o) := by
  refine ⟨rfl, ?_⟩
  show decodeStrand (cat 2#7 (cat 0#1 (cat c o rfl) rfl) rfl) = _
  unfold decodeStrand; rw [majorOpcode_cat _ _ 2 rfl]
  show ite _ _ _ = _
  simp [bits_cat_low, bits_cat_high, bits_all] <;> rfl

theorem RoundTrip.call (c o) : RoundTrip.Statement (.call c o) := by
  refine ⟨rfl, ?_⟩
  show decodeStrand (cat 3#7 (cat 0#1 (cat c o rfl) rfl) rfl) = _
  unfold decodeStrand; rw [majorOpcode_cat _ _ 3 rfl]
  show ite _ _ _ = _
  simp [bits_cat_low, bits_cat_high, bits_all] <;> rfl

theorem RoundTrip.jr (a) : RoundTrip.Statement (.jr a) := by
  refine ⟨rfl, ?_⟩
  show decodeStrand (cat 4#7 (cat 0#1 (cat 0#6 (cat a 0#12 rfl) rfl) rfl) rfl) = _
  unfold decodeStrand; rw [majorOpcode_cat _ _ 4 rfl]
  show ite _ _ _ = _
  simp [bits_cat_low, bits_cat_high, bits_all] <;> rfl

theorem RoundTrip.lbeg (r l a i) : RoundTrip.Statement (.lbeg r l a i) := by
  refine ⟨rfl, ?_⟩
  show decodeStrand (cat 5#7 (cat 0#1 (cat r (cat 0#2 (cat l (cat a i rfl) rfl) rfl) rfl) rfl) rfl) = _
  unfold decodeStrand; rw [majorOpcode_cat _ _ 5 rfl]
  show ite _ _ _ = _
  simp [bits_cat_low, bits_cat_high, bits_all] <;> rfl

theorem RoundTrip.lend (l o) : RoundTrip.Statement (.lend l o) := by
  refine ⟨rfl, ?_⟩
  show decodeStrand (cat 6#7 (cat 0#1 (cat 0#3 (cat l o rfl) rfl) rfl) rfl) = _
  unfold decodeStrand; rw [majorOpcode_cat _ _ 6 rfl]
  show ite _ _ _ = _
  simp [bits_cat_low, bits_cat_high, bits_all] <;> rfl

theorem RoundTrip.add (e d a b) : RoundTrip.Statement (.add e d a b) := by
  refine ⟨rfl, ?_⟩
  show decodeStrand (cat 16#7 (cat e (cat d (cat a (cat b 0#6 rfl) rfl) rfl) rfl) rfl) = _
  unfold decodeStrand; rw [majorOpcode_cat _ _ 16 rfl]
  show decodeIntReg _ = _
  unfold decodeIntReg
  simp [bits_cat_low, bits_cat_high, bits_all] <;> rfl

theorem RoundTrip.sub (e d a b) : RoundTrip.Statement (.sub e d a b) := by
  refine ⟨rfl, ?_⟩
  show decodeStrand (cat 16#7 (cat e (cat d (cat a (cat b 1#6 rfl) rfl) rfl) rfl) rfl) = _
  unfold decodeStrand; rw [majorOpcode_cat _ _ 16 rfl]
  show decodeIntReg _ = _
  unfold decodeIntReg
  simp [bits_cat_low, bits_cat_high, bits_all] <;> rfl

theorem RoundTrip.and (e d a b) : RoundTrip.Statement (.and e d a b) := by
  refine ⟨rfl, ?_⟩
  show decodeStrand (cat 16#7 (cat e (cat d (cat a (cat b 2#6 rfl) rfl) rfl) rfl) rfl) = _
  unfold decodeStrand; rw [majorOpcode_cat _ _ 16 rfl]
  show decodeIntReg _ = _
  unfold decodeIntReg
  simp [bits_cat_low, bits_cat_high, bits_all] <;> rfl

theorem RoundTrip.or (e d a b) : RoundTrip.Statement (.or e d a b) := by
  refine ⟨rfl, ?_⟩
  show decodeStrand (cat 16#7 (cat e (cat d (cat a (cat b 3#6 rfl) rfl) rfl) rfl) rfl) = _
  unfold decodeStrand; rw [majorOpcode_cat _ _ 16 rfl]
  show decodeIntReg _ = _
  unfold decodeIntReg
  simp [bits_cat_low, bits_cat_high, bits_all] <;> rfl

theorem RoundTrip.xor (e d a b) : RoundTrip.Statement (.xor e d a b) := by
  refine ⟨rfl, ?_⟩
  show decodeStrand (cat 16#7 (cat e (cat d (cat a (cat b 4#6 rfl) rfl) rfl) rfl) rfl) = _
  unfold decodeStrand; rw [majorOpcode_cat _ _ 16 rfl]
  show decodeIntReg _ = _
  unfold decodeIntReg
  simp [bits_cat_low, bits_cat_high, bits_all] <;> rfl

theorem RoundTrip.andn (e d a b) : RoundTrip.Statement (.andn e d a b) := by
  refine ⟨rfl, ?_⟩
  show decodeStrand (cat 16#7 (cat e (cat d (cat a (cat b 5#6 rfl) rfl) rfl) rfl) rfl) = _
  unfold decodeStrand; rw [majorOpcode_cat _ _ 16 rfl]
  show decodeIntReg _ = _
  unfold decodeIntReg
  simp [bits_cat_low, bits_cat_high, bits_all] <;> rfl

theorem RoundTrip.shl (e d a b) : RoundTrip.Statement (.shl e d a b) := by
  refine ⟨rfl, ?_⟩
  show decodeStrand (cat 16#7 (cat e (cat d (cat a (cat b 6#6 rfl) rfl) rfl) rfl) rfl) = _
  unfold decodeStrand; rw [majorOpcode_cat _ _ 16 rfl]
  show decodeIntReg _ = _
  unfold decodeIntReg
  simp [bits_cat_low, bits_cat_high, bits_all] <;> rfl

theorem RoundTrip.shr (e d a b) : RoundTrip.Statement (.shr e d a b) := by
  refine ⟨rfl, ?_⟩
  show decodeStrand (cat 16#7 (cat e (cat d (cat a (cat b 7#6 rfl) rfl) rfl) rfl) rfl) = _
  unfold decodeStrand; rw [majorOpcode_cat _ _ 16 rfl]
  show decodeIntReg _ = _
  unfold decodeIntReg
  simp [bits_cat_low, bits_cat_high, bits_all] <;> rfl

theorem RoundTrip.sra (e d a b) : RoundTrip.Statement (.sra e d a b) := by
  refine ⟨rfl, ?_⟩
  show decodeStrand (cat 16#7 (cat e (cat d (cat a (cat b 8#6 rfl) rfl) rfl) rfl) rfl) = _
  unfold decodeStrand; rw [majorOpcode_cat _ _ 16 rfl]
  show decodeIntReg _ = _
  unfold decodeIntReg
  simp [bits_cat_low, bits_cat_high, bits_all] <;> rfl

theorem RoundTrip.min (e d a b) : RoundTrip.Statement (.min e d a b) := by
  refine ⟨rfl, ?_⟩
  show decodeStrand (cat 16#7 (cat e (cat d (cat a (cat b 9#6 rfl) rfl) rfl) rfl) rfl) = _
  unfold decodeStrand; rw [majorOpcode_cat _ _ 16 rfl]
  show decodeIntReg _ = _
  unfold decodeIntReg
  simp [bits_cat_low, bits_cat_high, bits_all] <;> rfl

theorem RoundTrip.max (e d a b) : RoundTrip.Statement (.max e d a b) := by
  refine ⟨rfl, ?_⟩
  show decodeStrand (cat 16#7 (cat e (cat d (cat a (cat b 10#6 rfl) rfl) rfl) rfl) rfl) = _
  unfold decodeStrand; rw [majorOpcode_cat _ _ 16 rfl]
  show decodeIntReg _ = _
  unfold decodeIntReg
  simp [bits_cat_low, bits_cat_high, bits_all] <;> rfl

theorem RoundTrip.minu (e d a b) : RoundTrip.Statement (.minu e d a b) := by
  refine ⟨rfl, ?_⟩
  show decodeStrand (cat 16#7 (cat e (cat d (cat a (cat b 11#6 rfl) rfl) rfl) rfl) rfl) = _
  unfold decodeStrand; rw [majorOpcode_cat _ _ 16 rfl]
  show decodeIntReg _ = _
  unfold decodeIntReg
  simp [bits_cat_low, bits_cat_high, bits_all] <;> rfl

theorem RoundTrip.maxu (e d a b) : RoundTrip.Statement (.maxu e d a b) := by
  refine ⟨rfl, ?_⟩
  show decodeStrand (cat 16#7 (cat e (cat d (cat a (cat b 12#6 rfl) rfl) rfl) rfl) rfl) = _
  unfold decodeStrand; rw [majorOpcode_cat _ _ 16 rfl]
  show decodeIntReg _ = _
  unfold decodeIntReg
  simp [bits_cat_low, bits_cat_high, bits_all] <;> rfl

theorem RoundTrip.mul (e d a b) : RoundTrip.Statement (.mul e d a b) := by
  refine ⟨rfl, ?_⟩
  show decodeStrand (cat 16#7 (cat e (cat d (cat a (cat b 13#6 rfl) rfl) rfl) rfl) rfl) = _
  unfold decodeStrand; rw [majorOpcode_cat _ _ 16 rfl]
  show decodeIntReg _ = _
  unfold decodeIntReg
  simp [bits_cat_low, bits_cat_high, bits_all] <;> rfl

theorem RoundTrip.mulh (e d a b) : RoundTrip.Statement (.mulh e d a b) := by
  refine ⟨rfl, ?_⟩
  show decodeStrand (cat 16#7 (cat e (cat d (cat a (cat b 14#6 rfl) rfl) rfl) rfl) rfl) = _
  unfold decodeStrand; rw [majorOpcode_cat _ _ 16 rfl]
  show decodeIntReg _ = _
  unfold decodeIntReg
  simp [bits_cat_low, bits_cat_high, bits_all] <;> rfl

theorem RoundTrip.mulhu (e d a b) : RoundTrip.Statement (.mulhu e d a b) := by
  refine ⟨rfl, ?_⟩
  show decodeStrand (cat 16#7 (cat e (cat d (cat a (cat b 15#6 rfl) rfl) rfl) rfl) rfl) = _
  unfold decodeStrand; rw [majorOpcode_cat _ _ 16 rfl]
  show decodeIntReg _ = _
  unfold decodeIntReg
  simp [bits_cat_low, bits_cat_high, bits_all] <;> rfl

theorem RoundTrip.adds (e d a b) : RoundTrip.Statement (.adds e d a b) := by
  refine ⟨rfl, ?_⟩
  show decodeStrand (cat 16#7 (cat e (cat d (cat a (cat b 16#6 rfl) rfl) rfl) rfl) rfl) = _
  unfold decodeStrand; rw [majorOpcode_cat _ _ 16 rfl]
  show decodeIntReg _ = _
  unfold decodeIntReg
  simp [bits_cat_low, bits_cat_high, bits_all] <;> rfl

theorem RoundTrip.subs (e d a b) : RoundTrip.Statement (.subs e d a b) := by
  refine ⟨rfl, ?_⟩
  show decodeStrand (cat 16#7 (cat e (cat d (cat a (cat b 17#6 rfl) rfl) rfl) rfl) rfl) = _
  unfold decodeStrand; rw [majorOpcode_cat _ _ 16 rfl]
  show decodeIntReg _ = _
  unfold decodeIntReg
  simp [bits_cat_low, bits_cat_high, bits_all] <;> rfl

theorem RoundTrip.addus (e d a b) : RoundTrip.Statement (.addus e d a b) := by
  refine ⟨rfl, ?_⟩
  show decodeStrand (cat 16#7 (cat e (cat d (cat a (cat b 18#6 rfl) rfl) rfl) rfl) rfl) = _
  unfold decodeStrand; rw [majorOpcode_cat _ _ 16 rfl]
  show decodeIntReg _ = _
  unfold decodeIntReg
  simp [bits_cat_low, bits_cat_high, bits_all] <;> rfl

theorem RoundTrip.subus (e d a b) : RoundTrip.Statement (.subus e d a b) := by
  refine ⟨rfl, ?_⟩
  show decodeStrand (cat 16#7 (cat e (cat d (cat a (cat b 19#6 rfl) rfl) rfl) rfl) rfl) = _
  unfold decodeStrand; rw [majorOpcode_cat _ _ 16 rfl]
  show decodeIntReg _ = _
  unfold decodeIntReg
  simp [bits_cat_low, bits_cat_high, bits_all] <;> rfl

theorem RoundTrip.sextb (e d a) : RoundTrip.Statement (.sextb e d a) := by
  refine ⟨rfl, ?_⟩
  show decodeStrand (cat 16#7 (cat e (cat d (cat a 20#12 rfl) rfl) rfl) rfl) = _
  unfold decodeStrand; rw [majorOpcode_cat _ _ 16 rfl]
  show decodeIntReg _ = _
  unfold decodeIntReg
  simp [bits_cat_low, bits_cat_high, bits_all] <;> rfl

theorem RoundTrip.sexth (e d a) : RoundTrip.Statement (.sexth e d a) := by
  refine ⟨rfl, ?_⟩
  show decodeStrand (cat 16#7 (cat e (cat d (cat a 21#12 rfl) rfl) rfl) rfl) = _
  unfold decodeStrand; rw [majorOpcode_cat _ _ 16 rfl]
  show decodeIntReg _ = _
  unfold decodeIntReg
  simp [bits_cat_low, bits_cat_high, bits_all] <;> rfl

theorem RoundTrip.sextw (e d a) : RoundTrip.Statement (.sextw e d a) := by
  refine ⟨rfl, ?_⟩
  show decodeStrand (cat 16#7 (cat e (cat d (cat a 22#12 rfl) rfl) rfl) rfl) = _
  unfold decodeStrand; rw [majorOpcode_cat _ _ 16 rfl]
  show decodeIntReg _ = _
  unfold decodeIntReg
  simp [bits_cat_low, bits_cat_high, bits_all] <;> rfl

theorem RoundTrip.clz (e d a) : RoundTrip.Statement (.clz e d a) := by
  refine ⟨rfl, ?_⟩
  show decodeStrand (cat 16#7 (cat e (cat d (cat a 23#12 rfl) rfl) rfl) rfl) = _
  unfold decodeStrand; rw [majorOpcode_cat _ _ 16 rfl]
  show decodeIntReg _ = _
  unfold decodeIntReg
  simp [bits_cat_low, bits_cat_high, bits_all] <;> rfl

theorem RoundTrip.popc (e d a) : RoundTrip.Statement (.popc e d a) := by
  refine ⟨rfl, ?_⟩
  show decodeStrand (cat 16#7 (cat e (cat d (cat a 24#12 rfl) rfl) rfl) rfl) = _
  unfold decodeStrand; rw [majorOpcode_cat _ _ 16 rfl]
  show decodeIntReg _ = _
  unfold decodeIntReg
  simp [bits_cat_low, bits_cat_high, bits_all] <;> rfl

theorem RoundTrip.addi (e d a i) : RoundTrip.Statement (.addi e d a i) := by
  refine ⟨rfl, ?_⟩
  show decodeStrand (cat 17#7 (cat e (cat d (cat a i rfl) rfl) rfl) rfl) = _
  unfold decodeStrand; rw [majorOpcode_cat _ _ 17 rfl]
  show Except.ok _ = _
  simp [bits_cat_low, bits_cat_high, bits_all] <;> rfl

theorem RoundTrip.andi (e d a i) : RoundTrip.Statement (.andi e d a i) := by
  refine ⟨rfl, ?_⟩
  show decodeStrand (cat 18#7 (cat e (cat d (cat a i rfl) rfl) rfl) rfl) = _
  unfold decodeStrand; rw [majorOpcode_cat _ _ 18 rfl]
  show Except.ok _ = _
  simp [bits_cat_low, bits_cat_high, bits_all] <;> rfl

theorem RoundTrip.ori (e d a i) : RoundTrip.Statement (.ori e d a i) := by
  refine ⟨rfl, ?_⟩
  show decodeStrand (cat 19#7 (cat e (cat d (cat a i rfl) rfl) rfl) rfl) = _
  unfold decodeStrand; rw [majorOpcode_cat _ _ 19 rfl]
  show Except.ok _ = _
  simp [bits_cat_low, bits_cat_high, bits_all] <;> rfl

theorem RoundTrip.xori (e d a i) : RoundTrip.Statement (.xori e d a i) := by
  refine ⟨rfl, ?_⟩
  show decodeStrand (cat 20#7 (cat e (cat d (cat a i rfl) rfl) rfl) rfl) = _
  unfold decodeStrand; rw [majorOpcode_cat _ _ 20 rfl]
  show Except.ok _ = _
  simp [bits_cat_low, bits_cat_high, bits_all] <;> rfl

theorem RoundTrip.shli (e d a n) : RoundTrip.Statement (.shli e d a n) := by
  refine ⟨rfl, ?_⟩
  show decodeStrand (cat 21#7 (cat e (cat d (cat a (cat 0#6 n rfl) rfl) rfl) rfl) rfl) = _
  unfold decodeStrand; rw [majorOpcode_cat _ _ 21 rfl]
  show ite _ _ _ = _
  simp [bits_cat_low, bits_cat_high, bits_all] <;> rfl

theorem RoundTrip.shri (e d a n) : RoundTrip.Statement (.shri e d a n) := by
  refine ⟨rfl, ?_⟩
  show decodeStrand (cat 22#7 (cat e (cat d (cat a (cat 0#6 n rfl) rfl) rfl) rfl) rfl) = _
  unfold decodeStrand; rw [majorOpcode_cat _ _ 22 rfl]
  show ite _ _ _ = _
  simp [bits_cat_low, bits_cat_high, bits_all] <;> rfl

theorem RoundTrip.srai (e d a n) : RoundTrip.Statement (.srai e d a n) := by
  refine ⟨rfl, ?_⟩
  show decodeStrand (cat 23#7 (cat e (cat d (cat a (cat 0#6 n rfl) rfl) rfl) rfl) rfl) = _
  unfold decodeStrand; rw [majorOpcode_cat _ _ 23 rfl]
  show ite _ _ _ = _
  simp [bits_cat_low, bits_cat_high, bits_all] <;> rfl

theorem RoundTrip.mini (e d a i) : RoundTrip.Statement (.mini e d a i) := by
  refine ⟨rfl, ?_⟩
  show decodeStrand (cat 24#7 (cat e (cat d (cat a i rfl) rfl) rfl) rfl) = _
  unfold decodeStrand; rw [majorOpcode_cat _ _ 24 rfl]
  show Except.ok _ = _
  simp [bits_cat_low, bits_cat_high, bits_all] <;> rfl

theorem RoundTrip.maxi (e d a i) : RoundTrip.Statement (.maxi e d a i) := by
  refine ⟨rfl, ?_⟩
  show decodeStrand (cat 25#7 (cat e (cat d (cat a i rfl) rfl) rfl) rfl) = _
  unfold decodeStrand; rw [majorOpcode_cat _ _ 25 rfl]
  show Except.ok _ = _
  simp [bits_cat_low, bits_cat_high, bits_all] <;> rfl

theorem RoundTrip.cmp (e d a b c) : RoundTrip.Statement (.cmp e d a b c) := by
  refine ⟨rfl, ?_⟩
  show decodeStrand (cat 26#7 (cat e (cat d (cat a (cat b (cat 0#3 c rfl) rfl) rfl) rfl) rfl) rfl) = _
  unfold decodeStrand; rw [majorOpcode_cat _ _ 26 rfl]
  show ite _ _ _ = _
  simp [bits_cat_low, bits_cat_high, bits_all] <;> rfl

theorem RoundTrip.cmpi (e d a c i) : RoundTrip.Statement (.cmpi e d a c i) := by
  refine ⟨rfl, ?_⟩
  show decodeStrand (cat 27#7 (cat e (cat d (cat a (cat c i rfl) rfl) rfl) rfl) rfl) = _
  unfold decodeStrand; rw [majorOpcode_cat _ _ 27 rfl]
  show Except.ok _ = _
  simp [bits_cat_low, bits_cat_high, bits_all] <;> rfl

theorem RoundTrip.pand (e d a b) : RoundTrip.Statement (.pand e d a b) := by
  refine ⟨rfl, ?_⟩
  show decodeStrand (cat 28#7 (cat e (cat d (cat a (cat b 0#6 rfl) rfl) rfl) rfl) rfl) = _
  unfold decodeStrand; rw [majorOpcode_cat _ _ 28 rfl]
  show decodePred _ = _
  unfold decodePred
  simp [bits_cat_low, bits_cat_high, bits_all] <;> rfl

theorem RoundTrip.por (e d a b) : RoundTrip.Statement (.por e d a b) := by
  refine ⟨rfl, ?_⟩
  show decodeStrand (cat 28#7 (cat e (cat d (cat a (cat b 1#6 rfl) rfl) rfl) rfl) rfl) = _
  unfold decodeStrand; rw [majorOpcode_cat _ _ 28 rfl]
  show decodePred _ = _
  unfold decodePred
  simp [bits_cat_low, bits_cat_high, bits_all] <;> rfl

theorem RoundTrip.pxor (e d a b) : RoundTrip.Statement (.pxor e d a b) := by
  refine ⟨rfl, ?_⟩
  show decodeStrand (cat 28#7 (cat e (cat d (cat a (cat b 2#6 rfl) rfl) rfl) rfl) rfl) = _
  unfold decodeStrand; rw [majorOpcode_cat _ _ 28 rfl]
  show decodePred _ = _
  unfold decodePred
  simp [bits_cat_low, bits_cat_high, bits_all] <;> rfl

theorem RoundTrip.pandn (e d a b) : RoundTrip.Statement (.pandn e d a b) := by
  refine ⟨rfl, ?_⟩
  show decodeStrand (cat 28#7 (cat e (cat d (cat a (cat b 3#6 rfl) rfl) rfl) rfl) rfl) = _
  unfold decodeStrand; rw [majorOpcode_cat _ _ 28 rfl]
  show decodePred _ = _
  unfold decodePred
  simp [bits_cat_low, bits_cat_high, bits_all] <;> rfl

theorem RoundTrip.pnot (e d a) : RoundTrip.Statement (.pnot e d a) := by
  refine ⟨rfl, ?_⟩
  show decodeStrand (cat 28#7 (cat e (cat d (cat a 4#12 rfl) rfl) rfl) rfl) = _
  unfold decodeStrand; rw [majorOpcode_cat _ _ 28 rfl]
  show decodePred _ = _
  unfold decodePred
  simp [bits_cat_low, bits_cat_high, bits_all] <;> rfl

theorem RoundTrip.ldp (e d o) : RoundTrip.Statement (.ldp e d o) := by
  refine ⟨rfl, ?_⟩
  show decodeStrand (cat 29#7 (cat e (cat d o rfl) rfl) rfl) = _
  unfold decodeStrand; rw [majorOpcode_cat _ _ 29 rfl]
  show Except.ok _ = _
  simp [bits_cat_low, bits_cat_high, bits_all] <;> rfl

theorem RoundTrip.sgwait (s w) : RoundTrip.Statement (.sgwait s w) := by
  refine ⟨rfl, ?_⟩
  show decodeStrand (cat 30#7 (cat 0#1 (cat s (cat 0#14 w rfl) rfl) rfl) rfl) = _
  unfold decodeStrand; rw [majorOpcode_cat _ _ 30 rfl]
  show decodeSema _ = _
  unfold decodeSema
  simp [bits_cat_low, bits_cat_high, bits_all] <;> rfl

theorem RoundTrip.sgraise (s) : RoundTrip.Statement (.sgraise s) := by
  refine ⟨rfl, ?_⟩
  show decodeStrand (cat 30#7 (cat 0#1 (cat s 2048#18 rfl) rfl) rfl) = _
  unfold decodeStrand; rw [majorOpcode_cat _ _ 30 rfl]
  show decodeSema _ = _
  unfold decodeSema
  simp [bits_cat_low, bits_cat_high, bits_all] <;> rfl

theorem RoundTrip.repN (e n) : RoundTrip.Statement (.repN e n) := by
  refine ⟨rfl, ?_⟩
  show decodeStrand (cat 31#7 (cat e (cat 0#4 n rfl) rfl) rfl) = _
  unfold decodeStrand; rw [majorOpcode_cat _ _ 31 rfl]
  show decodePrefix _ = _
  unfold decodePrefix
  simp [bits_cat_low, bits_cat_high, bits_all] <;> rfl

theorem RoundTrip.repReg (e c) : RoundTrip.Statement (.repReg e c) := by
  refine ⟨rfl, ?_⟩
  show decodeStrand (cat 31#7 (cat e (cat 16384#18 c rfl) rfl) rfl) = _
  unfold decodeStrand; rw [majorOpcode_cat _ _ 31 rfl]
  show decodePrefix _ = _
  unfold decodePrefix
  simp [bits_cat_low, bits_cat_high, bits_all] <;> rfl

theorem RoundTrip.accessPrefix (c a l s v p z) : RoundTrip.Statement (.accessPrefix c a l s v p z) := by
  refine ⟨rfl, ?_⟩
  show decodeStrand (cat 31#7 (cat 0#1 (cat 2#4 (cat c (cat a (cat l (cat s (cat v (cat p (cat z 0#7 rfl) rfl) rfl) rfl) rfl) rfl) rfl) rfl) rfl) rfl) = _
  unfold decodeStrand; rw [majorOpcode_cat _ _ 31 rfl]
  show decodePrefix _ = _
  unfold decodePrefix
  simp [bits_cat_low, bits_cat_high, bits_all] <;> rfl

theorem RoundTrip.hint (e x) : RoundTrip.Statement (.hint e x) := by
  refine ⟨rfl, ?_⟩
  show decodeStrand (cat 62#7 (cat e x rfl) rfl) = _
  unfold decodeStrand; rw [majorOpcode_cat _ _ 62 rfl]
  show Except.ok _ = _
  simp [bits_cat_low, bits_cat_high, bits_all] <;> rfl

theorem RoundTrip.ldl (z s a r o) : RoundTrip.Statement (.ldl z s a r o) := by
  refine ⟨rfl, ?_⟩
  show decodeStrand (cat 64#7 (cat 1#1 (cat z (cat s (cat a (cat r (cat 0#1 o rfl) rfl) rfl) rfl) rfl) rfl) rfl) = _
  unfold decodeStrand; rw [majorOpcode_cat _ _ 64 rfl]
  show ite _ _ _ = _
  simp [bits_cat_low, bits_cat_high, bits_all] <;> rfl

theorem RoundTrip.stl (z s a r o) : RoundTrip.Statement (.stl z s a r o) := by
  refine ⟨rfl, ?_⟩
  show decodeStrand (cat 65#7 (cat 1#1 (cat z (cat s (cat a (cat r (cat 0#1 o rfl) rfl) rfl) rfl) rfl) rfl) rfl) = _
  unfold decodeStrand; rw [majorOpcode_cat _ _ 65 rfl]
  show ite _ _ _ = _
  simp [bits_cat_low, bits_cat_high, bits_all] <;> rfl

theorem RoundTrip.ldc (d b z p w i) : RoundTrip.Statement (.ldc d b z p w i) := by
  refine ⟨rfl, ?_⟩
  show decodeStrand (cat 66#7 (cat 0#1 (cat d (cat b (cat z (cat p (cat w i rfl) rfl) rfl) rfl) rfl) rfl) rfl) = _
  unfold decodeStrand; rw [majorOpcode_cat _ _ 66 rfl]
  show ite _ _ _ = _
  simp [bits_cat_low, bits_cat_high, bits_all] <;> rfl

theorem RoundTrip.stc (d b z p w i) : RoundTrip.Statement (.stc d b z p w i) := by
  refine ⟨rfl, ?_⟩
  show decodeStrand (cat 67#7 (cat 0#1 (cat d (cat b (cat z (cat p (cat w i rfl) rfl) rfl) rfl) rfl) rfl) rfl) = _
  unfold decodeStrand; rw [majorOpcode_cat _ _ 67 rfl]
  show ite _ _ _ = _
  simp [bits_cat_low, bits_cat_high, bits_all] <;> rfl

theorem RoundTrip.ldcx (d b z w x) : RoundTrip.Statement (.ldcx d b z w x) := by
  refine ⟨rfl, ?_⟩
  show decodeStrand (cat 68#7 (cat 0#1 (cat d (cat b (cat z (cat 0#1 (cat w x rfl) rfl) rfl) rfl) rfl) rfl) rfl) = _
  unfold decodeStrand; rw [majorOpcode_cat _ _ 68 rfl]
  show ite _ _ _ = _
  simp [bits_cat_low, bits_cat_high, bits_all] <;> rfl

theorem RoundTrip.stcx (d b z w x) : RoundTrip.Statement (.stcx d b z w x) := by
  refine ⟨rfl, ?_⟩
  show decodeStrand (cat 69#7 (cat 0#1 (cat d (cat b (cat z (cat 0#1 (cat w x rfl) rfl) rfl) rfl) rfl) rfl) rfl) = _
  unfold decodeStrand; rw [majorOpcode_cat _ _ 69 rfl]
  show ite _ _ _ = _
  simp [bits_cat_low, bits_cat_high, bits_all] <;> rfl

theorem RoundTrip.ldg (d b z f w i) : RoundTrip.Statement (.ldg d b z f w i) := by
  refine ⟨rfl, ?_⟩
  show decodeStrand (cat 70#7 (cat 0#1 (cat d (cat b (cat z (cat f (cat w i rfl) rfl) rfl) rfl) rfl) rfl) rfl) = _
  unfold decodeStrand; rw [majorOpcode_cat _ _ 70 rfl]
  show ite _ _ _ = _
  simp [bits_cat_low, bits_cat_high, bits_all] <;> rfl

theorem RoundTrip.stg (d b z f w i) : RoundTrip.Statement (.stg d b z f w i) := by
  refine ⟨rfl, ?_⟩
  show decodeStrand (cat 71#7 (cat 0#1 (cat d (cat b (cat z (cat f (cat w i rfl) rfl) rfl) rfl) rfl) rfl) rfl) = _
  unfold decodeStrand; rw [majorOpcode_cat _ _ 71 rfl]
  show ite _ _ _ = _
  simp [bits_cat_low, bits_cat_high, bits_all] <;> rfl

theorem RoundTrip.ldo (d b z w i) : RoundTrip.Statement (.ldo d b z w i) := by
  refine ⟨rfl, ?_⟩
  show decodeStrand (cat 72#7 (cat 0#1 (cat d (cat b (cat z (cat 0#1 (cat w i rfl) rfl) rfl) rfl) rfl) rfl) rfl) = _
  unfold decodeStrand; rw [majorOpcode_cat _ _ 72 rfl]
  show ite _ _ _ = _
  simp [bits_cat_low, bits_cat_high, bits_all] <;> rfl

theorem RoundTrip.sto (d b z w i) : RoundTrip.Statement (.sto d b z w i) := by
  refine ⟨rfl, ?_⟩
  show decodeStrand (cat 73#7 (cat 0#1 (cat d (cat b (cat z (cat 0#1 (cat w i rfl) rfl) rfl) rfl) rfl) rfl) rfl) = _
  unfold decodeStrand; rw [majorOpcode_cat _ _ 73 rfl]
  show ite _ _ _ = _
  simp [bits_cat_low, bits_cat_high, bits_all] <;> rfl

theorem RoundTrip.ldd (d h x l w i) : RoundTrip.Statement (.ldd d h x l w i) := by
  refine ⟨rfl, ?_⟩
  show decodeStrand (cat 74#7 (cat 0#1 (cat d (cat h (cat x (cat l (cat w i rfl) rfl) rfl) rfl) rfl) rfl) rfl) = _
  unfold decodeStrand; rw [majorOpcode_cat _ _ 74 rfl]
  show ite _ _ _ = _
  simp [bits_cat_low, bits_cat_high, bits_all] <;> rfl

theorem RoundTrip.lddQ (q p z h x l w i) : RoundTrip.Statement (.lddQ q p z h x l w i) := by
  refine ⟨rfl, ?_⟩
  show decodeStrand (cat 75#7 (cat 0#1 (cat q (cat p (cat z (cat h (cat x (cat l (cat w i rfl) rfl) rfl) rfl) rfl) rfl) rfl) rfl) rfl) = _
  unfold decodeStrand; rw [majorOpcode_cat _ _ 75 rfl]
  show ite _ _ _ = _
  simp [bits_cat_low, bits_cat_high, bits_all] <;> rfl

theorem RoundTrip.std (d h x l w i) : RoundTrip.Statement (.std d h x l w i) := by
  refine ⟨rfl, ?_⟩
  show decodeStrand (cat 76#7 (cat 0#1 (cat d (cat h (cat x (cat l (cat w i rfl) rfl) rfl) rfl) rfl) rfl) rfl) = _
  unfold decodeStrand; rw [majorOpcode_cat _ _ 76 rfl]
  show ite _ _ _ = _
  simp [bits_cat_low, bits_cat_high, bits_all] <;> rfl

theorem RoundTrip.ldh (d a w) : RoundTrip.Statement (.ldh d a w) := by
  refine ⟨rfl, ?_⟩
  show decodeStrand (cat 77#7 (cat 0#1 (cat d (cat a (cat 0#3 (cat w 0#5 rfl) rfl) rfl) rfl) rfl) rfl) = _
  unfold decodeStrand; rw [majorOpcode_cat _ _ 77 rfl]
  show ite _ _ _ = _
  simp [bits_cat_low, bits_cat_high, bits_all] <;> rfl

theorem RoundTrip.ldhQ (q p z a w) : RoundTrip.Statement (.ldhQ q p z a w) := by
  refine ⟨rfl, ?_⟩
  show decodeStrand (cat 78#7 (cat 0#1 (cat q (cat p (cat z (cat a (cat 0#3 (cat w 0#5 rfl) rfl) rfl) rfl) rfl) rfl) rfl) rfl) = _
  unfold decodeStrand; rw [majorOpcode_cat _ _ 78 rfl]
  show ite _ _ _ = _
  simp [bits_cat_low, bits_cat_high, bits_all] <;> rfl

theorem RoundTrip.sth (d a w) : RoundTrip.Statement (.sth d a w) := by
  refine ⟨rfl, ?_⟩
  show decodeStrand (cat 79#7 (cat 0#1 (cat d (cat a (cat 0#3 (cat w 0#5 rfl) rfl) rfl) rfl) rfl) rfl) = _
  unfold decodeStrand; rw [majorOpcode_cat _ _ 79 rfl]
  show ite _ _ _ = _
  simp [bits_cat_low, bits_cat_high, bits_all] <;> rfl

theorem RoundTrip.amoAdd (d a b s) : RoundTrip.Statement (.amoAdd d a b s) := by
  refine ⟨rfl, ?_⟩
  show decodeStrand (cat 80#7 (cat 0#1 (cat d (cat a (cat b (cat s 0#4 rfl) rfl) rfl) rfl) rfl) rfl) = _
  unfold decodeStrand; rw [majorOpcode_cat _ _ 80 rfl]
  show decodeAmo _ = _
  unfold decodeAmo
  simp [bits_cat_low, bits_cat_high, bits_all] <;> rfl

theorem RoundTrip.amoAnd (d a b s) : RoundTrip.Statement (.amoAnd d a b s) := by
  refine ⟨rfl, ?_⟩
  show decodeStrand (cat 80#7 (cat 0#1 (cat d (cat a (cat b (cat s 1#4 rfl) rfl) rfl) rfl) rfl) rfl) = _
  unfold decodeStrand; rw [majorOpcode_cat _ _ 80 rfl]
  show decodeAmo _ = _
  unfold decodeAmo
  simp [bits_cat_low, bits_cat_high, bits_all] <;> rfl

theorem RoundTrip.amoOr (d a b s) : RoundTrip.Statement (.amoOr d a b s) := by
  refine ⟨rfl, ?_⟩
  show decodeStrand (cat 80#7 (cat 0#1 (cat d (cat a (cat b (cat s 2#4 rfl) rfl) rfl) rfl) rfl) rfl) = _
  unfold decodeStrand; rw [majorOpcode_cat _ _ 80 rfl]
  show decodeAmo _ = _
  unfold decodeAmo
  simp [bits_cat_low, bits_cat_high, bits_all] <;> rfl

theorem RoundTrip.amoXor (d a b s) : RoundTrip.Statement (.amoXor d a b s) := by
  refine ⟨rfl, ?_⟩
  show decodeStrand (cat 80#7 (cat 0#1 (cat d (cat a (cat b (cat s 3#4 rfl) rfl) rfl) rfl) rfl) rfl) = _
  unfold decodeStrand; rw [majorOpcode_cat _ _ 80 rfl]
  show decodeAmo _ = _
  unfold decodeAmo
  simp [bits_cat_low, bits_cat_high, bits_all] <;> rfl

theorem RoundTrip.amoSmax (d a b s) : RoundTrip.Statement (.amoSmax d a b s) := by
  refine ⟨rfl, ?_⟩
  show decodeStrand (cat 80#7 (cat 0#1 (cat d (cat a (cat b (cat s 4#4 rfl) rfl) rfl) rfl) rfl) rfl) = _
  unfold decodeStrand; rw [majorOpcode_cat _ _ 80 rfl]
  show decodeAmo _ = _
  unfold decodeAmo
  simp [bits_cat_low, bits_cat_high, bits_all] <;> rfl

theorem RoundTrip.amoSmin (d a b s) : RoundTrip.Statement (.amoSmin d a b s) := by
  refine ⟨rfl, ?_⟩
  show decodeStrand (cat 80#7 (cat 0#1 (cat d (cat a (cat b (cat s 5#4 rfl) rfl) rfl) rfl) rfl) rfl) = _
  unfold decodeStrand; rw [majorOpcode_cat _ _ 80 rfl]
  show decodeAmo _ = _
  unfold decodeAmo
  simp [bits_cat_low, bits_cat_high, bits_all] <;> rfl

theorem RoundTrip.amoUmax (d a b s) : RoundTrip.Statement (.amoUmax d a b s) := by
  refine ⟨rfl, ?_⟩
  show decodeStrand (cat 80#7 (cat 0#1 (cat d (cat a (cat b (cat s 6#4 rfl) rfl) rfl) rfl) rfl) rfl) = _
  unfold decodeStrand; rw [majorOpcode_cat _ _ 80 rfl]
  show decodeAmo _ = _
  unfold decodeAmo
  simp [bits_cat_low, bits_cat_high, bits_all] <;> rfl

theorem RoundTrip.amoUmin (d a b s) : RoundTrip.Statement (.amoUmin d a b s) := by
  refine ⟨rfl, ?_⟩
  show decodeStrand (cat 80#7 (cat 0#1 (cat d (cat a (cat b (cat s 7#4 rfl) rfl) rfl) rfl) rfl) rfl) = _
  unfold decodeStrand; rw [majorOpcode_cat _ _ 80 rfl]
  show decodeAmo _ = _
  unfold decodeAmo
  simp [bits_cat_low, bits_cat_high, bits_all] <;> rfl

theorem RoundTrip.amoSwap (d a b s) : RoundTrip.Statement (.amoSwap d a b s) := by
  refine ⟨rfl, ?_⟩
  show decodeStrand (cat 80#7 (cat 0#1 (cat d (cat a (cat b (cat s 8#4 rfl) rfl) rfl) rfl) rfl) rfl) = _
  unfold decodeStrand; rw [majorOpcode_cat _ _ 80 rfl]
  show decodeAmo _ = _
  unfold decodeAmo
  simp [bits_cat_low, bits_cat_high, bits_all] <;> rfl

theorem RoundTrip.amoCas (d a b s) : RoundTrip.Statement (.amoCas d a b s) := by
  refine ⟨rfl, ?_⟩
  show decodeStrand (cat 80#7 (cat 0#1 (cat d (cat a (cat b (cat s 9#4 rfl) rfl) rfl) rfl) rfl) rfl) = _
  unfold decodeStrand; rw [majorOpcode_cat _ _ 80 rfl]
  show decodeAmo _ = _
  unfold decodeAmo
  simp [bits_cat_low, bits_cat_high, bits_all] <;> rfl

theorem RoundTrip.waita (d a m w) : RoundTrip.Statement (.waita d a m w) := by
  refine ⟨rfl, ?_⟩
  show decodeStrand (cat 81#7 (cat 0#1 (cat d (cat a (cat m (cat w 0#5 rfl) rfl) rfl) rfl) rfl) rfl) = _
  unfold decodeStrand; rw [majorOpcode_cat _ _ 81 rfl]
  show ite _ _ _ = _
  simp [bits_cat_low, bits_cat_high, bits_all] <;> rfl

theorem RoundTrip.facq (s) : RoundTrip.Statement (.facq s) := by
  refine ⟨rfl, ?_⟩
  show decodeStrand (cat 82#7 (cat 0#1 (cat 0#3 (cat s 0#18 rfl) rfl) rfl) rfl) = _
  unfold decodeStrand; rw [majorOpcode_cat _ _ 82 rfl]
  show decodeFence _ = _
  unfold decodeFence
  simp [bits_cat_low, bits_cat_high, bits_all] <;> rfl

theorem RoundTrip.frel (s) : RoundTrip.Statement (.frel s) := by
  refine ⟨rfl, ?_⟩
  show decodeStrand (cat 82#7 (cat 0#1 (cat 0#3 (cat s 1#18 rfl) rfl) rfl) rfl) = _
  unfold decodeStrand; rw [majorOpcode_cat _ _ 82 rfl]
  show decodeFence _ = _
  unfold decodeFence
  simp [bits_cat_low, bits_cat_high, bits_all] <;> rfl

theorem RoundTrip.facqrel (s) : RoundTrip.Statement (.facqrel s) := by
  refine ⟨rfl, ?_⟩
  show decodeStrand (cat 82#7 (cat 0#1 (cat 0#3 (cat s 2#18 rfl) rfl) rfl) rfl) = _
  unfold decodeStrand; rw [majorOpcode_cat _ _ 82 rfl]
  show decodeFence _ = _
  unfold decodeFence
  simp [bits_cat_low, bits_cat_high, bits_all] <;> rfl

theorem RoundTrip.cinv (a b) : RoundTrip.Statement (.cinv a b) := by
  refine ⟨rfl, ?_⟩
  show decodeStrand (cat 82#7 (cat 0#1 (cat 0#6 (cat a (cat b 3#6 rfl) rfl) rfl) rfl) rfl) = _
  unfold decodeStrand; rw [majorOpcode_cat _ _ 82 rfl]
  show decodeFence _ = _
  unfold decodeFence
  simp [bits_cat_low, bits_cat_high, bits_all] <;> rfl

theorem RoundTrip.dcfence (a b) : RoundTrip.Statement (.dcfence a b) := by
  refine ⟨rfl, ?_⟩
  show decodeStrand (cat 82#7 (cat 0#1 (cat 0#6 (cat a (cat b 4#6 rfl) rfl) rfl) rfl) rfl) = _
  unfold decodeStrand; rw [majorOpcode_cat _ _ 82 rfl]
  show decodeFence _ = _
  unfold decodeFence
  simp [bits_cat_low, bits_cat_high, bits_all] <;> rfl

theorem RoundTrip.sbaseD (s h x l i) : RoundTrip.Statement (.sbaseD s h x l i) := by
  refine ⟨rfl, ?_⟩
  show decodeStrand (cat 83#7 (cat 0#1 (cat 0#2 (cat s (cat h (cat x (cat l (cat 0#4 i rfl) rfl) rfl) rfl) rfl) rfl) rfl) rfl) = _
  unfold decodeStrand; rw [majorOpcode_cat _ _ 83 rfl]
  show ite _ _ _ = _
  simp [bits_cat_low, bits_cat_high, bits_all] <;> rfl

theorem RoundTrip.sbase (s a i) : RoundTrip.Statement (.sbase s a i) := by
  refine ⟨rfl, ?_⟩
  show decodeStrand (cat 84#7 (cat 0#1 (cat 0#2 (cat s (cat a i rfl) rfl) rfl) rfl) rfl) = _
  unfold decodeStrand; rw [majorOpcode_cat _ _ 84 rfl]
  show ite _ _ _ = _
  simp [bits_cat_low, bits_cat_high, bits_all] <;> rfl

theorem RoundTrip.sld (s a w i) : RoundTrip.Statement (.sld s a w i) := by
  refine ⟨rfl, ?_⟩
  show decodeStrand (cat 85#7 (cat 0#1 (cat 0#2 (cat s (cat a (cat 0#3 (cat w i rfl) rfl) rfl) rfl) rfl) rfl) rfl) = _
  unfold decodeStrand; rw [majorOpcode_cat _ _ 85 rfl]
  show ite _ _ _ = _
  simp [bits_cat_low, bits_cat_high, bits_all] <;> rfl

theorem RoundTrip.sst (s a w i) : RoundTrip.Statement (.sst s a w i) := by
  refine ⟨rfl, ?_⟩
  show decodeStrand (cat 86#7 (cat 0#1 (cat 0#2 (cat s (cat a (cat 0#3 (cat w i rfl) rfl) rfl) rfl) rfl) rfl) rfl) = _
  unfold decodeStrand; rw [majorOpcode_cat _ _ 86 rfl]
  show ite _ _ _ = _
  simp [bits_cat_low, bits_cat_high, bits_all] <;> rfl

theorem RoundTrip.sset (s a k) : RoundTrip.Statement (.sset s a k) := by
  refine ⟨rfl, ?_⟩
  show decodeStrand (cat 87#7 (cat 0#1 (cat 0#2 (cat s (cat a (cat 0#10 k rfl) rfl) rfl) rfl) rfl) rfl) = _
  unfold decodeStrand; rw [majorOpcode_cat _ _ 87 rfl]
  show ite _ _ _ = _
  simp [bits_cat_low, bits_cat_high, bits_all] <;> rfl

theorem RoundTrip.sget (d s k) : RoundTrip.Statement (.sget d s k) := by
  refine ⟨rfl, ?_⟩
  show decodeStrand (cat 88#7 (cat 0#1 (cat d (cat 0#2 (cat s (cat 0#10 k rfl) rfl) rfl) rfl) rfl) rfl) = _
  unfold decodeStrand; rw [majorOpcode_cat _ _ 88 rfl]
  show ite _ _ _ = _
  simp [bits_cat_low, bits_cat_high, bits_all] <;> rfl

theorem RoundTrip.xpop (d w) : RoundTrip.Statement (.xpop d w) := by
  refine ⟨rfl, ?_⟩
  show decodeStrand (cat 89#7 (cat 0#1 (cat d (cat 0#14 w rfl) rfl) rfl) rfl) = _
  unfold decodeStrand; rw [majorOpcode_cat _ _ 89 rfl]
  show decodeXfer _ = _
  unfold decodeXfer
  simp [bits_cat_low, bits_cat_high, bits_all] <;> rfl

theorem RoundTrip.xpush (a w) : RoundTrip.Statement (.xpush a w) := by
  refine ⟨rfl, ?_⟩
  show decodeStrand (cat 89#7 (cat 1#1 (cat 0#6 (cat a (cat 0#8 w rfl) rfl) rfl) rfl) rfl) = _
  unfold decodeStrand; rw [majorOpcode_cat _ _ 89 rfl]
  show decodeXfer _ = _
  unfold decodeXfer
  simp [bits_cat_low, bits_cat_high, bits_all] <;> rfl

theorem RoundTrip.cvt (d a r t s) : RoundTrip.Statement (.cvt d a r t s) := by
  refine ⟨rfl, ?_⟩
  show decodeStrand (cat 90#7 (cat 1#1 (cat d (cat a (cat r (cat 0#3 (cat t s rfl) rfl) rfl) rfl) rfl) rfl) rfl) = _
  unfold decodeStrand; rw [majorOpcode_cat _ _ 90 rfl]
  show ite _ _ _ = _
  simp [bits_cat_low, bits_cat_high, bits_all] <;> rfl

theorem RoundTrip.vadd (d a b f r) : RoundTrip.Statement (.vadd d a b f r) := by
  refine ⟨rfl, ?_⟩
  show decodeStrand (cat 96#7 (cat 1#1 (cat d (cat a (cat b (cat f (cat r 0#5 rfl) rfl) rfl) rfl) rfl) rfl) rfl) = _
  unfold decodeStrand; rw [majorOpcode_cat _ _ 96 rfl]
  show decodeVop _ = _
  unfold decodeVop
  simp [bits_cat_low, bits_cat_high, bits_all] <;> rfl

theorem RoundTrip.vsub (d a b f r) : RoundTrip.Statement (.vsub d a b f r) := by
  refine ⟨rfl, ?_⟩
  show decodeStrand (cat 96#7 (cat 1#1 (cat d (cat a (cat b (cat f (cat r 1#5 rfl) rfl) rfl) rfl) rfl) rfl) rfl) = _
  unfold decodeStrand; rw [majorOpcode_cat _ _ 96 rfl]
  show decodeVop _ = _
  unfold decodeVop
  simp [bits_cat_low, bits_cat_high, bits_all] <;> rfl

theorem RoundTrip.vmul (d a b f r) : RoundTrip.Statement (.vmul d a b f r) := by
  refine ⟨rfl, ?_⟩
  show decodeStrand (cat 96#7 (cat 1#1 (cat d (cat a (cat b (cat f (cat r 2#5 rfl) rfl) rfl) rfl) rfl) rfl) rfl) = _
  unfold decodeStrand; rw [majorOpcode_cat _ _ 96 rfl]
  show decodeVop _ = _
  unfold decodeVop
  simp [bits_cat_low, bits_cat_high, bits_all] <;> rfl

theorem RoundTrip.vfma (d a b f r) : RoundTrip.Statement (.vfma d a b f r) := by
  refine ⟨rfl, ?_⟩
  show decodeStrand (cat 96#7 (cat 1#1 (cat d (cat a (cat b (cat f (cat r 3#5 rfl) rfl) rfl) rfl) rfl) rfl) rfl) = _
  unfold decodeStrand; rw [majorOpcode_cat _ _ 96 rfl]
  show decodeVop _ = _
  unfold decodeVop
  simp [bits_cat_low, bits_cat_high, bits_all] <;> rfl

theorem RoundTrip.vdiv (d a b f r) : RoundTrip.Statement (.vdiv d a b f r) := by
  refine ⟨rfl, ?_⟩
  show decodeStrand (cat 96#7 (cat 1#1 (cat d (cat a (cat b (cat f (cat r 4#5 rfl) rfl) rfl) rfl) rfl) rfl) rfl) = _
  unfold decodeStrand; rw [majorOpcode_cat _ _ 96 rfl]
  show decodeVop _ = _
  unfold decodeVop
  simp [bits_cat_low, bits_cat_high, bits_all] <;> rfl

theorem RoundTrip.vsqrt (d a f r) : RoundTrip.Statement (.vsqrt d a f r) := by
  refine ⟨rfl, ?_⟩
  show decodeStrand (cat 96#7 (cat 1#1 (cat d (cat a (cat 0#4 (cat f (cat r 5#5 rfl) rfl) rfl) rfl) rfl) rfl) rfl) = _
  unfold decodeStrand; rw [majorOpcode_cat _ _ 96 rfl]
  show decodeVop _ = _
  unfold decodeVop
  simp [bits_cat_low, bits_cat_high, bits_all] <;> rfl

theorem RoundTrip.vneg (d a f r) : RoundTrip.Statement (.vneg d a f r) := by
  refine ⟨rfl, ?_⟩
  show decodeStrand (cat 96#7 (cat 1#1 (cat d (cat a (cat 0#4 (cat f (cat r 6#5 rfl) rfl) rfl) rfl) rfl) rfl) rfl) = _
  unfold decodeStrand; rw [majorOpcode_cat _ _ 96 rfl]
  show decodeVop _ = _
  unfold decodeVop
  simp [bits_cat_low, bits_cat_high, bits_all] <;> rfl

theorem RoundTrip.vabs (d a f r) : RoundTrip.Statement (.vabs d a f r) := by
  refine ⟨rfl, ?_⟩
  show decodeStrand (cat 96#7 (cat 1#1 (cat d (cat a (cat 0#4 (cat f (cat r 7#5 rfl) rfl) rfl) rfl) rfl) rfl) rfl) = _
  unfold decodeStrand; rw [majorOpcode_cat _ _ 96 rfl]
  show decodeVop _ = _
  unfold decodeVop
  simp [bits_cat_low, bits_cat_high, bits_all] <;> rfl

theorem RoundTrip.vmin (d a b f r) : RoundTrip.Statement (.vmin d a b f r) := by
  refine ⟨rfl, ?_⟩
  show decodeStrand (cat 96#7 (cat 1#1 (cat d (cat a (cat b (cat f (cat r 8#5 rfl) rfl) rfl) rfl) rfl) rfl) rfl) = _
  unfold decodeStrand; rw [majorOpcode_cat _ _ 96 rfl]
  show decodeVop _ = _
  unfold decodeVop
  simp [bits_cat_low, bits_cat_high, bits_all] <;> rfl

theorem RoundTrip.vmax (d a b f r) : RoundTrip.Statement (.vmax d a b f r) := by
  refine ⟨rfl, ?_⟩
  show decodeStrand (cat 96#7 (cat 1#1 (cat d (cat a (cat b (cat f (cat r 9#5 rfl) rfl) rfl) rfl) rfl) rfl) rfl) = _
  unfold decodeStrand; rw [majorOpcode_cat _ _ 96 rfl]
  show decodeVop _ = _
  unfold decodeVop
  simp [bits_cat_low, bits_cat_high, bits_all] <;> rfl

theorem RoundTrip.vmov (d a f r) : RoundTrip.Statement (.vmov d a f r) := by
  refine ⟨rfl, ?_⟩
  show decodeStrand (cat 96#7 (cat 1#1 (cat d (cat a (cat 0#4 (cat f (cat r 10#5 rfl) rfl) rfl) rfl) rfl) rfl) rfl) = _
  unfold decodeStrand; rw [majorOpcode_cat _ _ 96 rfl]
  show decodeVop _ = _
  unfold decodeVop
  simp [bits_cat_low, bits_cat_high, bits_all] <;> rfl

theorem RoundTrip.vadds (d a b f r) : RoundTrip.Statement (.vadds d a b f r) := by
  refine ⟨rfl, ?_⟩
  show decodeStrand (cat 96#7 (cat 1#1 (cat d (cat a (cat b (cat f (cat r 11#5 rfl) rfl) rfl) rfl) rfl) rfl) rfl) = _
  unfold decodeStrand; rw [majorOpcode_cat _ _ 96 rfl]
  show decodeVop _ = _
  unfold decodeVop
  simp [bits_cat_low, bits_cat_high, bits_all] <;> rfl

theorem RoundTrip.vsubs (d a b f r) : RoundTrip.Statement (.vsubs d a b f r) := by
  refine ⟨rfl, ?_⟩
  show decodeStrand (cat 96#7 (cat 1#1 (cat d (cat a (cat b (cat f (cat r 12#5 rfl) rfl) rfl) rfl) rfl) rfl) rfl) = _
  unfold decodeStrand; rw [majorOpcode_cat _ _ 96 rfl]
  show decodeVop _ = _
  unfold decodeVop
  simp [bits_cat_low, bits_cat_high, bits_all] <;> rfl

theorem RoundTrip.vand (d a b f r) : RoundTrip.Statement (.vand d a b f r) := by
  refine ⟨rfl, ?_⟩
  show decodeStrand (cat 96#7 (cat 1#1 (cat d (cat a (cat b (cat f (cat r 13#5 rfl) rfl) rfl) rfl) rfl) rfl) rfl) = _
  unfold decodeStrand; rw [majorOpcode_cat _ _ 96 rfl]
  show decodeVop _ = _
  unfold decodeVop
  simp [bits_cat_low, bits_cat_high, bits_all] <;> rfl

theorem RoundTrip.vor (d a b f r) : RoundTrip.Statement (.vor d a b f r) := by
  refine ⟨rfl, ?_⟩
  show decodeStrand (cat 96#7 (cat 1#1 (cat d (cat a (cat b (cat f (cat r 14#5 rfl) rfl) rfl) rfl) rfl) rfl) rfl) = _
  unfold decodeStrand; rw [majorOpcode_cat _ _ 96 rfl]
  show decodeVop _ = _
  unfold decodeVop
  simp [bits_cat_low, bits_cat_high, bits_all] <;> rfl

theorem RoundTrip.vxor (d a b f r) : RoundTrip.Statement (.vxor d a b f r) := by
  refine ⟨rfl, ?_⟩
  show decodeStrand (cat 96#7 (cat 1#1 (cat d (cat a (cat b (cat f (cat r 15#5 rfl) rfl) rfl) rfl) rfl) rfl) rfl) = _
  unfold decodeStrand; rw [majorOpcode_cat _ _ 96 rfl]
  show decodeVop _ = _
  unfold decodeVop
  simp [bits_cat_low, bits_cat_high, bits_all] <;> rfl

theorem RoundTrip.vshl (d a b f r) : RoundTrip.Statement (.vshl d a b f r) := by
  refine ⟨rfl, ?_⟩
  show decodeStrand (cat 96#7 (cat 1#1 (cat d (cat a (cat b (cat f (cat r 16#5 rfl) rfl) rfl) rfl) rfl) rfl) rfl) = _
  unfold decodeStrand; rw [majorOpcode_cat _ _ 96 rfl]
  show decodeVop _ = _
  unfold decodeVop
  simp [bits_cat_low, bits_cat_high, bits_all] <;> rfl

theorem RoundTrip.vshr (d a b f r) : RoundTrip.Statement (.vshr d a b f r) := by
  refine ⟨rfl, ?_⟩
  show decodeStrand (cat 96#7 (cat 1#1 (cat d (cat a (cat b (cat f (cat r 17#5 rfl) rfl) rfl) rfl) rfl) rfl) rfl) = _
  unfold decodeStrand; rw [majorOpcode_cat _ _ 96 rfl]
  show decodeVop _ = _
  unfold decodeVop
  simp [bits_cat_low, bits_cat_high, bits_all] <;> rfl

theorem RoundTrip.vsra (d a b f r) : RoundTrip.Statement (.vsra d a b f r) := by
  refine ⟨rfl, ?_⟩
  show decodeStrand (cat 96#7 (cat 1#1 (cat d (cat a (cat b (cat f (cat r 18#5 rfl) rfl) rfl) rfl) rfl) rfl) rfl) = _
  unfold decodeStrand; rw [majorOpcode_cat _ _ 96 rfl]
  show decodeVop _ = _
  unfold decodeVop
  simp [bits_cat_low, bits_cat_high, bits_all] <;> rfl

theorem RoundTrip.vexp (d a f r) : RoundTrip.Statement (.vexp d a f r) := by
  refine ⟨rfl, ?_⟩
  show decodeStrand (cat 96#7 (cat 1#1 (cat d (cat a (cat 0#4 (cat f (cat r 19#5 rfl) rfl) rfl) rfl) rfl) rfl) rfl) = _
  unfold decodeStrand; rw [majorOpcode_cat _ _ 96 rfl]
  show decodeVop _ = _
  unfold decodeVop
  simp [bits_cat_low, bits_cat_high, bits_all] <;> rfl

theorem RoundTrip.vlog (d a f r) : RoundTrip.Statement (.vlog d a f r) := by
  refine ⟨rfl, ?_⟩
  show decodeStrand (cat 96#7 (cat 1#1 (cat d (cat a (cat 0#4 (cat f (cat r 20#5 rfl) rfl) rfl) rfl) rfl) rfl) rfl) = _
  unfold decodeStrand; rw [majorOpcode_cat _ _ 96 rfl]
  show decodeVop _ = _
  unfold decodeVop
  simp [bits_cat_low, bits_cat_high, bits_all] <;> rfl

theorem RoundTrip.vrsqrt (d a f r) : RoundTrip.Statement (.vrsqrt d a f r) := by
  refine ⟨rfl, ?_⟩
  show decodeStrand (cat 96#7 (cat 1#1 (cat d (cat a (cat 0#4 (cat f (cat r 21#5 rfl) rfl) rfl) rfl) rfl) rfl) rfl) = _
  unfold decodeStrand; rw [majorOpcode_cat _ _ 96 rfl]
  show decodeVop _ = _
  unfold decodeVop
  simp [bits_cat_low, bits_cat_high, bits_all] <;> rfl

theorem RoundTrip.vtanh (d a f r) : RoundTrip.Statement (.vtanh d a f r) := by
  refine ⟨rfl, ?_⟩
  show decodeStrand (cat 96#7 (cat 1#1 (cat d (cat a (cat 0#4 (cat f (cat r 22#5 rfl) rfl) rfl) rfl) rfl) rfl) rfl) = _
  unfold decodeStrand; rw [majorOpcode_cat _ _ 96 rfl]
  show decodeVop _ = _
  unfold decodeVop
  simp [bits_cat_low, bits_cat_high, bits_all] <;> rfl

theorem RoundTrip.vsigm (d a f r) : RoundTrip.Statement (.vsigm d a f r) := by
  refine ⟨rfl, ?_⟩
  show decodeStrand (cat 96#7 (cat 1#1 (cat d (cat a (cat 0#4 (cat f (cat r 23#5 rfl) rfl) rfl) rfl) rfl) rfl) rfl) = _
  unfold decodeStrand; rw [majorOpcode_cat _ _ 96 rfl]
  show decodeVop _ = _
  unfold decodeVop
  simp [bits_cat_low, bits_cat_high, bits_all] <;> rfl

theorem RoundTrip.vrsum (d a f) : RoundTrip.Statement (.vrsum d a f) := by
  refine ⟨rfl, ?_⟩
  show decodeStrand (cat 97#7 (cat 1#1 (cat d (cat a (cat 0#4 (cat f 0#8 rfl) rfl) rfl) rfl) rfl) rfl) = _
  unfold decodeStrand; rw [majorOpcode_cat _ _ 97 rfl]
  show decodeVred _ = _
  unfold decodeVred
  simp [bits_cat_low, bits_cat_high, bits_all] <;> rfl

theorem RoundTrip.vdot (d a b f) : RoundTrip.Statement (.vdot d a b f) := by
  refine ⟨rfl, ?_⟩
  show decodeStrand (cat 97#7 (cat 1#1 (cat d (cat a (cat b (cat f 1#8 rfl) rfl) rfl) rfl) rfl) rfl) = _
  unfold decodeStrand; rw [majorOpcode_cat _ _ 97 rfl]
  show decodeVred _ = _
  unfold decodeVred
  simp [bits_cat_low, bits_cat_high, bits_all] <;> rfl

theorem RoundTrip.vrmax (d a f) : RoundTrip.Statement (.vrmax d a f) := by
  refine ⟨rfl, ?_⟩
  show decodeStrand (cat 97#7 (cat 1#1 (cat d (cat a (cat 0#4 (cat f 2#8 rfl) rfl) rfl) rfl) rfl) rfl) = _
  unfold decodeStrand; rw [majorOpcode_cat _ _ 97 rfl]
  show decodeVred _ = _
  unfold decodeVred
  simp [bits_cat_low, bits_cat_high, bits_all] <;> rfl

theorem RoundTrip.vrmin (d a f) : RoundTrip.Statement (.vrmin d a f) := by
  refine ⟨rfl, ?_⟩
  show decodeStrand (cat 97#7 (cat 1#1 (cat d (cat a (cat 0#4 (cat f 3#8 rfl) rfl) rfl) rfl) rfl) rfl) = _
  unfold decodeStrand; rw [majorOpcode_cat _ _ 97 rfl]
  show decodeVred _ = _
  unfold decodeVred
  simp [bits_cat_low, bits_cat_high, bits_all] <;> rfl

theorem RoundTrip.vrsums (d a f) : RoundTrip.Statement (.vrsums d a f) := by
  refine ⟨rfl, ?_⟩
  show decodeStrand (cat 97#7 (cat 1#1 (cat d (cat a (cat 0#4 (cat f 4#8 rfl) rfl) rfl) rfl) rfl) rfl) = _
  unfold decodeStrand; rw [majorOpcode_cat _ _ 97 rfl]
  show decodeVred _ = _
  unfold decodeVred
  simp [bits_cat_low, bits_cat_high, bits_all] <;> rfl

theorem RoundTrip.vdots (d a b f) : RoundTrip.Statement (.vdots d a b f) := by
  refine ⟨rfl, ?_⟩
  show decodeStrand (cat 97#7 (cat 1#1 (cat d (cat a (cat b (cat f 5#8 rfl) rfl) rfl) rfl) rfl) rfl) = _
  unfold decodeStrand; rw [majorOpcode_cat _ _ 97 rfl]
  show decodeVred _ = _
  unfold decodeVred
  simp [bits_cat_low, bits_cat_high, bits_all] <;> rfl

theorem RoundTrip.vcvt (d a f r) : RoundTrip.Statement (.vcvt d a f r) := by
  refine ⟨rfl, ?_⟩
  show decodeStrand (cat 98#7 (cat 1#1 (cat d (cat a (cat 0#4 (cat f (cat r 0#5 rfl) rfl) rfl) rfl) rfl) rfl) rfl) = _
  unfold decodeStrand; rw [majorOpcode_cat _ _ 98 rfl]
  show decodeVcvt _ = _
  unfold decodeVcvt
  simp [bits_cat_low, bits_cat_high, bits_all] <;> rfl

theorem RoundTrip.vcvtH16 (d a f r) : RoundTrip.Statement (.vcvtH16 d a f r) := by
  refine ⟨rfl, ?_⟩
  show decodeStrand (cat 98#7 (cat 1#1 (cat d (cat a (cat 0#4 (cat f (cat r 1#5 rfl) rfl) rfl) rfl) rfl) rfl) rfl) = _
  unfold decodeStrand; rw [majorOpcode_cat _ _ 98 rfl]
  show decodeVcvt _ = _
  unfold decodeVcvt
  simp [bits_cat_low, bits_cat_high, bits_all] <;> rfl

theorem RoundTrip.vcvtH32 (d a f r) : RoundTrip.Statement (.vcvtH32 d a f r) := by
  refine ⟨rfl, ?_⟩
  show decodeStrand (cat 98#7 (cat 1#1 (cat d (cat a (cat 0#4 (cat f (cat r 2#5 rfl) rfl) rfl) rfl) rfl) rfl) rfl) = _
  unfold decodeStrand; rw [majorOpcode_cat _ _ 98 rfl]
  show decodeVcvt _ = _
  unfold decodeVcvt
  simp [bits_cat_low, bits_cat_high, bits_all] <;> rfl

theorem RoundTrip.vsign (d a f r) : RoundTrip.Statement (.vsign d a f r) := by
  refine ⟨rfl, ?_⟩
  show decodeStrand (cat 99#7 (cat 1#1 (cat d (cat a (cat 0#4 (cat f (cat r 0#5 rfl) rfl) rfl) rfl) rfl) rfl) rfl) = _
  unfold decodeStrand; rw [majorOpcode_cat _ _ 99 rfl]
  show decodeVdec _ = _
  unfold decodeVdec
  simp [bits_cat_low, bits_cat_high, bits_all] <;> rfl

theorem RoundTrip.vcmpgt (d a b f r) : RoundTrip.Statement (.vcmpgt d a b f r) := by
  refine ⟨rfl, ?_⟩
  show decodeStrand (cat 99#7 (cat 1#1 (cat d (cat a (cat b (cat f (cat r 1#5 rfl) rfl) rfl) rfl) rfl) rfl) rfl) = _
  unfold decodeStrand; rw [majorOpcode_cat _ _ 99 rfl]
  show decodeVdec _ = _
  unfold decodeVdec
  simp [bits_cat_low, bits_cat_high, bits_all] <;> rfl

theorem RoundTrip.vcmpge (d a b f r) : RoundTrip.Statement (.vcmpge d a b f r) := by
  refine ⟨rfl, ?_⟩
  show decodeStrand (cat 99#7 (cat 1#1 (cat d (cat a (cat b (cat f (cat r 2#5 rfl) rfl) rfl) rfl) rfl) rfl) rfl) = _
  unfold decodeStrand; rw [majorOpcode_cat _ _ 99 rfl]
  show decodeVdec _ = _
  unfold decodeVdec
  simp [bits_cat_low, bits_cat_high, bits_all] <;> rfl

theorem RoundTrip.vcmpeq (d a b f r) : RoundTrip.Statement (.vcmpeq d a b f r) := by
  refine ⟨rfl, ?_⟩
  show decodeStrand (cat 99#7 (cat 1#1 (cat d (cat a (cat b (cat f (cat r 3#5 rfl) rfl) rfl) rfl) rfl) rfl) rfl) = _
  unfold decodeStrand; rw [majorOpcode_cat _ _ 99 rfl]
  show decodeVdec _ = _
  unfold decodeVdec
  simp [bits_cat_low, bits_cat_high, bits_all] <;> rfl

theorem RoundTrip.vthr (d a b f r) : RoundTrip.Statement (.vthr d a b f r) := by
  refine ⟨rfl, ?_⟩
  show decodeStrand (cat 99#7 (cat 1#1 (cat d (cat a (cat b (cat f (cat r 4#5 rfl) rfl) rfl) rfl) rfl) rfl) rfl) = _
  unfold decodeStrand; rw [majorOpcode_cat _ _ 99 rfl]
  show decodeVdec _ = _
  unfold decodeVdec
  simp [bits_cat_low, bits_cat_high, bits_all] <;> rfl

theorem RoundTrip.vargmax (d a f r) : RoundTrip.Statement (.vargmax d a f r) := by
  refine ⟨rfl, ?_⟩
  show decodeStrand (cat 99#7 (cat 1#1 (cat d (cat a (cat 0#4 (cat f (cat r 5#5 rfl) rfl) rfl) rfl) rfl) rfl) rfl) = _
  unfold decodeStrand; rw [majorOpcode_cat _ _ 99 rfl]
  show decodeVdec _ = _
  unfold decodeVdec
  simp [bits_cat_low, bits_cat_high, bits_all] <;> rfl

theorem RoundTrip.vargmin (d a f r) : RoundTrip.Statement (.vargmin d a f r) := by
  refine ⟨rfl, ?_⟩
  show decodeStrand (cat 99#7 (cat 1#1 (cat d (cat a (cat 0#4 (cat f (cat r 6#5 rfl) rfl) rfl) rfl) rfl) rfl) rfl) = _
  unfold decodeStrand; rw [majorOpcode_cat _ _ 99 rfl]
  show decodeVdec _ = _
  unfold decodeVdec
  simp [bits_cat_low, bits_cat_high, bits_all] <;> rfl

theorem RoundTrip.vtopk (d a f r) : RoundTrip.Statement (.vtopk d a f r) := by
  refine ⟨rfl, ?_⟩
  show decodeStrand (cat 99#7 (cat 1#1 (cat d (cat a (cat 0#4 (cat f (cat r 7#5 rfl) rfl) rfl) rfl) rfl) rfl) rfl) = _
  unfold decodeStrand; rw [majorOpcode_cat _ _ 99 rfl]
  show decodeVdec _ = _
  unfold decodeVdec
  simp [bits_cat_low, bits_cat_high, bits_all] <;> rfl

theorem RoundTrip.mmz (t a b) : RoundTrip.Statement (.mmz t a b) := by
  refine ⟨rfl, ?_⟩
  show decodeStrand (cat 101#7 (cat 0#1 (cat t (cat a (cat b 0#6 rfl) rfl) rfl) rfl) rfl) = _
  unfold decodeStrand; rw [majorOpcode_cat _ _ 101 rfl]
  show decodeMat _ = _
  unfold decodeMat
  simp [bits_cat_low, bits_cat_high, bits_all] <;> rfl

theorem RoundTrip.mma (t a b) : RoundTrip.Statement (.mma t a b) := by
  refine ⟨rfl, ?_⟩
  show decodeStrand (cat 101#7 (cat 0#1 (cat t (cat a (cat b 1#6 rfl) rfl) rfl) rfl) rfl) = _
  unfold decodeStrand; rw [majorOpcode_cat _ _ 101 rfl]
  show decodeMat _ = _
  unfold decodeMat
  simp [bits_cat_low, bits_cat_high, bits_all] <;> rfl

theorem RoundTrip.mdr (t a b) : RoundTrip.Statement (.mdr t a b) := by
  refine ⟨rfl, ?_⟩
  show decodeStrand (cat 101#7 (cat 0#1 (cat t (cat a (cat b 2#6 rfl) rfl) rfl) rfl) rfl) = _
  unfold decodeStrand; rw [majorOpcode_cat _ _ 101 rfl]
  show decodeMat _ = _
  unfold decodeMat
  simp [bits_cat_low, bits_cat_high, bits_all] <;> rfl

theorem RoundTrip.mxz (t a b) : RoundTrip.Statement (.mxz t a b) := by
  refine ⟨rfl, ?_⟩
  show decodeStrand (cat 101#7 (cat 0#1 (cat t (cat a (cat b 3#6 rfl) rfl) rfl) rfl) rfl) = _
  unfold decodeStrand; rw [majorOpcode_cat _ _ 101 rfl]
  show decodeMat _ = _
  unfold decodeMat
  simp [bits_cat_low, bits_cat_high, bits_all] <;> rfl

theorem RoundTrip.mxa (t a b) : RoundTrip.Statement (.mxa t a b) := by
  refine ⟨rfl, ?_⟩
  show decodeStrand (cat 101#7 (cat 0#1 (cat t (cat a (cat b 4#6 rfl) rfl) rfl) rfl) rfl) = _
  unfold decodeStrand; rw [majorOpcode_cat _ _ 101 rfl]
  show decodeMat _ = _
  unfold decodeMat
  simp [bits_cat_low, bits_cat_high, bits_all] <;> rfl

theorem RoundTrip.mld (t a b) : RoundTrip.Statement (.mld t a b) := by
  refine ⟨rfl, ?_⟩
  show decodeStrand (cat 101#7 (cat 0#1 (cat t (cat a (cat b 5#6 rfl) rfl) rfl) rfl) rfl) = _
  unfold decodeStrand; rw [majorOpcode_cat _ _ 101 rfl]
  show decodeMat _ = _
  unfold decodeMat
  simp [bits_cat_low, bits_cat_high, bits_all] <;> rfl

theorem RoundTrip.seg (a b) : RoundTrip.Statement (.seg a b) := by
  refine ⟨rfl, ?_⟩
  show decodeStrand (cat 101#7 (cat 0#1 (cat 0#6 (cat a (cat b 6#6 rfl) rfl) rfl) rfl) rfl) = _
  unfold decodeStrand; rw [majorOpcode_cat _ _ 101 rfl]
  show decodeMat _ = _
  unfold decodeMat
  simp [bits_cat_low, bits_cat_high, bits_all] <;> rfl

theorem RoundTrip.mxzHd16 (t a b) : RoundTrip.Statement (.mxzHd16 t a b) := by
  refine ⟨rfl, ?_⟩
  show decodeStrand (cat 101#7 (cat 0#1 (cat t (cat a (cat b 11#6 rfl) rfl) rfl) rfl) rfl) = _
  unfold decodeStrand; rw [majorOpcode_cat _ _ 101 rfl]
  show decodeMat _ = _
  unfold decodeMat
  simp [bits_cat_low, bits_cat_high, bits_all] <;> rfl

theorem RoundTrip.mxaHd16 (t a b) : RoundTrip.Statement (.mxaHd16 t a b) := by
  refine ⟨rfl, ?_⟩
  show decodeStrand (cat 101#7 (cat 0#1 (cat t (cat a (cat b 12#6 rfl) rfl) rfl) rfl) rfl) = _
  unfold decodeStrand; rw [majorOpcode_cat _ _ 101 rfl]
  show decodeMat _ = _
  unfold decodeMat
  simp [bits_cat_low, bits_cat_high, bits_all] <;> rfl

theorem RoundTrip.tget (d a) : RoundTrip.Statement (.tget d a) := by
  refine ⟨rfl, ?_⟩
  show decodeStrand (cat 101#7 (cat 0#1 (cat d (cat a 16#12 rfl) rfl) rfl) rfl) = _
  unfold decodeStrand; rw [majorOpcode_cat _ _ 101 rfl]
  show decodeMat _ = _
  unfold decodeMat
  simp [bits_cat_low, bits_cat_high, bits_all] <;> rfl

theorem RoundTrip.tput (a b) : RoundTrip.Statement (.tput a b) := by
  refine ⟨rfl, ?_⟩
  show decodeStrand (cat 101#7 (cat 0#1 (cat 0#6 (cat a (cat b 17#6 rfl) rfl) rfl) rfl) rfl) = _
  unfold decodeStrand; rw [majorOpcode_cat _ _ 101 rfl]
  show decodeMat _ = _
  unfold decodeMat
  simp [bits_cat_low, bits_cat_high, bits_all] <;> rfl

theorem RoundTrip.tkill (t) : RoundTrip.Statement (.tkill t) := by
  refine ⟨rfl, ?_⟩
  show decodeStrand (cat 101#7 (cat 0#1 (cat t 18#18 rfl) rfl) rfl) = _
  unfold decodeStrand; rw [majorOpcode_cat _ _ 101 rfl]
  show decodeMat _ = _
  unfold decodeMat
  simp [bits_cat_low, bits_cat_high, bits_all] <;> rfl

theorem RoundTrip.mxzHd32 (t a b) : RoundTrip.Statement (.mxzHd32 t a b) := by
  refine ⟨rfl, ?_⟩
  show decodeStrand (cat 101#7 (cat 0#1 (cat t (cat a (cat b 19#6 rfl) rfl) rfl) rfl) rfl) = _
  unfold decodeStrand; rw [majorOpcode_cat _ _ 101 rfl]
  show decodeMat _ = _
  unfold decodeMat
  simp [bits_cat_low, bits_cat_high, bits_all] <;> rfl

theorem RoundTrip.mxaHd32 (t a b) : RoundTrip.Statement (.mxaHd32 t a b) := by
  refine ⟨rfl, ?_⟩
  show decodeStrand (cat 101#7 (cat 0#1 (cat t (cat a (cat b 20#6 rfl) rfl) rfl) rfl) rfl) = _
  unfold decodeStrand; rw [majorOpcode_cat _ _ 101 rfl]
  show decodeMat _ = _
  unfold decodeMat
  simp [bits_cat_low, bits_cat_high, bits_all] <;> rfl

theorem RoundTrip.copy (a b n) : RoundTrip.Statement (.copy a b n) := by
  refine ⟨rfl, ?_⟩
  show decodeStrand (cat 102#7 (cat 0#1 (cat 0#6 (cat a (cat b (cat 0#5 n rfl) rfl) rfl) rfl) rfl) rfl) = _
  unfold decodeStrand; rw [majorOpcode_cat _ _ 102 rfl]
  show decodeCopy _ = _
  unfold decodeCopy
  simp [bits_cat_low, bits_cat_high, bits_all] <;> rfl

theorem RoundTrip.cnv (r a b) : RoundTrip.Statement (.cnv r a b) := by
  refine ⟨rfl, ?_⟩
  show decodeStrand (cat 103#7 (cat 0#1 (cat 0#3 (cat r (cat a (cat b 0#6 rfl) rfl) rfl) rfl) rfl) rfl) = _
  unfold decodeStrand; rw [majorOpcode_cat _ _ 103 rfl]
  show decodeCnv _ = _
  unfold decodeCnv
  simp [bits_cat_low, bits_cat_high, bits_all] <;> rfl

theorem RoundTrip.cnvH16 (r a b) : RoundTrip.Statement (.cnvH16 r a b) := by
  refine ⟨rfl, ?_⟩
  show decodeStrand (cat 103#7 (cat 0#1 (cat 0#3 (cat r (cat a (cat b 1#6 rfl) rfl) rfl) rfl) rfl) rfl) = _
  unfold decodeStrand; rw [majorOpcode_cat _ _ 103 rfl]
  show decodeCnv _ = _
  unfold decodeCnv
  simp [bits_cat_low, bits_cat_high, bits_all] <;> rfl

theorem RoundTrip.cnvH32 (r a b) : RoundTrip.Statement (.cnvH32 r a b) := by
  refine ⟨rfl, ?_⟩
  show decodeStrand (cat 103#7 (cat 0#1 (cat 0#3 (cat r (cat a (cat b 2#6 rfl) rfl) rfl) rfl) rfl) rfl) = _
  unfold decodeStrand; rw [majorOpcode_cat _ _ 103 rfl]
  show decodeCnv _ = _
  unfold decodeCnv
  simp [bits_cat_low, bits_cat_high, bits_all] <;> rfl

theorem RoundTrip.nbmv (d a b k) : RoundTrip.Statement (.nbmv d a b k) := by
  refine ⟨rfl, ?_⟩
  show decodeStrand (cat 104#7 (cat 0#1 (cat d (cat a (cat b (cat 0#3 k rfl) rfl) rfl) rfl) rfl) rfl) = _
  unfold decodeStrand; rw [majorOpcode_cat _ _ 104 rfl]
  show decodeNb _ = _
  unfold decodeNb
  simp [bits_cat_low, bits_cat_high, bits_all] <;> rfl

theorem RoundTrip.nbmva (d a b k) : RoundTrip.Statement (.nbmva d a b k) := by
  refine ⟨rfl, ?_⟩
  show decodeStrand (cat 104#7 (cat 0#1 (cat d (cat a (cat b (cat 1#3 k rfl) rfl) rfl) rfl) rfl) rfl) = _
  unfold decodeStrand; rw [majorOpcode_cat _ _ 104 rfl]
  show decodeNb _ = _
  unfold decodeNb
  simp [bits_cat_low, bits_cat_high, bits_all] <;> rfl

theorem RoundTrip.wqe (a b) : RoundTrip.Statement (.wqe a b) := by
  refine ⟨rfl, ?_⟩
  show decodeStrand (cat 105#7 (cat 0#1 (cat 0#6 (cat a (cat b 0#6 rfl) rfl) rfl) rfl) rfl) = _
  unfold decodeStrand; rw [majorOpcode_cat _ _ 105 rfl]
  show decodeWqe _ = _
  unfold decodeWqe
  simp [bits_cat_low, bits_cat_high, bits_all] <;> rfl

theorem RoundTrip.rapp (n a w) : RoundTrip.Statement (.rapp n a w) := by
  refine ⟨rfl, ?_⟩
  show decodeStrand (cat 106#7 (cat 0#1 (cat 0#3 (cat n (cat a (cat 0#8 w rfl) rfl) rfl) rfl) rfl) rfl) = _
  unfold decodeStrand; rw [majorOpcode_cat _ _ 106 rfl]
  show ite _ _ _ = _
  simp [bits_cat_low, bits_cat_high, bits_all] <;> rfl

theorem RoundTrip.publ (d a b) : RoundTrip.Statement (.publ d a b) := by
  refine ⟨rfl, ?_⟩
  show decodeStrand (cat 107#7 (cat 0#1 (cat d (cat a (cat b 0#6 rfl) rfl) rfl) rfl) rfl) = _
  unfold decodeStrand; rw [majorOpcode_cat _ _ 107 rfl]
  show decodeNotice _ = _
  unfold decodeNotice
  simp [bits_cat_low, bits_cat_high, bits_all] <;> rfl

theorem RoundTrip.pull (d a b) : RoundTrip.Statement (.pull d a b) := by
  refine ⟨rfl, ?_⟩
  show decodeStrand (cat 107#7 (cat 0#1 (cat d (cat a (cat b 1#6 rfl) rfl) rfl) rfl) rfl) = _
  unfold decodeStrand; rw [majorOpcode_cat _ _ 107 rfl]
  show decodeNotice _ = _
  unfold decodeNotice
  simp [bits_cat_low, bits_cat_high, bits_all] <;> rfl

theorem RoundTrip.decl (a) : RoundTrip.Statement (.decl a) := by
  refine ⟨rfl, ?_⟩
  show decodeStrand (cat 107#7 (cat 0#1 (cat 0#6 (cat a 2#12 rfl) rfl) rfl) rfl) = _
  unfold decodeStrand; rw [majorOpcode_cat _ _ 107 rfl]
  show decodeNotice _ = _
  unfold decodeNotice
  simp [bits_cat_low, bits_cat_high, bits_all] <;> rfl

theorem RoundTrip.ljoin (a b r) : RoundTrip.Statement (.ljoin a b r) := by
  refine ⟨rfl, ?_⟩
  show decodeStrand (cat 108#7 (cat 0#1 (cat 0#6 (cat a (cat b (cat 0#2 r rfl) rfl) rfl) rfl) rfl) rfl) = _
  unfold decodeStrand; rw [majorOpcode_cat _ _ 108 rfl]
  show decodeRegion _ = _
  unfold decodeRegion
  simp [bits_cat_low, bits_cat_high, bits_all] <;> rfl

theorem RoundTrip.linc (a b r) : RoundTrip.Statement (.linc a b r) := by
  refine ⟨rfl, ?_⟩
  show decodeStrand (cat 108#7 (cat 0#1 (cat 0#6 (cat a (cat b (cat 1#2 r rfl) rfl) rfl) rfl) rfl) rfl) = _
  unfold decodeStrand; rw [majorOpcode_cat _ _ 108 rfl]
  show decodeRegion _ = _
  unfold decodeRegion
  simp [bits_cat_low, bits_cat_high, bits_all] <;> rfl

theorem RoundTrip.lst (a b r) : RoundTrip.Statement (.lst a b r) := by
  refine ⟨rfl, ?_⟩
  show decodeStrand (cat 108#7 (cat 0#1 (cat 0#6 (cat a (cat b (cat 2#2 r rfl) rfl) rfl) rfl) rfl) rfl) = _
  unfold decodeStrand; rw [majorOpcode_cat _ _ 108 rfl]
  show decodeRegion _ = _
  unfold decodeRegion
  simp [bits_cat_low, bits_cat_high, bits_all] <;> rfl

theorem RoundTrip.lld (d a r) : RoundTrip.Statement (.lld d a r) := by
  refine ⟨rfl, ?_⟩
  show decodeStrand (cat 108#7 (cat 0#1 (cat d (cat a (cat 3#8 r rfl) rfl) rfl) rfl) rfl) = _
  unfold decodeStrand; rw [majorOpcode_cat _ _ 108 rfl]
  show decodeRegion _ = _
  unfold decodeRegion
  simp [bits_cat_low, bits_cat_high, bits_all] <;> rfl

theorem RoundTrip.lldt (d b w r) : RoundTrip.Statement (.lldt d b w r) := by
  refine ⟨rfl, ?_⟩
  show decodeStrand (cat 109#7 (cat 0#1 (cat d (cat b (cat 0#3 (cat w (cat 0#1 r rfl) rfl) rfl) rfl) rfl) rfl) rfl) = _
  unfold decodeStrand; rw [majorOpcode_cat _ _ 109 rfl]
  show ite _ _ _ = _
  simp [bits_cat_low, bits_cat_high, bits_all] <;> rfl

theorem RoundTrip.csrr (d n) : RoundTrip.Statement (.csrr d n) := by
  refine ⟨rfl, ?_⟩
  show decodeStrand (cat 112#7 (cat 0#1 (cat d (cat 0#6 n rfl) rfl) rfl) rfl) = _
  unfold decodeStrand; rw [majorOpcode_cat _ _ 112 rfl]
  show ite _ _ _ = _
  simp [bits_cat_low, bits_cat_high, bits_all] <;> rfl

theorem RoundTrip.csrw (a n) : RoundTrip.Statement (.csrw a n) := by
  refine ⟨rfl, ?_⟩
  show decodeStrand (cat 113#7 (cat 0#1 (cat 0#6 (cat a n rfl) rfl) rfl) rfl) = _
  unfold decodeStrand; rw [majorOpcode_cat _ _ 113 rfl]
  show ite _ _ _ = _
  simp [bits_cat_low, bits_cat_high, bits_all] <;> rfl

theorem RoundTrip.trap (n) : RoundTrip.Statement (.trap n) := by
  refine ⟨rfl, ?_⟩
  show decodeStrand (cat 114#7 (cat 0#1 (cat 0#12 n rfl) rfl) rfl) = _
  unfold decodeStrand; rw [majorOpcode_cat _ _ 114 rfl]
  show ite _ _ _ = _
  simp [bits_cat_low, bits_cat_high, bits_all] <;> rfl

theorem RoundTrip.mmzCmd (x t b) : RoundTrip.Statement (.mmzCmd x t b) := by
  refine ⟨rfl, ?_⟩
  show decodeRing 0 (cat 64#7 (cat x (cat t b rfl) rfl) rfl) = _
  unfold decodeRing decodeRing0; rw [majorOpcode_cat _ _ 64 rfl]
  simp [bits_cat_low, bits_cat_high, bits_all] <;> rfl

theorem RoundTrip.mmaCmd (x t b) : RoundTrip.Statement (.mmaCmd x t b) := by
  refine ⟨rfl, ?_⟩
  show decodeRing 0 (cat 65#7 (cat x (cat t b rfl) rfl) rfl) = _
  unfold decodeRing decodeRing0; rw [majorOpcode_cat _ _ 65 rfl]
  simp [bits_cat_low, bits_cat_high, bits_all] <;> rfl

theorem RoundTrip.mdrCmd (x t b) : RoundTrip.Statement (.mdrCmd x t b) := by
  refine ⟨rfl, ?_⟩
  show decodeRing 0 (cat 66#7 (cat x (cat t b rfl) rfl) rfl) = _
  unfold decodeRing decodeRing0; rw [majorOpcode_cat _ _ 66 rfl]
  simp [bits_cat_low, bits_cat_high, bits_all] <;> rfl

theorem RoundTrip.mxzCmd (x t h o) : RoundTrip.Statement (.mxzCmd x t h o) := by
  refine ⟨rfl, ?_⟩
  show decodeRing 0 (cat 67#7 (cat x (cat t (cat h o rfl) rfl) rfl) rfl) = _
  unfold decodeRing decodeRing0; rw [majorOpcode_cat _ _ 67 rfl]
  simp [bits_cat_low, bits_cat_high, bits_all] <;> rfl

theorem RoundTrip.mxaCmd (x t h o) : RoundTrip.Statement (.mxaCmd x t h o) := by
  refine ⟨rfl, ?_⟩
  show decodeRing 0 (cat 68#7 (cat x (cat t (cat h o rfl) rfl) rfl) rfl) = _
  unfold decodeRing decodeRing0; rw [majorOpcode_cat _ _ 68 rfl]
  simp [bits_cat_low, bits_cat_high, bits_all] <;> rfl

theorem RoundTrip.mldCmd (x t b) : RoundTrip.Statement (.mldCmd x t b) := by
  refine ⟨rfl, ?_⟩
  show decodeRing 0 (cat 69#7 (cat x (cat t b rfl) rfl) rfl) = _
  unfold decodeRing decodeRing0; rw [majorOpcode_cat _ _ 69 rfl]
  simp [bits_cat_low, bits_cat_high, bits_all] <;> rfl

theorem RoundTrip.segCmd (x b) : RoundTrip.Statement (.segCmd x b) := by
  refine ⟨rfl, ?_⟩
  show decodeRing 0 (cat 70#7 (cat x (cat 0#6 b rfl) rfl) rfl) = _
  unfold decodeRing decodeRing0; rw [majorOpcode_cat _ _ 70 rfl]
  simp [bits_cat_low, bits_cat_high, bits_all] <;> rfl

theorem RoundTrip.cpq (x b) : RoundTrip.Statement (.cpq x b) := by
  refine ⟨rfl, ?_⟩
  show decodeRing 1 (cat 64#7 (cat x (cat 0#6 b rfl) rfl) rfl) = _
  unfold decodeRing decodeRingN; rw [majorOpcode_cat _ _ 64 rfl]
  simp [bits_cat_low, bits_cat_high, bits_all] <;> rfl

theorem RoundTrip.cvq (x h r b) : RoundTrip.Statement (.cvq x h r b) := by
  refine ⟨rfl, ?_⟩
  show decodeRing 3 (cat 64#7 (cat x (cat h (cat r (cat 0#1 b rfl) rfl) rfl) rfl) rfl) = _
  unfold decodeRing decodeRingN; rw [majorOpcode_cat _ _ 64 rfl]
  simp [bits_cat_low, bits_cat_high, bits_all] <;> rfl

theorem RoundTrip.nbq (x r) : RoundTrip.Statement (.nbq x r) := by
  refine ⟨rfl, ?_⟩
  show decodeRing 4 (cat 64#7 (cat x r rfl) rfl) = _
  unfold decodeRing decodeRingN; rw [majorOpcode_cat _ _ 64 rfl]
  simp [bits_cat_low, bits_cat_high, bits_all] <;> rfl

theorem RoundTrip.wqeCmd (x b) : RoundTrip.Statement (.wqeCmd x b) := by
  refine ⟨rfl, ?_⟩
  show decodeRing 5 (cat 64#7 (cat x (cat 0#6 b rfl) rfl) rfl) = _
  unfold decodeRing decodeRingN; rw [majorOpcode_cat _ _ 64 rfl]
  simp [bits_cat_low, bits_cat_high, bits_all] <;> rfl

theorem RoundTrip.illegalCommand (n) : RoundTrip.Statement (.illegalCommand n) := trivial

theorem RoundTrip.engineSyncWaitDone (n) : RoundTrip.Statement (.engineSyncWaitDone n) := trivial

theorem RoundTrip.engineCommandComplete (n) : RoundTrip.Statement (.engineCommandComplete n) := trivial

theorem RoundTrip.nbPassStart (st) : RoundTrip.Statement (.nbPassStart st) := trivial

theorem RoundTrip.nbPassComplete (st) : RoundTrip.Statement (.nbPassComplete st) := trivial

theorem RoundTrip.blockEnd (e) : RoundTrip.Statement (.blockEnd e) := trivial

theorem RoundTrip.progressTrap (e) : RoundTrip.Statement (.progressTrap e) := trivial

theorem RoundTrip.ringcfgWrite (n v) : RoundTrip.Statement (.ringcfgWrite n v) := trivial

theorem RoundTrip.pinopExtend (n dl) : RoundTrip.Statement (.pinopExtend n dl) := trivial

theorem RoundTrip.pinopForceRelease (n) : RoundTrip.Statement (.pinopForceRelease n) := trivial

theorem RoundTrip.pinopRepublish (n dl) : RoundTrip.Statement (.pinopRepublish n dl) := trivial

theorem RoundTrip.pinDeadlineExpiry (n) : RoundTrip.Statement (.pinDeadlineExpiry n) := trivial

theorem RoundTrip.pswinWrite (v) : RoundTrip.Statement (.pswinWrite v) := trivial

theorem RoundTrip.psrateWrite (v) : RoundTrip.Statement (.psrateWrite v) := trivial

theorem RoundTrip.rgctlInstallRegion (v) : RoundTrip.Statement (.rgctlInstallRegion v) := trivial

theorem RoundTrip.rgctlRetireRegion (v) : RoundTrip.Statement (.rgctlRetireRegion v) := trivial

theorem RoundTrip.rgctlInstallSchedule (v) : RoundTrip.Statement (.rgctlInstallSchedule v) := trivial

theorem RoundTrip.apctlInstall (v) : RoundTrip.Statement (.apctlInstall v) := trivial

theorem RoundTrip.apctlRetire (v) : RoundTrip.Statement (.apctlRetire v) := trivial

theorem RoundTrip.tqctlConfigure (v) : RoundTrip.Statement (.tqctlConfigure v) := trivial

theorem RoundTrip.tqctlDisable (v) : RoundTrip.Statement (.tqctlDisable v) := trivial

theorem RoundTrip.tlbopInvalidateVa (v) : RoundTrip.Statement (.tlbopInvalidateVa v) := trivial

theorem RoundTrip.tlbopInvalidateAsid (v) : RoundTrip.Statement (.tlbopInvalidateAsid v) := trivial

theorem RoundTrip.tlbopInvalidateAll (v) : RoundTrip.Statement (.tlbopInvalidateAll v) := trivial

theorem RoundTrip.ualpeerQuery (v) : RoundTrip.Statement (.ualpeerQuery v) := trivial

theorem RoundTrip.ualpeerRelease (v) : RoundTrip.Statement (.ualpeerRelease v) := trivial

theorem RoundTrip.pktNop (body) : RoundTrip.Statement (.pktNop body) := fun h rest => by
  rw [show encode (.pktNop body) = packetWords 0#8 0#8 body from rfl, decodePacketAt_packetWords _ _ _ _ (by simpa [packetWf] using h)]
  simp [decodePacket, Except.map, bits_cat_low, bits_cat_high, bits_all]

theorem RoundTrip.pktWrite (body) : RoundTrip.Statement (.pktWrite body) := fun h rest => by
  rw [show encode (.pktWrite body) = packetWords 1#8 0#8 body from rfl, decodePacketAt_packetWords _ _ _ _ (by simpa [packetWf] using h)]
  simp [decodePacket, Except.map, bits_cat_low, bits_cat_high, bits_all]

theorem RoundTrip.pktWriteAdd (body) : RoundTrip.Statement (.pktWriteAdd body) := fun h rest => by
  rw [show encode (.pktWriteAdd body) = packetWords 1#8 1#8 body from rfl, decodePacketAt_packetWords _ _ _ _ (by simpa [packetWf] using h)]
  simp [decodePacket, Except.map, bits_cat_low, bits_cat_high, bits_all]

theorem RoundTrip.pktWaitmem (sub body) : RoundTrip.Statement (.pktWaitmem sub body) := fun h rest => by
  rw [show encode (.pktWaitmem sub body) = packetWords 2#8 sub body from rfl, decodePacketAt_packetWords _ _ _ _ (by simpa [packetWf] using h)]
  simp [decodePacket, Except.map, bits_cat_low, bits_cat_high, bits_all]

theorem RoundTrip.pktCond (sub body) : RoundTrip.Statement (.pktCond sub body) := fun h rest => by
  rw [show encode (.pktCond sub body) = packetWords 3#8 sub body from rfl, decodePacketAt_packetWords _ _ _ _ (by simpa [packetWf] using h)]
  simp [decodePacket, Except.map, bits_cat_low, bits_cat_high, bits_all]

theorem RoundTrip.pktIb (body) : RoundTrip.Statement (.pktIb body) := fun h rest => by
  rw [show encode (.pktIb body) = packetWords 4#8 0#8 body from rfl, decodePacketAt_packetWords _ _ _ _ (by simpa [packetWf] using h)]
  simp [decodePacket, Except.map, bits_cat_low, bits_cat_high, bits_all]

theorem RoundTrip.pktLoop (body) : RoundTrip.Statement (.pktLoop body) := fun h rest => by
  rw [show encode (.pktLoop body) = packetWords 5#8 0#8 body from rfl, decodePacketAt_packetWords _ _ _ _ (by simpa [packetWf] using h)]
  simp [decodePacket, Except.map, bits_cat_low, bits_cat_high, bits_all]

theorem RoundTrip.pktLoadslot (body) : RoundTrip.Statement (.pktLoadslot body) := fun h rest => by
  rw [show encode (.pktLoadslot body) = packetWords 6#8 0#8 body from rfl, decodePacketAt_packetWords _ _ _ _ (by simpa [packetWf] using h)]
  simp [decodePacket, Except.map, bits_cat_low, bits_cat_high, bits_all]

theorem RoundTrip.pktEvictslot (body) : RoundTrip.Statement (.pktEvictslot body) := fun h rest => by
  rw [show encode (.pktEvictslot body) = packetWords 7#8 0#8 body from rfl, decodePacketAt_packetWords _ _ _ _ (by simpa [packetWf] using h)]
  simp [decodePacket, Except.map, bits_cat_low, bits_cat_high, bits_all]

theorem RoundTrip.pktInvoke (body) : RoundTrip.Statement (.pktInvoke body) := fun h rest => by
  rw [show encode (.pktInvoke body) = packetWords 8#8 0#8 body from rfl, decodePacketAt_packetWords _ _ _ _ (by simpa [packetWf] using h)]
  simp [decodePacket, Except.map, bits_cat_low, bits_cat_high, bits_all]

theorem RoundTrip.pktEvent (body) : RoundTrip.Statement (.pktEvent body) := fun h rest => by
  rw [show encode (.pktEvent body) = packetWords 11#8 0#8 body from rfl, decodePacketAt_packetWords _ _ _ _ (by simpa [packetWf] using h)]
  simp [decodePacket, Except.map, bits_cat_low, bits_cat_high, bits_all]

theorem RoundTrip.pktSummary (body) : RoundTrip.Statement (.pktSummary body) := fun h rest => by
  rw [show encode (.pktSummary body) = packetWords 12#8 0#8 body from rfl, decodePacketAt_packetWords _ _ _ _ (by simpa [packetWf] using h)]
  simp [decodePacket, Except.map, bits_cat_low, bits_cat_high, bits_all]

theorem RoundTrip.pktQcbSh (body) : RoundTrip.Statement (.pktQcbSh body) := fun h rest => by
  rw [show encode (.pktQcbSh body) = packetWords 13#8 0#8 body from rfl, decodePacketAt_packetWords _ _ _ _ (by simpa [packetWf] using h)]
  simp [decodePacket, Except.map, bits_cat_low, bits_cat_high, bits_all]

theorem RoundTrip.pktQcbCommit (body) : RoundTrip.Statement (.pktQcbCommit body) := fun h rest => by
  rw [show encode (.pktQcbCommit body) = packetWords 13#8 1#8 body from rfl, decodePacketAt_packetWords _ _ _ _ (by simpa [packetWf] using h)]
  simp [decodePacket, Except.map, bits_cat_low, bits_cat_high, bits_all]

theorem RoundTrip.pktQcbRead (body) : RoundTrip.Statement (.pktQcbRead body) := fun h rest => by
  rw [show encode (.pktQcbRead body) = packetWords 13#8 2#8 body from rfl, decodePacketAt_packetWords _ _ _ _ (by simpa [packetWf] using h)]
  simp [decodePacket, Except.map, bits_cat_low, bits_cat_high, bits_all]

theorem RoundTrip.cricketHalt (c v) : RoundTrip.Statement (.cricketHalt c v) := by
  refine ⟨rfl, ?_⟩
  show decodeCricket (cat 0#6 (cat 0#6 (cat c (cat 0#2 v rfl) rfl) rfl) rfl) = _
  unfold decodeCricket
  simp [bits_cat_low, bits_cat_high, bits_all] <;> rfl

theorem RoundTrip.cricketLi (d i) : RoundTrip.Statement (.cricketLi d i) := by
  refine ⟨rfl, ?_⟩
  show decodeCricket (cat 1#6 (cat d (cat 0#3 i rfl) rfl) rfl) = _
  unfold decodeCricket
  simp [bits_cat_low, bits_cat_high, bits_all] <;> rfl

theorem RoundTrip.cricketLhi (d i) : RoundTrip.Statement (.cricketLhi d i) := by
  refine ⟨rfl, ?_⟩
  show decodeCricket (cat 2#6 (cat d (cat 0#7 i rfl) rfl) rfl) = _
  unfold decodeCricket
  simp [bits_cat_low, bits_cat_high, bits_all] <;> rfl

theorem RoundTrip.cricketAdd (d a b) : RoundTrip.Statement (.cricketAdd d a b) := by
  refine ⟨rfl, ?_⟩
  show decodeCricket (cat 3#6 (cat d (cat a (cat b 0#17 rfl) rfl) rfl) rfl) = _
  unfold decodeCricket
  simp [bits_cat_low, bits_cat_high, bits_all] <;> rfl

theorem RoundTrip.cricketSub (d a b) : RoundTrip.Statement (.cricketSub d a b) := by
  refine ⟨rfl, ?_⟩
  show decodeCricket (cat 4#6 (cat d (cat a (cat b 0#17 rfl) rfl) rfl) rfl) = _
  unfold decodeCricket
  simp [bits_cat_low, bits_cat_high, bits_all] <;> rfl

theorem RoundTrip.cricketAnd (d a b) : RoundTrip.Statement (.cricketAnd d a b) := by
  refine ⟨rfl, ?_⟩
  show decodeCricket (cat 5#6 (cat d (cat a (cat b 0#17 rfl) rfl) rfl) rfl) = _
  unfold decodeCricket
  simp [bits_cat_low, bits_cat_high, bits_all] <;> rfl

theorem RoundTrip.cricketOr (d a b) : RoundTrip.Statement (.cricketOr d a b) := by
  refine ⟨rfl, ?_⟩
  show decodeCricket (cat 6#6 (cat d (cat a (cat b 0#17 rfl) rfl) rfl) rfl) = _
  unfold decodeCricket
  simp [bits_cat_low, bits_cat_high, bits_all] <;> rfl

theorem RoundTrip.cricketXor (d a b) : RoundTrip.Statement (.cricketXor d a b) := by
  refine ⟨rfl, ?_⟩
  show decodeCricket (cat 7#6 (cat d (cat a (cat b 0#17 rfl) rfl) rfl) rfl) = _
  unfold decodeCricket
  simp [bits_cat_low, bits_cat_high, bits_all] <;> rfl

theorem RoundTrip.cricketSltu (d a b) : RoundTrip.Statement (.cricketSltu d a b) := by
  refine ⟨rfl, ?_⟩
  show decodeCricket (cat 8#6 (cat d (cat a (cat b 0#17 rfl) rfl) rfl) rfl) = _
  unfold decodeCricket
  simp [bits_cat_low, bits_cat_high, bits_all] <;> rfl

theorem RoundTrip.cricketAddi (d a i) : RoundTrip.Statement (.cricketAddi d a i) := by
  refine ⟨rfl, ?_⟩
  show decodeCricket (cat 9#6 (cat d (cat a i rfl) rfl) rfl) = _
  unfold decodeCricket
  simp [bits_cat_low, bits_cat_high, bits_all] <;> rfl

theorem RoundTrip.cricketShli (d a n) : RoundTrip.Statement (.cricketShli d a n) := by
  refine ⟨rfl, ?_⟩
  show decodeCricket (cat 10#6 (cat d (cat a (cat 0#15 n rfl) rfl) rfl) rfl) = _
  unfold decodeCricket
  simp [bits_cat_low, bits_cat_high, bits_all] <;> rfl

theorem RoundTrip.cricketShri (d a n) : RoundTrip.Statement (.cricketShri d a n) := by
  refine ⟨rfl, ?_⟩
  show decodeCricket (cat 11#6 (cat d (cat a (cat 0#15 n rfl) rfl) rfl) rfl) = _
  unfold decodeCricket
  simp [bits_cat_low, bits_cat_high, bits_all] <;> rfl

theorem RoundTrip.cricketPkt (d n) : RoundTrip.Statement (.cricketPkt d n) := by
  refine ⟨rfl, ?_⟩
  show decodeCricket (cat 12#6 (cat d (cat 0#13 n rfl) rfl) rfl) = _
  unfold decodeCricket
  simp [bits_cat_low, bits_cat_high, bits_all] <;> rfl

theorem RoundTrip.cricketSetpkt (a n) : RoundTrip.Statement (.cricketSetpkt a n) := by
  refine ⟨rfl, ?_⟩
  show decodeCricket (cat 13#6 (cat 0#3 (cat a (cat 0#10 n rfl) rfl) rfl) rfl) = _
  unfold decodeCricket
  simp [bits_cat_low, bits_cat_high, bits_all] <;> rfl

theorem RoundTrip.cricketLd (d w o) : RoundTrip.Statement (.cricketLd d w o) := by
  refine ⟨rfl, ?_⟩
  show decodeCricket (cat 14#6 (cat d (cat 0#9 (cat w o rfl) rfl) rfl) rfl) = _
  unfold decodeCricket
  simp [bits_cat_low, bits_cat_high, bits_all] <;> rfl

theorem RoundTrip.cricketSt (a w o) : RoundTrip.Statement (.cricketSt a w o) := by
  refine ⟨rfl, ?_⟩
  show decodeCricket (cat 15#6 (cat 0#3 (cat a (cat 0#6 (cat w o rfl) rfl) rfl) rfl) rfl) = _
  unfold decodeCricket
  simp [bits_cat_low, bits_cat_high, bits_all] <;> rfl

theorem RoundTrip.cricketLdr (d a w) : RoundTrip.Statement (.cricketLdr d a w) := by
  refine ⟨rfl, ?_⟩
  show decodeCricket (cat 16#6 (cat d (cat a (cat 0#6 (cat w 0#12 rfl) rfl) rfl) rfl) rfl) = _
  unfold decodeCricket
  simp [bits_cat_low, bits_cat_high, bits_all] <;> rfl

theorem RoundTrip.cricketStr (a b w) : RoundTrip.Statement (.cricketStr a b w) := by
  refine ⟨rfl, ?_⟩
  show decodeCricket (cat 17#6 (cat 0#3 (cat a (cat b (cat 0#3 (cat w 0#12 rfl) rfl) rfl) rfl) rfl) rfl) = _
  unfold decodeCricket
  simp [bits_cat_low, bits_cat_high, bits_all] <;> rfl

theorem RoundTrip.cricketBz (a o) : RoundTrip.Statement (.cricketBz a o) := by
  refine ⟨rfl, ?_⟩
  show decodeCricket (cat 18#6 (cat 0#3 (cat a o rfl) rfl) rfl) = _
  unfold decodeCricket
  simp [bits_cat_low, bits_cat_high, bits_all] <;> rfl

theorem RoundTrip.cricketBnz (a o) : RoundTrip.Statement (.cricketBnz a o) := by
  refine ⟨rfl, ?_⟩
  show decodeCricket (cat 19#6 (cat 0#3 (cat a o rfl) rfl) rfl) = _
  unfold decodeCricket
  simp [bits_cat_low, bits_cat_high, bits_all] <;> rfl

theorem RoundTrip.cricketLoop (n l) : RoundTrip.Statement (.cricketLoop n l) := by
  refine ⟨rfl, ?_⟩
  show decodeCricket (cat 20#6 (cat 0#6 (cat n l rfl) rfl) rfl) = _
  unfold decodeCricket
  simp [bits_cat_low, bits_cat_high, bits_all] <;> rfl

theorem RoundTrip.illegalInstruction (w) : RoundTrip.Statement (.illegalInstruction w) := trivial

theorem RoundTrip.notAPacket (h) : RoundTrip.Statement (.notAPacket h) := trivial

theorem RoundTrip.waitaWake : RoundTrip.Statement .waitaWake := trivial

theorem RoundTrip.waitaBoundWake : RoundTrip.Statement .waitaBoundWake := trivial

theorem RoundTrip.chainB : RoundTrip.Statement .chainB := ⟨rfl, rfl⟩

theorem RoundTrip.chainE : RoundTrip.Statement .chainE := ⟨rfl, rfl⟩

theorem RoundTrip.pfence : RoundTrip.Statement .pfence := ⟨rfl, rfl⟩

theorem RoundTrip.halt : RoundTrip.Statement .halt := ⟨rfl, rfl⟩

theorem RoundTrip.tfence : RoundTrip.Statement .tfence := ⟨rfl, rfl⟩

theorem RoundTrip.yield : RoundTrip.Statement .yield := ⟨rfl, rfl⟩

theorem RoundTrip.yieldp : RoundTrip.Statement .yieldp := ⟨rfl, rfl⟩

theorem RoundTrip.haltComplete : RoundTrip.Statement .haltComplete := trivial

theorem RoundTrip.segmentCountOverrun : RoundTrip.Statement .segmentCountOverrun := trivial

theorem RoundTrip.wqeIssue : RoundTrip.Statement .wqeIssue := trivial

theorem RoundTrip.workSignalArrival : RoundTrip.Statement .workSignalArrival := trivial

theorem RoundTrip.wqeCompletion : RoundTrip.Statement .wqeCompletion := trivial

theorem RoundTrip.leaseGrant : RoundTrip.Statement .leaseGrant := trivial

theorem RoundTrip.leaseIdleExpiry : RoundTrip.Statement .leaseIdleExpiry := trivial

theorem RoundTrip.storePerform : RoundTrip.Statement .storePerform := trivial

theorem RoundTrip.l1Writeback : RoundTrip.Statement .l1Writeback := trivial

theorem RoundTrip.l1Drop : RoundTrip.Statement .l1Drop := trivial

theorem RoundTrip.scratchCopyDrop : RoundTrip.Statement .scratchCopyDrop := trivial

theorem RoundTrip.queueEntryFill : RoundTrip.Statement .queueEntryFill := trivial

theorem RoundTrip.loadDataReturn : RoundTrip.Statement .loadDataReturn := trivial

theorem RoundTrip.trapDelivery : RoundTrip.Statement .trapDelivery := trivial

theorem RoundTrip.shretRetry : RoundTrip.Statement .shretRetry := trivial

theorem RoundTrip.shretSkip : RoundTrip.Statement .shretSkip := trivial

theorem RoundTrip.shretFail : RoundTrip.Statement .shretFail := trivial

theorem RoundTrip.shadowFault : RoundTrip.Statement .shadowFault := trivial

theorem RoundTrip.aflagsWrite : RoundTrip.Statement .aflagsWrite := trivial

theorem RoundTrip.noticeDelivery : RoundTrip.Statement .noticeDelivery := trivial

theorem RoundTrip.pullRequestIssue : RoundTrip.Statement .pullRequestIssue := trivial

theorem RoundTrip.pullRequestArrival : RoundTrip.Statement .pullRequestArrival := trivial

theorem RoundTrip.pullServed : RoundTrip.Statement .pullServed := trivial

theorem RoundTrip.declineArrival : RoundTrip.Statement .declineArrival := trivial

theorem RoundTrip.pullUnitLanding : RoundTrip.Statement .pullUnitLanding := trivial

theorem RoundTrip.routeAck : RoundTrip.Statement .routeAck := trivial

theorem RoundTrip.pullCompletion : RoundTrip.Statement .pullCompletion := trivial

theorem RoundTrip.exchangeRoundStart : RoundTrip.Statement .exchangeRoundStart := trivial

theorem RoundTrip.exchangeMerge : RoundTrip.Statement .exchangeMerge := trivial

theorem RoundTrip.apertureRead : RoundTrip.Statement .apertureRead := trivial

theorem RoundTrip.launchExpand : RoundTrip.Statement .launchExpand := trivial

theorem RoundTrip.recordSelect : RoundTrip.Statement .recordSelect := trivial

theorem RoundTrip.gangStart : RoundTrip.Statement .gangStart := trivial

theorem RoundTrip.preloadLoad : RoundTrip.Statement .preloadLoad := trivial

theorem RoundTrip.preloadActivate : RoundTrip.Statement .preloadActivate := trivial

theorem RoundTrip.preemptRequest : RoundTrip.Statement .preemptRequest := trivial

theorem RoundTrip.deadlineExpiry : RoundTrip.Statement .deadlineExpiry := trivial

theorem RoundTrip.strandSave : RoundTrip.Statement .strandSave := trivial

theorem RoundTrip.savedBankWrite : RoundTrip.Statement .savedBankWrite := trivial

theorem RoundTrip.strandRestore : RoundTrip.Statement .strandRestore := trivial

theorem RoundTrip.invocationReplay : RoundTrip.Statement .invocationReplay := trivial

theorem RoundTrip.invocationFail : RoundTrip.Statement .invocationFail := trivial

theorem RoundTrip.strandStateError : RoundTrip.Statement .strandStateError := trivial

theorem RoundTrip.queueDoorbell : RoundTrip.Statement .queueDoorbell := trivial

theorem RoundTrip.waitmemTimeout : RoundTrip.Statement .waitmemTimeout := trivial

theorem RoundTrip.pktFence : RoundTrip.Statement .pktFence := fun _ _ => rfl

theorem RoundTrip.pktFfence : RoundTrip.Statement .pktFfence := fun _ _ => rfl

theorem RoundTrip.cricketBudgetExceeded : RoundTrip.Statement .cricketBudgetExceeded := trivial

theorem RoundTrip.qcbShadowWrite : RoundTrip.Statement .qcbShadowWrite := trivial

theorem RoundTrip.qcbCommit : RoundTrip.Statement .qcbCommit := trivial

theorem RoundTrip.watchdogRollback : RoundTrip.Statement .watchdogRollback := trivial

theorem RoundTrip.mboxSummary : RoundTrip.Statement .mboxSummary := trivial

theorem RoundTrip.mboxStage : RoundTrip.Statement .mboxStage := trivial

theorem RoundTrip.mboxVerifyWrite : RoundTrip.Statement .mboxVerifyWrite := trivial

theorem RoundTrip.mboxResetBoot : RoundTrip.Statement .mboxResetBoot := trivial

theorem RoundTrip.hubReset : RoundTrip.Statement .hubReset := trivial

theorem RoundTrip.functionReady : RoundTrip.Statement .functionReady := trivial

theorem RoundTrip.hostMemRead : RoundTrip.Statement .hostMemRead := trivial

theorem RoundTrip.hostMemWrite : RoundTrip.Statement .hostMemWrite := trivial

theorem RoundTrip.hostCacheInvalidate : RoundTrip.Statement .hostCacheInvalidate := trivial

theorem RoundTrip.inboundRead : RoundTrip.Statement .inboundRead := trivial

theorem RoundTrip.inboundWrite : RoundTrip.Statement .inboundWrite := trivial

theorem RoundTrip.inboundAtomic : RoundTrip.Statement .inboundAtomic := trivial

theorem RoundTrip.inboundNotice : RoundTrip.Statement .inboundNotice := trivial

theorem RoundTrip.podReplyArrival : RoundTrip.Statement .podReplyArrival := trivial

theorem RoundTrip.peerTimeoutReissue : RoundTrip.Statement .peerTimeoutReissue := trivial

theorem RoundTrip.peerQuarantine : RoundTrip.Statement .peerQuarantine := trivial

theorem RoundTrip.sramUncorrectableError : RoundTrip.Statement .sramUncorrectableError := trivial

theorem RoundTrip.powerThrottle : RoundTrip.Statement .powerThrottle := trivial

theorem RoundTrip.streamElementArrival : RoundTrip.Statement .streamElementArrival := trivial

theorem RoundTrip.correctableError : RoundTrip.Statement .correctableError := trivial

theorem RoundTrip.powerOn : RoundTrip.Statement .powerOn := trivial

theorem RoundTrip.corePowerGate : RoundTrip.Statement .corePowerGate := trivial

theorem RoundTrip.corePowerUngate : RoundTrip.Statement .corePowerUngate := trivial

theorem RoundTrip.uzoantHalt : RoundTrip.Statement .uzoantHalt := trivial

theorem RoundTrip.uzoantResume : RoundTrip.Statement .uzoantResume := trivial

theorem RoundTrip.uzoantWrite : RoundTrip.Statement .uzoantWrite := trivial

theorem RoundTrip.uzoantLaunch : RoundTrip.Statement .uzoantLaunch := trivial

end Sys2Proof.Laws
end

