-- ==== Sys2Proof/Laws/State.lean ====
section
/-!
SUPPORT. What every update of the state leaves and changes, one lemma for each field and update.
-/
namespace Sys2Proof.Machine.State

/-! ### `modCore` -/
@[simp] theorem modCore_parked (s : State) (f : Core → Core) : (s.modCore f).parked = s.parked := rfl
@[simp] theorem modCore_share (s : State) (f : Core → Core) : (s.modCore f).share = s.share := rfl
@[simp] theorem modCore_hub (s : State) (f : Core → Core) : (s.modCore f).hub = s.hub := rfl
@[simp] theorem modCore_mem (s : State) (f : Core → Core) : (s.modCore f).mem = s.mem := rfl
@[simp] theorem modCore_agenda (s : State) (f : Core → Core) : (s.modCore f).agenda = s.agenda := rfl
@[simp] theorem modCore_rota (s : State) (f : Core → Core) : (s.modCore f).rota = s.rota := rfl
@[simp] theorem modCore_input (s : State) (f : Core → Core) : (s.modCore f).input = s.input := rfl
@[simp] theorem modCore_onEngine (s : State) (f : Core → Core) : (s.modCore f).onEngine = s.onEngine := rfl
@[simp] theorem modCore_late (s : State) (f : Core → Core) : (s.modCore f).late = s.late := rfl
@[simp] theorem modCore_clk (s : State) (f : Core → Core) : (s.modCore f).clk = s.clk := rfl
@[simp] theorem modCore_fresh (s : State) (f : Core → Core) : (s.modCore f).fresh = s.fresh := rfl
@[simp] theorem modCore_core (s : State) (f : Core → Core) : (s.modCore f).core = f s.core := rfl

/-! ### `modStrand` -/
@[simp] theorem modStrand_parked (s : State) (f : Strand → Strand) : (s.modStrand f).parked = s.parked := rfl
@[simp] theorem modStrand_share (s : State) (f : Strand → Strand) : (s.modStrand f).share = s.share := rfl
@[simp] theorem modStrand_hub (s : State) (f : Strand → Strand) : (s.modStrand f).hub = s.hub := rfl
@[simp] theorem modStrand_mem (s : State) (f : Strand → Strand) : (s.modStrand f).mem = s.mem := rfl
@[simp] theorem modStrand_agenda (s : State) (f : Strand → Strand) : (s.modStrand f).agenda = s.agenda := rfl
@[simp] theorem modStrand_rota (s : State) (f : Strand → Strand) : (s.modStrand f).rota = s.rota := rfl
@[simp] theorem modStrand_input (s : State) (f : Strand → Strand) : (s.modStrand f).input = s.input := rfl
@[simp] theorem modStrand_onEngine (s : State) (f : Strand → Strand) : (s.modStrand f).onEngine = s.onEngine := rfl
@[simp] theorem modStrand_late (s : State) (f : Strand → Strand) : (s.modStrand f).late = s.late := rfl
@[simp] theorem modStrand_clk (s : State) (f : Strand → Strand) : (s.modStrand f).clk = s.clk := rfl
@[simp] theorem modStrand_fresh (s : State) (f : Strand → Strand) : (s.modStrand f).fresh = s.fresh := rfl
@[simp] theorem modStrand_core_id (s : State) (f : Strand → Strand) : (s.modStrand f).core.id = s.core.id := rfl
@[simp] theorem modStrand_core_mode (s : State) (f : Strand → Strand) : (s.modStrand f).core.mode = s.core.mode := rfl
@[simp] theorem modStrand_core_gated (s : State) (f : Strand → Strand) :
    (s.modStrand f).core.gated = s.core.gated := rfl
@[simp] theorem modStrand_core_halted (s : State) (f : Strand → Strand) :
    (s.modStrand f).core.halted = s.core.halted := rfl
@[simp] theorem modStrand_core_preload (s : State) (f : Strand → Strand) :
    (s.modStrand f).core.preload = s.core.preload := rfl
@[simp] theorem modStrand_core_running (s : State) (f : Strand → Strand) :
    (s.modStrand f).core.running = s.core.running := rfl
@[simp] theorem modStrand_core_held (s : State) (f : Strand → Strand) : (s.modStrand f).core.held = s.core.held := rfl
@[simp] theorem modStrand_core_oldPins (s : State) (f : Strand → Strand) :
    (s.modStrand f).core.oldPins = s.core.oldPins := rfl
@[simp] theorem modStrand_core_engines (s : State) (f : Strand → Strand) :
    (s.modStrand f).core.engines = s.core.engines := rfl
@[simp] theorem modStrand_core_order (s : State) (f : Strand → Strand) :
    (s.modStrand f).core.order = s.core.order := rfl
@[simp] theorem modStrand_core_tlb (s : State) (f : Strand → Strand) : (s.modStrand f).core.tlb = s.core.tlb := rfl
@[simp] theorem modStrand_core_regs (s : State) (f : Strand → Strand) : (s.modStrand f).core.regs = s.core.regs := rfl
@[simp] theorem modStrand_core_trap (s : State) (f : Strand → Strand) : (s.modStrand f).core.trap = s.core.trap := rfl
@[simp] theorem modStrand_core_frozen (s : State) (f : Strand → Strand) :
    (s.modStrand f).core.frozen = s.core.frozen := rfl
@[simp] theorem modStrand_core_saveDue (s : State) (f : Strand → Strand) :
    (s.modStrand f).core.saveDue = s.core.saveDue := rfl
@[simp] theorem modStrand_core_released (s : State) (f : Strand → Strand) :
    (s.modStrand f).core.released = s.core.released := rfl
@[simp] theorem modStrand_strand (s : State) (f : Strand → Strand) : (s.modStrand f).strand = f s.strand := rfl

/-! ### `modRegs` -/
@[simp] theorem modRegs_parked (s : State) (f : Regs → Regs) : (s.modRegs f).parked = s.parked := rfl
@[simp] theorem modRegs_share (s : State) (f : Regs → Regs) : (s.modRegs f).share = s.share := rfl
@[simp] theorem modRegs_hub (s : State) (f : Regs → Regs) : (s.modRegs f).hub = s.hub := rfl
@[simp] theorem modRegs_mem (s : State) (f : Regs → Regs) : (s.modRegs f).mem = s.mem := rfl
@[simp] theorem modRegs_agenda (s : State) (f : Regs → Regs) : (s.modRegs f).agenda = s.agenda := rfl
@[simp] theorem modRegs_rota (s : State) (f : Regs → Regs) : (s.modRegs f).rota = s.rota := rfl
@[simp] theorem modRegs_input (s : State) (f : Regs → Regs) : (s.modRegs f).input = s.input := rfl
@[simp] theorem modRegs_onEngine (s : State) (f : Regs → Regs) : (s.modRegs f).onEngine = s.onEngine := rfl
@[simp] theorem modRegs_late (s : State) (f : Regs → Regs) : (s.modRegs f).late = s.late := rfl
@[simp] theorem modRegs_clk (s : State) (f : Regs → Regs) : (s.modRegs f).clk = s.clk := rfl
@[simp] theorem modRegs_fresh (s : State) (f : Regs → Regs) : (s.modRegs f).fresh = s.fresh := rfl
@[simp] theorem modRegs_core_id (s : State) (f : Regs → Regs) : (s.modRegs f).core.id = s.core.id := rfl
@[simp] theorem modRegs_core_mode (s : State) (f : Regs → Regs) : (s.modRegs f).core.mode = s.core.mode := rfl
@[simp] theorem modRegs_core_gated (s : State) (f : Regs → Regs) : (s.modRegs f).core.gated = s.core.gated := rfl
@[simp] theorem modRegs_core_halted (s : State) (f : Regs → Regs) : (s.modRegs f).core.halted = s.core.halted := rfl
@[simp] theorem modRegs_core_preload (s : State) (f : Regs → Regs) :
    (s.modRegs f).core.preload = s.core.preload := rfl
@[simp] theorem modRegs_core_running (s : State) (f : Regs → Regs) :
    (s.modRegs f).core.running = s.core.running := rfl
@[simp] theorem modRegs_core_held (s : State) (f : Regs → Regs) : (s.modRegs f).core.held = s.core.held := rfl
@[simp] theorem modRegs_core_oldPins (s : State) (f : Regs → Regs) :
    (s.modRegs f).core.oldPins = s.core.oldPins := rfl
@[simp] theorem modRegs_core_engines (s : State) (f : Regs → Regs) :
    (s.modRegs f).core.engines = s.core.engines := rfl
@[simp] theorem modRegs_core_order (s : State) (f : Regs → Regs) : (s.modRegs f).core.order = s.core.order := rfl
@[simp] theorem modRegs_core_tlb (s : State) (f : Regs → Regs) : (s.modRegs f).core.tlb = s.core.tlb := rfl
@[simp] theorem modRegs_core_regs (s : State) (f : Regs → Regs) : (s.modRegs f).core.regs = s.core.regs := rfl
@[simp] theorem modRegs_core_trap (s : State) (f : Regs → Regs) : (s.modRegs f).core.trap = s.core.trap := rfl
@[simp] theorem modRegs_core_frozen (s : State) (f : Regs → Regs) : (s.modRegs f).core.frozen = s.core.frozen := rfl
@[simp] theorem modRegs_core_saveDue (s : State) (f : Regs → Regs) :
    (s.modRegs f).core.saveDue = s.core.saveDue := rfl
@[simp] theorem modRegs_core_released (s : State) (f : Regs → Regs) :
    (s.modRegs f).core.released = s.core.released := rfl
@[simp] theorem modRegs_strand_regs (s : State) (f : Regs → Regs) : (s.modRegs f).regs = f s.regs := rfl
@[simp] theorem modRegs_strand_sys (s : State) (f : Regs → Regs) : (s.modRegs f).strand.sys = s.strand.sys := rfl
@[simp] theorem modRegs_strand_queues (s : State) (f : Regs → Regs) :
    (s.modRegs f).strand.queues = s.strand.queues := rfl
@[simp] theorem modRegs_strand_streams (s : State) (f : Regs → Regs) :
    (s.modRegs f).strand.streams = s.strand.streams := rfl
@[simp] theorem modRegs_strand_ap (s : State) (f : Regs → Regs) : (s.modRegs f).ap = s.ap := rfl
@[simp] theorem modRegs_strand_ep (s : State) (f : Regs → Regs) : (s.modRegs f).ep = s.ep := rfl
@[simp] theorem modRegs_strand_shadow (s : State) (f : Regs → Regs) :
    (s.modRegs f).strand.shadow = s.strand.shadow := rfl
@[simp] theorem modRegs_strand_sg (s : State) (f : Regs → Regs) : (s.modRegs f).strand.sg = s.strand.sg := rfl
@[simp] theorem modRegs_strand_pins (s : State) (f : Regs → Regs) : (s.modRegs f).strand.pins = s.strand.pins := rfl
@[simp] theorem modRegs_strand_tiles (s : State) (f : Regs → Regs) :
    (s.modRegs f).strand.tiles = s.strand.tiles := rfl
@[simp] theorem modRegs_strand_pend (s : State) (f : Regs → Regs) : (s.modRegs f).strand.pend = s.strand.pend := rfl
@[simp] theorem modRegs_strand_image (s : State) (f : Regs → Regs) :
    (s.modRegs f).strand.image = s.strand.image := rfl
@[simp] theorem modRegs_strand_info (s : State) (f : Regs → Regs) : (s.modRegs f).strand.info = s.strand.info := rfl
@[simp] theorem modRegs_inShadow (s : State) (f : Regs → Regs) : (s.modRegs f).inShadow = s.inShadow := rfl
@[simp] theorem modRegs_engine (s : State) (f : Regs → Regs) : (s.modRegs f).engine = s.engine := rfl

/-! ### `modSys` -/
@[simp] theorem modSys_parked (s : State) (f : SysRegs → SysRegs) : (s.modSys f).parked = s.parked := rfl
@[simp] theorem modSys_share (s : State) (f : SysRegs → SysRegs) : (s.modSys f).share = s.share := rfl
@[simp] theorem modSys_hub (s : State) (f : SysRegs → SysRegs) : (s.modSys f).hub = s.hub := rfl
@[simp] theorem modSys_mem (s : State) (f : SysRegs → SysRegs) : (s.modSys f).mem = s.mem := rfl
@[simp] theorem modSys_agenda (s : State) (f : SysRegs → SysRegs) : (s.modSys f).agenda = s.agenda := rfl
@[simp] theorem modSys_rota (s : State) (f : SysRegs → SysRegs) : (s.modSys f).rota = s.rota := rfl
@[simp] theorem modSys_input (s : State) (f : SysRegs → SysRegs) : (s.modSys f).input = s.input := rfl
@[simp] theorem modSys_onEngine (s : State) (f : SysRegs → SysRegs) : (s.modSys f).onEngine = s.onEngine := rfl
@[simp] theorem modSys_late (s : State) (f : SysRegs → SysRegs) : (s.modSys f).late = s.late := rfl
@[simp] theorem modSys_clk (s : State) (f : SysRegs → SysRegs) : (s.modSys f).clk = s.clk := rfl
@[simp] theorem modSys_fresh (s : State) (f : SysRegs → SysRegs) : (s.modSys f).fresh = s.fresh := rfl
@[simp] theorem modSys_core_id (s : State) (f : SysRegs → SysRegs) : (s.modSys f).core.id = s.core.id := rfl
@[simp] theorem modSys_core_mode (s : State) (f : SysRegs → SysRegs) : (s.modSys f).core.mode = s.core.mode := rfl
@[simp] theorem modSys_core_gated (s : State) (f : SysRegs → SysRegs) : (s.modSys f).core.gated = s.core.gated := rfl
@[simp] theorem modSys_core_halted (s : State) (f : SysRegs → SysRegs) :
    (s.modSys f).core.halted = s.core.halted := rfl
@[simp] theorem modSys_core_preload (s : State) (f : SysRegs → SysRegs) :
    (s.modSys f).core.preload = s.core.preload := rfl
@[simp] theorem modSys_core_running (s : State) (f : SysRegs → SysRegs) :
    (s.modSys f).core.running = s.core.running := rfl
@[simp] theorem modSys_core_held (s : State) (f : SysRegs → SysRegs) : (s.modSys f).core.held = s.core.held := rfl
@[simp] theorem modSys_core_oldPins (s : State) (f : SysRegs → SysRegs) :
    (s.modSys f).core.oldPins = s.core.oldPins := rfl
@[simp] theorem modSys_core_engines (s : State) (f : SysRegs → SysRegs) :
    (s.modSys f).core.engines = s.core.engines := rfl
@[simp] theorem modSys_core_order (s : State) (f : SysRegs → SysRegs) : (s.modSys f).core.order = s.core.order := rfl
@[simp] theorem modSys_core_tlb (s : State) (f : SysRegs → SysRegs) : (s.modSys f).core.tlb = s.core.tlb := rfl
@[simp] theorem modSys_core_regs (s : State) (f : SysRegs → SysRegs) : (s.modSys f).core.regs = s.core.regs := rfl
@[simp] theorem modSys_core_trap (s : State) (f : SysRegs → SysRegs) : (s.modSys f).core.trap = s.core.trap := rfl
@[simp] theorem modSys_core_frozen (s : State) (f : SysRegs → SysRegs) :
    (s.modSys f).core.frozen = s.core.frozen := rfl
@[simp] theorem modSys_core_saveDue (s : State) (f : SysRegs → SysRegs) :
    (s.modSys f).core.saveDue = s.core.saveDue := rfl
@[simp] theorem modSys_core_released (s : State) (f : SysRegs → SysRegs) :
    (s.modSys f).core.released = s.core.released := rfl
@[simp] theorem modSys_strand_regs (s : State) (f : SysRegs → SysRegs) : (s.modSys f).regs = s.regs := rfl
@[simp] theorem modSys_strand_sys (s : State) (f : SysRegs → SysRegs) :
    (s.modSys f).strand.sys = f s.strand.sys := rfl
@[simp] theorem modSys_strand_queues (s : State) (f : SysRegs → SysRegs) :
    (s.modSys f).strand.queues = s.strand.queues := rfl
@[simp] theorem modSys_strand_streams (s : State) (f : SysRegs → SysRegs) :
    (s.modSys f).strand.streams = s.strand.streams := rfl
@[simp] theorem modSys_strand_ap (s : State) (f : SysRegs → SysRegs) : (s.modSys f).ap = s.ap := rfl
@[simp] theorem modSys_strand_ep (s : State) (f : SysRegs → SysRegs) : (s.modSys f).ep = s.ep := rfl
@[simp] theorem modSys_strand_shadow (s : State) (f : SysRegs → SysRegs) :
    (s.modSys f).strand.shadow = s.strand.shadow := rfl
@[simp] theorem modSys_strand_sg (s : State) (f : SysRegs → SysRegs) : (s.modSys f).strand.sg = s.strand.sg := rfl
@[simp] theorem modSys_strand_pins (s : State) (f : SysRegs → SysRegs) :
    (s.modSys f).strand.pins = s.strand.pins := rfl
@[simp] theorem modSys_strand_tiles (s : State) (f : SysRegs → SysRegs) :
    (s.modSys f).strand.tiles = s.strand.tiles := rfl
@[simp] theorem modSys_strand_pend (s : State) (f : SysRegs → SysRegs) :
    (s.modSys f).strand.pend = s.strand.pend := rfl
@[simp] theorem modSys_strand_image (s : State) (f : SysRegs → SysRegs) :
    (s.modSys f).strand.image = s.strand.image := rfl
@[simp] theorem modSys_strand_info (s : State) (f : SysRegs → SysRegs) :
    (s.modSys f).strand.info = s.strand.info := rfl
@[simp] theorem modSys_inShadow (s : State) (f : SysRegs → SysRegs) : (s.modSys f).inShadow = s.inShadow := rfl
@[simp] theorem modSys_engine (s : State) (f : SysRegs → SysRegs) : (s.modSys f).engine = s.engine := rfl

/-! ### `modAp` -/
@[simp] theorem modAp_parked (s : State) (f : Ap → Ap) : (s.modAp f).parked = s.parked := rfl
@[simp] theorem modAp_share (s : State) (f : Ap → Ap) : (s.modAp f).share = s.share := rfl
@[simp] theorem modAp_hub (s : State) (f : Ap → Ap) : (s.modAp f).hub = s.hub := rfl
@[simp] theorem modAp_mem (s : State) (f : Ap → Ap) : (s.modAp f).mem = s.mem := rfl
@[simp] theorem modAp_agenda (s : State) (f : Ap → Ap) : (s.modAp f).agenda = s.agenda := rfl
@[simp] theorem modAp_rota (s : State) (f : Ap → Ap) : (s.modAp f).rota = s.rota := rfl
@[simp] theorem modAp_input (s : State) (f : Ap → Ap) : (s.modAp f).input = s.input := rfl
@[simp] theorem modAp_onEngine (s : State) (f : Ap → Ap) : (s.modAp f).onEngine = s.onEngine := rfl
@[simp] theorem modAp_late (s : State) (f : Ap → Ap) : (s.modAp f).late = s.late := rfl
@[simp] theorem modAp_clk (s : State) (f : Ap → Ap) : (s.modAp f).clk = s.clk := rfl
@[simp] theorem modAp_fresh (s : State) (f : Ap → Ap) : (s.modAp f).fresh = s.fresh := rfl
@[simp] theorem modAp_core_id (s : State) (f : Ap → Ap) : (s.modAp f).core.id = s.core.id := rfl
@[simp] theorem modAp_core_mode (s : State) (f : Ap → Ap) : (s.modAp f).core.mode = s.core.mode := rfl
@[simp] theorem modAp_core_gated (s : State) (f : Ap → Ap) : (s.modAp f).core.gated = s.core.gated := rfl
@[simp] theorem modAp_core_halted (s : State) (f : Ap → Ap) : (s.modAp f).core.halted = s.core.halted := rfl
@[simp] theorem modAp_core_preload (s : State) (f : Ap → Ap) : (s.modAp f).core.preload = s.core.preload := rfl
@[simp] theorem modAp_core_running (s : State) (f : Ap → Ap) : (s.modAp f).core.running = s.core.running := rfl
@[simp] theorem modAp_core_held (s : State) (f : Ap → Ap) : (s.modAp f).core.held = s.core.held := rfl
@[simp] theorem modAp_core_oldPins (s : State) (f : Ap → Ap) : (s.modAp f).core.oldPins = s.core.oldPins := rfl
@[simp] theorem modAp_core_engines (s : State) (f : Ap → Ap) : (s.modAp f).core.engines = s.core.engines := rfl
@[simp] theorem modAp_core_order (s : State) (f : Ap → Ap) : (s.modAp f).core.order = s.core.order := rfl
@[simp] theorem modAp_core_tlb (s : State) (f : Ap → Ap) : (s.modAp f).core.tlb = s.core.tlb := rfl
@[simp] theorem modAp_core_regs (s : State) (f : Ap → Ap) : (s.modAp f).core.regs = s.core.regs := rfl
@[simp] theorem modAp_core_trap (s : State) (f : Ap → Ap) : (s.modAp f).core.trap = s.core.trap := rfl
@[simp] theorem modAp_core_frozen (s : State) (f : Ap → Ap) : (s.modAp f).core.frozen = s.core.frozen := rfl
@[simp] theorem modAp_core_saveDue (s : State) (f : Ap → Ap) : (s.modAp f).core.saveDue = s.core.saveDue := rfl
@[simp] theorem modAp_core_released (s : State) (f : Ap → Ap) : (s.modAp f).core.released = s.core.released := rfl
@[simp] theorem modAp_strand_regs (s : State) (f : Ap → Ap) : (s.modAp f).regs = s.regs := rfl
@[simp] theorem modAp_strand_sys (s : State) (f : Ap → Ap) : (s.modAp f).strand.sys = s.strand.sys := rfl
@[simp] theorem modAp_strand_queues (s : State) (f : Ap → Ap) : (s.modAp f).strand.queues = s.strand.queues := rfl
@[simp] theorem modAp_strand_streams (s : State) (f : Ap → Ap) : (s.modAp f).strand.streams = s.strand.streams := rfl
@[simp] theorem modAp_strand_ap (s : State) (f : Ap → Ap) : (s.modAp f).ap = f s.ap := rfl
@[simp] theorem modAp_strand_ep (s : State) (f : Ap → Ap) : (s.modAp f).ep = s.ep := rfl
@[simp] theorem modAp_strand_shadow (s : State) (f : Ap → Ap) : (s.modAp f).strand.shadow = s.strand.shadow := rfl
@[simp] theorem modAp_strand_sg (s : State) (f : Ap → Ap) : (s.modAp f).strand.sg = s.strand.sg := rfl
@[simp] theorem modAp_strand_pins (s : State) (f : Ap → Ap) : (s.modAp f).strand.pins = s.strand.pins := rfl
@[simp] theorem modAp_strand_tiles (s : State) (f : Ap → Ap) : (s.modAp f).strand.tiles = s.strand.tiles := rfl
@[simp] theorem modAp_strand_pend (s : State) (f : Ap → Ap) : (s.modAp f).strand.pend = s.strand.pend := rfl
@[simp] theorem modAp_strand_image (s : State) (f : Ap → Ap) : (s.modAp f).strand.image = s.strand.image := rfl
@[simp] theorem modAp_strand_info (s : State) (f : Ap → Ap) : (s.modAp f).strand.info = s.strand.info := rfl
@[simp] theorem modAp_inShadow (s : State) (f : Ap → Ap) : (s.modAp f).inShadow = s.inShadow := rfl
@[simp] theorem modAp_engine (s : State) (f : Ap → Ap) : (s.modAp f).engine = s.engine := rfl

/-! ### `modEp` -/
@[simp] theorem modEp_parked (s : State) (f : Ep → Ep) : (s.modEp f).parked = s.parked := rfl
@[simp] theorem modEp_share (s : State) (f : Ep → Ep) : (s.modEp f).share = s.share := rfl
@[simp] theorem modEp_hub (s : State) (f : Ep → Ep) : (s.modEp f).hub = s.hub := rfl
@[simp] theorem modEp_mem (s : State) (f : Ep → Ep) : (s.modEp f).mem = s.mem := rfl
@[simp] theorem modEp_agenda (s : State) (f : Ep → Ep) : (s.modEp f).agenda = s.agenda := rfl
@[simp] theorem modEp_rota (s : State) (f : Ep → Ep) : (s.modEp f).rota = s.rota := rfl
@[simp] theorem modEp_input (s : State) (f : Ep → Ep) : (s.modEp f).input = s.input := rfl
@[simp] theorem modEp_onEngine (s : State) (f : Ep → Ep) : (s.modEp f).onEngine = s.onEngine := rfl
@[simp] theorem modEp_late (s : State) (f : Ep → Ep) : (s.modEp f).late = s.late := rfl
@[simp] theorem modEp_clk (s : State) (f : Ep → Ep) : (s.modEp f).clk = s.clk := rfl
@[simp] theorem modEp_fresh (s : State) (f : Ep → Ep) : (s.modEp f).fresh = s.fresh := rfl
@[simp] theorem modEp_core_id (s : State) (f : Ep → Ep) : (s.modEp f).core.id = s.core.id := rfl
@[simp] theorem modEp_core_mode (s : State) (f : Ep → Ep) : (s.modEp f).core.mode = s.core.mode := rfl
@[simp] theorem modEp_core_gated (s : State) (f : Ep → Ep) : (s.modEp f).core.gated = s.core.gated := rfl
@[simp] theorem modEp_core_halted (s : State) (f : Ep → Ep) : (s.modEp f).core.halted = s.core.halted := rfl
@[simp] theorem modEp_core_preload (s : State) (f : Ep → Ep) : (s.modEp f).core.preload = s.core.preload := rfl
@[simp] theorem modEp_core_running (s : State) (f : Ep → Ep) : (s.modEp f).core.running = s.core.running := rfl
@[simp] theorem modEp_core_held (s : State) (f : Ep → Ep) : (s.modEp f).core.held = s.core.held := rfl
@[simp] theorem modEp_core_oldPins (s : State) (f : Ep → Ep) : (s.modEp f).core.oldPins = s.core.oldPins := rfl
@[simp] theorem modEp_core_engines (s : State) (f : Ep → Ep) : (s.modEp f).core.engines = s.core.engines := rfl
@[simp] theorem modEp_core_order (s : State) (f : Ep → Ep) : (s.modEp f).core.order = s.core.order := rfl
@[simp] theorem modEp_core_tlb (s : State) (f : Ep → Ep) : (s.modEp f).core.tlb = s.core.tlb := rfl
@[simp] theorem modEp_core_regs (s : State) (f : Ep → Ep) : (s.modEp f).core.regs = s.core.regs := rfl
@[simp] theorem modEp_core_trap (s : State) (f : Ep → Ep) : (s.modEp f).core.trap = s.core.trap := rfl
@[simp] theorem modEp_core_frozen (s : State) (f : Ep → Ep) : (s.modEp f).core.frozen = s.core.frozen := rfl
@[simp] theorem modEp_core_saveDue (s : State) (f : Ep → Ep) : (s.modEp f).core.saveDue = s.core.saveDue := rfl
@[simp] theorem modEp_core_released (s : State) (f : Ep → Ep) : (s.modEp f).core.released = s.core.released := rfl
@[simp] theorem modEp_strand_regs (s : State) (f : Ep → Ep) : (s.modEp f).regs = s.regs := rfl
@[simp] theorem modEp_strand_sys (s : State) (f : Ep → Ep) : (s.modEp f).strand.sys = s.strand.sys := rfl
@[simp] theorem modEp_strand_queues (s : State) (f : Ep → Ep) : (s.modEp f).strand.queues = s.strand.queues := rfl
@[simp] theorem modEp_strand_streams (s : State) (f : Ep → Ep) : (s.modEp f).strand.streams = s.strand.streams := rfl
@[simp] theorem modEp_strand_ap (s : State) (f : Ep → Ep) : (s.modEp f).ap = s.ap := rfl
@[simp] theorem modEp_strand_ep (s : State) (f : Ep → Ep) : (s.modEp f).ep = f s.ep := rfl
@[simp] theorem modEp_strand_shadow (s : State) (f : Ep → Ep) : (s.modEp f).strand.shadow = s.strand.shadow := rfl
@[simp] theorem modEp_strand_sg (s : State) (f : Ep → Ep) : (s.modEp f).strand.sg = s.strand.sg := rfl
@[simp] theorem modEp_strand_pins (s : State) (f : Ep → Ep) : (s.modEp f).strand.pins = s.strand.pins := rfl
@[simp] theorem modEp_strand_tiles (s : State) (f : Ep → Ep) : (s.modEp f).strand.tiles = s.strand.tiles := rfl
@[simp] theorem modEp_strand_pend (s : State) (f : Ep → Ep) : (s.modEp f).strand.pend = s.strand.pend := rfl
@[simp] theorem modEp_strand_image (s : State) (f : Ep → Ep) : (s.modEp f).strand.image = s.strand.image := rfl
@[simp] theorem modEp_strand_info (s : State) (f : Ep → Ep) : (s.modEp f).strand.info = s.strand.info := rfl
@[simp] theorem modEp_inShadow (s : State) (f : Ep → Ep) : (s.modEp f).inShadow = s.inShadow := rfl
@[simp] theorem modEp_engine (s : State) (f : Ep → Ep) : (s.modEp f).engine = s.engine := rfl

/-! ### `modQueues` -/
@[simp] theorem modQueues_parked (s : State) (f : Queues → Queues) : (s.modQueues f).parked = s.parked := rfl
@[simp] theorem modQueues_share (s : State) (f : Queues → Queues) : (s.modQueues f).share = s.share := rfl
@[simp] theorem modQueues_hub (s : State) (f : Queues → Queues) : (s.modQueues f).hub = s.hub := rfl
@[simp] theorem modQueues_mem (s : State) (f : Queues → Queues) : (s.modQueues f).mem = s.mem := rfl
@[simp] theorem modQueues_agenda (s : State) (f : Queues → Queues) : (s.modQueues f).agenda = s.agenda := rfl
@[simp] theorem modQueues_rota (s : State) (f : Queues → Queues) : (s.modQueues f).rota = s.rota := rfl
@[simp] theorem modQueues_input (s : State) (f : Queues → Queues) : (s.modQueues f).input = s.input := rfl
@[simp] theorem modQueues_onEngine (s : State) (f : Queues → Queues) : (s.modQueues f).onEngine = s.onEngine := rfl
@[simp] theorem modQueues_late (s : State) (f : Queues → Queues) : (s.modQueues f).late = s.late := rfl
@[simp] theorem modQueues_clk (s : State) (f : Queues → Queues) : (s.modQueues f).clk = s.clk := rfl
@[simp] theorem modQueues_fresh (s : State) (f : Queues → Queues) : (s.modQueues f).fresh = s.fresh := rfl
@[simp] theorem modQueues_core_id (s : State) (f : Queues → Queues) : (s.modQueues f).core.id = s.core.id := rfl
@[simp] theorem modQueues_core_mode (s : State) (f : Queues → Queues) : (s.modQueues f).core.mode = s.core.mode := rfl
@[simp] theorem modQueues_core_gated (s : State) (f : Queues → Queues) :
    (s.modQueues f).core.gated = s.core.gated := rfl
@[simp] theorem modQueues_core_halted (s : State) (f : Queues → Queues) :
    (s.modQueues f).core.halted = s.core.halted := rfl
@[simp] theorem modQueues_core_preload (s : State) (f : Queues → Queues) :
    (s.modQueues f).core.preload = s.core.preload := rfl
@[simp] theorem modQueues_core_running (s : State) (f : Queues → Queues) :
    (s.modQueues f).core.running = s.core.running := rfl
@[simp] theorem modQueues_core_held (s : State) (f : Queues → Queues) : (s.modQueues f).core.held = s.core.held := rfl
@[simp] theorem modQueues_core_oldPins (s : State) (f : Queues → Queues) :
    (s.modQueues f).core.oldPins = s.core.oldPins := rfl
@[simp] theorem modQueues_core_engines (s : State) (f : Queues → Queues) :
    (s.modQueues f).core.engines = s.core.engines := rfl
@[simp] theorem modQueues_core_order (s : State) (f : Queues → Queues) :
    (s.modQueues f).core.order = s.core.order := rfl
@[simp] theorem modQueues_core_tlb (s : State) (f : Queues → Queues) : (s.modQueues f).core.tlb = s.core.tlb := rfl
@[simp] theorem modQueues_core_regs (s : State) (f : Queues → Queues) : (s.modQueues f).core.regs = s.core.regs := rfl
@[simp] theorem modQueues_core_trap (s : State) (f : Queues → Queues) : (s.modQueues f).core.trap = s.core.trap := rfl
@[simp] theorem modQueues_core_frozen (s : State) (f : Queues → Queues) :
    (s.modQueues f).core.frozen = s.core.frozen := rfl
@[simp] theorem modQueues_core_saveDue (s : State) (f : Queues → Queues) :
    (s.modQueues f).core.saveDue = s.core.saveDue := rfl
@[simp] theorem modQueues_core_released (s : State) (f : Queues → Queues) :
    (s.modQueues f).core.released = s.core.released := rfl
@[simp] theorem modQueues_strand_regs (s : State) (f : Queues → Queues) : (s.modQueues f).regs = s.regs := rfl
@[simp] theorem modQueues_strand_sys (s : State) (f : Queues → Queues) :
    (s.modQueues f).strand.sys = s.strand.sys := rfl
@[simp] theorem modQueues_strand_queues (s : State) (f : Queues → Queues) :
    (s.modQueues f).strand.queues = f s.strand.queues := rfl
@[simp] theorem modQueues_strand_streams (s : State) (f : Queues → Queues) :
    (s.modQueues f).strand.streams = s.strand.streams := rfl
@[simp] theorem modQueues_strand_ap (s : State) (f : Queues → Queues) : (s.modQueues f).ap = s.ap := rfl
@[simp] theorem modQueues_strand_ep (s : State) (f : Queues → Queues) : (s.modQueues f).ep = s.ep := rfl
@[simp] theorem modQueues_strand_shadow (s : State) (f : Queues → Queues) :
    (s.modQueues f).strand.shadow = s.strand.shadow := rfl
@[simp] theorem modQueues_strand_sg (s : State) (f : Queues → Queues) : (s.modQueues f).strand.sg = s.strand.sg := rfl
@[simp] theorem modQueues_strand_pins (s : State) (f : Queues → Queues) :
    (s.modQueues f).strand.pins = s.strand.pins := rfl
@[simp] theorem modQueues_strand_tiles (s : State) (f : Queues → Queues) :
    (s.modQueues f).strand.tiles = s.strand.tiles := rfl
@[simp] theorem modQueues_strand_pend (s : State) (f : Queues → Queues) :
    (s.modQueues f).strand.pend = s.strand.pend := rfl
@[simp] theorem modQueues_strand_image (s : State) (f : Queues → Queues) :
    (s.modQueues f).strand.image = s.strand.image := rfl
@[simp] theorem modQueues_strand_info (s : State) (f : Queues → Queues) :
    (s.modQueues f).strand.info = s.strand.info := rfl
@[simp] theorem modQueues_inShadow (s : State) (f : Queues → Queues) : (s.modQueues f).inShadow = s.inShadow := rfl
@[simp] theorem modQueues_engine (s : State) (f : Queues → Queues) : (s.modQueues f).engine = s.engine := rfl

/-! ### `modOrder` -/
@[simp] theorem modOrder_parked (s : State) (f : CoreOrder → CoreOrder) : (s.modOrder f).parked = s.parked := rfl
@[simp] theorem modOrder_share (s : State) (f : CoreOrder → CoreOrder) : (s.modOrder f).share = s.share := rfl
@[simp] theorem modOrder_hub (s : State) (f : CoreOrder → CoreOrder) : (s.modOrder f).hub = s.hub := rfl
@[simp] theorem modOrder_mem (s : State) (f : CoreOrder → CoreOrder) : (s.modOrder f).mem = s.mem := rfl
@[simp] theorem modOrder_agenda (s : State) (f : CoreOrder → CoreOrder) : (s.modOrder f).agenda = s.agenda := rfl
@[simp] theorem modOrder_rota (s : State) (f : CoreOrder → CoreOrder) : (s.modOrder f).rota = s.rota := rfl
@[simp] theorem modOrder_input (s : State) (f : CoreOrder → CoreOrder) : (s.modOrder f).input = s.input := rfl
@[simp] theorem modOrder_onEngine (s : State) (f : CoreOrder → CoreOrder) :
    (s.modOrder f).onEngine = s.onEngine := rfl
@[simp] theorem modOrder_late (s : State) (f : CoreOrder → CoreOrder) : (s.modOrder f).late = s.late := rfl
@[simp] theorem modOrder_clk (s : State) (f : CoreOrder → CoreOrder) : (s.modOrder f).clk = s.clk := rfl
@[simp] theorem modOrder_fresh (s : State) (f : CoreOrder → CoreOrder) : (s.modOrder f).fresh = s.fresh := rfl
@[simp] theorem modOrder_core_id (s : State) (f : CoreOrder → CoreOrder) : (s.modOrder f).core.id = s.core.id := rfl
@[simp] theorem modOrder_core_mode (s : State) (f : CoreOrder → CoreOrder) :
    (s.modOrder f).core.mode = s.core.mode := rfl
@[simp] theorem modOrder_core_gated (s : State) (f : CoreOrder → CoreOrder) :
    (s.modOrder f).core.gated = s.core.gated := rfl
@[simp] theorem modOrder_core_halted (s : State) (f : CoreOrder → CoreOrder) :
    (s.modOrder f).core.halted = s.core.halted := rfl
@[simp] theorem modOrder_core_preload (s : State) (f : CoreOrder → CoreOrder) :
    (s.modOrder f).core.preload = s.core.preload := rfl
@[simp] theorem modOrder_core_running (s : State) (f : CoreOrder → CoreOrder) :
    (s.modOrder f).core.running = s.core.running := rfl
@[simp] theorem modOrder_core_held (s : State) (f : CoreOrder → CoreOrder) :
    (s.modOrder f).core.held = s.core.held := rfl
@[simp] theorem modOrder_core_oldPins (s : State) (f : CoreOrder → CoreOrder) :
    (s.modOrder f).core.oldPins = s.core.oldPins := rfl
@[simp] theorem modOrder_core_engines (s : State) (f : CoreOrder → CoreOrder) :
    (s.modOrder f).core.engines = s.core.engines := rfl
@[simp] theorem modOrder_core_order (s : State) (f : CoreOrder → CoreOrder) :
    (s.modOrder f).core.order = f s.core.order := rfl
@[simp] theorem modOrder_core_tlb (s : State) (f : CoreOrder → CoreOrder) :
    (s.modOrder f).core.tlb = s.core.tlb := rfl
@[simp] theorem modOrder_core_regs (s : State) (f : CoreOrder → CoreOrder) :
    (s.modOrder f).core.regs = s.core.regs := rfl
@[simp] theorem modOrder_core_trap (s : State) (f : CoreOrder → CoreOrder) :
    (s.modOrder f).core.trap = s.core.trap := rfl
@[simp] theorem modOrder_core_frozen (s : State) (f : CoreOrder → CoreOrder) :
    (s.modOrder f).core.frozen = s.core.frozen := rfl
@[simp] theorem modOrder_core_saveDue (s : State) (f : CoreOrder → CoreOrder) :
    (s.modOrder f).core.saveDue = s.core.saveDue := rfl
@[simp] theorem modOrder_core_released (s : State) (f : CoreOrder → CoreOrder) :
    (s.modOrder f).core.released = s.core.released := rfl
@[simp] theorem modOrder_strand (s : State) (f : CoreOrder → CoreOrder) : (s.modOrder f).strand = s.strand := rfl
@[simp] theorem modOrder_regs (s : State) (f : CoreOrder → CoreOrder) : (s.modOrder f).regs = s.regs := rfl
@[simp] theorem modOrder_ap (s : State) (f : CoreOrder → CoreOrder) : (s.modOrder f).ap = s.ap := rfl
@[simp] theorem modOrder_ep (s : State) (f : CoreOrder → CoreOrder) : (s.modOrder f).ep = s.ep := rfl
@[simp] theorem modOrder_inShadow (s : State) (f : CoreOrder → CoreOrder) :
    (s.modOrder f).inShadow = s.inShadow := rfl
@[simp] theorem modOrder_engine (s : State) (f : CoreOrder → CoreOrder) : (s.modOrder f).engine = s.engine := rfl

/-! ### `modCoreRegs` -/
@[simp] theorem modCoreRegs_parked (s : State) (f : CoreRegs → CoreRegs) : (s.modCoreRegs f).parked = s.parked := rfl
@[simp] theorem modCoreRegs_share (s : State) (f : CoreRegs → CoreRegs) : (s.modCoreRegs f).share = s.share := rfl
@[simp] theorem modCoreRegs_hub (s : State) (f : CoreRegs → CoreRegs) : (s.modCoreRegs f).hub = s.hub := rfl
@[simp] theorem modCoreRegs_mem (s : State) (f : CoreRegs → CoreRegs) : (s.modCoreRegs f).mem = s.mem := rfl
@[simp] theorem modCoreRegs_agenda (s : State) (f : CoreRegs → CoreRegs) : (s.modCoreRegs f).agenda = s.agenda := rfl
@[simp] theorem modCoreRegs_rota (s : State) (f : CoreRegs → CoreRegs) : (s.modCoreRegs f).rota = s.rota := rfl
@[simp] theorem modCoreRegs_input (s : State) (f : CoreRegs → CoreRegs) : (s.modCoreRegs f).input = s.input := rfl
@[simp] theorem modCoreRegs_onEngine (s : State) (f : CoreRegs → CoreRegs) :
    (s.modCoreRegs f).onEngine = s.onEngine := rfl
@[simp] theorem modCoreRegs_late (s : State) (f : CoreRegs → CoreRegs) : (s.modCoreRegs f).late = s.late := rfl
@[simp] theorem modCoreRegs_clk (s : State) (f : CoreRegs → CoreRegs) : (s.modCoreRegs f).clk = s.clk := rfl
@[simp] theorem modCoreRegs_fresh (s : State) (f : CoreRegs → CoreRegs) : (s.modCoreRegs f).fresh = s.fresh := rfl
@[simp] theorem modCoreRegs_core_id (s : State) (f : CoreRegs → CoreRegs) :
    (s.modCoreRegs f).core.id = s.core.id := rfl
@[simp] theorem modCoreRegs_core_mode (s : State) (f : CoreRegs → CoreRegs) :
    (s.modCoreRegs f).core.mode = s.core.mode := rfl
@[simp] theorem modCoreRegs_core_gated (s : State) (f : CoreRegs → CoreRegs) :
    (s.modCoreRegs f).core.gated = s.core.gated := rfl
@[simp] theorem modCoreRegs_core_halted (s : State) (f : CoreRegs → CoreRegs) :
    (s.modCoreRegs f).core.halted = s.core.halted := rfl
@[simp] theorem modCoreRegs_core_preload (s : State) (f : CoreRegs → CoreRegs) :
    (s.modCoreRegs f).core.preload = s.core.preload := rfl
@[simp] theorem modCoreRegs_core_running (s : State) (f : CoreRegs → CoreRegs) :
    (s.modCoreRegs f).core.running = s.core.running := rfl
@[simp] theorem modCoreRegs_core_held (s : State) (f : CoreRegs → CoreRegs) :
    (s.modCoreRegs f).core.held = s.core.held := rfl
@[simp] theorem modCoreRegs_core_oldPins (s : State) (f : CoreRegs → CoreRegs) :
    (s.modCoreRegs f).core.oldPins = s.core.oldPins := rfl
@[simp] theorem modCoreRegs_core_engines (s : State) (f : CoreRegs → CoreRegs) :
    (s.modCoreRegs f).core.engines = s.core.engines := rfl
@[simp] theorem modCoreRegs_core_order (s : State) (f : CoreRegs → CoreRegs) :
    (s.modCoreRegs f).core.order = s.core.order := rfl
@[simp] theorem modCoreRegs_core_tlb (s : State) (f : CoreRegs → CoreRegs) :
    (s.modCoreRegs f).core.tlb = s.core.tlb := rfl
@[simp] theorem modCoreRegs_core_regs (s : State) (f : CoreRegs → CoreRegs) :
    (s.modCoreRegs f).core.regs = f s.core.regs := rfl
@[simp] theorem modCoreRegs_core_trap (s : State) (f : CoreRegs → CoreRegs) :
    (s.modCoreRegs f).core.trap = s.core.trap := rfl
@[simp] theorem modCoreRegs_core_frozen (s : State) (f : CoreRegs → CoreRegs) :
    (s.modCoreRegs f).core.frozen = s.core.frozen := rfl
@[simp] theorem modCoreRegs_core_saveDue (s : State) (f : CoreRegs → CoreRegs) :
    (s.modCoreRegs f).core.saveDue = s.core.saveDue := rfl
@[simp] theorem modCoreRegs_core_released (s : State) (f : CoreRegs → CoreRegs) :
    (s.modCoreRegs f).core.released = s.core.released := rfl
@[simp] theorem modCoreRegs_strand (s : State) (f : CoreRegs → CoreRegs) : (s.modCoreRegs f).strand = s.strand := rfl
@[simp] theorem modCoreRegs_regs (s : State) (f : CoreRegs → CoreRegs) : (s.modCoreRegs f).regs = s.regs := rfl
@[simp] theorem modCoreRegs_ap (s : State) (f : CoreRegs → CoreRegs) : (s.modCoreRegs f).ap = s.ap := rfl
@[simp] theorem modCoreRegs_ep (s : State) (f : CoreRegs → CoreRegs) : (s.modCoreRegs f).ep = s.ep := rfl
@[simp] theorem modCoreRegs_inShadow (s : State) (f : CoreRegs → CoreRegs) :
    (s.modCoreRegs f).inShadow = s.inShadow := rfl
@[simp] theorem modCoreRegs_engine (s : State) (f : CoreRegs → CoreRegs) : (s.modCoreRegs f).engine = s.engine := rfl

/-! ### `modShare` -/
@[simp] theorem modShare_core (s : State) (f : Share → Share) : (s.modShare f).core = s.core := rfl
@[simp] theorem modShare_parked (s : State) (f : Share → Share) : (s.modShare f).parked = s.parked := rfl
@[simp] theorem modShare_hub (s : State) (f : Share → Share) : (s.modShare f).hub = s.hub := rfl
@[simp] theorem modShare_mem (s : State) (f : Share → Share) : (s.modShare f).mem = s.mem := rfl
@[simp] theorem modShare_agenda (s : State) (f : Share → Share) : (s.modShare f).agenda = s.agenda := rfl
@[simp] theorem modShare_rota (s : State) (f : Share → Share) : (s.modShare f).rota = s.rota := rfl
@[simp] theorem modShare_input (s : State) (f : Share → Share) : (s.modShare f).input = s.input := rfl
@[simp] theorem modShare_onEngine (s : State) (f : Share → Share) : (s.modShare f).onEngine = s.onEngine := rfl
@[simp] theorem modShare_late (s : State) (f : Share → Share) : (s.modShare f).late = s.late := rfl
@[simp] theorem modShare_clk (s : State) (f : Share → Share) : (s.modShare f).clk = s.clk := rfl
@[simp] theorem modShare_fresh (s : State) (f : Share → Share) : (s.modShare f).fresh = s.fresh := rfl
@[simp] theorem modShare_share (s : State) (f : Share → Share) : (s.modShare f).share = f s.share := rfl
@[simp] theorem modShare_strand (s : State) (f : Share → Share) : (s.modShare f).strand = s.strand := rfl
@[simp] theorem modShare_regs (s : State) (f : Share → Share) : (s.modShare f).regs = s.regs := rfl
@[simp] theorem modShare_ap (s : State) (f : Share → Share) : (s.modShare f).ap = s.ap := rfl
@[simp] theorem modShare_ep (s : State) (f : Share → Share) : (s.modShare f).ep = s.ep := rfl
@[simp] theorem modShare_inShadow (s : State) (f : Share → Share) : (s.modShare f).inShadow = s.inShadow := rfl
@[simp] theorem modShare_engine (s : State) (f : Share → Share) : (s.modShare f).engine = s.engine := rfl

/-! ### `modPack` -/
@[simp] theorem modPack_core (s : State) (f : Package → Package) : (s.modPack f).core = s.core := rfl
@[simp] theorem modPack_parked (s : State) (f : Package → Package) : (s.modPack f).parked = s.parked := rfl
@[simp] theorem modPack_hub (s : State) (f : Package → Package) : (s.modPack f).hub = s.hub := rfl
@[simp] theorem modPack_mem (s : State) (f : Package → Package) : (s.modPack f).mem = s.mem := rfl
@[simp] theorem modPack_agenda (s : State) (f : Package → Package) : (s.modPack f).agenda = s.agenda := rfl
@[simp] theorem modPack_rota (s : State) (f : Package → Package) : (s.modPack f).rota = s.rota := rfl
@[simp] theorem modPack_input (s : State) (f : Package → Package) : (s.modPack f).input = s.input := rfl
@[simp] theorem modPack_onEngine (s : State) (f : Package → Package) : (s.modPack f).onEngine = s.onEngine := rfl
@[simp] theorem modPack_late (s : State) (f : Package → Package) : (s.modPack f).late = s.late := rfl
@[simp] theorem modPack_clk (s : State) (f : Package → Package) : (s.modPack f).clk = s.clk := rfl
@[simp] theorem modPack_fresh (s : State) (f : Package → Package) : (s.modPack f).fresh = s.fresh := rfl
@[simp] theorem modPack_share_arrays (s : State) (f : Package → Package) :
    (s.modPack f).share.arrays = s.share.arrays := rfl
@[simp] theorem modPack_share_ports (s : State) (f : Package → Package) :
    (s.modPack f).share.ports = s.share.ports := rfl
@[simp] theorem modPack_share_passes (s : State) (f : Package → Package) :
    (s.modPack f).share.passes = s.share.passes := rfl
@[simp] theorem modPack_share_dies (s : State) (f : Package → Package) :
    (s.modPack f).share.dies = s.share.dies := rfl
@[simp] theorem modPack_share_pack (s : State) (f : Package → Package) :
    (s.modPack f).share.pack = f s.share.pack := rfl
@[simp] theorem modPack_share_pulls (s : State) (f : Package → Package) :
    (s.modPack f).share.pulls = s.share.pulls := rfl
@[simp] theorem modPack_share_works (s : State) (f : Package → Package) :
    (s.modPack f).share.works = s.share.works := rfl
@[simp] theorem modPack_share_nextPull (s : State) (f : Package → Package) :
    (s.modPack f).share.nextPull = s.share.nextPull := rfl
@[simp] theorem modPack_share_net (s : State) (f : Package → Package) : (s.modPack f).share.net = s.share.net := rfl
@[simp] theorem modPack_share_pod (s : State) (f : Package → Package) : (s.modPack f).share.pod = s.share.pod := rfl
@[simp] theorem modPack_share_replies (s : State) (f : Package → Package) :
    (s.modPack f).share.replies = s.share.replies := rfl
@[simp] theorem modPack_strand (s : State) (f : Package → Package) : (s.modPack f).strand = s.strand := rfl
@[simp] theorem modPack_regs (s : State) (f : Package → Package) : (s.modPack f).regs = s.regs := rfl
@[simp] theorem modPack_ap (s : State) (f : Package → Package) : (s.modPack f).ap = s.ap := rfl
@[simp] theorem modPack_ep (s : State) (f : Package → Package) : (s.modPack f).ep = s.ep := rfl
@[simp] theorem modPack_inShadow (s : State) (f : Package → Package) : (s.modPack f).inShadow = s.inShadow := rfl
@[simp] theorem modPack_engine (s : State) (f : Package → Package) : (s.modPack f).engine = s.engine := rfl

/-! ### `modHub` -/
@[simp] theorem modHub_core (s : State) (f : Hub → Hub) : (s.modHub f).core = s.core := rfl
@[simp] theorem modHub_parked (s : State) (f : Hub → Hub) : (s.modHub f).parked = s.parked := rfl
@[simp] theorem modHub_share (s : State) (f : Hub → Hub) : (s.modHub f).share = s.share := rfl
@[simp] theorem modHub_mem (s : State) (f : Hub → Hub) : (s.modHub f).mem = s.mem := rfl
@[simp] theorem modHub_agenda (s : State) (f : Hub → Hub) : (s.modHub f).agenda = s.agenda := rfl
@[simp] theorem modHub_rota (s : State) (f : Hub → Hub) : (s.modHub f).rota = s.rota := rfl
@[simp] theorem modHub_input (s : State) (f : Hub → Hub) : (s.modHub f).input = s.input := rfl
@[simp] theorem modHub_onEngine (s : State) (f : Hub → Hub) : (s.modHub f).onEngine = s.onEngine := rfl
@[simp] theorem modHub_late (s : State) (f : Hub → Hub) : (s.modHub f).late = s.late := rfl
@[simp] theorem modHub_clk (s : State) (f : Hub → Hub) : (s.modHub f).clk = s.clk := rfl
@[simp] theorem modHub_fresh (s : State) (f : Hub → Hub) : (s.modHub f).fresh = s.fresh := rfl
@[simp] theorem modHub_hub (s : State) (f : Hub → Hub) : (s.modHub f).hub = f s.hub := rfl
@[simp] theorem modHub_strand (s : State) (f : Hub → Hub) : (s.modHub f).strand = s.strand := rfl
@[simp] theorem modHub_regs (s : State) (f : Hub → Hub) : (s.modHub f).regs = s.regs := rfl
@[simp] theorem modHub_ap (s : State) (f : Hub → Hub) : (s.modHub f).ap = s.ap := rfl
@[simp] theorem modHub_ep (s : State) (f : Hub → Hub) : (s.modHub f).ep = s.ep := rfl
@[simp] theorem modHub_inShadow (s : State) (f : Hub → Hub) : (s.modHub f).inShadow = s.inShadow := rfl
@[simp] theorem modHub_engine (s : State) (f : Hub → Hub) : (s.modHub f).engine = s.engine := rfl

end Sys2Proof.Machine.State
end

