-- ==== Sys2Proof/Laws/Registers.lean ====
section
/-!
SUPPORT. Reading a register after a register is written: the written value, or the value before, for every code.
-/
namespace Sys2Proof.Machine

theorem allotAp_cases (rot : Word) : allotAp rot = 0 ∨ allotAp rot = 8 ∨ allotAp rot = 16 ∨ allotAp rot = 32 := by
  unfold allotAp; split <;> simp

theorem allotEp_cases (rot : Word) : allotEp rot = 0 ∨ allotEp rot = 8 ∨ allotEp rot = 16 := by
  unfold allotEp; split <;> simp

/-- The rotation keeps a code inside the file. -/
theorem physReg_lt (base n k c w : Nat) (hc : c < w) (hb : base + n ≤ w) : physReg base n k c < w := by
  unfold physReg
  split
  · have := Nat.mod_lt (c - base + (n - k % n)) (show 0 < n by omega); omega
  · exact hc

/-- The rotation gives no two codes one register. -/
theorem physReg_inj (base n k c d : Nat) (h : physReg base n k c = physReg base n k d) : c = d := by
  unfold physReg at h
  split at h <;> split at h
  · next hc hd =>
    have e : c - base = d - base :=
      Nat.ModEq.eq_of_lt_of_lt (Nat.ModEq.add_right_cancel' (n - k % n) (Nat.add_left_cancel h)) (by omega) (by omega)
    omega
  · next hc hd => have := Nat.mod_lt (c - base + (n - k % n)) (show 0 < n by omega); omega
  · next hc hd => have := Nat.mod_lt (d - base + (n - k % n)) (show 0 < n by omega); omega
  · exact h

theorem Regs.apPhys_lt (r : Regs) (c : Nat) (h : c < 64) : r.apPhys c < 64 :=
  physReg_lt _ _ _ _ _ h (by rcases allotAp_cases r.rotbase with h | h | h | h <;> simp [h])

theorem Regs.epPhys_lt (r : Regs) (c : Nat) (h : c < 32) : r.epPhys c < 32 :=
  physReg_lt _ _ _ _ _ h (by rcases allotEp_cases r.rotbase with h | h | h <;> simp [h])

/-- `a0` and `h0` read as zero, and writing them changes nothing. -/
@[simp] theorem State.aread_zero (s : State) : s.aread 0 = 0 := by simp [State.aread]
@[simp] theorem State.awrite_zero (s : State) (v : Word) : s.awrite 0 v = s := by simp [State.awrite]

/-- A register written reads as the value written, and every other code as before. -/
theorem State.aread_awrite (s : State) (c d : Nat) (v : Word) (hc : c ≠ 0) (hw : c < if s.inShadow then 32 else 64) :
    (s.awrite c v).aread d = if d = c then v else s.aread d := by
  rcases Nat.eq_zero_or_pos d with rfl | hd
  · simp [hc.symm]
  unfold State.awrite
  rw [if_neg hc]
  split
  · next hs =>
    simp only [hs, if_true] at hw
    have e : (s.modStrand fun t => { t with shadow := { t.shadow with h := t.shadow.h.setIfInBounds c v } }).inShadow = true := hs
    simp only [State.aread, e, hs, if_true, if_neg (Nat.pos_iff_ne_zero.1 hd)]
    by_cases h : d = c
    · subst h; simp [hw]
    · have : (s.strand.shadow.h.setIfInBounds c v)[d]? = s.strand.shadow.h[d]? := by
        rw [Vector.getElem?_setIfInBounds_ne (Ne.symm h)]
      simp [h, this]
  · next hs =>
    simp only [hs] at hw
    have e : (s.modRegs fun r => { r with a := r.a.setIfInBounds (r.apPhys c) v }).inShadow = s.inShadow := rfl
    have g : (s.modRegs fun r => { r with a := r.a.setIfInBounds (r.apPhys c) v }).regs.apPhys d = s.regs.apPhys d := rfl
    simp only [State.aread, e, hs, Bool.false_eq_true, if_false, if_neg (Nat.pos_iff_ne_zero.1 hd), g]
    by_cases h : d = c
    · subst h
      have := Regs.apPhys_lt s.regs d (by simpa using hw)
      simp [this]
    · have n : s.regs.apPhys c ≠ s.regs.apPhys d := fun x => h (physReg_inj _ _ _ _ _ x).symm
      simp [h, Vector.getElem?_setIfInBounds_ne n]

/-- The same for the EP's registers. -/
theorem State.eread_ewrite (s : State) (c d : Nat) (v : Word) (hc : c < 32) :
    (s.ewrite c v).eread d = if d = c then v else s.eread d := by
  have g : (s.ewrite c v).regs.epPhys d = s.regs.epPhys d := rfl
  simp only [State.eread, g]
  by_cases h : d = c
  · subst h; simp [State.ewrite, Regs.epPhys_lt s.regs d hc]
  · have n : s.regs.epPhys c ≠ s.regs.epPhys d := fun x => h (physReg_inj _ _ _ _ _ x).symm
    simp [State.ewrite, h, Vector.getElem?_setIfInBounds_ne n]

/-- `n0` reads as zero and `f0` as one; other registers of an engine read as written. -/
@[simp] theorem Engine.nread_zero (e : Engine) : e.nread 0 = 0 := by simp [Engine.nread]
@[simp] theorem Engine.fread_zero (e : Engine) : e.fread 0 = true := by simp [Engine.fread]
theorem Engine.nread_nwrite (e : Engine) (c d : Nat) (v : Word) (h0 : c ≠ 0) (hc : c < 16) :
    (e.nwrite c v).nread d = if d = c then v else e.nread d := by
  unfold Engine.nwrite Engine.nread
  rw [if_neg h0]
  by_cases h : d = c
  · subst h; simp [h0, hc]
  · simp only [h, if_false, Vector.getElem?_setIfInBounds_ne (Ne.symm h)]
theorem Engine.fread_fwrite (e : Engine) (c d : Nat) (v : Bool) (h0 : c ≠ 0) (hc : c < 8) :
    (e.fwrite c v).fread d = if d = c then v else e.fread d := by
  unfold Engine.fwrite Engine.fread
  rw [if_neg h0]
  by_cases h : d = c
  · subst h; simp [h0, hc]
  · simp only [h, if_false, Vector.getElem?_setIfInBounds_ne (Ne.symm h)]

end Sys2Proof.Machine
end

