-- ==== Sys2Proof/Laws/Run.lean ====
section
/-!
SUPPORT. What the running of a word answers, once its meaning has: it ends, traps, blocks or asks another node.
-/
namespace Sys2Proof.Machine

/-- A word whose meaning ends well ends as its agent ends words. -/
theorem runShared_ok (i : Instr) (m : M Flow) (s t : State) (f : Flow) (h : s.mayRun i = true) (hm : m s = .ok (f, t))
    (hf : f = .seq ∨ ∃ p r, f = .goto p r ∧ s.branchOk p = true) : runShared i m s = .next (s.after t i f) := by
  unfold runShared State.after
  unfold State.mayRun at h
  cases hn : s.onEngine with
  | some n =>
    simp only [hn, runEngine] at h ⊢
    unfold State.branchOk at hf
    rcases hf with rfl | ⟨p, r, rfl, hp⟩ <;> simp_all
  | none =>
    simp only [hn] at h ⊢
    cases he : onEp i with
    | true => simp [he] at h; simp [runEp, h, hm, State.finishEp]
    | false =>
      simp [he] at h
      simp only [runAp, h.1, if_true]
      simp [hm, State.finishAp]
      intro h1 h2; simp [h1] at h; omega

/-- What the AP may run is legal there, and `bq` has room for what it pushes. -/
theorem apRuns_iff (s : State) (i : Instr) : s.apRuns i ↔ s.onEngine = none ∧ onEp i = false ∧ apLegal s i = true ∧
    (pushesBq s i = true → s.strand.queues.bq.length < 64) := by
  unfold State.apRuns State.mayRun
  constructor
  · rintro ⟨h1, h2, h3⟩
    simp only [h1, h2, Bool.false_eq_true, if_false, Bool.and_eq_true, Bool.not_eq_true', Bool.and_eq_false_iff,
      decide_eq_false_iff_not, Nat.not_le] at h3
    exact ⟨h1, h2, h3.1, fun h => h3.2.resolve_left (by simp [h])⟩
  · rintro ⟨h1, h2, h3, h4⟩
    refine ⟨h1, h2, ?_⟩
    simp only [h1, h2, h3, Bool.false_eq_true, if_false, Bool.and_eq_true, Bool.not_eq_true', Bool.and_eq_false_iff,
      decide_eq_false_iff_not, Nat.not_le, true_and]
    cases h : pushesBq s i
    · exact .inl rfl
    · exact .inr (h4 h)

/-- A word of the AP answers what the end of its meaning makes of the state. -/
theorem runAp_of_runs (i : Instr) (m : M Flow) (s : State) (h : s.apRuns i) : runAp i m s = .next (s.finishAp i (m s)) := by
  obtain ⟨-, -, h1, h2⟩ := (apRuns_iff s i).1 h
  simp only [runAp, h1, if_true]
  rw [if_neg]
  simp only [Bool.and_eq_true, decide_eq_true_eq, not_and, ge_iff_le, Nat.not_le]
  exact h2

theorem runAp_ok (i : Instr) (m : M Flow) (s t : State) (f : Flow) (h : s.apRuns i) (hm : m s = .ok (f, t)) :
    runAp i m s = .next ((t.podDone 6).retireAp i f) := by rw [runAp_of_runs i m s h, hm]; rfl

theorem runAp_trap (i : Instr) (m : M Flow) (s : State) (k : Option State) (t : Trap) (h : s.apRuns i)
    (hm : m s = .error (.trap k t)) : runAp i m s = .next ((k.getD s).takeTrap t) := by rw [runAp_of_runs i m s h, hm]; rfl

theorem runAp_block (i : Instr) (m : M Flow) (s : State) (w : Wait) (h : s.apRuns i) (hm : m s = .error (.block w)) :
    runAp i m s = .next (s.blockAp w) := by rw [runAp_of_runs i m s h, hm]; rfl

/-- A word that is not legal there is the illegal-instruction trap. -/
theorem runAp_illegal (i : Instr) (m : M Flow) (s : State) (h : apLegal s i = false) :
    runAp i m s = .next (s.takeTrap (mkTrap .p 1 (s.illegalWord i))) := by simp [runAp, h]

/-- A word of the EP answers what the end of its meaning makes of the state. -/
theorem runEp_of_runs (i : Instr) (m : M Flow) (s : State) (h : s.epRuns i) : runEp i m s = .next (s.finishEp (m s)) := by
  obtain ⟨h0, h1, h2⟩ := h
  simp only [State.mayRun, h0, h1, if_true, Bool.and_eq_true, Bool.not_eq_true'] at h2
  simp [runEp, h2]

theorem runEp_ok (i : Instr) (m : M Flow) (s t : State) (f : Flow) (h : s.epRuns i) (hm : m s = .ok (f, t)) :
    runEp i m s = .next ((t.podDone 7).retireEp f) := by rw [runEp_of_runs i m s h, hm]; rfl

theorem runEp_trap (i : Instr) (m : M Flow) (s : State) (k : Option State) (t : Trap) (h : s.epRuns i)
    (hm : m s = .error (.trap k t)) :
    runEp i m s = .next (((k.getD s).modEp fun e => { e with bind := .none, block := none }).pendTrap t) := by
  rw [runEp_of_runs i m s h, hm]; rfl

theorem runEp_block (i : Instr) (m : M Flow) (s : State) (w : Wait) (h : s.epRuns i) (hm : m s = .error (.block w)) :
    runEp i m s = .next (s.blockEp w) := by rw [runEp_of_runs i m s h, hm]; rfl

/-- Every word that an agent runs answers a next state. -/
theorem runShared_next (i : Instr) (m : M Flow) (s : State) : ∃ t, runShared i m s = .next t := by
  unfold runShared runEngine runEp runAp
  dsimp only
  repeat' split
  all_goals exact ⟨_, rfl⟩

/-- A step of an agent that fetches an instruction is the run of that instruction and the end of the turn. -/
theorem step_run (s t : State) (i : Instr) (h : s.pick = .run i t) : step s = settle (exec i t) := by
  simp only [step, h]

/-- A step that runs no instruction answers a next state. -/
theorem step_done (s t : State) (h : s.pick = .done t) : step s = .next t.settled := by simp only [step, h]

/-- A predicate writer and every other word of the active AP that goes on, with no prefix bound. -/
theorem retireAp_seq (s : State) (i : Instr) (h1 : s.inShadow = false) (h2 : s.ap.bind = .none) :
    s.retireAp i .seq = (s.pushPred i).apGo (s.ap.pc + 4) := by
  simp [State.retireAp, h1, State.retireActive, h2, boundSize]

/-- A control transfer of the active AP. -/
theorem retireAp_goto (s : State) (i : Instr) (p : BitVec 56) (rot : Bool) (h1 : s.inShadow = false) :
    s.retireAp i (.goto p rot) = (s.pushBq (pathEntry (p != s.ap.pc + boundSize s.ap.bind) rot p)).apGo p := by
  simp [State.retireAp, h1, State.retireActive]

/-- A word of the EP that goes on, with no prefix bound. -/
theorem retireEp_seq (s : State) (h : s.ep.bind = .none) :
    s.retireEp .seq = s.epPass.modEp fun e => { e with pc := s.ep.pc + 4 } := by
  simp [State.retireEp, h, boundSize]

/-- Two changes of a strand that agree on it. -/
theorem State.modStrand_congr (s : State) (f g : Strand → Strand) (h : f s.strand = g s.strand) :
    s.modStrand f = s.modStrand g := by
  have e : f s.core.strand = g s.core.strand := h
  simp only [State.modStrand, State.modCore, e]

/-- Entering the handler: with the four saved words and the shadow's pc as given values, the state that stands. -/
def State.entered (s : State) (t : Trap) (cause tpc tinfo : Word) (pc : BitVec 56) : State :=
  ((s.modSys fun y => { y with trapcause := cause, tpc := tpc, tval := t.va, tinfo := tinfo }).modStrand fun x =>
    { x with shadow := { x.shadow with pc := pc },
             ap := { x.ap with block := none, bind := .none, issued := false,
                               arrived := false, offer := none, offered := false, fence := none,
                               monitor := x.ap.monitor.map (Monitor.woken 3) },
             ep := { x.ep with bind := .none } }).modCore fun c => { c with mode := .shadow, trap := some t }

/-- What entering the handler writes and what it leaves. -/
theorem State.entered_fields (s : State) (t : Trap) (cause tpc tinfo : Word) (pc : BitVec 56) :
    (s.entered t cause tpc tinfo pc).core.mode = .shadow ∧ (s.entered t cause tpc tinfo pc).core.trap = some t ∧
    (s.entered t cause tpc tinfo pc).strand.sys =
      { s.strand.sys with trapcause := cause, tpc := tpc, tval := t.va, tinfo := tinfo } ∧
    (s.entered t cause tpc tinfo pc).strand.shadow = { s.strand.shadow with pc := pc } ∧
    (s.entered t cause tpc tinfo pc).regs = s.regs ∧ (s.entered t cause tpc tinfo pc).strand.queues = s.strand.queues ∧
    (s.entered t cause tpc tinfo pc).strand.streams = s.strand.streams ∧
    (s.entered t cause tpc tinfo pc).strand.pins = s.strand.pins ∧
    (s.entered t cause tpc tinfo pc).strand.tiles = s.strand.tiles ∧
    (s.entered t cause tpc tinfo pc).strand.sg = s.strand.sg ∧
    (s.entered t cause tpc tinfo pc).strand.pend = s.strand.pend ∧
    (s.entered t cause tpc tinfo pc).core.engines = s.core.engines ∧
    (s.entered t cause tpc tinfo pc).ap.pc = s.ap.pc ∧ (s.entered t cause tpc tinfo pc).ap.seq = s.ap.seq ∧
    (s.entered t cause tpc tinfo pc).ep.pc = s.ep.pc ∧ (s.entered t cause tpc tinfo pc).ep.seq = s.ep.seq ∧
    (s.entered t cause tpc tinfo pc).mem = s.mem ∧ (s.entered t cause tpc tinfo pc).hub = s.hub ∧
    (s.entered t cause tpc tinfo pc).share = s.share ∧ (s.entered t cause tpc tinfo pc).parked = s.parked := by
  refine ⟨rfl, rfl, rfl, rfl, rfl, rfl, rfl, rfl, rfl, rfl, rfl, rfl, rfl, rfl, rfl, rfl, rfl, rfl, rfl, rfl⟩

/-- The pc of the handler, read before or after the words of the trap are saved. -/
theorem State.enterAt (s : State) (w m : Word) (h : s.strand.sys.shvec = w) :
    (s.modStrand fun x =>
      { x with shadow := { x.shadow with pc := (x.sys.shvec &&& m).setWidth 56 },
               ap := { x.ap with block := none, bind := .none, issued := false,
                                 arrived := false, offer := none, offered := false, fence := none,
                                 monitor := x.ap.monitor.map (Monitor.woken 3) },
               ep := { x.ep with bind := .none } }) = s.modStrand fun x =>
      { x with shadow := { x.shadow with pc := (w &&& m).setWidth 56 },
               ap := { x.ap with block := none, bind := .none, issued := false,
                                 arrived := false, offer := none, offered := false, fence := none,
                                 monitor := x.ap.monitor.map (Monitor.woken 3) },
               ep := { x.ep with bind := .none } } := by
  subst h; apply State.modStrand_congr; rfl

/-- Saving the words of a trap leaves the handler's address. -/
theorem State.modSys_shvec (s : State) (c p v i : Word) :
    (s.modSys fun y => { y with trapcause := c, tpc := p, tval := v, tinfo := i }).strand.sys.shvec =
      s.strand.sys.shvec := rfl

/-- Taking a trap outside the shadow, with a handler, enters it with the words of the trap and the handler's address. -/
theorem takeTrap_handler (s : State) (t : Trap) (h1 : s.inShadow = false)
    (h2 : s.strand.sys.shvec &&& 0x00FFFFFFFFFFFFFC#64 ≠ 0) :
    s.takeTrap t = s.entered t (causeWord t (!s.strand.pend.isEmpty)) ((s.trapPc t).setWidth 64) (infoWord t)
      ((s.strand.sys.shvec &&& 0x00FFFFFFFFFFFFFC#64).setWidth 56) := by
  unfold State.takeTrap State.entered
  rw [if_neg (by simp [h1]), if_neg h2]
  clear h2
  generalize causeWord t (!s.strand.pend.isEmpty) = c
  generalize (s.trapPc t).setWidth 64 = p
  generalize infoWord t = i
  generalize 0x00FFFFFFFFFFFFFC#64 = m
  exact congrArg (fun u : State => u.modCore fun c => { c with mode := .shadow, trap := some t })
    (State.enterAt _ _ m (State.modSys_shvec s c p t.va i))

/-- A cause raised in the shadow, and a trap with no handler, end the strand. -/
theorem takeTrap_shadow (s : State) (t : Trap) (h : s.inShadow = true) : s.takeTrap t = s.endStrand 0x30 t.code t.eng := by
  simp [State.takeTrap, h]

theorem takeTrap_none (s : State) (t : Trap) (h1 : s.inShadow = false)
    (h2 : s.strand.sys.shvec &&& 0x00FFFFFFFFFFFFFC#64 = 0) : s.takeTrap t = s.endStrand t.code t.arg t.eng := by
  simp [State.takeTrap, h1, h2]

end Sys2Proof.Machine
end

