-- ==== Sys2Proof/Tests/Slice0.lean ====
section
/-!
SUPPORT. Tests: words from the encodings of the manual, an ill-formed term for each check, and for each statement
a state and operands that meet its hypotheses, case by case, with what one step then leaves.

The expected values are the manual's own examples, or are worked out by hand from the rule that the statement names.
-/
set_option Elab.async false

namespace Sys2Proof.Tests
open Machine

/-! ### States to start from -/

/-- The next state of an answer; the reset state where it is none. -/
def nextOf : Answer → State
  | .next t => t
  | _ => State.reset

/-- The step that runs an instruction. -/
def ran (i : Instr) (s : State) : State := nextOf (exec i s)

/-- An answer of a partial operation exists and is as said. -/
def onOk {ε α : Type} (x : Except ε α) (p : α → Bool) : Bool :=
  match x with
  | .ok v => p v
  | .error _ => false

/-- A partial operation ends in an error. -/
def trapOf' {ε α : Type} (x : Except ε α) : Bool := !onOk x fun _ => true

/-- The trap that an operation of a meaning ends in. -/
def trapOf {α : Type} (x : Except Stop α) (p : Trap → Bool) : Bool :=
  match x with
  | .error (.trap _ t) => p t
  | _ => false

/-- The leaf of the first 64 KiB, where the tests' code stands, with every permission. -/
def codeLeaf : TlbLeaf := ⟨0, false, 0, 16, 0xFD, 0⟩

/-- Core 0 runs a privileged strand, with every bank, region and root table open and its code's page in the TLB, at address 64 of an
image of 256 zero bytes. -/
def base : State :=
  { State.reset with core := { Core.reset 0 with
      mode := .running
      tlb := [codeLeaf]
      strand := { Strand.reset with
        image := ⟨0, List.replicate 256 0, []⟩
        ap := { Strand.reset.ap with pc := 64 }
        ep := { Strand.reset.ep with pc := 64 }
        info := { KernelInfo.none with priv := true, banks := 0xFF, rset := 0xFFFF } } } }

/-- The same with AP registers set. -/
def withA (l : List (Nat × Word)) : State := l.foldl (fun s x => s.awrite x.1 x.2) base

/-- The AP has passed the word at which the EP stands. -/
def atEp : State := base.modAp fun a => { a with pc := 68, seq := 1 }

/-- The same with EP registers set. -/
def withE (l : List (Nat × Word)) : State := l.foldl (fun s x => s.ewrite x.1 x.2) atEp

/-- The shadow runs for a trap, with a handler at 128. -/
def inHandler (t : Trap) : State :=
  (base.modSys fun y => { y with shvec := 128 }).takeTrap t

/-- A trap of a plain AP word. -/
def plainTrap : Trap := mkTrap .p 0x10 0

/-- Engine n reads a command at RP 0 of an enabled ring of 256 bytes, in a phase. -/
def onRing (n : Nat) (p : Phase) : State :=
  { base.setEngine n { Engine.reset with cfg := 0xC000000#64, wp := 1, phase := p } with onEngine := some n }

/-- An address in a1 and a value in a2. -/
def scratch (a : Word) : State := withA [(1, a), (2, 0x1122334455667788#64)]

/-- A leaf of the TLB for 64 KiB of device memory and host memory from 0x10000, with entry bits A, D, U, W, R. -/
def leafOf64 (host : Bool) (bits_ : Word) : TlbLeaf := ⟨0, host, 0x10000, 16, bits_ ||| (0x100#64 <<< 8), 0⟩

/-- Device and host memory open at 0x10000, with a1 and rl0 there, and a0 past it. -/
def paged (bits_ : Word) (a : Word) : State :=
  ((withA [(1, a), (2, 0x55)]).modCore fun c => { c with tlb := [leafOf64 false bits_, leafOf64 true bits_] }).modStrand fun x =>
    { x with sys := { x.sys with hptbase := 1 } }


/-! ### Words, written out from the encodings (R43 to R68, R326, R342)

Every field of a word holds another value, with its highest bit set.
-/

/-- Does a word decode to an instruction? -/
def reads (d : Word32 → Except Reject Instr) (l : List (Word32 × Instr)) : Bool := l.all fun x => onOk (d x.1) (· == x.2)

theorem test_words_control_and_integer : reads decodeStrand
  [(0x02860002, .bt 33 131074), (0x04860002, .bf 33 131074), (0x06860002, .call 33 131074), (0x08021000, .jr 33),
   (0x0A9A3804, .lbeg 1 6 35 2052), (0x0C160002, .lend 5 131074), (0x218A3900, .add 1 34 35 36),
   (0x218A3901, .sub 1 34 35 36), (0x218A3902, .and 1 34 35 36), (0x218A3903, .or 1 34 35 36), (0x218A3904, .xor 1 34 35 36),
   (0x218A3905, .andn 1 34 35 36), (0x218A3906, .shl 1 34 35 36), (0x218A3907, .shr 1 34 35 36),
   (0x218A3908, .sra 1 34 35 36), (0x218A3909, .min 1 34 35 36), (0x218A390A, .max 1 34 35 36),
   (0x218A390B, .minu 1 34 35 36), (0x218A390C, .maxu 1 34 35 36), (0x218A390D, .mul 1 34 35 36),
   (0x218A390E, .mulh 1 34 35 36), (0x218A390F, .mulhu 1 34 35 36), (0x218A3910, .adds 1 34 35 36),
   (0x218A3911, .subs 1 34 35 36), (0x218A3912, .addus 1 34 35 36), (0x218A3913, .subus 1 34 35 36),
   (0x218A3014, .sextb 1 34 35), (0x218A3015, .sexth 1 34 35)] = true := by decide +kernel

theorem test_words_integer_and_prefix : reads decodeStrand
  [(0x218A3016, .sextw 1 34 35), (0x218A3017, .clz 1 34 35), (0x218A3018, .popc 1 34 35), (0x238A3804, .addi 1 34 35 2052),
   (0x258A3804, .andi 1 34 35 2052), (0x278A3804, .ori 1 34 35 2052), (0x298A3804, .xori 1 34 35 2052),
   (0x2B8A3024, .shli 1 34 35 36), (0x2D8A3024, .shri 1 34 35 36), (0x2F8A3024, .srai 1 34 35 36),
   (0x318A3804, .mini 1 34 35 2052), (0x338A3804, .maxi 1 34 35 2052), (0x358A3901, .cmp 1 34 35 36 1),
   (0x378A3105, .cmpi 1 34 35 0 261), (0x398A3900, .pand 1 34 35 36), (0x398A3901, .por 1 34 35 36),
   (0x398A3902, .pxor 1 34 35 36), (0x398A3903, .pandn 1 34 35 36), (0x398A3004, .pnot 1 34 35),
   (0x3B8A0003, .ldp 1 34 131075), (0x3C84000A, .sgwait 33 10), (0x3C840800, .sgraise 33), (0x3F080002, .repN 1 524290),
   (0x3F100022, .repReg 1 34), (0x3E29C480, .accessPrefix 9 1 1 0 1 0 1), (0x7D800002, .hint 1 8388610)] = true := by decide +kernel

theorem test_words_memory : reads decodeStrand
  [(0x81EA3A05, .ldl 3 10 35 1 517), (0x83EA3A05, .stl 3 10 35 1 517), (0x848627B6, .ldc 33 34 1 1 13 22),
   (0x868627B6, .stc 33 34 1 1 13 22), (0x88862595, .ldcx 33 34 1 12 21), (0x8A862595, .stcx 33 34 1 12 21),
   (0x8C8627B6, .ldg 33 34 1 1 13 22), (0x8E8627B6, .stg 33 34 1 1 13 22), (0x90862595, .ldo 33 34 1 12 21),
   (0x92862595, .sto 33 34 1 12 21), (0x948731B6, .ldd 33 1 19 0 13 22), (0x96A755F8, .lddQ 5 0 1 1 21 2 15 24),
   (0x988731B6, .std 33 1 19 0 13 22), (0x9A862160, .ldh 33 34 11), (0x9CA641A0, .ldhQ 5 0 1 36 13),
   (0x9E862160, .sth 33 34 11), (0xA08628E0, .amoAdd 33 34 35 2), (0xA08628E1, .amoAnd 33 34 35 2),
   (0xA08628E2, .amoOr 33 34 35 2), (0xA08628E3, .amoXor 33 34 35 2), (0xA08628E4, .amoSmax 33 34 35 2),
   (0xA08628E5, .amoSmin 33 34 35 2), (0xA08628E6, .amoUmax 33 34 35 2), (0xA08628E7, .amoUmin 33 34 35 2),
   (0xA08628E8, .amoSwap 33 34 35 2), (0xA08628E9, .amoCas 33 34 35 2), (0xA2862F80, .waita 33 34 7 12),
   (0xA4140000, .facq 5), (0xA4140001, .frel 5), (0xA4140002, .facqrel 5), (0xA4021883, .cinv 33 34),
   (0xA4021884, .dcfence 33 34), (0xA6273015, .sbaseD 9 1 19 0 21), (0xA8262803, .sbase 9 34 2051),
   (0xAA262174, .sld 9 34 11 20), (0xAC262174, .sst 9 34 11 20), (0xAE262001, .sset 9 34 1), (0xB084A001, .sget 33 10 1),
   (0xB284000A, .xpop 33 10), (0xB302100A, .xpush 33 10), (0xB5862E01, .cvt 33 34 7 0 1)] = true := by decide +kernel

theorem test_words_execute : reads decodeStrand
  [(0xC19ABC20, .vadd 9 10 11 12 1), (0xC19ABC21, .vsub 9 10 11 12 1), (0xC19ABC22, .vmul 9 10 11 12 1),
   (0xC19ABC23, .vfma 9 10 11 12 1), (0xC19ABC24, .vdiv 9 10 11 12 1), (0xC19A0B05, .vsqrt 9 10 11 0),
   (0xC19A0B06, .vneg 9 10 11 0), (0xC19A0B07, .vabs 9 10 11 0), (0xC19ABC28, .vmin 9 10 11 12 1),
   (0xC19ABC29, .vmax 9 10 11 12 1), (0xC19A0B0A, .vmov 9 10 11 0), (0xC19ABC2B, .vadds 9 10 11 12 1),
   (0xC19ABC2C, .vsubs 9 10 11 12 1), (0xC19ABC2D, .vand 9 10 11 12 1), (0xC19ABC2E, .vor 9 10 11 12 1),
   (0xC19ABC2F, .vxor 9 10 11 12 1), (0xC19ABC30, .vshl 9 10 11 12 1), (0xC19ABC31, .vshr 9 10 11 12 1),
   (0xC19ABC32, .vsra 9 10 11 12 1), (0xC19A0B13, .vexp 9 10 11 0), (0xC19A0B14, .vlog 9 10 11 0),
   (0xC19A0B15, .vrsqrt 9 10 11 0), (0xC19A0B16, .vtanh 9 10 11 0), (0xC19A0B17, .vsigm 9 10 11 0),
   (0xC39A0B00, .vrsum 9 10 11), (0xC39ABC01, .vdot 9 10 11 12), (0xC39A0B02, .vrmax 9 10 11), (0xC39A0B03, .vrmin 9 10 11),
   (0xC39A0B04, .vrsums 9 10 11), (0xC39ABC05, .vdots 9 10 11 12), (0xC59A0B00, .vcvt 9 10 11 0),
   (0xC59A0B01, .vcvtH16 9 10 11 0), (0xC59A0B02, .vcvtH32 9 10 11 0), (0xC79A0B00, .vsign 9 10 11 0),
   (0xC79ABC21, .vcmpgt 9 10 11 12 1), (0xC79ABC22, .vcmpge 9 10 11 12 1), (0xC79ABC23, .vcmpeq 9 10 11 12 1),
   (0xC79ABC24, .vthr 9 10 11 12 1), (0xC79A0B05, .vargmax 9 10 11 0), (0xC79A0B06, .vargmin 9 10 11 0),
   (0xC79A0B07, .vtopk 9 10 11 0), (0xC9000000, .chainB), (0xC9000001, .chainE), (0xCA8628C0, .mmz 33 34 35),
   (0xCA8628C1, .mma 33 34 35), (0xCA8628C2, .mdr 33 34 35), (0xCA8628C3, .mxz 33 34 35), (0xCA8628C4, .mxa 33 34 35),
   (0xCA8628C5, .mld 33 34 35), (0xCA021886, .seg 33 34)] = true := by decide +kernel

theorem test_words_matrix_to_system : reads decodeStrand
  [(0xCA8628CB, .mxzHd16 33 34 35), (0xCA8628CC, .mxaHd16 33 34 35), (0xCA862010, .tget 33 34), (0xCA021891, .tput 33 34),
   (0xCA840012, .tkill 33), (0xCA8628D3, .mxzHd32 33 34 35), (0xCA8628D4, .mxaHd32 33 34 35), (0xCC021881, .copy 33 34 1),
   (0xCE1628C0, .cnv 5 34 35), (0xCE1628C1, .cnvH16 5 34 35), (0xCE1628C2, .cnvH32 5 34 35), (0xD08628C0, .nbmv 33 34 35 0),
   (0xD08628C8, .nbmva 33 34 35 0), (0xD2021880, .wqe 33 34), (0xD416200B, .rapp 5 34 11), (0xD68628C0, .publ 33 34 35),
   (0xD68628C1, .pull 33 34 35), (0xD6021002, .decl 33), (0xD6000003, .pfence), (0xD802188B, .ljoin 33 34 11),
   (0xD802189B, .linc 33 34 11), (0xD80218AB, .lst 33 34 11), (0xD886203B, .lld 33 34 11), (0xDA86216C, .lldt 33 34 11 12),
   (0xE0840802, .csrr 33 2050), (0xE2021802, .csrw 33 2050), (0xE4000801, .trap 2049), (0xE6000000, .halt),
   (0xE6000001, .tfence), (0xE6000002, .yield), (0xE6000003, .yieldp)] = true := by decide +kernel

theorem test_words_cricket : reads decodeCricket
  [(0x00080010, .cricketHalt 32769 0), (0x06880002, .cricketLi 5 524290), (0x0A808002, .cricketLhi 5 32770),
   (0x0EEE0000, .cricketAdd 5 6 7), (0x12EE0000, .cricketSub 5 6 7), (0x16EE0000, .cricketAnd 5 6 7),
   (0x1AEE0000, .cricketOr 5 6 7), (0x1EEE0000, .cricketXor 5 6 7), (0x22EE0000, .cricketSltu 5 6 7),
   (0x26E80003, .cricketAddi 5 6 524291), (0x2AE00013, .cricketShli 5 6 19), (0x2EE00013, .cricketShri 5 6 19),
   (0x32800202, .cricketPkt 5 514), (0x34500202, .cricketSetpkt 5 514), (0x3A800803, .cricketLd 5 0 2051),
   (0x3C500803, .cricketSt 5 0 2051), (0x42E01000, .cricketLdr 5 6 1), (0x445C1000, .cricketStr 5 6 1),
   (0x48580002, .cricketBz 5 524290), (0x4C580002, .cricketBnz 5 524290), (0x50081802, .cricketLoop 129 2050)] = true := by decide +kernel

theorem test_words_ring0 : reads (decodeRing 0)
  [(0x818A0003, .mmzCmd 1 34 131075), (0x838A0003, .mmaCmd 1 34 131075), (0x858A0003, .mdrCmd 1 34 131075),
   (0x87898004, .mxzCmd 1 34 1 32772), (0x89898004, .mxaCmd 1 34 1 32772), (0x8B8A0003, .mldCmd 1 34 131075),
   (0x8D020002, .segCmd 1 131074)] = true := by decide +kernel

theorem test_words_ring1 : reads (decodeRing 1)
  [(0x81020002, .cpq 1 131074)] = true := by decide +kernel

theorem test_words_ring3 : reads (decodeRing 3)
  [(0x813A0004, .cvq 1 0 7 131076)] = true := by decide +kernel

theorem test_words_ring4 : reads (decodeRing 4)
  [(0x81800002, .nbq 1 0x800002)] = true := by decide +kernel

theorem test_words_ring5 : reads (decodeRing 5)
  [(0x81020002, .wqeCmd 1 131074)] = true := by decide +kernel

/-- Packets: opcode, sub-code and length in the header (R326). -/
theorem test_words_packets :
    (([([0x00000001, 9], .pktNop [9]), ([0x01000003, 1, 2, 3], .pktWrite [1, 2, 3]), ([0x01010003, 1, 2, 3], .pktWriteAdd [1, 2, 3]),
       ([0x02030005, 1, 2, 3, 4, 5], .pktWaitmem 3 [1, 2, 3, 4, 5]), ([0x03020004, 1, 2, 3, 4], .pktCond 2 [1, 2, 3, 4]),
       ([0x04000003, 1, 2, 3], .pktIb [1, 2, 3]), ([0x05000002, 1, 2], .pktLoop [1, 2]), ([0x06000007, 1, 2, 3, 4, 5, 6, 7], .pktLoadslot [1, 2, 3, 4, 5, 6, 7]),
       ([0x07000001, 63], .pktEvictslot [63]), ([0x08000003, 0x100, 1, 2], .pktInvoke [0x100, 1, 2]), ([0x09000000], .pktFence), ([0x0A000000], .pktFfence),
       ([0x0B000002, 1, 2], .pktEvent [1, 2]), ([0x0C000002, 1, 2], .pktSummary [1, 2]), ([0x0D000003, 1, 2, 3], .pktQcbSh [1, 2, 3]),
       ([0x0D010003, 1, 2, 3], .pktQcbCommit [1, 2, 3]), ([0x0D020003, 1, 2, 3], .pktQcbRead [1, 2, 3])] : List (List Word32 × Instr)).all fun x =>
      onOk (decodePacketAt x.1) (fun r => r.1 == x.2 && r.2.isEmpty)) = true := by decide +kernel


/-! ### Ill-formed terms (R22, R26, R46 to R68, R99, R152 to R166, R246, R326) -/

/-- A term for each check of the strand's words that the check refuses, beside a term that passes it. -/
theorem test_wf_refuses_strand :
    ([.bt 48 0, .call 0 0, .call 32 0, .lbeg 0 6 0 1, .lbeg 0 0 0 0, .lbeg 0 0 0 2048, .lend 6 0, .add 1 32 0 0, .add 1 0 40 0, .clz 1 0 40, .addi 1 32 0 0,
      .cmp 0 32 0 0 0, .cmp 1 1 0 0 0, .cmpi 0 0 0 6 64, .pand 0 0 48 0, .pnot 0 32 0, .ldp 1 32 0, .sgwait 63 0, .sgraise 63, .repReg 1 40,
      .accessPrefix 0 1 0 6 0 0 0, .accessPrefix 0 1 0 0 0 3 0, .accessPrefix 0 0 0 1 0 0 0, .ldc 1 0 0 1 0 0, .ldc 1 1 0 1 0 0, .stc 1 0 0 1 0 0,
      .ldg 0 0 0 1 0 16, .lddQ 0 3 0 0 0 0 0 0, .ldhQ 0 1 0 0 0, .waita 0 0 5 0, .facq 6, .xpush 40 0, .cvt 0 0 5 0 0] : List Instr).all
      (fun i => !strandWf i) = true ∧
    ([.bt 47 0, .call 31 0, .lbeg 0 5 0 2047, .lend 5 0, .add 1 31 39 0, .cmp 0 31 0 0 0, .cmp 1 32 0 0 0, .cmpi 0 0 0 6 63, .pand 0 31 47 0, .sgwait 62 0,
      .accessPrefix 0 1 0 5 0 2 0, .ldc 1 2 0 1 0 0, .ldg 0 0 0 1 0 15, .ldhQ 0 2 0 0 0, .waita 0 0 4 0, .facq 5, .xpush 39 0] : List Instr).all strandWf = true := by
  decide +kernel

theorem test_wf_refuses_execute :
    ([.ldl 2 0 32 0 1, .vadd 0 0 0 3 0, .vadd 0 0 0 8 1, .vadd 0 0 0 0 5, .vdiv 0 0 0 8 0, .vadds 0 0 0 0 0, .vrsum 0 0 13, .vdot 0 0 0 14, .vrmax 0 0 3,
      .vrsums 0 0 7, .vdots 0 0 0 8, .vcvt 0 0 14 0, .vcvt 0 0 0 5, .vsign 0 0 3 0, .mmz 48 0 0, .tkill 48, .cnv 5 0 0, .rapp 6 0 0, .csrr 0 0x18, .csrw 0 0x1F3] :
      List Instr).all (fun i => !strandWf i) = true ∧
    ([.vadd 0 0 0 2 4, .vadd 0 0 0 12 0, .vdiv 0 0 0 2 0, .vadds 0 0 0 10 0, .vrsum 0 0 12, .vdot 0 0 0 13, .vrsums 0 0 8, .vdots 0 0 0 9, .vcvt 0 0 13 4,
      .mmz 47 0 0, .rapp 5 0 0, .csrr 0 0x17, .csrw 0 0x1F2] : List Instr).all strandWf = true := by decide +kernel

/-- Words of an engine, of the shadow and of a program. -/
theorem test_wf_refuses_others :
    ([.bt 8 0, .lbeg 1 0 0 1, .lbeg 0 4 0 1, .lend 4 0, .add 0 16 0 0, .cmp 0 8 0 0 0, .repN 1 0, .mmzCmd 0 48 0, .mxzCmd 0 0 3 0, .cvq 0 3 0 0, .cvq 0 0 5 0,
      .ldc 0 0 0 0 0 0] : List Instr).all (fun i => !engineWf i) = true ∧
    ([.halt, .jr 32, .add 0 32 0 0, .cmp 0 8 0 0 0, .vadd 0 0 0 0 0] : List Instr).all (fun i => !shadowWf i) = true ∧
    ([.bt 7 0, .lbeg 0 3 15 2047, .add 0 15 15 15, .mmzCmd 0 47 0, .mxzCmd 0 0 2 0, .cvq 0 2 4 0] : List Instr).all engineWf = true ∧
    ([.jr 31, .add 0 31 31 31, .ldc 31 2 0 0 0 0] : List Instr).all shadowWf = true := by decide +kernel

theorem test_wf_refuses_packets : packetWf (.pktNop (List.replicate 65536 0)) = false ∧ packetWf .halt = false ∧ packetWf (.pktNop [1]) = true :=
  ⟨by simp only [packetWf, List.length_replicate]; decide, rfl, by decide⟩

/-! ### Words (R43 to R68) -/

theorem test_decode_control : decodeStrand 0x22141005#32 = .ok (.addi 0 5 1 5) := by rfl
theorem test_refuses_reserved : (decodeStrand 0xFFFFFFFF#32).toOption = none := by decide +kernel

theorem test_step_runs_word : (nextOf (step (State.reset.withFetchWord 32 0x22141005))).aread 5 = 5 := by decide +kernel

theorem meets_StepRunsFetchedInstruction :
    (match (State.reset.withFetchWord 32 0x22141005).pick with | .run i _ => i == .addi 0 5 1 5 | _ => false) = true := by
  decide +kernel

/-- The AP at the word `addi a5, a1, 5` of its image. -/
def atAddi : State :=
  { (base.modStrand fun x => { x with image := ⟨64, [0x05, 0x10, 0x14, 0x22], []⟩ }) with agenda := [⟨0, .ap⟩] }

/-- The same at a word that no row decodes. -/
def atNoWord : State :=
  { (base.modStrand fun x => { x with image := ⟨64, [0xFF, 0xFF, 0xFF, 0xFF], []⟩, sys := { x.sys with shvec := 128 } }) with agenda := [⟨0, .ap⟩] }

theorem meets_ApStepRunsWord_undecoded :
    atNoWord.apHolds = false ∧ atNoWord.canDeliverTrap = false ∧ atNoWord.strand.image.word atNoWord.wordPc = some 0xFFFFFFFF#32 ∧
    atNoWord.strand.image.badAt atNoWord.wordPc 4 = false ∧ (decodeStrand 0xFFFFFFFF#32).toOption = none ∧
    onOk (({ atNoWord with agenda := [] } : State).translate (atNoWord.wordPc.setWidth 64) ⟨false, true, false, 2⟩ true) (fun _ => true) = true ∧
    (nextOf (step atNoWord)).strand.sys.trapcause.toNat % 2 ^ 16 = 1 := by decide +kernel

theorem meets_ApStepRunsWord :
    onOk (({ atAddi with agenda := [] } : State).translate (atAddi.wordPc.setWidth 64) ⟨false, true, false, 2⟩ true) (fun _ => true) = true ∧
    atAddi.strand.image.badAt atAddi.wordPc 4 = false ∧
    atAddi.core.mode = .running ∧ atAddi.core.gated = false ∧ atAddi.core.halted = false ∧ atAddi.core.frozen = false ∧
    atAddi.apHolds = false ∧ atAddi.canDeliverTrap = false ∧ atAddi.ap.ending = none ∧ atAddi.ap.issued = false ∧
    atAddi.ap.chainPc = none ∧ atAddi.strand.image.word atAddi.wordPc = some 0x22141005#32 ∧
    onEp (.addi 0 5 1 5) = false := by decide +kernel

theorem test_ap_step : (nextOf (step atAddi)).aread 5 = 5 ∧ (nextOf (step atAddi)).ap.pc = 68 := by decide +kernel

/-- `call` with a register code above 31 is no legal word (R80). -/
theorem meets_IllegalWordTraps :
    base.onEngine = none ∧ onEp (.call 32 0) = false ∧ apLegal base (.call 32 0) = false ∧
    (nextOf (exec (.call 32 0) (base.modSys fun y => { y with shvec := 128 }))).strand.sys.trapcause.toNat % 2 ^ 16 = 1 := by
  decide +kernel

/-! ### Registers and the ends of words -/

/-- Registers 63 and 0, the ends of their range, read what is written and zero. -/
theorem meets_RegistersHold :
    base.inShadow = false ∧ (base.awrite 63 7).aread 63 = 7 ∧ (base.awrite 0 7).aread 0 = 0 ∧
    (base.ewrite 31 7).eread 31 = 7 ∧ (base.predWrite 47 true).predAp 47 = true ∧ base.predAp 0 = true := by decide +kernel

/-- With an allotment of 8 and a step of 1, code 32 names register 39 and code 40 itself. -/
theorem test_rotation :
    ({ base.regs with rotbase := 0x400000001#64 } : Regs).apPhys 32 = 39 ∧
    ({ base.regs with rotbase := 0x400000001#64 } : Regs).apPhys 33 = 32 ∧
    ({ base.regs with rotbase := 0x400000001#64 } : Regs).apPhys 40 = 40 := by decide +kernel

/-- The EP with an entry in q7. -/
def popping (l : List QEntry) : State := atEp.modQueues fun z => { z with q := z.q.setIfInBounds 7 l }

theorem meets_QueueOperandPops :
    (popping []).onEngine = none ∧ (popping []).ep.taken = [] ∧ (popping []).strand.queues.q[7]?.getD [] = [] ∧
    (popping [⟨none, 0, none⟩]).strand.queues.q[7]?.getD [] = [⟨none, 0, none⟩] ∧
    (popping [⟨some 5, 1, none⟩]).strand.queues.q[7]?.getD [] = [⟨some 5, 1, none⟩] ∧
    (popping [⟨some 5, 2, none⟩]).strand.queues.q[7]?.getD [] = [⟨some 5, 2, none⟩] ∧
    onOk (rd 1#1 39#6 (popping [⟨some 5, 0, none⟩])) (fun x => x.1 == 5) = true ∧
    onOk (rd 1#1 39#6 (popping [⟨some 5, 1, none⟩])) (fun x => x.1 == 0) = true ∧
    trapOf (rd 1#1 39#6 (popping [⟨some 5, 2, none⟩])) (fun t => t.code == 0x16) = true := by decide +kernel

theorem meets_Retires :
    base.inShadow = false ∧ base.ap.bind = .none ∧ atEp.ep.bind = .none ∧ atEp.ep.writes = [] ∧
    (base.retireAp (.cmp 0 3 1 2 0) .seq).strand.queues.bq = [0x4000000000000003#64] ∧
    (base.retireAp (.jr 1) (.goto 68 true)).strand.queues.bq = [0x1000000000000044#64] ∧
    (base.retireAp (.jr 1) (.goto 72 false)).strand.queues.bq = [0x2000000000000048#64] := by decide +kernel

/-- A `rep` of the AP, and of the EP, with one repetition left. -/
def repeating : State :=
  ((base.modRegs fun r => { r with rc := 0x100000001#64 }).modAp fun a => { a with bind := .rep }).modEp
    fun e => { e with bind := .rep }

theorem meets_RepeatCounts :
    repeating.inShadow = false ∧ repeating.ap.bind = .rep ∧ apPredDest (.add 0 1 2 3) = none ∧
    1 ≤ field repeating.regs.rc 0 32 ∧ repeating.ep.bind = .rep ∧ repeating.ep.writes = [] ∧
    1 ≤ field repeating.regs.rc 32 32 ∧ (repeating.retireAp (.add 0 1 2 3) .seq).ap.pc = 72 ∧
    (repeating.retireEp .seq).ep.pc = 72 := by decide +kernel

/-! ### The shared control subset -/

/-- Operands -1 and 70. -/
def ops : State := withA [(1, 0xFFFFFFFFFFFFFFFF#64), (2, 70)]

theorem meets_IntegerForms :
    (integerForms.all fun p => ops.mayRun (p.1 0 3 1 2)) = true ∧ onOk (rd 0 1 ops) (fun x => x.1.toNat == 2 ^ 64 - 1) = true ∧
    onOk (rd 0 2 ops) (fun x => x.1 == 70) = true ∧
    (integerForms.all fun p => (onRing 1 .acquired).mayRun (p.1 0 3 1 2)) = true ∧
    (integerForms.all fun p => atEp.mayRun (p.1 1 31 39 0)) = true ∧
    (integerUnary.all fun p => ops.mayRun (p.1 0 3 1)) = true ∧ (integerImmediates.all fun p => ops.mayRun (p.1 0 3 1 0x800)) = true ∧
    (integerShifts.all fun p => ops.mayRun (p.1 0 3 1 63)) = true := by decide +kernel

theorem meets_IntegerFormsFrameOnAp :
    ops.inShadow = false ∧ ops.ap.bind = .none ∧ ops.onEngine = none ∧
    (integerForms.all fun p => !onEp (p.1 0 0 1 2) && ops.mayRun (p.1 0 0 1 2) && !onEp (p.1 0 63 1 2) && ops.mayRun (p.1 0 63 1 2)) = true := by
  decide +kernel

/-- Results for -1 and 70, form by form, worked out from the pseudocode of the manual. -/
theorem test_integer_results :
    (ran (.add 0 3 1 2) ops).aread 3 = 69 ∧ (ran (.sub 0 3 2 1) ops).aread 3 = 71 ∧
    (ran (.andn 0 3 1 2) ops).aread 3 = 0xFFFFFFFFFFFFFFB9#64 ∧ (ran (.shl 0 3 1 2) ops).aread 3 = 0xFFFFFFFFFFFFFFC0#64 ∧
    (ran (.shr 0 3 1 2) ops).aread 3 = 0x03FFFFFFFFFFFFFF#64 ∧ (ran (.sra 0 3 1 2) ops).aread 3 = 0xFFFFFFFFFFFFFFFF#64 ∧
    (ran (.min 0 3 1 2) ops).aread 3 = 0xFFFFFFFFFFFFFFFF#64 ∧ (ran (.maxu 0 3 1 2) ops).aread 3 = 0xFFFFFFFFFFFFFFFF#64 ∧
    (ran (.mulh 0 3 1 2) ops).aread 3 = 0xFFFFFFFFFFFFFFFF#64 ∧ (ran (.mulhu 0 3 1 2) ops).aread 3 = 69 ∧
    (ran (.addus 0 3 1 2) ops).aread 3 = 0xFFFFFFFFFFFFFFFF#64 ∧ (ran (.subus 0 3 2 1) ops).aread 3 = 0 ∧
    (ran (.clz 0 3 2) ops).aread 3 = 57 ∧ (ran (.popc 0 3 2) ops).aread 3 = 3 ∧
    (ran (.srai 0 3 1 63) ops).aread 3 = 0xFFFFFFFFFFFFFFFF#64 ∧ (ran (.addi 0 3 1 0xFFF) ops).aread 3 = 0xFFFFFFFFFFFFFFFE#64 := by
  decide +kernel

/-- Saturation at the ends of the signed range. -/
theorem test_saturation :
    (ran (.adds 0 3 1 2) (withA [(1, 0x7FFFFFFFFFFFFFFF#64), (2, 1)])).aread 3 = 0x7FFFFFFFFFFFFFFF#64 ∧
    (ran (.subs 0 3 1 2) (withA [(1, 0x8000000000000000#64), (2, 1)])).aread 3 = 0x8000000000000000#64 := by decide +kernel

theorem meets_Predicates :
    ops.mayRun (.cmp 0 31 1 2 7) = true ∧ ops.mayRun (.cmpi 0 31 1 6 63) = true ∧ ops.mayRun (.pnot 0 31 47) = true ∧
    (predicateForms.all fun p => ops.mayRun (p.1 0 31 47 0)) = true ∧ onOk (rdPred 0 47 ops) (fun x => x.1 == false) = true ∧
    (ran (.cmp 0 31 1 2 2) ops).predAp 31 = true ∧ (ran (.cmp 0 31 1 2 4) ops).predAp 31 = false ∧
    (ran (.cmpi 0 31 2 6 6) ops).predAp 31 = true ∧ (ran (.pandn 0 31 0 47) ops).predAp 31 = true := by decide +kernel

theorem meets_ApWaitsForEpPredicates :
    ((base.modEp fun e => { e with pPend := [⟨0, 32⟩] }).ep.pPend.any fun w => w.pred == (32 : BitVec 6).toNat) = true ∧
    (base.ep.pPend.any fun w => w.pred == (32 : BitVec 6).toNat) = false ∧ base.onEngine = none ∧ base.inShadow = false := by
  decide +kernel

/-- Branches back by 16 words, and forward by one, from 64. -/
theorem meets_BranchesTransfer :
    base.mayRun (.bt 0 0x3FFF0) = true ∧ base.mayRun (.bf 0 1) = true ∧ base.branchOk 0 = true ∧
    base.mayRun (.call 31 2) = true ∧ (withA [(1, 0x80)]).mayRun (.jr 1) = true ∧ field ((withA [(1, 0x80)]).aread 1) 0 2 = 0 ∧
    field ((withA [(1, 0x81)]).aread 1) 0 2 ≠ 0 ∧ base.ap.bind = .none ∧
    (ran (.bt 0 0x3FFF0) base).ap.pc = 0 ∧ (ran (.bf 0 1) base).ap.pc = 68 ∧ (ran (.call 31 2) base).ap.pc = 72 ∧
    (ran (.call 31 2) base).aread 31 = 68 ∧ (ran (.jr 1) (withA [(1, 0x80)])).ap.pc = 0x80 := by decide +kernel

theorem meets_EngineBranchOutOfWindowStops :
    (onRing 1 .acquired).onEngine = some 1 ∧ engineWf (.bt 0 0x3FFFF) = true ∧ ((onRing 1 .acquired).engine 1).fread 0 = true ∧
    ((onRing 1 .acquired).engine 1).reaches (((onRing 1 .acquired).branchTo 0x3FFFF).setWidth 16) = false ∧
    ((ran (.bt 0 0x3FFFF) (onRing 1 .acquired)).engine 1).stopped = true ∧
    ((ran (.bt 0 0x3FFFF) (onRing 1 .acquired)).strand.pend.map (·.code)) = [0x22] := by decide +kernel

/-- A loop of two words at level 5 with a count of 3, and its end at 68. -/
def looping (count st : Word) : State :=
  (withA [(1, 3)]).modRegs fun g => { g with lc := g.lc.setIfInBounds 5 count, lcst := g.lcst.setIfInBounds 5 st,
                                             lcend := g.lcend.setIfInBounds 5 64 }

theorem meets_HardwareLoopsCount :
    base.mayRun (.lbeg 1 5 0 2) = true ∧ base.mayRun (.lbeg 1 5 1 1) = true ∧ (withA [(1, 3)]).mayRun (.lbeg 1 5 1 2) = true ∧
    (base.aread 0) = 0 ∧ (withA [(1, 3)]).aread 1 ≠ 0 ∧ (looping 2 0x3D).mayRun (.lend 5 0x3FFFF) = true ∧
    (looping 2 0x3D).branchTo 0x3FFFF = (0x3D#64 &&& ~~~3).setWidth 56 ∧ bit (0x3D#64) 0 = true ∧
    (looping 2 0x3D).wordPc = ((looping 2 0x3D).regs.lcend[5]?.getD 0).setWidth 56 ∧
    (ran (.lend 5 0x3FFFF) (looping 2 0x3D)).ap.pc = 60 ∧ (ran (.lend 5 0x3FFFF) (looping 1 0x3D)).ap.pc = 68 ∧
    (ran (.lend 5 0x3FFFF) (looping 2 0x3D)).regs.lc[5]? = some 1 ∧ (ran (.lend 5 0x3FFFF) (looping 1 0x3D)).regs.lcst[5]? = some 0x3C ∧
    (ran (.lbeg 1 5 0 2) base).ap.pc = 72 ∧ (ran (.lbeg 1 5 1 2) (withA [(1, 3)])).regs.lc[5]? = some 3 ∧
    bit (0x3C#64) 0 = false := by decide +kernel

theorem meets_SemaphoresCount :
    base.mayRun (.sgwait 62 15) = true ∧ (base.setSema 62 1).waitsAhead 62 6 < ((base.setSema 62 1).sema 62).toNat ∧
    (base.sema 62).toNat ≤ base.waitsAhead 62 6 ∧ base.mayRun (.sgraise 62) = true ∧
    (base.setSema 62 65535).sema 62 = 65535 ∧ (ran (.sgwait 62 15) (base.setSema 62 1)).sema 62 = 0 ∧
    (ran (.sgraise 62) (base.setSema 62 65534)).sema 62 = 65535 ∧ ((ran (.sgwait 62 15) base).ap.block.map (·.cls)) = some 15 := by
  decide +kernel

/-- Class 0 with a bound of 0 in the wait table: the first clk of a block is past it. -/
def impatient : State := base.modRegs fun r => { r with waitb := r.waitb.setIfInBounds 0 0 }

theorem meets_BlocksEndInProgressTrap :
    (nextBlock base.regs base.ap.block { cls := 15, kind := 4, obj := 0 }).cls = 15 ∧
    (nextBlock base.regs base.ap.block { cls := 0, kind := 4, obj := 0 }).count ≤ (nextBlock base.regs base.ap.block { cls := 0, kind := 4, obj := 0 }).bound ∧
    (nextBlock impatient.regs impatient.ap.block { cls := 0, kind := 4, obj := 0 }).bound < (nextBlock impatient.regs impatient.ap.block { cls := 0, kind := 4, obj := 0 }).count ∧
    ({ cls := 0, kind := 4, obj := 0 } : Wait).bounded = true := by decide +kernel

/-! ### Prefixes and literals -/

theorem meets_HintsAndLiterals :
    base.mayRun (.hint 0 0) = true ∧ atEp.mayRun (.hint 1 0xFFFFFF) = true ∧ base.mayRun (.ldp 0 1 0x3FFF0) = true ∧ base.inShadow = false ∧
    (base.wordPc + 4 * (0x3FFF0 : BitVec 18).signExtend 56).toNat % 8 = 0 ∧
    base.strand.image.read (base.wordPc + 4 * (0x3FFF0 : BitVec 18).signExtend 56).toNat 8 = some (List.replicate 8 0) ∧
    base.strand.image.read (base.wordPc + 4 * (46 : BitVec 18).signExtend 56).toNat 8 = some (List.replicate 8 0) ∧
    base.strand.image.read (base.wordPc + 4 * (48 : BitVec 18).signExtend 56).toNat 8 = none ∧
    base.strand.image.badAt (base.wordPc + 4 * (46 : BitVec 18).signExtend 56) 8 = false ∧
    onOk (base.translate ((base.wordPc + 4 * (46 : BitVec 18).signExtend 56).setWidth 64) ⟨false, true, false, 0⟩ base.privileged) (fun _ => true) = true ∧
    ((base.modStrand fun x => { x with image := ⟨0, List.replicate 256 0, [7]⟩ }).strand.image.badAt 240 8) = true ∧
    trapOf' ((base.modCore fun c => { c with tlb := [] }).translate 240 ⟨false, true, false, 0⟩ true) = true ∧
    atEp.mayRun (.ldp 1 31 0) = true ∧ atEp.strand.image.read (atEp.wordPcEp + 4 * (0 : BitVec 18).signExtend 56).toNat 8 = some (List.replicate 8 0) := by
  decide +kernel

/-- A word that `rep` may bind behind the prefix, with an allotment of 8. -/
def beforeAdd : State :=
  (base.modStrand fun x => { x with image := ⟨64, List.replicate 4 0 ++ leBytes 4 ((encode (.add 0 1 2 3)).headD 0).toNat, []⟩ }).modRegs
    fun r => { r with rotbase := 0x500000000#64 }
def beforeAddE : State :=
  (base.modStrand fun x => { x with image := ⟨64, List.replicate 4 0 ++ leBytes 4 ((encode (.add 1 1 2 3)).headD 0).toNat, []⟩ }).modRegs
    fun r => { r with rotbase := 0x500000000#64, e := r.e.setIfInBounds 1 8 }

theorem meets_RepeatPrefixBinds :
    apLegal beforeAdd (.repN 0 8) = true ∧ beforeAdd.repTarget 0 = some (.add 0 1 2 3) ∧ field beforeAdd.regs.rc 0 32 = 0 ∧
    allotAp beforeAdd.regs.rotbase = 8 ∧ writesApPred (.add 0 1 2 3) = false ∧ apPredDest (.add 0 1 2 3) = none ∧
    apLegal beforeAdd (.repReg 0 1) = true ∧ field ((beforeAdd.awrite 1 8).aread 1) 0 32 = 8 ∧ (beforeAdd.awrite 1 8).repTarget 0 = some (.add 0 1 2 3) ∧
    beforeAddE.repTarget 1 = some (.add 1 1 2 3) ∧ field beforeAddE.regs.rc 32 32 = 0 ∧ allotEp beforeAddE.regs.rotbase = 8 ∧
    field (beforeAddE.eread 1) 0 32 = 8 ∧ field (ran (.repN 0 8) beforeAdd).regs.rc 0 32 = 8 ∧ (ran (.repN 0 0) beforeAdd).ap.pc = 72 ∧
    (ran (.repN 1 8) beforeAddE).ep.repCount = 8 ∧ (ran (.repReg 1 1) beforeAddE).ep.bind = .rep := by decide +kernel

theorem meets_AccessPrefixBinds :
    base.mayRun (.accessPrefix 0 1 0 5 0 2 0) = true ∧ (ran (.accessPrefix 15 1 0 5 0 2 0) base).ap.bind = .access ⟨15, true, false, 5, false, 2, false⟩ := by
  decide +kernel

/-! ### System instructions, traps and the shadow -/

/-- A request to yield, with a remaining deadline of 1 or of 0. -/
def asked (left : Word) : State := base.modCoreRegs fun r => { r with yreq := 1, ydead := left <<< 32 }

theorem meets_SystemInstructionsAct :
    (base.mayRun (.trap 0xFFF) && base.mayRun .tfence && base.mayRun .yield && (asked 0).mayRun .yield && (asked 1).mayRun .yieldp &&
      base.mayRun .yieldp && base.mayRun .halt) = true ∧ base.core.regs.yreq ≠ 1 ∧ field (asked 0).core.regs.ydead 32 32 = 0 ∧
    field (asked 1).core.regs.ydead 32 32 ≠ 0 ∧ (asked 0).core.regs.yreq = 1 ∧ (ran .yield (asked 1)).ap.ending = some .yield ∧
    (ran .yield (asked 0)).core.saveDue = true ∧ (ran .yieldp (asked 1)).ap.ending = some .yield ∧ (ran .yieldp base).ap.ending = none ∧
    (ran .halt base).ap.ending = some .halt ∧ (ran .halt base).ap.pc = 64 ∧ (ran .tfence base).ap.pc = 68 ∧
    (ran (.trap 0xFFF) base).core.mode = .idle ∧
    (ran (.trap 7) (base.modSys fun y => { y with shvec := 128 })).strand.sys.tpc = 64 := by decide +kernel

theorem meets_TrapEntersHandler :
    (base.modSys fun y => { y with shvec := 128 }).inShadow = false ∧
    field (base.modSys fun y => { y with shvec := 128 }).strand.sys.shvec 2 54 ≠ 0 ∧ (inHandler plainTrap).core.mode = .shadow ∧
    (inHandler plainTrap).strand.shadow.pc = 128 ∧ (inHandler plainTrap).strand.sys.trapcause = 0xFF0010#64 := by decide +kernel

theorem meets_TrapWithoutHandlerEndsStrand :
    base.core.running = none ∧ base.inShadow = false ∧ field base.strand.sys.shvec 2 54 = 0 ∧ (inHandler plainTrap).inShadow = true ∧
    (inHandler plainTrap).core.running = none ∧ (base.takeTrap plainTrap).core.mode = .idle ∧
    ((inHandler plainTrap).takeTrap plainTrap).hub.faults.map (fun r => (r.code, r.arg)) = [(0x30, 0x10)] := by decide +kernel

theorem meets_ShadowReturns :
    (inHandler plainTrap).inShadow = true ∧ (inHandler plainTrap).core.trap = some plainTrap ∧ plainTrap.cls = .p ∧
    plainTrap.code ≠ 8 ∧ (inHandler plainTrap).skipFails = false ∧
    ((base.modSys fun y => { y with shvec := 128 }).modStrand fun x => { x with image := ⟨64, leBytes 4 ((encode (.add 0 1 2 3)).headD 0).toNat, []⟩ }).skipFails = false ∧
    (ran .shretRetry (inHandler plainTrap)).ap.pc = 64 ∧ (ran .shretSkip (inHandler plainTrap)).ap.pc = 68 ∧
    (ran .shretFail (inHandler plainTrap)).core.mode = .idle := by decide +kernel

/-- A trapped word that writes a predicate, or transfers control, cannot be skipped (R391). -/
theorem meets_ShadowReturns_skipFails :
    ((inHandler plainTrap).modStrand fun x =>
      { x with image := ⟨64, leBytes 4 ((encode (.bt 0 1)).headD 0).toNat, []⟩ }).skipFails = true := by decide +kernel

theorem meets_ShretOnlyInShadow :
    (inHandler plainTrap).onEngine = none ∧ apLegal (inHandler plainTrap) (.csrw 0 0x1D1) = true ∧ base.inShadow = false ∧
    (ran (.csrw 0 0x1D1) (inHandler plainTrap)).core.mode = .running ∧ (ran (.csrw 0 0x1D1) base).core.mode = .idle := by decide +kernel

/-- A record of invocation 1 that the core runs, in the shadow. -/
def anInvocation : Invocation := ⟨1, 0, 0, [], 0, 0, none, []⟩
def aRunning : Running := ⟨⟨0, 0, 0, 0, 1, 0, 0, [], 0, [], none⟩, 0, 0, 0, 0⟩
def invoked : State :=
  ((inHandler plainTrap).modCore fun c => { c with running := some aRunning }).modHub fun h => { h with invocations := [anInvocation] }

theorem meets_ShadowFaultEndsStrand :
    invoked.inShadow = true ∧ invoked.core.trap = some plainTrap ∧ invoked.core.running = some aRunning ∧
    anInvocation ∈ invoked.hub.invocations ∧ anInvocation.id = aRunning.record.inv ∧ anInvocation.id ≠ 0 ∧ anInvocation.fault = none ∧
    (invoked.endStrand 0x30 5 255).hub.invocations.map (fun v => v.fault.map (·.code)) = [some 0x30] := by decide +kernel

/-- A pending trap of an engine and one of a pin entry. -/
def pending : State := base.modStrand fun x => { x with pend := [{ mkTrap .b 0x2A 3 with src := 3, eng := 0xFF }, { mkTrap .b 0x21 0 with src := 2, eng := 4 }] }

theorem meets_PendingTrapsDelivered :
    pending.canDeliverTrap = true ∧ (firstTrap pending.strand.pend).map (·.eng) = some 4 ∧ base.canDeliverTrap = false ∧
    (ran .trapDelivery (pending.modSys fun y => { y with shvec := 128 })).strand.pend.length = 1 := by decide +kernel

theorem meets_ErrorsEndStrand :
    base.core.mode ≠ .idle ∧ base.input.c ≠ 1 ∧ ({ base with input := ⟨47, 0, 1, []⟩ } : State).input.c = 1 ∧
    (inHandler plainTrap).inShadow = true ∧ (ran .strandStateError base).core.mode = .idle ∧
    ((ran .strandStateError { base with input := ⟨47, 0, 1, []⟩ }).strand.tile 47).poisoned = true ∧
    (ran .shadowFault (inHandler plainTrap)).hub.faults.map (·.code) = [0x30] := by decide +kernel

/-! ### System registers -/

/-- One register of each kind, by number: the value 5 is written where it may be. -/
theorem meets_SystemRegisters :
    base.mayRun (.csrr 63 0x1E1) = true ∧ ((openRegisters 5).all fun p => base.mayRun (.csrw 1 (BitVec.ofNat 12 p.1))) = true ∧
    ((privilegedRegisters 5).all fun p => base.mayRun (.csrw 1 (BitVec.ofNat 12 p.1))) = true ∧
    (readOnlyRegisters.all fun n => base.mayRun (.csrw 1 (BitVec.ofNat 12 n))) = true ∧ base.privileged = true ∧
    (base.modStrand fun x => { x with info := KernelInfo.none }).privileged = false ∧
    (ran (.csrr 63 0xF) base).aread 63 = 0xFFFFFFFF#64 ∧ (ran (.csrr 63 0x20) base).aread 63 = 0x4000000#64 ∧
    (ran (.csrw 1 0xE) (withA [(1, 0x100000005)])).sysRead 0xE = 5 ∧ (ran (.csrw 1 0x1D0) (withA [(1, 0x1FF)])).sysRead 0x1D0 = 0x1FC ∧
    (ran (.csrw 1 0x1D0) ((withA [(1, 0x1FF)]).modStrand fun x => { x with info := KernelInfo.none })).sysRead 0x1D0 = 0 ∧
    (ran (.csrw 1 0x1D3) (withA [(1, 0x1FF)])).sysRead 0x1D3 = 0 := by decide +kernel

theorem meets_AflagsWrittenInProgramOrder :
    base.inShadow = false ∧ ({ base with input := ⟨0x10000, 0, 0, []⟩ } : State).input.a = (0x10000 : Word).toNat ∧
    (base.modEp fun e => { e with writes := [⟨0, 0x110, 5⟩] }).ep.writes = [⟨(base.modEp fun e => { e with writes := [⟨0, 0x110, 5⟩] }).ep.seq, 0x110, 5⟩] ∧
    (base.modEp fun e => { e with writes := [⟨0, 0x110, 5⟩] }).epPass.regs.aflags = 5 := by decide +kernel

/-! ### Scratchpad memory -/

theorem meets_ScratchLoads :
    ((scratchLoads (scratch 0x7FFFF8) 3 1 3 4 0).all fun f => (scratch 0x7FFFF8).mayRun f.word && !onEp f.word && f.offset % 8 == 0 &&
      f.offset + 8 ≤ f.size && ((scratch 0x7FFFF8).refusal f.space f.offset 8 false).isNone &&
      !((scratch 0x7FFFF8).readScratch f.space f.place 8).1.2 || f.size == 2 ^ 20) = true ∧
    ((scratchLoads (scratch 0xFFFF8) 3 1 3 4 0).all fun f => (scratch 0xFFFF8).mayRun f.word && f.offset % 8 == 0 && f.offset + 8 ≤ f.size &&
      ((scratch 0xFFFF8).refusal f.space f.offset 8 false).isNone) = true ∧
    (scratch 0xFFFF8).inFlight < 8192 ∧ (scratch 0xFFFF8).late = false ∧ (scratch 0xFFFF8).accessOpts.acq = false := by decide +kernel

/-- The checks in turn: misaligned, past the end, a bank that is not open. -/
theorem meets_ScratchAccessChecks :
    ((scratchLoads (scratch 0x7FFFF9) 3 1 3 4 0).all fun f => f.offset % 8 != 0 && (scratch 0x7FFFF9).mayRun f.word) = true ∧
    ((scratchStores (scratch 0x4000000) 2 1 3 4 0).all fun f => f.offset % 8 == 0 && f.size < f.offset + 8 && (scratch 0x4000000).mayRun f.word) = true ∧
    ((scratch 0x7FFFF8).modStrand fun x => { x with info := { x.info with banks := 0x7F } }).refusal .cham 0x7FFFF8 8 false = some (0x14, 7) ∧
    (ran (.ldc 3 1 3 0 4 0) (scratch 0x7FFFF9)).hub.faults.map (·.code) = [0x10] ∧
    (ran (.sto 2 1 3 4 0) (scratch 0x4000000)).hub.faults.map (·.code) = [0x11] := by decide +kernel

theorem meets_LateLoadsWait :
    ((scratchLoads { scratch 0xFFFF8 with late := true } 3 1 3 4 0).all fun f => ({ scratch 0xFFFF8 with late := true } : State).mayRun f.word) = true ∧
    ({ scratch 0xFFFF8 with late := true } : State).late = true ∧ (scratch 0xFFFF8).ap.arrived = false ∧ (scratch 0xFFFF8).inShadow = false ∧
    (ran (.ldc 3 1 3 0 4 0) { scratch 0xFFFF8 with late := true }).ap.issued = true ∧
    (ran .loadDataReturn (ran (.ldc 3 1 3 0 4 0) { scratch 0xFFFF8 with late := true })).ap.arrived = true := by decide +kernel

theorem meets_ScratchStores :
    ((scratchStores (scratch 0xFFFF8) 2 1 3 4 0).all fun f => (scratch 0xFFFF8).mayRun f.word && f.offset % 8 == 0 && f.offset + 8 ≤ f.size &&
      ((scratch 0xFFFF8).refusal f.space f.offset 8 true).isNone) = true ∧ (scratch 0xFFFF8).core.pinnedBy 0xFFFF8 8 = none ∧
    (scratch 0xFFFF8).accessOpts.rel = false ∧
    ((scratch 0xFFFF8).modStrand fun x => { x with pins := x.pins.setIfInBounds 15 { Pin.free with state := 1, off := 0xFFFE0, size := 32 } }).core.pinnedBy 0xFFFF8 8 = some 15 := by
  decide +kernel

/-- A store, then a load of the same bytes, of bytes in order and of a base that it increments. -/
theorem test_store_then_load :
    (ran (.ldc 3 1 3 0 4 0) (ran (.stc 2 1 3 0 4 0) (scratch 0xFFFF8))).aread 3 = 0x1122334455667788#64 ∧
    (ran (.stc 2 1 3 1 4 1) (scratch 0xFFFF8)).aread 1 = 0x100000 ∧
    (ran .storePerform (ran (.stc 2 1 3 0 4 0) (scratch 0xFFFF8))).byteAt .cham false (chamAt 0 0xFFFF8) = 0x88 := by decide +kernel

theorem meets_ScratchReadsSeeStores :
    base.core.order.stores = [] ∧ (base.core.order.scratch.find? fun c => c.space == .cham && c.addr == 24 / 32 * 32) = none ∧
    24 % 32 + 8 ≤ 32 ∧ (∀ c ∈ base.core.order.scratch, c.data.length = 32) := by decide +kernel

theorem meets_OldestStorePerformed :
    (ran (.stc 2 1 3 0 4 0) (scratch 0)).mem.wf = true ∧ (ran (.stc 2 1 3 0 4 0) (scratch 0)).core.order.stores.map (·.space) = [.cham] ∧
    (ran (.stc 2 1 3 0 4 0) (scratch 0)).input.a = 0 := by decide +kernel

/-- One clean sector of the L1. -/
def cached (d : BitVec 32) : State := base.modOrder fun o => { o with l1 := [⟨.dev, false, 0, List.replicate 32 0, d, false⟩] }

theorem meets_OrderTransitions :
    (cached 0).core.order.l1[(cached 0).input.a]?.map (·.dirty) = some 0 ∧ (ran .l1Drop (cached 0)).core.order.l1 = [] ∧
    (cached 1).core.order.l1[(cached 1).input.a]?.map (·.dirty) = some 1 ∧ (ran .l1Writeback (cached 1)).core.order.l1.map (·.dirty) = [0] ∧
    (cached 0).input.b = 0 ∧ (ran .scratchCopyDrop ((cached 0).modOrder fun o => { o with scratch := [⟨.cham, false, 0, List.replicate 32 0, false⟩] })).core.order.scratch = [] := by
  decide +kernel

/-! ### Device and host memory -/

theorem meets_TranslationUsesLeaf :
    vaBad false (1 <<< 56) = true ∧ vaBad false 0x1FFF8 = false ∧ bit (paged 0xFD 0).strand.sys.hptbase 0 = true ∧
    (paged 0xFD 0).tlbFind true (field 0x1FFF8#64 0 56) = some (leafOf64 true 0xFD) ∧
    (paged 0xFD 0).tlbFind false (field 0x1FFF8#64 0 56) = some (leafOf64 false 0xFD) ∧
    bit (leafOf64 false 0xFD).entry 6 = true ∧ bit (leafOf64 false 0xFD).entry 7 = true ∧ (paged 0xFD 0).target 0x1FFF8 ≠ .nothing ∧
    bit (leafOf64 false 0xC1).entry 3 = false := by decide +kernel

theorem test_translation :
    onOk ((paged 0xFD 0).translate 0x1FFF8 ⟨false, true, true, 1⟩ false) (fun r => r.1.pa == 0x1FFF8) = true ∧
    (match (paged 0xC1 0).translate 0x10000 ⟨false, true, true, 1⟩ false with | .error t => (t.code, t.arg) | _ => (0, 0)) = (0x13, 7) := by
  decide +kernel

theorem meets_DeviceLoads :
    (paged 0xFD 0x1FFF8).mayRun (.ldd 3 0 1 0 4 0) = true ∧ (paged 0xFD 0x1FFF8).mayRun (.ldh 3 1 4) = true ∧
    deviceAddress (paged 0xFD 0x1FFF8) 0 1 0 0 = 0x1FFF8 ∧
    onOk ((paged 0xFD 0x1FFF8).translate 0x1FFF8 ⟨false, true, false, 0⟩ true) (fun r => r.2.inFlight < 8192 && !r.2.late && !r.2.accessOpts.acq &&
      (match r.2.readPhys 6 .dev r.1 8 r.2.accessOpts.policy r.2.accessOpts.rc with | .data _ p _ => !p | _ => false)) = true ∧
    onOk ((paged 0xFD 0x1FFF8).translate 0x1FFF8 ⟨true, true, false, 0⟩ true) (fun r =>
      (match r.2.readPhys 6 .host r.1 8 r.2.accessOpts.policy r.2.accessOpts.rc with | .data _ p _ => !p | _ => false)) = true ∧
    onOk ((paged 0xFD 0x20000).translate 0x20000 ⟨false, true, false, 0⟩ true) (fun _ => true) = false ∧
    (ran (.ldd 3 0 1 0 4 0) (paged 0xFD 0x20000)).hub.faults.map (·.code) = [0x12] ∧
    (ran (.ldd 3 0 1 0 4 0) (paged 0xFD 0x1FFF9)).hub.faults.map (·.code) = [0x10] := by decide +kernel

theorem meets_DeviceStores :
    (paged 0xFD 0x1FFF8).mayRun (.std 2 0 1 0 4 0) = true ∧ (paged 0xFD 0x1FFF8).mayRun (.sth 2 1 4) = true ∧
    onOk ((paged 0xFD 0x1FFF8).translate 0x1FFF8 ⟨true, false, true, 1⟩ true) (fun r => r.2.inFlight < 8192 && !r.2.accessOpts.rel) = true ∧
    (ran (.sth 2 1 4) (paged 0xFD 0x1FFF8)).core.order.stores.map (·.addr) = [0x1FFF8] ∧
    (ran (.std 2 0 1 0 4 0) (paged 0xCD 0x1FFF8)).hub.faults.map (·.arg) = [2] := by decide +kernel

/-- Queue 7 with n entries that await data. -/
def waitingQ (n : Nat) : State :=
  (paged 0xFD 0x1FFF8).modQueues fun z => { z with q := z.q.setIfInBounds 7 (List.replicate n ⟨none, 0, some ⟨.dev, 0x1FFF8, 0, false, 0, false, false⟩⟩) }

theorem meets_QueueLoads :
    (waitingQ 63).mayRun (.lddQ 7 2 1 0 1 0 4 0) = true ∧ (waitingQ 63).mayRun (.ldhQ 7 2 1 1 4) = true ∧
    onOk ((waitingQ 63).translate 0x1FFF8 ⟨false, true, false, 0⟩ true) (fun r => (r.2.strand.queues.q[7]?.getD []).length == 63) = true ∧
    onOk ((waitingQ 64).translate 0x1FFF8 ⟨false, true, false, 0⟩ true) (fun r => (r.2.strand.queues.q[7]?.getD []).length == 64 && r.2.inFlight < 8192) = true ∧
    (awaiting ((waitingQ 1).strand.queues.q[7]?.getD []))[0]? = some 0 ∧
    onOk (readAt 8 .dev ⟨0x1FFF8, false, false⟩ 8 0 0 (waitingQ 1)) (fun _ => true) = true ∧
    ((ran .queueEntryFill { waitingQ 1 with input := ⟨8, 0, 0, []⟩ }).strand.queues.q[7]?.getD []).map (·.data) = [some 0] := by decide +kernel

/-! ### Atomics, waiting and fences -/

/-- The atomics at the last word of the Gallery, by form. -/
theorem meets_AtomicsReadModifyWrite :
    (atomicForms.all fun f => (scratch 0xFFFFF8).mayRun (f.1 2 1 2 0) && !onEp (f.1 2 1 2 0)) = true ∧
    onOk (amoPlace .gal 0xFFFFF8 (scratch 0xFFFFF8)) (fun r => r.2.inFlight < 8192 && !r.2.late && !r.2.accessOpts.rel && !r.2.accessOpts.acq &&
      r.2.targetOf .gal r.1.pa == .stack && !(r.2.drainFor .gal r.1.pa 8).storesAhead .gal r.1.pa 8 && !(((r.2.drainFor .gal r.1.pa 8).dropOwn .gal r.1.pa).homeBytes .gal r.1.view r.1.pa 8).2) = true ∧
    (ran (.amoAdd 3 1 2 0) (scratch 0xFFFFF8)).aread 3 = 0 ∧
    (ran (.amoAdd 3 1 2 0) (ran (.amoSwap 3 1 2 0) (scratch 0xFFFFF8))).aread 3 = 0x1122334455667788#64 ∧
    (ran (.amoCas 2 1 2 0) (scratch 0xFFFFF8)).byteAt .gal false (placeOf .gal 0 0xFFFFF8) = 0 ∧
    (ran (.amoAdd 3 1 2 0) (scratch 0xFFFFF9)).hub.faults.map (·.code) = [0x10] := by decide +kernel

/-- A monitor that has been woken, or whose block has outlasted its bound. -/
def monitored (r : Option Nat) : State := base.modAp fun a => { a with monitor := some ⟨.gal, 64, r, 0⟩, block := some ⟨3, 6, 5, 0, 0, 0, 0, 5⟩ }

theorem meets_WaitaWatchesWord :
    (scratch 0x7FFFF8).mayRun (.waita 3 1 0 4) = true ∧ (scratch 0x7FFFF8).monitor = none ∧ (scratch 0x7FFFF8).ap.bind ≠ .rep ∧
    (scratch 0x7FFFF8).refusal .cham 0x7FFFF8 8 false = none ∧ (scratch 0x7FFFF8).core.order.stores = [] ∧
    ((scratch 0x7FFFF8).homeBytes .cham false (chamAt 0 0x7FFFF8) 8).2 = false ∧
    leWord ((scratch 0x7FFFF8).homeBytes .cham false (chamAt 0 0x7FFFF8) 8).1 = (scratch 0x7FFFF8).aread 3 ∧
    leWord ((scratch 0x7FFFF8).homeBytes .cham false (chamAt 0 0x7FFFF8) 8).1 ≠ (scratch 0x7FFFF8).aread 2 ∧
    (ran (.waita 2 1 0 4) (scratch 0x7FFFF8)).ap.pc = 68 ∧ (ran (.waita 3 1 0 4) (scratch 0x7FFFF8)).ap.monitor.isSome = true ∧
    (monitored (some 5)).mayRun (.waita 3 1 0 4) = true ∧ (ran (.waita 3 1 0 4) (monitored (some 5))).aread 3 = 5 ∧
    (monitored none).inShadow = false ∧ (ran .waitaBoundWake (monitored none)).ap.monitor = some ⟨.gal, 64, some 4, 0⟩ ∧
    ((monitored none).homeWrite .gal false 95 [1]).ap.monitor = some ⟨.gal, 64, some 1, 0⟩ ∧
    ((monitored none).homeWrite .gal false 96 [1]).ap.monitor = some ⟨.gal, 64, none, 0⟩ := by decide +kernel

theorem meets_Fences :
    (base.mayRun (.facq 5) && base.mayRun (.frel 5) && base.mayRun (.facqrel 0)) = true ∧ base.drainAll.storesDone = true ∧
    lastUncached (State.drain (lastUncached base.core.order.stores) base).core.order.stores = 0 ∧
    (ran (.frel 5) (cached 1)).core.order.l1.map (·.dirty) = [0] := by decide +kernel

theorem meets_RangeMaintenance :
    (paged 0xFD 0x1FFFF).mayRun (.cinv 1 2) = true ∧ ((paged 0xFD 0x1FFFF).awrite 2 1).mayRun (.dcfence 1 2) = true ∧
    onOk (((paged 0xFD 0x1FFFF).awrite 2 1).drainAll.translate 0x1FFE0 ⟨false, true, true, 1⟩ true) (fun _ => true) = true ∧
    ((paged 0xFD 0x1FFFF).awrite 2 1).drainAll.core.order.stores = [] ∧ ((paged 0xFD 0x1FFFF).awrite 2 0x40000000).aread 2 = 0x40000000 ∧
    (ran (.cinv 1 2) ((paged 0xFD 0x1FFFF).awrite 2 0x40000000)).hub.faults.map (·.code) = [0x11] := by decide +kernel

/-! ### Stream descriptors and execute words -/

/-- A stream of n elements of a format in the Chamber, one behind the other, at POS p. -/
def streamOf (b n fmt size pos : Nat) : Version :=
  ⟨BitVec.ofNat 64 b, BitVec.ofNat 64 (n * 2 ^ 48 + pos * 2 ^ 32 + size), BitVec.ofNat 64 (fmt * 2 ^ 14), 0, 0, false⟩

/-- Streams 1, 2 and 3 of two elements each at 64, 128 and 192, with bytes in memory; the AP has passed the word. -/
def streams3 (fmt size pos : Nat) (x y : List Byte) : State :=
  ((atEp.modStrand fun t => { t with streams := ((t.streams.setIfInBounds 1 ⟨[streamOf 64 2 fmt size pos], 0⟩).setIfInBounds 2
    ⟨[streamOf 128 2 fmt size 0], 0⟩).setIfInBounds 3 ⟨[streamOf 192 2 fmt size 0], 0⟩ }).homeWrite .cham false 128 x).homeWrite .cham false 192 y

/-- Values 3, 4 and 5, 6 of type s32. -/
def adding (pos : Nat) : State := streams3 8 4 pos [3, 0, 0, 0, 4, 0, 0, 0] [5, 0, 0, 0, 6, 0, 0, 0]

theorem meets_DescriptorVersionsMade :
    ((descriptorForms (withA [(1, 64)]) 15 1 0 1 0 1 0xFFF).all fun f => (withA [(1, 64)]).mayRun f.1 && !onEp f.1) = true ∧
    (withA [(1, 64)]).ap.repWrote = false ∧ ((withA [(1, 64)]).stream 15).versions.length ≤ 8 ∧
    (base.modStrand fun t => { t with streams := t.streams.setIfInBounds 15 ⟨List.replicate 9 Version.zero, 0⟩ }).stream 15 = ⟨List.replicate 9 Version.zero, 0⟩ ∧
    base.mayRun (.sget 1 15 3) = true ∧ ((ran (.sbase 15 1 0xFFF) (withA [(1, 64)])).stream 15).apVersion.w0 = 63 ∧
    (ran (.sget 2 15 0) (ran (.sbase 15 1 0xFFF) (withA [(1, 64)]))).aread 2 = 63 := by decide +kernel

/-- Stream 15 has nine versions. -/
def nineVersions : State := (scratch 0x7FFFE0).modStrand fun t => { t with streams := t.streams.setIfInBounds 15 ⟨List.replicate 9 Version.zero, 0⟩ }

theorem meets_DescriptorsLoadAndStore_ninth :
    nineVersions.mayRun (.sld 15 1 4 0) = true ∧ nineVersions.late = false ∧ nineVersions.ap.repWrote = false ∧ (nineVersions.stream 15).versions.length = 9 ∧
    nineVersions.refusal .cham 0x7FFFE0 32 false = none ∧ (nineVersions.readScratch .cham (chamAt 0 0x7FFFE0) 32).1.2 = false ∧
    (ran (.sld 15 1 4 0) nineVersions).ap.block.map (fun b => (b.cls, b.kind, b.obj)) = some (4, 8, 15) := by decide +kernel

theorem meets_DescriptorsLoadAndStore :
    (scratch 0x7FFFE0).mayRun (.sld 15 1 4 0) = true ∧ (scratch 0x7FFC00).mayRun (.sst 15 1 4 31) = true ∧
    (scratch 0x7FFFE0).refusal .cham 0x7FFFE0 32 false = none ∧ ((scratch 0x7FFFE0).readScratch .cham (chamAt 0 0x7FFFE0) 32).1.2 = false ∧
    (scratch 0x7FFFE0).refusal .cham 0x7FFFE0 32 true = none ∧ (scratch 0x7FFFE0).core.pinnedBy 0x7FFFE0 32 = none ∧
    ((ran (.sld 15 1 4 0) (scratch 0x7FFFE0)).stream 15).versions.length = 2 ∧
    (ran (.sst 15 1 4 31) (scratch 0x7FFC00)).core.order.stores.map (·.addr) = [0x800000 - 32] ∧
    (ran (.sld 15 1 4 0) (scratch 0x7FFFE1)).hub.faults.map (·.code) = [0x10] ∧
    (ran (.sst 15 1 4 0) (scratch 0x800000)).hub.faults.map (·.code) = [0x11] := by decide +kernel

theorem meets_StreamElements :
    ((adding 0).stream 2).epVersion.space = 0 ∧ ((adding 0).stream 2).epVersion.fmt ≠ 13 ∧ 8 ≤ ((adding 0).stream 2).epVersion.elemBits ∧
    ((adding 0).stream 2).epVersion.blk = 0 ∧ ((adding 0).stream 2).epVersion.spar = 0 ∧ (adding 0).ep.snaps = [] ∧
    ((adding 0).readScratch .cham (chamAt 0 132) 4).1.2 = false ∧ onOk (((adding 0).epPath 2).elem 1 (adding 0)) (fun x => x.1.code == 4) = true := by
  decide +kernel

/-- The EP at `xpush` and the AP at `xpop`. -/
theorem meets_ReturnQueueAndConversion :
    (withE [(1, 7)]).mayRun (.xpush 1 4) = true ∧ onOk (readEp 1 4 (withE [(1, 7)])) (fun x => x.1 == 7) = true ∧ base.mayRun (.xpop 2 4) = true ∧
    (withE [(1, 7)]).strand.queues.xq.length < 32 ∧ ((withE []).modQueues fun y => { y with xq := List.replicate 32 0 }).strand.queues.xq.length = 32 ∧
    (ran (.xpush 1 4) (withE [(1, 7)])).strand.queues.xq = [7] ∧ (ran (.xpop 2 4) (ran (.xpush 1 4) (withE [(1, 7)]))).aread 2 = 7 ∧
    (withE [(1, 0xFFFFFFFFFFFFFFFF#64)]).mayRun (.cvt 2 1 0 1 0) = true ∧ (ran (.cvt 2 1 0 1 0) (withE [(1, 0xFFFFFFFFFFFFFFFF#64)])).eread 2 = 0 ∧
    (ran (.cvt 2 1 0 2 0) (withE [(1, 0x80000000)])).eread 2 = 0x7FFFFFFF := by decide +kernel

/-- `vadd` of s32: its plan, its units from POS 0, the last one from POS 1, and an element that is poisoned. -/
theorem meets_ExecuteWordsRunTheirUnits :
    (adding 0).mayRun (.vadd 1 2 3 8 0) = true ∧ (vecOf (.vadd 1 2 3 8 0)).isSome = true ∧
    ((vecOf (.vadd 1 2 3 8 0)).bind (planOf (adding 0))).isSome = true ∧ (adding 0).ep.seq < (adding 0).ap.seq ∧
    ((vecOf (.vadd 1 2 3 8 0)).bind (planOf (adding 0))).map (fun p => (p.units, p.main, p.unitOf 1, (runUnits p.unit p.units 0 (adding 0)).isSome)) = some (2, 1, 1, true) ∧
    (ran (.vadd 1 2 3 8 0) (adding 0)).byteAt .cham false 64 = 8 ∧ (ran (.vadd 1 2 3 8 0) (adding 0)).byteAt .cham false 68 = 10 ∧
    (ran (.vadd 1 2 3 8 0) (adding 1)).byteAt .cham false 64 = 0 ∧ (ran (.vadd 1 2 3 8 0) (adding 1)).byteAt .cham false 68 = 10 ∧
    ((ran (.vadd 1 2 3 8 0) (adding 1)).stream 1).epVersion.pos = 0 ∧
    (ran (.vadd 1 2 3 8 0) ((adding 0).setPoison .cham false 4 true)).strand.pend.map (·.code) = [0x16] := by decide +kernel

theorem meets_LaneSlices :
    (adding 0).mayRun (.stl 2 2 0 0 1020) = true ∧ (adding 0).mayRun (.ldl 2 1 31 1 1023) = true ∧ (adding 0).mem.wf = true ∧
    (runUnits (stlUnit 2 4 1020) 2 0 (adding 0)).isSome = true ∧ onOk (((adding 0).epPath 2).elem 1 (adding 0)) (fun x => !x.1.marked && x.2.mem == (adding 0).mem) = true ∧
    (ran (.stl 2 2 0 0 1020) (adding 0)).byteAt .lane false (laneAt 0 1 1020) = 4 := by decide +kernel

/-- An element of BF16, and a row of FP32 elements of 1.0 against 1.0, with a second block of 8. -/
def bfElem (x : Nat) : Elem := ⟨x, bf16.decode x, false⟩
def onesRow (n : Nat) : State :=
  (((atEp.modStrand fun t => { t with streams := ((t.streams.setIfInBounds 1 ⟨[streamOf 64 1 0 4 0], 0⟩).setIfInBounds 2
    ⟨[streamOf 256 n 0 4 0], 0⟩).setIfInBounds 3 ⟨[streamOf 256 n 0 4 0], 0⟩ }).homeWrite .cham false 256
      ((List.replicate n [0, 0, 0x80, 0x3F]).flatten)))

/-- The sum and product of R156's example, rounded once; special inputs of the functions; and values of each kind. -/
theorem meets_FloatResultsRound :
    floatFmt 1 = some bf16 ∧ vopResult 3 1 0 0 false (bfElem 0x3F82) (bfElem 0x3F82) (bfElem 0xBF80) = (0x3D01, Flag.none) ∧
    ([0x3F82, 0x8000, 0xFF80, 0x7FC0].map fun x => bf16.decode x) = [.fin false 130 (-7), .fin true 0 (-133), .inf true, .nan] ∧
    vopResult 20 1 0 0 false (bfElem 0x8000) (bfElem 0) (bfElem 0) = (0xFF80, Flag.dz) ∧
    vopResult 4 1 0 0 false (bfElem 0x3F80) (bfElem 0x8000) (bfElem 0) = (0xFF80, Flag.dz) ∧
    vopResult 5 1 0 0 false (bfElem 0xBF80) (bfElem 0) (bfElem 0) = (0x7FC0, Flag.nv) := ⟨rfl, by decide +kernel⟩

theorem meets_FloatResultsRound_blocks :
    fp32.decodeFtz false 0x3F800000 = .fin false 0x800000 (-23) ∧
    (blockStep false 0 0x3F800000 [(fp32.decode 0x3F800000, fp32.decode 0x40000000)]).1 = 0x40400000 ∧
    ((vecOf (.vdot 1 2 3 0)).map fun x => onOk (redPairs x 32 8 (onesRow 40)) fun r => r.1.length == 8 && r.1.all fun y => !pairMarked y) = some true ∧
    ((vecOf (.vdot 1 2 3 0)).map fun x => onOk (dotBlock x 72 0 1 (onesRow 72)) fun r => r.2.xr.col == 64) = some true ∧
    ((vecOf (.vdot 1 2 3 0)).map fun x => onOk (dotBlock x 40 0 1 (onesRow 40)) fun r => r.2.xr.row == 1) = some true := by decide +kernel

/-- -128 and -1 of type s8: wrap, saturation, and a shift by more than the width. -/
theorem meets_IntegerElementResults :
    intFmt 10 = some (8, true) ∧ (vopResult 0 10 0 0 false ⟨128, .nan, false⟩ ⟨255, .nan, false⟩ ⟨0, .nan, false⟩).1 = 127 ∧
    vopResult 11 10 0 0 false ⟨128, .nan, false⟩ ⟨255, .nan, false⟩ ⟨0, .nan, false⟩ = (128, Flag.sa) ∧
    (vopResult 18 10 0 0 false ⟨128, .nan, false⟩ ⟨255, .nan, false⟩ ⟨0, .nan, false⟩).1 = 255 ∧
    vopResult 6 10 0 0 false ⟨128, .nan, false⟩ ⟨0, .nan, false⟩ ⟨0, .nan, false⟩ = (127, Flag.sa) := by decide +kernel

/-! ### Chains -/

/-- A chain of one `vadd` of FP32 on two elements: 1.0, 1.5 and 1.0, 1.0. -/
def chained : State :=
  (streams3 0 4 0 [0, 0, 0x80, 0x3F, 0, 0, 0xC0, 0x3F] [0, 0, 0x80, 0x3F, 0, 0, 0x80, 0x3F]).modStrand fun t =>
    { t with image := ⟨64, ([.chainB, .vadd 1 2 3 0 0, .chainE] : List Instr).flatMap fun i => leBytes 4 ((encode i).headD 0).toNat, []⟩
             ap := { t.ap with pc := 76, seq := 3 } }

/-- The EP inside the chain after n turns at `chain.e`. -/
def inChain : Nat → State
  | 0 => ran .chainB chained
  | n + 1 => ran .chainE (inChain n)

theorem meets_ChainsRunInPasses :
    chained.mayRun .chainB = true ∧ (chained.strand.image.chain 64).map (·.words) = some 3 ∧ (inChain 0).ep.chain.map (·.step) = some 0 ∧
    (inChain 2).mayRun .chainE = true ∧ (inChain 2).ep.chain.map (fun c => (c.entered, c.step, c.lanes)) = some (true, 0, 2) ∧
    ((inChain 2).strand.image.chain 64).map (fun c => lastStep c.stages) = some 18 := by decide +kernel

/-- The last step of the last pass: both sums are written, and the EP goes on behind the chain. -/
theorem meets_ChainsRunInPasses_end :
    (inChain 20).mayRun .chainE = true ∧ (inChain 20).ep.chain.map (fun c => (c.entered, c.step, c.lanes, c.pass, c.row)) = some (true, 18, 2, 0, 0) ∧
    (((inChain 20).strand.image.chain 64).map fun c => (c.stages.getLast?.map fun g => g.vec.linkKind == .reduce, ((inChain 20).geometry c.stages).rowSize 0,
      ((inChain 20).geometry c.stages).count, ((inChain 20).geometry c.stages).row)) = some (some false, 2, 2, 2) ∧ (inChain 20).ep.chain.map (·.ahead.length) = some 2 ∧
    (ran .chainE (inChain 20)).ep.pc = 76 ∧ (ran .chainE (inChain 20)).byteAt .cham false 67 = 0x40 ∧ (ran .chainE (inChain 20)).byteAt .cham false 70 = 0x20 := by
  decide +kernel

/-! ### Rings and engines -/

/-- Ring n of 256 bytes at 4096, with k words between FP and WP. -/
def ringed (n k : Nat) (l : List (Nat × Word)) : State :=
  (withA l).setEngine n { Engine.reset with cfg := 0xC001000#64, wp := BitVec.ofNat 16 k }

theorem meets_IssueForms :
    ((issueForms 47 1 2 1 4).all fun f => (ringed 0 0 [(1, 0x7FFF80)]).mayRun f.word && !onEp f.word && 0x7FFF80 % f.align == 0 && (0x7FFF80 ≤ f.largest)) = true ∧
    ((ringed 0 0 []).engine 0).kept + 2 ≤ ((ringed 0 0 []).engine 0).words ∧ ((ringed 0 64 []).engine 0).words < ((ringed 0 64 []).engine 0).kept + 1 ∧
    (ringed 0 0 []).mem.wf = true ∧ ((ran (.mmz 47 1 2) (ringed 0 0 [(1, 0x7FFF80), (2, 9)])).engine 0).wp = 2 ∧
    ((ran (.mmz 47 1 0) (ringed 0 0 [(1, 0x7FFF80)])).engine 0).wp = 1 ∧
    (ran (.mmz 47 1 2) (ringed 0 0 [(1, 0x7FFF90)])).hub.faults.map (·.code) = [0x10] ∧
    (ran (.mmz 47 1 2) (ringed 0 0 [(1, 0x7FFFE0)])).hub.faults.map (·.code) = [0x11] ∧
    ((ran (.mmz 47 1 2) (ringed 0 63 [(1, 0x7FFF80)])).ap.block.map (·.kind)) = some 3 ∧
    (ringed 5 0 []).mayRun (.rapp 5 1 4) = true ∧ ((ran (.rapp 5 1 4) (ringed 5 0 [(1, 0x1000000)])).engine 5).wp = 2 := by decide +kernel

/-- The next word of ring 0 is pinned. -/
def ringPinned : State :=
  (ringed 0 0 [(1, 0x7FFF80)]).modStrand fun x => { x with pins := x.pins.setIfInBounds 15 { Pin.free with state := 1, off := 4096, size := 32 } }

theorem meets_IssueForms_ring :
    Sys2Proof.ringReady (ringed 0 0 [(1, 0x7FFF80), (2, 9)]) 0 2 ∧ Sys2Proof.ringReady (ringed 5 0 [(1, 0x1000000)]) 5 2 ∧
    ringPinned.core.pinnedBy ((ringPinned.engine 0).wordOff (ringPinned.engine 0).wp) 4 = some 15 ∧
    (ran (.mmz 47 1 0) ringPinned).ap.block.map (fun b => (b.kind, b.obj)) = some (4, 15) := by unfold Sys2Proof.ringReady; decide +kernel

/-- A slot that holds a page at 0x10000, with a near-bank descriptor at its start. -/
def withSlot (s : State) : State :=
  s.modHub fun h => { h with slots := h.slots.setIfInBounds 63 ⟨.loaded, 0, 0x10000, [0x10000], 65536, 0, 0⟩ }

theorem meets_NearBankIssue :
    onOk ((withSlot (paged 0xFD 0x10000)).translate 0x10000 ⟨false, true, false, 0⟩ true) (fun r => r.2.slotHolding r.1.pa == some 63) = true ∧
    (withSlot (paged 0xFD 0x10000)).mayRun (.nbmv 1 0 0 7) = true ∧ ((withSlot (paged 0xFD 0x10000)).slot 63).stack = dieOf 0 ∧
    field ((withSlot (paged 0xFD 0x10000)).aread 1) 0 6 = 0 ∧
    ((ran (.nbmv 1 0 0 7) ((withSlot (paged 0xFD 0x10000)).setEngine 4 { Engine.reset with cfg := 0xC001000#64 })).engine 4).wp = 2 := by decide +kernel

theorem meets_Tiles :
    (base.engine 0).idle = true ∧ field (0x2FFFF#64) 18 46 = 0 ∧ field (0x2FFFF#64) 12 6 = 47 ∧ (withA [(1, 0x2FFFF), (2, 5)]).mayRun (.tget 3 1) = true ∧
    (withA [(1, 0x2FFFF), (2, 5)]).mayRun (.tput 1 2) = true ∧ base.mayRun (.tkill 47) = true ∧ (base.strand.tile 47).poisoned = false ∧
    ((base.setTile 47 ⟨true, true, []⟩).strand.tile 47).poisoned = true ∧
    (ran (.tget 3 1) (ran (.tput 1 2) (withA [(1, 0x2FFFF), (2, 5)]))).aread 3 = 5 ∧
    ((ran (.tkill 47) (ran (.tput 1 2) (withA [(1, 0x2FFFF), (2, 5)]))).strand.tile 47).live = false := by decide +kernel

/-- A command of ring 0 that names tile 47 is in flight. -/
def naming : State :=
  { onRing 0 .start with onEngine := none }.homeWrite .cham false 0 (leBytes 4 ((encode (.mmzCmd 0 47 0)).headD 0).toNat)

theorem meets_TileBusy :
    (naming.engine 0).enabled = true ∧ (naming.engine 0).idle = false ∧
    naming.namesFrom (naming.engine 0) 47 ((naming.engine 0).wp - (naming.engine 0).rp).toNat (naming.engine 0).rp = some 0 ∧
    naming.mayRun (.tkill 47) = true ∧ (ran (.tkill 47) naming).hub.faults.map (·.arg) = [47] := by decide +kernel

/-- One block of the smallest K of the statement. -/
theorem meets_ProductElements :
    (List.replicate 64 (Val.zero false)).length = 64 * 1 ∧ zeroTile.all.length = 4096 ∧
    (blockDot false 0 0 [(fp32.decode 0x3F800000, fp32.decode 0x40000000)]).1 = 0x40000000 := by decide +kernel

/-- Engine 0 at step 3 of a command with its block at 64, on a core that holds the array. -/
def array0 (i : Instr) (block : List Byte) : State :=
  ((({ onRing 0 .acquired with onEngine := some 0 }.setArray { MatrixArray.reset with held := true, holder := 0 }).homeWrite .cham false 0
    (leBytes 4 ((encode i).headD 0).toNat)).homeWrite .cham false 64 block)

theorem meets_MatrixCommands :
    isArrayCmd (.mdrCmd 0 47 2) = true ∧ (array0 (.mdrCmd 0 47 2) []).engineLive 0 = true ∧ (array0 (.mdrCmd 0 47 2) []).holdsArray = true ∧
    engineWf (.mdrCmd 0 47 2) = true ∧ ((array0 (.mdrCmd 0 47 2) []).engine 0).fails = 0 ∧ ((array0 (.mdrCmd 0 47 2) []).engine 0).seg = none ∧
    trapOf (matStep (((array0 (.mdrCmd 0 47 2) []).latchFtz 0).stepFtz 0) (.mdrCmd 0 47 2) zeroTile ((array0 (.mdrCmd 0 47 2) []).latchFtz 0).beginStep) (fun t => t.code == 0x17) = true ∧
    ((ran (.mdrCmd 0 47 2) (array0 (.mdrCmd 0 47 2) [])).engine 0).stopped = true ∧
    engineWf (.segCmd 0 2) = true ∧ onOk (engBlock 64 32 (array0 (.segCmd 0 2) [5, 0, 0, 1])) (fun r => leNat r.1 == 0x1000005) = true ∧
    ((ran (.segCmd 0 2) (array0 (.segCmd 0 2) [5, 0, 0, 1])).engine 0).seg.map (fun g => (g.count, g.bounded)) = some (5, true) ∧
    ((ran (.segCmd 0 2) ((array0 (.segCmd 0 2) []).modEngine 0 fun e => { e with seg := some ⟨false, 0, 0, 0, 0, false, 0, 0, [], false, 0⟩ })).strand.pend.map (·.code)) = [0x23] ∨
    ((ran (.segCmd 0 2) ((array0 (.segCmd 0 2) []).modEngine 0 fun e => { e with seg := some ⟨false, 0, 0, 0, 0, false, 0, 0, [], false, 0⟩ })).engine 0).stopped = true := by
  decide +kernel

/-- A drain of a dead tile to 4,096 elements of BF16 at 0x20000, from a block at 64. -/
def draining : State :=
  array0 (.mdrCmd 0 47 2) (leBytes 8 0x20000 ++ leBytes 8 (4096 * 2 ^ 48 + 2) ++ leBytes 8 (2 ^ 14) ++ leBytes 8 0)



/-- Engine n at step 3 of a command with its block at 64. -/
def onBlock (n : Nat) (i : Instr) (block : List Byte) : State :=
  (((onRing n .acquired).homeWrite .cham false 0 (leBytes 4 ((encode i).headD 0).toNat)).homeWrite .cham false 64 block)

/-- A copy of 32 bytes from 0x100 to 0x110000, the first bytes being 1, 2, 3. -/
def copyBytes : List Byte := leBytes 8 0x100 ++ leBytes 8 0x110000 ++ [32]
def copying : State := (onBlock 1 (.cpq 0 2) copyBytes).homeWrite .cham false 0x100 [1, 2, 3]

theorem meets_BlockCommands_copy :
    copying.onEngine = some 1 ∧ copying.engineLive 1 = true ∧ (copying.engine 1).phase = .acquired ∧ engineWf (.cpq 0 2) = true ∧
    onOk (copyBlock 1 64 copying) (fun r => r.1.kind == 0 && !r.1.cw && r.1.sp == 0) = true ∧ onOk (copyStep 1 64 copying) (fun r => r.1 == .over) = true ∧
    copying.mem.wf = true ∧ (ran (.cpq 0 2) copying).byteAt .cham false 0x110002 = 3 ∧
    trapOf (copyStep 1 64 (onBlock 1 (.cpq 0 2) (leBytes 8 0x101 ++ leBytes 8 0x110000 ++ [32]))) (fun t => t.code == 0x25) = true := by decide +kernel

/-- A conversion of one BF16 element to FP32. -/
def converting : State :=
  (onBlock 3 (.cvq 0 0 0 2) (leBytes 8 0x200 ++ leBytes 8 (2 ^ 48 + 4) ++ leBytes 16 0 ++ leBytes 8 0x100 ++ leBytes 8 (2 ^ 48 + 2) ++ leBytes 8 (2 ^ 14) ++ leBytes 8 0)).homeWrite
    .cham false 0x100 [0x80, 0x3F]

/-- The same copy with a completion word of 77 at 0x120000; and a pull of 32 bytes of core 16's pinned entry. -/
def copyingWord : State := (onBlock 1 (.cpq 0 2) (copyBytes ++ [0, 0, 0, 0, 0, 8, 0] ++ leBytes 8 0x120000 ++ [77])).homeWrite .cham false 0x100 [1, 2, 3]
def copyingPull : State := onBlock 1 (.cpq 0 2) (leBytes 8 0 ++ leBytes 8 0x110000 ++ [32, 0, 0, 0, 2] ++ List.replicate 19 0 ++ leBytes 8 (16 + 0x200 * 2 ^ 32 + 2 * 2 ^ 56 + 3 * 2 ^ 60))

theorem meets_BlockCommands_copyEnds :
    onOk (copyStep 1 64 copyingWord) (fun r => r.1 == .word 0x120000 77 && !r.2.enginePodWrites 1) = true ∧
    (ran (.cpq 0 2) copyingWord).byteAt .cham false 0x120000 = 77 ∧ (ran (.cpq 0 2) copyingWord).byteAt .cham false 0x110002 = 3 ∧
    onOk (copyStep 1 64 copyingPull) (fun r => r.1 == .pulled) = true ∧ ((ran (.cpq 0 2) copyingPull).engine 1).phase = .handed ∧
    (copying.engine 1).writes = [] ∧ copying.late = false := by decide +kernel

theorem meets_BlockCommands_conversion :
    converting.engineLive 3 = true ∧ engineWf (.cvq 0 0 0 2) = true ∧ onOk (cvqStep 0 0 64 converting) (fun _ => true) = true ∧
    (ran (.cvq 0 0 0 2) converting).byteAt .cham false 0x203 = 0x3F := by decide +kernel

/-- A descriptor of one row of one weight in stack 0, in a slot of one page of every kind of channel. -/
def nbReady : State :=
  let s := (onBlock 4 (.nbq 1 2) (leBytes 8 0x300 ++ leBytes 8 (2 ^ 48 + 2) ++ leBytes 8 (2 ^ 14) ++ leBytes 8 0 ++
    leBytes 8 0x400 ++ leBytes 8 (2 ^ 48 + 4) ++ leBytes 16 0)).homeWrite .cham false 4 (leBytes 4 0)
  let t := s.modEngine 4 fun e => { e with wp := 2 }
  let d := leBytes 2 1 ++ leBytes 2 1 ++ [0, 0, 0, 1] ++ leBytes 8 0 ++ leBytes 8 32 ++ leBytes 8 32 ++ leBytes 8 0x200 ++ leBytes 8 2 ++ leBytes 16 0
  (t.modHub fun h => { h with slots := h.slots.setIfInBounds 0 ⟨.loaded, 0, 0, [0], 65536, 0, 0⟩ }).homeWrite .dev false 0 d

theorem meets_BlockCommands_nearBank :
    nbReady.engineLive 4 = true ∧ onOk (nbChecked 2 ((nbReady.cmdSync 4).getD 0) nbReady) (fun r => r.1.1.stk == 0) = true ∧
    (nbReady.share.passes[0]?.getD []).length < 48 ∧ ((ran (.nbq 1 2) nbReady).share.passes[0]?.getD []).map (·.core) = [0] := by decide +kernel

/-- A work entry of kind 2, a signal to the own core's 0x1040, that increments counter 3. -/
def signalBytes (thr : Nat) : List Byte :=
  leBytes 8 0 ++ leBytes 8 0x1040 ++ leBytes 4 0 ++ leBytes 4 0 ++ [2, 0, 0, 0x30] ++ leBytes 4 thr ++ leBytes 4 0 ++ leBytes 4 0 ++
    leBytes 8 0 ++ leBytes 8 0 ++ leBytes 8 9
def signalling (thr : Nat) (p : Phase) : State :=
  (onBlock 5 (.wqeCmd 0 2) (signalBytes thr)).modEngine 5 fun e =>
    { e with phase := p, got := if p = .handed then [(padTo 64 (signalBytes thr), false)] else [] }

theorem meets_BlockCommands_work :
    (signalling 0 .acquired).engineLive 5 = true ∧ engineWf (.wqeCmd 0 2) = true ∧ onOk (entryAt 64 (signalling 0 .acquired)) (fun r => r.1.2.kind == 2) = true ∧
    ((ran (.wqeCmd 0 2) (signalling 0 .acquired)).engine 5).phase = .handed := by decide +kernel

/-! ### A matrix command that completes: every element of its source, by induction -/

/-- A Gallery stream of 4,096 elements of BF16, every one at 0x20000. -/
def oneCell : Version := ⟨0x20000, 0x1000000000000000#64, 0x104000#64, 0, 0, false⟩

theorem oneCell_pieces (q c : Nat) : oneCell.pieces q c = [(0x20000, 2)] := by
  have h1 : oneCell.fmt = 1 := by decide
  have h2 : oneCell.packed = false := by decide
  have h3 : oneCell.stride1 = 0 := by decide
  have h4 : oneCell.stride2 = 0 := by decide
  have h5 : oneCell.elemBytes = 2 := by decide
  have h6 : oneCell.addr oneCell.base = 0x20000 := by decide
  simp only [Version.pieces, h1, h2, h3, h4, h5, Version.rowBase, Int.mul_zero, Int.add_zero, h6]; rfl

theorem oneCell_covered : ∀ x ∈ oneCell.covered, x = (0x20000, 2) := by
  have h1 : oneCell.fmt = 1 := by decide
  have h2 : oneCell.packed = false := by decide
  have h3 : oneCell.scales = 0 := by decide
  have h4 : oneCell.spar = 0 := by decide
  intro x h
  simp only [Version.covered, List.mem_append, List.mem_flatMap] at h
  rcases h with ⟨q, -, h⟩ | ⟨q, -, h⟩
  · simp only [Version.rowBytes, h1, h2, oneCell_pieces, Bool.false_eq_true, if_false] at h
    rw [if_neg (by decide)] at h
    obtain ⟨c, -, h⟩ := List.mem_flatMap.1 h
    simpa using h
  · simp [Version.metaBytes, Version.maskBytes, Version.single, h3, h4] at h

/-- Nothing of the Gallery is poisoned, no part lags, and ring 0 holds no read of a frozen step. -/
def Ready (s : State) : Prop :=
  s.mem.gal.poison = [] ∧ s.late = false ∧ (s.engine 0).left = [] ∧ (s.engine 0).writes = [] ∧ s.share.pack.l2rc = []

/-- Ring 0 keeps a read. -/
def kept (s : State) (r : List Byte × Bool) : State := s.modEngine 0 fun e => { e with got := r :: e.got }

theorem engine_modEngine (s : State) (f : Engine → Engine) : (s.modEngine 0 f).engine 0 = f (s.engine 0) := by
  simp [State.modEngine, State.setEngine, State.engine, State.modCore]

theorem kept_ready (s : State) (r : List Byte × Bool) (h : Ready s) : Ready (kept s r) := by
  obtain ⟨h1, h2, h3, h4, h5⟩ := h
  refine ⟨h1, h2, ?_, ?_, h5⟩
  · rw [kept, engine_modEngine]; exact h3
  · rw [kept, engine_modEngine]; exact h4

theorem engKept_plain (m : M (List Byte × Bool)) (s : State) (r : List Byte × Bool) (h : Ready s) (hm : m s = .ok (r, s)) :
    engKept 0 m s = .ok (r, kept s r) := by
  simp only [engKept, ne_eq, not_true_eq_false, if_false, bind, StateT.bind, Except.bind, get, getThe, MonadStateOf.get, StateT.get,
    pure, Except.pure, h.2.2.1, hm, modify, modifyGet, MonadStateOf.modifyGet, StateT.modifyGet, StateT.pure]
  rfl

/-- An engine reads any element of a plain Gallery stream, where nothing is poisoned, and keeps the read. -/
theorem elem_plain (z : M Unit) (ftz : Bool) (i : Nat) (s : State) (h : Ready s) :
    ∃ x t, (engPath 0 oneCell ftz z).elem i s = .ok (x, t) ∧ Ready t := by
  have e := oneCell_pieces (oneCell.rowOf i) (oneCell.colOf i)
  have q : oneCell.isQueue = false := by decide
  have m : oneCell.memSpace = .gal := by decide
  have b : oneCell.blk = 0 := by decide
  have k : oneCell.spar = 0 := by decide
  have f : engFetch 0 .gal 0x20000 2 s = .ok (s.homeBytes .gal false (placeOf .gal s.core.id 0x20000) 2, s) := by
    simp only [engFetch, State.engHome, State.touchL2, bind, StateT.bind, Except.bind, get, getThe, MonadStateOf.get, StateT.get, pure,
      Except.pure, StateT.pure, set, StateT.set, h.2.1, h.2.2.2.1, h.2.2.2.2, List.any_nil, List.isEmpty_nil, Bool.false_and, Bool.false_eq_true, if_false, if_true]
  generalize hv : s.homeBytes .gal false (placeOf .gal s.core.id 0x20000) 2 = v at f
  have r : (engPath 0 oneCell ftz z).read 0x20000 2 s = .ok (v, kept s v) := by
    simp only [engPath, m, engReadPart]; exact engKept_plain _ s _ h f
  have p : v.2 = false := by rw [← hv]; simp [State.homeBytes, Mem.bank, Bank.poisoned, h.1]
  have d : (engPath 0 oneCell ftz z).desc = oneCell := rfl
  simp only [Path.elem, Path.naming, d, q, Version.maskPieces, Version.scalePieces, Version.storedCol, b, k, e, Path.readAll, bind, StateT.bind, r,
    Except.bind, pure, StateT.pure, Except.pure, if_true, Bool.false_eq_true, if_false, p, Bool.or_self]
  exact ⟨_, _, rfl, kept_ready s _ h⟩

theorem elems_plain (z : M Unit) (ftz : Bool) : ∀ n i (s : State), Ready s →
    ∃ xs t, engElems (engPath 0 oneCell ftz z) i n s = .ok (xs, t) ∧ Ready t
  | 0, _, s, h => ⟨[], s, rfl, h⟩
  | n + 1, i, s, h => by
    obtain ⟨x, t, hx, ht⟩ := elem_plain z ftz i s h
    obtain ⟨xs, u, hxs, hu⟩ := elems_plain z ftz n (i + 1) t ht
    exact ⟨x :: xs, u, by simp only [engElems, bind, StateT.bind, hx, Except.bind, hxs]; rfl, hu⟩

/-- A load of tile 47 from that stream, from a block at 64. -/
def loading : State := array0 (.mldCmd 0 47 2) (leBytes 8 0x20000 ++ leBytes 8 (2 ^ 60) ++ leBytes 8 0x104000 ++ leBytes 8 0)

theorem loading_refusal : (loading.latchFtz 0).beginStep.engineRefusal .cham 64 32 false = none := by decide +kernel
theorem loading_version :
    Version.ofBytes ((loading.latchFtz 0).beginStep.homeBytes .cham false (chamAt (loading.latchFtz 0).beginStep.core.id 64) 32).1 = oneCell := by decide +kernel
theorem loading_ready : Ready (loading.latchFtz 0).beginStep := by
  refine ⟨?_, ?_, ?_, ?_, ?_⟩ <;> decide +kernel
theorem loading_open (s : State) : s.piecesRefused oneCell false oneCell.covered = none := by
  have hm : oneCell.memSpace = .gal := by decide
  simp only [State.piecesRefused, hm]
  refine List.findSome?_eq_none_iff.2 fun x hx => ?_
  rw [oneCell_covered x hx]; simp [State.engineRefusal, spaceSize]
theorem ahead_nil (p : Path) : p.ahead [] = p := by simp [Path.ahead, Snap.cut]
theorem source_plain (ftz : Bool) (s : State) (h : Ready s) : ∃ xs t, matSource 0 oneCell ftz s = .ok (xs, t) ∧ Ready t := by
  obtain ⟨xs, t, hx, ht⟩ := elems_plain countZero ftz oneCell.count 0 s h
  have hl : oneCell.trl = false := by decide
  have hs : oneCell.spar = 0 := by decide
  refine ⟨xs, t, ?_, ht⟩
  simp only [matSource, engOpen, engTrailer, hl, hs, Bool.false_eq_true, if_false, ne_eq, not_true_eq_false, List.append_nil,
      ahead_nil, bind, StateT.bind, Except.bind, get, getThe, MonadStateOf.get, StateT.get, pure, Except.pure, StateT.pure, loading_open s, hx]
theorem block_plain (s : State) (hr : s.engineRefusal .cham 64 32 false = none)
    (hv : Version.ofBytes (s.homeBytes .cham false (chamAt s.core.id 64) 32).1 = oneCell) (h : Ready s) :
    ∃ v t, matBlock 64 1 s = .ok ((oneCell, v), t) ∧ Ready t := by
  generalize hx : (s.homeBytes .cham false (chamAt s.core.id 64) 32).1 = x at hv
  have hb : (do return (← engBlock 64 (32 * 1), false) : M (List Byte × Bool)) s = .ok ((x, false), s) := by
    simp only [engBlock, bind, StateT.bind, Except.bind, get, getThe, MonadStateOf.get, StateT.get, pure, Except.pure, StateT.pure,
      Nat.mul_one, hr, hx]
  refine ⟨Version.ofBytes (x.drop 32), kept s (x, false), ?_, kept_ready s _ h⟩
  simp only [matBlock, bind, StateT.bind, Except.bind]
  erw [engKept_plain _ s _ h hb]
  simp only [pure, StateT.pure, Except.pure, hv]
theorem load_plain (ftz : Bool) (s : State) (hr : s.engineRefusal .cham 64 32 false = none)
    (hv : Version.ofBytes (s.homeBytes .cham false (chamAt s.core.id 64) 32).1 = oneCell) (h : Ready s) :
    ∃ d t, matStep ftz (.mldCmd 0 47 2) zeroTile s = .ok (d, t) := by
  have hn : 32 * (2 : BitVec 18).toNat = 64 := by decide
  have ho : oneCell.tileOk false = true := by decide +kernel
  obtain ⟨v, t, hb, ht⟩ := block_plain s hr hv h
  obtain ⟨xs, u, hsrc, -⟩ := source_plain ftz t ht
  refine ⟨moveDone oneCell, u.setTile (47 : BitVec 6).toNat (Tile.of (xs.any (·.marked))
    (xs.map fun x => BitVec.ofNat 32 (roundFloat fp32 0 0 ftz false x.val).1)), ?_⟩
  simp only [matStep, hn, bind, StateT.bind, Except.bind, hb, ho, matLoad, pure, Except.pure,
    StateT.pure, hsrc, Bool.not_true, Bool.false_eq_true, if_false, modify, modifyGet, MonadStateOf.modifyGet, StateT.modifyGet]

theorem meets_MatrixCommands_performed : loading.engineLive 0 = true ∧ loading.holdsArray = true ∧ engineWf (.mldCmd 0 47 2) = true ∧
    ∃ d t, matStep ((loading.latchFtz 0).stepFtz 0) (.mldCmd 0 47 2) zeroTile (loading.latchFtz 0).beginStep = .ok (d, t) :=
  ⟨by decide +kernel, by decide +kernel, by decide +kernel, load_plain _ (loading.latchFtz 0).beginStep loading_refusal loading_version loading_ready⟩

/-- The same with its cell poisoned. -/
theorem meets_MatrixCommands_failed :
    trapOf ((engPath 0 oneCell false countZero).elem 0 (loading.setPoison .gal false (placeOf .gal 0 0x20000 / 32) true)) (fun t => t.code == 0x31) = true := by
  decide +kernel

/-! ### Commands step by step, leases, segments, stacks and work entries -/

/-- Engine n at a command with the sync word at RP, in a phase. -/
def synced (n : Nat) (sy : Word32) (p : Phase) : State :=
  ((base.setEngine n { Engine.reset with cfg := 0xC000000#64, wp := 2, phase := p, next := 2 }).homeWrite .cham false 0
    (leBytes 4 ((encode (.cpq 1 2)).headD 0).toNat)).homeWrite .cham false 4 (leBytes 4 sy.toNat)

/-- Wait for semaphore 62, raise semaphore 61, release at SYSTEM; and neither. -/
def busySync : Word32 := BitVec.ofNat 32 (62 + 64 * 61 + 2 ^ 13 + 5 * 2 ^ 14)
def freeSync : Word32 := BitVec.ofNat 32 (63 + 64 * 63)

theorem meets_EngineCommandSteps :
    (onRing 1 .start).cmdLegal 1 = false ∧ (onRing 1 .start).engineLive 1 = true ∧ ((ran (.illegalCommand 1) (onRing 1 .start)).strand.pend.map (·.code)) = [0x21] ∧
    (synced 1 busySync .start).cmdLegal 1 = true ∧ ((synced 1 busySync .start).cmdSync 1).map (fun w => (syWait w, syRaise w, syRel w, syScope w)) = some (62, 61, true, 5) ∧
    (synced 1 freeSync .start).cmdLegal 1 = true ∧ ((synced 1 freeSync .start).cmdSync 1).map (fun w => (syWait w, syRaise w)) = some (63, 63) ∧
    (synced 1 busySync .start).sema 62 = 0 ∧ ((synced 1 busySync .start).setSema 62 1).waitsAhead 62 1 < (((synced 1 busySync .start).setSema 62 1).sema 62).toNat ∧
    ((ran (.engineSyncWaitDone 1) ((synced 1 busySync .start).setSema 62 1)).engine 1).phase = .acquired ∧
    (synced 1 busySync .performed).enginePodWrites 1 = false ∧ ((synced 1 busySync .performed).engine 1).writes = [] ∧ (ran (.engineCommandComplete 1) (synced 1 busySync .performed)).sema 61 = 1 ∧
    ((ran (.engineCommandComplete 1) (synced 1 busySync .performed)).engine 1).rp = 2 ∧
    ((ran (.engineCommandComplete 1) ((synced 1 busySync .performed).setSema 61 65535)).strand.pend.map (fun t => (t.code, t.arg))) = [(0x20, 61)] ∧
    ((ran (.engineCommandComplete 1) (synced 1 freeSync .performed)).engine 1).phase = .start := by decide +kernel

/-- The core has no strand any more; the engine is at its command boundary. -/
def leftBehind : State := (synced 1 freeSync .performed).modCore fun c => { c with mode := .idle }

theorem meets_EngineCommandSteps_idle :
    leftBehind.engineLive 1 = true ∧ leftBehind.enginePodWrites 1 = false ∧ (leftBehind.engine 1).writes = [] ∧
    ((ran (.engineCommandComplete 1) leftBehind).engine 1).phase = .start ∧ ((ran (.engineCommandComplete 1) leftBehind).engine 1).rp = 2 ∧
    ((ran (.engineCommandComplete 1) ((synced 1 busySync .performed).setSema 61 65535)).engine 1).overflow = true := by decide +kernel

theorem meets_ArrayLeases :
    (base.setArray { MatrixArray.reset with requests := [⟨1, 5⟩, ⟨2, 4⟩] }).array.requests ≠ [] ∧ base.array.held = false ∧
    (ran .leaseGrant (base.setArray { MatrixArray.reset with requests := [⟨1, 5⟩, ⟨2, 4⟩] })).array.holder = 2 ∧
    (base.setArray { MatrixArray.reset with held := true, idle := 64, requests := [⟨1, 5⟩] }).array.held = true ∧
    (ran .leaseIdleExpiry (base.setArray { MatrixArray.reset with held := true, idle := 64, requests := [⟨1, 5⟩] })).array.held = false ∧
    (base.setArray { MatrixArray.reset with held := true, idle := 63, requests := [⟨1, 5⟩] }).array.idle < 64 := by decide +kernel

/-- A bounded segment past its count, before its next command. -/
def overrunning : State :=
  { onRing 0 .waited with onEngine := none }.modEngine 0 fun e => { e with seg := some ⟨true, 5, 0, 6, 0, false, 0, 0, [], false, 0⟩ }

theorem meets_Segments :
    (overrunning.engine 0).seg.map (fun g => (g.count, g.sc)) = some (5, 6) ∧ (overrunning.engine 0).phase = .waited ∧ overrunning.core.frozen = false ∧
    (overrunning.engine 0).enabled = true ∧ (overrunning.engine 0).stopped = false ∧ (overrunning.engine 0).fails = 0 ∧
    ((ran .segmentCountOverrun overrunning).engine 0).fails = 1 := by decide +kernel

/-- A segment that has broken a rule fails with LAST 4. -/
def ruleBroken : State :=
  overrunning.modEngine 0 fun e => { e with seg := some ⟨true, 5, 0, 1, 0, true, 0, 0, [], false, 0⟩ }

theorem meets_Segments_broken :
    (ruleBroken.engine 0).seg.map (fun g => (decide (g.count < g.sc), g.broken)) = some (false, true) ∧
    field (ran .segmentCountOverrun ruleBroken).strand.sys.mstat 0 8 = 4 ∧ field (ran .segmentCountOverrun overrunning).strand.sys.mstat 0 8 = 2 := by
  decide +kernel

/-- Two passes wait for stack 7. -/
def passing : State := base.modShare fun h => { h with passes := h.passes.setIfInBounds 7 [⟨5, 9, false⟩, ⟨3, 9, false⟩] }

/-- The pass of `nbReady` runs in stack 0. -/
def passRuns : State := (ran (.nbPassStart 0) (ran (.nbq 1 2) nbReady))

theorem meets_Stacks :
    (passing.share.passes[7]?.getD []) ≠ [] ∧ ((passing.share.passes[7]?.getD []).any (·.running)) = false ∧
    ((ran (.nbPassStart 7) passing).share.passes[7]?.getD []).map (fun p => (p.core, p.running)) = [(3, true), (5, false)] ∧
    ((passRuns.share.passes[0]?.getD []).find? (·.running)).map (·.core) = some 0 ∧ (passRuns.focus 0).engineLive 4 = true ∧
    ((passRuns.focus 0).engine 4).phase = .handed ∧ (passRuns.focus 0).cmd 4 = some (.nbq 1 2) ∧
    onOk (nbKeep 2 (((passRuns.focus 0).cmdSync 4).getD 0) (passRuns.focus 0)) (fun r =>
      onOk (nbPass 2 (((passRuns.focus 0).cmdSync 4).getD 0) r.2) (fun _ => true)) = true ∧
    ((ran (.nbPassComplete 0) passRuns).engine 4).phase = .performed := by decide +kernel

theorem meets_WorkEntriesRun_issue :
    (signalling 1 .handed).engineLive 5 = true ∧ ((signalling 1 .handed).engine 5).phase = .handed ∧
    ((signalling 1 .handed).engine 5).entry.thr = 1 ∧ ((signalling 1 .handed).engine 5).entry.kind = 2 ∧
    ((signalling 1 .handed).core.regs.wcnt[0]?.getD 0).toNat < 1 ∧ 0 ≤ ((signalling 0 .handed).core.regs.wcnt[0]?.getD 0).toNat ∧
    (signalling 0 .handed).local 0 = true ∧ ((ran .wqeIssue (signalling 1 .handed)).engine 5).phase = .handed ∧
    (ran .wqeIssue (signalling 0 .handed)).share.net = [.signal 0 0 0x1040 9 3] ∧ ((ran .wqeIssue (signalling 0 .handed)).engine 5).phase = .performed := by
  decide +kernel

/-- A pull of core 0 of 288 bytes to 0x1000, with its progress. -/
def aPull (k : PullKind) : Pull := ⟨1, k, .claimed, 0, 16, 2, 3, 7, 288, 0x200, false, 0x1000, some 0x40, 9⟩
def progress (acked : List (Nat × Nat)) (landed : List Nat) : PullWork :=
  { PullWork.new 1 true 0 none 0 with id := 1, acked := acked, landed := landed }
def pulling (k : PullKind) (w : PullWork) (net : List Msg) : State :=
  { base.modShare fun h => { h with pulls := [aPull k], works := [w], net := net } with clk := 1 }

theorem meets_WorkEntriesRun_rest :
    (pulling (.entry 3) (progress [(0, 2)] [0, 1]) [.signal 0 0 0x7FFFF8 9 15]).share.net = .signal 0 0 0x7FFFF8 9 15 :: [] ∧
    ((pulling (.entry 3) (progress [(0, 2)] [0, 1]) []).coreAt 0).pinnedBy 0x7FFFF8 8 = none ∧ (pulling (.entry 3) (progress [(0, 2)] [0, 1]) []).mem.wf = true ∧
    (pulling (.entry 3) (progress [(0, 2)] [0, 1]) []).entryDone (aPull (.entry 3)) (progress [(0, 2)] [0, 1]) = true ∧
    (progress [(0, 2)] [0, 1]).ackedAll (aPull (.entry 3)) = true ∧
    (pulling (.entry 3) (progress [(0, 2)] [0, 1]) []).wordHeld (aPull (.entry 3)) = false ∧ (pulling (.entry 3) (progress [(0, 2)] [0, 1]) []).input.c = 0 ∧
    (ran .workSignalArrival (pulling (.entry 3) (progress [(0, 2)] [0, 1]) [.signal 0 0 0x7FFFF8 9 15])).core.regs.wcnt[15]? = some 1 ∧
    (ran .wqeCompletion (pulling (.entry 3) (progress [(0, 2)] [0, 1]) [])).core.regs.wcnt[3]? = some 1 ∧
    (ran .wqeCompletion (pulling (.entry 3) (progress [(0, 2)] [0, 1]) [])).share.pulls = [] ∧
    (ran .wqeCompletion (pulling (.entry 3) (progress [(0, 2)] [0, 1]) [])).byteAt .cham false 0x40 = 9 := by decide +kernel

/-! ### Notices, pins and pulls -/

/-- A template at 0x7FFFE0 of core 0: tag 7, 64 bytes at 0x100, one consumer, core 16. -/
def template : List Byte := leBytes 4 7 ++ leBytes 4 (64 + 2 ^ 28) ++ leBytes 4 0 ++ leBytes 4 0x100 ++ leBytes 4 16
def publishing : State := (withA [(1, 0x7FFFE0), (2, 5)]).homeWrite .cham false (chamAt 0 0x7FFFE0) template

theorem meets_Publ :
    publishing.mayRun (.publ 3 1 2) = true ∧ publishing.bankShut 0x7FFFE0 32 = none ∧ publishing.core.order.stores = [] ∧
    onOk (readCham 0x7FFFE0 4 publishing) (fun r => templateOk r.2 (words32 r.1) && !bit (noticeWord (words32 r.1) 1) 27 &&
      !r.2.landsIn (noticeOff (words32 r.1)) (noticeSize (words32 r.1))) = true ∧
    podNameOk 16 = true ∧ (publishing.strand.pins[0]?.getD Pin.free).state = 0 ∧ (ran (.publ 3 1 2) publishing).port.outgoing.map (·.dest) = [16] ∧
    (ran (.publ 3 1 2) publishing).strand.pins[0]?.map (fun p => (p.state, p.ret, p.left, p.off)) = some (1, 1, 5, 0x100) ∧
    (ran (.publ 3 1 2) (publishing.awrite 3 9)).aread 3 = 0 := by decide +kernel

/-- A notice that waits as a slot of core 0: tag 7, 64 bytes at 0x100 of core 16, entry 2 of generation 3. -/
def notice : List Word32 := [7, 64, 16, 0x32000100#32, 0, 0, 0, 0]
def slotted : State := (withA [(1, 7), (2, 0x7FFFC0), (3, 0x7FFF80)]).modPort fun p => { p with slots := [⟨0, notice⟩] }

theorem meets_PullAndDecl :
    slotted.mayRun (.pull 3 1 2) = true ∧ slotted.mayRun (.decl 1) = true ∧ slotted.slotFor 7 = some ⟨0, notice⟩ ∧ noticeSize notice = 64 ∧
    slotted.bankShut 0x7FFFC0 64 = none ∧ slotted.bankShut 0x7FFF80 8 = none ∧ slotted.core.pinnedBy 0x7FFFC0 64 = none ∧
    (slotted.core.ringWith fun e => e.areaHas 0x7FFFC0 64) = none ∧ slotted.local (noticeProd notice) = true ∧
    (ran (.pull 3 1 2) slotted).share.pulls.map (fun p => (p.size, p.land, p.gen)) = [(64, 0x7FFFC0, 3)] ∧
    (ran (.decl 1) slotted).share.net = [.decline 16 2 3 0] ∧ (ran .pfence slotted).ap.pc = 68 ∧ slotted.mayRun .pfence = true := by decide +kernel

/-- Entry 15 in a state with a deadline. -/
def pinned (st left : Nat) : State :=
  base.modStrand fun x => { x with pins := x.pins.setIfInBounds 15 ⟨7, 1, 0x100, left, st, 1, 64, notice, [16], [false], [false], false⟩ }

theorem meets_PinOperations :
    ((pinned 2 0).strand.pins[15]?.getD Pin.free).state ≠ 0 ∧ ((pinned 2 0).strand.pins[15]?.getD Pin.free).state ≠ 3 ∧
    ((pinned 1 0).strand.pins[15]?.getD Pin.free).left = 0 ∧ ((pinned 1 0).strand.pins[15]?.getD Pin.free).fresh = false ∧ ((pinned 1 1).strand.pins[15]?.getD Pin.free).left = 1 ∧
    (ran (.pinDeadlineExpiry 15) (ran (.pinopExtend 15 0) (pinned 2 0))).strand.pend.map (·.code) = [] ∧
    ((ran (.pinopExtend 15 0) (pinned 2 0)).strand.pins[15]?.map fun p => (p.left, p.state, p.fresh)) = some (0, 1, true) ∧
    (ran (.pinopExtend 15 9) (pinned 2 0)).strand.pins[15]?.map (fun p => (p.state, p.left)) = some (1, 9) ∧
    (ran (.pinopForceRelease 15) (pinned 1 0)).strand.pins[15]?.map (·.state) = some 0 ∧
    (ran (.pinopRepublish 15 9) (pinned 2 0)).port.outgoing.map (fun c => (c.dest, c.again)) = [(16, true)] ∧
    field (ran (.pinopExtend 15 9) (pinned 3 0)).core.regs.pinop 4 4 = 2 ∧ field (ran (.pinopExtend 15 9) (pinned 0 0)).core.regs.pinop 4 4 = 1 ∧
    (ran (.pinDeadlineExpiry 15) (pinned 1 0)).strand.pend.map (fun t => (t.code, t.arg)) = [(0x2A, 15)] := by decide +kernel

/-! ### Regions and exchange -/

/-- Region 15 of n cells of a type at 4096, with a schedule of three rounds. -/
def region15 (ty n : Nat) (l : List (Nat × Word)) : State :=
  (withA l).modPack fun p => { p with regions := p.regions.setIfInBounds 15 (some ⟨ty, n, 3, 4096⟩),
                                      schedules := p.schedules.setIfInBounds 3 (some ⟨[0x40000000000#64], 0, false, 0, []⟩) }

theorem meets_Joins :
    joinCell 0 5 7 = joinCell 0 7 5 ∧ below 0 5 (joinCell 0 5 7) = true ∧ below 6 5 (joinCell 6 5 7) = true ∧
    f64Nan (bottom 3) = false ∧ joinCell 3 (bottom 3) 5 = 5 := by decide +kernel

theorem meets_LatticeInstructions :
    (region15 0 2 [(1, 1), (2, 9)]).mayRun (.ljoin 1 2 15) = true ∧ (region15 0 2 [(1, 1), (2, 9)]).mayRun (.lldt 2 1 4 15) = true ∧
    (region15 0 2 []).ap.bind = .none ∧ (region15 0 2 []).core.order.stores = [] ∧ (region15 0 2 []).mem.wf = true ∧
    bit (region15 0 2 []).strand.info.rset 15 = true ∧ (region15 0 2 []).region 15 = some ⟨0, 2, 3, 4096⟩ ∧
    (region15 0 2 []).cellBad ⟨0, 2, 3, 4096⟩ 0 1 = false ∧
    (ran (.ljoin 1 2 15) (region15 0 2 [(1, 1), (2, 9)])).cell ⟨0, 2, 3, 4096⟩ 0 1 = joinCell 0 0 9 ∧
    below 0 ((region15 0 2 []).cell ⟨0, 2, 3, 4096⟩ 0 1) (joinCell 0 0 9) = true ∧
    (ran (.lst 1 2 15) (region15 0 2 [(1, 1), (2, 9)])).cell ⟨0, 2, 3, 4096⟩ 0 1 = 9 ∧
    (ran (.lst 1 0 15) (ran (.lst 1 2 15) (region15 0 2 [(1, 1), (2, 9)]))).hub.faults.map (·.code) = [0x1B] ∧
    (ran (.lld 3 1 15) (ran (.lst 1 2 15) (region15 0 2 [(1, 1), (2, 9)]))).aread 3 = 9 ∧
    satisfies 0 9 ((region15 0 2 []).cell ⟨0, 2, 3, 4096⟩ 0 1) = false ∧ satisfies 0 0 ((region15 0 2 []).cell ⟨0, 2, 3, 4096⟩ 0 1) = true ∧
    ((ran (.lldt 2 1 4 15) (region15 0 2 [(1, 1), (2, 9)])).ap.block.map (·.kind)) = some 6 ∧
    (ran (.linc 1 2 15) (region15 5 16 [(1, 1), (2, 9)])).cell ⟨5, 16, 3, 4096⟩ 0 8 = 9 ∧
    (ran (.linc 1 2 15) (ran (.linc 1 3 15) (region15 5 16 [(1, 1), (2, 9), (3, 0xFFFFFFFFFFFFFFF7#64)]))).hub.faults.map (·.code) = [0x1B] ∧
    (ran (.lld 3 1 15) (region15 5 8 [(1, 1)])).hub.faults.map (·.code) = [0x1A] := by decide +kernel

/-- A cell that was pulled, an installed window, and a schedule whose round may begin. -/
def exchanging : State :=
  ({ region15 0 2 [] with input := ⟨3, 0, 5, []⟩ }.modPack fun p =>
    { p with merging := List.replicate 4 ⟨3, 1, 7, 15, 1, 9, 4⟩, windows := p.windows.setIfInBounds 3 (some ⟨2 ^ 21, 0, 0, false, 1, [], 0, 0⟩) })

theorem meets_ExchangeJoinsReplicas :
    (exchanging.schedule 3).isSome = true ∧ (exchanging.schedule 3).bind (fun x => x.nextRound exchanging.clk true) = some 0 ∧
    exchanging.share.pack.merging[exchanging.input.a]? = some ⟨3, 1, 7, 15, 1, 9, 4⟩ ∧
    mergeFirst exchanging.share.pack.merging ⟨3, 1, 7, 15, 1, 9, 4⟩ = ⟨3, 1, 7, 15, 1, 9, 4⟩ ∧ exchanging.region 15 = some ⟨0, 2, 3, 4096⟩ ∧
    exchanging.mem.wf = true ∧ (exchanging.share.pack.windows[exchanging.input.a]?.getD none).isSome = true ∧
    ((ran .exchangeRoundStart exchanging).schedule 3).map (fun x => (x.begun, x.current)) = some (true, 0) ∧
    (ran .exchangeMerge exchanging).cell ⟨0, 2, 3, 4096⟩ 7 1 = 9 ∧ (ran .exchangeMerge exchanging).share.pack.merging.length = 3 ∧
    field (ran .apertureRead exchanging).share.pack.apstat 0 32 = 5 := by decide +kernel

/-! ### Operations that register writes start -/

/-- Writes of `ringcfg`: 256 bytes at 64 KiB and at a base that is no multiple of the size; a ring with commands; and the ends
of the ranges of `pswin` and `psrate`. -/
theorem meets_ControlWords :
    8 ≤ field (0xC010000#64 &&& 0xFFFFFC0#64) 23 4 ∧ field (0xC010000#64 &&& 0xFFFFFC0#64) 6 17 * 64 % 2 ^ field (0xC010000#64 &&& 0xFFFFFC0#64) 23 4 = 0 ∧
    (base.engine 5).rp = (base.engine 5).wp ∧ ((onRing 5 .start).engine 5).enabled = true ∧ ((onRing 5 .start).engine 5).rp ≠ ((onRing 5 .start).engine 5).wp ∧
    field (0xF011000#64 &&& 0xFFFFFC0#64) 6 17 * 64 % 2 ^ field (0xF011000#64 &&& 0xFFFFFC0#64) 23 4 ≠ 0 ∧
    ((ran (.ringcfgWrite 5 0xC010000) base).engine 5).cfg = 0xC010000 ∧ (ran (.ringcfgWrite 5 0xC010000) { onRing 5 .start with onEngine := none }).hub.faults.map (·.code) = [0x1D] ∧
    (ran (.pswinWrite 0x800000) base).port.pswin = 0x800000 ∧ (ran (.pswinWrite 0xFFF) base).port.pswin = base.port.pswin ∧
    field (ran (.psrateWrite 0x410002) base).port.psrate 24 8 = 1 ∧ (ran (.psrateWrite 0x400002) base).port.psrate = 0x400002 ∧
    (∀ c ∈ (paged 0xFD 0).parked, c.id ≠ (paged 0xFD 0).core.id) ∧ (paged 0xFD 0).ep.leaves = [] ∧ (paged 0xFD 0).requestsOf (paged 0xFD 0).core = false ∧
    vaBad (bit (0x10040#64) 6) (0x10040#64 &&& ~~~0xFFFF#64) = false ∧
    (ran (.tlbopInvalidateVa 0x10040) (paged 0xFD 0)).core.tlb.map (·.host) = [false] ∧ (ran (.tlbopInvalidateAsid 0) (paged 0xFD 0)).core.tlb.map (·.host) = [true] ∧
    (ran (.tlbopInvalidateAll 0) (paged 0xFD 0)).core.tlb = [] ∧ field (ran (.tlbopInvalidateAll 0x30) (paged 0xFD 0)).core.regs.tlbop 8 4 = 1 ∧
    (ran (.ualpeerRelease 5) (base.modPack fun p => { p with quarantined := [5] })).share.pack.quarantined = [] ∧
    bit (ran (.ualpeerQuery 5) (base.modPack fun p => { p with quarantined := [5] })).share.pack.ualpeer 19 = true := by decide +kernel

/-- Dies that join across one dimension of the cube after another, in rounds of 64 clk. -/
def cube (k : Nat) : Word := BitVec.ofNat 64 (64 * 2 ^ 32 + 2 ^ 24 + ((List.range 8).map fun d => (d ^^^ k) * 2 ^ (3 * d)).sum)

/-- A block at 64 of the Chamber. -/
def withBlock (s : State) (bs : List Byte) : State := s.homeWrite .cham false 64 bs

/-- A region entry of one cell of type 1 at 4096 under schedule 3. -/
def regionBlock : List Byte := leBytes 4 1 ++ [1, 3] ++ leBytes 2 0 ++ leBytes 8 4096
def scheduleBlock : List Byte := leBytes 8 (cube 1).toNat ++ leBytes 8 (cube 2).toNat ++ leBytes 8 (cube 4).toNat

/-- A page of 1 GiB from address 0 of device memory. -/
def mapped : State := (base.homeWrite .dev false 0 [1, 0x10]).homeWrite .dev false 0x1000 [0xFD]
def windowBlock : List Byte := List.replicate 64 0 ++ [1, 0] ++ List.replicate 6 0 ++ leBytes 8 0 ++ leBytes 8 (2 ^ 21)
def queueBlock : List Byte := leBytes 24 1 ++ [3, 1] ++ leBytes 2 16

theorem meets_ControlBlocks :
    onOk (ctlBlock 64 32 (withBlock base regionBlock)) (fun r => (r.1.bind regionOf) == some ⟨1, 1, 3, 4096⟩ && (r.2.region 15).isNone && r.2.mem.wf) = true ∧
    onOk (ctlBlock 64 128 (withBlock base scheduleBlock)) (fun r => (r.1.bind scheduleOf).isSome) = true ∧
    onOk (ctlBlock 64 128 (withBlock mapped windowBlock)) (fun r => (r.1.bind r.2.windowOf).isSome) = true ∧
    onOk (ctlBlock 64 64 (withBlock base queueBlock)) (fun r => (r.1.bind (r.2.configured TaskQueue.reset)).isSome) = true ∧
    onOk (ctlBlock 64 32 base) (fun r => (r.1.bind regionOf).isNone && (r.1.bind scheduleOf).isNone && (r.1.bind r.2.windowOf).isNone) = true ∧
    ((ran (.rgctlInstallRegion 0x400F) (ran (.rgctlInstallSchedule 0x4003) (withBlock base scheduleBlock))).share.pack.rgctl.toNat) / 2 ^ 32 = 1 ∧
    ((ran (.rgctlInstallRegion 0x400F) (withBlock (ran (.rgctlInstallSchedule 0x4003) (withBlock base scheduleBlock)) (regionBlock ++ List.replicate 16 0))).region 15) = some ⟨1, 1, 3, 4096⟩ ∧
    (region15 0 2 []).regionUsed 15 = true ∧ ((region15 0 2 []).modStrand fun x => { x with info := KernelInfo.none }).regionUsed 15 = false ∧
    (ran (.rgctlRetireRegion 15) ((region15 0 2 []).modStrand fun x => { x with info := KernelInfo.none })).region 15 = none ∧
    ((ran (.apctlInstall 0x400F) (withBlock mapped windowBlock)).share.pack.windows[15]?.getD none).isSome = true ∧
    ((ran (.apctlRetire 15) (ran (.apctlInstall 0x400F) (withBlock mapped windowBlock))).share.pack.windows[15]?.getD none).isSome = false ∧
    ((ran (.tqctlConfigure 0x401F) (withBlock base queueBlock)).die.tq[31]?.map fun q => (q.enabled, q.prio, q.wgt)) = some (true, 3, 1) ∧
    ((ran (.tqctlDisable 0x1F) (ran (.tqctlConfigure 0x401F) (withBlock base queueBlock))).die.tq[31]?.map (·.enabled)) = some false := by decide +kernel

/-! ### Transport -/

/-- Core 16 has entry 2 of generation 3 pinned, for core 0 and one more consumer. -/
def producer : Core :=
  { Core.reset 16 with strand := { Strand.reset with
      pins := Strand.reset.pins.setIfInBounds 2 (⟨7, 2, 0x200, 9, 1, 3, 288, notice, [0, 32], [false, false], [false, false], false⟩ : Pin) } }
def served (net : List Msg) (w : PullWork) : State := { pulling .slot w net with parked := [producer] }

theorem meets_PullsAreCarriedOut :
    slotted.slotRoom 0 = true ∧ (slotted.modPort fun p => { p with outgoing := [⟨0, notice, false, 0⟩] }).local 0 = true ∧
    ((ran .noticeDelivery (slotted.modPort fun p => { p with outgoing := [⟨0, notice, false, 0⟩] })).share.port 0).slots.length = 2 ∧
    (bestOf (fun y => (served [] (progress [] [])).score (served [] (progress [] [])).port y.1 y.2) (served [] (progress [] [])).eligible).map (·.1.id) = some 1 ∧
    (served [] (progress [] [])).port.inflight + 288 ≤ (served [] (progress [] [])).port.win ∧ (served [] (progress [] [])).port.lastIssue = 0 ∧
    (served [] (progress [] [])).local (aPull .slot).prod = true ∧
    (ran .pullRequestIssue { served [] (progress [] []) with hub := { base.hub with hubClk := 1000 } }).share.net = [.request 1 0 288 true] ∧
    (((served [] (progress [] [])).coreAt 16).findPin 2 3).bind (·.openFor 0) = some 0 ∧ ((served [] (progress [] [])).coreAt 16).findPin 2 4 = none ∧
    (ran .pullRequestArrival (served [.request 1 0 288 true] (progress [] []))).share.net = [.serving 1 0 288] ∧
    (aPull .slot).foreign = false ∧ (aPull .slot).device = false ∧
    (ran .pullServed (served [.serving 1 0 288] { progress [] [] with position := some 0 })).share.net.length = 2 ∧
    ((((ran .declineArrival (served [.decline 16 2 3 0] (progress [] []))).coreAt 16).findPin 2 3).map (·.ret)) = some 1 := by decide +kernel

/-- The entry is that of the core's strand, of one swapped out, or what an ended strand has left, which takes no new pull. -/
def leftPin (frame : Nat) : Core :=
  { Core.reset 16 with oldPins := [⟨frame, 2, { producer.strand.pins[2]?.getD Pin.free with serving := [true, false] }⟩] }

theorem meets_PullsAreCarriedOut_entries :
    pinsKept producer ∧ pinsKept (leftPin 0) ∧ producer.pinPlace 2 3 false (·.isOpen 0) = some .live ∧
    (leftPin 0x100000).pinPlace 2 3 false (·.isOpen 32) = some (.old 0) ∧ (leftPin 0).pinPlace 2 3 false (·.isOpen 32) = none ∧
    (leftPin 0).pinPlace 2 3 true (fun y => y.serving[0]?.getD false) = some (.old 0) ∧
    ((leftPin 0).pinIn 2 (.old 0)).state = 1 ∧ ((leftPin 0).pinIn 2 (.old 0)).ret = 2 ∧ (producer.pinIn 2 .live).openFor 0 = some 0 := by
  unfold pinsKept; decide +kernel

theorem meets_PullsAreCarriedOut_landing :
    (served [.unit 1 1 2 0 0 0 (List.replicate 32 5) [false]] (progress [] [])).unitsReady.length = 1 ∧
    (ran .pullUnitLanding (served [.unit 1 1 2 0 0 0 (List.replicate 32 5) [false]] (progress [] []))).byteAt .cham false 0x111F = 5 ∧
    field (ran .routeAck (served [.ack 1 0 3 2] (progress [] []))).core.regs.rtcnt 48 16 = 2 ∧
    (served [] (progress [(0, 2)] [0, 1])).wordHeld (aPull .slot) = false ∧ (served [] (progress [(0, 2)] [0, 1])).finalStatus (aPull .slot) (progress [(0, 2)] [0, 1]) = some 1 ∧
    (ran .pullCompletion (served [] (progress [(0, 2)] [0, 1]))).byteAt .cham false 0x40 = 1 ∧
    (ran .pullCompletion (served [] (progress [(0, 2)] [0, 1]))).byteAt .cham false 0x44 = 7 := by decide +kernel

/-! ### Time, errors and power -/

/-- The machine with an input from outside. -/
def given (s : State) (a b c : Nat) (bs : List Byte) : State := { s with input := ⟨a, b, c, bs⟩ }

/-- Engine 1 has two words in a ring of 256 bytes at Chamber offset 0. -/
def struck : State := base.modEngine 1 fun e => { e with cfg := 0xC000000#64, wp := 2 }

theorem meets_StorageErrorsCounted :
    (ran .correctableError (given (base.modDieAt 7 fun d => { d with eccstat := 0xFFFF#64 <<< 40 }) 0 7 0 [])).dieAt 7 =
      { Die.reset with eccstat := 0xFFFF#64 <<< 40 } ∧ ((ran .correctableError (given base 2 0 0 [])).dieAt 0).eccstat = 1 ∧
    base.ringStruck .cham 40 = none ∧ struck.ringStruck .cham 4 = some 0 ∧ struck.ringStruck .cham 64 = none ∧
    (ran .sramUncorrectableError (given struck 4 1 0 [])).core.mode = .idle ∧
    spaceNo 1 ≠ .host ∧ dieAt (spaceNo 1) 40 < 8 ∧ spaceNo 4 = .dev ∧ dieAt .dev 40 = 0 ∧
    field ((ran .sramUncorrectableError (given base 40 4 0 [])).dieAt 0).eccstat 32 8 = 1 ∧
    ((ran .sramUncorrectableError (given base 40 1 0 [])).mem.bank .cham false).poisoned 32 40 1 = true ∧
    (withA [(1, 9)]).mayRun (.csrw 1 0x1E0) = true ∧ ((ran (.csrw 1 0x1E0) (withA [(1, 9)])).dieAt 0).eccstat = 9 := by decide +kernel

/-- The bytes of a sector on either view, and the errors that no stack counts. -/
theorem meets_StorageErrorsCounted_units :
    spaceNo 5 = .host ∧ base.ringStruck .host 40 = none ∧ dieOf base.core.id = 0 ∧ base.ringStruck .dev 40 = none ∧
    ((ran .sramUncorrectableError (given base 40 4 1 [])).mem.bank .dev true).poisoned 32 63 1 = true ∧
    ((ran .sramUncorrectableError (given base 40 4 1 [])).mem.bank .dev false).poisoned 32 40 1 = false ∧
    field ((ran .sramUncorrectableError (given base 40 4 2 [])).dieAt 0).eccstat 56 8 = 1 ∧
    field ((ran .sramUncorrectableError (given base 40 4 2 [])).dieAt 0).eccstat 32 8 = 0 ∧
    field ((ran .sramUncorrectableError (given base 40 5 2 [])).dieAt 0).eccstat 56 8 = 1 ∧
    field ((ran .sramUncorrectableError (given base 40 1 4 [])).dieAt 0).eccstat 56 8 = 1 := by decide +kernel

/-- A core whose engine still drains is not gated. -/
theorem meets_PowerChanges_draining :
    State.reset.core.draining = false ∧ (State.reset.modEngine 1 fun e => { e with phase := .acquired }).core.draining = true := by decide +kernel

theorem meets_PowerChanges :
    State.reset.core.mode = .idle ∧ base.core.mode ≠ .idle ∧ (given base 0 0 1 []).input.c = 1 ∧ (given base 0 0 0 []).input.c ≠ 1 ∧
    (ran .corePowerGate State.reset).core.gated = true ∧ (ran .powerOn base).core.mode = .idle ∧
    (ran .powerThrottle (given base 0 0 0 [])).hub.throttle = 1 ∧ (ran .corePowerUngate (ran .corePowerGate State.reset)).core.gated = false := by
  decide +kernel

/-- The EP stands at `vadd st1, st2, st3` of `adding`, whose element of stream 2 at POS lies in sector 4. -/
def elementArrives (poisoned : Bool) : State :=
  { ((adding 0).setPoison .cham false 4 poisoned).modStrand fun t => { t with
      image := ⟨64, leBytes 4 ((encode (.vadd 1 2 3 8 0)).headD 0).toNat, []⟩ } with input := ⟨2, 0, 0, []⟩ }

theorem meets_PoisonedElementTraps :
    (elementArrives true).core.mode = .running ∧ (elementArrives true).ep.held = false ∧ (elementArrives true).ep.chain = none ∧
    (elementArrives true).limit = none ∧ ((elementArrives true).stream 2).epVersion.isQueue = false ∧
    ((elementArrives true).stream 2).epVersion.ppol = 0 ∧ ((elementArrives true).stream 2).epVersion.pos < ((elementArrives true).stream 2).epVersion.count ∧
    (elementArrives true).epReads 2 = true ∧ trapOf (((elementArrives true).epPath 2).elem 0 (elementArrives true)) (fun t => t.code == 0x16 && t.cls == .e) = true ∧
    (ran .streamElementArrival (elementArrives true)).strand.pend.map (·.code) = [0x16] ∧
    onOk (((elementArrives false).epPath 2).elem 0 (elementArrives false)) (fun _ => true) = true := by decide +kernel

/-! ### Launches and the scheduler -/

/-- A kernel image of 260 bytes whose entry is its last word. -/
def kernelOf (gsz flags banks joinPc : Nat) (levels : List Nat) : List Byte :=
  padTo 260 (leBytes 4 1 ++ [0, BitVec.ofNat 8 gsz, BitVec.ofNat 8 flags, BitVec.ofNat 8 banks] ++ leBytes 8 0 ++ leBytes 8 0x104 ++
    leBytes 8 0x100 ++ leBytes 8 joinPc ++ List.replicate 72 0 ++ levels.flatMap (leBytes 8))

/-- A launch at 0x4000 on die 0 and task queue 31, of 3 dies times 2 cores. -/
def launched (k : List Byte) : Launch := ⟨0, 0x4000, 0, 31, 0x8000, 6, 0, [3, 2], [3, 2], 7, 8, k, []⟩
def plainKernel : List Byte := kernelOf 0 0 0xFF 0 []

theorem meets_LeavesNumberTheLevels :
    5 < leaves (launched plainKernel).levels ∧ (leafOf (launched plainKernel).levels 5).map (·.2) = [2, 1] ∧
    (leafOf (launched plainKernel).levels 1).map (·.2) = [0, 1] ∧ Kernel.wellFormed plainKernel = true := by decide +kernel

/-- A task queue that every core serves. -/
def openQueue (prio : Nat) (pre : Bool) (rs : List Record) : TaskQueue :=
  ⟨true, BitVec.allOnes 192, prio, pre, 1, 0, [], 0, rs, 1, 0, none⟩

/-- Every function is ready, one launch stands, and queues 31 and 0 of die 0 hold these records. -/
def scheduling (l : Launch) (rs low : List Record) : State :=
  (State.reset.modHub fun h => { h with launches := [l], fw := { h.fw with rdy := 2 ^ 41 - 1 } }).modDieAt 0 fun d =>
    { d with tq := (d.tq.setIfInBounds 31 (openQueue 7 true rs)).setIfInBounds 0 (openQueue 1 false low) }

/-- The record of leaf n of a launch. -/
def leafRecord (l : Launch) (n : Nat) : Record := l.leaf n []

theorem meets_LeavesAreEnqueued :
    ((scheduling (launched plainKernel) [] []).hub.launches.filter fun l => l.next < l.total)[0]? = some (launched plainKernel) ∧
    ((scheduling (launched plainKernel) [] []).tqOf 0 31).room = true ∧
    ((scheduling (launched plainKernel) (List.replicate 64 (leafRecord (launched plainKernel) 0)) []).tqOf 0 31).room = false ∧
    ((ran .launchExpand (scheduling { launched plainKernel with next := 5 } [] [])).tqOf 2 31).records = [] ∧
    ((ran .launchExpand (scheduling (launched plainKernel) [] [])).tqOf 0 31).records.map (fun r => (r.code, r.frame, r.join, r.idx)) =
      [(0x4100, 0x8000, 0x8088, 0)] ∧
    (ran .launchExpand (scheduling (launched plainKernel) [] [])).hub.launches.map (·.next) = [1] := by decide +kernel

/-- Work waits in both queues; and a gang of two. -/
def choosing : State := scheduling (launched plainKernel) [leafRecord (launched plainKernel) 1] [leafRecord (launched plainKernel) 0]
def gangLaunch : Launch := launched (kernelOf 1 4 0xFF 0 [])
def ganging : State := scheduling gangLaunch [leafRecord gangLaunch 1] []

theorem choosing_unasked (q : Nat) : (choosing.tqOf 0 q).asked ≠ some choosing.core.id := by
  have h : (choosing.dieAt 0).tq.toList.all (fun z => z.asked != some choosing.core.id) = true := by decide +kernel
  have h' := List.all_eq_true.mp h
  change (((choosing.dieAt 0).tq[q]?).getD TaskQueue.reset).asked ≠ _
  rcases hq : (choosing.dieAt 0).tq[q]? with _ | z
  · decide
  · have hz : z ∈ (choosing.dieAt 0).tq.toList := by
      rw [Vector.getElem?_eq_some_iff] at hq
      obtain ⟨i, rfl⟩ := hq
      simp
    simpa using h' z hz

theorem meets_SelectionOrder :
    (choosing.select choosing.wants).map (fun x => (x.1.q, x.1.ix, x.1.rec_.idx)) = some (31, 0, 4) ∧
    (choosing.offers choosing.core choosing.wants).map (·.q) = [0, 31] := by decide +kernel

theorem meets_CoresTakeRecords :
    base.canSelect = false ∧ choosing.canSelect = true ∧ choosing.core.preload = none ∧ choosing.joins = none ∧
    (choosing.select choosing.wants).map (fun x => ((choosing.launchOf x.1.rec_).map fun l => x.1.rec_.gangSize l, x.1.rec_.kept)) = some (some 0, []) ∧
    (ganging.select ganging.wants).map (fun x => (ganging.launchOf x.1.rec_).map fun l => x.1.rec_.gangSize l) = some (some 2) ∧
    ((ran .recordSelect ganging).dieAt 0).gangs.map (·.cores) = [[0]] ∧ ((ran .recordSelect ganging).focus 1).canSelect = true ∧
    ((ran .recordSelect ganging).focus 1).joins.map (·.cores) = some [0] ∧
    (ran .recordSelect choosing).core.mode = .running ∧ (ran .recordSelect choosing).ap.pc = 0x4100 ∧
    (ran .recordSelect choosing).strand.sys.ptbase = 7 := by decide +kernel

/-- Cores 0 and 1 are reserved for the gang's leaf. -/
def reservedGang : State :=
  { ganging with clk := 1 }.modDieAt 0 fun d => { d with gangs := [⟨31, leafRecord gangLaunch 1, [0, 1], 0⟩] }

theorem meets_GangsStartTogether :
    (reservedGang.dieAt 0).gangs = [⟨31, leafRecord gangLaunch 1, [0, 1], 0⟩] ∧ 0 < reservedGang.clk ∧ reservedGang.launchOf (leafRecord gangLaunch 1) = some gangLaunch ∧
    ((List.range 12).findSome? fun c => (⟨31, leafRecord gangLaunch 1, [0, 1], 0⟩ : Reservation).team
      ((leafRecord gangLaunch 1).gangSize gangLaunch) (16 * 0 + c)) = some [0, 1] ∧
    (((ran .gangStart reservedGang).coreAt 1).strand.sys.gangid) = 17 ∧ ((ran .gangStart reservedGang).coreAt 0).mode = .running := by decide +kernel

/-- Core 0 runs a strand with banks 0xF0 and its next record needs these banks. -/
def busyCore (banks : Nat) : State :=
  let l := launched (kernelOf 0 0 banks 0 [])
  (scheduling l [leafRecord l 1] []).modCore fun c => { c with mode := .running, strand := { c.strand with info := { c.strand.info with banks := 0xF0 } } }

/-- The preloaded record of an idle core, released at clk 0. -/
def preloaded (now : Nat) : State :=
  { (ran .preloadLoad (busyCore 0x0F)).modCore fun c => { c with mode := .idle } with clk := now }

theorem meets_PreloadedTaskStarts :
    (busyCore 0x0F).core.mode ≠ .idle ∧ (busyCore 0x0F).core.preload = none ∧ (busyCore 0x0F).core.regs.yreq ≠ 1 ∧ (busyCore 0x0F).dieReady 0 = true ∧
    ((busyCore 0x1F).select fun r => r.rerun.isEmpty).map (fun x => ((busyCore 0x1F).launchOf x.1.rec_).map fun l =>
      (x.1.rec_.gangSize l, x.1.rec_.kept, Kernel.banks l.kernel &&& (busyCore 0x1F).strand.info.banks)) = some (some (0, [], 0x10)) ∧
    ((busyCore 0x0F).select fun r => r.rerun.isEmpty).map (fun x => ((busyCore 0x0F).launchOf x.1.rec_).map fun l =>
      Kernel.banks l.kernel &&& (busyCore 0x0F).strand.info.banks) = some (some 0) ∧
    (preloaded 63).core.preload.isSome = true ∧ (preloaded 64).core.released = 0 ∧ (preloaded 64).core.gated = false ∧ (preloaded 64).core.halted = false ∧
    (preloaded 64).rerunWaits = false ∧ ((preloaded 64).core.preload.map fun p => ((preloaded 64).launchOf p.record).isSome) = some true ∧
    (ran .preloadActivate (preloaded 63)).core.mode = .idle ∧ (ran .preloadActivate (preloaded 64)).core.mode = .running := by decide +kernel

/-- Queue 31 has PRE and is served by core 0 only, which runs work of queue 0. -/
def outranked (c : Core) : State :=
  ({ scheduling (launched plainKernel) [leafRecord (launched plainKernel) 1] [] with core := c }).modDieAt 0 fun d =>
    { d with tq := d.tq.setIfInBounds 31 { openQueue 7 true [leafRecord (launched plainKernel) 1] with mask := 1 } }
def working : Core := { base.core with running := some ⟨leafRecord (launched plainKernel) 0, 0, 0, 0, 0x4000⟩ }
/-- The core under a request, with LEFT. -/
def requestedFor (left : Nat) : State :=
  outranked { working with regs := { working.regs with yreq := 1, ydead := BitVec.ofNat 64 (left * 2 ^ 32) } }

theorem meets_PreemptionRequests :
    ((outranked working).tqOf 0 31).enabled = true ∧ ((outranked working).tqOf 0 31).pre = true ∧ ((outranked working).tqOf 0 31).records ≠ [] ∧
    ((outranked working).tqOf 0 31).asked = none ∧ ((outranked working).victim 0 ((outranked working).tqOf 0 31)) = some working ∧
    ((List.range 31).all fun j => !((outranked working).tqOf 0 j).pre) = true ∧
    (ran .preemptRequest (outranked working)).core.regs.yreq = 1 ∧
    (requestedFor 0).core.mode ≠ .idle ∧ (requestedFor 0).core.regs.yreq = 1 ∧ (requestedFor 0).strand.ap.ending ≠ some .yield ∧
    field (requestedFor 0).core.regs.ydead 32 32 = 0 ∧ field (requestedFor 1).core.regs.ydead 32 32 ≠ 0 ∧
    (ran .deadlineExpiry (requestedFor 0)).core.saveDue = true ∧ (ran .deadlineExpiry (requestedFor 1)).core.saveDue = false := by decide +kernel

/-- The strand of a record has halted; the join counter of its launch holds a number. -/
def halting (join joinPc count : Nat) : State :=
  let l := launched (kernelOf 0 0 0xFF joinPc [])
  ({ scheduling l [] [] with core := { working with
      running := some ⟨{ leafRecord l 0 with join := BitVec.ofNat 64 join }, 0, 0, 0, 0x4000⟩
      strand := { working.strand with ap := { working.strand.ap with ending := some .halt } } } }).homeWrite .dev false 0x8088 (leBytes 8 count)

theorem meets_HaltedStrandsEnd :
    base.haltReady = false ∧ (halting 0x8088 0x100 1).haltReady = true ∧ (halting 0x8088 0x100 1).parked = [] ∧
    (halting 0x8088 0x100 1).core.order.stores = [] ∧ (halting 0x8088 0x100 1).podWrites = false ∧ (halting 0x8088 0x100 1).drainAll.storesDone = true ∧
    ((halting 0x8088 0x100 1).hub.launches.find? fun l => l.frame == 0x8000).isSome = true ∧
    (halting 0x8088 0x100 1).drainAll.completeLoads.releaseAll.mem.phys8 0x8088 = 1 ∧
    ((ran .haltComplete (halting 0x8088 0x100 1)).tqOf 0 0).records.map (fun r => (r.code, r.join)) = [(0x4100, 0)] ∧
    (ran .haltComplete (halting 0x8088 0x100 2)).mem.phys8 0x8088 = 1 ∧ (ran .haltComplete (halting 0x8088 0x100 2)).core.mode = .idle ∧
    (ran .haltComplete (halting 0x8088 0 1)).hub.launches.length = 0 ∧ (halting 0 0 1).haltReady = true ∧
    (ran .haltComplete (halting 0 0 1)).hub.launches.length = 0 := by decide +kernel

/-! ### Invocations, saves and blocks -/

/-- An invocation of queue 255 and slot 63 with a contained fault, and its launch; the core runs its strand. -/
def faulted (flags replays : Nat) : State :=
  let l : Launch := { launched (kernelOf 0 flags 0xFF 0 []) with inv := 9 }
  (({ scheduling l [] [] with core := { working with running := some ⟨{ leafRecord l 0 with inv := 9 }, 0, 0, 0, 0x4000⟩ } }).modHub fun h =>
    { h with invocations := [⟨9, 255, 0x700, [], replays, 63, some ⟨0x22, 0, 0xFF, 0, 0, 0, 0, 5, 0⟩, []⟩] }).modSlot 63 fun x => { x with infl := 1 }

theorem meets_InvocationsReplayOrFail :
    ((faulted 2 1).hub.invocations.find? fun v => v.fault.isSome && (faulted 2 1).replayable v).map (·.replays) = some 1 ∧
    ((faulted 2 2).hub.invocations.find? fun v => v.fault.isSome && !(faulted 2 2).replayable v).map (·.queue) = some 255 ∧
    (faulted 2 1).invokeAsk 255 63 [] = none ∧ ((faulted 0 0).hub.invocations.find? fun v => v.fault.isSome && !(faulted 0 0).replayable v).map (·.slot) = some 63 ∧
    (ran .invocationFail (faulted 2 2)).hub.invocations.length = 0 ∧ (ran .invocationFail (faulted 0 0)).hub.faults.map (·.code) = [0x22] ∧
    ((ran .invocationFail (faulted 0 0)).slot 63).infl = 0 ∧ (ran .invocationFail (faulted 0 0)).core.mode = .idle ∧
    (faulted 0 0).coresOf 9 = [0] := by decide +kernel

/-- An error in the strand's state writes its record where the invocation has one or is replayed. -/
theorem meets_ErrorsEndStrand_record :
    base.unrecorded = false ∧ (faulted 2 0).unrecorded = true ∧ (faulted 2 0).core.mode ≠ .idle ∧
    (ran .strandStateError (faulted 2 0)).hub.faults.map (·.code) = [0x16] := by decide +kernel

/-- A strand that must be saved. -/
def dueCore : State := { outranked working with core := { working with saveDue := true } }

theorem meets_StrandsAreSaved :
    dueCore.core.running.map (·.tq) = some 0 ∧ dueCore.gangCores = [0] ∧ dueCore.saveReady = true ∧ base.saveReady = false := by decide +kernel

/-- The core holds bank 7 for the image at 0x100000. -/
def holdingBank : State :=
  (base.modCore fun c => { c with held := [⟨0x100000, .replicate 48 Tile.dead, 0x80, false, false⟩] }).homeWrite .cham false (chamAt 0 0x700005) [9]

theorem meets_SavedBanksWritten :
    holdingBank.core.held[holdingBank.input.a]?.map (fun h => (h.banks == 1#8 <<< 7, h.lanes)) = some (true, false) ∧ holdingBank.core.oldPins = [] ∧
    (ran .savedBankWrite holdingBank).core.held.length = 0 ∧
    (ran .savedBankWrite holdingBank).byteAt .dev false (bankPlace holdingBank 0x100000 7 + 5) = 9 := by decide +kernel

/-- A saved record of core 0 at the head of queue 31, whose image at 0x100000 holds the sections of a strand after reset, or
is not there. -/
def keptOne : Kept := ⟨0x100000, 0, 0, false, Strand.reset, .replicate 6 Engine.reset, []⟩
def keptRecord : Record := { leafRecord (launched plainKernel) 0 with code := 0x4101, frame := 0x100000, rset := 0, kept := [keptOne] }
def keptCells : List Host.Cell :=
  [(0x100000, 1), (0x100030, 1), (0x100031, 65), (0x10003A, 16), (0x100040, 136), (0x100041, 128), (0x100400, 1), (0x102A00, 1),
   (0x102B40, 1), (0x102C80, 1), (0x102DC0, 1), (0x102F00, 1), (0x103040, 1), (0x103180, 1), (0x1032C0, 1), (0x103400, 1),
   (0x103540, 1), (0x103680, 1), (0x1037C0, 1), (0x103900, 1), (0x103A40, 1), (0x103B80, 1), (0x103CC0, 1), (0x104083, 4), (0x104110, 1),
   (0x104283, 4), (0x104310, 1), (0x104483, 4), (0x104510, 1), (0x104683, 4), (0x104710, 1), (0x104883, 4), (0x104910, 1), (0x104A83, 4), (0x104B10, 1), (0x115402, 1), (0x11540A, 1), (0x115412, 1),
   (0x11541A, 1), (0x115422, 1), (0x11542A, 1), (0x115432, 1), (0x11543A, 1), (0x115442, 1), (0x11544A, 1), (0x115452, 1),
   (0x11545A, 1), (0x115462, 1), (0x11546A, 1), (0x115472, 1), (0x115478, 255), (0x115479, 255), (0x11547A, 255),
   (0x11547B, 255), (0x1154BA, 255)]
def keptState (there : Bool) : State :=
  let s := scheduling (launched plainKernel) [keptRecord] []
  if there then { s with mem := { s.mem with dev := ⟨keptCells, []⟩ } } else s
def keptReader : Machine.Reader := fun o n => Cells.read keptCells (0x100000 + o) n

theorem read_zeros (m : List Host.Cell) (n : Nat) : ∀ a, (m.all fun c => c.1 < a || a + n ≤ c.1) = true → Cells.read m a n = List.replicate n 0 := by
  induction n with
  | zero => intro a _; rfl
  | succ n ih =>
    intro a h
    have g : ∀ l : List Host.Cell, (l.all fun c => c.1 < a || a + (n + 1) ≤ c.1) = true → Cells.get l a = 0 := by
      intro l
      induction l with
      | nil => intro _; rfl
      | cons c l il =>
        intro hl
        simp only [List.all_cons, Bool.and_eq_true, Bool.or_eq_true, decide_eq_true_eq] at hl
        obtain ⟨k, v⟩ := c
        simp only [Cells.get]
        rw [if_neg (by simp at hl; omega)]
        exact il (by simpa using hl.2)
    have h' : (m.all fun c => c.1 < a + 1 || a + 1 + n ≤ c.1) = true := by
      rw [List.all_eq_true] at h ⊢
      intro c hc
      have := h c hc
      simp only [Bool.or_eq_true, decide_eq_true_eq] at this ⊢
      omega
    simp only [Cells.read, List.replicate, ih _ h', g m h]

/-- The same read, for the kernel to evaluate. -/
def fastGet : List Host.Cell → Nat → Byte
  | [], _ => 0
  | c :: r, a => bif Nat.beq c.1 a then c.2 else fastGet r a
def fastRead (m : List Host.Cell) (a : Nat) : Nat → List Byte
  | 0 => []
  | n + 1 => fastGet m a :: fastRead m (Nat.succ a) n

theorem fastGet_eq (m : List Host.Cell) (a : Nat) : fastGet m a = Cells.get m a := by
  induction m with
  | nil => rfl
  | cons c m ih =>
    obtain ⟨k, v⟩ := c
    simp only [fastGet, Cells.get, ih]
    by_cases h : k = a
    · subst h; simp
    · have : Nat.beq k a = false := by cases e : Nat.beq k a with
        | true => exact absurd (Nat.eq_of_beq_eq_true e) h
        | false => rfl
      rw [this, if_neg h]; rfl

theorem fastRead_eq (m : List Host.Cell) (n : Nat) : ∀ a, fastRead m a n = Cells.read m a n := by
  induction n with
  | zero => intro a; rfl
  | succ n ih => intro a; simp [fastRead, Cells.read, ih, fastGet_eq]

theorem keptReader_fast : keptReader = fun o n => fastRead keptCells (0x100000 + o) n := by
  funext o n; exact (fastRead_eq _ _ _).symm

theorem keptImage_strand : Strand.reset.ofImage keptReader = Strand.reset := by rw [keptReader_fast]; decide +kernel
theorem keptImage_enginesOf : enginesOf keptReader = .replicate 6 Engine.reset := by rw [keptReader_fast]; decide +kernel

theorem keptImage_reserved : keptReader.nat 0 8 = 1 ∧ keptReader.nat 10 1 = 0 ∧ countsOk keptReader = true ∧ keptReader.headOk = true ∧
    keptReader.queuesOk = true ∧ keptReader.pinsOk = true ∧ keptReader.enginesOk = true ∧
    ((List.range 16).all fun i => keptReader.zero (0x2A00 + 320 * i + 1) 31) = true := by rw [keptReader_fast]; decide +kernel
theorem keptImage_regs : keptReader.regsOk = true := by rw [keptReader_fast]; decide +kernel

theorem keptImage_zero (o n : Nat) (h : (keptCells.all fun c => c.1 < 0x100000 + o || 0x100000 + o + n ≤ c.1) = true) :
    keptReader.zero o n = true := by
  rw [Reader.zero, keptReader, read_zeros keptCells n _ h]; simp

theorem keptImage_stands : keptOne.refused 0 keptReader = none := by
  obtain ⟨h0, h1, h2, h3, h4, h5, h6, h7⟩ := keptImage_reserved
  have hc : ((keptOne.strand.ofImage keptReader).withChain keptReader).ep.chain = none := by simp [Strand.withChain, h1]
  simp [Kept.refused, Reader.reservedOk, h0, h1, h2, h3, h4, h5, h6, h7, hc, keptImage_regs, keptImage_zero 0x406 506 (by decide +kernel),
    keptImage_zero 0x3E7E 2 (by decide +kernel), keptImage_zero 0x17400 0xC00 (by decide +kernel), keptImage_zero 0x4C80 66752 (by decide +kernel)]

theorem meets_SavedRecordsRestored :
    (keptState true).canSelect = true ∧ (keptState true).core.preload = none ∧
    ((keptState true).select (keptState true).wants).map (fun x => (x.1.rec_, x.2.mem.dev.cells, x.2.podName 0)) = some (keptRecord, keptCells, 0) ∧
    (keptState true).launchOf keptRecord = some (launched plainKernel) ∧ keptRecord.gangSize (launched plainKernel) = 0 ∧ keptRecord.kept = [keptOne] ∧
    ((keptState false).select (keptState false).wants).map (fun x =>
      (x.1.rec_, ((x.2.modTq 0 x.1.q fun q => q.remove x.1.ix 0).whyRefused x.1.rec_ fun _ => 0).map (·.2))) = some (keptRecord, some 0x39) := by
  decide +kernel

theorem meets_SavedRecordsRestored_stands (o : Offer) (t : State) (h : (keptState true).select (keptState true).wants = some (o, t)) :
    (t.modTq 0 o.q fun q => q.remove o.ix 0).whyRefused o.rec_ (fun _ => 0) = none := by
  have g := meets_SavedRecordsRestored.2.2.1
  rw [h] at g
  simp only [Option.map_some, Option.some.injEq, Prod.mk.injEq] at g
  generalize hz : (t.modTq 0 o.q fun q => q.remove o.ix 0) = z
  have hm : z.mem.dev.cells = keptCells := by rw [← g.2.1, ← hz, State.modTq, State.modShare]
  have hp : z.podName 0 = 0 := by
    have hn : z.share.pack = t.share.pack := by rw [← hz, State.modTq, State.modShare]
    exact (show z.podName 0 = t.podName 0 by rw [State.podName, State.podName, State.node, State.node, hn]).trans g.2.2
  have hr : z.imageReader 0x100000 = keptReader := by
    funext i n
    rw [keptReader, ← hm]
    rfl
  have hk : keptRecord.kept = [keptOne] := rfl
  have hf : keptOne.frame = 0x100000 := rfl
  rw [State.whyRefused, g.1, hk, List.findSome?_cons, hf, hp, hr, keptImage_stands]
  rfl

/-! ### Blocks -/

/-- The AP and the EP have a block of class 9 on semaphore 5, of value v. -/
def blocked (v count : Nat) : State :=
  let b : Block := ⟨9, count, 2, 5, 0, 0, 0, 65536⟩
  (((base.modAp fun a => { a with block := some b }).modEp fun e => { e with block := some b }).modSys fun y => { y with shvec := 128 }).setSema 5 v

theorem meets_BlockEvents :
    ((blocked 1 1).blockOf 0).map (blocked 1 1).blockClear = some true ∧ ((blocked 0 1).blockOf 1).map (blocked 0 1).blockClear = some false ∧
    ((blocked 0 65537).blockOf 0).map (fun b => ((blocked 0 65537).blockClear b, b.expired, b.cls)) = some (false, true, 9) ∧
    ((blocked 0 65536).blockOf 0).map (·.expired) = some false ∧ (blocked 0 65537).core.mode = .running ∧ (blocked 0 65537).monitor = none ∧
    (blocked 0 65537).inShadow = false ∧ field (blocked 0 65537).strand.sys.shvec 2 54 ≠ 0 ∧
    (ran (.blockEnd 0) (blocked 1 1)).ap.block = none ∧ (ran (.progressTrap 0) (blocked 0 65537)).core.trap.map (·.code) = some 0xA ∧
    (ran (.progressTrap 1) (blocked 0 65537)).strand.pend.map (·.code) = [0xA] := by decide +kernel

/-! ### Packets -/

/-- A page of 1 GiB from 0 is mapped, and every function is ready. -/
def hubReady : State := { mapped.modHub fun h => { h with fw := { h.fw with rdy := 2 ^ 41 - 1 } } with core := Core.reset 0 }

/-- Queue 0 of 256 words at 0x22000, with error record and events at 0x20000 and 0x21000, and one range of 1 GiB, at these words
of level 0; it manages every queue of its processor. -/
def onQueue (ws : List Word32) : State :=
  ((hubReady.placePacket ws).modQueue 0 fun z => { z with
    active := ((((z.active.setIfInBounds 1 (0xFFFF000000070008#64)).setIfInBounds 3 0x22000).setIfInBounds 4 0x20000).setIfInBounds 5 0x21000).setIfInBounds 13 (2 ^ 30)
    wp := BitVec.ofNat 32 ws.length
    levels := [{ Level.bottom with fetched := ws.zipIdx.map fun x => (x.2, x.1) }] })

/-- A packet's words: opcode, code, body. -/
def pkt (op code : Nat) (b : List Word32) : List Word32 := BitVec.ofNat 32 (2 ^ 24 * op + 2 ^ 16 * code + b.length) :: b
/-- An operand of 64 bits. -/
def lohi (a : Nat) : List Word32 := [BitVec.ofNat 32 (a % 2 ^ 32), BitVec.ofNat 32 (a / 2 ^ 32)]

theorem meets_ValidatorHaltsQueue :
    ((onQueue (pkt 0 0 [])).queue 0).mode = 1 ∧ (onQueue (pkt 0 0 [])).qpReady 0 = true ∧ (onQueue (pkt 0 0 [])).recovery = false ∧
    ((onQueue (pkt 0 0 [])).queue 0).pending = [] ∧ ((onQueue (pkt 0 0 [])).queue 0).allows 13 = true ∧ 1 ≤ ((onQueue (pkt 0 0 [])).queue 0).left ∧
    (inRange ((onQueue (pkt 0 0 [])).queue 0).active (2 ^ 30) 4).isSome = false ∧
    ((ran (.pktNop [1]) (onQueue (pkt 0 0 []))).queue 0).cause = 0 ∧
    ((ran (.pktEvent [1]) (onQueue (pkt 11 0 [1]))).queue 0).cause = 0x42 ∧
    ((ran (.pktWrite (lohi (2 ^ 30) ++ [5])) (onQueue (pkt 1 0 (lohi (2 ^ 30) ++ [5])))).queue 0).cause = 0x43 ∧
    ((ran (.notAPacket 0x1F000000) (onQueue [0x1F000000])).queue 0).cause = 0x41 ∧
    ((ran (.pktNop []) ((onQueue (pkt 0 0 [])).modQueue 0 fun z => { z with active := z.active.setIfInBounds 8 0x3FFE#64 })).queue 0).cause = 0x41 := by
  decide +kernel

/-- A write of two words at 0x30000, and an addition at 0x3FFFFFFC. -/
def twoWords : List Word32 := lohi 0x30000 ++ [5, 6]
def oneMore : List Word32 := lohi 0x3FFFFFFC ++ [7]

theorem meets_WritePackets :
    (onQueue (pkt 1 0 twoWords)).packetRuns 1 twoWords ∧ ((onQueue (pkt 1 0 twoWords)).queue 0).atZero = true ∧
    (inRange ((onQueue (pkt 1 0 twoWords)).queue 0).active 0x30000 8).isSome = true ∧
    (inRange ((onQueue (pkt 1 0 oneMore)).queue 0).active 0x3FFFFFFC 4).isSome = true ∧
    onOk ((onQueue (pkt 1 0 twoWords)).qWrite 0 0x30000 (leBytes 4 5 ++ leBytes 4 6)) (fun _ => true) = true ∧
    onOk ((onQueue (pkt 1 1 oneMore)).qRead 0 0x3FFFFFFC 4) (fun r => r.1.1 == [0, 0, 0, 0]) = true ∧
    (ran (.pktWrite twoWords) (onQueue (pkt 1 0 twoWords))).byteAt .dev false 0x30004 = 6 ∧
    ((ran (.pktWrite twoWords) (onQueue (pkt 1 0 twoWords))).queue 0).rp = 5 ∧
    (ran (.pktWriteAdd oneMore) (ran (.pktWriteAdd oneMore) (onQueue (pkt 1 1 oneMore ++ pkt 1 1 oneMore)))).byteAt .dev false 0x3FFFFFFC = 14 := by
  unfold State.packetRuns; decide +kernel

/-- An invocation of queue 0 has not ended. -/
def unended (ws : List Word32) : State := (onQueue ws).modHub fun h => { h with invocations := [⟨1, 0, 0, [], 0, 0, none, []⟩] }

theorem meets_PlainPackets :
    (onQueue (pkt 0 0 [9])).packetRuns 0 [9] ∧ (onQueue (pkt 11 0 (lohi 8))).packetRuns 11 (lohi 8) ∧
    (onQueue (pkt 12 0 (lohi 0x30000))).packetRuns 12 (lohi 0x30000) ∧ (onQueue (pkt 9 0 [])).packetRuns 9 [] ∧ (onQueue (pkt 10 0 [])).packetRuns 10 [] ∧
    (inRange ((onQueue (pkt 12 0 (lohi 0x30000))).queue 0).active 0x30000 0x2C80).isSome = true ∧
    ((onQueue (pkt 9 0 [])).hub.invocations.any fun v => v.queue == 0) = false ∧ ((unended (pkt 9 0 [])).hub.invocations.any fun v => v.queue == 0) = true ∧
    ((ran (.pktNop [9]) (onQueue (pkt 0 0 [9]))).queue 0).rp = 2 ∧ ((ran (.pktEvent (lohi 8)) (onQueue (pkt 11 0 (lohi 8)))).hub.interrupts) = [7] ∧
    (ran (.pktEvent (lohi 8)) (onQueue (pkt 11 0 (lohi 8)))).byteAt .dev false 0x21030 = 8 ∧
    ((ran .pktFence (unended (pkt 9 0 []))).queue 0).rp = 0 ∧ ((ran .pktFence (onQueue (pkt 9 0 []))).queue 0).rp = 1 ∧
    ((ran .pktFfence (onQueue (pkt 10 0 [] ++ pkt 0 0 []))).queue 0).levels.all (fun l => l.fetched.isEmpty) = true := by
  unfold State.packetRuns; decide +kernel

/-- A wait for bits of the word at 0x30000, with a bound of one unit of 1,024 hub-clk. -/
def waitBody (ref mask : Nat) : List Word32 := lohi 0x30000 ++ [BitVec.ofNat 32 ref, BitVec.ofNat 32 mask, 1]
def condBody (ref n : Nat) : List Word32 := lohi 0x30000 ++ [BitVec.ofNat 32 ref, BitVec.ofNat 32 n]
/-- The same queue after its packet has waited, with the hub's clock at a number. -/
def waited (now : Nat) : State :=
  (ran (.pktWaitmem 0 (waitBody 1 1)) (onQueue (pkt 2 0 (waitBody 1 1)))).modHub fun h => { h with hubClk := now }

theorem meets_ControlPackets :
    (onQueue (pkt 2 0 (waitBody 1 1))).packetRuns 2 (waitBody 1 1) ∧ (inRange ((onQueue (pkt 2 0 (waitBody 1 1))).queue 0).active 0x30000 4).isSome = true ∧
    onOk ((onQueue (pkt 2 0 (waitBody 1 1))).memWord 0 0x30000) (fun r => holds 0 (r.1 &&& 1) 1 == false && holds 0 (r.1 &&& 1) 0) = true ∧
    ((ran (.pktWaitmem 0 (waitBody 0 1)) (onQueue (pkt 2 0 (waitBody 0 1)))).queue 0).rp = 6 ∧ ((waited 0).queue 0).rp = 0 ∧ ((waited 0).queue 0).pending = [] ∧
    ((waited 1024).queue 0).waitedOut 1024 ((waited 1024).currentWords 0) = true ∧ ((waited 1023).queue 0).waitedOut 1023 ((waited 1023).currentWords 0) = false ∧
    ((ran .waitmemTimeout (waited 1024)).queue 0).cause = 0x44 ∧ ((ran .waitmemTimeout (waited 1023)).queue 0).cause = 0 ∧
    (onQueue (pkt 3 0 (condBody 1 2) ++ pkt 0 0 [1])).packetRuns 3 (condBody 1 2) ∧
    onOk ((onQueue (pkt 3 0 (condBody 1 2) ++ pkt 0 0 [1])).walkHeaders 0 2 5 2) (fun x => x.1) = true ∧
    5 + bw (condBody 1 2) 3 ≤ ((onQueue (pkt 3 0 (condBody 1 2) ++ pkt 0 0 [1])).queue 0).left ∧
    ((ran (.pktCond 0 (condBody 1 2)) (onQueue (pkt 3 0 (condBody 1 2) ++ pkt 0 0 [1]))).queue 0).rp = 7 ∧
    ((ran (.pktCond 0 (condBody 0 2)) (onQueue (pkt 3 0 (condBody 0 2) ++ pkt 0 0 [1]))).queue 0).rp = 5 := by
  unfold State.packetRuns; decide +kernel

/-- Past its bound a wait whose word meets the condition goes on; a condition code above 3 halts first. -/
theorem meets_ControlPackets_codes :
    onOk (((waited 1024).homeWrite .dev false 0x30000 [1]).memWord 0 0x30000) (fun r => holds 0 (r.1 &&& 1) 1) = true ∧
    ((waited 1024).queue 0).atZero = true ∧
    ((ran .waitmemTimeout ((waited 1024).homeWrite .dev false 0x30000 [1])).queue 0).rp = 6 ∧
    ((ran (.pktWaitmem 4 (waitBody 1 1)) (onQueue (pkt 2 4 (waitBody 1 1)))).queue 0).cause = 0x42 ∧
    ((ran (.pktCond 4 (condBody 1 0)) (onQueue (pkt 3 4 (condBody 1 0)))).queue 0).cause = 0x42 := by decide +kernel

theorem meets_ControlPackets_levels :
    (onQueue (pkt 4 0 (lohi 0x30000 ++ [0xFFFFF]))).packetRuns 4 (lohi 0x30000 ++ [0xFFFFF]) ∧
    ((onQueue (pkt 4 0 (lohi 0x30000 ++ [0xFFFFF]))).queue 0).level < 2 ∧
    (inRange ((onQueue (pkt 4 0 (lohi 0x30000 ++ [0xFFFFF]))).queue 0).active 0x30000 (4 * 0xFFFFF)).isSome = true ∧
    ((ran (.pktIb (lohi 0x30000 ++ [0xFFFFF])) (onQueue (pkt 4 0 (lohi 0x30000 ++ [0xFFFFF])))).queue 0).levels.length = 2 ∧
    (onQueue (pkt 5 0 [2, 65535] ++ pkt 0 0 [1])).packetRuns 5 [2, 65535] ∧ 3 + 2 ≤ ((onQueue (pkt 5 0 [2, 65535] ++ pkt 0 0 [1])).queue 0).left ∧
    onOk ((onQueue (pkt 5 0 [2, 65535] ++ pkt 0 0 [1])).qWords 0 3 2) (fun x => bodyOk 2 x.1) = true ∧
    ((ran (.pktLoop [2, 65535]) (onQueue (pkt 5 0 [2, 65535] ++ pkt 0 0 [1]))).queue 0).levels.map (fun l => (l.isLoop, l.passes)) = [(true, 65535), (false, 0)] ∧
    ((ran (.pktLoop [2, 0]) (onQueue (pkt 5 0 [2, 0] ++ pkt 0 0 [1]))).queue 0).rp = 5 := by
  unfold State.packetRuns; decide +kernel

/-- Queue 15 is written at its last word, and committed with generation 0 and START. -/
def shBody : List Word32 := [15, 252, 9]
def commitBody : List Word32 := [15, 0, 1]
def readBody : List Word32 := 15 :: lohi 0x30000

theorem meets_ControlBlockPackets :
    (onQueue (pkt 13 0 shBody)).packetRuns 13 shBody ∧ ((onQueue (pkt 13 0 shBody)).queue 0).mgmt 15 = true ∧ ((onQueue (pkt 13 0 shBody)).queue 15).pending = [] ∧
    ((onQueue (pkt 13 0 shBody)).queue 15).mode ≠ 1 ∧ ((onQueue (pkt 13 1 commitBody)).queue 0).wait = none ∧
    (inRange ((onQueue (pkt 13 2 readBody)).queue 0).active 0x30000 256).isSome = true ∧
    (onQueue (pkt 13 1 commitBody)).qcbAwaits 15 (.commit 0x100000000#64) = none ∧
    ((ran (.pktQcbCommit commitBody) ((onQueue (pkt 13 1 commitBody)).modQueue 15 fun z => z.setMode 1)).queue 15).pending = [.commit 0x100000000#64] ∧
    ((ran (.pktQcbSh shBody) (onQueue (pkt 13 0 shBody))).queue 15).shadow[31]? = some 0x900000000#64 ∧
    ((ran (.pktQcbCommit commitBody) (onQueue (pkt 13 1 commitBody))).queue 15).commit = 0x100000000#64 ∧
    ((ran (.pktQcbCommit commitBody) (ran (.pktQcbCommit commitBody) (onQueue (pkt 13 1 commitBody)))).queue 0).rp = 4 ∧
    ((ran (.pktQcbRead readBody) (onQueue (pkt 13 2 readBody))).queue 0).rp = 4 ∧
    ((ran (.pktQcbCommit commitBody) ((onQueue (pkt 13 1 commitBody)).modQueue 15 fun z => { z with rolled := true })).queue 15).status = 3 := by
  unfold State.packetRuns; decide +kernel

/-- Slot 63 from 0x50000 to 0x40000, of one page; an `invoke` of slot 63 on queue 31 of die 7 with one buffer. -/
def slotBody : List Word32 := 63 :: lohi 0x40000 ++ lohi 0x50000 ++ lohi 0x10000
def invokeBody : List Word32 := [BitVec.ofNat 32 (63 + 2 ^ 8 + 31 * 2 ^ 16 + 7 * 2 ^ 21)] ++ lohi 0x60000
def slotIn (st : SlotState) (infl : Nat) (ws : List Word32) : State :=
  (onQueue ws).modSlot 63 fun x => { x with state := st, owner := 0, infl := infl, base := 0x40000 }
def openDie7 (s : State) : State := s.modTq 7 31 fun _ => openQueue 0 false []

theorem meets_SlotPackets :
    (onQueue (pkt 6 0 slotBody)).packetRuns 6 slotBody ∧ (inRange ((onQueue (pkt 6 0 slotBody)).queue 0).active 0x50000 0x10000).isSome = true ∧
    ((onQueue (pkt 6 0 slotBody)).slot 63).state = .empty ∧
    ((ran (.pktLoadslot slotBody) (onQueue (pkt 6 0 slotBody))).slot 63).state = .loading ∧
    (onQueue (pkt 7 0 [63])).packetRuns 7 [63] ∧ (slotIn .loaded 0 (pkt 7 0 [63])).slotFree 63 = true ∧ (slotIn .loaded 1 (pkt 7 0 [63])).slotFree 63 = false ∧
    ((ran (.pktEvictslot [63]) (slotIn .loaded 1 (pkt 7 0 [63]))).slot 63).state = .evicting ∧
    ((ran (.pktEvictslot [63]) (slotIn .evicting 0 (pkt 7 0 [63]))).slot 63).state = .empty ∧
    ((ran (.pktEvictslot [63]) (slotIn .evicting 1 (pkt 7 0 [63]))).queue 0).rp = 0 ∧
    (onQueue (pkt 8 0 invokeBody)).packetRuns 8 invokeBody ∧ invokeForm invokeBody = true ∧ buffersIn invokeBody ((onQueue (pkt 8 0 invokeBody)).queue 0) = true ∧
    (onQueue (pkt 8 0 invokeBody)).dieReady 7 = true ∧ (openDie7 (slotIn .loaded 0 (pkt 8 0 invokeBody))).tqOf 7 31 = openQueue 0 false [] ∧
    (openDie7 (slotIn .loaded 0 (pkt 8 0 invokeBody))).invokeAsk 0 63 invokeBody = none ∧
    ((openDie7 (slotIn .loaded 0 (pkt 8 0 invokeBody))).hub.invocations.all fun v => v.id < 1) = true ∧
    ((slotIn .loaded 0 (pkt 8 0 invokeBody)).tqOf 7 31).enabled = false ∧ ((ran (.pktInvoke invokeBody) (slotIn .loaded 0 (pkt 8 0 invokeBody))).queue 0).rp = 0 ∧
    ((ran (.pktInvoke invokeBody) (slotIn .empty 0 (pkt 8 0 invokeBody))).queue 0).cause = 0x48 ∧
    ((ran (.pktInvoke invokeBody) (slotIn .loading 0 (pkt 8 0 invokeBody))).queue 0).cause = 0 ∧
    (ran (.pktInvoke invokeBody) (openDie7 (slotIn .loaded 0 (pkt 8 0 invokeBody)))).hub.nextInv = 2 := by
  unfold State.packetRuns; decide +kernel

/-- The same slot from 32 bytes, which is no image; and an image of one page that stands at its place. -/
def shortBody : List Word32 := 63 :: lohi 0x40000 ++ lohi 0x50000 ++ lohi 32

/-- The pages of a loaded slot are read-only, and an emptied slot's no more. -/
theorem meets_SlotPackets_pages :
    ((slotIn .evicting 0 (pkt 7 0 [63])).modSlot 63 fun x => { x with phys := [0x40000] }).slotProtects 0x4FFFF = true ∧
    (ran (.pktEvictslot [63]) ((slotIn .evicting 0 (pkt 7 0 [63])).modSlot 63 fun x => { x with phys := [0x40000] })).slotProtects 0x4FFFF = false := by
  decide +kernel

theorem meets_SlotPackets_load :
    (slotIn .loading 0 (pkt 6 0 shortBody)).packetRuns 6 shortBody ∧
    onOk ((slotIn .loading 0 (pkt 6 0 shortBody)).copyHome 0 (ba shortBody 5 / 32 + 2) 0x40000 0x50000 32) (fun t => (t.slotImage 0 0x40000 32).isNone) = true ∧
    ((ran (.pktLoadslot shortBody) (slotIn .loading 0 (pkt 6 0 shortBody))).queue 0).cause = 0x47 ∧
    ((ran (.pktLoadslot shortBody) (slotIn .loading 0 (pkt 6 0 shortBody))).slot 63).state = .empty ∧
    ((onQueue []).homeWrite .dev false 0x42000 plainKernel).slotImage 0 0x40000 0x10000 = some [0x40000] := by
  unfold State.packetRuns; decide +kernel

/-! ### Doorbells, control blocks and firmware -/

/-- A queue of the hub in a mode, with an input. -/
def queueIn (q m b : Nat) (bs : List Byte) : State := { hubReady.modQueue q (fun z => z.setMode m) with input := ⟨q, b, 0, bs⟩ }

/-- Queue 0 does not run and its shadow block is one that runs; this is committed. -/
def written (w : Nat) : State :=
  { (onQueue []).modQueue 0 (fun z => { z with shadow := z.active, active := .replicate 32 0, dirty := true }) with input := ⟨0, w, 0, []⟩ }

theorem meets_QueueEventsAct :
    (queueIn 255 1 1 []).qpReady 255 = true ∧ ((queueIn 255 1 1 []).queue 255).log2sz = 0 ∧ ((queueIn 255 0 5 []).qcbAwaits 255 (.commit 5)) = none ∧
    ((written 0x100000001).qcbAwaits 0 (.commit 0x100000001#64)) = none ∧
    ((ran .queueDoorbell (queueIn 255 1 1 [])).queue 255).wp = 1 ∧ ((ran .queueDoorbell (queueIn 255 1 2 [])).queue 255).cause = 0x40 ∧
    (State.reset.qpReady 0 = false) ∧ ((ran .queueDoorbell (given State.reset 0 5 0 [])).queue 0).held = some 5 ∧
    ((ran .qcbShadowWrite (queueIn 255 0 248 (leBytes 8 9))).queue 255).shadow[31]? = some 9 ∧ ((queueIn 255 0 248 []).queue 255).pending = [] ∧
    ((ran .qcbCommit (queueIn 255 1 5 [])).queue 255).pending = [.commit 5] ∧ ((queueIn 255 0 5 []).queue 255).mode ≠ 1 ∧
    ((ran .qcbCommit (queueIn 255 0 (2 ^ 32) [])).queue 255).status = 1 ∧ ((ran .qcbCommit (written 0x100000001)).queue 0).status = 0 ∧
    ((ran .qcbCommit (written 0x100000001)).queue 0).mode = 1 ∧ ((ran .qcbCommit (written 0x200000001)).queue 0).mode = 0 ∧
    ((ran .watchdogRollback (ran .qcbShadowWrite (queueIn 255 0 248 (leBytes 8 9)))).queue 255).rolled = true := by decide +kernel

/-- Firmware runs. -/
def fwRuns : State := State.reset.modHub fun h => { h with fw := { h.fw with running := true } }
/-- The hub is in recovery. -/
def recovering (s : State) : State := s.modHub fun h => { h with fw := { h.fw with rdy := 1 <<< 63 } }

/-- In recovery nothing of a queue acts; the first commit after a rollback has RES 3; a write that waits is rolled back. -/
theorem meets_QueueEventsAct_recovery :
    (recovering (queueIn 255 1 1 [])).recovery = true ∧ ((ran .queueDoorbell (recovering (queueIn 255 1 1 []))).queue 255).wp = 0 ∧
    ((ran .qcbCommit (recovering (written 0x100000001))).queue 0).mode = 0 ∧
    ((ran .qcbCommit ((written 0x100000001).modQueue 0 fun z => { z with rolled := true })).queue 0).status = 3 ∧
    ((ran .watchdogRollback ((queueIn 255 1 0 []).modQueue 255 fun z => { z with pending := [.write 0 [9]] })).queue 255).pending = [] ∧
    ((ran .watchdogRollback (queueIn 255 1 0 [])).queue 255).rolled = false := by decide +kernel

/-- Flash and staging are as at reset; whether an image is good is a matter of functions that the model leaves open, so that
either case of `mboxVerifyWrite` and of the boot stands for some of them. -/
theorem meets_FirmwareActs :
    (ran .hubReset (hubReady.modHub fun h => { h with hubClk := 9 })).hub.hubClk = 0 ∧
    State.reset.recovery = false ∧ (State.reset.modHub fun h => { h with fw := { h.fw with rdy := 1 <<< 63 } }).recovery = true ∧
    Cells.wf State.reset.hub.fw.buffer = true ∧ (ran .mboxSummary (given fwRuns 5 0 0 [])).hub.fw.mbox = 0x500020000 ∧
    fwRuns.hub.fw.running = true ∧ fwRuns.recovery = false ∧ State.reset.hub.fw.running = false ∧
    (ran .mboxSummary (given State.reset 5 0 0 [])).hub.fw.mbox = 0x500030000 ∧
    (ran .mboxSummary (given fwRuns 5 2 0 [])).hub.fw.mbox = 0x500030000 ∧
    Cells.get (ran .mboxStage (given State.reset 2 0 0 [7])).hub.fw.staging 0x20000 = 7 ∧
    bit (ran .functionReady (given State.reset 40 0 0 [])).hub.fw.rdy 40 = true ∧ bit (ran .functionReady (given State.reset 41 0 0 [])).hub.fw.rdy 41 = false ∧
    ((ran .queueDoorbell (given State.reset 0 1 0 [])).queue 0).held = some 1 ∧
    ((ran .functionReady (given (ran .queueDoorbell (given State.reset 0 1 0 [])) 25 0 0 [])).queue 0).wp = 1 := by decide +kernel

/-! ### Cricket -/

/-- Queue 0 runs a program with two windows on a packet of one body word, in this run. -/
def cricketRun (f : CricketRun → CricketRun) : State :=
  (onQueue (pkt 0 0 [9])).modQueue 0 fun z => { z with
    cricket := some ⟨[(0x30000, 16), (0x30010, 4096)], List.replicate 20 0⟩, run := some (f (CricketRun.start (pkt 0 0 [9]) 0)) }

theorem meets_CricketPrograms :
    (cricketRun id).cricketRuns (CricketRun.start (pkt 0 0 [9]) 0) ⟨[(0x30000, 16), (0x30010, 4096)], List.replicate 20 0⟩ ∧
    (CricketRun.start (pkt 0 0 [9]) 0).loops = [] ∧ onOk ((cricketRun id).memWord 0 (0x30010 + 4 * 1023)) (fun x => x.1 == 0) = true ∧
    onOk ((cricketRun id).qWrite 0 (0x30010 + 4 * 1023) (leBytes 4 0)) (fun _ => true) = true ∧
    ((ran (.cricketLi 7 0xFFFFF) (cricketRun id)).queue 0).run.map (·.regs[7]?) = some (some 0xFFFFFFFF#32) ∧
    ((ran (.cricketPkt 7 1) (cricketRun id)).queue 0).run.map (·.regs[7]?) = some (some 9) ∧
    ((ran (.cricketSetpkt 1 1) (cricketRun id)).queue 0).run.map (·.words[1]?) = some (some 1) ∧
    ((ran (.cricketBz 0 19) (cricketRun id)).queue 0).run.map (·.pc) = some 19 ∧ ((ran (.cricketBnz 1 19) (cricketRun id)).queue 0).run.map (·.pc) = some 19 ∧
    ((ran (.cricketLoop 2 1) (cricketRun id)).queue 0).run.map (·.loops) = some [(1, 1, 3)] ∧
    ((ran (.cricketLi 7 0) (cricketRun fun r => { r with pc := 1, loops := [(1, 1, 2)] })).queue 0).run.map (·.loops) = some [(1, 1, 1)] ∧
    ((ran (.cricketHalt 0 0) (cricketRun id)).queue 0).run.map (·.verdict) = some (some 0) ∧ ((ran (.cricketHalt 0 1) (cricketRun id)).queue 0).rp = 2 ∧
    ((ran (.cricketHalt 0 2) (cricketRun id)).queue 0).cause = 0x45 ∧ (ran (.cricketSt 1 1 1023) (cricketRun id)).byteAt .dev false 0x3100C = 1 ∧
    (ran (.cricketStr 0 1 0) (cricketRun id)).byteAt .dev false 0x30000 = 1 := by unfold State.cricketRuns; decide +kernel

theorem meets_CricketBudgetHalts :
    ((cricketRun fun r => { r with steps := 512 }).queue 0).run.map (fun r => (r.steps, r.verdict)) = some (512, none) ∧
    ((cricketRun fun r => { r with steps := 512 }).queue 0).pending = [] ∧
    ((ran .cricketBudgetExceeded (cricketRun fun r => { r with steps := 512 })).queue 0).cause = 0x46 ∧
    ((ran .cricketBudgetExceeded (cricketRun fun r => { r with steps := 511 })).queue 0).cause = 0 := by decide +kernel

/-! ### The host, the pod and the debugger -/

/-- The last byte of stack 7 at the host's offset, and a line of host memory that the L1 holds. -/
def hostByte : State := given hubReady (384 * 2 ^ 30 - 1) 1 0 [9]

theorem meets_HostAccesses :
    hubReady.mem.wf = true ∧ hostByte.stackReady 7 = true ∧ (given State.reset (384 * 2 ^ 30 - 1) 1 0 [9]).stackReady 7 = false ∧
    (384 * 2 ^ 30 - 1) % 32 + hostByte.input.bytes.length ≤ 32 ∧ (384 * 2 ^ 30 - 1) / (48 * 2 ^ 30) = 7 ∧
    (ran .hostMemRead (ran .hostMemWrite hostByte)).hub.reply = ⟨[9], false, false⟩ ∧
    (ran .hostMemRead (given State.reset (384 * 2 ^ 30 - 1) 1 0 [9])).hub.reply = ⟨[0], true, false⟩ ∧
    (ran .hostCacheInvalidate (given hubReady 0x40 0 0 [5])).byteAt .host false 0x40 = 5 := by decide +kernel

/-- An inbound table of one entry at 0x10000: this kind, one unit of 2 MiB from offset 0, for every peer, at 0x100000000. -/
def exporting (kind : Nat) : State :=
  ((hubReady.modPack fun p => { p with ualcfg := 0x10001 }).homeWrite .dev false 0x10000
    (leBytes 8 (kind + 8))).homeWrite .dev false 0x10008 (leBytes 8 (0xFFFF + 2 ^ 16 + 2 ^ 36))

/-- A notice of entry 2 of core 16 of node 1 for core 0. -/
def inboundWords : List Word32 := [7, 64 + 2 ^ 28, 0x810, 0x32000100#32, 0, 0, 0, 0]

theorem meets_InboundRequests :
    (exporting 1).inbound 3 0x1FFFFF = some (1, 0x1001FFFFF) ∧ (exporting 1).inbound 3 0x200000 = none ∧ (exporting 2).inbound 3 8 = some (2, 0x100000008) ∧
    (exporting 4).inbound 3 32 = some (4, 0x100000020) ∧ ((exporting 1).modPack fun p => { p with quarantined := [3] }).inbound 3 0 = none ∧
    (exporting 2).mem.wf = true ∧ (exporting 2).mem.dev.poisoned 32 0x100000008 8 = false ∧ amoWrites 0 0 0 = true ∧
    (ran .inboundWrite (given (exporting 2) 3 8 0 [9])).byteAt .dev false 0x100000008 = 9 ∧
    (ran .inboundAtomic (given (exporting 2) 3 8 0 (leBytes 8 5))).mem.phys8 0x100000008 = 5 ∧
    noticeOk (words32 (inboundWords.flatMap fun w => leBytes 4 w.toNat)) = true ∧ coreOk 0 = true ∧ names inboundWords (hubReady.podName 0) = true ∧
    (exporting 4).undelivered 0 < 64 ∧ (exporting 4).undelivered 7 < 64 ∧
    ((ran .inboundNotice (given (exporting 4) 3 32 0 (inboundWords.flatMap fun w => leBytes 4 w.toNat))).share.port 0).outgoing.length = 1 ∧
    (ran .inboundRead (given (exporting 2) 3 0 32 [])).hub.reply = ⟨[], false, true⟩ := by decide +kernel

/-- A request of core 0 to node 5, issued at hub-clk 0, with a timeout of one unit. -/
def askingFor (agent : Nat) (k : PodKind) (again : Bool) (now : Nat) : State :=
  ({ hubReady with hub := { hubReady.hub with hubClk := now } }.modPack fun p => { p with ualnode := 1 <<< 32 }).modShare fun h =>
    { h with pod := [⟨0, agent, 5, 64, k, [], 0, again, false, false, 0⟩] }
def asking (k : PodKind) (again : Bool) (now : Nat) : State := askingFor 0 k again now

/-- The store buffer of core 0 holds one store, that of this request. -/
def storing : State := (askingFor 10 .write false 0).modCore fun c => { c with order := { c.order with stores := [⟨.dev, 64, [9], 0, false, false⟩] } }

theorem meets_PodRepliesAndTimeouts :
    (asking .read false 0).share.pod[(asking .read false 0).input.a]?.map (fun r => r.kind == .read) = some true ∧
    (asking .write false 0).share.pod[(asking .write false 0).input.a]?.map (fun r => r.kind == .write) = some true ∧
    1024 * field (asking .read true 1024).share.pack.ualnode 32 32 = 1024 ∧
    (ran .podReplyArrival (given (asking .read false 0) 0 0 1 [7])).share.replies.map (fun r => (r.poison, r.data.headD 0)) = [(true, 7)] ∧
    (ran .podReplyArrival (asking .write false 0)).share.pod.length = 0 ∧
    (ran .podReplyArrival (askingFor 11 .read false 0)).share.replies = [] ∧
    ([6, 12, 268].map fun g => (ran .podReplyArrival (askingFor g .write false 0)).share.replies.map fun r => (r.agent, r.data)) = [[(6, [])], [(12, [])], [(268, [])]] ∧
    storing.share.pod.map (·.core) = [storing.core.id] ∧ storing.core.order.stores.length = 1 ∧ (ran .podReplyArrival storing).core.order.stores.length = 0 ∧
    (asking (.pull 1 0 256) false 1024).timedOut ⟨0, 0, 5, 64, .pull 1 0 256, [], 0, false, false, false, 0⟩ = true ∧
    (ran .peerTimeoutReissue (asking (.pull 1 0 256) false 1024)).share.pod.map (fun r => (r.issued, r.reissued, r.late)) = [(0, false, true), (1024, true, false)] ∧
    (ran .peerTimeoutReissue (asking .read false 1024)).share.pod.map (·.reissued) = [true] ∧
    (ran .peerTimeoutReissue (asking .read false 1023)).share.pod.map (·.reissued) = [false] ∧
    (ran .peerQuarantine (asking .read true 1024)).share.pack.quarantined = [5] ∧ (ran .peerQuarantine (asking .read true 1023)).share.pack.quarantined = [] ∧
    (ran .peerQuarantine (asking .read true 1024)).hub.faults.map (·.code) = [0x34] := by decide +kernel

/-- The event record of a queue has been written at its home; a request is issued again on another station. -/
theorem meets_PodRepliesAndTimeouts_more :
    (asking (.event 7) false 0).stationReady = true ∧ (ran .podReplyArrival (asking (.event 7) false 0)).hub.interrupts = [7] ∧
    (ran .podReplyArrival (asking (.event 7) false 0)).share.pod.length = 0 ∧
    (asking .read false 1024).stations.find? (· != 0) = some 1 ∧
    (ran .peerTimeoutReissue (asking .read false 1024)).share.pod.map (·.station) = [1] ∧
    (asking .read true 1024).share.pack.quarantined.contains 5 = false := by decide +kernel

/-- BAR0: the mailbox register, the ready bits, and the status of a queue's block; in recovery the first two alone. -/
theorem meets_HostAccesses_bar0 :
    (ran .hostMemRead (given (fwRuns.modHub fun h => { h with fw := { h.fw with mbox := 9 } }) 0 8 1 [])).hub.reply = ⟨leBytes 8 9, false, false⟩ ∧
    (ran .hostMemRead (given hubReady 0x200 8 1 [])).hub.reply.data = leBytes 8 (2 ^ 41 - 1) ∧
    (ran .hostMemRead (given (hubReady.modQueue 255 fun z => { z with status := 3 }) (0x100000 + 1024 * 255 + 520) 8 1 [])).hub.reply.data = leBytes 8 3 ∧
    (recovering hubReady).recovery = true ∧
    (ran .hostMemRead (given (recovering hubReady) (0x100000 + 520) 8 1 [])).hub.reply = ⟨[], false, true⟩ ∧
    (ran .hostMemRead (given hubReady 64 65 0 [])).mem.hostHeld.contains 2 = true := by decide +kernel

/-- The debugger's launch of the kernel at 0x40000. -/
def debugging (there : Bool) : State :=
  given (if there then hubReady.homeWrite .dev false 0x40000 plainKernel else hubReady) 0x40000 0 31 []

/-- The page of 1 GiB from 2 ^ 30 is the window of node 5. -/
def windowed (s : State) : State := s.homeWrite .dev false 0x1008 (leBytes 8 (0xFD + 2 ^ 49 + 5 * 2 ^ 32))
/-- The descriptor is in that window. -/
def launchingFar : State := given (windowed hubReady) (2 ^ 30 + 0x40000) 0 31 []

theorem meets_DebuggerActs_far :
    (launchingFar.launchAsk (launchingFar.rootsOf 0) (2 ^ 30 + 0x40000) (List.replicate 16 0)).map (fun r => (r.agent, r.node, r.offset)) =
      some (268, 5, 0x40000) ∧
    (ran .uzoantLaunch launchingFar).share.pod.map (fun r => (r.agent, r.node, r.offset)) = [(268, 5, 0x40000)] := by decide +kernel

/-- An addition, an event record and a summary of a queue whose ranges reach into that window. -/
def farQueue (ws : List Word32) : State :=
  (windowed (onQueue ws)).modQueue 0 fun z => { z with active := (z.active.setIfInBounds 5 (2 ^ 30 + 0x21000)).setIfInBounds 13 (2 ^ 31) }
def farMore : List Word32 := lohi (2 ^ 30 + 0x30000) ++ [7]

theorem meets_PlainPackets_far :
    (farQueue (pkt 1 1 farMore)).packetRuns 1 farMore ∧ (inRange ((farQueue []).queue 0).active (2 ^ 30 + 0x30000) 4).isSome = true ∧
    onOk ((farQueue (pkt 1 1 farMore)).hubPlace ((farQueue []).rootsOf 0) (((farQueue []).queue 0).hostAt (2 ^ 30 + 0x30000) 4) (2 ^ 30 + 0x30000) true)
      (fun p => p.2.targetOf p.1.space p.1.pa == .pod 5 0x30000 && !p.2.hubAdded (hubAgent 0) 5 0x30000) = true ∧
    (ran (.pktWriteAdd farMore) (farQueue (pkt 1 1 farMore))).share.pod.map (fun r => (r.kind, r.node, r.offset)) = [(.atomic 10, 5, 0x30000)] ∧
    ((ran (.pktWriteAdd farMore) (farQueue (pkt 1 1 farMore))).queue 0).rp = 0 ∧
    ((ran (.pktWriteAdd farMore) (ran .podReplyArrival (given (ran (.pktWriteAdd farMore) (farQueue (pkt 1 1 farMore))) 0 0 0 []))).queue 0).rp = 4 ∧
    (farQueue (pkt 11 0 (lohi 8))).packetRuns 11 (lohi 8) ∧
    ((ran (.pktEvent (lohi 8)) (farQueue (pkt 11 0 (lohi 8)))).queue 0).taken = (farQueue []).eventBytes 0 1 8 ∧
    (ran (.pktEvent (lohi 8)) (farQueue (pkt 11 0 (lohi 8)))).hub.interrupts = [] ∧
    (ran (.pktEvent (lohi 8)) (farQueue (pkt 11 0 (lohi 8)))).share.pod.length = 1 := by
  unfold State.packetRuns; decide +kernel

/-- A commit of generation 1 for a queue whose shadow names a program in that window. -/
def programFar : State := (windowed (written 0x100000001)).modQueue 0 fun z => { z with shadow := (z.shadow.setIfInBounds 6 (2 ^ 30)).setIfInBounds 13 (2 ^ 31) }

theorem meets_QueueEventsAct_far :
    (programFar.queue 0).mode ≠ 1 ∧ (programFar.queue 0).pending = [] ∧
    (programFar.qcbAwaits 0 (.commit 0x100000001#64)).map (·.node) = some 5 ∧
    ((ran .qcbCommit programFar).queue 0).pending = [.commit 0x100000001#64] := by decide +kernel

theorem meets_DebuggerActs :
    ([true, false].map fun b => (debugging b).launchAsk ((debugging b).rootsOf 0) 0x40000 (List.replicate 16 0)) = [none, none] ∧
    (debugging true).mem.wf = true ∧ (given base 0 1 (2 ^ 20) [9]).input.a = 0 ∧ (given base 1 1 64 [1]).input.bytes.headD 0 ≠ 0 ∧ base.core.mode ≠ .idle ∧
    (ran .uzoantWrite (given base 0 1 5 [9])).byteAt .cham false 5 = 9 ∧ (ran .uzoantWrite (given base 1 1 64 [1])).mem.cham.poisoned 32 64 1 = true ∧
    field (ran .uzoantWrite (given base 2 77 0 [])).core.regs.ydead 0 32 = 77 ∧ (ran .uzoantWrite (given base 3 0 0 [])).core.regs.yreq = 1 ∧
    onOk ((debugging true).launch 0 0 0x40000 0 31 ((debugging true).rootsOf 0) (List.replicate 16 0)) (fun t =>
      t.canSelect && (t.hub.launches.getLast?.map fun l => (l.leaf 0 []).gangSize l) == some 0) = true ∧
    (match (debugging false).launch 0 0 0x40000 0 31 ((debugging false).rootsOf 0) (List.replicate 16 0) with
     | .error c => c == 1
     | .ok _ => false) = true ∧
    (ran .uzoantLaunch (debugging false)).hub.faults.map (fun f => (f.code, f.arg)) = [(0x38, 1)] ∧ (ran .uzoantLaunch (debugging true)).core.mode = .running ∧
    (recovering (debugging true)).recovery = true ∧ (ran .uzoantLaunch (recovering (debugging true))).core.mode = .idle := by
  decide +kernel

/-! ### The form of memory -/

theorem meets_MemoryFormKept : State.reset.mem.wf = true ∧ mapped.mem.wf = true ∧
    (match step State.reset with
     | .next _ => true
     | _ => false) = true := by decide +kernel


/-! ### Completion -/

theorem meets_TileSlotAndEndFormsComplete :
    Sys2Proof.tileInFlight (withA [(1, 0x2FFFF), (2, 5)]) 47 = none ∧ Sys2Proof.tileInFlight base 47 = none ∧
    (slotIn .loaded 0 (pkt 7 0 [63])).packetRuns 7 [63] ∧ (slotIn .loaded 0 (pkt 7 0 [63])).slotFree 63 = true ∧
    ((slotIn .loaded 0 (pkt 7 0 [63])).queue 0).atZero = true ∧
    ((ran (.pktEvictslot [63]) (slotIn .loaded 0 (pkt 7 0 [63]))).slot 63).state = .empty ∧
    (openDie7 (slotIn .loaded 0 (pkt 8 0 invokeBody))).packetRuns 8 invokeBody ∧
    (openDie7 (slotIn .loaded 0 (pkt 8 0 invokeBody))).dieReady 7 = true ∧
    ((openDie7 (slotIn .loaded 0 (pkt 8 0 invokeBody))).hub.invocations.filter fun v => v.queue / 16 == 0).length < 256 ∧
    (halting 0x8088 0x100 1).haltReady = true ∧
    ((ran .invocationReplay (faulted 2 1)).coreAt 0).mode = .idle := by
  unfold State.packetRuns; decide +kernel

/-- Slot 63 from 0x40000 to the same place, where its image of one page stands. -/
def selfBody : List Word32 := 63 :: lohi 0x40000 ++ lohi 0x40000 ++ lohi 0x10000
def imaged : State := (slotIn .loading 0 (pkt 6 0 selfBody)).homeWrite .dev false 0x42000 plainKernel

theorem read_length (m : List Host.Cell) (n : Nat) : ∀ a, (Cells.read m a n).length = n := by
  induction n with
  | zero => intro a; rfl
  | succ n ih => intro a; simp [Cells.read, ih]

theorem put_get {lo : Option Nat} (m : List Host.Cell) (a : Nat) (h : Cells.wfFrom lo m = true) : Cells.put m a (Cells.get m a) = m := by
  induction m generalizing lo with
  | nil => simp [Cells.put, Cells.get]
  | cons c r ih =>
    obtain ⟨k, v⟩ := c
    obtain ⟨-, hv, hr⟩ := (Cells.wfFrom_cons lo k v r).mp h
    by_cases e : k = a
    · subst e; simpa [Cells.put, Cells.get] using hv
    · by_cases l : a < k
      · simp [Cells.put, Cells.get, e, l, Cells.get_below hr l.le]
      · simp [Cells.put, Cells.get, e, Ne.symm e, l, ih hr]

theorem write_read (m : List Host.Cell) (a n : Nat) (h : Cells.wf m = true) : Cells.write m a (Cells.read m a n) = m := by
  induction n generalizing a with
  | zero => rfl
  | succ n ih => rw [Cells.read, Cells.write, put_get m a h]; exact ih (a + 1)

theorem field_high (a lo n : Nat) (h : a < 2 ^ lo) : field (BitVec.ofNat 64 a) lo n = 0 := by
  simp only [field, BitVec.extractLsb'_toNat, BitVec.toNat_ofNat]
  rw [Nat.shiftRight_eq_div_pow, Nat.div_eq_of_lt (lt_of_le_of_lt (Nat.mod_le _ _) h), Nat.zero_mod]

theorem imaged_walk (a : Nat) (h : a < 2 ^ 30) : walk imaged.mem (rootOf (imaged.rootsOf (imaged.queue 0).asid).1) (BitVec.ofNat 64 a) = .leaf 0xFD#64 30 0x1000 := by
  have e0 : imaged.mem.phys8 0 = 0x1001 := by decide +kernel
  have e1 : imaged.mem.phys8 0x1000 = 0xFD := by decide +kernel
  have ep : imaged.mem.dev.poison = [] := by decide +kernel
  have er : rootOf (imaged.rootsOf (imaged.queue 0).asid).1 = 0 := by decide +kernel
  have i3 : walkIndex (BitVec.ofNat 64 a) 3 = 0 := field_high a 39 17 (lt_trans h (by decide))
  have i2 : walkIndex (BitVec.ofNat 64 a) 2 = 0 := field_high a 30 9 h
  rw [walk, er]
  have p0 : pteAddr 0x1001#64 = 0x1000 := by decide
  have p1 : pteAddr 0xFD#64 = 0 := by decide
  simp [walkFrom, i3, i2, e0, e1, p0, p1, Bank.poisoned, ep, show pteV 0x1001#64 = true by decide, show pteV 0xFD#64 = true by decide,
    show pteL 0x1001#64 = false by decide, show pteL 0xFD#64 = true by decide, show pteMalformed 0x1001#64 3 = false by decide,
    show pteMalformed 0xFD#64 2 = false by decide, pageBits,
    show stackOf 0 ≠ none by decide, show stackOf 4096 ≠ none by decide]

theorem imaged_place (a : Nat) (w : Bool) (h : a < 2 ^ 30) :
    imaged.hubPlace (imaged.rootsOf (imaged.queue 0).asid) false a w = .ok (⟨.dev, a, false⟩, imaged) := by
  have hv : vaNat (BitVec.ofNat 64 a) = a := by
    simp only [vaNat, field, BitVec.extractLsb'_toNat, BitVec.toNat_ofNat, Nat.shiftRight_zero]
    omega
  have hs : imaged.slotProtects a = false := by
    have : (imaged.hub.slots.toList.all fun x => x.phys.isEmpty) = true := by decide +kernel
    simp only [State.slotProtects, List.any_eq_false]
    intro x hx
    have := List.all_eq_true.mp this x hx
    simp_all
  have ht : imaged.target a = .stack := by
    have : (stackOf a).isSome = true := by
      simp [stackOf]
      omega
    simp [State.target, this]
  have hb : vaBad false (BitVec.ofNat 64 a) = false := by simp [vaBad, field_high a 56 8 (lt_trans h (by decide))]
  have hw : imaged.isWindow a = false := by simp [State.isWindow, ht]
  have ha : pteAddr 0xFD#64 + a % 2 ^ 30 = a := by rw [Nat.mod_eq_of_lt h]; simp [show pteAddr 0xFD#64 = 0 by decide]
  have hm : missing 0xFD#64 ⟨false, !w, w, if w then 1 else 0⟩ true false = 0 := by cases w <;> decide
  have hc : pteCmp 0xFD#64 = false := by decide
  have hA : pteA 0xFD#64 = true := by decide
  have hD : pteD 0xFD#64 = true := by decide
  have ht' : (Target.stack == Target.nothing) = false := by decide
  simp only [State.hubPlace, hb, imaged_walk a h, hv, ha, hs, hw, ht, hm, hc, hA, hD, ht', Bool.false_and, Bool.and_false, Bool.or_self,
    Bool.not_false, Bool.not_true, Bool.false_eq_true, ↓reduceIte, Nat.add_zero, ne_eq, not_true_eq_false]
  rfl

theorem imaged_write (a : Nat) : imaged.homeWrite .dev false a (Cells.read imaged.mem.dev.cells a 32) = imaged := by
  have hw : Cells.wf imaged.mem.dev.cells = true := by decide +kernel
  have hp : imaged.mem.dev.poison = [] := by decide +kernel
  have hl : imaged.mem.later = [] := by decide +kernel
  have hk : imaged.parked = [] := by decide +kernel
  have hc : imaged.share.pack.l2rc.isEmpty = true := by decide +kernel
  have hm : imaged.core.strand.ap.monitor = none ∧ imaged.core.strand.shadow.monitor = none := by decide +kernel
  have hn (n : Nat) : imaged.core.watching .dev a n = [] := by simp [Core.watching, hm.1, hm.2]
  have hcs : imaged.cores = [imaged.core] := by simp [State.cores, hk]
  have hg (n : Nat) : imaged.giveUp imaged.cores .dev a n = imaged := by simp [State.giveUp, hcs, Core.givesUp, hn]
  have hh (n : Nat) : imaged.hostGivesUp .dev a n = imaged := by
    have e : imaged.mem.hostHeld = [] := by decide +kernel
    simp only [State.hostGivesUp, Mem.backInvalidate, e, List.filter_nil]
    rw [← e]
  have hb : ((imaged.mem.bank .dev false).write (unitOf .dev) a (Cells.read imaged.mem.dev.cells a 32)) = imaged.mem.dev := by
    simp only [Mem.bank, Bank.write, write_read _ _ _ hw, hp, clearWhole, Bool.false_eq_true, ↓reduceIte, List.filter_nil]
    rw [← hp]
  have hv (ns : List Nat) : imaged.mem.noteView .dev false ns = imaged.mem := by
    simp only [Mem.noteView, hl, List.filter_nil, Bool.false_eq_true, ↓reduceIte, BEq.rfl]
    rw [← hl]
  have hs : imaged.mem.setBank .dev false imaged.mem.dev = imaged.mem := rfl
  simp only [State.homeWrite, hh, hg, hb, hs, hv, State.clearL2, hc, ↓reduceIte, State.mapCores, Core.wake, hn, hk, List.map_nil]
  rw [← hk]

theorem imaged_host (a n : Nat) (h : a + n ≤ 2 ^ 30) : (imaged.queue 0).hostAt a n = false := by
  have e : (List.range 8).map (rangeOf (imaged.queue 0).active) = (0, 2 ^ 30, false) :: List.replicate 7 (0, 0, false) := by decide +kernel
  have h' : a + n ≤ 0 + 2 ^ 30 := by omega
  simp only [HubQueue.hostAt, inRange, e, List.find?_cons, Nat.zero_le, decide_true, Bool.and_true, h']
  rfl

theorem one_sector (a : Nat) (h : a % 32 = 0) : sectorsIn a 32 = [(a, 32)] := by
  simp [sectorsIn, cutSectors, h]

/-- A piece of the image copied onto itself changes nothing. -/
theorem imaged_piece (a : Nat) (h : a % 32 = 0) (hb : a + 32 ≤ 2 ^ 30) :
    imaged.qRead 0 a 32 = .ok ((Cells.read imaged.mem.dev.cells a 32, false), imaged) ∧
    imaged.qWrite 0 a (Cells.read imaged.mem.dev.cells a 32) = .ok imaged := by
  have hp : imaged.mem.dev.poison = [] := by decide +kernel
  have hl := read_length imaged.mem.dev.cells 32 a
  have ht : imaged.targetOf .dev a = .stack := by
    have : (stackOf a).isSome = true := by simp [stackOf]; omega
    simp [State.targetOf, State.target, this]
  have hh : imaged.homeBytes .dev false a 32 = (Cells.read imaged.mem.dev.cells a 32, false) := by
    simp [State.homeBytes, Mem.bank, Bank.poisoned, hp]
  have hq : imaged.touchL2 .dev false a = imaged := by
    have e : imaged.share.pack.l2rc = [] := by decide +kernel
    simp [State.touchL2, e]
  constructor
  · simp only [State.qRead, hq, imaged_host a 32 hb, State.hubRead, one_sector a h, State.hubReadParts, imaged_place a false (by omega),
      State.hubSector, ht, hh, List.append_nil, Bool.or_false]
  · simp only [State.qWrite, hl, imaged_host a 32 hb, State.hubWrite, one_sector a h, State.hubWriteParts, imaged_place a true (by omega), ht]
    rw [List.take_of_length_le (by omega), imaged_write a]

theorem imaged_copy (f a n : Nat) (h : a % 32 = 0) (hn : n % 32 = 0) (hb : a + n ≤ 2 ^ 30) : imaged.copyHome 0 f a a n = .ok imaged := by
  induction f generalizing a n with
  | zero => rfl
  | succ f ih =>
    by_cases z : n = 0
    · simp [State.copyHome, z]
    · have m : min n (32 - a % 32) = 32 := by omega
      obtain ⟨r, w⟩ := imaged_piece a h (by omega)
      simp only [State.copyHome, if_neg z, m, r, w, Bool.not_false, if_true]
      exact ih (a + 32) (n - 32) (by omega) (by omega) (by omega)

/-- A `loadslot` that succeeds, for the statement on slots as well: the image copies and passes the checks of R345. -/
theorem meets_TileSlotAndEndFormsComplete_load :
    imaged.packetRuns 6 selfBody ∧ (imaged.queue 0).atZero = true ∧ (inRange (imaged.queue 0).active 0x40000 0x10000).isSome = true ∧
    (imaged.slot 63).state = .loading ∧ (imaged.slot 63).owner = 0 ∧
    imaged.copyHome 0 (ba selfBody 5 / 32 + 2) (ba selfBody 1) (ba selfBody 3) (ba selfBody 5) = .ok imaged ∧
    imaged.slotImage 0 (ba selfBody 1) (ba selfBody 5) = some [0x40000] := by
  refine ⟨by unfold State.packetRuns; decide +kernel, by decide +kernel, by decide +kernel, by decide +kernel, by decide +kernel,
    ?_, by decide +kernel⟩
  exact imaged_copy _ _ _ (by decide) (by decide) (by decide)

end Sys2Proof.Tests
end

section
/-!
SUPPORT. How a meaning runs on a state: what its parts answer, and the state that it goes on with.
-/
namespace Sys2Proof.Machine

/-! ### Sequencing -/

section Sequencing
variable {α β : Type} {m : M α} {f : α → M β} {s t : State}

theorem M.bind_ok {x : α} (h : m s = .ok (x, t)) : (m >>= f) s = f x t := by
  change (m s >>= fun p => f p.1 p.2) = _
  rw [h]; rfl

theorem M.bind_error {e : Stop} (h : m s = .error e) : (m >>= f) s = .error e := by
  change (m s >>= fun p => f p.1 p.2) = _
  rw [h]; rfl

@[simp] theorem M.pure_apply (x : α) : (pure x : M α) s = .ok (x, s) := rfl
@[simp] theorem M.get_bind (f : State → M β) : (get >>= f) s = f s s := rfl
@[simp] theorem M.set_bind (f : PUnit → M β) : ((set t : M PUnit) >>= f) s = f ⟨⟩ t := rfl

end Sequencing

/-! ### Stops -/

theorem blockIf_false (w : Wait) (s : State) : blockIf false w s = .ok ((), s) := rfl

theorem blockIf_true (w : Wait) (s : State) : blockIf true w s = .error (.block w) := rfl

/-! ### The end of a word -/

theorem after_ap (s t : State) (i : Instr) (f : Flow) (h : s.apRuns i) : s.after t i f = (t.podDone 6).retireAp i f := by
  simp [State.after, h.1, h.2.1]

theorem after_ep (s t : State) (i : Instr) (f : Flow) (h : s.epRuns i) : s.after t i f = (t.podDone 7).retireEp f := by
  simp [State.after, h.1, h.2.1]

theorem runAp_after (i : Instr) (m : M Flow) (s t : State) (f : Flow) (h : s.apRuns i) (hm : m s = .ok (f, t)) :
    runAp i m s = .next (s.after t i f) := by
  rw [runAp_ok i m s t f h hm, after_ap s t i f h]

theorem runEp_after (i : Instr) (m : M Flow) (s t : State) (f : Flow) (h : s.epRuns i) (hm : m s = .ok (f, t)) :
    runEp i m s = .next (s.after t i f) := by
  rw [runEp_ok i m s t f h hm, after_ep s t i f h]

end Sys2Proof.Machine
end

section
/-!
SUPPORT. The return queue and scalar conversion (R12, R64, R166 to R168).
-/
namespace Sys2Proof.Machine

/-! ### The return queue -/

theorem exec_xpush_room (s t : State) (a : BitVec 6) (w : BitVec 4) (x : Word) (h : s.epRuns (.xpush a w))
    (hr : readEp a.toNat w.toNat s = .ok (x, t)) (hq : t.strand.queues.xq.length < 32) :
    exec (.xpush a w) s = .next (s.after (t.modQueues fun y => { y with xq := y.xq ++ [x] }) (.xpush a w) .seq) := by
  refine runEp_after (.xpush a w) _ s _ .seq h ?_
  have hb : decide (t.strand.queues.xq.length ≥ 32) = false := by simpa using hq
  rw [M.bind_ok hr, M.get_bind, hb, M.bind_ok (blockIf_false _ t), M.set_bind]
  rfl

theorem exec_xpush_full (s t : State) (a : BitVec 6) (w : BitVec 4) (x : Word) (h : s.epRuns (.xpush a w))
    (hr : readEp a.toNat w.toNat s = .ok (x, t)) (hq : 32 ≤ t.strand.queues.xq.length) :
    exec (.xpush a w) s = .next (s.blockEp { cls := w.toNat, kind := 1, obj := 9 }) := by
  refine runEp_block (.xpush a w) _ s _ h ?_
  have hb : decide (t.strand.queues.xq.length ≥ 32) = true := by simpa using hq
  rw [M.bind_ok hr, M.get_bind, hb, M.bind_error (blockIf_true _ t)]

theorem exec_xpop_empty (s : State) (d : BitVec 6) (w : BitVec 4) (h : s.apRuns (.xpop d w))
    (hq : s.strand.queues.xq = []) :
    exec (.xpop d w) s = .next (s.blockAp { cls := w.toNat, kind := 0, obj := 9, tally := 1 }) := by
  refine runAp_block (.xpop d w) _ s _ h ?_
  rw [M.get_bind, hq]
  rfl

theorem exec_xpop_head (s : State) (d : BitVec 6) (w : BitVec 4) (x : Word) (rest : List Word) (h : s.apRuns (.xpop d w))
    (hq : s.strand.queues.xq = x :: rest) :
    exec (.xpop d w) s =
      .next (s.after ((s.modQueues fun y => { y with xq := rest }).awrite d.toNat x) (.xpop d w) .seq) := by
  refine runAp_after (.xpop d w) _ s _ .seq h ?_
  rw [M.get_bind, hq]
  rfl

/-! ### Scalar conversion -/

/-- The register's bits and the flags that `cvt` makes of a source: its type first, then the type of the result. -/
def convertScalar (f y : BitVec 3) (rm sr : Nat) (ftz : Bool) (x : Word) : Word × Flags :=
  (scalarTy y).place (scalarTy f).isInt rm sr ftz ((scalarTy f).value ftz x)

theorem exec_cvt (s t : State) (d a : BitVec 6) (r y f : BitVec 3) (x : Word) (h : s.epRuns (.cvt d a r y f))
    (hr : readEp a.toNat 0 s = .ok (x, t)) (c : Word × Flags) (hc : c = convertScalar f y r.toNat (t.srOf 0) t.ftz x) :
    exec (.cvt d a r y f) s =
      .next (s.after ((t.modRegs fun q => { q with aflags := q.aflags ||| c.2.setWidth 64 }).ewrite d.toNat c.1)
        (.cvt d a r y f) .seq) := by
  subst hc
  refine runEp_after (.cvt d a r y f) _ s _ .seq h ?_
  rw [M.bind_ok hr]
  rfl

/-- A pattern read as a signed integer is the signed value of its low bits. -/
theorem toSigned_eq_toInt (w x : Nat) : toSigned w x = (BitVec.ofNat w x).toInt := by
  simp only [toSigned, BitVec.toInt, BitVec.toNat_ofNat]
  split_ifs
  · omega
  · rfl
  · rfl
  · omega

theorem satInt_fst (lo hi i : Int) (h : lo ≤ hi) : (satInt lo hi i).1 = max lo (min hi i) := by
  unfold satInt
  split_ifs <;> simp only <;> omega

theorem intLo_le_intHi (w : Nat) (sg : Bool) : intLo w sg ≤ intHi w sg := by
  have h1 : 0 < 2 ^ (w - 1) := Nat.two_pow_pos _
  have h2 : 0 < 2 ^ w := Nat.two_pow_pos _
  cases sg <;> simp only [intLo, intHi, Bool.false_eq_true, if_true, if_false] <;> omega

/-- An integer as an exact value has the integer as its signed magnitude. -/
theorem signed_natAbs (i : Int) : (if decide (i < 0) = true then -(i.natAbs : Int) else i.natAbs) = i := by
  split_ifs with h <;> simp only [decide_eq_true_eq] at h <;> omega

/-- R166: between integer types the result is the source's value, saturated to the range of the result's type. -/
theorem convertScalar_int (f y : BitVec 3) (rm sr : Nat) (ftz : Bool) (x : Word) (w v : Nat) (sg sh : Bool)
    (hf : scalarTy f = .int w sg) (hy : scalarTy y = .int v sh) :
    (convertScalar f y rm sr ftz x).1 =
      BitVec.ofInt 64 (max (intLo v sh) (min (intHi v sh) (intOf w sg x.toNat))) := by
  simp only [convertScalar, hf, hy, ScalarTy.isInt, ScalarTy.value, ScalarTy.place, Val.ofInt, if_true, signed_natAbs,
    satInt_fst _ _ _ (intLo_le_intHi v sh)]

/-! The integer types that R64 names, as sources. -/

theorem intOf_s64 (x : Word) : intOf 64 true x.toNat = x.toInt := by simp [intOf, toSigned_eq_toInt]

theorem intOf_u64 (x : Word) : intOf 64 false x.toNat = x.toNat := by
  simp only [intOf, Bool.false_eq_true, if_false, Nat.mod_eq_of_lt x.isLt]

theorem intOf_s32 (x : Word) : intOf 32 true x.toNat = (x.setWidth 32).toInt := by
  rw [intOf, if_pos rfl, toSigned_eq_toInt, BitVec.ofNat_toNat]

theorem intLo_s64 : intLo 64 true = -2 ^ 63 := rfl
theorem intHi_s64 : intHi 64 true = 2 ^ 63 - 1 := rfl
theorem intHi_u64 : intHi 64 false = 2 ^ 64 - 1 := rfl

/-- No value of at most 64 bits changes when it is saturated to the signed 64-bit range. -/
theorem saturate_s64_eq_self (n : Nat) (z : BitVec n) (hn : n ≤ 64) :
    max (intLo 64 true) (min (intHi 64 true) z.toInt) = z.toInt := by
  have p : 2 ^ n ≤ 2 ^ 64 := Nat.pow_le_pow_right (by decide) hn
  have lo := BitVec.le_two_mul_toInt (x := z)
  have hi := BitVec.two_mul_toInt_lt (x := z)
  have q : (2 ^ n : Int) ≤ 2 ^ 64 := by exact_mod_cast p
  rw [intLo_s64, intHi_s64]
  omega

/-! The conversions between integer types of R64 whose values the statement gives. -/

section IntegerPairs
variable (rm sr : Nat) (ftz : Bool) (x : Word)

theorem convertScalar_s64_s64 : (convertScalar 0 0 rm sr ftz x).1 = x := by
  rw [convertScalar_int 0 0 rm sr ftz x 64 64 true true rfl rfl, intOf_s64, saturate_s64_eq_self 64 x (by decide),
    BitVec.ofInt_toInt]

theorem convertScalar_s64_u64 : (convertScalar 0 1 rm sr ftz x).1 = BitVec.ofInt 64 (max 0 x.toInt) := by
  have hi := x.toInt_lt
  have e : min (intHi 64 false) x.toInt = x.toInt := by rw [intHi_u64]; omega
  rw [convertScalar_int 0 1 rm sr ftz x 64 64 true false rfl rfl, intOf_s64, e]
  rfl

theorem convertScalar_u64_s64 :
    (convertScalar 1 0 rm sr ftz x).1 = BitVec.ofInt 64 (min (2 ^ 63 - 1) x.toNat) := by
  have e : max (intLo 64 true) (min (intHi 64 true) (x.toNat : Int)) = min (2 ^ 63 - 1) (x.toNat : Int) := by
    rw [intLo_s64, intHi_s64]; omega
  rw [convertScalar_int 1 0 rm sr ftz x 64 64 false true rfl rfl, intOf_u64, e]

theorem convertScalar_s64_s32 :
    (convertScalar 0 2 rm sr ftz x).1 = BitVec.ofInt 64 (max (-2 ^ 31) (min (2 ^ 31 - 1) x.toInt)) := by
  rw [convertScalar_int 0 2 rm sr ftz x 64 32 true true rfl rfl, intOf_s64]
  rfl

theorem convertScalar_s32_s64 : (convertScalar 2 0 rm sr ftz x).1 = (x.setWidth 32).signExtend 64 := by
  rw [convertScalar_int 2 0 rm sr ftz x 32 64 true true rfl rfl, intOf_s32,
    saturate_s64_eq_self 32 (x.setWidth 32) (by decide)]
  rfl

end IntegerPairs

/-- Settles O10: `xpush` and `xpop` by whether the return queue is full or empty, `cvt` by its value `convertScalar`, which
is the source's value saturated to the range of the result's type. -/
theorem returnQueueAndConversion : Obligations.ReturnQueueAndConversion := by
  refine ⟨fun s t a w x h hr => ⟨exec_xpush_room s t a w x h hr, exec_xpush_full s t a w x h hr⟩,
    fun s d w h => ⟨exec_xpop_empty s d w h, fun x rest => exec_xpop_head s d w x rest h⟩,
    fun s t d a r y f x h hr => ?_⟩
  refine ⟨_, _, exec_cvt s t d a r y f x h hr _ rfl, ?_, ?_, ?_, ?_, ?_⟩ <;> rintro rfl rfl
  · exact convertScalar_s64_s64 ..
  · exact convertScalar_s64_u64 ..
  · exact convertScalar_u64_s64 ..
  · exact convertScalar_s64_s32 ..
  · exact convertScalar_s32_s64 ..

end Sys2Proof.Machine
end

section
/-!
SUPPORT. The steps of an access of the AP to its Chamber: the checks of R100, a pinned range, the data, and the store.
-/
namespace Sys2Proof.Machine

/-! ### The checks of R100 -/

theorem accTrap_apply {α : Type} (code arg kind : Nat) (va : Word) (host : Bool) (s : State) :
    (accTrap code arg kind va host : M α) s =
      .error (.trap (some s) { mkTrap .p code arg with kind := kind, priv := s.privileged, va := va, host := host }) := rfl

theorem checkScratch_ok (sp : Space) (size off n kind : Nat) (s : State) (ha : off % n = 0) (hs : off + n ≤ size)
    (hr : s.refusal sp off n (kind = 1) = none) : checkScratch sp size off n kind s = .ok ((), s) := by
  unfold checkScratch
  rw [M.get_bind, if_neg (by simp [ha]), if_neg (by omega), hr]
  rfl

theorem checkScratch_misaligned (sp : Space) (size off n kind : Nat) (s : State) (ha : off % n ≠ 0) :
    checkScratch sp size off n kind s =
      .error (.trap (some s) { mkTrap .p 0x10 0 with kind := kind, priv := s.privileged }) := by
  unfold checkScratch
  rw [M.get_bind, if_pos ha, accTrap_apply]
  rfl

theorem checkScratch_outside (sp : Space) (size off n kind : Nat) (s : State) (ha : off % n = 0) (hs : size < off + n) :
    checkScratch sp size off n kind s =
      .error (.trap (some s) { mkTrap .p 0x11 0 with kind := kind, priv := s.privileged }) := by
  unfold checkScratch
  rw [M.get_bind, if_neg (by simp [ha]), if_pos hs, accTrap_apply]
  rfl

theorem holdPinned_free (off n cls : Nat) (s : State) (h : s.core.pinnedBy off n = none) :
    holdPinned .cham off n cls s = .ok ((), s) := by
  have hc : (Space.cham == Space.cham) = true := rfl
  unfold holdPinned
  rw [M.get_bind, if_pos hc, h]
  rfl

/-! ### Data and stores -/

theorem awaitData_here (m : M Flow) (s : State) (h : s.late = false ∨ s.ap.arrived = true) : awaitData m s = m s := by
  unfold awaitData
  rw [M.get_bind, if_neg]
  rcases h with h | h <;> simp [h]

theorem readAt_cham (agent a n pol rc : Nat) (s : State) (v u : Bool) (r : (List Byte × Bool) × State)
    (hr : r = s.readScratch .cham a n) : readAt agent .cham ⟨a, v, u⟩ n pol rc s = .ok (r.1, r.2) := by
  rw [hr]; rfl

/-- A read of a scratchpad may keep a copy in the read buffer, and changes nothing else. -/
theorem State.readScratch_eq_modOrder (s : State) (sp : Space) (a n : Nat) :
    ∃ f, (s.readScratch sp a n).2 = s.modOrder f := by
  unfold State.readScratch
  dsimp only
  split
  · exact ⟨id, rfl⟩
  · dsimp only
    exact ⟨_, rfl⟩

@[simp] theorem State.readScratch_strand (s : State) (sp : Space) (a n : Nat) :
    (s.readScratch sp a n).2.strand = s.strand := by
  obtain ⟨f, h⟩ := s.readScratch_eq_modOrder sp a n
  rw [h, State.modOrder_strand]

@[simp] theorem State.readScratch_ap (s : State) (sp : Space) (a n : Nat) : (s.readScratch sp a n).2.ap = s.ap :=
  congrArg Strand.ap (s.readScratch_strand sp a n)

/-- A word that no `AccPrefix` may bind runs with none (R51). -/
theorem accessOpts_of_apRuns (s : State) (i : Instr) (h : s.apRuns i) (hb : ∀ p, accessBinds p i = false) :
    s.accessOpts = AccPrefix.none := by
  obtain ⟨-, -, hl, -⟩ := (apRuns_iff s i).1 h
  simp only [apLegal, Bool.and_eq_true] at hl
  obtain ⟨hl, -⟩ := hl
  unfold State.accessOpts
  split
  · next p hp => simp [bindingOk, hp, hb] at hl
  · rfl

theorem storeAt_plain (e : StoreEntry) (s : State) (h : s.accessOpts = AccPrefix.none) :
    storeAt e s = .ok (.seq, s.modOrder fun q => { q with stores := q.stores ++ [e] }) := by
  unfold storeAt
  rw [M.get_bind, h]
  rfl

end Sys2Proof.Machine
end

section
/-!
SUPPORT. Versions of stream descriptors: how they are made, loaded, stored and read (R11, R100, R116, R120).
-/
namespace Sys2Proof.Machine

/-! ### Streams of the state -/

theorem State.modStream_strand (s : State) (k : Nat) (f : Stream → Stream) :
    (s.modStream k f).strand = { s.strand with streams := s.strand.streams.setIfInBounds k (f (s.strand.stream k)) } := rfl

theorem State.stream_modStream_same (s : State) (k : Nat) (f : Stream → Stream) (hk : k < 16) :
    (s.modStream k f).stream k = f (s.stream k) := by
  simp [State.stream, State.modStream_strand, Strand.stream, hk]

theorem State.stream_modStream_ne (s : State) (k j : Nat) (f : Stream → Stream) (h : j ≠ k) :
    (s.modStream k f).stream j = s.stream j := by
  simp [State.stream, State.modStream_strand, Strand.stream, Vector.getElem?_setIfInBounds_ne (Ne.symm h)]

@[simp] theorem State.stream_modAp (s : State) (j : Nat) (f : Ap → Ap) : (s.modAp f).stream j = s.stream j := rfl

@[simp] theorem State.stream_readScratch (s : State) (sp : Space) (a n j : Nat) :
    (s.readScratch sp a n).2.stream j = s.stream j := by simp [State.stream]

/-! ### A new version -/

/-- The version that `newVersion` makes of the AP's current one. -/
def State.freshVersion (s : State) (k : Nat) (clears : Bool) (f : Version → Version) : Version :=
  { (f (s.stream k).apVersion).setPos 0 with seq := s.ap.seq, clears := clears }

/-- The state with a version behind the others of its stream. -/
def State.withVersion (s : State) (k : Nat) (v : Version) : State :=
  (s.modStream k fun x => { x with versions := x.versions ++ [v] }).modAp fun a => { a with repWrote := a.bind == .rep }

theorem newVersion_room (k cls : Nat) (clears : Bool) (f : Version → Version) (s : State) (hr : s.ap.repWrote = false)
    (hn : (s.stream k).versions.length ≤ 8) :
    newVersion k cls clears f s = .ok ((), s.withVersion k (s.freshVersion k clears f)) := by
  have hb : decide ((s.stream k).versions.length ≥ 9) = false := by simp; omega
  unfold newVersion
  simp only [M.get_bind, hr, Bool.false_eq_true, if_false, hb]
  rw [M.bind_ok (blockIf_false _ s)]
  rfl

theorem newVersion_full (k cls : Nat) (clears : Bool) (f : Version → Version) (s : State) (hr : s.ap.repWrote = false)
    (hn : 9 ≤ (s.stream k).versions.length) :
    newVersion k cls clears f s = .error (.block { cls := cls, kind := 8, obj := k }) := by
  have hb : decide ((s.stream k).versions.length ≥ 9) = true := by simpa using hn
  unfold newVersion
  simp only [M.get_bind, hr, Bool.false_eq_true, if_false, hb]
  rw [M.bind_error (blockIf_true _ s)]

theorem State.withVersion_stream_same (s : State) (k : Nat) (v : Version) (hk : k < 16) :
    (s.withVersion k v).stream k = { s.stream k with versions := (s.stream k).versions ++ [v] } := by
  rw [State.withVersion, State.stream_modAp, State.stream_modStream_same _ _ _ hk]

theorem State.withVersion_stream_ne (s : State) (k j : Nat) (v : Version) (h : j ≠ k) :
    (s.withVersion k v).stream j = s.stream j := by
  rw [State.withVersion, State.stream_modAp, State.stream_modStream_ne _ _ _ _ h]

theorem State.withVersion_apVersion (s : State) (k : Nat) (v : Version) (hk : k < 16) :
    ((s.withVersion k v).stream k).apVersion = v := by
  simp [State.withVersion_stream_same s k v hk, Stream.apVersion]

@[simp] theorem State.withVersion_regs (s : State) (k : Nat) (v : Version) : (s.withVersion k v).regs = s.regs := rfl
@[simp] theorem State.withVersion_mem (s : State) (k : Nat) (v : Version) : (s.withVersion k v).mem = s.mem := rfl
@[simp] theorem State.withVersion_ep (s : State) (k : Nat) (v : Version) : (s.withVersion k v).ep = s.ep := rfl
@[simp] theorem State.withVersion_queues (s : State) (k : Nat) (v : Version) :
    (s.withVersion k v).strand.queues = s.strand.queues := rfl

/-! ### `sbase`, `sset` and `sget` -/

/-- The meaning of a word that makes a version of the AP's current one under class 0, and nothing else. -/
def makesVersion (k : Nat) (f : Version → Version) : M Flow := do
  newVersion k 0 false f
  return .seq

theorem makesVersion_room (k : Nat) (f : Version → Version) (s : State) (hr : s.ap.repWrote = false)
    (hn : (s.stream k).versions.length ≤ 8) :
    makesVersion k f s = .ok (.seq, s.withVersion k (s.freshVersion k false f)) := by
  rw [makesVersion, M.bind_ok (newVersion_room k 0 false f s hr hn), M.pure_apply]

theorem makesVersion_full (k : Nat) (f : Version → Version) (s : State) (hr : s.ap.repWrote = false)
    (hn : 9 ≤ (s.stream k).versions.length) :
    makesVersion k f s = .error (.block { cls := 0, kind := 8, obj := k }) := by
  rw [makesVersion, M.bind_error (newVersion_full k 0 false f s hr hn)]

theorem exec_descriptorForm (s : State) (k : BitVec 4) (a : BitVec 6) (h : BitVec 1) (x : BitVec 5) (l : BitVec 3)
    (n : BitVec 5) (m : BitVec 12) :
    ∀ f ∈ descriptorForms s k a h x l n m, exec f.1 s = runAp f.1 (makesVersion k.toNat f.2) s := by
  simp only [descriptorForms, List.mem_cons, List.not_mem_nil, or_false]
  rintro f (rfl | rfl | rfl | rfl | rfl | rfl) <;> rfl

theorem exec_sget (s : State) (d : BitVec 6) (k : BitVec 4) (n : BitVec 2) (h : s.apRuns (.sget d k n)) :
    exec (.sget d k n) s = .next (s.after
      (s.awrite d.toNat ((s.stream k.toNat).word (s.stream k.toNat).apVersion n.toNat)) (.sget d k n) .seq) :=
  runAp_after (.sget d k n) _ s _ .seq h rfl

/-- The clause of `sbase`, `sset` and `sget`: all forms that make a version run `makesVersion`. -/
theorem descriptorVersionsMade : Clauses.DescriptorVersionsMade := by
  refine ⟨fun s k a h x l n m f hf hrun hrep => ?_, ?_⟩
  · rw [exec_descriptorForm s k a h x l n m f hf]
    refine ⟨fun hlen => ?_, fun hlen => ?_⟩
    · have hs := s.withVersion_stream_same k.toNat (s.freshVersion k.toNat false f.2) k.isLt
      exact ⟨_, runAp_after f.1 _ s _ .seq hrun (makesVersion_room _ _ s hrep hlen), by rw [hs]; rfl, by rw [hs],
        fun j hj => s.withVersion_stream_ne k.toNat j _ hj, s.withVersion_regs _ _, s.withVersion_mem _ _,
        s.withVersion_ep _ _, s.withVersion_queues _ _⟩
    · exact runAp_block f.1 _ s _ hrun (makesVersion_full _ _ s hrep hlen)
  · rintro s d k v rfl p hp hrun
    rw [exec_sget s d k p.1 hrun]
    simp only [List.mem_cons, List.not_mem_nil, or_false] at hp
    obtain rfl | rfl | rfl | rfl := hp <;> rfl

/-! ### `sld` and `sst` -/

theorem setField_idem {w : Nat} (x : BitVec w) (lo n v : Nat) : setField (setField x lo n v) lo n v = setField x lo n v := by
  simp only [setField]
  generalize BitVec.ofNat w ((2 ^ n - 1) <<< lo) = m
  generalize BitVec.ofNat w (v <<< lo) = y
  ext i hi
  simp only [BitVec.getElem_or, BitVec.getElem_and, BitVec.getElem_not]
  cases m[i] <;> simp

/-- The meaning of `sld` once its address has passed the checks and its data are there. -/
def loadsVersion (k w : Nat) (a : Nat) : M Flow := do
  let r ← readAt 6 .cham ⟨a, false, false⟩ 32 0 0
  if r.2 then accTrap 0x16 0 0
  newVersion k w true fun _ => Version.ofBytes r.1
  return .seq

section LoadsVersion
variable (k w a : Nat) (s : State) (r : (List Byte × Bool) × State) (hr : r = s.readScratch .cham a 32)
  (hp : r.1.2 = false)
include hr hp

theorem loadsVersion_clean : loadsVersion k w a s =
    (newVersion k w true (fun _ => Version.ofBytes r.1.1) >>= fun _ => pure .seq : M Flow) r.2 := by
  rw [loadsVersion, M.bind_ok (readAt_cham 6 a 32 0 0 s false false r hr)]
  simp only [hp, Bool.false_eq_true, if_false]

theorem loadsVersion_room (hw : s.ap.repWrote = false) (hn : (s.stream k).versions.length ≤ 8) :
    loadsVersion k w a s =
      .ok (.seq, r.2.withVersion k (r.2.freshVersion k true fun _ => Version.ofBytes r.1.1)) := by
  rw [loadsVersion_clean k w a s r hr hp, M.bind_ok (newVersion_room k w true _ r.2 _ _), M.pure_apply]
  · simpa [hr] using hw
  · simpa [hr] using hn

theorem loadsVersion_full (hw : s.ap.repWrote = false) (hn : 9 ≤ (s.stream k).versions.length) :
    loadsVersion k w a s = .error (.block { cls := w, kind := 8, obj := k }) := by
  rw [loadsVersion_clean k w a s r hr hp, M.bind_error (newVersion_full k w true _ r.2 _ _)]
  · simpa [hr] using hw
  · simpa [hr] using hn

end LoadsVersion

/-- The meaning of `sld` at an offset of the Chamber, whose place is `a`. -/
def loadsDescriptor (k w off a : Nat) : M Flow := do
  checkScratch .cham (spaceSize .cham) off 32 0
  awaitData (loadsVersion k w a)

theorem loadsDescriptor_checked (k w off a : Nat) (s : State) (ha : off % 32 = 0) (hs : off + 32 ≤ 2 ^ 23)
    (hr : s.refusal .cham off 32 false = none) (hl : s.late = false ∨ s.ap.arrived = true) :
    loadsDescriptor k w off a s = loadsVersion k w a s := by
  rw [loadsDescriptor, M.bind_ok (checkScratch_ok .cham (spaceSize .cham) off 32 0 s ha hs hr), awaitData_here _ s hl]

theorem loadsDescriptor_misaligned (k w off a : Nat) (s : State) (ha : off % 32 ≠ 0) :
    loadsDescriptor k w off a s =
      .error (.trap (some s) { mkTrap .p 0x10 0 with kind := 0, priv := s.privileged }) := by
  rw [loadsDescriptor, M.bind_error (checkScratch_misaligned .cham (spaceSize .cham) off 32 0 s ha)]

/-- The meaning of `sst` at an offset of the Chamber, whose place is `a`. -/
def storesDescriptor (k w off a : Nat) : M Flow := do
  checkScratch .cham (spaceSize .cham) off 32 1
  holdPinned .cham off 32 w
  let x := (← get).stream k
  storeAt ⟨.cham, a, x.bytes x.apVersion, 0, false, false⟩

theorem storesDescriptor_checked (k w off a : Nat) (s : State) (ha : off % 32 = 0) (hs : off + 32 ≤ 2 ^ 23)
    (hr : s.refusal .cham off 32 true = none) (hp : s.core.pinnedBy off 32 = none) (ho : s.accessOpts = AccPrefix.none) :
    storesDescriptor k w off a s = .ok (.seq, s.modOrder fun q => { q with stores := q.stores ++
      [⟨.cham, a, (s.stream k).bytes (s.stream k).apVersion, 0, false, false⟩] }) := by
  rw [storesDescriptor, M.bind_ok (checkScratch_ok .cham (spaceSize .cham) off 32 1 s ha hs hr),
    M.bind_ok (holdPinned_free off 32 w s hp), M.get_bind, storeAt_plain _ s ho]

theorem storesDescriptor_outside (k w off a : Nat) (s : State) (ha : off % 32 = 0) (hs : 2 ^ 23 < off + 32) :
    storesDescriptor k w off a s =
      .error (.trap (some s) { mkTrap .p 0x11 0 with kind := 1, priv := s.privileged }) := by
  rw [storesDescriptor, M.bind_error (checkScratch_outside .cham (spaceSize .cham) off 32 1 s ha hs)]

theorem exec_sld (s : State) (k : BitVec 4) (a : BitVec 6) (w : BitVec 4) (n : BitVec 5) :
    exec (.sld k a w n) s = runAp (.sld k a w n)
      (loadsDescriptor k.toNat w.toNat (descAddr s a n) (chamAt s.core.id (descAddr s a n))) s := rfl

theorem exec_sst (s : State) (k : BitVec 4) (a : BitVec 6) (w : BitVec 4) (n : BitVec 5) :
    exec (.sst k a w n) s = runAp (.sst k a w n)
      (storesDescriptor k.toNat w.toNat (descAddr s a n) (chamAt s.core.id (descAddr s a n))) s := rfl

/-- Bytes are read with POS 0 already, so that the version's start at its base changes nothing. -/
theorem ofBytes_setPos (bs : List Byte) : (Version.ofBytes bs).setPos 0 = Version.ofBytes bs := by
  simp only [Version.setPos, Version.ofBytes, setField_idem]

theorem descriptorsLoadAndStore : Clauses.DescriptorsLoadAndStore := by
  rintro s k a w n off rfl
  refine ⟨?_, ?_, ?_, ?_, ?_⟩
  · intro hrun ha hs href hdata hrep hlen r hr hp
    rw [exec_sld]
    have hm := (loadsDescriptor_checked k.toNat w.toNat _ _ s ha hs href hdata).trans
      (loadsVersion_room k.toNat w.toNat _ s r hr hp hrep hlen)
    refine ⟨_, runAp_after _ _ s _ .seq hrun hm, _, State.withVersion_apVersion r.2 k.toNat _ k.isLt, ?_⟩
    rw [State.freshVersion, ofBytes_setPos]
    exact ⟨rfl, rfl, rfl, rfl, rfl, by rw [hr, State.readScratch_ap]⟩
  · intro hrun ha hs href hdata hrep hlen hp
    rw [exec_sld]
    exact runAp_block _ _ s _ hrun ((loadsDescriptor_checked k.toNat w.toNat _ _ s ha hs href hdata).trans
      (loadsVersion_full k.toNat w.toNat _ s _ rfl hp hrep hlen))
  · rintro hrun ha hs href hpin v rfl
    rw [exec_sst]
    exact runAp_after _ _ s _ .seq hrun (storesDescriptor_checked k.toNat w.toNat _ _ s ha hs href hpin
      (accessOpts_of_apRuns s _ hrun fun _ => rfl))
  · intro hrun ha
    rw [exec_sld]
    exact runAp_trap _ _ s _ _ hrun (loadsDescriptor_misaligned k.toNat w.toNat _ _ s ha)
  · intro hrun ha hs
    rw [exec_sst]
    exact runAp_trap _ _ s _ _ hrun (storesDescriptor_outside k.toNat w.toNat _ _ s ha hs)

end Sys2Proof.Machine
end

section
/-!
SUPPORT. Elements of a stream: where a plain one of the Chamber lies, and a poisoned one that arrives (R117, R119, R383).
-/
namespace Sys2Proof.Machine

/-! ### Where an element lies -/

namespace Version
variable (v : Version)

theorem maskPieces_dense (q c : Nat) (h : v.spar = 0) : v.maskPieces q c = [] := by simp [maskPieces, h]

theorem scalePieces_unscaled (q c : Nat) (h : v.blk = 0) : v.scalePieces q c = [] := by simp [scalePieces, h]

theorem storedCol_dense (mask c : Nat) (h : v.spar = 0) : v.storedCol mask c = some c := by simp [storedCol, h]

theorem packed_eq_false (h : v.fmt ≠ 13) (hb : 8 ≤ v.elemBits) : v.packed = false := by
  simp [packed, h, hb]

theorem pieces_whole (q c : Nat) (h : v.fmt ≠ 13) (hb : 8 ≤ v.elemBits) :
    v.pieces q c = [(v.addr (v.rowBase q + c * v.stride1), v.elemBytes)] := by
  simp [pieces, h, v.packed_eq_false h hb]

theorem codeOf_whole (c : Nat) (bs : List Byte) (h : v.fmt ≠ 13) (hb : 8 ≤ v.elemBits) : v.codeOf c bs = leNat bs := by
  simp [codeOf, h, v.packed_eq_false h hb]

end Version

theorem Path.readAll_nil (p : Path) (s : State) : p.readAll [] s = .ok (([], false), s) := rfl

theorem Path.readAll_one (p : Path) (a n : Nat) (r : List Byte × Bool) (s t : State) (h : p.read a n s = .ok (r, t)) :
    p.readAll [(a, n)] s = .ok (r, t) := by
  rw [Path.readAll, M.bind_ok h, M.bind_ok (p.readAll_nil t), M.pure_apply]
  simp

theorem Path.naming_ok {α : Type} (p : Path) (i : Nat) (m : M α) (x : α) (s t : State) (h : m s = .ok (x, t)) :
    p.naming i m s = .ok (x, t) := by
  rw [Path.naming, h]

/-- A whole-byte element of a stream without masks and scales, whose bytes are read clean, is the number of its bytes. -/
theorem Path.elem_plain (p : Path) (i : Nat) (bs : List Byte) (s t : State) (hq : p.desc.isQueue = false)
    (hf : p.desc.fmt ≠ 13) (hb : 8 ≤ p.desc.elemBits) (hk : p.desc.blk = 0) (hm : p.desc.spar = 0)
    (hr : p.read (p.desc.addr (p.desc.rowBase (p.desc.rowOf i) + p.desc.colOf i * p.desc.stride1)) p.desc.elemBytes s =
      .ok ((bs, false), t)) :
    p.elem i s = .ok (⟨leNat bs, elemVal p.desc.fmt p.desc.planes p.ftz (leNat bs), false⟩, t) := by
  refine p.naming_ok i _ _ s t ?_
  simp only [hq, Bool.false_eq_true, if_false, p.desc.maskPieces_dense _ _ hm, p.desc.scalePieces_unscaled _ _ hk,
    p.desc.storedCol_dense _ _ hm, p.desc.pieces_whole _ _ hf hb]
  rw [M.bind_ok (p.readAll_nil s), M.bind_ok (p.readAll_nil s), M.bind_ok (p.readAll_one _ _ _ s t hr)]
  simp only [Bool.or_self, Bool.false_eq_true, if_false, p.desc.codeOf_whole _ _ hf hb, Path.scaled, hk, if_true,
    M.pure_apply]

theorem epReadMem_cham (v : Version) (a n : Nat) (s : State) (hv : v.space = 0) (r : (List Byte × Bool) × State)
    (hr : r = s.readScratch .cham (chamAt s.core.id a) n) : epReadMem v a n s = .ok (r.1, r.2) := by
  have hm : v.memSpace = .cham := by simp [Version.memSpace, hv]
  have hn : needElement .cham s = .ok ((), s) := rfl
  rw [epReadMem, M.get_bind, hm, M.bind_ok hn]
  exact readAt_cham 7 _ n 0 0 s false false r hr

/-- With nothing read ahead the EP reads a source at memory. -/
theorem epRead_no_snaps (k : Nat) (v : Version) (a n : Nat) (s : State) (h : s.ep.snaps = []) :
    epRead k v a n s = epReadMem v a n s := by
  have hc : Snap.cut (s.ep.snapsOf s.ep.seq k) a n = none := by simp [Ep.snapsOf, h, Snap.cut]
  rw [epRead, M.get_bind, hc]

theorem Version.addr_eq (v : Version) (x : Int) : v.addr x = (x % 2 ^ 64).toNat := by
  simp [Version.addr, wrapNat]

theorem Version.rowLen_memory (v : Version) (h : v.isQueue = false) :
    v.rowLen = if v.extent = 0 then v.count else v.extent := by
  simp [Version.rowLen, h]

theorem streamElementsLieInRows : Clauses.StreamElementsLieInRows := by
  rintro s k i v a rfl hspace hf hb hk hm hsnap e rfl rfl r hr hp
  have hq : (s.stream k).epVersion.isQueue = false := by simp [Version.isQueue, hspace]
  rw [← Version.rowLen_memory _ hq, ← Version.addr_eq] at hr
  refine ⟨_, (s.epPath k).elem_plain i r.1.1 s r.2 hq hf hb hk hm ?_, rfl, rfl⟩
  have hread := epReadMem_cham (s.stream k).epVersion _ _ s hspace r hr
  rw [show r.1 = (r.1.1, false) from Prod.ext rfl hp] at hread
  exact (epRead_no_snaps k _ _ _ s hsnap).trans hread

/-! ### A poisoned element that arrives -/

/-- A trap of class e holds the EP at its word and waits behind the traps that are pending. -/
theorem State.pendTrap_epPrecise (s : State) (t : Trap) (f : Ep → Ep) (h : t.cls = .e) :
    (s.modEp f).pendTrap t =
      s.modStrand fun x => { x with pend := x.pend ++ [t], ep := { f x.ep with held := true } } := by
  simp only [State.pendTrap, h, if_true]
  rfl

/-- The running EP's word reads stream `k`, no queue, under PPOL 0, and an element of it is still to come (R119). -/
def State.awaitsElement (s : State) (k : Nat) : Prop :=
  s.core.mode = .running ∧ !s.ep.held ∧ s.ep.chain.isNone ∧ s.limit.isNone ∧ k < 16 ∧ !(s.stream k).epVersion.isQueue ∧
    (s.stream k).epVersion.ppol = 0 ∧ (s.stream k).epVersion.pos < (s.stream k).epVersion.count ∧ s.epReads k

theorem exec_streamElementArrival (s : State) : exec .streamElementArrival s = execStreamElementArrival s := rfl

theorem exec_streamElementArrival_poisoned (s : State) (keep : Option State) (t : Trap) (h : s.awaitsElement s.input.a)
    (hr : ((s.epPath s.input.a).elem (s.stream s.input.a).epVersion.pos).run s = .error (.trap keep t))
    (hc : t.code = 0x16) : exec .streamElementArrival s =
      .next ((s.modEp fun e => { e with bind := .none, block := none }).pendTrap t) := by
  rw [exec_streamElementArrival]
  refine (if_pos h).trans ?_
  rw [hr]
  exact if_pos hc

theorem exec_streamElementArrival_clean (s : State) (r : Elem × State) (h : s.awaitsElement s.input.a)
    (hr : ((s.epPath s.input.a).elem (s.stream s.input.a).epVersion.pos).run s = .ok r) :
    exec .streamElementArrival s = .next s := by
  rw [exec_streamElementArrival]
  refine (if_pos h).trans ?_
  rw [hr]

theorem poisonedElementTraps : Clauses.PoisonedElementTraps := by
  rintro s k v rfl rfl hmode hheld hchain hlimit hk hq hppol hpos hreads
  have h : s.awaitsElement s.input.a := by simp [State.awaitsElement, *]
  refine ⟨fun keep t hr hcode hcls => ⟨_, exec_streamElementArrival_poisoned s keep t h hr hcode, ?_⟩,
    fun r hr => exec_streamElementArrival_clean s r h hr⟩
  rw [State.pendTrap_epPrecise s t _ hcls]
  exact ⟨rfl, rfl, rfl, rfl, rfl, rfl, rfl⟩

/-- Settles O41, clause by clause. -/
theorem streamsAndDescriptors : Obligations.StreamsAndDescriptors :=
  ⟨descriptorVersionsMade, descriptorsLoadAndStore, streamElementsLieInRows, poisonedElementTraps⟩

end Sys2Proof.Machine
end

section
/-!
SUPPORT. Registers and predicates: the renaming of R30 in the integers, and predicates read after writes (R26, R28 to R30).
-/
namespace Sys2Proof.Machine
open Sys2Proof

/-! ### The rotation of R30 -/

/-- The renaming of R30 over the integers: code `base + i` of an allotment of `n` names `base + ((i - k) mod n)`. -/
theorem physReg_cast (base n k c : Nat) : (physReg base n k c : Int) =
    if base ≤ c ∧ c < base + n then base + (((c : Int) - base) - k) % n else c := by
  unfold physReg
  split_ifs with h
  · have hk : k % n < n := Nat.mod_lt _ (by omega)
    have e : ((c : Int) - base) + (n - (k % n : Nat)) = (((c : Int) - base) - k) + n * (1 + (k / n : Nat)) := by
      have d : (k : Int) = n * (k / n : Nat) + (k % n : Nat) := by exact_mod_cast (Nat.div_add_mod k n).symm
      rw [mul_add, mul_one]
      omega
    rw [Nat.cast_add, Int.natCast_mod, Nat.cast_add, Nat.cast_sub h.1, Nat.cast_sub hk.le, e, Int.add_mul_emod_self_left]
  · rfl

theorem apRegistersHold : Clauses.ApRegistersHold := by
  intro s c d v hs hc hlt _
  have h := fun d => s.aread_awrite c d v (by omega) (by simpa [hs] using hlt)
  exact ⟨s.aread_zero, s.awrite_zero v, by simp [h], fun hd => by simp [h, hd]⟩

theorem epRegistersHold : Clauses.EpRegistersHold := by
  intro s c d v hc _
  exact ⟨by simp [s.eread_ewrite c c v hc], fun hd => by simp [s.eread_ewrite c d v hc, hd]⟩

theorem rotationNamesRegisters : Clauses.RotationNamesRegisters :=
  fun _ _ => ⟨physReg_cast 32 _ _ _, physReg_cast 16 _ _ _⟩

/-! ### Predicates -/

@[simp] theorem State.predAp_zero (s : State) : s.predAp 0 = true := rfl
@[simp] theorem State.predEp_zero (s : State) : s.predEp 0 = true := rfl
@[simp] theorem State.predWrite_zero (s : State) (v : Bool) : s.predWrite 0 v = s := rfl

theorem State.predWrite_active (s : State) (c : Nat) (v : Bool) (hs : s.inShadow = false) (hc : c ≠ 0) :
    s.predWrite c v = s.modRegs fun r => { r with p := r.p.setIfInBounds c v } := by
  simp [State.predWrite, hs, hc]

/-- A predicate of the active strand written reads as the value written, and every other as before. -/
theorem State.predAp_predWrite (s : State) (c d : Nat) (v : Bool) (hs : s.inShadow = false) (hc : c ≠ 0) (hlt : c < 48) :
    (s.predWrite c v).predAp d = if d = c then v else s.predAp d := by
  rw [s.predWrite_active c v hs hc]
  unfold State.predAp
  simp only [State.modRegs_inShadow, hs, Bool.false_eq_true, if_false, State.modRegs_strand_regs]
  by_cases hd : d = c
  · subst hd; simp [hc, hlt]
  · simp only [hd, if_false, Vector.getElem?_setIfInBounds_ne (Ne.symm hd)]

theorem predicatesHold : Clauses.PredicatesHold := by
  intro s c d v hs
  refine ⟨s.predAp_zero, s.predEp_zero, s.predWrite_zero v, fun hc hlt => ?_⟩
  have h := fun d => s.predAp_predWrite c d v hs (by omega) hlt
  exact ⟨by simp [h], fun hd => by simp [h, hd]⟩

/-- Settles O23, clause by clause. -/
theorem registersAndPredicatesHold : Obligations.RegistersAndPredicatesHold :=
  ⟨apRegistersHold, epRegistersHold, rotationNamesRegisters, predicatesHold⟩

/-! ### After reset -/

theorem getElem?_replicate_getD {α : Type} (n i : Nat) (x : α) : (Vector.replicate n x)[i]?.getD x = x := by
  rw [Vector.getElem?_replicate]
  split_ifs <;> rfl

theorem State.reset_queue (q : Nat) : State.reset.queue q = HubQueue.reset := getElem?_replicate_getD 256 q _

theorem State.reset_engine (n : Nat) : State.reset.engine n = Engine.reset := getElem?_replicate_getD 6 n _

theorem State.reset_pin (i : Nat) : State.reset.strand.pins[i]?.getD Pin.free = Pin.free := getElem?_replicate_getD 16 i _

theorem State.reset_byteAt (sp : Space) (view : Bool) (a : Nat) : State.reset.byteAt sp view a = 0 := by
  cases sp <;> cases view <;> rfl

/-- Settles O22: every part is read off the reset values of the parts of the state. -/
theorem resetState : Obligations.ResetState := by
  refine ⟨State.reset_wf, State.reset_byteAt, rfl, rfl, fun q => ?_, rfl, rfl, by decide, rfl, fun n _ => ?_, fun i _ => ?_,
    rfl, by decide⟩
  · rw [State.reset_queue]; exact ⟨rfl, rfl⟩
  · rw [State.reset_engine]; exact ⟨rfl, rfl⟩
  · rw [State.reset_pin]; rfl

end Sys2Proof.Machine
end

section
/-!
SUPPORT. A word that decodes is the word that its instruction encodes to (R43 to R65).
-/
namespace Sys2Proof.Machine

theorem bits_append {v : Nat} (w : BitVec v) (lo m k : Nat) : bits w lo (m + k) = cat (bits w (lo + k) m) (bits w lo k) rfl := by
  apply BitVec.eq_of_getLsbD_eq
  intro i hi
  simp only [bits, cat, BitVec.cast_eq, BitVec.getLsbD_append, BitVec.getLsbD_extractLsb', hi, decide_true, Bool.true_and]
  split_ifs with hk
  · simp [hk]
  · simp [show i - k < m by omega, show lo + k + (i - k) = lo + i by omega]

theorem cat_inj {m k n : Nat} (x x' : BitVec m) (y y' : BitVec k) (h : m + k = n) :
    cat x y h = cat x' y' h ↔ x = x' ∧ y = y' := by
  subst h
  refine ⟨fun e => ⟨?_, ?_⟩, fun e => by rw [e.1, e.2]⟩
  · simpa [bits_cat_high, bits_all] using congrArg (bits · k m) e
  · simpa [bits_cat_low, bits_all] using congrArg (bits · 0 k) e

/-- A field is two fields side by side where its two parts are. -/
theorem bits_eq_cat {v m k n : Nat} (w : BitVec v) (lo : Nat) (x : BitVec m) (y : BitVec k) (h : m + k = n) :
    bits w lo n = cat x y h ↔ bits w (lo + k) m = x ∧ bits w lo k = y := by
  subst h
  rw [bits_append, cat_inj]

theorem bits_eq_of_toNat {v lo n k : Nat} {w : BitVec v} (h : (bits w lo n).toNat = k) : bits w lo n = BitVec.ofNat n k := by
  rw [← h, BitVec.ofNat_toNat, BitVec.setWidth_eq]

theorem bits_one_of_ne_zero {v lo : Nat} {w : BitVec v} (h : (bits w lo 1).toNat ≠ 0) : bits w lo 1 = 1#1 :=
  bits_eq_of_toNat (by omega)

theorem bits_two_of_ne {v lo : Nat} {w : BitVec v} (h0 : (bits w lo 2).toNat ≠ 0) (h1 : (bits w lo 2).toNat ≠ 1)
    (h2 : (bits w lo 2).toNat ≠ 2) : bits w lo 2 = 3#2 :=
  bits_eq_of_toNat (by omega)

/-- A major opcode and the fields behind it make the word. -/
theorem cat_majorOpcode {x : BitVec 7} {y : BitVec 25} {w : Word32} (hx : majorOpcode w = x.toNat) (hy : bits w 0 25 = y) :
    cat x y rfl = w := by
  have h : bits w 25 7 = x := BitVec.eq_of_toNat_eq hx
  rw [← h, ← hy]
  exact (bits_append w 0 7 25).symm.trans (bits_all w)

end Sys2Proof.Machine

namespace Sys2Proof
open Machine

/-- The words of a strand's instruction are the one word that it was read from. -/
def isWordOf (w : Word32) (i : Instr) : Prop := encode i = [w] ∧ readerOf i = .strand

theorem isWordOf_of_fields {w : Word32} {i : Instr} {x : BitVec 7} {y : BitVec 25} (he : encode i = [cat x y rfl])
    (hr : readerOf i = .strand) (hx : majorOpcode w = x.toNat) (hy : bits w 0 25 = y) : isWordOf w i :=
  ⟨by rw [he, cat_majorOpcode hx hy], hr⟩

section Decoders
variable {w : Word32} {i : Instr}

theorem isWordOf_decodeIntReg (hm : majorOpcode w = 16) (h : decodeIntReg w = .ok i) : isWordOf w i := by
  have hz := bits_append w 0 6 6
  unfold decodeIntReg at h
  split at h
  all_goals try split_ifs at h
  all_goals cases h
  all_goals
    rename (bits w 0 6).toNat = _ => hf
    exact isWordOf_of_fields rfl rfl hm (by simp only [bits_eq_cat]; simp [bits_eq_of_toNat hf, *, cat])

theorem isWordOf_decodePred (hm : majorOpcode w = 28) (h : decodePred w = .ok i) : isWordOf w i := by
  have hz := bits_append w 0 6 6
  unfold decodePred at h
  split at h
  all_goals try split_ifs at h
  all_goals cases h
  all_goals
    rename (bits w 0 6).toNat = _ => hf
    exact isWordOf_of_fields rfl rfl hm (by simp only [bits_eq_cat]; simp [bits_eq_of_toNat hf, *, cat])

theorem isWordOf_decodePrefix (hm : majorOpcode w = 31) (h : decodePrefix w = .ok i) : isWordOf w i := by
  have hz := bits_append w 6 4 14
  unfold decodePrefix at h
  split at h
  all_goals try split_ifs at h
  all_goals cases h
  all_goals
    rename (bits w 20 4).toNat = _ => hf
    exact isWordOf_of_fields rfl rfl hm (by simp only [bits_eq_cat]; simp [bits_eq_of_toNat hf, *, cat])

theorem isWordOf_decodeAmo (hm : majorOpcode w = 80) (h : decodeAmo w = .ok i) : isWordOf w i := by
  unfold decodeAmo at h
  split at h
  all_goals try split_ifs at h
  all_goals cases h
  all_goals
    rename (bits w 0 4).toNat = _ => hf
    exact isWordOf_of_fields rfl rfl hm (by simp only [bits_eq_cat]; simp [bits_eq_of_toNat hf, *])

theorem isWordOf_decodeFence (hm : majorOpcode w = 82) (h : decodeFence w = .ok i) : isWordOf w i := by
  have hz := bits_append w 0 12 6
  unfold decodeFence at h
  split at h
  all_goals try split_ifs at h
  all_goals cases h
  all_goals
    rename (bits w 0 6).toNat = _ => hf
    exact isWordOf_of_fields rfl rfl hm (by simp only [bits_eq_cat]; simp [bits_eq_of_toNat hf, *, cat])

theorem isWordOf_decodeVop (hm : majorOpcode w = 96) (h : decodeVop w = .ok i) : isWordOf w i := by
  unfold decodeVop at h
  split at h
  all_goals try split_ifs at h
  all_goals cases h
  all_goals
    rename (bits w 0 5).toNat = _ => hf
    exact isWordOf_of_fields rfl rfl hm (by simp only [bits_eq_cat]; simp [bits_eq_of_toNat hf, *])

theorem isWordOf_decodeVred (hm : majorOpcode w = 97) (h : decodeVred w = .ok i) : isWordOf w i := by
  have hz := bits_append w 0 3 5
  unfold decodeVred at h
  split at h
  all_goals try split_ifs at h
  all_goals cases h
  all_goals
    rename (bits w 0 5).toNat = _ => hf
    exact isWordOf_of_fields rfl rfl hm (by simp only [bits_eq_cat]; simp [bits_eq_of_toNat hf, *, cat])

theorem isWordOf_decodeVcvt (hm : majorOpcode w = 98) (h : decodeVcvt w = .ok i) : isWordOf w i := by
  unfold decodeVcvt at h
  split at h
  all_goals try split_ifs at h
  all_goals cases h
  all_goals
    rename (bits w 0 5).toNat = _ => hf
    exact isWordOf_of_fields rfl rfl hm (by simp only [bits_eq_cat]; simp [bits_eq_of_toNat hf, *])

theorem isWordOf_decodeVdec (hm : majorOpcode w = 99) (h : decodeVdec w = .ok i) : isWordOf w i := by
  unfold decodeVdec at h
  split at h
  all_goals try split_ifs at h
  all_goals cases h
  all_goals
    rename (bits w 0 5).toNat = _ => hf
    exact isWordOf_of_fields rfl rfl hm (by simp only [bits_eq_cat]; simp [bits_eq_of_toNat hf, *])

theorem isWordOf_decodeChain (hm : majorOpcode w = 100) (h : decodeChain w = .ok i) : isWordOf w i := by
  have hz := bits_append w 0 19 5
  unfold decodeChain at h
  split at h
  all_goals try split_ifs at h
  all_goals cases h
  all_goals
    rename (bits w 0 5).toNat = _ => hf
    exact isWordOf_of_fields rfl rfl hm (by simp only [bits_eq_cat]; simp [bits_eq_of_toNat hf, *, cat])

theorem isWordOf_decodeMat (hm : majorOpcode w = 101) (h : decodeMat w = .ok i) : isWordOf w i := by
  have hz := bits_append w 0 6 6
  have hz1 := bits_append w 0 12 6
  unfold decodeMat at h
  split at h
  all_goals try split_ifs at h
  all_goals cases h
  all_goals
    rename (bits w 0 6).toNat = _ => hf
    exact isWordOf_of_fields rfl rfl hm (by simp only [bits_eq_cat]; simp [bits_eq_of_toNat hf, *, cat])

theorem isWordOf_decodeCopy (hm : majorOpcode w = 102) (h : decodeCopy w = .ok i) : isWordOf w i := by
  unfold decodeCopy at h
  split at h
  all_goals try split_ifs at h
  all_goals cases h
  all_goals
    rename (bits w 1 5).toNat = _ => hf
    exact isWordOf_of_fields rfl rfl hm (by simp only [bits_eq_cat]; simp [bits_eq_of_toNat hf, *])

theorem isWordOf_decodeCnv (hm : majorOpcode w = 103) (h : decodeCnv w = .ok i) : isWordOf w i := by
  unfold decodeCnv at h
  split at h
  all_goals try split_ifs at h
  all_goals cases h
  all_goals
    rename (bits w 0 6).toNat = _ => hf
    exact isWordOf_of_fields rfl rfl hm (by simp only [bits_eq_cat]; simp [bits_eq_of_toNat hf, *])

theorem isWordOf_decodeWqe (hm : majorOpcode w = 105) (h : decodeWqe w = .ok i) : isWordOf w i := by
  unfold decodeWqe at h
  split at h
  all_goals try split_ifs at h
  all_goals cases h
  all_goals
    rename (bits w 0 6).toNat = _ => hf
    exact isWordOf_of_fields rfl rfl hm (by simp only [bits_eq_cat]; simp [bits_eq_of_toNat hf, *])

theorem isWordOf_decodeNotice (hm : majorOpcode w = 107) (h : decodeNotice w = .ok i) : isWordOf w i := by
  have hz := bits_append w 0 6 6
  have hz1 := bits_append w 0 18 6
  unfold decodeNotice at h
  split at h
  all_goals try split_ifs at h
  all_goals cases h
  all_goals
    rename (bits w 0 6).toNat = _ => hf
    exact isWordOf_of_fields rfl rfl hm (by simp only [bits_eq_cat]; simp [bits_eq_of_toNat hf, *, cat])

theorem isWordOf_decodeSys (hm : majorOpcode w = 115) (h : decodeSys w = .ok i) : isWordOf w i := by
  have hz := bits_append w 0 18 6
  unfold decodeSys at h
  split at h
  all_goals try split_ifs at h
  all_goals cases h
  all_goals
    rename (bits w 0 6).toNat = _ => hf
    exact isWordOf_of_fields rfl rfl hm (by simp only [bits_eq_cat]; simp [bits_eq_of_toNat hf, *, cat])

/-! Where the last sub-function is the one that is left. -/

theorem isWordOf_decodeSema (hm : majorOpcode w = 30) (h : decodeSema w = .ok i) : isWordOf w i := by
  unfold decodeSema at h
  split at h
  · next hf =>
    have hz := bits_append w 4 6 8
    have hz1 := bits_append w 4 1 7
    split_ifs at h
    cases h
    exact isWordOf_of_fields rfl rfl hm (by simp only [bits_eq_cat]; simp [bits_eq_of_toNat hf, *, cat])
  · next hf =>
    have hz := bits_append w 0 6 12
    have hz1 := bits_append w 0 1 11
    split_ifs at h
    cases h
    exact isWordOf_of_fields rfl rfl hm (by simp only [bits_eq_cat]; simp [bits_one_of_ne_zero hf, *, cat])

theorem isWordOf_decodeXfer (hm : majorOpcode w = 89) (h : decodeXfer w = .ok i) : isWordOf w i := by
  unfold decodeXfer at h
  split at h
  case' h_1 hf => replace hf := bits_eq_of_toNat hf
  case' h_2 hf => replace hf := bits_one_of_ne_zero hf
  all_goals
    split_ifs at h
    cases h
    exact isWordOf_of_fields rfl rfl hm (by simp only [bits_eq_cat]; simp [*])

theorem isWordOf_decodeNb (hm : majorOpcode w = 104) (h : decodeNb w = .ok i) : isWordOf w i := by
  have hz := bits_append w 3 2 1
  unfold decodeNb at h
  split at h
  case' h_1 hf => replace hf := bits_eq_of_toNat hf
  case' h_2 hf => replace hf := bits_one_of_ne_zero hf
  all_goals
    split_ifs at h
    cases h
    exact isWordOf_of_fields rfl rfl hm (by simp only [bits_eq_cat]; simp [*, cat])

theorem isWordOf_decodeRegion (hm : majorOpcode w = 108) (h : decodeRegion w = .ok i) : isWordOf w i := by
  have hz := bits_append w 4 6 2
  unfold decodeRegion at h
  split at h
  case' h_1 hf | h_2 hf | h_3 hf => replace hf := bits_eq_of_toNat hf
  case' h_4 h0 h1 h2 => have hf := bits_two_of_ne h0 h1 h2
  all_goals
    split_ifs at h
    cases h
    exact isWordOf_of_fields rfl rfl hm (by simp only [bits_eq_cat]; simp [*, cat])

/-- A word that decodes is the word of its instruction. -/
theorem isWordOf_of_decodeStrand (h : decodeStrand w = .ok i) : isWordOf w i := by
  unfold decodeStrand at h
  split at h
  case h_7 hm => exact isWordOf_decodeIntReg hm h
  case h_19 hm => exact isWordOf_decodePred hm h
  case h_21 hm => exact isWordOf_decodeSema hm h
  case h_22 hm => exact isWordOf_decodePrefix hm h
  case h_40 hm => exact isWordOf_decodeAmo hm h
  case h_42 hm => exact isWordOf_decodeFence hm h
  case h_49 hm => exact isWordOf_decodeXfer hm h
  case h_51 hm => exact isWordOf_decodeVop hm h
  case h_52 hm => exact isWordOf_decodeVred hm h
  case h_53 hm => exact isWordOf_decodeVcvt hm h
  case h_54 hm => exact isWordOf_decodeVdec hm h
  case h_55 hm => exact isWordOf_decodeChain hm h
  case h_56 hm => exact isWordOf_decodeMat hm h
  case h_57 hm => exact isWordOf_decodeCopy hm h
  case h_58 hm => exact isWordOf_decodeCnv hm h
  case h_59 hm => exact isWordOf_decodeNb hm h
  case h_60 hm => exact isWordOf_decodeWqe hm h
  case h_62 hm => exact isWordOf_decodeNotice hm h
  case h_63 hm => exact isWordOf_decodeRegion hm h
  case h_68 hm => exact isWordOf_decodeSys hm h
  all_goals try split_ifs at h
  all_goals cases h
  all_goals
    rename majorOpcode w = _ => hm
    exact isWordOf_of_fields rfl rfl hm (by simp only [bits_eq_cat]; simp [*])

end Decoders
end Sys2Proof
end

section
/-!
SUPPORT. A step of the AP: the word that it fetches, and the trap of a word that it may not run (R15, R17, R66, R78).
-/
namespace Sys2Proof.Machine
open Sys2Proof

/-! ### Words that the AP may not run -/

theorem runShared_illegal (i : Instr) (m : M Flow) (s : State) (hn : s.onEngine = none) (he : onEp i = false)
    (hl : apLegal s i = false) : runShared i m s = .next (s.takeTrap (mkTrap .p 1 (s.illegalWord i))) := by
  rw [← runAp_illegal i m s hl]
  simp [runShared, hn, he]

theorem repAp_illegal (i : Instr) (c : Nat) (s : State) (hl : apLegal s i = false) :
    s.repAp i c = s.takeTrap (mkTrap .p 1 (s.illegalWord i)) := by
  simp [State.repAp, hl]

theorem exec_repN_illegal (e : BitVec 1) (n : BitVec 20) (s : State) (hn : s.onEngine = none) (he : onEp (.repN e n) = false)
    (hl : apLegal s (.repN e n) = false) :
    exec (.repN e n) s = .next (s.takeTrap (mkTrap .p 1 (s.illegalWord (.repN e n)))) := by
  have he : (e == 1#1) = false := he
  simp only [beq_eq_false_iff_ne] at he
  show execRepN e n s = _
  simp [execRepN, hn, he, repAp_illegal _ _ s hl]

theorem exec_repReg_illegal (e : BitVec 1) (c : BitVec 6) (s : State) (hn : s.onEngine = none)
    (he : onEp (.repReg e c) = false) (hl : apLegal s (.repReg e c) = false) :
    exec (.repReg e c) s = .next (s.takeTrap (mkTrap .p 1 (s.illegalWord (.repReg e c)))) := by
  have he : (e == 1#1) = false := he
  simp only [beq_eq_false_iff_ne] at he
  show execRepReg e c s = _
  simp [execRepReg, hn, he, repAp_illegal _ _ s hl]

theorem exec_ldp_illegal (e : BitVec 1) (d : BitVec 6) (o : BitVec 18) (s : State) (he : onEp (.ldp e d o) = false)
    (hl : apLegal s (.ldp e d o) = false) :
    exec (.ldp e d o) s = .next (s.takeTrap (mkTrap .p 1 (s.illegalWord (.ldp e d o)))) := by
  have he : (e == 1#1) = false := he
  simp only [beq_eq_false_iff_ne] at he
  show execLdp e d o s = _
  rw [execLdp, if_neg he, runAp_illegal _ _ s hl]

theorem exec_csrw_illegal (a : BitVec 6) (n : BitVec 12) (s : State) (hl : apLegal s (.csrw a n) = false) :
    exec (.csrw a n) s = .next (s.takeTrap (mkTrap .p 1 (s.illegalWord (.csrw a n)))) := by
  show execCsrw a n s = _
  by_cases hn : n = 0x1D1#12
  · rw [execCsrw, if_pos hn, if_neg (by simp [hl])]
  · rw [execCsrw, if_neg hn, runAp_illegal _ _ s hl]

theorem exec_trap_illegal (n : BitVec 12) (s : State) (hl : apLegal s (.trap n) = false) :
    exec (.trap n) s = .next (s.takeTrap (mkTrap .p 1 (s.illegalWord (.trap n)))) := by
  show execTrap n s = _
  rw [execTrap, runAp_illegal _ _ s hl]

/-- A word of the AP that is not legal there traps, whatever its meaning. -/
theorem exec_illegal (i : Instr) (s : State) (hr : readerOf i = .strand) (hn : s.onEngine = none) (he : onEp i = false)
    (hl : apLegal s i = false) : exec i s = .next (s.takeTrap (mkTrap .p 1 (s.illegalWord i))) := by
  cases i
  case repN e n => exact exec_repN_illegal e n s hn he hl
  case repReg e c => exact exec_repReg_illegal e c s hn he hl
  case accessPrefix => exact if_neg (by simp [hl])
  case bt | bf | call | jr | lbeg | lend | add | sub | and | or | xor | andn | shl | shr | sra | min | max | minu | maxu | mul
      | mulh | mulhu | adds | subs | addus | subus | sextb | sexth | sextw | clz | popc | addi | andi | ori | xori | shli
      | shri | srai | mini | maxi | cmp | cmpi | pand | por | pxor | pandn | pnot | sgwait | sgraise | hint =>
    exact runShared_illegal _ _ s hn he hl
  case ldc | stc | ldcx | stcx | ldg | stg | ldo | sto | ldd | lddQ | std | ldh | ldhQ | sth | amoAdd | amoAnd | amoOr
      | amoXor | amoSmax | amoSmin | amoUmax | amoUmin | amoSwap | amoCas | waita | facq | frel | facqrel | cinv
      | dcfence | sbaseD | sbase | sld | sst | sset | sget | xpop | mmz | mma | mdr | mxz | mxa | mld | seg | mxzHd16
      | mxaHd16 | tget | tput | tkill | mxzHd32 | mxaHd32 | copy | cnv | cnvH16 | cnvH32 | nbmv | nbmva | wqe | rapp
      | publ | pull | decl | ljoin | linc | lst | lld | lldt | csrr | pfence | halt | tfence | yield
      | yieldp =>
    exact runAp_illegal _ _ s hl
  case ldp e d o => exact exec_ldp_illegal e d o s he hl
  case csrw a n => exact exec_csrw_illegal a n s hl
  case trap n => exact exec_trap_illegal n s hl
  all_goals exact nomatch hr, he

theorem illegalWordTraps : Clauses.IllegalWordTraps := by
  intro s w i hd hn he hl
  obtain ⟨hw, hr⟩ := isWordOf_of_decodeStrand hd
  rw [exec_illegal i s hr hn he hl, State.illegalWord, illegalArg, hw]
  rfl

/-! ### What a translation leaves of the AP -/

/-- `t` is a state in which the AP stands as in `s`, but for its monitor, which a write to its sector wakes (R115). -/
def State.apKept (s t : State) : Prop := t.ap = { s.ap with monitor := t.ap.monitor }

theorem State.apKept_of_eq {s t : State} (h : t.ap = s.ap) : s.apKept t := by rw [State.apKept, h]

theorem State.apKept_trans {s t u : State} (h : s.apKept t) (k : t.apKept u) : s.apKept u := by
  unfold State.apKept at *
  rw [k, h]

theorem State.apKept_bind {s t : State} (h : s.apKept t) : t.ap.bind = s.ap.bind := by rw [h]

theorem State.apKept_chainPc {s t : State} (h : s.apKept t) : t.ap.chainPc = s.ap.chainPc := by rw [h]

@[simp] theorem State.clearL2_core (s : State) (sp : Space) (view : Bool) (a n : Nat) : (s.clearL2 sp view a n).core = s.core := by
  unfold State.clearL2; split_ifs <;> rfl

@[simp] theorem State.touchL2_core (s : State) (sp : Space) (view : Bool) (a : Nat) : (s.touchL2 sp view a).core = s.core := by
  unfold State.touchL2; split_ifs <;> rfl

theorem State.homeWrite_core (s : State) (sp : Space) (view : Bool) (a : Nat) (bs : List Byte) :
    (s.homeWrite sp view a bs).core = s.core.wake sp a bs.length := by
  simp [State.homeWrite, State.mapCores, State.giveUp, State.hostGivesUp]

theorem State.apKept_homeWrite (s : State) (sp : Space) (view : Bool) (a : Nat) (bs : List Byte) :
    s.apKept (s.homeWrite sp view a bs) := by
  simp only [State.apKept, State.ap, State.homeWrite_core, Core.wake]
  split <;> rfl

theorem State.touchWalk_core (s : State) (root : Nat) (va : Word) : (s.touchWalk root va).core = s.core := by
  have foldl_core : ∀ (l : List Nat) (t : State), (l.foldl (fun u a => u.touchL2 .dev false a) t).core = t.core := by
    intro l
    induction l with
    | nil => exact fun _ => rfl
    | cons a l ih => exact fun t => (ih _).trans (t.touchL2_core _ _ a)
  unfold State.touchWalk
  split_ifs
  · rfl
  · exact foldl_core _ _

theorem State.apKept_useLeaf {s t : State} {l : TlbLeaf} {w : Bool} {va : Word} {n : Need} {priv : Bool} {p : Phys}
    (h : s.useLeaf l w va n priv = .ok (p, t)) : s.apKept t := by
  unfold State.useLeaf at h
  extract_lets pa arg unmapped set at h
  split at h
  · cases h
  · cases h
    split_ifs
    · exact State.apKept_of_eq rfl
    · exact State.apKept_of_eq rfl
    · exact s.apKept_homeWrite ..

theorem State.apKept_touchWalk (s : State) (root : Nat) (va : Word) : s.apKept (s.touchWalk root va) :=
  State.apKept_of_eq (by rw [State.ap, State.touchWalk_core]; rfl)

/-- A translation that succeeds uses a leaf, held in the TLB or found by a walk, which counts its reads. -/
theorem State.translate_ok {s t : State} {va : Word} {n : Need} {priv : Bool} {p : Phys}
    (h : s.translate va n priv = .ok (p, t)) :
    ∃ l w u, (u = s ∨ u = s.touchWalk (s.rootFor n.host) va) ∧ u.useLeaf l w va n priv = .ok (p, t) := by
  rw [State.translate, State.translateBy] at h
  generalize walk s.mem (s.rootFor n.host) va = x at h
  rcases ite_eq_iff.1 h with ⟨-, h⟩ | ⟨-, h⟩
  · cases h
  · generalize (Option.orElse none fun _ => s.tlbFind n.host (vaNat va)) = y at h
    cases y with
    | some l => exact ⟨l, _, s, .inl rfl, h⟩
    | none =>
      cases x with
      | leaf e k a => exact ⟨_, _, _, .inr rfl, h⟩
      | bad | poisoned | unmapped => cases h

theorem State.apKept_translate {s t : State} {va : Word} {n : Need} {priv : Bool} {p : Phys}
    (h : s.translate va n priv = .ok (p, t)) : s.apKept t := by
  obtain ⟨l, w, u, rfl | rfl, hu⟩ := State.translate_ok h
  · exact State.apKept_useLeaf hu
  · exact State.apKept_trans (s.apKept_touchWalk _ _) (State.apKept_useLeaf hu)

/-! ### The turn of the AP -/

theorem step_of_pick_run {s t : State} {i : Instr} (h : s.pick = .run i t) :
    step s = match exec i t with
      | .next u => .next u.settled
      | r => r := by
  rw [step_run s t i h]
  rfl

theorem stepRunsFetchedInstruction : Clauses.StepRunsFetchedInstruction := fun _ _ _ h => step_of_pick_run h

theorem State.focus_self (s : State) : s.focus s.core.id = s := if_pos rfl

/-- At a place of its image that its leaf lets it fetch, and that the launch could read, the free AP runs the word there. -/
theorem pick_ap_free {s t : State} {w : Word32} {p : Phys} {c : List Turn} (hag : s.agenda = ⟨s.core.id, .ap⟩ :: c)
    (hmode : s.core.mode = .running) (hgated : s.core.gated = false) (hhalted : s.core.halted = false)
    (hfrozen : s.core.frozen = false) (hholds : s.apHolds = false) (htrap : s.canDeliverTrap = false)
    (hending : s.ap.ending = none) (hissued : s.ap.issued = false) (hword : s.strand.image.word s.wordPc = some w)
    (hread : s.strand.image.badAt s.wordPc 4 = false)
    (htr : ({ s with agenda := c } : State).translate (s.wordPc.setWidth 64) ⟨false, true, false, 2⟩ s.strand.info.priv =
      .ok (p, t)) : s.pick = t.apWord w := by
  have hnext : s.nextTurn = (⟨s.core.id, .ap⟩, { s with agenda := c }) := by rw [State.nextTurn, hag]
  rw [State.pick, hnext]
  show ((({ s with agenda := c } : State).focus s.core.id).apTodo) = _
  rw [show ({ s with agenda := c } : State).focus s.core.id = { s with agenda := c } from State.focus_self _]
  set u : State := { s with agenda := c } with hu
  have hactive : u.apTodo = u.activeTodo := by
    rw [State.apTodo, show u.core.gated = false from hgated, show u.core.halted = false from hhalted,
      show u.core.mode = .running from hmode]
    rfl
  have hfetched : u.activeTodo = u.fetched w := by
    rw [State.activeTodo, show u.core.frozen = false from hfrozen, show u.apHolds = false from hholds,
      show u.canDeliverTrap = false from htrap, show u.ap.ending = none from hending, show u.ap.issued = false from hissued,
      show u.strand.image.word u.wordPc = some w from hword]
    rfl
  rw [hactive, hfetched, State.fetched]
  rw [show u.translate (u.wordPc.setWidth 64) fetchNeed u.strand.info.priv = .ok (p, t) from htr]
  exact if_neg (by rw [show u.strand.image.badAt u.wordPc 4 = false from hread]; simp)

theorem apStepRunsWord : Clauses.ApStepRunsWord := by
  intro s t w p c hag hmode hgated hhalted hfrozen hholds htrap hending hissued hchain hword hread htr
  have hpick := pick_ap_free hag hmode hgated hhalted hfrozen hholds htrap hending hissued hword hread htr
  have hkept := State.apKept_translate htr
  refine ⟨fun i hd he => step_of_pick_run ?_, fun e hd => step_of_pick_run ?_⟩
  · rw [hpick, State.apWord, hd, State.apKept_chainPc hkept, show ({ s with agenda := c } : State).ap.chainPc = none from hchain]
    exact if_pos (by simp [he])
  · rw [hpick, State.apWord, hd, State.apKept_bind hkept]
    change (match s.ap.bind with
      | .access p => Todo.run (.illegalInstruction (BitVec.ofNat 32 p.word)) t
      | _ => Todo.run (.illegalInstruction w) t) = _
    cases s.ap.bind <;> rfl

/-- Settles O3, clause by clause. -/
theorem stepRunsInstruction : Obligations.StepRunsInstruction :=
  ⟨stepRunsFetchedInstruction, apStepRunsWord, illegalWordTraps⟩

end Sys2Proof.Machine
end

section
/-!
SUPPORT. Fields of words: a field read after a field written (R3).
-/
namespace Sys2Proof.Machine

theorem getLsbD_setField {w : Nat} (x : BitVec w) (lo n v i : Nat) (hi : i < w) :
    (setField x lo n v).getLsbD i = if lo ≤ i ∧ i < lo + n then v.testBit (i - lo) else x.getLsbD i := by
  simp only [setField, BitVec.getLsbD_or, BitVec.getLsbD_and, BitVec.getLsbD_not, BitVec.getLsbD_ofNat, hi, decide_true,
    Bool.true_and, Nat.testBit_shiftLeft, Nat.testBit_two_pow_sub_one]
  by_cases h1 : lo ≤ i
  · simp only [h1, decide_true, Bool.true_and, true_and, show i - lo < n ↔ i < lo + n by omega]
    by_cases h2 : i < lo + n <;> simp [h2]
  · simp [h1]

theorem bits_setField_same {w : Nat} (x : BitVec w) (lo n v : Nat) (h : lo + n ≤ w) :
    bits (setField x lo n v) lo n = BitVec.ofNat n v := by
  apply BitVec.eq_of_getLsbD_eq
  intro i hi
  simp only [bits, BitVec.getLsbD_extractLsb', BitVec.getLsbD_ofNat, hi, getLsbD_setField x lo n v (lo + i) (by omega)]
  simp [hi]

theorem bits_setField_disjoint {w : Nat} (x : BitVec w) (lo n v lo' n' : Nat) (hw : lo' + n' ≤ w)
    (h : lo' + n' ≤ lo ∨ lo + n ≤ lo') : bits (setField x lo n v) lo' n' = bits x lo' n' := by
  apply BitVec.eq_of_getLsbD_eq
  intro i hi
  simp only [bits, BitVec.getLsbD_extractLsb', hi, decide_true, Bool.true_and]
  rw [getLsbD_setField x lo n v (lo' + i) (by omega), if_neg (by omega)]

theorem field_eq_toNat_bits {w : Nat} (x : BitVec w) (lo n : Nat) : field x lo n = (bits x lo n).toNat := rfl

theorem field_lt {w : Nat} (x : BitVec w) (lo n : Nat) : field x lo n < 2 ^ n := (bits x lo n).isLt

theorem field_setField_same {w : Nat} (x : BitVec w) (lo n v : Nat) (h : lo + n ≤ w) :
    field (setField x lo n v) lo n = v % 2 ^ n := by
  rw [field_eq_toNat_bits, bits_setField_same x lo n v h, BitVec.toNat_ofNat]

theorem field_setField_disjoint {w : Nat} (x : BitVec w) (lo n v lo' n' : Nat) (hw : lo' + n' ≤ w)
    (h : lo' + n' ≤ lo ∨ lo + n ≤ lo') : field (setField x lo n v) lo' n' = field x lo' n' := by
  rw [field_eq_toNat_bits, bits_setField_disjoint x lo n v lo' n' hw h]
  rfl

theorem bit_setField_disjoint {w : Nat} (x : BitVec w) (lo n v i : Nat) (hw : i < w) (h : i < lo ∨ lo + n ≤ i) :
    bit (setField x lo n v) i = bit x i := by
  rw [bit, getLsbD_setField x lo n v i hw, if_neg (by omega)]
  rfl

end Sys2Proof.Machine
end

section
/-!
SUPPORT. The end of a word: what stands and what moves on the AP, at a transfer, on the EP and under `rep`
(R15, R18, R28, R30, R83 to R85).
-/
namespace Sys2Proof.Machine
open Sys2Proof

/-! ### Entries of `bq` -/

/-- The bits of a path entry: TAKEN, ROT and TARGET. -/
theorem getLsbD_pathEntry (taken rot : Bool) (t : BitVec 56) (i : Nat) :
    (pathEntry taken rot t).getLsbD i = (taken && decide (61 = i) || rot && decide (60 = i) || t.getLsbD i) := by
  have h61 : 0x2000000000000000#64 = BitVec.twoPow 64 61 := rfl
  have h60 : 0x1000000000000000#64 = BitVec.twoPow 64 60 := rfl
  have ht : (decide (i < 64) && t.getLsbD i) = t.getLsbD i := by
    by_cases hi : i < 56
    · simp [show i < 64 by omega]
    · simp [t.getLsbD_of_ge i (by omega)]
  simp only [pathEntry, h61, h60, BitVec.getLsbD_or, BitVec.getLsbD_setWidth, ht]
  cases taken <;> cases rot <;> simp [BitVec.getLsbD_twoPow]

theorem field_pathEntry_high (taken rot : Bool) (t : BitVec 56) : field (pathEntry taken rot t) 62 2 = 0 := by
  have h : bits (pathEntry taken rot t) 62 2 = 0 := by
    apply BitVec.eq_of_getLsbD_eq
    intro i hi
    simp [bits, getLsbD_pathEntry, show 61 ≠ 62 + i by omega, show 60 ≠ 62 + i by omega, t.getLsbD_of_ge (62 + i) (by omega)]
  rw [field_eq_toNat_bits, h]
  rfl

theorem bit_pathEntry_taken (taken rot : Bool) (t : BitVec 56) : bit (pathEntry taken rot t) 61 = taken := by
  rw [bit, getLsbD_pathEntry, t.getLsbD_of_ge 61 (by decide)]
  simp

theorem bit_pathEntry_rot (taken rot : Bool) (t : BitVec 56) : bit (pathEntry taken rot t) 60 = rot := by
  rw [bit, getLsbD_pathEntry, t.getLsbD_of_ge 60 (by decide)]
  simp

theorem bits_pathEntry_target (taken rot : Bool) (t : BitVec 56) : bits (pathEntry taken rot t) 0 56 = t := by
  apply BitVec.eq_of_getLsbD_eq
  intro i hi
  simp [bits, getLsbD_pathEntry, hi, show 61 ≠ i by omega, show 60 ≠ i by omega]

/-! ### On the AP -/

theorem State.pushPred_eq (s : State) (i : Instr) : s.pushPred i = s.modQueues fun z =>
    { z with bq := z.bq ++ (match apPredDest i with
      | some d => [predEntry (s.predAp d) d]
      | none => []) } := by
  unfold State.pushPred
  cases apPredDest i with
  | some d => rfl
  | none => simp only [List.append_nil]; rfl

theorem apRetires : Clauses.ApRetires := by
  intro s i hs hb
  rw [retireAp_seq s i hs hb, State.pushPred_eq]
  exact ⟨rfl, rfl, rfl, rfl, rfl, rfl, rfl, rfl, rfl, rfl, rfl, rfl, rfl, rfl, rfl, rfl, rfl, rfl, rfl⟩

theorem transfersPushPathEntries : Clauses.TransfersPushPathEntries := by
  intro s i p rot hs hb
  rw [retireAp_goto s i p rot hs, hb]
  exact ⟨rfl, rfl, rfl, rfl, rfl, _, rfl, field_pathEntry_high .., bit_pathEntry_taken .., bit_pathEntry_rot ..,
    bits_pathEntry_target ..⟩

/-! ### On the EP -/

/-- With no write of the AP's to its place left, the EP's passing of a word leaves the registers. -/
theorem State.epPass_regs (s : State) (h : s.ep.writes = []) : s.epPass.regs = s.regs := by
  have h : s.core.strand.ep.writes = [] := h
  simp only [State.epPass, State.modStrand, State.modCore, State.regs, h, List.filter_nil, List.foldl_nil]

theorem epRetires : Clauses.EpRetires := by
  intro s hb hw
  rw [retireEp_seq s hb]
  exact ⟨rfl, rfl, rfl, s.epPass_regs hw, rfl, rfl, rfl, rfl, rfl, rfl, rfl, rfl⟩

/-! ### Under `rep` -/

theorem Regs.apRepDone_rc_low (r : Regs) (h : 1 ≤ field r.rc 0 32) : field r.apRepDone.rc 0 32 = field r.rc 0 32 - 1 := by
  have := field_lt r.rc 0 32
  rw [Regs.apRepDone, field_setField_same _ _ _ _ (by omega), Nat.mod_eq_of_lt (by omega)]

theorem Regs.epRepDone_rc_high (r : Regs) (h : 1 ≤ field r.rc 32 32) :
    field r.epRepDone.rc 32 32 = field r.rc 32 32 - 1 := by
  have := field_lt r.rc 32 32
  rw [Regs.epRepDone, field_setField_same _ _ _ _ (by omega), Nat.mod_eq_of_lt (by omega)]

/-- What one repetition leaves of the AP's strand: the count and the step are taken before the word goes on. -/
theorem retireAp_rep (s : State) (i : Instr) (hs : s.inShadow = false) (hb : s.ap.bind = .rep) (hi : apPredDest i = none) :
    (s.retireAp i .seq).regs = s.regs.apRepDone.stepKap ∧ (s.retireAp i .seq).mem = s.mem ∧
    (s.retireAp i .seq).ap.pc = if field s.regs.apRepDone.rc 0 32 = 0 then s.ap.pc + 8 else s.ap.pc := by
  have hr : (s.modRegs fun r => r.apRepDone.stepKap).regs.rc = s.regs.apRepDone.rc := rfl
  have hp : ∀ t : State, t.pushPred i = t := fun t => by rw [State.pushPred, hi]
  simp only [State.retireAp, hs, Bool.false_eq_true, if_false, State.retireActive, hb, if_true, hr, hp]
  split_ifs <;> exact ⟨rfl, rfl, rfl⟩

theorem retireEp_rep (s : State) (hb : s.ep.bind = .rep) (hw : s.ep.writes = []) :
    (s.retireEp .seq).regs = s.regs.epRepDone.stepKep ∧ (s.retireEp .seq).mem = s.mem ∧
    (s.retireEp .seq).ep.pc = if field s.regs.epRepDone.rc 32 32 = 0 then s.ep.pc + 8 else s.ep.pc := by
  have hr : (s.modRegs fun r => r.epRepDone.stepKep).regs.rc = s.regs.epRepDone.rc := rfl
  have hg := (s.modRegs fun r => r.epRepDone.stepKep).epPass_regs hw
  simp only [State.retireEp, hb, if_true, hr]
  split_ifs
  · exact ⟨hg, rfl, rfl⟩
  · exact ⟨rfl, rfl, rfl⟩

theorem repeatCounts : Clauses.RepeatCounts := by
  refine ⟨fun s i hs hb hi hc => ?_, fun s hb hw hc => ?_⟩
  · obtain ⟨hregs, hmem, hpc⟩ := retireAp_rep s i hs hb hi
    refine ⟨?_, ?_, ?_, ?_, ?_, hmem, ?_⟩
    · rw [hregs]; exact s.regs.apRepDone_rc_low hc
    · rw [hregs]; exact field_setField_disjoint _ _ _ _ _ _ (by omega) (by omega)
    · rw [hregs]; exact field_setField_same _ _ _ _ (by omega)
    · rw [hregs]; exact field_setField_disjoint _ _ _ _ _ _ (by omega) (by omega)
    · rw [hregs]; rfl
    · rw [hpc, hregs]; rfl
  · obtain ⟨hregs, hmem, hpc⟩ := retireEp_rep s hb hw
    refine ⟨?_, ?_, ?_, ?_, ?_, hmem, ?_⟩
    · rw [hregs]; exact s.regs.epRepDone_rc_high hc
    · rw [hregs]; exact field_setField_disjoint _ _ _ _ _ _ (by omega) (by omega)
    · rw [hregs]; exact field_setField_same _ _ _ _ (by omega)
    · rw [hregs]; exact field_setField_disjoint _ _ _ _ _ _ (by omega) (by omega)
    · rw [hregs]; rfl
    · rw [hpc, hregs]; rfl

/-- Settles O24, clause by clause. -/
theorem wordsRetire : Obligations.WordsRetire := ⟨apRetires, transfersPushPathEntries, epRetires, repeatCounts⟩

end Sys2Proof.Machine
end

section
/-!
SUPPORT. Integer arithmetic: the results of R71 and the run of its forms on every agent (R22, R54, R55, R71, R98).
-/
namespace Sys2Proof.Machine
open Sys2Proof

/-! ### Results -/

namespace Alu

theorem amount_eq (y : Word) : amount y = y.toNat % 64 := by
  simp [amount, field, BitVec.extractLsb'_toNat]

theorem shl_eq : shl = fun x y : Word => x <<< (y.toNat % 64) := by
  funext x y; rw [shl, amount_eq]

theorem shr_eq : shr = fun x y : Word => x >>> (y.toNat % 64) := by
  funext x y; rw [shr, amount_eq]

theorem sra_eq : sra = fun x y => x.sshiftRight (y.toNat % 64) := by
  funext x y; rw [sra, amount_eq]

theorem min_eq : min = fun x y => if x.toInt < y.toInt then x else y := by
  funext x y; simp [min, BitVec.slt]

theorem max_eq : max = fun x y => if x.toInt < y.toInt then y else x := by
  funext x y; simp [max, BitVec.slt]

theorem minu_eq : minu = fun x y => if x.toNat < y.toNat then x else y := by
  funext x y; simp [minu, BitVec.ult]

theorem maxu_eq : maxu = fun x y => if x.toNat < y.toNat then y else x := by
  funext x y; simp [maxu, BitVec.ult]

theorem mul_eq : (fun x y : Word => x * y) = fun x y => (x.setWidth 128 * y.setWidth 128).extractLsb' 0 64 := by
  funext x y
  apply BitVec.eq_of_toNat_eq
  simp only [BitVec.toNat_mul, BitVec.extractLsb'_toNat, BitVec.toNat_setWidth, Nat.shiftRight_zero,
    ← Nat.mul_mod, Nat.mod_mod_of_dvd _ (show 2 ^ 64 ∣ 2 ^ 128 by decide)]

/-- The high half of a product that fits in 128 bits. -/
theorem high_half (z : Int) : BitVec.ofInt 64 (z / 2 ^ 64) = (BitVec.ofInt 128 z).extractLsb' 64 64 := by
  apply BitVec.eq_of_toNat_eq
  simp only [BitVec.extractLsb'_toNat, BitVec.toNat_ofInt, Nat.shiftRight_eq_div_pow]
  omega

theorem mulh_eq : mulh = fun x y => (x.signExtend 128 * y.signExtend 128).extractLsb' 64 64 := by
  funext x y
  rw [mulh, ofInt, high_half, BitVec.ofInt_mul]
  rfl

theorem mulhu_eq : mulhu = fun x y => (x.setWidth 128 * y.setWidth 128).extractLsb' 64 64 := by
  funext x y
  apply BitVec.eq_of_toNat_eq
  have hx := x.isLt
  have hy := y.isLt
  have hz : x.toNat * y.toNat < 2 ^ 128 := by nlinarith
  simp only [mulhu, BitVec.toNat_mul, BitVec.extractLsb'_toNat, BitVec.toNat_setWidth, BitVec.toNat_ofNat,
    Nat.shiftRight_eq_div_pow, ← Nat.mul_mod, Nat.mod_eq_of_lt hz]

theorem clamp_eq (i : Int) : clamp i = BitVec.ofInt 64 (Max.max (-2 ^ 63) (Min.min (2 ^ 63 - 1) i)) := by
  unfold clamp ofInt
  split_ifs <;> congr 1 <;> omega

theorem adds_eq : adds = fun x y => BitVec.ofInt 64 (Max.max (-2 ^ 63) (Min.min (2 ^ 63 - 1) (x.toInt + y.toInt))) := by
  funext x y; exact clamp_eq _

theorem subs_eq : subs = fun x y => BitVec.ofInt 64 (Max.max (-2 ^ 63) (Min.min (2 ^ 63 - 1) (x.toInt - y.toInt))) := by
  funext x y; exact clamp_eq _

theorem addus_eq : addus = fun x y => BitVec.ofNat 64 (Min.min (x.toNat + y.toNat) (2 ^ 64 - 1)) := by
  funext x y
  rw [← BitVec.ofInt_natCast]
  unfold addus clampU ofInt
  split_ifs <;> [congr 1; skip; congr 1] <;> omega

theorem subus_eq : subus = fun x y => BitVec.ofNat 64 (x.toNat - y.toNat) := by
  funext x y
  have hx := x.isLt
  rw [← BitVec.ofInt_natCast]
  unfold subus clampU ofInt
  split_ifs
  · omega
  · rw [show x.toNat - y.toNat = 0 by omega]; rfl
  · congr 1; omega

theorem sextb_eq : sextb = fun x => (x.setWidth 8).signExtend 64 := by
  funext x; rw [sextb, signExt, bits, BitVec.setWidth_eq_extractLsb' (by decide)]

theorem sexth_eq : sexth = fun x => (x.setWidth 16).signExtend 64 := by
  funext x; rw [sexth, signExt, bits, BitVec.setWidth_eq_extractLsb' (by decide)]

theorem sextw_eq : sextw = fun x => (x.setWidth 32).signExtend 64 := by
  funext x; rw [sextw, signExt, bits, BitVec.setWidth_eq_extractLsb' (by decide)]

/-- The bits of a number above its highest 1 bit. -/
theorem findIdx_highest_bit (x : Word) (h : x ≠ 0) :
    (List.range 64).findIdx (fun k => x.getLsbD (63 - k)) = 63 - x.toNat.log2 := by
  have hx : x.toNat ≠ 0 := fun e => h (BitVec.eq_of_toNat_eq e)
  have hl : x.toNat.log2 < 64 := (Nat.log2_lt hx).2 x.isLt
  rw [List.findIdx_eq (by simp; omega)]
  refine ⟨?_, fun j hj => ?_⟩
  · rw [List.getElem_range, show 63 - (63 - x.toNat.log2) = x.toNat.log2 by omega]
    exact Nat.testBit_log2 hx
  · rw [List.getElem_range]
    exact Nat.testBit_lt_two_pow ((Nat.log2_lt hx).1 (by omega))

theorem clz_eq : clz = fun x => BitVec.ofNat 64 ((List.range 64).takeWhile fun k => !x.getLsbD (63 - k)).length := by
  funext x
  rw [clz, List.takeWhile_eq_take_findIdx_not]
  simp only [Bool.not_not]
  by_cases h : x = 0
  · subst h; rfl
  · rw [if_neg h, findIdx_highest_bit x h, List.length_take, List.length_range, Nat.min_eq_left (by omega)]

theorem popCount_eq (n v : Nat) : popCount n v = ((List.range n).filter v.testBit).length := by
  induction n generalizing v with
  | zero => rfl
  | succ n ih =>
    rw [popCount, ih, List.range_succ_eq_map, List.filter_cons, List.filter_map, Nat.testBit_zero]
    have hs : v.testBit ∘ Nat.succ = (v / 2).testBit := by funext i; exact Nat.testBit_succ v i
    rw [hs]
    rcases Nat.mod_two_eq_zero_or_one v with h | h <;> simp [h, Nat.add_comm]

theorem popc_eq : popc = fun x => BitVec.ofNat 64 ((List.range 64).filter x.getLsbD).length := by
  funext x
  rw [popc, popCount_eq]
  rfl

end Alu

/-! ### The forms on every agent -/

/-- The register forms run their result of `Alu`. -/
theorem exec_integerForm (s : State) (e : BitVec 1) (d a b : BitVec 6) :
    ∀ p ∈ integerForms, exec (p.1 e d a b) s = runShared (p.1 e d a b) (aluRR e d a b p.2) s := by
  simp only [integerForms, ← Alu.shl_eq, ← Alu.shr_eq, ← Alu.sra_eq, ← Alu.min_eq, ← Alu.max_eq, ← Alu.minu_eq, ← Alu.maxu_eq,
    ← Alu.mul_eq, ← Alu.mulh_eq, ← Alu.mulhu_eq, ← Alu.adds_eq, ← Alu.subs_eq, ← Alu.addus_eq, ← Alu.subus_eq,
    List.forall_mem_cons, List.not_mem_nil, false_imp_iff, implies_true, and_true]
  refine ⟨rfl, rfl, rfl, rfl, rfl, rfl, rfl, rfl, rfl, rfl, rfl, rfl, rfl, rfl, rfl, rfl, rfl, rfl, rfl, rfl⟩

theorem exec_integerUnary (s : State) (e : BitVec 1) (d a : BitVec 6) :
    ∀ p ∈ integerUnary, exec (p.1 e d a) s = runShared (p.1 e d a) (aluR e d a p.2) s := by
  simp only [integerUnary, ← Alu.sextb_eq, ← Alu.sexth_eq, ← Alu.sextw_eq, ← Alu.clz_eq, ← Alu.popc_eq,
    List.forall_mem_cons, List.not_mem_nil, false_imp_iff, implies_true, and_true]
  exact ⟨rfl, rfl, rfl, rfl, rfl⟩

theorem exec_integerImmediate (s : State) (e : BitVec 1) (d a : BitVec 6) (m : BitVec 12) :
    ∀ p ∈ integerImmediates, exec (p.1 e d a m) s = runShared (p.1 e d a m) (aluRI e d a m p.2) s := by
  simp only [integerImmediates, ← Alu.min_eq, ← Alu.max_eq, List.forall_mem_cons, List.not_mem_nil, false_imp_iff,
    implies_true, and_true]
  exact ⟨rfl, rfl, rfl, rfl, rfl, rfl⟩

theorem zeroExt_toNat (n : BitVec 6) : (zeroExt n).toNat = n.toNat := by
  rw [zeroExt, BitVec.toNat_setWidth, Nat.mod_eq_of_lt (by omega)]

/-- A shift form uses its amount only. -/
theorem aluShift_congr {e : BitVec 1} {d a n : BitVec 6} {f g : Word → Word → Word}
    (h : ∀ x, f x (zeroExt n) = g x (zeroExt n)) : aluShift e d a n f = aluShift e d a n g := by
  simp only [aluShift, h]

theorem amount_zeroExt (n : BitVec 6) : (zeroExt n).toNat % 64 = (zeroExt n).toNat := by
  rw [zeroExt_toNat, Nat.mod_eq_of_lt (by omega)]

/-- The shift forms shift by their field, which is below 64. -/
theorem exec_integerShift (s : State) (e : BitVec 1) (d a n : BitVec 6) :
    ∀ p ∈ integerShifts, exec (p.1 e d a n) s = runShared (p.1 e d a n) (aluShift e d a n fun x y => p.2 x y.toNat) s := by
  simp only [integerShifts, List.forall_mem_cons, List.not_mem_nil, false_imp_iff, implies_true, and_true]
  refine ⟨?_, ?_, ?_⟩
  · rw [← aluShift_congr (f := Alu.shl) fun x => by simp only [Alu.shl_eq, amount_zeroExt]]; rfl
  · rw [← aluShift_congr (f := Alu.shr) fun x => by simp only [Alu.shr_eq, amount_zeroExt]]; rfl
  · rw [← aluShift_congr (f := Alu.sra) fun x => by simp only [Alu.sra_eq, amount_zeroExt]]; rfl

section Forms
variable {s s1 s2 : State} {e : BitVec 1} {d a b : BitVec 6} {x y : Word}

theorem wr_apply (s : State) (e : BitVec 1) (d : BitVec 6) (v : Word) : wr e d v s = .ok ((), s.wrote e d v) := rfl

theorem aluRR_ok (f : Word → Word → Word) (ha : rd e a s = .ok (x, s1)) (hb : rd e b s1 = .ok (y, s2)) :
    aluRR e d a b f s = .ok (.seq, s2.wrote e d (f x y)) := by
  rw [aluRR, M.bind_ok ha, M.bind_ok hb, M.bind_ok (wr_apply ..), M.pure_apply]

theorem aluRI_ok (m : BitVec 12) (f : Word → Word → Word) (ha : rd e a s = .ok (x, s1)) :
    aluRI e d a m f s = .ok (.seq, s1.wrote e d (f x (m.signExtend 64))) := by
  rw [aluRI, M.bind_ok ha, M.bind_ok (wr_apply ..), M.pure_apply]
  rfl

theorem aluShift_ok (n : BitVec 6) (f : Word → Word → Word) (ha : rd e a s = .ok (x, s1)) :
    aluShift e d a n f s = .ok (.seq, s1.wrote e d (f x (zeroExt n))) := by
  rw [aluShift, M.bind_ok ha, M.bind_ok (wr_apply ..), M.pure_apply]

theorem aluR_ok (f : Word → Word) (ha : rd e a s = .ok (x, s1)) : aluR e d a f s = .ok (.seq, s1.wrote e d (f x)) := by
  rw [aluR, M.bind_ok ha, M.bind_ok (wr_apply ..), M.pure_apply]

end Forms

theorem integerFormsWriteResult_clause : Clauses.IntegerFormsWriteResult := by
  intro s s1 s2 e d a b x y ha hb p hp hrun
  rw [exec_integerForm s e d a b p hp]
  exact runShared_ok _ _ s _ _ hrun (aluRR_ok p.2 ha hb) (.inl rfl)

theorem integerImmediatesWriteResult : Clauses.IntegerImmediatesWriteResult := by
  intro s s1 e d a n m x ha
  refine ⟨fun p hp hrun => ?_, fun p hp hrun => ?_, fun p hp hrun => ?_⟩
  · rw [exec_integerUnary s e d a p hp]
    exact runShared_ok _ _ s _ _ hrun (aluR_ok p.2 ha) (.inl rfl)
  · rw [exec_integerImmediate s e d a m p hp]
    exact runShared_ok _ _ s _ _ hrun (aluRI_ok m p.2 ha) (.inl rfl)
  · rw [exec_integerShift s e d a n p hp]
    have h := aluShift_ok (d := d) n (fun x y => p.2 x y.toNat) ha
    rw [zeroExt_toNat] at h
    exact runShared_ok _ _ s _ _ hrun h (.inl rfl)

/-! ### Seen from outside, on the AP -/

/-- A register of the active strand written: the registers a0 to a63, and nothing else. -/
theorem State.awrite_active (s : State) (c : Nat) (v : Word) (h : s.inShadow = false) :
    s.awrite c v = s.modRegs fun r => { r with a := if c = 0 then r.a else r.a.setIfInBounds (r.apPhys c) v } := by
  by_cases hc : c = 0
  · simp only [hc, State.awrite_zero, if_true]; rfl
  · simp only [State.awrite, hc, h, Bool.false_eq_true, if_false]

theorem rd_ap (s : State) (c : BitVec 6) (h : s.onEngine = none) : rd 0#1 c s = .ok (s.aread c.toNat, s) := by
  simp only [rd, M.get_bind, h]
  rfl

theorem State.wrote_ap (s : State) (d : BitVec 6) (v : Word) (h : s.onEngine = none) :
    s.wrote 0#1 d v = s.awrite d.toNat v := by
  simp only [State.wrote, h]
  rfl

theorem apPredDest_integerForm (d a b : BitVec 6) : ∀ p ∈ integerForms, apPredDest (p.1 0#1 d a b) = none := by
  simp only [integerForms, List.forall_mem_cons, List.not_mem_nil, false_imp_iff, implies_true, and_true]
  refine ⟨rfl, rfl, rfl, rfl, rfl, rfl, rfl, rfl, rfl, rfl, rfl, rfl, rfl, rfl, rfl, rfl, rfl, rfl, rfl, rfl⟩

/-- Where the AP goes it leaves the registers as they read. -/
theorem State.aread_apGo (s : State) (t : BitVec 56) (c : Nat) : (s.apGo t).aread c = s.aread c := rfl

theorem State.aread_podDone (s : State) (n c : Nat) : (s.podDone n).aread c = s.aread c := rfl

/-- The end of an AP's word that writes no predicate and has no prefix. -/
theorem retireAp_plain (s : State) (i : Instr) (hs : s.inShadow = false) (hb : s.ap.bind = .none) (hi : apPredDest i = none) :
    s.retireAp i .seq = s.apGo (s.ap.pc + 4) := by
  rw [retireAp_seq s i hs hb, State.pushPred, hi]

/-- The AP's plain run of an integer form writes D and goes on. -/
theorem exec_integerForm_ap (s : State) (d a b : BitVec 6) (hs : s.inShadow = false) (hb : s.ap.bind = .none)
    (p : (BitVec 1 → BitVec 6 → BitVec 6 → BitVec 6 → Instr) × (Word → Word → Word)) (hp : p ∈ integerForms)
    (hrun : s.apRuns (p.1 0#1 d a b)) :
    exec (p.1 0#1 d a b) s = .next
      (((s.awrite d.toNat (p.2 (s.aread a.toNat) (s.aread b.toNat))).podDone 6).apGo (s.ap.pc + 4)) := by
  have ha := rd_ap s a hrun.1
  rw [integerFormsWriteResult_clause s s s 0#1 d a b _ _ ha (rd_ap s b hrun.1) p hp hrun.2.2, after_ap _ _ _ _ hrun,
    s.wrote_ap d _ hrun.1, State.awrite_active s _ _ hs]
  exact congrArg _ (retireAp_plain _ _ hs hb (apPredDest_integerForm d a b p hp))

theorem State.aread_awrite_same (s : State) (d : BitVec 6) (v : Word) (hs : s.inShadow = false) :
    (s.awrite d.toNat v).aread d.toNat = if d = 0#6 then 0 else v := by
  by_cases hd : d = 0#6
  · subst hd; simp
  · have h0 : d.toNat ≠ 0 := fun e => hd (BitVec.eq_of_toNat_eq e)
    rw [if_neg hd, s.aread_awrite _ _ _ h0 (by simp [hs]; omega), if_pos rfl]

theorem State.aread_awrite_ne (s : State) (d : BitVec 6) (c : Nat) (v : Word) (hs : s.inShadow = false) (h : c ≠ d.toNat) :
    (s.awrite d.toNat v).aread c = s.aread c := by
  by_cases h0 : d.toNat = 0
  · rw [h0, State.awrite_zero]
  · rw [s.aread_awrite _ _ _ h0 (by simp [hs]; omega), if_neg h]

/-- Settles O4. -/
theorem integerFormsFrameOnAp : Obligations.IntegerFormsFrameOnAp := by
  intro s d a b hs hb p hp hrun
  refine ⟨_, exec_integerForm_ap s d a b hs hb p hp hrun, ?_, fun c _ hc => ?_, ?_⟩
  · rw [State.aread_apGo, State.aread_podDone, s.aread_awrite_same d _ hs]
  · rw [State.aread_apGo, State.aread_podDone, s.aread_awrite_ne d c _ hs hc]
  · rw [State.awrite_active s _ _ hs]
    exact ⟨rfl, rfl, rfl, rfl, rfl, rfl, rfl, rfl, rfl, rfl, rfl, rfl, rfl, rfl, rfl, rfl, rfl, rfl, rfl, rfl, rfl⟩

/-- Settles O25, the forms with two register sources and the others. -/
theorem integerFormsWriteResult : Obligations.IntegerFormsWriteResult :=
  ⟨integerFormsWriteResult_clause, integerImmediatesWriteResult⟩

end Sys2Proof.Machine
end

section
/-!
SUPPORT. Semaphores on the AP (R38, R39, R87, R88).
-/
namespace Sys2Proof.Machine
open Sys2Proof

theorem runShared_ap (i : Instr) (m : M Flow) (s : State) (h : s.apRuns i) : runShared i m s = runAp i m s := by
  simp [runShared, h.1, h.2.1]

theorem exec_sgwait_takes (s : State) (g : BitVec 6) (w : BitVec 4) (h : s.apRuns (.sgwait g w))
    (hc : s.waitsAhead g.toNat 6 < (s.sema g.toNat).toNat) :
    exec (.sgwait g w) s = .next (s.after (s.setSema g.toNat (s.sema g.toNat - 1)) (.sgwait g w) .seq) := by
  refine (runShared_ap _ _ s h).trans (runAp_after _ _ s _ .seq h ?_)
  rw [M.get_bind, decide_eq_false (by omega), M.bind_ok (blockIf_false _ s)]
  rfl

theorem exec_sgwait_blocks (s : State) (g : BitVec 6) (w : BitVec 4) (h : s.apRuns (.sgwait g w))
    (hc : (s.sema g.toNat).toNat ≤ s.waitsAhead g.toNat 6) :
    exec (.sgwait g w) s = .next (s.blockAp { cls := w.toNat, kind := 2, obj := g.toNat }) := by
  refine (runShared_ap _ _ s h).trans (runAp_block _ _ s _ h ?_)
  rw [M.get_bind, decide_eq_true hc, M.bind_error (blockIf_true _ s)]

theorem exec_sgraise_adds (s : State) (g : BitVec 6) (h : s.apRuns (.sgraise g)) (hc : s.sema g.toNat ≠ 65535#16) :
    exec (.sgraise g) s = .next (s.after (s.setSema g.toNat (s.sema g.toNat + 1)) (.sgraise g) .seq) := by
  refine (runShared_ap _ _ s h).trans (runAp_after _ _ s _ .seq h ?_)
  have hb : (s.sema g.toNat == 65535) = false := beq_false_of_ne hc
  rw [M.get_bind, hb]
  rfl

theorem exec_sgraise_overflows (s : State) (g : BitVec 6) (h : s.apRuns (.sgraise g)) (hc : s.sema g.toNat = 65535#16) :
    exec (.sgraise g) s = .next (s.takeTrap (mkTrap .p 0x20 g.toNat)) := by
  refine (runShared_ap _ _ s h).trans (runAp_trap _ _ s none _ h ?_)
  rw [M.get_bind, hc]
  rfl

/-- Settles O6: each form by whether its semaphore gives, or takes, a unit. -/
theorem semaphoresCount : Obligations.SemaphoresCount := fun s g w =>
  ⟨fun h => ⟨exec_sgwait_takes s g w h, exec_sgwait_blocks s g w h⟩,
    fun h => ⟨exec_sgraise_adds s g h, exec_sgraise_overflows s g h⟩⟩

end Sys2Proof.Machine
end

section
/-!
SUPPORT. Queue-form loads: the entry that they allot, its filling, and the pop of the EP (R21, R22, R24, R107, R395, R410).
-/
namespace Sys2Proof.Machine
open Sys2Proof

/-! ### The loads -/

theorem field_low (x : Word) (n : Nat) : field x 0 n = x.toNat % 2 ^ n := by
  simp [field, BitVec.extractLsb'_toNat]

theorem checkVirtual_ok (sp : Space) (va : Word) (n : Need) (s t : State) (p : Phys) (ha : va.toNat % 8 = 0)
    (h : s.translate va { n with host := sp == .host } s.privileged = .ok (p, t)) : checkVirtual sp va n s = .ok (p, t) := by
  have ha : field va 0 3 = 0 := (field_low va 3).trans ha
  rw [checkVirtual, if_neg (by simp [ha]), translate]
  dsimp only
  rw [h]

theorem needRequest_free (sp : Space) (cls : Nat) (s : State) (h : s.inFlight < 8192) : needRequest sp cls s = .ok ((), s) := by
  have hn : s.noRequest sp = false := by
    simp only [State.noRequest, Bool.and_eq_false_iff, decide_eq_false_iff_not]
    right; omega
  rw [needRequest, M.get_bind, hn, Bool.and_false]
  rfl

section LoadQueue
variable {sp : Space} {va : Word} {cls q pol : Nat} {zp : Bool} {s t : State} {p : Phys} (ha : va.toNat % 8 = 0)
  (htr : s.translate va { readNeed with host := sp == .host } s.privileged = .ok (p, t)) (hfl : t.inFlight < 8192)
include ha htr hfl

theorem loadQueue_room (hacq : t.accessOpts.acq = false) (hlen : (t.strand.queues.q[q]?.getD []).length < 64) {e : QEntry}
    (he : e = ⟨none, 0, some ⟨sp, p.pa, pol, zp, t.accessOpts.rc, p.view, p.uc⟩⟩) :
    loadQueue sp va cls q pol zp s = .ok (.seq,
      t.modQueues fun y => { y with q := y.q.setIfInBounds q ((t.strand.queues.q[q]?.getD []) ++ [e]) }) := by
  subst he
  rw [loadQueue, M.bind_ok (checkVirtual_ok sp va readNeed s t p ha htr), M.bind_ok (needRequest_free sp cls t hfl),
    M.get_bind]
  dsimp only
  rw [decide_eq_false (by omega), M.bind_ok (blockIf_false _ t), hacq]
  rfl

theorem loadQueue_full (hlen : 64 ≤ (t.strand.queues.q[q]?.getD []).length) :
    loadQueue sp va cls q pol zp s = .error (.block { cls := cls, kind := 1, obj := q }) := by
  rw [loadQueue, M.bind_ok (checkVirtual_ok sp va readNeed s t p ha htr), M.bind_ok (needRequest_free sp cls t hfl),
    M.get_bind]
  dsimp only
  rw [decide_eq_true (by omega), M.bind_error (blockIf_true _ t)]

end LoadQueue

/-- Both queue forms are `loadQueue` at their address. -/
theorem exec_queueForm (s : State) (q : BitVec 3) (p : BitVec 2) (zp : BitVec 1) (a : BitVec 6) (h : BitVec 1) (x : BitVec 5)
    (l : BitVec 3) (w : BitVec 4) (n : BitVec 5) :
    ∀ i ∈ [(Instr.lddQ q p zp h x l w n, Space.dev, deviceAddress s h x l n), (.ldhQ q p zp a w, .host, s.aread a.toNat)],
      exec i.1 s = runAp i.1 (loadQueue i.2.1 i.2.2 w.toNat q.toNat p.toNat (zp = 1#1)) s := by
  simp only [List.forall_mem_cons, List.not_mem_nil, false_imp_iff, implies_true, and_true]
  exact ⟨rfl, rfl⟩

/-! ### The data -/

theorem Vector.getD_setIfInBounds_same {α : Type} {n : Nat} (v : Vector α n) (i : Nat) (x d : α) (h : i < n) :
    (v.setIfInBounds i x)[i]?.getD d = x := by simp [h]

theorem exec_queueEntryFill (s t : State) (k ix : Nat) (r : LoadReq) (bs : List Byte) (poison : Bool)
    (hin : s.input.a = k + 1) (hix : (awaiting (s.strand.queues.q[k]?.getD []))[s.input.b]? = some ix)
    (hr : ((s.strand.queues.q[k]?.getD [])[ix]?).bind (·.req) = some r)
    (hread : readAt 8 r.space ⟨r.addr, r.view, r.uc⟩ 8 r.pol r.rc s = .ok ((bs, poison), t)) :
    exec .queueEntryFill s = .next ((t.podDone 8).modQueues fun z =>
      { z with q := z.q.setIfInBounds k ((s.strand.queues.q[k]?.getD []).set ix (entryOf bs poison r.zp)) }) := by
  show execQueueEntryFill s = _
  rw [execQueueEntryFill, hin, if_neg (by omega), Nat.add_sub_cancel, fillQueue, hix]
  dsimp only
  rw [hr]
  dsimp only
  rw [hread]

theorem queueLoadsAllotAndFill : Clauses.QueueLoadsAllotAndFill := by
  refine ⟨fun s q p zp a h x l w n i hi r t hrun ha htr hfl hacq => ?_, fun s t k ix r bs poison hk hin hix hr hread => ?_⟩
  · rw [exec_queueForm s q p zp a h x l w n i hi]
    refine ⟨fun hlen e he => ?_, fun hlen => runAp_block _ _ s _ hrun (loadQueue_full ha htr hfl hlen)⟩
    exact runAp_after _ _ s _ .seq hrun (loadQueue_room ha htr hfl hacq hlen he)
  · refine ⟨_, exec_queueEntryFill s t k ix r bs poison hin hix hr hread, ?_⟩
    exact Vector.getD_setIfInBounds_same _ k _ _ hk

/-! ### The pop of the EP -/

section Pop
variable {s : State} {q : Nat} (ht : s.ep.taken = [])
include ht

theorem popReg_empty (cls : Nat) (hq : s.strand.queues.q[q]?.getD [] = []) :
    popReg q cls s = .error (.block { cls := cls, kind := 0, obj := q }) := by
  rw [popReg, ht, hq]

variable {x : QEntry} {rest : List QEntry} (hq : s.strand.queues.q[q]?.getD [] = x :: rest)
include hq

theorem popReg_awaits (cls : Nat) (hd : x.data = none) :
    popReg q cls s = .error (.block { cls := cls, kind := 0, obj := q }) := by
  rw [popReg, ht, hq]
  dsimp only
  rw [hd]

theorem popReg_data (cls : Nat) (v : Word) (hd : x.data = some v) (hm : x.mark ≠ 2#2) :
    popReg q cls s = .ok (if x.mark = 0#2 then v else 0, (s.modQueues fun z => { z with q := z.q.setIfInBounds q rest }).modEp
      fun e => { e with used := e.used ++ [if x.mark = 0#2 then v else 0] }) := by
  rw [popReg, ht, hq]
  dsimp only
  rw [hd]
  exact if_neg hm

theorem popReg_poisoned (cls : Nat) (v : Word) (hd : x.data = some v) (hm : x.mark = 2#2) :
    popReg q cls s = .error (.trap (some ((s.modQueues fun z => { z with q := z.q.setIfInBounds q rest }).modEp
      fun e => { e with taken := e.used ++ [0], used := [] })) { mkTrap .e 0x16 0 with src := 1 }) := by
  rw [popReg, ht, hq]
  dsimp only
  rw [hd]
  exact if_pos hm

end Pop

/-- A source code from 32 to 39 of the EP pops a queue. -/
theorem rd_ep_queue (s : State) (q : Nat) (hn : s.onEngine = none) (hq : q < 8) :
    rd 1#1 (BitVec.ofNat 6 (32 + q)) s = popReg q 0 s := by
  have hc : (BitVec.ofNat 6 (32 + q)).toNat = 32 + q := by rw [BitVec.toNat_ofNat, Nat.mod_eq_of_lt (by omega)]
  rw [rd, M.get_bind, hn]
  dsimp only
  rw [if_pos rfl, hc, readEp, if_neg (by omega), Nat.add_sub_cancel_left]

theorem queueOperandPops : Clauses.QueueOperandPops := by
  intro s q x rest v hn ht hq
  rw [rd_ep_queue s q hn hq]
  have hsame : ∀ r : List QEntry, (s.strand.queues.q.setIfInBounds q r)[q]?.getD [] = r :=
    fun r => Vector.getD_setIfInBounds_same _ q r [] hq
  refine ⟨popReg_empty ht 0, fun h hd => popReg_awaits ht h 0 hd, fun h hd hm => ?_, fun h hd hm => ?_⟩
  · exact ⟨_, popReg_data ht h 0 v hd hm, hsame rest, rfl, rfl, fun k hk => Vector.getElem?_setIfInBounds_ne (Ne.symm hk)⟩
  · exact ⟨_, _, popReg_poisoned ht h 0 v hd hm, rfl, rfl, hsame rest⟩

/-- Settles O39: what the loads allot and the data fill, and what the EP pops. -/
theorem queueLoadsFillAndPop : Obligations.QueueLoadsFillAndPop := ⟨queueLoadsAllotAndFill, queueOperandPops⟩

end Sys2Proof.Machine
end

section
/-!
SUPPORT. Control registers: rings, the port's window and rate, invalidation, peers (R35, R232, R406, R427).
-/
namespace Sys2Proof.Machine
open Sys2Proof

/-! ### Engines and ports after a write -/

theorem State.engine_setEngine_same (s : State) (n : Nat) (e : Engine) (h : n < 6) : (s.setEngine n e).engine n = e := by
  simp [State.setEngine, State.engine, State.modCore, h]

theorem State.engine_setEngine_ne (s : State) (n m : Nat) (e : Engine) (h : m ≠ n) : (s.setEngine n e).engine m = s.engine m := by
  simp [State.setEngine, State.engine, State.modCore, Vector.getElem?_setIfInBounds_ne (Ne.symm h)]

@[simp] theorem State.port_setPort (s : State) (p : Port) : (s.setPort p).port = p := by
  simp [State.setPort, State.port, State.modShare, Share.setPort, Share.port]

@[simp] theorem State.port_modPort (s : State) (f : Port → Port) : (s.modPort f).port = f s.port := State.port_setPort s _

/-! ### `ringcfg` -/

theorem runWrite_ok (m : M Unit) (s t : State) (h : m s = .ok ((), t)) : runWrite m s = .next t := by
  show (match m s with
    | .ok (_, t) => Host.Outcome.next t
    | .error (.trap _ t) => .next (s.takeTrap t)
    | .error _ => .next s) = _
  rw [h]

theorem runWrite_trap (m : M Unit) (s : State) (k : Option State) (x : Trap) (h : m s = .error (.trap k x)) :
    runWrite m s = .next (s.takeTrap x) := by
  show (match m s with
    | .ok (_, t) => Host.Outcome.next t
    | .error (.trap _ t) => .next (s.takeTrap t)
    | .error _ => .next s) = _
  rw [h]

/-- Does a write of `ringcfg` set the ring up (R35)? -/
def Engine.takesCfg (e : Engine) (cfg : Word) : Prop :=
  (e.enabled = false ∨ e.rp = e.wp) ∧ 8 ≤ field cfg 23 4 ∧ field cfg 6 17 * 64 % 2 ^ field cfg 23 4 = 0

theorem writeRing_refuses (s : State) (n : Nat) (v : Word) (h : ¬(s.engine n).takesCfg (v &&& 0xFFFFFC0#64)) :
    writeRing n v s = .error (.trap none (mkTrap .p 0x1D n)) := by
  have h : ((s.engine n).enabled = true ∧ (s.engine n).rp ≠ (s.engine n).wp ∨ field (v &&& 0xFFFFFC0#64) 23 4 < 8) ∨
      field (v &&& 0xFFFFFC0#64) 6 17 * 64 % 2 ^ field (v &&& 0xFFFFFC0#64) 23 4 ≠ 0 := by
    simp only [Engine.takesCfg, not_and_or, not_or, Nat.not_le, Bool.not_eq_false] at h
    tauto
  rw [writeRing, M.get_bind, if_pos (by simpa using h)]
  rfl

theorem writeRing_sets (s : State) (n : Nat) (v : Word) (h : (s.engine n).takesCfg (v &&& 0xFFFFFC0#64)) :
    ∃ e : Engine, writeRing n v s = .ok ((), s.setEngine n e) ∧
      e.cfg = v &&& 0xFFFFFC0#64 ∧ e.rp = 0 ∧ e.wp = 0 ∧ e.fp = 0 ∧ e.stopped = false := by
  obtain ⟨hq, hk, hb⟩ := h
  have hq : ((s.engine n).enabled && (s.engine n).rp != (s.engine n).wp) = false := by rcases hq with h | h <;> simp [h]
  rw [writeRing, M.get_bind, if_neg (by simp [hq, hk, hb])]
  exact ⟨_, rfl, rfl, rfl, rfl, rfl, rfl⟩

theorem exec_ringcfg (s : State) (n : BitVec 3) (v : Word) (hn : n.toNat < 6) :
    exec (.ringcfgWrite n v) s = runWrite (writeRing n.toNat v) s := if_pos hn

theorem ringcfgSetsRing (s : State) (n : BitVec 3) (v : Word) (hn : n.toNat < 6)
    (h : (s.engine n.toNat).takesCfg (v &&& 0xFFFFFC0#64)) :
    ∃ u, exec (.ringcfgWrite n v) s = .next u ∧ (u.engine n.toNat).cfg = v &&& 0xFFFFFC0#64 ∧ (u.engine n.toNat).rp = 0 ∧
      (u.engine n.toNat).wp = 0 ∧ (u.engine n.toNat).fp = 0 ∧ (u.engine n.toNat).stopped = false ∧
      (∀ m, m ≠ n.toNat → u.engine m = s.engine m) ∧ u.mem = s.mem ∧ u.regs = s.regs := by
  obtain ⟨e, hw, hcfg, hrp, hwp, hfp, hst⟩ := writeRing_sets s n.toNat v h
  refine ⟨s.setEngine n.toNat e, (exec_ringcfg s n v hn).trans (runWrite_ok _ _ _ hw), ?_⟩
  rw [State.engine_setEngine_same s _ e hn]
  exact ⟨hcfg, hrp, hwp, hfp, hst, fun m hm => State.engine_setEngine_ne s _ m e hm, rfl, rfl⟩

theorem ringcfgTraps (s : State) (n : BitVec 3) (v : Word) (hn : n.toNat < 6)
    (h : ¬(s.engine n.toNat).takesCfg (v &&& 0xFFFFFC0#64)) :
    exec (.ringcfgWrite n v) s = .next (s.takeTrap (mkTrap .p 0x1D n.toNat)) :=
  (exec_ringcfg s n v hn).trans (runWrite_trap _ _ _ _ (writeRing_refuses s n.toNat v h))

/-! ### `pswin` and `psrate` -/

theorem Port.writeWin_range (p : Port) (v : Word) : if 0x1000 ≤ field v 0 24 ∧ field v 0 24 ≤ 0x800000
    then (p.writeWin v).pswin.toNat = field v 0 24 ∧ field (p.writeWin v).psrate 24 8 = 0
    else (p.writeWin v).pswin = p.pswin ∧ field (p.writeWin v).psrate 24 8 = 1 := by
  have hlt := field_lt v 0 24
  by_cases h : 0x1000 ≤ field v 0 24 ∧ field v 0 24 ≤ 0x800000
  · rw [if_pos h, Port.writeWin, if_pos (by simpa using h)]
    exact ⟨by rw [BitVec.toNat_ofNat]; omega, field_setField_same _ 24 8 0 (by omega)⟩
  · rw [if_neg h, Port.writeWin, if_neg (by simpa using h)]
    exact ⟨rfl, field_setField_same _ 24 8 1 (by omega)⟩

theorem Port.writeRate_range (p : Port) (v : Word) : if 1 ≤ field v 16 8 ∧ field v 16 8 ≤ 64
    then (p.writeRate v).psrate.toNat = field v 0 24
    else field (p.writeRate v).psrate 0 24 = field p.psrate 0 24 ∧ field (p.writeRate v).psrate 24 8 = 1 := by
  have hlt := field_lt v 0 24
  by_cases h : 1 ≤ field v 16 8 ∧ field v 16 8 ≤ 64
  · rw [if_pos h, Port.writeRate, if_neg (by omega)]
    show (BitVec.ofNat 64 (field v 0 24)).toNat = _
    rw [BitVec.toNat_ofNat]; omega
  · rw [if_neg h, Port.writeRate, if_pos (by omega)]
    exact ⟨field_setField_disjoint _ 24 8 1 0 24 (by omega) (by omega), field_setField_same _ 24 8 1 (by omega)⟩

/-! ### `tlbop` -/

/-- What OP of a `tlbop` leaves outside [1:0]: SCOPE, SPACE and VA. -/
theorem setField_op (v : Word) (op : Nat) : field (setField v 0 2 op) 4 2 = field v 4 2 ∧ bit (setField v 0 2 op) 6 = bit v 6 ∧
    setField v 0 2 op &&& ~~~0xFFFF#64 = v &&& ~~~0xFFFF#64 ∧ field (setField v 0 2 op) 0 2 = op % 4 := by
  refine ⟨field_setField_disjoint v 0 2 op 4 2 (by omega) (by omega), bit_setField_disjoint v 0 2 op 6 (by omega) (by omega), ?_,
    field_setField_same v 0 2 op (by omega)⟩
  apply BitVec.eq_of_getLsbD_eq
  intro i hi
  have hm : (0xFFFF#64).getLsbD i = decide (i < 16) := by
    rw [BitVec.getLsbD_ofNat, decide_eq_true hi, Bool.true_and]
    exact Nat.testBit_two_pow_sub_one 16 i
  rw [BitVec.getLsbD_and, BitVec.getLsbD_and, BitVec.getLsbD_not, hm, getLsbD_setField v 0 2 op i hi]
  by_cases h : i < 16
  · simp [h]
  · rw [if_neg (by omega)]

/-- The answer of a `tlbop`: RES. -/
def tlbAnswer (t : State) (r : Nat) : State := t.modCoreRegs fun c => { c with tlbop := setField c.tlbop 8 4 r }

theorem tlbAnswer_res (t : State) (r : Nat) : field (tlbAnswer t r).core.regs.tlbop 8 4 = r % 16 :=
  field_setField_same _ 8 4 r (by omega)

/-- The scope of the own core holds that core alone. -/
theorem scopeCores_own (s : State) (hp : ∀ c ∈ s.parked, c.id ≠ s.core.id) : s.scopeCores 0 = [s.core] := by
  simp only [State.scopeCores, State.cores, List.filter_cons, beq_self_eq_true, if_true]
  rw [List.filter_eq_nil_iff.2]
  intro c hc
  simpa using hp c hc

theorem tlbDo_reserved (s : State) (v : Word) (h : field v 4 2 = 3) : s.tlbDo v = some (tlbAnswer s 1) := by
  rw [State.tlbDo]
  exact if_pos (Or.inl h)

/-- The own core without the leaves that OP names. -/
def tlbShot (s : State) (op : Nat) (host : Bool) (va : Nat) : State :=
  s.mapCores fun c => if [s.core].any (·.id == c.id) then c.shoot (tlbHits op s.asid host va) else c

theorem tlbShot_tlb (s : State) (op : Nat) (host : Bool) (va : Nat) :
    (tlbShot s op host va).core.tlb = s.core.tlb.filter fun l => !tlbHits op s.asid host va l.asid l.host l.va l.size := by
  show (if [s.core].any (·.id == s.core.id) then s.core.shoot (tlbHits op s.asid host va) else s.core).tlb = _
  rw [if_pos (by simp)]
  rfl

section Own
variable (s : State) (v : Word) (hp : ∀ c ∈ s.parked, c.id ≠ s.core.id) (hs : field v 4 2 = 0)
  (hep : s.ep.leaves = []) (heng : ∀ e ∈ s.core.engines.toList, e.leaves = []) (hreq : s.requestsOf s.core = false)
include hp hs hep heng hreq

/-- The own core drops what OP names, once nothing there uses a translation. -/
theorem tlbDo_own (hva : field v 0 2 = 1 → vaBad (bit v 6) (v &&& ~~~0xFFFF#64) = false) :
    s.tlbDo v = some (tlbAnswer (tlbShot s (field v 0 2) (bit v 6) (vaNat (v &&& ~~~0xFFFF#64))) 0) := by
  have hx : (s.core.engines.toList.any fun e => e.holds (tlbHits (field v 0 2) s.asid (bit v 6) (vaNat (v &&& ~~~0xFFFF#64)))) =
      false := List.any_eq_false.2 fun e he => by simp [Engine.holds, heng e he]
  have hl : s.core.strand.ep.leaves = [] := hep
  have hne : ¬(field v 4 2 = 3 ∨ (field v 0 2 = 1 ∧ vaBad (bit v 6) (v &&& ~~~0xFFFF#64) = true)) := by
    rintro (h | ⟨h1, h2⟩)
    · omega
    · rw [hva h1] at h2
      cases h2
  rw [State.tlbDo]
  extract_lets hit cs waits
  rw [if_neg hne]
  have hcs : cs = [s.core] := (congrArg s.scopeCores hs).trans (scopeCores_own s hp)
  have hw : waits s.core = false := by simp only [waits, hit, hx, hl, hreq, List.any_nil, Bool.or_self, Bool.and_false]
  rw [if_neg (by rw [hcs, List.any_cons, hw]; simp), hcs]
  rfl

/-- The same of the event of an operation, whose OP is `op`. -/
theorem tlbRow_own (op : Nat) (hop : op < 4) (hva : op = 1 → vaBad (bit v 6) (v &&& ~~~0xFFFF#64) = false) :
    s.tlbRow op v = .next (tlbAnswer (tlbShot s op (bit v 6) (vaNat (v &&& ~~~0xFFFF#64))) 0) := by
  obtain ⟨hscope, hhost, haddr, hfop⟩ := setField_op v op
  have hfop : field (setField v 0 2 op) 0 2 = op := hfop.trans (Nat.mod_eq_of_lt hop)
  have h := tlbDo_own s (setField v 0 2 op) hp (hscope.trans hs) hep heng hreq (by rw [hfop, hhost, haddr]; exact hva)
  rw [hfop, hhost, haddr] at h
  rw [State.tlbRow, h]
  rfl

/-- The leaves that the own core keeps are those that OP does not name. -/
theorem tlbRow_drops (op : Nat) (hop : op < 4) (hva : op = 1 → vaBad (bit v 6) (v &&& ~~~0xFFFF#64) = false) :
    ∃ u, s.tlbRow op v = .next u ∧ field u.core.regs.tlbop 8 4 = 0 ∧ u.mem = s.mem ∧
      u.core.tlb = s.core.tlb.filter fun l =>
        !tlbHits op s.asid (bit v 6) (vaNat (v &&& ~~~0xFFFF#64)) l.asid l.host l.va l.size :=
  ⟨_, tlbRow_own s v hp hs hep heng hreq op hop hva, tlbAnswer_res _ 0, rfl, tlbShot_tlb s op _ _⟩

end Own

theorem tlbRow_reserved (s : State) (v : Word) (op : Nat) (h : field v 4 2 = 3) :
    ∃ u, s.tlbRow op v = .next u ∧ field u.core.regs.tlbop 8 4 = 1 ∧ u.core.tlb = s.core.tlb ∧ u.mem = s.mem := by
  refine ⟨tlbAnswer s 1, ?_, tlbAnswer_res s 1, rfl, rfl⟩
  rw [State.tlbRow, tlbDo_reserved s _ ((setField_op v op).1.trans h)]
  rfl

theorem tlbHits_va (asid va lasid lva size : Nat) (host lhost : Bool) :
    tlbHits 1 asid host va lasid lhost lva size = true ↔ lasid = asid ∧ lhost = host ∧ lva ≤ va ∧ va < lva + 2 ^ size := by
  simp [tlbHits, and_assoc]

theorem tlbHits_asid (asid va lasid lva size : Nat) (host lhost : Bool) :
    tlbHits 2 asid host va lasid lhost lva size = true ↔ lasid = asid ∧ lhost = host := by simp [tlbHits]

theorem tlbHits_all (asid va lasid lva size : Nat) (host lhost : Bool) :
    tlbHits 3 asid host va lasid lhost lva size = true := rfl

/-! ### `ualpeer` -/

theorem bit_setField_one {w : Nat} (x : BitVec w) (lo : Nat) (b : Bool) (h : lo < w) :
    bit (setField x lo 1 (if b then 1 else 0)) lo = b := by
  rw [bit, getLsbD_setField x lo 1 _ lo h, if_pos (by omega), Nat.sub_self]
  cases b <;> rfl

theorem ualpeerAnswers (s : State) (v : Word) :
    ∃ u, exec (.ualpeerQuery v) s = .next u ∧ u.share.pack.quarantined = s.share.pack.quarantined ∧
      bit u.share.pack.ualpeer 19 = s.share.pack.quarantined.contains (field v 0 16) ∧
      field u.share.pack.ualpeer 0 16 = field v 0 16 ∧ u.core = s.core := by
  refine ⟨s.peerQuery (field v 0 16), rfl, rfl, ?_, ?_, rfl⟩
  · exact (bit_setField_disjoint _ 0 16 _ 19 (by omega) (by omega)).trans (bit_setField_one _ 19 _ (by omega))
  · exact (field_setField_same _ 0 16 _ (by omega)).trans (Nat.mod_eq_of_lt (field_lt v 0 16))

theorem ualpeerReleases (s : State) (v : Word) :
    ∃ u, exec (.ualpeerRelease v) s = .next u ∧
      (∀ n, n ∈ u.share.pack.quarantined ↔ (n ∈ s.share.pack.quarantined ∧ n ≠ field v 0 16)) ∧ u.core = s.core := by
  refine ⟨s.peerRelease (field v 0 16), rfl, fun n => ?_, rfl⟩
  show n ∈ s.share.pack.quarantined.filter (· != field v 0 16) ↔ _
  rw [List.mem_filter, bne_iff_ne]

/-! ### The statement -/

/-- Settles O17: each register by itself. -/
theorem controlWordsAct : Obligations.ControlWordsAct := by
  refine ⟨fun s n v cfg e hn he hcfg => ?_, fun s v => ?_, fun s v hp => ?_,
    fun s v => ⟨ualpeerAnswers s v, ualpeerReleases s v⟩⟩
  · subst he hcfg
    refine ⟨fun hq hk hb => ringcfgSetsRing s n v hn ⟨hq, hk, hb⟩, fun h => ringcfgTraps s n v hn ?_⟩
    rintro ⟨hq, hk, hb⟩
    rcases h with ⟨he, hne⟩ | h | h
    · rcases hq with hq | hq
      · simp [he] at hq
      · exact hne hq
    · omega
    · exact h hb
  · have hwin := Port.writeWin_range s.port v
    have hrate := Port.writeRate_range s.port v
    refine ⟨⟨_, rfl, ?_, rfl, rfl⟩, ⟨_, rfl, ?_, rfl, rfl⟩⟩
    · rw [State.port_modPort]; exact hwin
    · rw [State.port_modPort]; exact hrate
  · refine ⟨fun hs hep heng hreq => ⟨fun hva => ?_, ?_, ?_⟩, fun h => ?_⟩
    · obtain ⟨u, hu, hres, hmem, htlb⟩ := tlbRow_drops s v hp hs hep heng hreq 1 (by omega) fun _ => hva
      exact ⟨u, hu, hres, hmem, fun l => by
        rw [htlb, List.mem_filter, Bool.not_eq_true', ← Bool.not_eq_true, tlbHits_va]⟩
    · obtain ⟨u, hu, hres, hmem, htlb⟩ := tlbRow_drops s v hp hs hep heng hreq 2 (by omega) (by omega)
      exact ⟨u, hu, hres, hmem, fun l => by
        rw [htlb, List.mem_filter, Bool.not_eq_true', ← Bool.not_eq_true, tlbHits_asid]⟩
    · obtain ⟨u, hu, hres, hmem, htlb⟩ := tlbRow_drops s v hp hs hep heng hreq 3 (by omega) (by omega)
      refine ⟨u, hu, hres, hmem, htlb.trans (List.filter_eq_nil_iff.2 fun l _ => ?_)⟩
      simp [tlbHits_all]
    · simp only [List.forall_mem_cons, List.not_mem_nil, false_imp_iff, implies_true, and_true]
      exact ⟨tlbRow_reserved s v 1 h, tlbRow_reserved s v 2 h, tlbRow_reserved s v 3 h⟩

end Sys2Proof.Machine
end

section
/-!
SUPPORT. The steps around an engine's command (R37 to R39, R47, R253, R321, R376).
-/
namespace Sys2Proof.Machine
open Sys2Proof

/-! ### Engines -/

theorem State.engineLive_lt {s : State} {n : Nat} (h : s.engineLive n = true) : n < 6 := by
  simp only [State.engineLive, Bool.and_eq_true, decide_eq_true_eq] at h
  exact h.2

theorem State.setEngine_self (s : State) (n : Nat) : s.setEngine n (s.engine n) = s := by
  have h : s.core.engines.setIfInBounds n (s.core.engines[n]?.getD Engine.reset) = s.core.engines := by
    ext i hi
    rw [Vector.getElem_setIfInBounds]
    split
    · next h => subst h; simp [hi]
    · rfl
  simp only [State.setEngine, State.modCore, State.engine, h]

theorem State.setEngine_setEngine (s : State) (n : Nat) (a b : Engine) : (s.setEngine n a).setEngine n b = s.setEngine n b := by
  have h : (s.core.engines.setIfInBounds n a).setIfInBounds n b = s.core.engines.setIfInBounds n b := by simp
  simp only [State.setEngine, State.modCore, h]

theorem State.modEngine_setEngine (s : State) (n : Nat) (a : Engine) (f : Engine → Engine) (h : n < 6) :
    (s.setEngine n a).modEngine n f = s.setEngine n (f a) := by
  rw [State.modEngine, State.engine_setEngine_same s n a h, State.setEngine_setEngine]

theorem State.engine_modEngine_same (s : State) (n : Nat) (f : Engine → Engine) (h : n < 6) :
    (s.modEngine n f).engine n = f (s.engine n) := State.engine_setEngine_same s n _ h

/-- The arrays of the package replaced. -/
def State.withArrays (s : State) (x : List (Nat × MatrixArray)) : State := s.modShare fun h => { h with arrays := x }

theorem State.withArrays_self (s : State) : s.withArrays s.share.arrays = s := rfl

/-! ### Steps 1 and 2 -/

theorem State.enterWindow_eq (s : State) (n : Nat) : ∃ w g b,
    s.enterWindow n = s.setEngine n { s.engine n with window := w, seg := g, entered := b } := by
  rw [State.enterWindow]
  split
  · exact ⟨_, _, _, (s.setEngine_self n).symm⟩
  · extract_lets e sy
    split
    · exact ⟨_, _, _, (s.setEngine_self n).symm⟩
    · exact ⟨_, _, _, rfl⟩

/-- A change of the arrays alone. -/
def State.arraysOnly (s t : State) : Prop := ∃ x, t = s.withArrays x

theorem State.setArray_arraysOnly (s : State) (a : MatrixArray) : s.arraysOnly (s.setArray a) := ⟨_, rfl⟩

theorem State.requestArray_arraysOnly (s : State) : s.arraysOnly s.requestArray := by
  rw [State.requestArray]
  split
  · exact ⟨_, s.withArrays_self.symm⟩
  · exact s.setArray_arraysOnly _

theorem State.arraysOnly_refl (s : State) : s.arraysOnly s := ⟨_, s.withArrays_self.symm⟩

theorem State.acquired_arraysOnly (s : State) (n : Nat) : ((s.enterWindow n).modEngine n fun e =>
    { e with phase := .acquired, operands := if ((s.cmdSync n).map syAcq).getD false then [] else e.operands }).arraysOnly
      (s.acquired n) := by
  unfold State.acquired
  extract_lets acq t
  change t.arraysOnly _
  clear_value t
  split
  · split
    · exact t.arraysOnly_refl
    · extract_lets isSeg
      clear_value isSeg
      split
      · exact t.arraysOnly_refl
      · split
        · obtain ⟨x, hx⟩ := State.requestArray_arraysOnly (t.setArray t.array.endLease)
          exact ⟨x, hx⟩
        · exact t.requestArray_arraysOnly
  · exact t.arraysOnly_refl

/-- What the end of step 2 changes: the engine's window, segment, phase and operand buffer, and the requests for the array. -/
theorem State.acquired_eq (s : State) (n : Nat) (h : n < 6) : ∃ w g b o x, s.acquired n = (s.setEngine n
    { s.engine n with window := w, seg := g, entered := b, phase := .acquired, operands := o }).withArrays x := by
  obtain ⟨x, hx⟩ := s.acquired_arraysOnly n
  obtain ⟨w, g, b, he⟩ := s.enterWindow_eq n
  rw [he, State.modEngine_setEngine s n _ _ h] at hx
  exact ⟨w, g, b, _, x, hx⟩

/-- The command may begin step 3, where it stood. -/
theorem State.acquired_keeps (s : State) (n : Nat) (h : n < 6) : ((s.acquired n).engine n).phase = .acquired ∧
    ((s.acquired n).engine n).rp = (s.engine n).rp ∧ (s.acquired n).strand = s.strand ∧ (s.acquired n).mem = s.mem := by
  obtain ⟨w, g, b, o, x, he⟩ := s.acquired_eq n h
  rw [he]
  have hs : ∀ e, ((s.setEngine n e).withArrays x).engine n = e := fun e => State.engine_setEngine_same s n e h
  rw [hs]
  exact ⟨rfl, rfl, rfl, rfl⟩

/-! ### Semaphores -/

theorem State.sema_setSema_same (s : State) (g : Nat) (v : BitVec 16) (h : g < 63) : (s.setSema g v).sema g = v :=
  Vector.getD_setIfInBounds_same s.strand.sg g v 0 h

theorem State.sema_setSema_ne (s : State) (g j : Nat) (v : BitVec 16) (h : j ≠ g) : (s.setSema g v).sema j = s.sema j :=
  congrArg (·.getD 0) (Vector.getElem?_setIfInBounds_ne (xs := s.strand.sg) (x := v) (Ne.symm h))

theorem semaphore_lt {g : Nat} {w : Option Word32} {lo : Nat} (hg : g = (w.map fun x => field x lo 6).getD 63) (h : g ≠ 63) :
    g < 63 := by
  cases w with
  | none => exact absurd hg h
  | some x =>
    have := field_lt x lo 6
    simp only [Option.map_some, Option.getD_some] at hg
    omega

section Wait
variable (s : State) (n : BitVec 3) (hlive : s.engineLive n.toNat = true) (hlegal : s.cmdLegal n.toNat = true)
  (hseg : n.toNat = 0 → s.segDue = false) (hphase : (s.engine n.toNat).phase = .start)
include hlive hlegal hseg hphase

/-- Step 1 of a legal command: the semaphore that its sync word names decides. -/
theorem exec_engineSyncWaitDone {g : Nat} (hg : g = ((s.cmdSync n.toNat).map syWait).getD 63) :
    exec (.engineSyncWaitDone n) s = if g = 63 then .next (s.acquired n.toNat)
      else if (s.sema g).toNat ≤ s.waitsAhead g n.toNat then .next s
      else .next ((s.setSema g (s.sema g - 1)).acquired n.toNat) := by
  have hs : (n.toNat == 0 && s.segDue) = false := by
    rcases Nat.eq_zero_or_pos n.toNat with h | h
    · rw [hseg h, Bool.and_false]
    · rw [beq_false_of_ne (by omega), Bool.false_and]
  show execEngineSyncWaitDone n s = _
  rw [execEngineSyncWaitDone, if_neg (by rw [hlive, hlegal, hs]; decide), hphase, ← hg]

end Wait

/-! ### Steps 4 and 5 -/

/-- A change of the segment of engine n and of the arrays alone. -/
def State.segOnly (s : State) (n : Nat) (t : State) : Prop :=
  ∃ g x, t = (s.setEngine n { s.engine n with seg := g }).withArrays x

theorem State.segOnly_refl (s : State) (n : Nat) : s.segOnly n s := ⟨_, _, (s.setEngine_self n).symm⟩

theorem State.segOnly_setArray {s t : State} {n : Nat} (h : s.segOnly n t) (a : MatrixArray) : s.segOnly n (t.setArray a) := by
  obtain ⟨g, x, rfl⟩ := h
  exact ⟨g, _, rfl⟩

theorem State.segOnly_modSeg {s t : State} {n : Nat} (h : s.segOnly n t) (f : Option Segment → Option Segment) (hn : n < 6) :
    s.segOnly n (t.modEngine n fun e => { e with seg := f e.seg }) := by
  obtain ⟨g, x, rfl⟩ := h
  refine ⟨f g, x, ?_⟩
  exact congrArg (·.withArrays x) (s.modEngine_setEngine n { s.engine n with seg := g } (fun e => { e with seg := f e.seg }) hn)

/-- What the end of step 5 changes beside RP: the segment and the array of the quad. -/
theorem State.afterCommand_segOnly (s : State) (n : Nat) : s.segOnly n (s.afterCommand n) := by
  unfold State.afterCommand
  extract_lets t
  have ht : s.segOnly n t := by
    subst t
    split
    · exact State.segOnly_modSeg (s.segOnly_refl 0) _ (by omega)
    · exact s.segOnly_refl _
  clear_value t
  split
  · split
    · extract_lets a
      split
      · exact State.segOnly_modSeg (State.segOnly_setArray ht _) _ (by omega)
      · exact State.segOnly_setArray ht _
    · exact ht
  · exact ht

/-- RP passes the command. -/
def State.passRp (s : State) (n : Nat) : State := ((s.afterCommand n).modEngine n Engine.pass).podDone n

/-- RP passes the command, and the engine of a core whose strand has ended stops there. -/
def State.passCommand (s : State) (n : Nat) : State :=
  if (s.passRp n).core.mode = .idle then (s.passRp n).engineEnded n else s.passRp n

/-- A change of engine n to e, of the arrays and of the replies alone. -/
def State.engineOnly (s : State) (n : Nat) (e : Engine) (t : State) : Prop :=
  ∃ x y, t = (s.setEngine n e).modShare fun z => { z with arrays := x, replies := y }

theorem State.engineOnly_facts {s t : State} {n : Nat} {e : Engine} (h : s.engineOnly n e t) (hn : n < 6) : t.engine n = e ∧
    t.strand = s.strand ∧ t.mem = s.mem ∧ t.core.mode = s.core.mode ∧ t.share.pack = s.share.pack := by
  obtain ⟨x, y, rfl⟩ := h
  exact ⟨State.engine_setEngine_same s n e hn, rfl, rfl, rfl, rfl⟩

theorem State.engineOnly_modEngine {s t : State} {n : Nat} {e : Engine} (h : s.engineOnly n e t) (hn : n < 6)
    (f : Engine → Engine) : s.engineOnly n (f e) (t.modEngine n f) := by
  obtain ⟨x, y, rfl⟩ := h
  exact ⟨x, y, congrArg (·.modShare fun z => { z with arrays := x, replies := y }) (s.modEngine_setEngine n e f hn)⟩

theorem State.passRp_engineOnly (s : State) (n : Nat) (hn : n < 6) :
    ∃ g, s.engineOnly n ({ s.engine n with seg := g } : Engine).pass (s.passRp n) := by
  obtain ⟨g, x, he⟩ := s.afterCommand_segOnly n
  have h : s.engineOnly n { s.engine n with seg := g } (s.afterCommand n) := ⟨x, _, he⟩
  obtain ⟨x, y, h⟩ := State.engineOnly_modEngine h hn Engine.pass
  exact ⟨g, x, _, congrArg (·.podDone n) h⟩

theorem State.engineOnly_ended {s t : State} {n : Nat} {e : Engine} (h : s.engineOnly n e t) (hn : n < 6) :
    s.engineOnly n e.cleared (t.engineEnded n) := by
  refine State.engineOnly_modEngine ?_ hn Engine.cleared
  obtain ⟨x, y, rfl⟩ := h
  split
  · exact ⟨_, _, rfl⟩
  · exact ⟨_, _, rfl⟩

/-- What passing a command leaves as it was, and its engine's pointers. -/
theorem State.passCommand_keeps (s : State) (n : Nat) (hn : n < 6) : ((s.passCommand n).engine n).phase = .start ∧
    (s.core.mode ≠ .idle → ((s.passCommand n).engine n).rp =
      if 1 < (s.engine n).repLeft then (s.engine n).rp else (s.engine n).next) ∧
    (s.core.mode = .idle → ((s.passCommand n).engine n).rp = (s.engine n).wp ∧
      ((s.passCommand n).engine n).wp = (s.engine n).wp) ∧
    (s.passCommand n).strand = s.strand ∧ (s.passCommand n).mem = s.mem ∧ (s.passCommand n).core.mode = s.core.mode ∧
    (s.passCommand n).share.pack = s.share.pack := by
  obtain ⟨g, hg⟩ := s.passRp_engineOnly n hn
  have hmode := (State.engineOnly_facts hg hn).2.2.2.1
  rw [State.passCommand, hmode]
  by_cases hm : s.core.mode = .idle
  · rw [if_pos hm]
    obtain ⟨he, hs, hmem, hmo, hp⟩ := State.engineOnly_facts (State.engineOnly_ended hg hn) hn
    rw [he]
    exact ⟨rfl, fun h => absurd hm h, fun _ => ⟨rfl, rfl⟩, hs, hmem, hmo, hp⟩
  · rw [if_neg hm]
    obtain ⟨he, hs, hmem, hmo, hp⟩ := State.engineOnly_facts hg hn
    rw [he]
    exact ⟨rfl, fun _ => rfl, fun h => absurd h hm, hs, hmem, hmo, hp⟩

/-! ### The release (R317, R321) -/

theorem Package.board_post_same (p : Package) (scope inst : Nat) (sig : BitVec 512) : (p.post scope inst sig).board scope inst =
    ⟨scope, inst, (p.board scope inst).seq + 1, (((p.board scope inst).seq + 1, sig) :: (p.board scope inst).posts).take 64⟩ := by
  simp [Package.post, Package.board]

theorem Package.board_post_ne (p : Package) (scope inst scope' inst' : Nat) (sig : BitVec 512) (h : scope' ≠ scope) :
    (p.post scope inst sig).board scope' inst' = p.board scope' inst' := by
  have hq : (p.boards.filter fun x => !(x.scope == scope && x.inst == inst)).find?
      (fun b => b.scope == scope' && b.inst == inst') = p.boards.find? fun b => b.scope == scope' && b.inst == inst' := by
    rw [List.find?_filter]
    congr 1
    funext b
    by_cases hb : b.scope = scope'
    · simp only [hb, beq_false_of_ne h, Bool.false_and, Bool.not_false, true_and, Bool.decide_eq_true]
    · simp only [beq_false_of_ne hb, Bool.false_and, Bool.false_eq_true, and_false, decide_false]
  rw [Package.post, Package.board, List.find?_cons_of_neg (by simp [Ne.symm h]), hq]
  rfl

/-- Posts from CORE up to a scope: each board takes the signature at its head. -/
theorem Package.board_postUpTo (p : Package) (core scope i : Nat) (sig : BitVec 512) (hi : i ≤ scope) :
    ((p.postUpTo core scope sig).board i (scopeInst i core)).posts.head? =
      some ((p.board i (scopeInst i core)).seq + 1, sig) := by
  have key : ∀ m, ((List.range m).foldl (fun q k => q.post k (scopeInst k core) sig) p).board i (scopeInst i core) =
      if i < m then (p.post i (scopeInst i core) sig).board i (scopeInst i core) else p.board i (scopeInst i core) := by
    intro m
    induction m with
    | zero => rfl
    | succ m ih =>
      rw [List.range_succ, List.foldl_append, List.foldl_cons, List.foldl_nil]
      by_cases him : i = m
      · subst him
        rw [if_neg (by omega)] at ih
        rw [if_pos (by omega), Package.board_post_same, Package.board_post_same, ih]
      · rw [Package.board_post_ne _ m _ i _ sig him, ih]
        simp only [show i < m + 1 ↔ i < m by omega]
  rw [Package.postUpTo, key, if_pos (by omega), Package.board_post_same]
  rfl

/-- Step 4 done: the release posted, where the sync word says so. -/
def State.releasedCommand (s : State) (n : Nat) : State :=
  (match (s.cmdSync n).filter syRel with
    | some w => (s.flushEngine n).engineRelease n (syScope w)
    | none => s).modEngine n fun e => { e with phase := .released }

theorem State.flushEngine_none (s : State) (n : Nat) (h : (s.engine n).writes = []) : s.flushEngine n = s := by
  rw [State.flushEngine, h]

/-- A change of the package's boards and of what the engine has written. -/
theorem State.engineRelease_eq (s : State) (n scope : Nat) : ∃ w, s.engineRelease n scope =
    (s.setEngine n { s.engine n with wrote := w }).modPack fun p => p.postUpTo s.core.id scope (s.engine n).sig := by
  unfold State.engineRelease
  extract_lets t
  split
  · exact ⟨[], rfl⟩
  · exact ⟨(s.engine n).wrote, congrArg (·.modPack fun p => p.postUpTo s.core.id scope (s.engine n).sig) (s.setEngine_self n).symm⟩

/-- What step 4 leaves as it was. -/
theorem State.releasedCommand_keeps (s : State) (n : Nat) (hn : n < 6) (hw : (s.engine n).writes = []) : ∃ wr,
    (s.releasedCommand n).engine n = { s.engine n with phase := .released, wrote := wr } ∧
    (s.releasedCommand n).strand = s.strand ∧ (s.releasedCommand n).mem = s.mem ∧ (s.releasedCommand n).core.id = s.core.id ∧
    (s.releasedCommand n).core.mode = s.core.mode ∧
    (∀ w, s.cmdSync n = some w → syRel w = true →
      (s.releasedCommand n).share.pack = s.share.pack.postUpTo s.core.id (syScope w) (s.engine n).sig) := by
  unfold State.releasedCommand
  rw [s.flushEngine_none n hw]
  cases hf : (s.cmdSync n).filter syRel with
  | none =>
    refine ⟨(s.engine n).wrote, s.engine_modEngine_same n _ hn, rfl, rfl, rfl, rfl, fun w h hr => ?_⟩
    rw [h, Option.filter_some, if_pos hr] at hf
    cases hf
  | some w =>
    obtain ⟨wr, he⟩ := s.engineRelease_eq n (syScope w)
    dsimp only
    rw [he]
    refine ⟨wr, ?_, rfl, rfl, rfl, rfl, fun w' h hr => ?_⟩
    · rw [State.engine_modEngine_same _ n _ hn, modPack_engine, State.engine_setEngine_same s n _ hn]
    · rw [h, Option.filter_some, if_pos hr] at hf
      cases hf
      rfl

theorem State.cmdSync_releasedCommand (s : State) (n : Nat) (hn : n < 6) (hw : (s.engine n).writes = []) :
    (s.releasedCommand n).cmdSync n = s.cmdSync n := by
  obtain ⟨wr, he, -, hm, hid, -⟩ := s.releasedCommand_keeps n hn hw
  have hword : ∀ p, (s.releasedCommand n).ringWord ((s.releasedCommand n).engine n) p = s.ringWord (s.engine n) p := by
    intro p
    rw [State.ringWord, hm, hid, he]
    rfl
  rw [State.cmdSync, State.syncAt, hword, hword, he]
  rfl

section Complete
variable (s : State) (n : BitVec 3) (hlive : s.engineLive n.toNat = true) (hphase : (s.engine n.toNat).phase = .performed)
  (hpod : s.enginePodWrites n.toNat = false) (hw : (s.engine n.toNat).writes = [])
include hlive hphase hpod

theorem exec_engineCommandComplete :
    exec (.engineCommandComplete n) s = .next ((s.releasedCommand n.toNat).raiseAndPass n.toNat) := by
  show execEngineCommandComplete n s = _
  rw [execEngineCommandComplete, if_neg (by rw [hlive]; decide), hphase]
  dsimp only
  rw [if_neg (by rw [hpod, Bool.false_and]; decide)]
  rfl

end Complete

/-! ### The raise (R38) -/

/-- An engine stopped at its command. -/
def Engine.stoppedHere (e : Engine) : Engine := { e with stopped := true, resumeAt := e.phase, got := [], left := [] }

/-- A stop at an overflow leaves the lease as it is. -/
theorem stopEngine_overflow (s : State) (n arg : Nat) (hm : s.core.mode ≠ .idle) : ∃ t : Trap,
    s.stopEngine n 0x20 arg 0 0 false = (s.setEngine n (s.engine n).stoppedHere).pendTrap t ∧ t.code = 0x20 ∧ t.arg = arg := by
  unfold State.stopEngine
  rw [if_neg hm]
  extract_lets e s1 b s2 src
  have hs : s2 = s1 := if_neg (by simp)
  rw [hs]
  exact ⟨_, rfl, rfl, rfl⟩

section Raise
variable (s : State) (n g : Nat) (hg : g = ((s.cmdSync n).map syRaise).getD 63)
include hg

theorem raiseAndPass_none (h : g = 63) : s.raiseAndPass n = s.passCommand n := by
  unfold State.raiseAndPass
  extract_lets g' done
  exact if_pos (hg.symm.trans h)

theorem raiseAndPass_adds (h : g ≠ 63) (hc : s.sema g ≠ 65535) :
    s.raiseAndPass n = (s.setSema g (s.sema g + 1)).passCommand n := by
  unfold State.raiseAndPass
  extract_lets g' done
  obtain rfl : g = g' := hg
  rw [if_neg h, if_neg hc]
  rfl

theorem raiseAndPass_overflows (h : g ≠ 63) (hc : s.sema g = 65535) (hm : s.core.mode ≠ .idle) (hn : n < 6) :
    ∃ t, (s.raiseAndPass n).strand.pend = s.strand.pend ++ [t] ∧ t.code = 0x20 ∧
      t.arg = (s.engine n).rp.toNat * 2 ^ 16 + g ∧ (s.raiseAndPass n).share.pack = s.share.pack ∧
      ((s.raiseAndPass n).engine n).stopped = true ∧ ((s.raiseAndPass n).engine n).overflow = true ∧
      ((s.raiseAndPass n).engine n).rp = (s.engine n).rp := by
  obtain ⟨t, ht, hcode, harg⟩ := stopEngine_overflow s n ((s.engine n).posArg g) hm
  refine ⟨t, ?_⟩
  unfold State.raiseAndPass
  extract_lets g' done u
  obtain rfl : g = g' := hg
  rw [if_neg h, if_pos hc]
  have hu : u = (s.setEngine n (s.engine n).stoppedHere).pendTrap t := ht
  have he : (u.modEngine n fun e => { e with overflow := e.stopped }).engine n =
      { (s.engine n).stoppedHere with overflow := true } := by
    rw [State.engine_modEngine_same u n _ hn, hu]
    exact congrArg (fun e : Engine => { e with overflow := e.stopped }) (State.engine_setEngine_same s n _ hn)
  rw [he]
  refine ⟨?_, hcode, harg, ?_, rfl, rfl, rfl⟩
  · rw [hu]; rfl
  · rw [hu]; rfl

end Raise

/-! ### The statement -/

section Steps
variable (s : State) (n : BitVec 3) (hlive : s.engineLive n.toNat = true)
include hlive

theorem illegalCommandStops (hlegal : s.cmdLegal n.toNat = false) (hphase : (s.engine n.toNat).phase = .start) :
    exec (.illegalCommand n) s = .next (s.stopEngine n.toNat 0x21 ((s.engine n.toNat).rp.toNat * 2 ^ 16) 0 0 false) := by
  show execIllegalCommand n s = _
  rw [execIllegalCommand, if_pos (by rw [hlive, hlegal, hphase]; decide), Engine.posArg, Nat.add_zero]

theorem syncWaitSteps (g : Nat) (hlegal : s.cmdLegal n.toNat = true) (hseg : n.toNat = 0 → s.segDue = false)
    (hphase : (s.engine n.toNat).phase = .start) (hg : g = ((s.cmdSync n.toNat).map syWait).getD 63) :
    (g = 63 → ∃ u, exec (.engineSyncWaitDone n) s = .next u ∧ (u.engine n.toNat).phase = .acquired ∧
      (u.engine n.toNat).rp = (s.engine n.toNat).rp ∧ u.strand.sg = s.strand.sg ∧ u.mem = s.mem) ∧
    (g ≠ 63 → s.waitsAhead g n.toNat < (s.sema g).toNat → ∃ u, exec (.engineSyncWaitDone n) s = .next u ∧
      (u.engine n.toNat).phase = .acquired ∧ (u.engine n.toNat).rp = (s.engine n.toNat).rp ∧ u.sema g = s.sema g - 1 ∧
      (∀ j, j ≠ g → u.sema j = s.sema j) ∧ u.mem = s.mem) ∧
    (g ≠ 63 → (s.sema g).toNat ≤ s.waitsAhead g n.toNat → exec (.engineSyncWaitDone n) s = .next s) := by
  have hn := State.engineLive_lt hlive
  rw [exec_engineSyncWaitDone s n hlive hlegal hseg hphase hg]
  refine ⟨fun h => ?_, fun h hc => ?_, fun h hc => by rw [if_neg h, if_pos hc]⟩
  · rw [if_pos h]
    obtain ⟨hp, hrp, hs, hm⟩ := s.acquired_keeps n.toNat hn
    exact ⟨_, rfl, hp, hrp, congrArg Strand.sg hs, hm⟩
  · rw [if_neg h, if_neg (by omega)]
    obtain ⟨hp, hrp, hs, hm⟩ := (s.setSema g (s.sema g - 1)).acquired_keeps n.toNat hn
    have hsema : ∀ j, ((s.setSema g (s.sema g - 1)).acquired n.toNat).sema j = (s.setSema g (s.sema g - 1)).sema j :=
      fun j => congrArg (fun x : Strand => x.sg[j]?.getD 0) hs
    refine ⟨_, rfl, hp, hrp, ?_, fun j hj => ?_, hm⟩
    · rw [hsema, State.sema_setSema_same s g _ (semaphore_lt hg h)]
    · rw [hsema, State.sema_setSema_ne s g j _ hj]

variable (hphase : (s.engine n.toNat).phase = .performed) (hpod : s.enginePodWrites n.toNat = false)
  (hw : (s.engine n.toNat).writes = [])
include hphase hpod hw

/-- A command that raises nothing passes, whether or not the strand still runs. -/
theorem exec_complete_none (hg : ((s.cmdSync n.toNat).map syRaise).getD 63 = 63) :
    exec (.engineCommandComplete n) s = .next ((s.releasedCommand n.toNat).passCommand n.toNat) := by
  rw [exec_engineCommandComplete s n hlive hphase hpod, raiseAndPass_none _ _ _ rfl]
  rw [State.cmdSync_releasedCommand s _ (State.engineLive_lt hlive) hw, hg]

theorem exec_complete_adds {g : Nat} (hg : g = ((s.cmdSync n.toNat).map syRaise).getD 63) (h : g ≠ 63) (hc : s.sema g ≠ 65535) :
    exec (.engineCommandComplete n) s =
      .next (((s.releasedCommand n.toNat).setSema g (s.sema g + 1)).passCommand n.toNat) := by
  have hn := State.engineLive_lt hlive
  obtain ⟨wr, he, hs, hrest⟩ := s.releasedCommand_keeps n.toNat hn hw
  have hsema : (s.releasedCommand n.toNat).sema g = s.sema g := congrArg (fun x : Strand => x.sg[g]?.getD 0) hs
  rw [exec_engineCommandComplete s n hlive hphase hpod, raiseAndPass_adds _ _ g _ h (by rw [hsema]; exact hc), hsema]
  rw [State.cmdSync_releasedCommand s _ hn hw, hg]

theorem completeIdle (hidle : s.core.mode = .idle) (hg : ((s.cmdSync n.toNat).map syRaise).getD 63 = 63) :
    ∃ u, exec (.engineCommandComplete n) s = .next u ∧ (u.engine n.toNat).rp = (s.engine n.toNat).wp ∧
      (u.engine n.toNat).wp = (s.engine n.toNat).wp ∧ (u.engine n.toNat).phase = .start ∧ u.core.mode = .idle ∧
      u.mem = s.mem := by
  have hn := State.engineLive_lt hlive
  obtain ⟨wr, he, -, hm, -, hmode, -⟩ := s.releasedCommand_keeps n.toNat hn hw
  obtain ⟨hp, -, hptr, -, hmem, hmo, -⟩ := (s.releasedCommand n.toNat).passCommand_keeps n.toNat hn
  have hmode := hmode.trans hidle
  obtain ⟨hrp, hwp⟩ := hptr hmode
  rw [he] at hrp hwp
  exact ⟨_, exec_complete_none s n hlive hphase hpod hw hg, hrp, hwp, hp, hmo.trans hmode, hmem.trans hm⟩

variable (hmode : s.core.mode ≠ .idle)
include hmode

theorem completeNone (hg : ((s.cmdSync n.toNat).map syRaise).getD 63 = 63) :
    ∃ u, exec (.engineCommandComplete n) s = .next u ∧
      (u.engine n.toNat).rp = (if 1 < (s.engine n.toNat).repLeft then (s.engine n.toNat).rp else (s.engine n.toNat).next) ∧
      (u.engine n.toNat).phase = .start ∧ u.strand = s.strand ∧ u.mem = s.mem := by
  have hn := State.engineLive_lt hlive
  obtain ⟨wr, he, hs, hm, -, hmo, -⟩ := s.releasedCommand_keeps n.toNat hn hw
  obtain ⟨hp, hrp, -, hstrand, hmem, -, -⟩ := (s.releasedCommand n.toNat).passCommand_keeps n.toNat hn
  have hrp := hrp (hmo ▸ hmode)
  rw [he] at hrp
  exact ⟨_, exec_complete_none s n hlive hphase hpod hw hg, hrp, hp, hstrand.trans hs, hmem.trans hm⟩

variable {g : Nat} (hg : g = ((s.cmdSync n.toNat).map syRaise).getD 63) (h63 : g ≠ 63)
include hg h63

theorem completeRaises (hc : s.sema g ≠ 65535) : ∃ u, exec (.engineCommandComplete n) s = .next u ∧
    (u.engine n.toNat).rp = (if 1 < (s.engine n.toNat).repLeft then (s.engine n.toNat).rp else (s.engine n.toNat).next) ∧
    (u.engine n.toNat).phase = .start ∧ u.sema g = s.sema g + 1 ∧ (∀ j, j ≠ g → u.sema j = s.sema j) ∧ u.mem = s.mem ∧
    u.regs = s.regs := by
  have hn := State.engineLive_lt hlive
  obtain ⟨wr, he, hs, hm, -, hmo, -⟩ := s.releasedCommand_keeps n.toNat hn hw
  obtain ⟨hp, hrp, -, hstrand, hmem, -, -⟩ :=
    ((s.releasedCommand n.toNat).setSema g (s.sema g + 1)).passCommand_keeps n.toNat hn
  have hrp := hrp (show (s.releasedCommand n.toNat).core.mode ≠ .idle from hmo ▸ hmode)
  have he : ((s.releasedCommand n.toNat).setSema g (s.sema g + 1)).engine n.toNat = _ := he
  have hset : ((s.releasedCommand n.toNat).setSema g (s.sema g + 1)).strand = (s.setSema g (s.sema g + 1)).strand :=
    congrArg (fun x : Strand => { x with sg := x.sg.setIfInBounds g (s.sema g + 1) }) hs
  have hstrand := hstrand.trans hset
  have hsema : ∀ j, (((s.releasedCommand n.toNat).setSema g (s.sema g + 1)).passCommand n.toNat).sema j =
      (s.setSema g (s.sema g + 1)).sema j := fun j => congrArg (fun x : Strand => x.sg[j]?.getD 0) hstrand
  rw [he] at hrp
  refine ⟨_, exec_complete_adds s n hlive hphase hpod hw hg h63 hc, hrp, hp, ?_, fun j hj => ?_, hmem.trans hm,
    (congrArg Strand.regs hstrand).trans rfl⟩
  · rw [hsema, State.sema_setSema_same s g _ (semaphore_lt hg h63)]
  · rw [hsema, State.sema_setSema_ne s g j _ hj]

theorem completeOverflows (hc : s.sema g = 65535) : ∃ u t, exec (.engineCommandComplete n) s = .next u ∧
    (u.engine n.toNat).stopped = true ∧ (u.engine n.toNat).overflow = true ∧
    (u.engine n.toNat).rp = (s.engine n.toNat).rp ∧ u.strand.pend = s.strand.pend ++ [t] ∧ t.code = 0x20 ∧
    t.arg = (s.engine n.toNat).rp.toNat * 2 ^ 16 + g ∧ u.share.pack = (s.releasedCommand n.toNat).share.pack := by
  have hn := State.engineLive_lt hlive
  obtain ⟨wr, he, hs, hm, -, hmo, -⟩ := s.releasedCommand_keeps n.toNat hn hw
  have hsema : (s.releasedCommand n.toNat).sema g = s.sema g := congrArg (fun x : Strand => x.sg[g]?.getD 0) hs
  obtain ⟨t, hpend, hcode, harg, hpack, hst, hov, hrp⟩ := raiseAndPass_overflows (s.releasedCommand n.toNat) n.toNat g
    (by rw [State.cmdSync_releasedCommand s _ hn hw, hg]) h63 (hsema.trans hc) (hmo ▸ hmode) hn
  rw [he] at harg hrp
  exact ⟨_, t, exec_engineCommandComplete s n hlive hphase hpod, hst, hov, hrp, hpend.trans (congrArg (·.pend ++ [t]) hs),
    hcode, harg, hpack⟩

omit h63 in
/-- The boards after the end of a command are those after its release. -/
theorem completePosts : ∃ u, exec (.engineCommandComplete n) s = .next u ∧
    u.share.pack = (s.releasedCommand n.toNat).share.pack := by
  have hn := State.engineLive_lt hlive
  by_cases h63 : g = 63
  · exact ⟨_, exec_complete_none s n hlive hphase hpod hw (hg.symm.trans h63),
      ((s.releasedCommand n.toNat).passCommand_keeps n.toNat hn).2.2.2.2.2.2⟩
  · by_cases hc : s.sema g = 65535
    · obtain ⟨u, t, hu, -, -, -, -, -, -, hpack⟩ := completeOverflows s n hlive hphase hpod hw hmode hg h63 hc
      exact ⟨u, hu, hpack⟩
    · exact ⟨_, exec_complete_adds s n hlive hphase hpod hw hg h63 hc,
        (((s.releasedCommand n.toNat).setSema g (s.sema g + 1)).passCommand_keeps n.toNat hn).2.2.2.2.2.2⟩

end Steps

/-- Settles O14: step by step around the command. -/
theorem engineCommandSteps : Obligations.EngineCommandSteps := by
  rintro s n k e rfl rfl hlive
  refine ⟨fun hlegal hphase => illegalCommandStops s n hlive hlegal hphase,
    fun g hlegal hseg hphase hg => syncWaitSteps s n hlive g hlegal hseg hphase hg,
    fun hphase hpod hw hidle hg => completeIdle s n hlive hphase hpod hw hidle hg,
    fun g hphase hpod hw hmode hg => ⟨fun h => ?_, fun h hc => completeRaises s n hlive hphase hpod hw hmode hg h hc,
      fun h hc => ?_, fun w hsync hrel hscope => ?_⟩⟩
  · obtain ⟨u, hu, hrp, hp, hstrand, hmem⟩ := completeNone s n hlive hphase hpod hw hmode (hg.symm.trans h)
    exact ⟨u, hu, hrp, hp, congrArg Strand.sg hstrand, hmem, congrArg Strand.regs hstrand⟩
  · obtain ⟨u, t, hu, hst, hov, hrp, hpend, hcode, harg, -⟩ := completeOverflows s n hlive hphase hpod hw hmode hg h hc
    exact ⟨u, t, hu, hst, hov, hrp, hpend, hcode, harg⟩
  · obtain ⟨u, hu, hpack⟩ := completePosts s n hlive hphase hpod hw hmode hg
    obtain ⟨wr, -, -, -, -, -, hposted⟩ := s.releasedCommand_keeps n.toNat (State.engineLive_lt hlive) hw
    refine ⟨u, hu, fun i hi => ?_⟩
    rw [hpack, hposted w hsync hrel]
    exact Package.board_postUpTo _ _ _ i _ hi

end Sys2Proof.Machine
end

section
/-!
SUPPORT. Appending to rings (R36, R46, R59, R199, R219): what a drain and a translation leave of the core, the words of a ring, and the
command words that the issue forms write.
-/
namespace Sys2Proof.Machine
open Sys2Proof

/-! ### What an access on the AP's behalf leaves of the core -/

/-- A core but for its monitors, its store buffer with the caches, and its TLB, which are those of another. -/
def Core.withCaches (c d : Core) : Core :=
  { c with
    order := d.order, tlb := d.tlb
    strand := { c.strand with ap := { c.strand.ap with monitor := d.strand.ap.monitor },
                              shadow := { c.strand.shadow with monitor := d.strand.shadow.monitor } } }

/-- The core as it was but for its caches and monitors, and memory still in form. -/
structure State.cachesOnly (s t : State) : Prop where
  core : t.core = s.core.withCaches t.core
  mem : s.mem.wf = true → t.mem.wf = true

namespace State.cachesOnly

theorem of_core {s t : State} (hc : t.core = s.core) (hm : s.mem.wf = true → t.mem.wf = true) : s.cachesOnly t := ⟨by rw [hc]; rfl, hm⟩

theorem refl (s : State) : s.cachesOnly s := of_core rfl id

theorem trans {s t u : State} (h : s.cachesOnly t) (k : t.cachesOnly u) : s.cachesOnly u := by
  refine ⟨?_, fun hs => k.mem (h.mem hs)⟩
  have hk := k.core
  rw [h.core] at hk
  exact hk

variable {s t : State} (h : s.cachesOnly t)
include h

theorem id : t.core.id = s.core.id := by rw [h.core]; rfl
theorem engine : t.engine = s.engine := by unfold State.engine; rw [h.core]; rfl
theorem regs : t.regs = s.regs := by unfold State.regs; rw [h.core]; rfl
theorem queues : t.strand.queues = s.strand.queues := by unfold State.strand; rw [h.core]; rfl
theorem aread (c : Nat) : t.aread c = s.aread c := by
  unfold State.aread State.inShadow State.regs State.strand; rw [h.core]; rfl

end State.cachesOnly

theorem Core.wake_withCaches (c : Core) (sp : Space) (a n : Nat) : c.wake sp a n = c.withCaches (c.wake sp a n) := by
  unfold Core.wake
  split <;> rfl

theorem State.cachesOnly_homeWrite (s : State) (sp : Space) (view : Bool) (a : Nat) (bs : List Byte) :
    s.cachesOnly (s.homeWrite sp view a bs) :=
  ⟨by rw [State.homeWrite_core]; exact s.core.wake_withCaches _ _ _, s.homeWrite_wf sp view a bs⟩

theorem State.cachesOnly_modOrder (s : State) (f : CoreOrder → CoreOrder) : s.cachesOnly (s.modOrder f) := ⟨rfl, id⟩

theorem State.cachesOnly_modShare (s : State) (f : Share → Share) : s.cachesOnly (s.modShare f) := ⟨rfl, id⟩

theorem State.cachesOnly_foldl {α : Type} (f : State → α → State) (hf : ∀ s x, State.cachesOnly s (f s x)) (xs : List α) (s : State) :
    s.cachesOnly (xs.foldl f s) := by
  induction xs generalizing s with
  | nil => exact .refl s
  | cons x xs ih => exact (hf s x).trans (ih _)

/-! ### Performing the older stores -/

theorem State.cachesOnly_writeBack (s : State) (x : L1Sector) : s.cachesOnly (s.writeBack x) := by
  unfold State.writeBack
  split
  · exact .refl s
  · refine State.cachesOnly.trans ⟨?_, fun h => ?_⟩ (State.cachesOnly_modOrder _ _)
    · simp [State.mapCores, State.giveUp]
      rfl
    · rw [State.mapCores_mem, State.clearL2_mem]
      exact Mem.mergeDirty_wf _ x (State.giveUp_wf s _ _ _ _ h)

theorem State.cachesOnly_wakeOwn (s : State) (sp : Space) (a n : Nat) : s.cachesOnly (s.wakeOwn sp a n) :=
  (State.cachesOnly_foldl _ State.cachesOnly_writeBack _ s).trans ⟨Core.wake_withCaches _ sp a n, id⟩

theorem State.cachesOnly_performCached (s : State) (e : StoreEntry) : s.cachesOnly (s.performCached e) := by
  unfold State.performCached
  refine State.cachesOnly.trans ?_ (State.cachesOnly_modOrder _ _)
  have hw := s.cachesOnly_homeWrite e.space e.view e.addr e.data
  split
  · exact hw.trans (State.cachesOnly_modShare _ _)
  · split
    · exact (s.cachesOnly_modOrder _).trans (State.cachesOnly_wakeOwn _ _ _ _)
    · dsimp only
      split
      · exact hw.trans (State.cachesOnly_modOrder _ _)
      · exact hw

theorem State.cachesOnly_performScratch (s : State) (sp : Space) (a : Nat) (bs : List Byte) :
    s.cachesOnly (s.performScratch sp a bs) := (s.cachesOnly_homeWrite sp false a bs).trans (State.cachesOnly_modOrder _ _)

theorem State.cachesOnly_perform (s : State) (e : StoreEntry) : s.cachesOnly (s.perform e) := by
  unfold State.perform
  split
  · exact s.cachesOnly_performCached e
  · exact s.cachesOnly_performCached e
  · exact s.cachesOnly_performScratch ..

theorem State.cachesOnly_storeDone (s : State) : s.cachesOnly s.storeDone := by
  unfold State.storeDone
  split
  · exact .refl s
  · dsimp only
    split
    · exact (s.cachesOnly_modOrder _).trans (State.cachesOnly_modShare _ _)
    · exact s.cachesOnly_modOrder _

theorem State.cachesOnly_performOldest (s : State) : s.cachesOnly s.performOldest := by
  unfold State.performOldest
  split
  · exact .refl s
  · split
    · split_ifs
      · exact s.cachesOnly_storeDone
      · exact .refl s
      · exact .of_core rfl id
    · exact (s.cachesOnly_modOrder _).trans (State.cachesOnly_perform _ _)

theorem State.cachesOnly_drain (n : Nat) (s : State) : s.cachesOnly (State.drain n s) := by
  induction n generalizing s with
  | zero => exact .refl s
  | succ n ih => exact s.cachesOnly_performOldest.trans (ih _)

theorem State.cachesOnly_drainFor (s : State) (sp : Space) (a n : Nat) : s.cachesOnly (s.drainFor sp a n) :=
  State.cachesOnly_drain _ s

/-! ### Translating -/

theorem State.cachesOnly_touchWalk (s : State) (root : Nat) (va : Word) : s.cachesOnly (s.touchWalk root va) := by
  have touch : ∀ (t : State) (a : Nat), t.cachesOnly (t.touchL2 .dev false a) := fun t a => by
    unfold State.touchL2
    split
    · exact .refl t
    · exact t.cachesOnly_modShare _
  unfold State.touchWalk
  split
  · exact .refl s
  · exact State.cachesOnly_foldl _ touch _ s

theorem State.cachesOnly_useLeaf {s t : State} {l : TlbLeaf} {w : Bool} {va : Word} {n : Need} {priv : Bool} {p : Phys}
    (h : s.useLeaf l w va n priv = .ok (p, t)) : s.cachesOnly t := by
  have put : ∀ (u : State) (l : TlbLeaf), u.cachesOnly (u.tlbPut l) := fun u l => ⟨rfl, id⟩
  unfold State.useLeaf at h
  extract_lets pa arg unmapped set at h
  split at h
  · cases h
  · cases h
    split_ifs
    · exact put _ _
    · exact .refl s
    · exact (s.cachesOnly_homeWrite ..).trans (put _ _)

theorem State.cachesOnly_translate {s t : State} {va : Word} {n : Need} {priv : Bool} {p : Phys}
    (h : s.translate va n priv = .ok (p, t)) : s.cachesOnly t := by
  obtain ⟨l, w, u, rfl | rfl, hu⟩ := State.translate_ok h
  · exact State.cachesOnly_useLeaf hu
  · exact (s.cachesOnly_touchWalk _ _).trans (State.cachesOnly_useLeaf hu)

/-! ### Words in memory -/

theorem leBytes_length (n v : Nat) : (leBytes n v).length = n := by
  induction n generalizing v with
  | zero => rfl
  | succ n ih => rw [leBytes, List.length_cons, ih]

theorem leNat_leBytes (n v : Nat) : leNat (leBytes n v) = v % 256 ^ n := by
  induction n generalizing v with
  | zero => simp [leBytes, leNat, Nat.mod_one]
  | succ n ih =>
    rw [leBytes, leNat, ih, BitVec.toNat_ofNat, show 256 ^ (n + 1) = 256 * 256 ^ n from Nat.pow_succ']
    exact Nat.mod_mul.symm

theorem Cells.read_congr {m m' : List Host.Cell} (n : Nat) {a : Nat}
    (h : ∀ b, a ≤ b → b < a + n → Cells.get m b = Cells.get m' b) : Cells.read m a n = Cells.read m' a n := by
  induction n generalizing a with
  | zero => rfl
  | succ n ih => rw [Cells.read, Cells.read, h a (by omega) (by omega), ih fun b h1 h2 => h b (by omega) (by omega)]

/-- Bytes apart from the written ones read as before. -/
theorem Cells.read_write_apart (m : List Host.Cell) (a b n : Nat) (bs : List Byte) (h : b + n ≤ a ∨ a + bs.length ≤ b) :
    Cells.read (Cells.write m a bs) b n = Cells.read m b n :=
  Cells.read_congr n fun c h1 h2 => Cells.get_write_outside m a c bs (by omega)

/-! ### Words in a ring -/

/-- The word of the Chamber at a place. -/
def State.chamWord (s : State) (a : Nat) : Word32 := BitVec.ofNat 32 (leNat (Cells.read s.mem.cham.cells a 4))

theorem State.chamWord_performScratch_same (s : State) (a : Nat) (w : Word32) (h : s.mem.wf = true) :
    (s.performScratch .cham a (leBytes 4 w.toNat)).chamWord a = w := by
  have hc : (s.performScratch .cham a (leBytes 4 w.toNat)).mem.cham.cells = Cells.write s.mem.cham.cells a (leBytes 4 w.toNat) :=
    s.homeWrite_bank .cham false a _ (by decide)
  have hr := Cells.read_write s.mem.cham.cells a (leBytes 4 w.toNat) (Mem.bank_wf s.mem .cham false h)
  rw [leBytes_length] at hr
  rw [State.chamWord, hc, hr, leNat_leBytes]
  apply BitVec.eq_of_toNat_eq
  rw [BitVec.toNat_ofNat]
  omega

theorem State.chamWord_performScratch_apart (s : State) (a b : Nat) (w : Word32) (h : b + 4 ≤ a ∨ a + 4 ≤ b) :
    (s.performScratch .cham a (leBytes 4 w.toNat)).chamWord b = s.chamWord b := by
  have hc : (s.performScratch .cham a (leBytes 4 w.toNat)).mem.cham.cells = Cells.write s.mem.cham.cells a (leBytes 4 w.toNat) :=
    s.homeWrite_bank .cham false a _ (by decide)
  rw [State.chamWord, hc, Cells.read_write_apart _ _ _ _ _ (by rw [leBytes_length]; exact h)]
  rfl

/-- Words written one after the other, each at its place. -/
def putWords (place : Nat → Nat) (ws : List (Word32 × Nat)) (s : State) : State :=
  ws.foldl (fun t x => t.performScratch .cham (place x.2) (leBytes 4 x.1.toNat)) s

theorem State.cachesOnly_putWords (place : Nat → Nat) (ws : List (Word32 × Nat)) (s : State) : s.cachesOnly (putWords place ws s) :=
  State.cachesOnly_foldl _ (fun s _ => s.cachesOnly_performScratch ..) ws s

section Put
variable (place : Nat → Nat) (m : Nat)
  (hd : ∀ i j, i < m → j < m → i ≠ j → place i + 4 ≤ place j ∨ place j + 4 ≤ place i)
include hd

theorem putWords_before (ws : List Word32) (i j : Nat) (s : State) (hj : j < i) (hi : i + ws.length ≤ m) :
    (putWords place (ws.zipIdx i) s).chamWord (place j) = s.chamWord (place j) := by
  induction ws generalizing i s with
  | nil => rfl
  | cons w ws ih =>
    rw [List.length_cons] at hi
    rw [List.zipIdx_cons]
    refine (ih (i + 1) _ (by omega) (by omega)).trans ?_
    exact s.chamWord_performScratch_apart (place i) (place j) w (hd j i (by omega) (by omega) (by omega))

/-- Each place holds its word. -/
theorem putWords_word (ws : List Word32) (i k : Nat) (w : Word32) (s : State) (hs : s.mem.wf = true) (hi : i + ws.length ≤ m)
    (hk : ws[k]? = some w) : (putWords place (ws.zipIdx i) s).chamWord (place (i + k)) = w := by
  induction ws generalizing i k s with
  | nil => cases hk
  | cons x ws ih =>
    rw [List.length_cons] at hi
    rw [List.zipIdx_cons]
    cases k with
    | zero =>
      obtain rfl : x = w := by simpa using hk
      refine (putWords_before place m hd ws (i + 1) i _ (by omega) (by omega)).trans ?_
      exact s.chamWord_performScratch_same (place i) x hs
    | succ k =>
      rw [show i + (k + 1) = i + 1 + k by omega]
      exact ih (i + 1) k _ ((s.cachesOnly_performScratch ..).mem hs) (by omega) (by simpa using hk)

end Put

/-! ### Appending -/

/-- Chamber place of the k-th word from WP of the ring of engine n. -/
def State.ringPlace (s : State) (n k : Nat) : Nat := chamAt s.core.id ((s.engine n).wordOff ((s.engine n).wp + BitVec.ofNat 16 k))

theorem Engine.words_pow (e : Engine) : ∃ k, k ≤ 14 ∧ e.words = 2 ^ k := by
  refine ⟨_, ?_, rfl⟩
  unfold Engine.log2
  have := field_lt e.cfg 23 4
  split <;> omega

/-- Words fewer than the ring holds stand at places apart. -/
theorem State.ringPlace_apart (s : State) (n i j : Nat) (hi : i < (s.engine n).words) (hj : j < (s.engine n).words) (h : i ≠ j) :
    s.ringPlace n i + 4 ≤ s.ringPlace n j ∨ s.ringPlace n j + 4 ≤ s.ringPlace n i := by
  obtain ⟨k, hk, hw⟩ := (s.engine n).words_pow
  have hne : ((s.engine n).wp + BitVec.ofNat 16 i).toNat % (s.engine n).words ≠
      ((s.engine n).wp + BitVec.ofNat 16 j).toNat % (s.engine n).words := by
    have hdvd : (s.engine n).words ∣ 2 ^ 16 := hw ▸ Nat.pow_dvd_pow 2 (by omega)
    simp only [BitVec.toNat_add, BitVec.toNat_ofNat, Nat.add_mod_mod, Nat.mod_mod_of_dvd _ hdvd]
    intro he
    have := (Nat.ModEq.add_left_cancel' (s.engine n).wp.toNat he)
    rw [Nat.ModEq, Nat.mod_eq_of_lt hi, Nat.mod_eq_of_lt hj] at this
    exact h this
  unfold State.ringPlace chamAt Engine.wordOff
  omega

/-- The state after the older stores to the places of m words are performed. -/
def State.ringDrained (s : State) (n m : Nat) : State :=
  (List.range m).foldl (fun t j => t.drainFor .cham (s.ringPlace n j) 4) s

theorem State.cachesOnly_ringDrained (s : State) (n m : Nat) : s.cachesOnly (s.ringDrained n m) :=
  State.cachesOnly_foldl _ (fun t _ => t.cachesOnly_drainFor ..) _ s

/-- The state after words are appended to the ring of engine n. -/
def State.ringAppended (s : State) (n : Nat) (ws : List Word32) : State :=
  (putWords (s.ringPlace n) ws.zipIdx (s.ringDrained n ws.length)).modEngine n fun x => { x with
    wp := x.wp + BitVec.ofNat 16 ws.length
    born := (x.wp, (s.ringDrained n ws.length).clk) :: x.born.filter fun y => (y.1 - x.fp).toNat < x.kept }

section Append
variable (s : State) (n cls : Nat) (ws : List Word32)

theorem appendRing_full (h : (s.engine n).words < (s.engine n).kept + ws.length) :
    appendRing n cls ws s = .error (.block { cls := cls, kind := 3, obj := n, eng := n, rpos := (s.engine n).rp.toNat }) := by
  rw [appendRing, M.get_bind, if_pos h]
  rfl

theorem appendRing_pinned (hroom : (s.engine n).kept + ws.length ≤ (s.engine n).words) (hw : ws ≠ []) (p : Nat)
    (h : s.core.pinnedBy ((s.engine n).wordOff (s.engine n).wp) 4 = some p) :
    appendRing n cls ws s = .error (.block { cls := cls, kind := 4, obj := p }) := by
  obtain ⟨w, rest, rfl⟩ := List.exists_cons_of_ne_nil hw
  have hf : ((List.range (w :: rest).length).findSome? fun k =>
      s.core.pinnedBy ((s.engine n).wordOff ((s.engine n).wp + BitVec.ofNat 16 k)) 4) = some p := by
    rw [List.length_cons, List.range_succ_eq_map, List.findSome?_cons]
    rw [show (s.engine n).wp + BitVec.ofNat 16 0 = (s.engine n).wp from BitVec.add_zero _, h]
  rw [appendRing, M.get_bind, if_neg (by omega)]
  dsimp only
  rw [hf]
  rfl

theorem appendRing_room (hroom : (s.engine n).kept + ws.length ≤ (s.engine n).words) (h : ringReady s n ws.length) :
    appendRing n cls ws s = .ok (.seq, s.ringAppended n ws) := by
  obtain ⟨hpin, hahead⟩ := h
  have hf : ((List.range ws.length).findSome? fun k =>
      s.core.pinnedBy ((s.engine n).wordOff ((s.engine n).wp + BitVec.ofNat 16 k)) 4) = none :=
    List.findSome?_eq_none_iff.2 fun k hk => hpin k (List.mem_range.1 hk)
  have ha : ((List.range ws.length).any fun k => (s.ringDrained n ws.length).storesAhead .cham (s.ringPlace n k) 4) = false :=
    List.any_eq_false.2 fun k hk => ne_true_of_eq_false (hahead k (List.mem_range.1 hk))
  rw [appendRing, M.get_bind, if_neg (by omega)]
  dsimp only
  rw [hf]
  dsimp only
  rw [M.set_bind]
  exact congrFun (if_neg (ne_true_of_eq_false ha)) (s.ringDrained n ws.length)

end Append

/-- What an append leaves, and that what follows it leaves the words and the pointers. -/
theorem State.ringAppended_appended (s : State) (n : Nat) (ws : List Word32) (hn : n < 6) (hs : s.memOk)
    (hl : ws.length ≤ (s.engine n).words) : appended s (s.ringAppended n ws) n ws := by
  have hk := (s.cachesOnly_ringDrained n ws.length).trans
    (State.cachesOnly_putWords (s.ringPlace n) ws.zipIdx (s.ringDrained n ws.length))
  have he : (s.ringAppended n ws).engine n = { s.engine n with
      wp := (s.engine n).wp + BitVec.ofNat 16 ws.length
      born := ((s.engine n).wp, (s.ringDrained n ws.length).clk) ::
        (s.engine n).born.filter fun y => (y.1 - (s.engine n).fp).toNat < (s.engine n).kept } := by
    rw [State.ringAppended, State.engine_modEngine_same _ n _ hn, hk.engine]
  refine ⟨by rw [he], fun k w hw => ?_, by rw [he], by rw [he], by rw [he],
    fun m hm => (State.engine_setEngine_ne _ n m _ hm).trans (congrFun hk.engine m), hk.regs, hk.queues⟩
  have hword := putWords_word (s.ringPlace n) (s.engine n).words (s.ringPlace_apart n) ws 0 k w (s.ringDrained n ws.length)
    ((s.cachesOnly_ringDrained n ws.length).mem hs) (by omega) hw
  rw [Nat.zero_add] at hword
  rw [he]
  show State.chamWord (putWords (s.ringPlace n) ws.zipIdx (s.ringDrained n ws.length)) (chamAt (putWords (s.ringPlace n) ws.zipIdx
    (s.ringDrained n ws.length)).core.id ((s.engine n).wordOff ((s.engine n).wp + BitVec.ofNat 16 k))) = w
  rw [hk.id]
  exact hword

theorem appended_modEngine {s t : State} {n : Nat} {ws : List Word32} (h : appended s t n ws) (hn : n < 6) (f : Engine → Engine)
    (hf : ∀ e : Engine, (f e).wp = e.wp ∧ (f e).rp = e.rp ∧ (f e).fp = e.fp ∧ (f e).cfg = e.cfg) :
    appended s (t.modEngine n f) n ws := by
  obtain ⟨hwp, hword, hrp, hfp, hcfg, hother, hregs, hq⟩ := h
  obtain ⟨fwp, frp, ffp, fcfg⟩ := hf (t.engine n)
  have he := t.engine_modEngine_same n f hn
  refine ⟨by rw [he, fwp, hwp], fun k w hk => ?_, by rw [he, frp, hrp], by rw [he, ffp, hfp], by rw [he, fcfg, hcfg],
    fun m hm => (t.engine_setEngine_ne n m _ hm).trans (hother m hm), hregs, hq⟩
  have hoff : ∀ p, (f (t.engine n)).wordOff p = (t.engine n).wordOff p := fun p => by
    simp only [Engine.wordOff, Engine.base, Engine.words, Engine.log2, fcfg]
  rw [he, State.ringWord, hoff]
  exact hword k w hk

/-! ### Command words -/

theorem toNat_cat {m k n : Nat} (x : BitVec m) (y : BitVec k) (h : m + k = n) :
    (cat x y h).toNat = x.toNat * 2 ^ k + y.toNat := by
  rw [cat, BitVec.toNat_cast, BitVec.toNat_append, ← Nat.shiftLeft_add_eq_or_of_lt y.isLt, Nat.shiftLeft_eq]

/-- A command word of a form with an operation, X, a tile and a block in units of 32 bytes. -/
theorem cat_block18 (mo : BitVec 7) (x : BitVec 1) (t : BitVec 6) (o : Nat) (h : o < 2 ^ 18) :
    (cat mo (cat x (cat t (BitVec.ofNat 18 o) rfl) rfl) rfl : Word32) =
      BitVec.ofNat 32 (mo.toNat * 2 ^ 25 + t.toNat * 2 ^ 18 + 0 * 2 ^ 16 + o + x.toNat * 2 ^ 24) := by
  apply BitVec.eq_of_toNat_eq
  simp only [toNat_cat, BitVec.toNat_ofNat]
  omega

/-- A command word without a tile. -/
theorem cat_block (x : BitVec 1) (o : Nat) (h : o < 2 ^ 18) :
    (cat 64#7 (cat x (cat 0#6 (BitVec.ofNat 18 o) rfl) rfl) rfl : Word32) = BitVec.ofNat 32 (64 * 2 ^ 25 + o + x.toNat * 2 ^ 24) := by
  apply BitVec.eq_of_toNat_eq
  simp only [toNat_cat, BitVec.toNat_ofNat]
  omega

/-- A command word of a form with headroom and a block in units of 128 bytes. -/
theorem cat_block16 (mo : BitVec 7) (x : BitVec 1) (t : BitVec 6) (h : BitVec 2) (o : Nat) (ho : o < 2 ^ 16) :
    (cat mo (cat x (cat t (cat h (BitVec.ofNat 16 o) rfl) rfl) rfl) rfl : Word32) =
      BitVec.ofNat 32 (mo.toNat * 2 ^ 25 + t.toNat * 2 ^ 18 + h.toNat * 2 ^ 16 + o + x.toNat * 2 ^ 24) := by
  apply BitVec.eq_of_toNat_eq
  simp only [toNat_cat, BitVec.toNat_ofNat]
  omega

theorem cat_convert (x : BitVec 1) (h : BitVec 2) (r : BitVec 3) (o : Nat) (ho : o < 2 ^ 18) :
    (cat 64#7 (cat x (cat h (cat r (cat 0#1 (BitVec.ofNat 18 o) rfl) rfl) rfl) rfl) rfl : Word32) =
      BitVec.ofNat 32 (64 * 2 ^ 25 + h.toNat * 2 ^ 22 + r.toNat * 2 ^ 19 + o + x.toNat * 2 ^ 24) := by
  apply BitVec.eq_of_toNat_eq
  simp only [toNat_cat, BitVec.toNat_ofNat]
  omega

theorem cat_nearBank (r : Nat) (h : r < 2 ^ 24) :
    (cat 64#7 (cat 1#1 (BitVec.ofNat 24 r) rfl) rfl : Word32) = BitVec.ofNat 32 (64 * 2 ^ 25 + 2 ^ 24 + r) := by
  apply BitVec.eq_of_toNat_eq
  simp only [toNat_cat, BitVec.toNat_ofNat]
  omega

/-! ### Issue forms with a block -/

/-- What an issue form with a block does: its offset checked, then its command and sync word appended. -/
def issueBlock (f : IssueForm) (base : Nat) (a b : BitVec 6) : M Flow := do
  let off ← rdA a
  checkBlock off f.align f.largest
  issueCmd f.ring (base + off.toNat / f.align) b

/-- An issue form is its row of `issueForms`: what it runs, and the command word for every block number that it lets by. -/
structure IssueRow (f : IssueForm) (base : Nat) (a b : BitVec 6) : Prop where
  ring : f.ring < 6
  runs : ∀ s, exec f.word s = runAp f.word (issueBlock f base a b) s
  command : ∀ (x : BitVec 1) (o : Nat), o ≤ f.largest / f.align →
    (encode (f.cmd x o)).headD 0 = BitVec.ofNat 32 (base + o + x.toNat * 2 ^ 24)

/-- A row whose block number has 18 bits. -/
theorem issueRow_block18 (f : IssueForm) (mo : BitVec 7) (t a b : BitVec 6) (hr : f.ring < 6)
    (hs : ∀ s, exec f.word s = runAp f.word (issueBlock f (mo.toNat * 2 ^ 25 + t.toNat * 2 ^ 18 + 0 * 2 ^ 16) a b) s)
    (hl : f.largest / f.align < 2 ^ 18)
    (hc : ∀ x o, encode (f.cmd x o) = [cat mo (cat x (cat t (BitVec.ofNat 18 o) rfl) rfl) rfl]) : ∃ base, IssueRow f base a b :=
  ⟨_, hr, hs, fun x o h => (congrArg (·.headD 0) (hc x o)).trans (cat_block18 mo x t o (by omega))⟩

/-- A row with headroom. -/
theorem issueRow_block16 (f : IssueForm) (mo : BitVec 7) (t a b : BitVec 6) (h : BitVec 2) (hr : f.ring < 6)
    (hs : ∀ s, exec f.word s = runAp f.word (issueBlock f (mo.toNat * 2 ^ 25 + t.toNat * 2 ^ 18 + h.toNat * 2 ^ 16) a b) s)
    (hl : f.largest / f.align < 2 ^ 16)
    (hc : ∀ x o, encode (f.cmd x o) = [cat mo (cat x (cat t (cat h (BitVec.ofNat 16 o) rfl) rfl) rfl) rfl]) :
    ∃ base, IssueRow f base a b :=
  ⟨_, hr, hs, fun x o ho => (congrArg (·.headD 0) (hc x o)).trans (cat_block16 mo x t h o (by omega))⟩

/-- A row of the copy or work rings. -/
theorem issueRow_block (f : IssueForm) (a b : BitVec 6) (hr : f.ring < 6)
    (hs : ∀ s, exec f.word s = runAp f.word (issueBlock f (64 * 2 ^ 25) a b) s) (hl : f.largest / f.align < 2 ^ 18)
    (hc : ∀ x o, encode (f.cmd x o) = [cat 64#7 (cat x (cat 0#6 (BitVec.ofNat 18 o) rfl) rfl) rfl]) : ∃ base, IssueRow f base a b :=
  ⟨_, hr, hs, fun x o h => (congrArg (·.headD 0) (hc x o)).trans (cat_block x o (by omega))⟩

/-- A row of the converter's ring. -/
theorem issueRow_convert (f : IssueForm) (a b : BitVec 6) (h : BitVec 2) (r : BitVec 3) (hr : f.ring < 6)
    (hs : ∀ s, exec f.word s = runAp f.word (issueBlock f (64 * 2 ^ 25 + h.toNat * 2 ^ 22 + r.toNat * 2 ^ 19) a b) s)
    (hl : f.largest / f.align < 2 ^ 18)
    (hc : ∀ x o, encode (f.cmd x o) = [cat 64#7 (cat x (cat h (cat r (cat 0#1 (BitVec.ofNat 18 o) rfl) rfl) rfl) rfl) rfl]) :
    ∃ base, IssueRow f base a b :=
  ⟨_, hr, hs, fun x o ho => (congrArg (·.headD 0) (hc x o)).trans (cat_convert x h r o (by omega))⟩

theorem issueForms_rows (t a b : BitVec 6) (n : BitVec 1) (r : BitVec 3) : ∀ f ∈ issueForms t a b n r, ∃ base, IssueRow f base a b := by
  simp only [issueForms, List.forall_mem_cons, List.not_mem_nil, false_imp_iff, implies_true, and_true]
  refine ⟨?_, ?_, ?_, ?_, ?_, ?_, ?_, ?_, ?_, ?_, ?_, ?_, ?_, ?_, ?_, ?_⟩
  · exact issueRow_block18 _ 64#7 t a b (by norm_num) (fun _ => rfl) (by norm_num) fun _ _ => rfl
  · exact issueRow_block18 _ 65#7 t a b (by norm_num) (fun _ => rfl) (by norm_num) fun _ _ => rfl
  · exact issueRow_block18 _ 66#7 t a b (by norm_num) (fun _ => rfl) (by norm_num) fun _ _ => rfl
  · exact issueRow_block18 _ 69#7 t a b (by norm_num) (fun _ => rfl) (by norm_num) fun _ _ => rfl
  · exact issueRow_block18 _ 70#7 0#6 a b (by norm_num) (fun _ => rfl) (by norm_num) fun _ _ => rfl
  · exact issueRow_block16 _ 67#7 t a b 0#2 (by norm_num) (fun _ => rfl) (by norm_num) fun _ _ => rfl
  · exact issueRow_block16 _ 68#7 t a b 0#2 (by norm_num) (fun _ => rfl) (by norm_num) fun _ _ => rfl
  · exact issueRow_block16 _ 67#7 t a b 1#2 (by norm_num) (fun _ => rfl) (by norm_num) fun _ _ => rfl
  · exact issueRow_block16 _ 68#7 t a b 1#2 (by norm_num) (fun _ => rfl) (by norm_num) fun _ _ => rfl
  · exact issueRow_block16 _ 67#7 t a b 2#2 (by norm_num) (fun _ => rfl) (by norm_num) fun _ _ => rfl
  · exact issueRow_block16 _ 68#7 t a b 2#2 (by norm_num) (fun _ => rfl) (by norm_num) fun _ _ => rfl
  · exact issueRow_block _ a b (show 1 + n.toNat < 6 by omega) (fun _ => rfl) (by norm_num) fun _ _ => rfl
  · exact issueRow_convert _ a b 0#2 r (by norm_num) (fun _ => rfl) (by norm_num) fun _ _ => rfl
  · exact issueRow_convert _ a b 1#2 r (by norm_num) (fun _ => rfl) (by norm_num) fun _ _ => rfl
  · exact issueRow_convert _ a b 2#2 r (by norm_num) (fun _ => rfl) (by norm_num) fun _ _ => rfl
  · exact issueRow_block _ a b (by norm_num) (fun _ => rfl) (by norm_num) fun _ _ => rfl

/-! ### What an issue form does -/

/-- The command and the sync word that an issue form appends. -/
def issueWords (f : IssueForm) (s : State) (off : Nat) (b : BitVec 6) : List Word32 :=
  (encode (f.cmd (if b = 0#6 then 0 else 1) (off / f.align))).headD 0 :: (if b = 0#6 then [] else [(s.aread b.toNat).setWidth 32])

/-- The command word takes X by its sync register, and the sync word follows. -/
theorem issueCmd_appends (n cmd : Nat) (b : BitVec 6) (s : State) : issueCmd n cmd b s =
    appendRing n 0 (BitVec.ofNat 32 (cmd + (if b = 0#6 then 0#1 else 1#1).toNat * 2 ^ 24) ::
      (if b = 0#6 then [] else [(s.aread b.toNat).setWidth 32])) s := by
  by_cases hb : b = 0#6
  · rw [if_pos hb, if_pos hb, show (0#1).toNat * 2 ^ 24 = 0 from Nat.zero_mul _, Nat.add_zero]
    exact congrFun (if_pos hb) s
  · rw [if_neg hb, if_neg hb, show (1#1).toNat * 2 ^ 24 = 2 ^ 24 from Nat.one_mul _]
    exact congrFun (if_neg hb) s

section Issue
variable {f : IssueForm} {base : Nat} {a b : BitVec 6} (s : State) {off : Nat} (hoff : off = (s.aread a.toNat).toNat)
include hoff

theorem issueBlock_misaligned (h : off % f.align ≠ 0) : issueBlock f base a b s = .error (.trap none (mkTrap .p 0x10 0)) := by
  subst hoff
  have hc : ((s.aread a.toNat).toNat % f.align != 0) = true := bne_iff_ne.2 h
  show (checkBlock (s.aread a.toNat) f.align f.largest >>= fun _ => _) s = _
  rw [checkBlock, hc]
  rfl

theorem issueBlock_outside (h : off % f.align = 0) (hl : f.largest < off) :
    issueBlock f base a b s = .error (.trap none (mkTrap .p 0x11 0)) := by
  subst hoff
  have hc : ((s.aread a.toNat).toNat % f.align != 0) = false := bne_eq_false_iff_eq.2 h
  show (checkBlock (s.aread a.toNat) f.align f.largest >>= fun _ => _) s = _
  rw [checkBlock, hc, decide_eq_true hl]
  rfl

theorem issueBlock_appends (hrow : IssueRow f base a b) (h : off % f.align = 0) (hl : off ≤ f.largest) :
    issueBlock f base a b s = appendRing f.ring 0 (issueWords f s off b) s := by
  subst hoff
  have hc : ((s.aread a.toNat).toNat % f.align != 0) = false := bne_eq_false_iff_eq.2 h
  have hcmd := fun x => hrow.command x _ (Nat.div_le_div_right (c := f.align) hl)
  show (checkBlock (s.aread a.toNat) f.align f.largest >>= fun _ => _) s = _
  rw [checkBlock, hc, decide_eq_false (by omega)]
  rw [issueWords, hcmd]
  exact issueCmd_appends f.ring _ b s

end Issue

theorem issueFormsAppend (s : State) (t a b : BitVec 6) (n : BitVec 1) (r : BitVec 3) (f : IssueForm)
    (hf : f ∈ issueForms t a b n r) (h : s.apRuns f.word) (off : Nat) (ws : List Word32) (hoff : off = (s.aread a.toNat).toNat)
    (hws : ws = issueWords f s off b) :
    (off % f.align ≠ 0 → exec f.word s = .next (s.takeTrap (mkTrap .p 0x10 0))) ∧
    (off % f.align = 0 → f.largest < off → exec f.word s = .next (s.takeTrap (mkTrap .p 0x11 0))) ∧
    (off % f.align = 0 → off ≤ f.largest → s.memOk → ringReady s f.ring ws.length →
      (s.engine f.ring).kept + ws.length ≤ (s.engine f.ring).words →
      ∃ u, exec f.word s = .next (s.after u f.word .seq) ∧ appended s u f.ring ws) ∧
    (off % f.align = 0 → off ≤ f.largest → (s.engine f.ring).words < (s.engine f.ring).kept + ws.length →
      exec f.word s = .next (s.blockAp
        { cls := 0, kind := 3, obj := f.ring, eng := f.ring, rpos := (s.engine f.ring).rp.toNat })) ∧
    (∀ p, off % f.align = 0 → off ≤ f.largest → (s.engine f.ring).kept + ws.length ≤ (s.engine f.ring).words →
      s.core.pinnedBy ((s.engine f.ring).wordOff (s.engine f.ring).wp) 4 = some p →
      exec f.word s = .next (s.blockAp { cls := 0, kind := 4, obj := p })) := by
  subst hws
  obtain ⟨base, hrow⟩ := issueForms_rows t a b n r f hf
  rw [hrow.runs]
  refine ⟨fun h0 => runAp_trap _ _ s none _ h (issueBlock_misaligned s hoff h0),
    fun h0 hl => runAp_trap _ _ s none _ h (issueBlock_outside s hoff h0 hl), fun h0 hl hm hready hroom => ?_,
    fun h0 hl hfull => ?_, fun p h0 hl hroom hp => ?_⟩
  · exact ⟨_, runAp_after _ _ s _ .seq h ((issueBlock_appends s hoff hrow h0 hl).trans (appendRing_room s _ 0 _ hroom hready)),
      s.ringAppended_appended _ _ hrow.ring hm (by omega)⟩
  · exact runAp_block _ _ s _ h ((issueBlock_appends s hoff hrow h0 hl).trans (appendRing_full s _ 0 _ hfull))
  · exact runAp_block _ _ s _ h ((issueBlock_appends s hoff hrow h0 hl).trans
      (appendRing_pinned s _ 0 _ hroom (List.cons_ne_nil _ _) p hp))

/-! ### `rapp` -/

/-- What a legal word on the AP keeps of the encoding's rules. -/
theorem strandWf_of_apRuns {s : State} {i : Instr} (h : s.apRuns i) : strandWf i = true := by
  obtain ⟨-, -, hl, -⟩ := (apRuns_iff s i).1 h
  rw [apLegal, Bool.and_eq_true] at hl
  obtain ⟨-, hl⟩ := hl
  cases hsh : s.inShadow
  · simp only [hsh, Bool.false_eq_true, if_false, Bool.and_eq_true] at hl
    exact hl.1.1
  · simp only [hsh, if_true, shadowWf, Bool.and_eq_true] at hl
    exact hl.1.1

theorem rapp_ring (s : State) (n : BitVec 3) (a : BitVec 6) (w : BitVec 4) (h : s.apRuns (.rapp n a w)) : n.toNat < 6 :=
  of_decide_eq_true (strandWf_of_apRuns h)

theorem rappAppends (s : State) (n : BitVec 3) (a : BitVec 6) (w : BitVec 4) (ws : List Word32) (h : s.apRuns (.rapp n a w))
    (hm : s.memOk) (hws : ws = (if bit (s.aread a.toNat) 24 then [(s.aread a.toNat).setWidth 32, bits (s.aread a.toNat) 32 32]
      else [(s.aread a.toNat).setWidth 32])) :
    ((s.engine n.toNat).kept + ws.length ≤ (s.engine n.toNat).words → ringReady s n.toNat ws.length →
      ∃ u, exec (.rapp n a w) s = .next (s.after u (.rapp n a w) .seq) ∧ appended s u n.toNat ws) ∧
    ((s.engine n.toNat).words < (s.engine n.toNat).kept + ws.length →
      exec (.rapp n a w) s = .next (s.blockAp
        { cls := w.toNat, kind := 3, obj := n.toNat, eng := n.toNat, rpos := (s.engine n.toNat).rp.toNat })) := by
  have hrun : exec (.rapp n a w) s = runAp (.rapp n a w) (fun s => appendRing n.toNat w.toNat
      (if bit (s.aread a.toNat) 24 then [(s.aread a.toNat).setWidth 32, bits (s.aread a.toNat) 32 32]
        else [(s.aread a.toNat).setWidth 32]) s) s := rfl
  rw [hrun]
  subst hws
  refine ⟨fun hroom hready => ⟨_, runAp_after _ _ s _ .seq h (appendRing_room s _ _ _ hroom hready),
    s.ringAppended_appended _ _ (rapp_ring s n a w h) hm (by omega)⟩, fun hfull => runAp_block _ _ s _ h (appendRing_full s _ _ _ hfull)⟩

/-! ### `nbmv` and `nbmva` -/

theorem rdA_run (c : BitVec 6) (s : State) : rdA c s = .ok (s.aread c.toNat, s) := rfl

theorem trapIf_false (code arg : Nat) (s : State) : trapIf false code arg s = .ok ((), s) := rfl

/-- The words of a product: its command, and the slot, the descriptor and the switches. -/
def nearBankWords (acc : Nat) (k : BitVec 3) (fz off j pa first : Nat) (sw : Nat) : List Word32 :=
  [BitVec.ofNat 32 (64 * 2 ^ 25 + 2 ^ 24 + k.toNat * 2 ^ 21 + acc * 2 ^ 20 + fz * 2 ^ 19 + off / 32),
    BitVec.ofNat 32 (j * 2 ^ 26 + (pa - first) / 64 * 2 ^ 19 + sw)]

theorem issueNb_appends (s t : State) (acc : Nat) (d a b : BitVec 6) (k : BitVec 3) (j : Nat) (p : Phys) (hm : s.memOk)
    (hd : field (s.aread d.toNat) 0 6 = 0) (hoff : (s.aread a.toNat).toNat % 32 = 0) (hl : (s.aread a.toNat).toNat ≤ 0x7FFFC0)
    (htr : s.translate (s.aread d.toNat) readNeed s.privileged = .ok (p, t)) (hslot : t.slotHolding p.pa = some j)
    (hstack : (t.slot j).stack = dieOf s.core.id) (hready : ringReady t 4 2) (hroom : (t.engine 4).kept + 2 ≤ (t.engine 4).words)
    {ws : List Word32} (hws : ws = nearBankWords acc k (if s.ftzAp then 1 else 0) (s.aread a.toNat).toNat j p.pa (t.slot j).first
      (if b = 0#6 then 0xFFF else field (s.aread b.toNat) 0 19)) :
    ∃ u, issueNb acc d a b k s = .ok (.seq, u) ∧ appended t u 4 ws := by
  have hk := State.cachesOnly_translate htr
  have h0 : (field (s.aread d.toNat) 0 6 != 0 || field (s.aread a.toNat) 0 5 != 0) = false := by
    rw [hd, field_low, show 2 ^ 5 = 32 from rfl, hoff]
    rfl
  have hftz : t.ftzAp = s.ftzAp := congrArg (fun r : Regs => bit r.aflagsAp 16) hk.regs
  have htm : translate (s.aread d.toNat) readNeed s = .ok (p, t) := by
    rw [translate, htr]
  have hmt : t.memOk := hk.mem hm
  have happ := appendRing_room t 4 0 ws (by rw [hws]; exact hroom) (by rw [hws]; exact hready)
  have hword := t.ringAppended_appended 4 ws (by omega) hmt (by rw [hws]; exact Nat.le_trans (Nat.le_add_left _ _) hroom)
  rw [← hftz, ← hk.aread b.toNat] at hws
  rw [issueNb, M.bind_ok (rdA_run d s), M.bind_ok (rdA_run a s), h0, decide_eq_false (by omega), M.bind_ok (trapIf_false _ _ s),
    M.bind_ok (trapIf_false _ _ s), M.bind_ok htm, M.get_bind, hslot]
  dsimp only
  rw [if_neg (by rw [hk.id]; exact not_not.2 hstack), M.bind_ok (rdA_run b t)]
  rw [nearBankWords] at hws
  rw [← hws, M.bind_ok happ]
  cases t.tlbFind false (vaNat (s.aread d.toNat)) with
  | none => exact ⟨_, rfl, hword⟩
  | some l =>
    exact ⟨_, rfl, appended_modEngine hword (by omega) (fun x => x.hold (t.engine 4).wp l) fun e => ⟨rfl, rfl, rfl, rfl⟩⟩

/-- The command word of a product. -/
theorem nearBankWords_command (acc : Nat) (k : BitVec 3) (fz : Bool) (off j pa first sw : Nat) (ha : acc ≤ 1) (hl : off ≤ 0x7FFFC0) :
    nearBankWords acc k (if fz then 1 else 0) off j pa first sw =
      [(encode (.nbq 1 (BitVec.ofNat 24 (k.toNat * 2 ^ 21 + acc * 2 ^ 20 + (if fz then 2 ^ 19 else 0) + off / 32)))).headD 0,
        BitVec.ofNat 32 (j * 2 ^ 26 + (pa - first) / 64 * 2 ^ 19 + sw)] := by
  have hf : (if fz then 1 else 0) * 2 ^ 19 = if fz then 2 ^ 19 else 0 := by cases fz <;> rfl
  have hlt : k.toNat * 2 ^ 21 + acc * 2 ^ 20 + (if fz then 2 ^ 19 else 0) + off / 32 < 2 ^ 24 := by
    have : (if fz then 2 ^ 19 else 0) ≤ 2 ^ 19 := by cases fz <;> simp
    omega
  have hw := cat_nearBank _ hlt
  have he : (encode (.nbq 1 (BitVec.ofNat 24 (k.toNat * 2 ^ 21 + acc * 2 ^ 20 + (if fz then 2 ^ 19 else 0) + off / 32)))).headD 0 =
      BitVec.ofNat 32 (64 * 2 ^ 25 + 2 ^ 24 + (k.toNat * 2 ^ 21 + acc * 2 ^ 20 + (if fz then 2 ^ 19 else 0) + off / 32)) := hw
  rw [he, nearBankWords, hf]
  simp only [Nat.add_assoc]

/-- Both forms are `issueNb`. -/
theorem exec_nearBank (d a b : BitVec 6) (k : BitVec 3) : ∀ i ∈ [(Instr.nbmv d a b k, 0), (.nbmva d a b k, 1)],
    i.2 ≤ 1 ∧ ∀ s, exec i.1 s = runAp i.1 (issueNb i.2 d a b k) s := by
  simp only [List.forall_mem_cons, List.not_mem_nil, false_imp_iff, implies_true, and_true]
  exact ⟨⟨Nat.zero_le _, fun _ => rfl⟩, Nat.le_refl _, fun _ => rfl⟩

/-- Settles O12: the forms with a block, then `rapp`, then the near-bank forms. -/
theorem issueFormsAppendCommands : Obligations.IssueFormsAppendCommands := by
  refine ⟨fun s t a b n r f hf h off ws hoff hws => issueFormsAppend s t a b n r f hf h off ws hoff hws,
    fun s n a w ws h hm hws => rappAppends s n a w ws h hm hws, ?_⟩
  rintro s t d a b k off j p i hi h hm rfl hd hoff hl htr hslot hstack hready hroom
  obtain ⟨hacc, hrun⟩ := exec_nearBank d a b k i hi
  obtain ⟨u, hu, happ⟩ := issueNb_appends s t i.2 d a b k j p hm hd hoff hl htr hslot hstack hready hroom rfl
  rw [nearBankWords_command _ _ _ _ _ _ _ _ hacc hl] at happ
  exact ⟨u, (hrun s).trans (runAp_after _ _ s u .seq h hu), happ⟩

end Sys2Proof.Machine
end

section
/-!
SUPPORT. The commands of rings 1 to 5 in step 3, and the bytes that a plain copy moves (R37, R163, R201, R204, R238 to R241, R294).
-/
namespace Sys2Proof.Machine
open Sys2Proof

/-! ### The end of step 3 -/

theorem State.stood_keeps (s : State) (n : Nat) :
    (s.stood n).mem = s.mem ∧ (s.stood n).regs = s.regs ∧ (s.stood n).share = s.share := by
  unfold State.stood
  split <;> exact ⟨rfl, rfl, rfl⟩

/-- Step 3 closed: the command is performed, and memory, registers and what cores share stand. -/
theorem State.engPerformed_keeps (s : State) (n : Nat) (hn : n < 6) : ((s.engPerformed n).engine n).phase = .performed ∧
    (s.engPerformed n).mem = s.mem ∧ (s.engPerformed n).regs = s.regs ∧ (s.engPerformed n).share = s.share := by
  obtain ⟨hm, hr, hs⟩ := s.stood_keeps n
  refine ⟨?_, hm, hr, hs⟩
  rw [State.engPerformed, State.engine_modEngine_same _ n _ hn]

theorem State.cachesOnly_performEngine (s : State) (w : EngineWrite) : s.cachesOnly (s.performEngine w) := by
  have hw : s.cachesOnly (s.engineWrite w.space w.view w.addr w.data) := by
    unfold State.engineWrite
    dsimp only
    split
    · exact (s.cachesOnly_homeWrite ..).trans ⟨rfl, fun h => h⟩
    · exact s.cachesOnly_homeWrite ..
  have hp : ∀ (t : State) i p, t.cachesOnly (t.setPoison w.space w.view i p) := fun t i p =>
    .of_core rfl (t.setPoison_wf _ _ i p)
  unfold State.performEngine
  refine hw.trans ?_
  dsimp only
  split
  · split
    · exact (hp _ _ _).trans (State.cachesOnly_modShare _ _)
    · exact State.cachesOnly_modShare _ _
  · split
    · exact hp _ _ _
    · exact .refl _

theorem State.flushEngine_regs (s : State) (n : Nat) : (s.flushEngine n).regs = s.regs := by
  unfold State.flushEngine
  split
  · rfl
  · exact (State.cachesOnly_foldl _ State.cachesOnly_performEngine _ s).regs

theorem State.engineWrite_regs (s : State) (sp : Space) (view : Bool) (a : Nat) (bs : List Byte) :
    (s.engineWrite sp view a bs).regs = s.regs := by
  unfold State.engineWrite
  dsimp only
  split
  · exact (s.cachesOnly_homeWrite ..).regs
  · exact (s.cachesOnly_homeWrite ..).regs

theorem State.copyWord_keeps (s : State) (n o v : Nat) (hn : n < 6) : ((s.copyWord n o v).engine n).phase = .performed ∧
    (s.copyWord n o v).mem = ((s.flushEngine n).engineWrite .cham false (chamAt s.core.id o) (leBytes 8 v)).mem ∧
    (s.copyWord n o v).regs = s.regs := by
  obtain ⟨hp, hm, hr, -⟩ := ((s.flushEngine n).engineWrite .cham false (chamAt s.core.id o) (leBytes 8 v)).engPerformed_keeps n hn
  exact ⟨hp, hm, hr.trans ((State.engineWrite_regs ..).trans (s.flushEngine_regs n))⟩

/-! ### Copies -/

section Cpq
variable {s : State} {n : Nat} {x : BitVec 1} {b : BitVec 18} (hon : s.onEngine = some n) (hlive : s.engineLive n = true)
  (hphase : (s.engine n).phase = .acquired) (hwf : engineWf (.cpq x b) = true)
include hon hlive hphase hwf

/-- A copy that the engine may carry out is its step 3. -/
theorem exec_cpq : exec (.cpq x b) s = match copyStep n (32 * b.toNat) s with
    | .ok (.over, t) => .next (t.engPerformed n)
    | .ok (.pulled, t) => .next (t.modEngine n fun e => { e with phase := .handed })
    | .ok (.word o v, t) =>
      if t.enginePodWrites n then
        .next (t.modEngine n fun e => { e with phase := .handed, job := some v, got := [(leBytes 8 o, false)] })
      else .next (t.copyWord n o v)
    | .error (.trap k t) => .next (s.stopAt n k t)
    | .error (.block _) => .next s
    | .error (.ask q) => .next (s.podAsk q) := by
  show execCpq x b s = _
  unfold execCpq
  rw [hon]
  show (if !(s.engineLive n && (s.engine n).phase == .acquired && engineWf (.cpq x b)) then _ else _) = _
  rw [if_neg (by rw [hlive, hphase, hwf]; decide)]
  rfl

variable {t : State}

theorem copyOver (h : copyStep n (32 * b.toNat) s = .ok (.over, t)) : ∃ u, exec (.cpq x b) s = .next u ∧
    (u.engine n).phase = .performed ∧ u.mem = t.mem ∧ u.regs = t.regs ∧ u.share = t.share := by
  rw [exec_cpq hon hlive hphase hwf, h]
  exact ⟨_, rfl, t.engPerformed_keeps n (State.engineLive_lt hlive)⟩

theorem copyPulled (h : copyStep n (32 * b.toNat) s = .ok (.pulled, t)) : ∃ u, exec (.cpq x b) s = .next u ∧
    (u.engine n).phase = .handed ∧ u.mem = t.mem ∧ u.regs = t.regs ∧ u.share = t.share := by
  rw [exec_cpq hon hlive hphase hwf, h]
  exact ⟨_, rfl, congrArg Engine.phase (t.engine_modEngine_same n _ (State.engineLive_lt hlive)), rfl, rfl, rfl⟩

section Word
variable {o v : Nat} (h : copyStep n (32 * b.toNat) s = .ok (.word o v, t))
include h

theorem copyWordWritten (hp : t.enginePodWrites n = false) : ∃ u, exec (.cpq x b) s = .next u ∧ (u.engine n).phase = .performed ∧
    u.mem = ((t.flushEngine n).engineWrite .cham false (chamAt t.core.id o) (leBytes 8 v)).mem ∧ u.regs = t.regs := by
  rw [exec_cpq hon hlive hphase hwf, h]
  dsimp only
  rw [if_neg (ne_true_of_eq_false hp)]
  exact ⟨_, rfl, t.copyWord_keeps n o v (State.engineLive_lt hlive)⟩

theorem copyWordWaits (hp : t.enginePodWrites n = true) : ∃ u, exec (.cpq x b) s = .next u ∧ (u.engine n).phase = .handed ∧
    u.mem = t.mem ∧ u.regs = t.regs := by
  rw [exec_cpq hon hlive hphase hwf, h]
  dsimp only
  rw [if_pos hp]
  exact ⟨_, rfl, congrArg Engine.phase (t.engine_modEngine_same n _ (State.engineLive_lt hlive)), rfl, rfl⟩

end Word

theorem copyStops {k : Option State} {y : Trap} (h : copyStep n (32 * b.toNat) s = .error (.trap k y)) :
    exec (.cpq x b) s = .next ((s.standing k).stopEngine n y.code y.arg y.va y.kind y.host) := by
  rw [exec_cpq hon hlive hphase hwf, h]
  rfl

end Cpq

/-! ### Conversions, near-bank products and work entries -/

theorem conversionPerforms (s t : State) (x : BitVec 1) (h : BitVec 2) (r : BitVec 3) (b : BitVec 18) (hlive : s.engineLive 3 = true)
    (hphase : (s.engine 3).phase = .acquired) (hwf : engineWf (.cvq x h r b) = true)
    (hstep : cvqStep h.toNat r.toNat (32 * b.toNat) (s.latchFtz 3) = .ok ((), t)) :
    ∃ u, exec (.cvq x h r b) s = .next u ∧ (u.engine 3).phase = .performed ∧ u.mem = t.mem ∧ u.regs = t.regs := by
  obtain ⟨hp, hm, hr, -⟩ := t.engPerformed_keeps 3 (by omega)
  refine ⟨_, ?_, hp, hm, hr⟩
  show execCvq x h r b s = _
  unfold execCvq
  rw [if_neg (by rw [hlive, hphase, hwf]; decide)]
  show (match cvqStep h.toNat r.toNat (32 * b.toNat) (s.latchFtz 3) with
    | .ok (_, t) => _
    | .error (.trap u t) => _
    | .error (.block _) => _
    | .error (.ask q) => _) = _
  rw [hstep]

theorem productQueues (s t : State) (r : BitVec 24) (d : NbDesc) (v w : Version) (q : List NbPass) (hlive : s.engineLive 4 = true)
    (hphase : (s.engine 4).phase = .acquired) (hstep : nbChecked r ((s.cmdSync 4).getD 0) s = .ok ((d, v, w), t)) (hd : d.stk < 8)
    (hq : q = s.share.passes[d.stk]?.getD []) (hroom : (q.filter fun p => !p.running).length < 48) :
    ∃ u, exec (.nbq 1 r) s = .next u ∧ (u.engine 4).phase = .handed ∧
      u.share.passes[d.stk]?.getD [] = q ++ [⟨s.core.id, s.clk, false⟩] ∧ u.mem = s.mem ∧ u.regs = s.regs := by
  subst hq
  refine ⟨(s.modShare fun h =>
      { h with passes := h.passes.setIfInBounds d.stk (s.share.passes[d.stk]?.getD [] ++ [⟨s.core.id, s.clk, false⟩]) }).modEngine 4
        fun e => { e with phase := .handed }, ?_, congrArg Engine.phase (State.engine_modEngine_same _ 4 _ (by omega)), Vector.getD_setIfInBounds_same _ _ _ _ hd, rfl, rfl⟩
  show execNbq 1 r s = _
  unfold execNbq
  rw [if_neg (by rw [hlive, hphase]; decide)]
  show (match nbChecked r ((s.cmdSync 4).getD 0) s with
    | .error (.trap k t) => _
    | .error _ => _
    | .ok (c, _) => _) = _
  rw [hstep]
  exact if_neg (Nat.not_le.2 hroom)

theorem entryReads (s t : State) (x : BitVec 1) (b : BitVec 18) (bs : List Byte) (e : Entry) (hlive : s.engineLive 5 = true)
    (hphase : (s.engine 5).phase = .acquired) (hwf : engineWf (.wqeCmd x b) = true)
    (hstep : entryAt (32 * b.toNat) s = .ok ((bs, e), t)) :
    ∃ u, exec (.wqeCmd x b) s = .next u ∧ (u.engine 5).phase = .handed ∧ (u.engine 5).got = [(bs, false)] ∧ u.mem = s.mem ∧
      u.regs = s.regs ∧ u.share = s.share := by
  have he := s.engine_modEngine_same 5 (fun e => { e with phase := .handed, got := [(bs, false)] }) (by omega)
  refine ⟨_, ?_, congrArg Engine.phase he, congrArg Engine.got he, rfl, rfl, rfl⟩
  show execWqeCmd x b s = _
  unfold execWqeCmd
  rw [if_neg (by rw [hlive, hphase, hwf]; decide)]
  show (match entryAt (32 * b.toNat) s with
    | .ok (r, _) => _
    | .error (.trap k t) => _
    | .error _ => _) = _
  rw [hstep]

theorem ringCommandsPerform : Clauses.BlockCommandsPerform := by
  refine ⟨fun s t n x b hon hlive hphase hwf => ⟨copyOver hon hlive hphase hwf, copyPulled hon hlive hphase hwf, fun o v h =>
      ⟨copyWordWritten hon hlive hphase hwf h, copyWordWaits hon hlive hphase hwf h⟩,
      fun k y h => copyStops hon hlive hphase hwf h⟩,
    conversionPerforms, productQueues, entryReads⟩

end Sys2Proof.Machine
end

section
/-!
SUPPORT. The bytes that a plain copy within the Chamber moves (R238 to R241): its reads, sector by sector, and then its writes.
-/
namespace Sys2Proof.Machine
open Sys2Proof

/-! ### A block that passes its checks -/

/-- Whatever an operation returns holds of a predicate. -/
def M.Returns {α : Type} (m : M α) (P : α → Prop) : Prop := ∀ s x t, m s = .ok (x, t) → P x

namespace M.Returns
variable {α β : Type} {P : β → Prop}

theorem pure {x : β} (h : P x) : M.Returns (Pure.pure x) P := by
  rintro s y t hy
  cases hy
  exact h

theorem stop (x : Stop) : M.Returns (stop x : M β) P := by
  rintro s y t hy
  cases hy

theorem bind {m : M α} {f : α → M β} (h : ∀ a, M.Returns (f a) P) : M.Returns (m >>= f) P := by
  intro s y t hy
  cases hm : m s with
  | error e => rw [M.bind_error hm] at hy; cases hy
  | ok r => rw [M.bind_ok (x := r.1) (t := r.2) hm] at hy; exact h _ _ _ _ hy

theorem ite {c : Prop} [Decidable c] {m k : M β} (hm : c → M.Returns m P) (hk : ¬c → M.Returns k P) :
    M.Returns (if c then m else k) P := by
  split
  · exact hm ‹_›
  · exact hk ‹_›

end M.Returns

theorem copyBlock_returns (n off : Nat) : M.Returns (copyBlock n off) fun b => b.ok = true := by
  refine .bind fun _ => .bind fun bs => .ite (fun _ => .bind fun _ => .bind fun _ => .stop _) fun hok =>
    .ite (fun _ => .bind fun _ => .stop _) fun _ => ?_
  have hok : (CopyBlock.ofBytes bs).ok = true := by simpa using hok
  have last : M.Returns (Pure.pure (CopyBlock.ofBytes bs)) fun b => b.ok = true := .pure hok
  have tail : M.Returns (do
      engHold (CopyBlock.ofBytes bs).toSpace (CopyBlock.ofBytes bs).dst (CopyBlock.ofBytes bs).len
      if (CopyBlock.ofBytes bs).cw && !(CopyBlock.ofBytes bs).isPull then engHold .cham (CopyBlock.ofBytes bs).cwoff 8
      return CopyBlock.ofBytes bs) fun b => b.ok = true := .bind fun _ => .ite (fun _ => .bind fun _ => last) fun _ => last
  have body : M.Returns (do
      copyOpen n (CopyBlock.ofBytes bs).toSpace (CopyBlock.ofBytes bs).dst (CopyBlock.ofBytes bs).len true
      if (CopyBlock.ofBytes bs).cw then wordOpen n 0x25 (CopyBlock.ofBytes bs).cwoff 8 true
      engHold (CopyBlock.ofBytes bs).toSpace (CopyBlock.ofBytes bs).dst (CopyBlock.ofBytes bs).len
      if (CopyBlock.ofBytes bs).cw && !(CopyBlock.ofBytes bs).isPull then engHold .cham (CopyBlock.ofBytes bs).cwoff 8
      return CopyBlock.ofBytes bs) fun b => b.ok = true := .bind fun _ => .ite (fun _ => .bind fun _ => tail) fun _ => tail
  exact .ite (fun _ => .bind fun _ => body) fun _ => body

/-! ### Sectors of an aligned range -/

/-- The sectors of an aligned range. -/
def sectorRun (a : Nat) : Nat → List (Nat × Nat)
  | 0 => []
  | m + 1 => (a, 32) :: sectorRun (a + 32) m

theorem cutSectors_aligned (m : Nat) {k a : Nat} (ha : a % 32 = 0) (hk : m ≤ k) : cutSectors k a (32 * m) = sectorRun a m := by
  induction m generalizing k a with
  | zero => cases k <;> rfl
  | succ m ih =>
    obtain ⟨k, rfl⟩ : ∃ j, k = j + 1 := ⟨k - 1, by omega⟩
    rw [cutSectors, if_neg (by omega)]
    dsimp only
    rw [show min (32 * (m + 1)) (32 - a % 32) = 32 by omega, show 32 * (m + 1) - 32 = 32 * m by omega,
      ih (a := a + 32) (by omega) (by omega), sectorRun]

theorem sectorsIn_aligned (a m : Nat) (ha : a % 32 = 0) : sectorsIn a (32 * m) = sectorRun a m :=
  cutSectors_aligned m ha (by omega)

/-! ### Reading -/

/-- Engine n has written nothing that is not performed, and the copies that its operand buffer holds of Chamber sectors are as memory
stands. -/
structure EngineReads (s : State) (n : Nat) : Prop where
  writes : (s.engine n).writes = []
  copies : s.late = false ∨ ∀ c ∈ (s.engine n).operands, c.space = .cham → c.view = false →
    c.data = Cells.read s.mem.cham.cells c.addr 32

theorem State.engine_modEngine_cases (s : State) (n : Nat) (f : Engine → Engine) :
    (s.modEngine n f).engine n = f (s.engine n) ∨ (s.modEngine n f).engine n = s.engine n := by
  by_cases h : n < 6
  · exact .inl (s.engine_modEngine_same n f h)
  · right
    simp [State.modEngine, State.setEngine, State.engine, State.modCore, show ¬n < 6 from h]

theorem Cells.length_read (m : List Host.Cell) (a n : Nat) : (Cells.read m a n).length = n := by
  induction n generalizing a with
  | zero => rfl
  | succ n ih => rw [Cells.read, List.length_cons, ih]

theorem chamAt_add (core a k : Nat) : chamAt core (a + k) = chamAt core a + k := (Nat.add_assoc _ a k).symm

theorem chamAt_sector (core a : Nat) (ha : a % 32 = 0) : sectorOf (chamAt core a) = chamAt core a := by
  unfold sectorOf chamAt
  omega

theorem State.touchL2_mem (s : State) (sp : Space) (view : Bool) (a : Nat) : (s.touchL2 sp view a).mem = s.mem := by
  unfold State.touchL2
  split <;> rfl

theorem State.touchL2_late (s : State) (sp : Space) (view : Bool) (a : Nat) : (s.touchL2 sp view a).late = s.late := by
  unfold State.touchL2
  split <;> rfl

/-- The home of an aligned sector as engine n finds it: the bytes of memory, from a copy or from the home. -/
theorem engHome_sector (s : State) (n q : Nat) (h : EngineReads s n) (hq : sectorOf q = q) :
    ∃ p t, s.engHome n .cham false false q 32 = ((Cells.read s.mem.cham.cells q 32, p), t) ∧ t.mem = s.mem ∧
      t.core.id = s.core.id ∧ EngineReads t n := by
  obtain ⟨hw, hc⟩ := h
  unfold State.engHome
  extract_lets sec s0 cut u x c
  have hsec : sec = q := hq
  have hs0 : s0 = s := if_neg (by rw [hw]; exact Bool.false_ne_true)
  have hu : u = s.touchL2 .cham false q := congrArg (·.touchL2 .cham false q) hs0
  have hcore : u.core = s.core := hu ▸ s.touchL2_core .cham false q
  have hmem : u.mem = s.mem := hu ▸ s.touchL2_mem .cham false q
  have hlate : u.late = s.late := hu ▸ s.touchL2_late .cham false q
  have heng : u.engine n = s.engine n := by unfold State.engine; rw [hcore]
  have hread : (u.homeBytes .cham false q 32).1 = Cells.read s.mem.cham.cells q 32 :=
    congrArg (fun m : Mem => Cells.read m.cham.cells q 32) hmem
  have hx : x = u.homeBytes .cham false q 32 := congrArg (u.homeBytes .cham false · 32) hsec
  have hcut : ∀ c : SectorCopy, c.data.length = 32 → cut c = (c.data, c.poison) := fun c hl => by
    show (List.take 32 (c.data.drop (q - sec)), c.poison) = _
    rw [hsec, Nat.sub_self, List.drop_zero, ← hl, List.take_length]
  rw [hs0, Bool.not_false, Bool.and_true, hsec]
  cases hl : s.late with
  | false => exact ⟨_, u, Prod.ext (Prod.ext hread rfl) rfl, hmem, by rw [hcore], ⟨heng.symm ▸ hw, .inl (hlate.trans hl)⟩⟩
  | true =>
    have hc := hc.resolve_left (by rw [hl]; decide)
    rw [if_pos rfl]
    cases hf : (s.engine n).operands.find? fun c => c.space == .cham && c.view == false && c.addr == q with
    | some k =>
      have hp := List.find?_some hf
      simp only [Bool.and_eq_true, beq_iff_eq] at hp
      obtain ⟨⟨hsp, hv⟩, hk⟩ := hp
      have hdata := hc k (List.mem_of_find?_eq_some hf) hsp hv
      rw [hk] at hdata
      refine ⟨k.poison, s, ?_, rfl, rfl, ⟨hw, .inr hc⟩⟩
      exact Prod.ext ((hcut k (by rw [hdata, Cells.length_read])).trans (Prod.ext hdata rfl)) rfl
    | none =>
      have hdata : c.data = Cells.read s.mem.cham.cells q 32 := (congrArg Prod.fst hx).trans hread
      refine ⟨c.poison, u.modEngine n fun e => { e with operands := c :: e.operands }, Prod.ext ((hcut c (by rw [hdata, Cells.length_read])).trans (Prod.ext hdata rfl)) rfl, hmem,
        show u.core.id = s.core.id by rw [hcore], ?_⟩
      have hnew : ∀ y ∈ c :: (s.engine n).operands, y.space = .cham → y.view = false →
          y.data = Cells.read u.mem.cham.cells y.addr 32 := by
        rw [hmem]
        refine List.forall_mem_cons.2 ⟨fun _ _ => ?_, hc⟩
        rw [hdata]
        exact congrArg (Cells.read s.mem.cham.cells · 32) hsec.symm
      rw [← heng] at hc hnew hw
      rw [← hmem] at hc
      rcases u.engine_modEngine_cases n fun e => { e with operands := c :: e.operands } with he | he
      · exact ⟨by rw [he]; exact hw, .inr (by rw [he]; exact hnew)⟩
      · exact ⟨by rw [he]; exact hw, .inr (by rw [he]; exact hc)⟩

/-- A read of a whole sector of the Chamber gives its bytes and leaves memory as it is. -/
theorem engReadPart_sector (s : State) (n a : Nat) (hn : n ≠ 0) (h : EngineReads s n) (ha : a % 32 = 0) :
    ∃ p t, engReadPart n .cham a 32 s = .ok ((Cells.read s.mem.cham.cells (chamAt s.core.id a) 32, p), t) ∧ t.mem = s.mem ∧
      t.core.id = s.core.id ∧ EngineReads t n := by
  obtain ⟨p, t, he, hm, hid, hr⟩ := engHome_sector s n (chamAt s.core.id a) h (chamAt_sector _ a ha)
  refine ⟨p, t, ?_, hm, hid, hr⟩
  rw [engReadPart, engKept, if_pos hn]
  show Except.ok ((s.engHome n .cham false false (chamAt s.core.id a) 32).1, (s.engHome n .cham false false (chamAt s.core.id a) 32).2) = _
  rw [he]

theorem Cells.read_add (m : List Host.Cell) (a j k : Nat) : Cells.read m a (j + k) = Cells.read m a j ++ Cells.read m (a + j) k := by
  induction j generalizing a with
  | zero => rw [Nat.zero_add]; rfl
  | succ j ih =>
    rw [show j + 1 + k = j + k + 1 by omega, Cells.read, Cells.read, ih (a + 1), show a + 1 + j = a + (j + 1) by omega]
    rfl

theorem Cells.getElem?_read (m : List Host.Cell) (a n i : Nat) (h : i < n) : (Cells.read m a n)[i]? = some (Cells.get m (a + i)) := by
  obtain ⟨k, rfl⟩ : ∃ k, n = i + (k + 1) := ⟨n - i - 1, by omega⟩
  rw [Cells.read_add, List.getElem?_append_right (by rw [Cells.length_read]), Cells.length_read, Nat.sub_self]
  rfl

/-- A read of an aligned range gives the bytes of memory in order. -/
theorem engReadParts_run (n m : Nat) (hn : n ≠ 0) (s : State) (a : Nat) (h : EngineReads s n) (ha : a % 32 = 0) :
    ∃ bs t, engReadParts n .cham (sectorRun a m) s = .ok (bs, t) ∧
      bs.map (·.1) = Cells.read s.mem.cham.cells (chamAt s.core.id a) (32 * m) ∧ t.mem = s.mem ∧ t.core.id = s.core.id := by
  induction m generalizing s a with
  | zero => exact ⟨[], s, rfl, rfl, rfl, rfl⟩
  | succ m ih =>
    obtain ⟨p, t, hr, hm, hid, ht⟩ := engReadPart_sector s n a hn h ha
    obtain ⟨bs, u, hrs, hbs, hmu, hidu⟩ := ih t (a + 32) ht (by omega)
    refine ⟨(Cells.read s.mem.cham.cells (chamAt s.core.id a) 32).map (fun b => (b, p)) ++ bs, u, ?_, ?_, hmu.trans hm,
      hidu.trans hid⟩
    · rw [sectorRun, engReadParts, M.bind_ok hr, M.bind_ok hrs]
      rfl
    · have hmap : ((Cells.read s.mem.cham.cells (chamAt s.core.id a) 32).map fun b => (b, p)).map (·.1) =
          Cells.read s.mem.cham.cells (chamAt s.core.id a) 32 := by rw [List.map_map]; exact List.map_id _
      rw [List.map_append, hmap, hbs, hm, hid, show 32 * (m + 1) = 32 + 32 * m by omega, Cells.read_add, chamAt_add]

/-! ### Writing -/

theorem Cells.write_append (m : List Host.Cell) (a : Nat) (xs ys : List Byte) :
    Cells.write m a (xs ++ ys) = Cells.write (Cells.write m a xs) (a + xs.length) ys := by
  induction xs generalizing m a with
  | nil => rfl
  | cons x xs ih =>
    rw [List.cons_append, Cells.write, Cells.write, ih, List.length_cons, show a + 1 + xs.length = a + (xs.length + 1) by omega]

theorem State.performEngine_cham (s : State) (a : Nat) (bs : List Byte) (mark : Option (Nat × Bool)) :
    (s.performEngine ⟨.cham, false, a, bs, false, mark⟩).mem.cham.cells = Cells.write s.mem.cham.cells a bs := by
  have hw : (s.engineWrite .cham false a bs).mem.cham.cells = Cells.write s.mem.cham.cells a bs :=
    s.homeWrite_bank .cham false a bs (by decide)
  cases mark with
  | none => exact hw
  | some x => exact (Bank.setMark_cells _ _ _).trans hw

/-- What an engine's write to the Chamber leaves: the bytes at their place. -/
theorem engWritePart_cham (n a : Nat) (bs : List Byte) (poison : Bool) (s : State) :
    ∃ t, engWritePart n .cham a bs poison s = .ok ((), t) ∧
      t.mem.cham.cells = Cells.write s.mem.cham.cells (chamAt s.core.id a) bs ∧ t.core.id = s.core.id ∧
      (s.memOk → t.memOk) := by
  have hmark : (s.engMark n .cham (chamAt s.core.id a) bs.length poison).2.mem = s.mem ∧
      (s.engMark n .cham (chamAt s.core.id a) bs.length poison).2.core.id = s.core.id := by
    unfold State.engMark
    dsimp only
    split_ifs <;> exact ⟨rfl, rfl⟩
  obtain ⟨hm, hid⟩ := hmark
  have hk := (s.engMark n .cham (chamAt s.core.id a) bs.length poison).2.cachesOnly_performEngine
    ⟨.cham, false, chamAt s.core.id a, bs, false, (s.engMark n .cham (chamAt s.core.id a) bs.length poison).1⟩
  refine ⟨(s.engMark n .cham (chamAt s.core.id a) bs.length poison).2.performEngine ⟨.cham, false, chamAt s.core.id a, bs, false,
    (s.engMark n .cham (chamAt s.core.id a) bs.length poison).1⟩, rfl, (State.performEngine_cham _ _ _ _).trans ?_, hk.id.trans hid, fun h => hk.mem (by rw [hm]; exact h)⟩
  rw [hm]

/-- A write of an aligned range leaves each byte at its place, and every other byte as it was. -/
theorem engWriteParts_run (n m : Nat) (s : State) (a : Nat) (bs : List (Byte × Bool)) (hl : bs.length = 32 * m) (hs : s.memOk) :
    ∃ t, engWriteParts n .cham (sectorRun a m) bs s = .ok ((), t) ∧ t.mem.cham.cells = Cells.write s.mem.cham.cells
      (chamAt s.core.id a) (bs.map (·.1)) := by
  induction m generalizing s a bs with
  | zero =>
    obtain rfl : bs = [] := List.length_eq_zero_iff.1 hl
    exact ⟨s, rfl, rfl⟩
  | succ m ih =>
    obtain ⟨t, hw, hc, hid, hok⟩ := engWritePart_cham n a ((bs.take 32).map (·.1)) ((bs.take 32).any (·.2)) s
    obtain ⟨u, hws, hcu⟩ := ih t (a + 32) (bs.drop 32) (by rw [List.length_drop]; omega) (hok hs)
    refine ⟨u, ?_, ?_⟩
    · rw [sectorRun, engWriteParts]
      dsimp only
      rw [M.bind_ok hw, hws]
    · have hlen : ((bs.take 32).map (·.1)).length = 32 := by rw [List.length_map, List.length_take]; omega
      have hsplit : bs.map (·.1) = (bs.take 32).map (·.1) ++ (bs.drop 32).map (·.1) := by rw [← List.map_append, List.take_append_drop]
      rw [hcu, hc, hid, hsplit, Cells.write_append, hlen, chamAt_add]

/-! ### The copy -/

/-- What the rules of R240 ask of a plain copy between sectors. -/
theorem CopyBlock.aligned {b : CopyBlock} (h : b.ok = true) (hk : b.kind = 0) : b.src % 32 = 0 ∧ b.dst % 32 = 0 ∧ b.len % 32 = 0 := by
  simp [CopyBlock.ok, CopyBlock.isPull, hk] at h
  tauto

/-- Step 3 of a plain copy within the Chamber is a read and a write of its ranges. -/
theorem copyStep_plain (s : State) (n off : Nat) (b : CopyBlock) (hb : copyBlock n off s = .ok (b, s)) (hk : b.kind = 0)
    (hcw : b.cw = false) (hsp : b.sp = 0) : copyStep n off s = (do
      let bs ← engRead n .cham b.src b.len
      engWrite n .cham b.dst bs
      return .over : M Copied) s := by
  have hpull : b.isPull = false := by rw [CopyBlock.isPull, hk]; rfl
  have hred : b.reduces = false := by rw [CopyBlock.reduces, hk]; rfl
  have hfrom : b.fromSpace = .cham := by rw [CopyBlock.fromSpace, hsp]; rfl
  have hto : b.toSpace = .cham := by rw [CopyBlock.toSpace, hsp]; rfl
  rw [copyStep, M.bind_ok hb, hpull, hred, hfrom, hto, hcw]
  rfl

theorem copiesMoveBytes : Clauses.CopiesMoveBytes := by
  intro s n off b hb hkind hcw hsp hmem hn hw hlate
  obtain ⟨hsrc, hdst, hlen⟩ := b.aligned (copyBlock_returns n off s b s hb) hkind
  obtain ⟨m, hm⟩ : ∃ m, b.len = 32 * m := ⟨b.len / 32, by omega⟩
  have hreads : EngineReads s n := ⟨hw, hlate.imp id fun h c hc => by rw [h] at hc; cases hc⟩
  obtain ⟨bs, t, hr, hbs, hmt, hidt⟩ := engReadParts_run n m hn s b.src hreads hsrc
  have hl : bs.length = 32 * m := by rw [← List.length_map (f := (·.1)), hbs, Cells.length_read]
  obtain ⟨u, hwr, hcu⟩ := engWriteParts_run n m t b.dst bs hl (show t.mem.wf = true from hmt ▸ hmem)
  refine ⟨u, ?_, fun k => ?_⟩
  · rw [copyStep_plain s n off b hb hkind hcw hsp, engRead, hm, sectorsIn_aligned _ _ hsrc, M.bind_ok hr, engWrite, hl,
      sectorsIn_aligned _ _ hdst, M.bind_ok hwr]
    rfl
  · show Cells.get u.mem.cham.cells _ = _
    have hlb : (bs.map (·.1)).length = b.len := by rw [List.length_map, hl, hm]
    have hwf : Cells.wf s.mem.cham.cells = true := Mem.bank_wf s.mem .cham false hmem
    rw [hcu, hmt, hidt, Cells.get_write _ _ _ _ hwf, hlb]
    have hbase : ∀ x, chamAt s.core.id x = chamAt s.core.id 0 + x := fun x => by rw [← chamAt_add, Nat.zero_add]
    rw [hbase b.dst]
    by_cases hin : b.dst ≤ k ∧ k < b.dst + b.len
    · rw [if_pos hin, if_pos (by omega), hbs, show chamAt s.core.id 0 + k - (chamAt s.core.id 0 + b.dst) = k - b.dst by omega,
        Cells.getElem?_read _ _ _ _ (by omega), hbase (b.src + (k - b.dst)), hbase b.src, Nat.add_assoc]
      rfl
    · rw [if_neg hin, if_neg (by omega)]
      rfl

/-- Settles O45: the commands, then the bytes. -/
theorem blockCommandsPerform : Obligations.BlockCommandsPerform := ⟨ringCommandsPerform, copiesMoveBytes⟩

end Sys2Proof.Machine
end

section
/-!
SUPPORT. The preloaded task and requests to give way (R32, R92, R373, R377, R378).
-/
namespace Sys2Proof.Machine
open Sys2Proof

/-! ### Task queues -/

theorem State.tqOf_reset (s : State) (die q : Nat) (h : 8 ≤ die ∨ 32 ≤ q) : s.tqOf die q = TaskQueue.reset := by
  unfold State.tqOf
  rcases h with h | h
  · rw [Vector.getElem?_eq_none h]
    simp only [Option.getD_none, Die.reset, Vector.getElem?_replicate]
    split <;> rfl
  · rw [Vector.getElem?_eq_none h, Option.getD_none]

theorem State.tqOf_modTq_same (s : State) (die q : Nat) (f : TaskQueue → TaskQueue) (hd : die < 8) (hq : q < 32) :
    (s.modTq die q f).tqOf die q = f (s.tqOf die q) := by
  simp [State.modTq, State.modShare, State.tqOf, hd, hq]

theorem State.tqOf_modTq_ne (s : State) (die q d k : Nat) (f : TaskQueue → TaskQueue) (h : ¬(d = die ∧ k = q)) :
    (s.modTq die q f).tqOf d k = s.tqOf d k := by
  by_cases hb : d < 8
  · unfold State.tqOf State.modTq State.modShare
    by_cases hd : die = d
    · subst hd
      rw [Vector.getElem?_setIfInBounds_self_of_lt hb, Option.getD_some, Vector.getElem?_setIfInBounds_ne (by tauto)]
    · rw [Vector.getElem?_setIfInBounds_ne hd]
  · rw [State.tqOf_reset _ d k (by omega), State.tqOf_reset _ d k (by omega)]

/-- A field that a change of one queue keeps is kept in every queue. -/
theorem State.tqOf_modTq_keeps {α : Type} (s : State) (die q : Nat) (f : TaskQueue → TaskQueue) (p : TaskQueue → α)
    (hf : ∀ z, p (f z) = p z) (d k : Nat) : p ((s.modTq die q f).tqOf d k) = p (s.tqOf d k) := by
  by_cases h : d = die ∧ k = q
  · obtain ⟨rfl, rfl⟩ := h
    by_cases hb : d < 8 ∧ k < 32
    · rw [s.tqOf_modTq_same d k f hb.1 hb.2, hf]
    · rw [State.tqOf_reset _ d k (by omega), State.tqOf_reset _ d k (by omega)]
  · rw [s.tqOf_modTq_ne die q d k f h]

/-! ### The record that a core selects -/

/-- Every queue lists its records as before. -/
def State.sameRecords (s t : State) : Prop := ∀ d q, (t.tqOf d q).records = (s.tqOf d q).records

theorem State.sameRecords_of_dies {s t : State} (h : ∀ d : Nat, (t.share.dies[d]?.getD Die.reset).tq = (s.share.dies[d]?.getD Die.reset).tq) :
    s.sameRecords t := fun d q => by rw [State.tqOf, State.tqOf, h]

theorem State.sameRecords_modTq (s : State) (die q : Nat) (f : TaskQueue → TaskQueue) (hf : ∀ z : TaskQueue, (f z).records = z.records) :
    s.sameRecords (s.modTq die q f) := s.tqOf_modTq_keeps die q f (·.records) hf

theorem State.sameRecords_foldl {α : Type} (f : State → α → State) (hf : ∀ s x, State.sameRecords s (f s x)) (xs : List α) (s : State) :
    s.sameRecords (xs.foldl f s) := by
  induction xs generalizing s with
  | nil => exact fun _ _ => rfl
  | cons x xs ih => exact fun d q => (ih _ d q).trans (hf s x d q)

/-- A change of what cores share alone. -/
def State.shareOnly (s t : State) : Prop := ∃ h, t = { s with share := h }

theorem State.shareOnly_modShare (s : State) (f : Share → Share) : s.shareOnly (s.modShare f) := ⟨f s.share, rfl⟩

theorem State.shareOnly_modTq (s : State) (die q : Nat) (f : TaskQueue → TaskQueue) : s.shareOnly (s.modTq die q f) :=
  s.shareOnly_modShare _

theorem State.shareOnly_trans {s t u : State} (h : s.shareOnly t) (k : t.shareOnly u) : s.shareOnly u := by
  obtain ⟨a, rfl⟩ := h
  obtain ⟨b, rfl⟩ := k
  exact ⟨b, rfl⟩

theorem State.shareOnly_foldl {α : Type} (f : State → α → State) (hf : ∀ s x, State.shareOnly s (f s x)) (xs : List α) (s : State) :
    s.shareOnly (xs.foldl f s) := by
  induction xs generalizing s with
  | nil => exact ⟨_, rfl⟩
  | cons x xs ih => exact State.shareOnly_trans (hf s x) (ih _)

theorem offers_queue {s : State} {c : Core} {ok : Record → Bool} {o : Offer} (h : o ∈ s.offers c ok) : o.q < 32 := by
  unfold State.offers at h
  obtain ⟨q, hq, ho⟩ := List.mem_filterMap.1 h
  dsimp only at ho
  split at ho
  · split at ho
    · obtain ⟨r, -, rfl⟩ := Option.map_eq_some_iff.1 ho
      exact List.mem_range.1 hq
    · cases ho
  · cases ho

/-- The scan position of a die is no part of its queues. -/
theorem State.sameRecords_setRr (s : State) (die : Nat) (rr : Vector Nat 8) : s.sameRecords (s.modShare fun h =>
    { h with dies := h.dies.setIfInBounds die { (s.share.dies[die]?.getD Die.reset) with rr := rr } }) := by
  refine State.sameRecords_of_dies fun d => ?_
  show ((s.share.dies.setIfInBounds die _)[d]?.getD Die.reset).tq = _
  by_cases hd : die = d
  · subst hd
    by_cases hb : die < 8
    · rw [Vector.getElem?_setIfInBounds_self_of_lt hb, Option.getD_some]
    · rw [Vector.getElem?_eq_none (by omega), Vector.getElem?_eq_none (by omega)]
  · rw [Vector.getElem?_setIfInBounds_ne hd]

/-- New credits for the queues of some offers. -/
theorem refill_facts (s : State) (die : Nat) (os : List Offer) (c : Prop) [Decidable c] :
    s.sameRecords (if c then os.foldl (fun t o => t.modTq die o.q fun z => { z with credit := z.wgt }) s else s) ∧
    s.shareOnly (if c then os.foldl (fun t o => t.modTq die o.q fun z => { z with credit := z.wgt }) s else s) := by
  split
  · refine ⟨State.sameRecords_foldl _ (fun s o => ?_) os s, State.shareOnly_foldl _ (fun s o => ?_) os s⟩
    · exact s.sameRecords_modTq die o.q _ fun _ => rfl
    · exact s.shareOnly_modTq die o.q _
  · exact ⟨fun _ _ => rfl, _, rfl⟩

theorem choose_facts {s t : State} {die : Nat} {os : List Offer} {o : Offer} (h : s.choose die os = some (o, t)) :
    o ∈ os ∧ s.sameRecords t ∧ s.shareOnly t := by
  unfold State.choose at h
  extract_lets ep p d t' rr scan at h
  have ht : s.sameRecords t' ∧ s.shareOnly t' := refill_facts s die d _
  have hd : ∀ x ∈ d, x ∈ os := fun x => List.mem_of_mem_filter
  clear_value t' d rr scan
  split at h
  · cases h
  · next o' hf =>
    obtain ⟨rfl, rfl⟩ := Prod.mk.inj (Option.some.inj h)
    obtain ⟨q, -, hq⟩ := List.exists_of_findSome?_eq_some hf
    refine ⟨hd _ (List.mem_of_find?_eq_some hq), ?_, State.shareOnly_trans ht.2
      (State.shareOnly_trans (State.shareOnly_modTq ..) (State.shareOnly_modShare ..))⟩
    have hu := t'.sameRecords_modTq die o'.q (fun z => { z with credit := z.credit - 1 }) fun _ => rfl
    have hr := State.sameRecords_setRr (t'.modTq die o'.q fun z => { z with credit := z.credit - 1 }) die
    exact fun a b => ((hr _ a b).trans (hu a b)).trans (ht.1 a b)

/-- What a selection gives: an offer, with the queues' records, the core and memory as they were. -/
theorem select_facts {s t : State} {ok : Record → Bool} {o : Offer} (h : s.select ok = some (o, t)) :
    o.q < 32 ∧ s.sameRecords t ∧ s.shareOnly t := by
  unfold State.select at h
  extract_lets die os at h
  split at h
  · next o' hf =>
    cases h
    exact ⟨offers_queue (List.mem_of_find?_eq_some hf), s.sameRecords_modTq _ _ _ fun _ => rfl, s.shareOnly_modTq ..⟩
  · obtain ⟨ho, hrest⟩ := choose_facts h
    exact ⟨offers_queue ho, hrest⟩

/-! ### Writing out what a core holds -/

/-- The strand's registers stand, in the same mode, and the task queues with them. -/
structure State.strandStands (s t : State) : Prop where
  id : t.core.id = s.core.id
  mode : t.core.mode = s.core.mode
  regs : t.regs = s.regs
  dies : t.share.dies = s.share.dies

namespace State.strandStands

theorem refl (s : State) : s.strandStands s := ⟨rfl, rfl, rfl, rfl⟩

theorem trans {s t u : State} (h : s.strandStands t) (k : t.strandStands u) : s.strandStands u :=
  ⟨k.id.trans h.id, k.mode.trans h.mode, k.regs.trans h.regs, k.dies.trans h.dies⟩

theorem foldl {α : Type} (f : State → α → State) (hf : ∀ s x, State.strandStands s (f s x)) (xs : List α) (s : State) :
    s.strandStands (xs.foldl f s) := by
  induction xs generalizing s with
  | nil => exact .refl s
  | cons x xs ih => exact (hf s x).trans (ih _)

/-- A write wakes monitors alone. -/
theorem of_wake {s t : State} {sp : Space} {a n : Nat} (hc : t.core = s.core.wake sp a n) (hd : t.share.dies = s.share.dies) :
    s.strandStands t := by
  have hw : t.core = s.core.withCaches (s.core.wake sp a n) := hc.trans (s.core.wake_withCaches sp a n)
  exact ⟨by rw [hw]; rfl, by rw [hw]; rfl, by unfold State.regs; rw [hw]; rfl, hd⟩

end State.strandStands

theorem State.clearL2_dies (s : State) (sp : Space) (view : Bool) (a n : Nat) : (s.clearL2 sp view a n).share.dies = s.share.dies := by
  unfold State.clearL2
  split_ifs <;> rfl

theorem State.strandStands_homeWrite (s : State) (sp : Space) (view : Bool) (a : Nat) (bs : List Byte) :
    s.strandStands (s.homeWrite sp view a bs) := .of_wake (s.homeWrite_core sp view a bs) (State.clearL2_dies _ sp view a bs.length)

theorem State.strandStands_copyRange (s : State) (sp : Space) (a n : Nat) (out : Space) (b : Nat) :
    s.strandStands (s.copyRange sp a n out b) := .of_wake rfl rfl

theorem State.strandStands_poison (at_ : Nat) (is : List Nat) (s : State) :
    s.strandStands (is.foldl (fun x i => x.setPoison .dev false (at_ / 32 + i) true) s) := by
  refine .foldl _ (fun x i => ?_) is s
  exact ⟨rfl, rfl, rfl, rfl⟩

theorem State.strandStands_writeTiles (at_ : Nat) (ts : List Tile) (s : State) : s.strandStands (s.writeTiles at_ ts) := by
  induction ts generalizing s at_ with
  | nil => exact .refl s
  | cons t ts ih =>
    rw [State.writeTiles]
    refine .trans ?_ (ih _ _)
    have hw := s.strandStands_homeWrite .dev false at_ t.bytes
    split
    · exact hw.trans (State.strandStands_poison _ _ _)
    · exact hw

theorem State.coreAt_id (s : State) (id : Nat) : (s.coreAt id).id = id := by
  unfold State.coreAt
  split
  · assumption
  · cases h : s.parked.find? fun c => c.id == id with
    | none => rfl
    | some c => exact beq_iff_eq.1 (List.find?_some (p := fun c : Core => c.id == id) h)

theorem State.coreAt_self (s : State) : s.coreAt s.core.id = s.core := if_pos rfl

theorem State.strandStands_setHeld (s : State) (core : Nat) (hs : List Held) :
    s.strandStands (s.setCore { s.coreAt core with held := hs }) := by
  unfold State.setCore
  split
  · next h =>
    have hid : s.core.id = core := h.trans (s.coreAt_id core)
    rw [← hid, s.coreAt_self]
    exact ⟨rfl, rfl, rfl, rfl⟩
  · exact ⟨rfl, rfl, rfl, rfl⟩

theorem State.strandStands_writeHeld (s : State) (core : Nat) (h : Held) : s.strandStands (s.writeHeld core h) := by
  unfold State.writeHeld
  extract_lets stays go s1 s2 left s3 c rest
  have h1 : s.strandStands s1 := by
    subst s1
    split
    · exact (State.strandStands_writeTiles _ _ s).trans (State.strandStands_copyRange ..)
    · exact .refl s
  have h2 : s1.strandStands s2 := .foldl _ (fun t _ => t.strandStands_copyRange ..) go s1
  have h3 : s2.strandStands s3 := by
    subst s3
    split
    · exact s2.strandStands_homeWrite ..
    · exact .refl s2
  exact ((h1.trans h2).trans h3).trans (s3.strandStands_setHeld core rest)

theorem State.strandStands_writeHeldBut (s : State) (frames : List Nat) (core : Nat) : s.strandStands (s.writeHeldBut frames core) :=
  .foldl _ (fun t h => t.strandStands_writeHeld core h) _ s

theorem State.strandStands_loadChamber (s : State) (k : List Byte) : s.strandStands (s.loadChamber k) :=
  .foldl _ (fun t _ => t.strandStands_homeWrite ..) _ s

/-! ### Preloading -/

section Preload
variable {s t : State} {o : Offer} {l : Launch} (hmode : s.core.mode ≠ .idle) (hpre : s.core.preload = none) (hreq : s.core.regs.yreq ≠ 1)
  (hready : s.dieReady (dieOf s.core.id) = true) (hsel : s.select (fun r => r.rerun.isEmpty) = some (o, t))
  (hl : s.launchOf o.rec_ = some l) (hkept : o.rec_.kept = []) (hgang : o.rec_.gangSize l = 0)
include hmode hpre hreq hready hsel hl hkept hgang

/-- A busy core without a preload loads the record that it selects where the banks are apart. -/
theorem exec_preloadLoad : exec .preloadLoad s = if Kernel.banks l.kernel &&& s.strand.info.banks ≠ 0 then .next s else
    .next (((((t.modTq (dieOf s.core.id) o.q fun z => z.remove o.ix s.clk).writeHeldBut [] s.core.id).loadChamber l.kernel).modCore
      fun c => { c with preload := some ⟨o.rec_, o.q, o.rec_.code.setWidth 56, Kernel.waitTable l.kernel, Kernel.streams l.kernel,
        s.frameRl l.frame, Kernel.banks l.kernel⟩ })) := by
  show execPreloadLoad s = _
  unfold execPreloadLoad
  extract_lets c
  have hreq : ¬s.core.regs.yreq = 1#64 := hreq
  rw [if_neg (by simp [c, hmode, hpre, hreq, hready]), hsel]
  dsimp only
  rw [hl]
  dsimp only
  rw [hkept, hgang]
  have hbanks : (!([] : List Kept).isEmpty || decide (0 ≠ 0) || Kernel.banks l.kernel &&& c.strand.info.banks != 0) =
      (Kernel.banks l.kernel &&& s.strand.info.banks != 0) := rfl
  by_cases hb : Kernel.banks l.kernel &&& s.strand.info.banks = 0
  · rw [if_neg (not_not.2 hb)]
    exact if_neg (by rw [hbanks, hb]; decide)
  · rw [if_pos hb]
    exact if_pos (by rw [hbanks]; exact bne_iff_ne.2 hb)

/-- The context that a load leaves, beside the strand that runs. -/
theorem preloadLoads (hb : Kernel.banks l.kernel &&& s.strand.info.banks = 0) :
    ∃ u p, exec .preloadLoad s = .next u ∧ u.core.preload = some p ∧ p.record = o.rec_ ∧ p.tq = o.q ∧
      p.pc = o.rec_.code.setWidth 56 ∧ p.waitb = Kernel.waitTable l.kernel ∧ p.streams = Kernel.streams l.kernel ∧
      p.rl = s.frameRl l.frame ∧ p.banks = Kernel.banks l.kernel ∧ u.core.mode = s.core.mode ∧ u.regs = s.regs ∧
      (u.tqOf (dieOf s.core.id) o.q).records = (s.tqOf (dieOf s.core.id) o.q).records.eraseIdx o.ix := by
  obtain ⟨hq, hrec, h', rfl⟩ := select_facts hsel
  have hk := (State.strandStands_writeHeldBut (({ s with share := h' } : State).modTq (dieOf s.core.id) o.q fun z => z.remove o.ix s.clk)
    [] s.core.id).trans (State.strandStands_loadChamber _ l.kernel)
  refine ⟨_, _, (exec_preloadLoad hmode hpre hreq hready hsel hl hkept hgang).trans (if_neg (not_not.2 hb)), rfl, rfl, rfl, rfl, rfl, rfl,
    rfl, rfl, hk.mode, hk.regs, ?_⟩
  have hrec := hrec (dieOf s.core.id) o.q
  have hu : ∀ u : State, u.share.dies = (({ s with share := h' } : State).modTq (dieOf s.core.id) o.q fun z =>
      z.remove o.ix s.clk).share.dies → (u.tqOf (dieOf s.core.id) o.q).records =
        (s.tqOf (dieOf s.core.id) o.q).records.eraseIdx o.ix := fun u hd => by
    rw [show u.tqOf = (({ s with share := h' } : State).modTq (dieOf s.core.id) o.q fun z => z.remove o.ix s.clk).tqOf by
      unfold State.tqOf; rw [hd]]
    by_cases h8 : dieOf s.core.id < 8
    · rw [State.tqOf_modTq_same _ _ _ _ h8 hq]
      exact congrArg (·.eraseIdx o.ix) hrec
    · rw [State.tqOf_reset _ _ _ (by omega), State.tqOf_reset _ _ _ (by omega)]
      rfl
  exact hu _ hk.dies

end Preload

section Activate
variable {s : State} {p : Preload} (hp : s.core.preload = some p)
include hp

theorem preloadWaits (h : s.clk < s.core.released + 64) : exec .preloadActivate s = .next s := by
  show execPreloadActivate s = _
  unfold execPreloadActivate
  dsimp only
  rw [hp]
  exact if_pos (by simp [h])

variable {l : Launch} (hmode : s.core.mode = .idle) (hdrain : s.core.draining = false) (hgated : s.core.gated = false)
  (hhalted : s.core.halted = false) (hclk : s.core.released + 64 ≤ s.clk) (hrerun : s.rerunWaits = false)
  (hl : s.launchOf p.record = some l)
include hmode hdrain hgated hhalted hclk hrerun hl

theorem exec_preloadActivate : exec .preloadActivate s = .next (s.startStrand l p.record p.tq 0 0 (some p)) := by
  show execPreloadActivate s = _
  unfold execPreloadActivate
  dsimp only
  rw [hp]
  dsimp only
  rw [if_neg (by simp [hmode, hdrain, hgated, hhalted, hrerun, hclk]), hl]

end Activate

/-! ### A strand as launched -/

theorem field_eq_div_mod {w : Nat} (x : BitVec w) (lo n : Nat) : field x lo n = x.toNat / 2 ^ lo % 2 ^ n := by
  rw [field, BitVec.extractLsb'_toNat, Nat.shiftRight_eq_div_pow]

/-- The two rotations as one multiple of 2^32. -/
theorem toNat_rotation (ra re : Nat) (ha : ra < 4) (hr : re < 4) :
    (BitVec.ofNat 64 (ra * 2 ^ 34 + re * 2 ^ 32)).toNat = (ra * 4 + re) * 2 ^ 32 := by
  have hsum : ra * 2 ^ 34 + re * 2 ^ 32 = (ra * 4 + re) * 2 ^ 32 := by
    rw [Nat.add_mul, Nat.mul_assoc, show 4 * 2 ^ 32 = 2 ^ 34 by norm_num]
  rw [BitVec.toNat_ofNat, hsum]
  refine Nat.mod_eq_of_lt (lt_of_lt_of_le (Nat.mul_lt_mul_of_pos_right (show ra * 4 + re < 2 ^ 4 by omega) (by positivity)) ?_)
  rw [← Nat.pow_add]
  exact Nat.pow_le_pow_right (by norm_num) (by norm_num)

theorem field_rotation (ra re : Nat) (ha : ra < 4) (hr : re < 4) : field (BitVec.ofNat 64 (ra * 2 ^ 34 + re * 2 ^ 32)) 34 2 = ra ∧
    field (BitVec.ofNat 64 (ra * 2 ^ 34 + re * 2 ^ 32)) 32 2 = re ∧
    field (BitVec.ofNat 64 (ra * 2 ^ 34 + re * 2 ^ 32)) 0 32 = 0 := by
  have hdiv : (ra * 4 + re) * 2 ^ 32 / 2 ^ 32 = ra * 4 + re := Nat.mul_div_cancel _ (by positivity)
  rw [field_eq_div_mod, field_eq_div_mod, field_eq_div_mod, toNat_rotation ra re ha hr]
  refine ⟨?_, ?_, ?_⟩
  · rw [show 34 = 32 + 2 by rfl, Nat.pow_add, ← Nat.div_div_eq_div_mul, hdiv]
    omega
  · rw [hdiv]
    omega
  · rw [Nat.pow_zero, Nat.div_one]
    exact Nat.mul_mod_left _ _

/-- Outside a gang, and with its pin entries emptied, a strand is as its launch leaves it. -/
theorem Launch.strand_asLaunched (l : Launch) (r : Record) (rl : Vector Word 16) (pins : Vector Pin 16) :
    ({ l.strand r rl 0 0 with pins := pins.map Pin.emptied } : Strand).asLaunched l r rl 0 := by
  obtain ⟨hra, hre, hk⟩ := field_rotation (Kernel.ra l.kernel) (Kernel.re l.kernel) (Nat.mod_lt _ (by omega)) (Nat.mod_lt _ (by omega))
  refine ⟨rfl, rfl, rfl, rfl, rfl, hra, hre, hk, rfl, rfl, rfl, rfl, rfl, rfl, rfl, rfl, rfl, rfl, rfl, rfl, rfl, rfl, rfl, ?_, rfl⟩
  intro p hp
  have hp : p ∈ (pins.map Pin.emptied).toList := hp
  rw [Vector.toList_map, List.mem_map] at hp
  obtain ⟨q, -, rfl⟩ := hp
  rfl

theorem startStrand_preloaded (s : State) (l : Launch) (p : Preload) :
    (s.startStrand l p.record p.tq 0 0 (some p)).core.mode = .running ∧
    (s.startStrand l p.record p.tq 0 0 (some p)).core.preload = none ∧
    (s.startStrand l p.record p.tq 0 0 (some p)).strand.asLaunched l p.record p.rl 0 := by
  unfold State.startStrand
  extract_lets id k s0 s1 s2 t s3
  clear_value s2
  exact ⟨rfl, rfl, l.strand_asLaunched p.record p.rl s2.core.strand.pins⟩

theorem preloadedTaskStarts : Clauses.PreloadedTaskStarts := by
  refine ⟨fun s t o l hmode hpre hreq hready hsel hl hkept hgang => ⟨fun hb => ?_, preloadLoads hmode hpre hreq hready hsel hl hkept hgang⟩,
    fun s p hp => ⟨preloadWaits hp, fun l hmode hdrain hgated hhalted hclk hrerun hl => ?_⟩⟩
  · exact (exec_preloadLoad hmode hpre hreq hready hsel hl hkept hgang).trans (if_pos hb)
  · exact ⟨_, exec_preloadActivate hp hmode hdrain hgated hhalted hclk hrerun hl, startStrand_preloaded s l p⟩

/-! ### The core whose turn it is -/

theorem State.focus_core (s : State) (j : Nat) : (s.focus j).core = s.coreAt j := by
  unfold State.focus
  split
  · next h => rw [← h, s.coreAt_self]
  · rfl

theorem State.focus_core_id (s : State) (j : Nat) : (s.focus j).core.id = j := by rw [s.focus_core, s.coreAt_id]

theorem State.focus_share (s : State) (j : Nat) : (s.focus j).share = s.share := by
  unfold State.focus
  split <;> rfl

theorem State.focus_mem (s : State) (j : Nat) : (s.focus j).mem = s.mem := by
  unfold State.focus
  split <;> rfl

theorem State.focus_tqOf (s : State) (j : Nat) : (s.focus j).tqOf = s.tqOf := by
  unfold State.tqOf
  rw [s.focus_share]

/-- A change of turn loses no core. -/
theorem State.coreAt_focus (s : State) (j i : Nat) : (s.focus j).coreAt i = s.coreAt i := by
  by_cases hij : i = j
  · subst hij
    rw [State.coreAt, if_pos (s.focus_core_id i), s.focus_core]
  · by_cases hj : s.core.id = j
    · rw [State.focus, if_pos hj]
    · rw [State.coreAt, if_neg (by rw [s.focus_core_id]; exact Ne.symm hij), State.focus, if_neg hj, State.coreAt, List.find?_cons]
      by_cases hi : s.core.id = i
      · obtain rfl := hi
        rw [beq_self_eq_true, s.coreAt_self]
        rfl
      · rw [beq_false_of_ne hi, State.coreAt, if_neg hi, List.find?_filter]
        refine congrArg (fun p => (s.parked.find? p).getD (Core.reset i)) (funext fun d => ?_)
        by_cases hd : d.id = i
        · simp [hd, hij, Ne.symm hi]
        · simp [hd]

theorem State.coreAt_modCore (s : State) (f : Core → Core) (hf : (f s.core).id = s.core.id) (i : Nat) :
    (s.modCore f).coreAt i = if s.core.id = i then f s.core else s.coreAt i := by
  unfold State.coreAt
  rw [State.modCore_core, State.modCore_parked, hf]
  split <;> rfl

/-! ### Preloads cancelled -/

/-- A change that keeps the registers of every core, the request of every queue, and memory. -/
structure State.keepsRequests (s t : State) : Prop where
  regs : ∀ i, (t.coreAt i).regs = (s.coreAt i).regs
  asked : ∀ d q, (t.tqOf d q).asked = (s.tqOf d q).asked
  mem : t.mem = s.mem

theorem State.keepsRequests.refl (s : State) : s.keepsRequests s := ⟨fun _ => rfl, fun _ _ => rfl, rfl⟩

theorem State.keepsRequests.trans {s t u : State} (h : s.keepsRequests t) (k : t.keepsRequests u) : s.keepsRequests u :=
  ⟨fun i => (k.regs i).trans (h.regs i), fun d q => (k.asked d q).trans (h.asked d q), k.mem.trans h.mem⟩

theorem State.keepsRequests_focus (s : State) (j : Nat) : s.keepsRequests (s.focus j) :=
  ⟨fun i => by rw [s.coreAt_focus], fun _ _ => by rw [s.focus_tqOf], s.focus_mem j⟩

theorem State.keepsRequests_cancelPreload (s : State) : s.keepsRequests s.cancelPreload := by
  unfold State.cancelPreload
  cases s.core.preload with
  | none => exact .refl s
  | some p =>
    have hasked := s.tqOf_modTq_keeps (dieOf s.core.id) p.tq (fun z => z.pushHead p.record s.clk) (·.asked) fun _ => rfl
    refine ⟨fun i => ?_, hasked, rfl⟩
    rw [State.coreAt_modCore _ _ rfl]
    split
    · next h => exact (congrArg Core.regs (s.coreAt_self.symm.trans (congrArg s.coreAt h)) : s.core.regs = _)
    · rfl

theorem State.keepsRequests_foldl {α : Type} (f : State → α → State) (hf : ∀ s x, State.keepsRequests s (f s x)) (xs : List α) (s : State) :
    s.keepsRequests (xs.foldl f s) := by
  induction xs generalizing s with
  | nil => exact .refl s
  | cons x xs ih => exact (hf s x).trans (ih _)

theorem State.keepsRequests_cancelPreloads (s : State) : s.keepsRequests s.cancelPreloads := by
  unfold State.cancelPreloads
  refine State.keepsRequests_foldl _ (fun t k => ?_) s.gangCores s
  exact (t.keepsRequests_focus k).trans (t.focus k).keepsRequests_cancelPreload

/-! ### A request -/

theorem Core.demand_regs (c : Core) (h : c.regs.yreq = 0) : c.demand.regs.yreq = 1 ∧
    field c.demand.regs.ydead 32 32 = field c.regs.ydead 0 32 := by
  have hd : c.demand.regs = c.request.regs := by
    unfold Core.demand
    rw [if_neg (by rw [h]; decide)]
    dsimp only
    split <;> rfl
  rw [hd]
  refine ⟨rfl, (field_setField_same c.regs.ydead 32 32 _ (by norm_num)).trans (Nat.mod_eq_of_lt (field_lt _ _ _))⟩

theorem Core.demand_id (c : Core) : c.demand.id = c.id := by
  unfold Core.demand Core.request
  dsimp only
  split
  · rfl
  · split <;> rfl

theorem State.coreAt_demand_self (s : State) : s.demand.coreAt s.core.id = s.core.demand :=
  if_pos s.core.demand_id

/-- The core that a request goes to, once the request of a queue is recorded. -/
theorem request_facts (s : State) (die q k : Nat) (hd : die < 8) (hq : q < 32) (hk : (s.coreAt k).regs.yreq = 0) (u : State)
    (hu : u = (((s.modTq die q fun z => { z with asked := some k }).focus k).demand.cancelPreloads).focus s.core.id) :
    (u.tqOf die q).asked = some k ∧ (u.coreAt k).regs.yreq = 1 ∧
      field (u.coreAt k).regs.ydead 32 32 = field (s.coreAt k).regs.ydead 0 32 ∧ u.core.id = s.core.id ∧ u.mem = s.mem := by
  set t := (s.modTq die q fun z => { z with asked := some k }).focus k with ht
  have hkeep : t.demand.keepsRequests u := by
    rw [hu]
    exact t.demand.keepsRequests_cancelPreloads.trans (t.demand.cancelPreloads.keepsRequests_focus _)
  have hcore : t.core = s.coreAt k := (State.focus_core _ k).trans rfl
  have hat : t.demand.coreAt k = (s.coreAt k).demand := by
    rw [← hcore, ← t.coreAt_demand_self, hcore, s.coreAt_id]
  obtain ⟨hreq, hdead⟩ := (s.coreAt k).demand_regs hk
  refine ⟨?_, ?_, ?_, ?_, ?_⟩
  · rw [hkeep.asked]
    show (t.tqOf die q).asked = _
    rw [ht, State.focus_tqOf, s.tqOf_modTq_same die q _ hd hq]
  · rw [hkeep.regs, hat, hreq]
  · rw [hkeep.regs, hat, hdead]
  · rw [hu, State.focus_core_id]
  · rw [hkeep.mem]
    exact State.focus_mem _ k

/-! ### The core that a request goes to -/

/-- A fold that keeps what it holds or takes the element picks one of the list. -/
theorem foldl_mem {α : Type} (f : Option α → α → Option α) (hf : ∀ b a, f b a = b ∨ f b a = some a) (xs : List α) (b : Option α) (a : α)
    (h : xs.foldl f b = some a) : b = some a ∨ a ∈ xs := by
  induction xs generalizing b with
  | nil => exact .inl h
  | cons x xs ih =>
    rcases ih _ h with h | h
    · rcases hf b x with hb | hb
      · exact .inl (hb.symm.trans h)
      · obtain rfl : x = a := Option.some.inj (hb.symm.trans h)
        exact .inr List.mem_cons_self
    · exact .inr (List.mem_cons_of_mem _ h)

theorem victim_facts {s : State} {die : Nat} {z : TaskQueue} {c : Core} (h : s.victim die z = some c) :
    s.coreAt c.id = c ∧ c.mode ≠ .idle ∧ (c.running.map fun r => (s.tqOf die r.tq).prio).getD 8 < z.ep s.clk ∧ c.regs.yreq = 0 := by
  unfold State.victim at h
  extract_lets ks prio below at h
  split at h
  · cases h
  · next hidle =>
    have hbelow : c ∈ below := by
      refine (foldl_mem _ (fun b a => ?_) below none c h).resolve_left nofun
      rcases b with _ | d
      · exact .inr rfl
      · exact (ite_eq_or_eq _ _ _).symm
    obtain ⟨hks, hlow⟩ := List.mem_filter.1 hbelow
    obtain ⟨k, -, hk⟩ := List.mem_map.1 hks
    rw [Bool.and_eq_true, decide_eq_true_eq, beq_iff_eq] at hlow
    refine ⟨?_, fun hm => hidle (List.any_eq_true.2 ⟨c, hks, by rw [hm]; rfl⟩), hlow.1, hlow.2⟩
    rw [← hk, s.coreAt_id]

/-- The first number that a search over a range answers. -/
theorem findSome?_range_eq_some {α : Type} (f : Nat → Option α) (n q : Nat) (a : α) (hq : q < n) (hf : f q = some a)
    (hn : ∀ j < q, f j = none) : (List.range n).findSome? f = some a := by
  rw [List.findSome?_eq_some_iff]
  refine ⟨List.range q, q, List.range' (q + 1) (n - q - 1), ?_, hf, fun j hj => hn j (List.mem_range.1 hj)⟩
  rw [List.range_eq_range', List.range_eq_range', show q :: List.range' (q + 1) (n - q - 1) = List.range' q (n - q - 1 + 1) from
    (List.range'_succ ..).symm]
  have := List.range'_append_1 (s := 0) (m := q) (n := n - q - 1 + 1)
  rw [Nat.zero_add] at this
  rw [this]
  congr 1
  omega

theorem exec_preemptRequest (s : State) (q : Nat) (c : Core) (hq : q < 32) (henabled : (s.tqOf (dieOf s.core.id) q).enabled = true)
    (hpre : (s.tqOf (dieOf s.core.id) q).pre = true) (hwait : (s.tqOf (dieOf s.core.id) q).records ≠ [])
    (hasked : (s.tqOf (dieOf s.core.id) q).asked = none)
    (hc : s.victim (dieOf s.core.id) (s.tqOf (dieOf s.core.id) q) = some c)
    (hfirst : ∀ j, j < q → (s.tqOf (dieOf s.core.id) j).pre = false) :
    exec .preemptRequest s = .next ((((s.modTq (dieOf s.core.id) q fun z => { z with asked := some c.id }).focus c.id).demand.cancelPreloads).focus
      s.core.id) := by
  show execPreemptRequest s = _
  unfold execPreemptRequest
  dsimp only
  rw [findSome?_range_eq_some _ 32 q (q, c.id) hq ?_ fun j hj => ?_]
  · rw [henabled, hpre, hasked, hc]
    simp [hwait]
  · rw [hfirst j hj]
    simp

theorem preemptionRequests : Clauses.PreemptionRequests := by
  refine ⟨?_, fun s hmode hreq hend => ⟨fun h => ?_, fun h => ?_⟩⟩
  · rintro s _ q _ c rfl rfl hq henabled hpre hwait hasked hc hfirst
    obtain ⟨hat, hmode, hprio, hreq⟩ := victim_facts hc
    have hdie : dieOf s.core.id < 8 := by
      by_contra hd
      rw [s.tqOf_reset _ q (.inl (by omega))] at henabled
      cases henabled
    obtain ⟨hask, hy, hdead, hid, hmem⟩ := request_facts s (dieOf s.core.id) q c.id hdie hq (by rw [hat, hreq]) _ rfl
    rw [hat] at hdead
    exact ⟨_, exec_preemptRequest s q c hq henabled hpre hwait hasked hc hfirst, hask, hy, hdead, hid, hmem, hmode, hprio⟩
  · show execDeadlineExpiry s = _
    exact if_pos (by simp [hmode, hreq, h, show s.core.strand.ap.ending ≠ some .yield from hend])
  · show execDeadlineExpiry s = _
    exact if_neg (by simp [h])

/-- Settles O52: the loads and starts of a preloaded task, and the requests to give way with their deadlines. -/
theorem preloadAndPreemption : Obligations.PreloadAndPreemption := ⟨preloadedTaskStarts, preemptionRequests⟩

end Sys2Proof.Machine
end

section
/-!
SUPPORT. Words and their instructions: what the encoder writes, the decoders read back (R43 to R65, R68, R326, R342).
-/
namespace Sys2Proof.Laws

/-- Settles O1: a row that is an event has no words, and of every other row the words are read back. -/
theorem wordsReadBack : Obligations.WordsReadBack := by
  intro i
  cases i
  any_goals exact trivial
  exacts [
    RoundTrip.bt .., RoundTrip.bf .., RoundTrip.call .., RoundTrip.jr .., RoundTrip.lbeg .., RoundTrip.lend ..,
    RoundTrip.add .., RoundTrip.sub .., RoundTrip.and .., RoundTrip.or .., RoundTrip.xor .., RoundTrip.andn ..,
    RoundTrip.shl .., RoundTrip.shr .., RoundTrip.sra .., RoundTrip.min .., RoundTrip.max .., RoundTrip.minu ..,
    RoundTrip.maxu .., RoundTrip.mul .., RoundTrip.mulh .., RoundTrip.mulhu .., RoundTrip.adds .., RoundTrip.subs ..,
    RoundTrip.addus .., RoundTrip.subus .., RoundTrip.sextb .., RoundTrip.sexth .., RoundTrip.sextw .., RoundTrip.clz ..,
    RoundTrip.popc .., RoundTrip.addi .., RoundTrip.andi .., RoundTrip.ori .., RoundTrip.xori .., RoundTrip.shli ..,
    RoundTrip.shri .., RoundTrip.srai .., RoundTrip.mini .., RoundTrip.maxi .., RoundTrip.cmp .., RoundTrip.cmpi ..,
    RoundTrip.pand .., RoundTrip.por .., RoundTrip.pxor .., RoundTrip.pandn .., RoundTrip.pnot .., RoundTrip.ldp ..,
    RoundTrip.sgwait .., RoundTrip.sgraise .., RoundTrip.repN .., RoundTrip.repReg .., RoundTrip.accessPrefix ..,
    RoundTrip.hint .., RoundTrip.ldl .., RoundTrip.stl .., RoundTrip.ldc .., RoundTrip.stc .., RoundTrip.ldcx ..,
    RoundTrip.stcx .., RoundTrip.ldg .., RoundTrip.stg .., RoundTrip.ldo .., RoundTrip.sto .., RoundTrip.ldd ..,
    RoundTrip.lddQ .., RoundTrip.std .., RoundTrip.ldh .., RoundTrip.ldhQ .., RoundTrip.sth .., RoundTrip.amoAdd ..,
    RoundTrip.amoAnd .., RoundTrip.amoOr .., RoundTrip.amoXor .., RoundTrip.amoSmax .., RoundTrip.amoSmin ..,
    RoundTrip.amoUmax .., RoundTrip.amoUmin .., RoundTrip.amoSwap .., RoundTrip.amoCas .., RoundTrip.waita ..,
    RoundTrip.facq .., RoundTrip.frel .., RoundTrip.facqrel .., RoundTrip.cinv .., RoundTrip.dcfence .., RoundTrip.sbaseD ..,
    RoundTrip.sbase .., RoundTrip.sld .., RoundTrip.sst .., RoundTrip.sset .., RoundTrip.sget .., RoundTrip.xpop ..,
    RoundTrip.xpush .., RoundTrip.cvt .., RoundTrip.vadd .., RoundTrip.vsub .., RoundTrip.vmul .., RoundTrip.vfma ..,
    RoundTrip.vdiv .., RoundTrip.vsqrt .., RoundTrip.vneg .., RoundTrip.vabs .., RoundTrip.vmin .., RoundTrip.vmax ..,
    RoundTrip.vmov .., RoundTrip.vadds .., RoundTrip.vsubs .., RoundTrip.vand .., RoundTrip.vor .., RoundTrip.vxor ..,
    RoundTrip.vshl .., RoundTrip.vshr .., RoundTrip.vsra .., RoundTrip.vexp .., RoundTrip.vlog .., RoundTrip.vrsqrt ..,
    RoundTrip.vtanh .., RoundTrip.vsigm .., RoundTrip.vrsum .., RoundTrip.vdot .., RoundTrip.vrmax .., RoundTrip.vrmin ..,
    RoundTrip.vrsums .., RoundTrip.vdots .., RoundTrip.vcvt .., RoundTrip.vcvtH16 .., RoundTrip.vcvtH32 .., RoundTrip.vsign ..,
    RoundTrip.vcmpgt .., RoundTrip.vcmpge .., RoundTrip.vcmpeq .., RoundTrip.vthr .., RoundTrip.vargmax ..,
    RoundTrip.vargmin .., RoundTrip.vtopk .., RoundTrip.mmz .., RoundTrip.mma .., RoundTrip.mdr .., RoundTrip.mxz ..,
    RoundTrip.mxa .., RoundTrip.mld .., RoundTrip.seg .., RoundTrip.mxzHd16 .., RoundTrip.mxaHd16 .., RoundTrip.tget ..,
    RoundTrip.tput .., RoundTrip.tkill .., RoundTrip.mxzHd32 .., RoundTrip.mxaHd32 .., RoundTrip.copy .., RoundTrip.cnv ..,
    RoundTrip.cnvH16 .., RoundTrip.cnvH32 .., RoundTrip.nbmv .., RoundTrip.nbmva .., RoundTrip.wqe .., RoundTrip.rapp ..,
    RoundTrip.publ .., RoundTrip.pull .., RoundTrip.decl .., RoundTrip.ljoin .., RoundTrip.linc .., RoundTrip.lst ..,
    RoundTrip.lld .., RoundTrip.lldt .., RoundTrip.csrr .., RoundTrip.csrw .., RoundTrip.trap .., RoundTrip.mmzCmd ..,
    RoundTrip.mmaCmd .., RoundTrip.mdrCmd .., RoundTrip.mxzCmd .., RoundTrip.mxaCmd .., RoundTrip.mldCmd ..,
    RoundTrip.segCmd .., RoundTrip.cpq .., RoundTrip.cvq .., RoundTrip.nbq .., RoundTrip.wqeCmd .., RoundTrip.pktNop _,
    RoundTrip.pktWrite _, RoundTrip.pktWriteAdd _, RoundTrip.pktWaitmem _ _, RoundTrip.pktCond _ _, RoundTrip.pktIb _,
    RoundTrip.pktLoop _, RoundTrip.pktLoadslot _, RoundTrip.pktEvictslot _, RoundTrip.pktInvoke _, RoundTrip.pktEvent _,
    RoundTrip.pktSummary _, RoundTrip.pktQcbSh _, RoundTrip.pktQcbCommit _, RoundTrip.pktQcbRead _, RoundTrip.cricketHalt ..,
    RoundTrip.cricketLi .., RoundTrip.cricketLhi .., RoundTrip.cricketAdd .., RoundTrip.cricketSub .., RoundTrip.cricketAnd ..,
    RoundTrip.cricketOr .., RoundTrip.cricketXor .., RoundTrip.cricketSltu .., RoundTrip.cricketAddi ..,
    RoundTrip.cricketShli .., RoundTrip.cricketShri .., RoundTrip.cricketPkt .., RoundTrip.cricketSetpkt ..,
    RoundTrip.cricketLd .., RoundTrip.cricketSt .., RoundTrip.cricketLdr .., RoundTrip.cricketStr .., RoundTrip.cricketBz ..,
    RoundTrip.cricketBnz .., RoundTrip.cricketLoop .., RoundTrip.chainB, RoundTrip.chainE, RoundTrip.pfence, RoundTrip.halt,
    RoundTrip.tfence, RoundTrip.yield, RoundTrip.yieldp, RoundTrip.pktFence, RoundTrip.pktFfence]

/-- Settles O2: each of the words is what the encoder writes for its instruction, and so reads back as it. -/
theorem sampleWordsDecode : Obligations.SampleWordsDecode :=
  ⟨(RoundTrip.addi 0 5 1 5).2, (RoundTrip.publ 4 5 6).2, (RoundTrip.pull 15 11 12).2, (RoundTrip.decl 11).2, RoundTrip.pfence.2⟩

end Sys2Proof.Laws
end

section
/-!
SUPPORT. Writes of system registers, at once and at their place in the EP's program order (R42, R65, R89, R91).
-/
namespace Sys2Proof.Machine

/-! ### `csrw` -/

section Csrw
variable {s t : State} {n : Nat} {v : Word}

/-- A write that the open part makes, of a register of which nothing is privileged. -/
theorem sysWrite_open (ho : writeOpen n v s = .ok ((), t)) (hp : writePriv n v = pure ()) : sysWrite n v s = .ok ((), t) := by
  rw [sysWrite, M.bind_ok ho, M.get_bind, hp, ite_self]
  rfl

/-- A write that privileged code alone makes. -/
theorem sysWrite_privileged (ho : writeOpen n v s = .ok ((), s)) (hp : writePriv n v s = .ok ((), t)) :
    sysWrite n v s = .ok ((), if s.privileged then t else s) := by
  rw [sysWrite, M.bind_ok ho, M.get_bind]
  split
  · exact hp
  · rfl

end Csrw

theorem exec_csrw_after {s t : State} {a : BitVec 6} {n : BitVec 12} (h : s.apRuns (.csrw a n)) (hn : n.toNat ≠ 0x1D1)
    (hw : sysWrite n.toNat (s.aread a.toNat) s = .ok ((), t)) : exec (.csrw a n) s = .next (s.after t (.csrw a n) .seq) := by
  have hn : n ≠ 0x1D1#12 := fun e => hn (congrArg BitVec.toNat e)
  refine (if_neg hn).trans (runAp_after _ _ s t .seq h ?_)
  rw [M.bind_ok (rdA_run a s), M.bind_ok hw]
  rfl

theorem bits_low (v : Word) (n : Nat) (hn : n ≤ 64) : bits v 0 n = v.setWidth n := (BitVec.setWidth_eq_extractLsb' hn).symm

theorem and_lowMask (v : Word) (n : Nat) (hn : n < 64) : v &&& BitVec.ofNat 64 (2 ^ n - 1) = (v.setWidth n).setWidth 64 := by
  have h : 2 ^ n < 2 ^ 64 := Nat.pow_lt_pow_right (by decide) hn
  apply BitVec.eq_of_toNat_eq
  rw [BitVec.toNat_and, BitVec.toNat_ofNat, Nat.mod_eq_of_lt (by omega), Nat.and_two_pow_sub_one_eq_mod, BitVec.toNat_setWidth,
    BitVec.toNat_setWidth, Nat.mod_eq_of_lt ((Nat.mod_lt _ (by positivity)).trans h)]

/-- The registers of the three numbered families that any code may write have no privileged part. -/
theorem writePriv_family (n : Nat) (v : Word) (h : n < 15 ∨ 0x30 ≤ n ∧ n < 0x36 ∨ 0x180 ≤ n ∧ n < 0x190) :
    writePriv n v = pure () := by
  unfold writePriv
  split
  case h_21 => rfl
  all_goals omega

theorem sysWrite_waitb (s : State) (v : Word) (k : Nat) (h : k < 15) : sysWrite k v s =
    .ok ((), (s.modRegs fun r => { r with waitb := r.waitb.setIfInBounds k (v.setWidth 32) }).writeEp k v) := by
  refine sysWrite_open ?_ (writePriv_family k v (by omega))
  unfold writeOpen
  rw [if_pos h, bits_low v 32 (by decide)]
  rfl

theorem sysWrite_lc (s : State) (v : Word) (k : Nat) (h : k < 6) : sysWrite (0x30 + k) v s =
    .ok ((), s.modRegs fun r => { r with lc := r.lc.setIfInBounds k v }) := by
  refine sysWrite_open ?_ (writePriv_family _ v (by omega))
  unfold writeOpen
  rw [if_neg (by omega), if_neg (by omega), if_pos (by omega), Nat.add_sub_cancel_left]
  rfl

theorem sysWrite_wcnt (s : State) (v : Word) (k : Nat) (h : k < 16) : sysWrite (0x180 + k) v s =
    .ok ((), s.modCoreRegs fun r => { r with wcnt := r.wcnt.setIfInBounds k (v.setWidth 32) }) := by
  refine sysWrite_open ?_ (writePriv_family _ v (by omega))
  unfold writeOpen
  rw [if_neg (by omega), if_neg (by omega), if_neg (by omega), if_pos (by omega), Nat.add_sub_cancel_left,
    bits_low v 32 (by decide)]
  rfl

theorem sysWrite_openRegisters (s : State) (v : Word) : ∀ p ∈ openRegisters v,
    p.1 ≠ 0x1D1 ∧ sysWrite p.1 v s = .ok ((), p.2 s) := by
  simp only [openRegisters, List.forall_mem_append, List.forall_mem_map, List.mem_range, List.forall_mem_cons, List.not_mem_nil,
    false_imp_iff, implies_true, and_true]
  refine ⟨⟨⟨fun k hk => ⟨by omega, sysWrite_waitb s v k hk⟩, fun k hk => ⟨by omega, sysWrite_lc s v k hk⟩⟩,
    fun k hk => ⟨by omega, sysWrite_wcnt s v k hk⟩⟩, ?_⟩
  rw [← and_lowMask v 32 (by decide), ← and_lowMask v 16 (by decide)]
  exact ⟨⟨by decide, sysWrite_open rfl rfl⟩, ⟨by decide, sysWrite_open rfl rfl⟩, ⟨by decide, sysWrite_open rfl rfl⟩,
    ⟨by decide, sysWrite_open rfl rfl⟩, ⟨by decide, sysWrite_open rfl rfl⟩, ⟨by decide, sysWrite_open rfl rfl⟩,
    ⟨by decide, sysWrite_open rfl rfl⟩, ⟨by decide, sysWrite_open rfl rfl⟩⟩

theorem sysWrite_privilegedRegisters (s : State) (v : Word) : ∀ p ∈ privilegedRegisters v,
    p.1 ≠ 0x1D1 ∧ sysWrite p.1 v s = .ok ((), if s.privileged then p.2 s else s) := by
  simp only [privilegedRegisters, List.forall_mem_cons, List.not_mem_nil, false_imp_iff, implies_true, and_true]
  refine ⟨?_, ?_, ?_, ?_, ?_, ?_, ?_, ?_, ?_⟩
  all_goals exact ⟨by decide, sysWrite_privileged rfl rfl⟩

theorem sysWrite_readOnlyRegisters (s : State) (v : Word) : ∀ n ∈ readOnlyRegisters,
    n ≠ 0x1D1 ∧ sysWrite n v s = .ok ((), s) := by
  simp only [readOnlyRegisters, List.forall_mem_cons, List.not_mem_nil, false_imp_iff, implies_true, and_true]
  refine ⟨?_, ?_, ?_, ?_, ?_, ?_, ?_, ?_, ?_, ?_, ?_, ?_, ?_, ?_⟩
  all_goals exact ⟨by decide, sysWrite_open rfl rfl⟩

theorem csrwWrites : Clauses.CsrwWrites := by
  refine fun s a n h => ⟨fun p hp hn => ?_, fun p hp hn => ?_, fun hn => ?_⟩
  · obtain ⟨hne, hw⟩ := sysWrite_openRegisters s (s.aread a.toNat) p hp
    rw [← hn] at hne hw
    exact exec_csrw_after h hne hw
  · obtain ⟨hne, hw⟩ := sysWrite_privilegedRegisters s (s.aread a.toNat) p hp
    rw [← hn] at hne hw
    exact exec_csrw_after h hne hw
  · obtain ⟨hne, hw⟩ := sysWrite_readOnlyRegisters s (s.aread a.toNat) _ hn
    exact exec_csrw_after h hne hw

/-! ### At the EP's place -/

theorem State.writeEp_active (s : State) (reg : Nat) (v : Word) (h : s.inShadow = false) :
    s.writeEp reg v = s.modEp fun e => { e with writes := e.writes ++ [⟨s.ap.seq, reg, v⟩] } :=
  if_neg (by simp [h])

/-- The EP takes a write of the AP's that stands at its own place. -/
theorem State.epPass_write (s : State) (reg : Nat) (w : Word) (h : s.ep.writes = [⟨s.ep.seq, reg, w⟩]) :
    s.epPass.regs = s.regs.epWrite ⟨s.ep.seq, reg, w⟩ ∧ s.epPass.ep.writes = [] := by
  have h : s.core.strand.ep.writes = [⟨s.core.strand.ep.seq, reg, w⟩] := h
  simp [State.epPass, State.modStrand, State.modCore, State.regs, State.ep, h]

theorem Regs.epWrite_waitb (r : Regs) (x k : Nat) (w : Word) (hk : k < 15) :
    r.epWrite ⟨x, k, w⟩ = { r with waitbEp := r.waitbEp.setIfInBounds k (w.setWidth 32) } := by
  unfold Regs.epWrite
  dsimp only
  rw [if_neg (by omega), if_neg (by omega), if_neg (by omega), if_pos hk, bits_low w 32 (by decide)]

theorem aflagsWrittenInProgramOrder : Clauses.AflagsWrittenInProgramOrder := by
  intro s v hs
  have he : s.writeAflags v = (s.modRegs fun r => { r with aflagsAp := v &&& 0x17F7F#64 }).modEp fun e =>
    { e with writes := e.writes ++ [⟨s.ap.seq, 0x110, v &&& 0x17F7F#64⟩] } := State.writeEp_active _ _ _ hs
  refine ⟨by rw [he]; rfl, by rw [he]; rfl, by rw [he]; rfl, fun hv => ?_, fun w hw => ?_, fun w k hk hw => ?_⟩
  · show execAflagsWrite s = _
    rw [execAflagsWrite, hv, BitVec.ofNat_toNat, BitVec.setWidth_eq]
  · obtain ⟨hr, hn⟩ := s.epPass_write _ w hw
    exact ⟨by rw [hr]; rfl, hn⟩
  · obtain ⟨hr, hn⟩ := s.epPass_write k w hw
    rw [hr, Regs.epWrite_waitb _ _ k w hk]
    exact ⟨by simp [show k < 16 by omega], rfl, hn⟩

/-- Settles O34, clause by clause. -/
theorem systemRegistersWritten : Obligations.SystemRegistersWritten := ⟨csrwWrites, aflagsWrittenInProgramOrder⟩

end Sys2Proof.Machine
end

section
/-!
SUPPORT. Hints, literals, and the words that bind the next one: `rep` and the access options (R49 to R51, R67, R77, R78, R83 to R85).
-/
namespace Sys2Proof.Machine

/-! ### Hints -/

theorem exec_hint (s : State) (e : BitVec 1) (x : BitVec 24) (h : s.mayRun (.hint e x) = true) :
    exec (.hint e x) s = .next (s.after s (.hint e x) .seq) :=
  runShared_ok _ _ s s .seq h rfl (.inl rfl)

/-! ### Literals -/

/-- A literal lies four times the offset of its word from the word (R77). -/
theorem litAddr_eq (pc : BitVec 56) (o : BitVec 18) : litAddr pc o = pc + 4 * o.signExtend 56 := by
  have h : o.signExtend 56 <<< 2 = 4 * o.signExtend 56 := by
    rw [BitVec.shiftLeft_eq_mul_twoPow, BitVec.mul_comm]; rfl
  rw [litAddr, h]

theorem litBad_aligned {a : BitVec 56} (h : a.toNat % 8 = 0) : litBad a = false := by
  have h : field a 0 3 = 0 := by rw [field_eq_div_mod]; simpa using h
  rw [litBad, h]; rfl

theorem translate_ok {s t : State} {va : Word} {n : Need} {p : Phys} (h : s.translate va n s.privileged = .ok (p, t)) :
    translate va n s = .ok (p, t) := by
  unfold translate; rw [h]

theorem translate_error {s : State} {va : Word} {n : Need} {x : Trap} (h : s.translate va n s.privileged = .error x) :
    translate va n s = .error (.trap (some (s.missed va n.host)) x) := by
  unfold translate; rw [h]

section LdpAp
variable {s : State} {d : BitVec 6} {a : BitVec 56} {w : Nat} (hs : s.inShadow = false) (ha : a.toNat % 8 = 0)
include hs ha

theorem ldpAp_outside (hr : s.strand.image.read a.toNat 8 = none) : ldpAp d a w s = .error (.trap none (mkTrap .p 4 0)) := by
  rw [ldpAp, M.get_bind, hs, litBad_aligned ha, State.litOut, hr]
  rfl

variable {bs : List Byte} (hr : s.strand.image.read a.toNat 8 = some bs)
include hr

/-- Inside the image the translation comes first, then the mark of the sector, then the literal. -/
theorem ldpAp_inside : ldpAp d a w s = (translate (a.setWidth 64) readNeed >>= fun _ => do
      if s.strand.image.badAt a 8 then accTrap 0x16 0 0 (a.setWidth 64)
      wrA d (leWord bs)
      return .seq) s := by
  rw [ldpAp, M.get_bind, hs, litBad_aligned ha, State.litOut, State.literal, hr]
  rfl

theorem ldpAp_faults {x : Trap} (htr : s.translate (a.setWidth 64) readNeed s.privileged = .error x) :
    ldpAp d a w s = .error (.trap (some (s.missed (a.setWidth 64) false)) x) := by
  rw [ldpAp_inside hs ha hr, M.bind_error (translate_error htr)]
  rfl

variable {p : Phys} {t : State} (htr : s.translate (a.setWidth 64) readNeed s.privileged = .ok (p, t))
include htr

theorem ldpAp_loads (hb : s.strand.image.badAt a 8 = false) : ldpAp d a w s = .ok (.seq, t.awrite d.toNat (leWord bs)) := by
  rw [ldpAp_inside hs ha hr, M.bind_ok (translate_ok htr), hb]
  rfl

theorem ldpAp_poisoned (hb : s.strand.image.badAt a 8 = true) : ldpAp d a w s =
    .error (.trap (some t) { mkTrap .p 0x16 0 with va := a.setWidth 64, priv := t.privileged }) := by
  rw [ldpAp_inside hs ha hr, M.bind_ok (translate_ok htr), hb]
  rfl

end LdpAp

theorem exec_ldp_ap (s : State) (d : BitVec 6) (o : BitVec 18) :
    exec (.ldp 0#1 d o) s = runAp (.ldp 0#1 d o) (ldpAp d (s.wordPc + 4 * o.signExtend 56) (illegalArg (.ldp 0#1 d o))) s := by
  rw [← litAddr_eq]; rfl

theorem exec_ldp_ep (s : State) (d : BitVec 6) (o : BitVec 18) :
    exec (.ldp 1#1 d o) s = runEp (.ldp 1#1 d o) (ldpEp d (s.wordPcEp + 4 * o.signExtend 56)) s := by
  rw [← litAddr_eq]; rfl

theorem ldpEp_loads (s : State) (d : BitVec 6) (a : BitVec 56) (bs : List Byte) (hr : s.strand.image.read a.toNat 8 = some bs)
    (hb : s.strand.image.badAt a 8 = false) : ldpEp d a s = .ok (.seq, s.ewrite d.toNat (leWord bs)) := by
  rw [ldpEp, M.get_bind, hb, State.literal, hr]
  rfl

/-- A translation leaves the privilege of the strand that asks for it. -/
theorem State.cachesOnly.privileged {s t : State} (h : s.cachesOnly t) : t.privileged = s.privileged := by
  unfold State.privileged State.inShadow State.strand; rw [h.core]; rfl

theorem hintsAndLiterals : Clauses.HintsAndLiterals := by
  refine ⟨exec_hint, fun s d o a h hs ha h8 => ?_, fun s d o bs h hr hb => ?_⟩
  · rw [exec_ldp_ap, ← ha]
    refine ⟨fun bs hr => ⟨fun x htr => ?_, fun p t htr => ⟨fun hb => ?_, fun hb => ?_⟩⟩, fun hr => ?_⟩
    · exact runAp_trap _ _ s _ x h (ldpAp_faults hs h8 hr htr)
    · exact runAp_after _ _ s _ .seq h (ldpAp_loads hs h8 hr htr hb)
    · rw [← (State.cachesOnly_translate htr).privileged]
      exact runAp_trap _ _ s _ _ h (ldpAp_poisoned hs h8 hr htr hb)
    · exact runAp_trap _ _ s none _ h (ldpAp_outside hs h8 hr)
  · rw [exec_ldp_ep]
    exact runEp_after _ _ s _ .seq h (ldpEp_loads s d _ bs hr hb)

/-! ### `rep` on the AP -/

section RepAp
variable {s : State} {i j : Instr} {c : Nat} (hl : apLegal s i = true) (hj : s.repTarget 0#1 = some j)
include hl hj

/-- A legal `rep` before a word that it may bind goes on by its half of `rc`, its count and its allotment. -/
theorem repAp_cases : s.repAp i c = if field s.regs.rc 0 32 ≠ 0 then s.bindAp .rep
    else if c = 0 then s.skipRepAp j
    else if allotAp s.regs.rotbase ≠ 0 ∧ allotAp s.regs.rotbase < c then s.takeTrap (mkTrap .p 6 c)
    else (s.modRegs fun r => { r with rc := setField r.rc 0 32 c }).bindAp .rep := by
  have hj : s.repTarget 0 = some j := hj
  rw [State.repAp, hl, hj]
  rfl

theorem repAp_goesOn (hrc : field s.regs.rc 0 32 ≠ 0) : s.repAp i c = s.modAp fun a => { a with bind := .rep } := by
  rw [repAp_cases hl hj, if_pos hrc]; rfl

variable (hrc : field s.regs.rc 0 32 = 0)
include hrc

theorem repAp_skips (hp : writesApPred j = false) (hd : apPredDest j = none) : s.repAp i 0 = s.apGo (s.ap.pc + 8) := by
  rw [repAp_cases hl hj, if_neg (by simp [hrc]), if_pos rfl, State.skipRepAp, hp, State.pushPred, hd]
  rfl

theorem repAp_binds (hc : c ≠ 0) (ha : allotAp s.regs.rotbase = 0 ∨ c ≤ allotAp s.regs.rotbase) : s.repAp i c =
    (s.modRegs fun r => { r with rc := setField r.rc 0 32 c }).modAp fun a => { a with bind := .rep } := by
  rw [repAp_cases hl hj, if_neg (by simp [hrc]), if_neg hc, if_neg (by omega)]
  rfl

theorem repAp_refused (hc : c ≠ 0) (ha : allotAp s.regs.rotbase ≠ 0) (hlt : allotAp s.regs.rotbase < c) :
    s.repAp i c = s.takeTrap (mkTrap .p 6 c) := by
  rw [repAp_cases hl hj, if_neg (by simp [hrc]), if_neg hc, if_pos ⟨ha, hlt⟩]

end RepAp

/-! ### `rep` on the EP -/

theorem State.beginEp_counts (s : State) {c : Nat} (hc : c ≠ 0) : s.beginEp c =
    (s.modRegs fun r => { r with rc := setField r.rc 32 32 c }).modEp fun e => { e with bind := .rep, repCount := c } :=
  if_neg hc

section RepEp
variable {s : State} {j : Instr} (hj : s.repTarget 1#1 = some j) (hrc : field s.regs.rc 32 32 = 0)
include hj hrc

theorem repEp_begins (n : Nat) : s.repEp n = s.beginEp n := by
  have hj : s.repTarget 1 = some j := hj
  rw [State.repEp, hj, if_neg (by simp), if_neg (by simp [hrc])]

theorem repRegEp_begins {c n : Nat} (hc : c < 32) (hn : n = field (s.eread c) 0 32)
    (ha : allotEp s.regs.rotbase = 0 ∨ n ≤ allotEp s.regs.rotbase) :
    s.repRegEp c = (s.modEp fun e => { e with taken := [], used := [], block := none }).beginEp n := by
  have hj : s.repTarget 1 = some j := hj
  have hread : readEp c 0 s = .ok (s.eread c, s) := by rw [readEp, if_pos hc]; rfl
  subst hn
  rw [State.repRegEp, hj, if_neg (by simp), if_neg (by simp [hrc]), hread]
  exact if_neg (by omega)

end RepEp

/-! ### The meanings of `rep` -/

section Exec
variable {s : State} (hn : s.onEngine = none) (hs : s.inShadow = false)
include hn hs

theorem exec_repN_ap (n : BitVec 20) : exec (.repN 0#1 n) s = .next (s.repAp (.repN 0#1 n) n.toNat) := by
  show execRepN 0#1 n s = _
  rw [execRepN, hn, hs]; rfl

theorem exec_repN_ep (n : BitVec 20) : exec (.repN 1#1 n) s = .next (s.repEp n.toNat) := by
  show execRepN 1#1 n s = _
  rw [execRepN, hn, hs]; rfl

theorem exec_repReg_ap (c : BitVec 6) :
    exec (.repReg 0#1 c) s = .next (s.repAp (.repReg 0#1 c) (field (s.aread c.toNat) 0 32)) := by
  show execRepReg 0#1 c s = _
  rw [execRepReg, hn, hs]; rfl

theorem exec_repReg_ep (c : BitVec 6) : exec (.repReg 1#1 c) s = .next (s.repRegEp c.toNat) := by
  show execRepReg 1#1 c s = _
  rw [execRepReg, hn, hs]; rfl

end Exec

theorem repeatPrefixBinds : Clauses.RepeatPrefixBinds := by
  refine ⟨fun s n j hn hs hl hj => ?_, fun s c j hn hs hl hj hrc hc ha => ?_, fun s n j hn hs hj hrc h0 => ?_,
    fun s c j hn hs hj hc hrc h0 ha => ?_⟩
  · rw [exec_repN_ap hn hs]
    refine ⟨fun hrc => ?_, fun hrc h0 ha => ?_, fun hrc h0 ha hlt => ?_, fun hrc h0 hp hd => ?_⟩
    · rw [repAp_goesOn hl hj hrc]
    · rw [repAp_binds hl hj hrc (BitVec.toNat_ne.1 h0) ha]
    · rw [repAp_refused hl hj hrc (BitVec.toNat_ne.1 h0) ha hlt]
    · subst h0
      exact ⟨_, congrArg _ (repAp_skips hl hj hrc hp hd), rfl, rfl, rfl⟩
  · rw [exec_repReg_ap hn hs, repAp_binds hl hj hrc hc ha]
  · rw [exec_repN_ep hn hs, repEp_begins hj hrc, s.beginEp_counts (BitVec.toNat_ne.1 h0)]
  · rw [exec_repReg_ep hn hs, repRegEp_begins hj hrc hc rfl ha, State.beginEp_counts _ h0]
    refine ⟨_, rfl, rfl, ?_, ?_, rfl, rfl, rfl⟩
    · exact (field_setField_same s.regs.rc 32 32 _ (by decide)).trans (Nat.mod_eq_of_lt (field_lt _ 0 32))
    · exact field_setField_disjoint s.regs.rc 32 32 _ 0 32 (by decide) (.inl (by decide))

/-! ### Access options -/

theorem accessPrefixBinds : Clauses.AccessPrefixBinds := fun s c a l k v p z h => by
  obtain ⟨-, -, hl, -⟩ := (apRuns_iff s _).1 h
  exact if_pos hl

/-- Settles O29, clause by clause. -/
theorem prefixesBindAndLiteralsLoad : Obligations.PrefixesBindAndLiteralsLoad :=
  ⟨hintsAndLiterals, repeatPrefixBinds, accessPrefixBinds⟩

end Sys2Proof.Machine
end

section
/-!
SUPPORT. Atomics: the read and the write at the home of the word, and what they leave of the access (R60, R109, R112, R319).
-/
namespace Sys2Proof.Machine
open Sys2Proof

/-! ### What an atomic leaves of the core -/

theorem State.cachesOnly.accessOpts {s t : State} (h : s.cachesOnly t) : t.accessOpts = s.accessOpts := by
  unfold State.accessOpts State.ap; rw [h.core]; rfl

theorem State.accessOpts_awrite (s : State) (c : Nat) (v : Word) : (s.awrite c v).accessOpts = s.accessOpts := by
  unfold State.awrite
  split_ifs <;> rfl

theorem State.cachesOnly_dropL1 (s : State) (which : L1Sector → Bool) : s.cachesOnly (s.dropL1 which) := by
  unfold State.dropL1
  exact ((State.cachesOnly_foldl _ State.cachesOnly_writeBack _ s).trans (State.cachesOnly_modOrder _ _)).trans ⟨rfl, id⟩

theorem State.cachesOnly_touchL2 (s : State) (sp : Space) (view : Bool) (a : Nat) : s.cachesOnly (s.touchL2 sp view a) :=
  .of_core (s.touchL2_core sp view a) (by rw [s.touchL2_mem]; exact id)

theorem State.cachesOnly_amoWrite (s : State) (sp : Space) (p : Phys) (bs : List Byte) : s.cachesOnly (s.amoWrite sp p bs) := by
  have hw := (s.cachesOnly_homeWrite sp p.view p.pa bs).trans (State.cachesOnly_modOrder _ fun o => o.accumulate (sectorOf p.pa))
  cases sp
  case dev | host =>
    unfold State.amoWrite
    dsimp only
    split
    · exact hw.trans (State.cachesOnly_modShare _ _)
    · exact hw
  all_goals exact s.cachesOnly_performScratch ..

theorem State.homeBytes_touchL2 (s : State) (sp : Space) (view : Bool) (a : Nat) :
    (s.touchL2 sp view a).homeBytes = s.homeBytes := by
  funext sp view a n
  rw [State.homeBytes, State.touchL2_mem]
  rfl

/-! ### At the home -/

/-- The state in which an atomic reads its word: the strand's own stores to it performed, its own copy gone, the read counted. -/
def State.atHome (s : State) (sp : Space) (p : Phys) : State :=
  ((s.drainFor sp p.pa 8).dropOwn sp p.pa).touchL2 sp p.view p.pa

/-- The state that an atomic leaves at the home: a failed `cas` writes nothing. -/
def State.amoDone (s : State) (op : Nat) (sp : Space) (p : Phys) (old b exp : Word) : State :=
  if amoWrites op old exp then s.amoWrite sp p (leBytes 8 (amoNew op old b exp).toNat) else s

theorem State.cachesOnly_atHome (s : State) (sp : Space) (p : Phys) : s.cachesOnly (s.atHome sp p) :=
  ((s.cachesOnly_drainFor sp p.pa 8).trans (State.cachesOnly_dropL1 _ _)).trans (State.cachesOnly_touchL2 _ _ _ _)

theorem State.cachesOnly_amoDone (s : State) (op : Nat) (sp : Space) (p : Phys) (old b exp : Word) :
    s.cachesOnly (s.amoDone op sp p old b exp) := by
  unfold State.amoDone
  split
  · exact s.cachesOnly_amoWrite ..
  · exact .refl s

@[simp] theorem M.modify_bind {β : Type} {s : State} (g : State → State) (f : PUnit → M β) :
    ((modify g : M PUnit) >>= f) s = f ⟨⟩ (g s) := rfl

section Amo
variable {op : Nat} {z : BitVec 2} {d a b : BitVec 6} {s t : State} {sp : Space} {p : Phys} {bs : List Byte}

theorem amoHome_performs {x exp va : Word} (hst : (t.drainFor sp p.pa 8).storesAhead sp p.pa 8 = false)
    (hb : (t.atHome sp p).homeBytes sp p.view p.pa 8 = (bs, false)) :
    amoHome op sp p d x exp va t =
      .ok (.seq, ((t.atHome sp p).amoDone op sp p (leWord bs) x exp).awrite d.toNat (leWord bs)) := by
  rw [State.atHome, State.homeBytes_touchL2] at hb
  rw [amoHome, M.modify_bind, M.get_bind, hst, if_neg (by simp), M.modify_bind, M.get_bind]
  dsimp only
  rw [M.set_bind, hb]
  rfl

theorem amoEnd_plain {f : Flow} (h : t.accessOpts.acq = false) : amoEnd f t = .ok (f, t) := by
  cases f with
  | stay => rfl
  | seq | goto =>
    unfold amoEnd
    dsimp only
    rw [M.get_bind, h]
    rfl

theorem amoSpace_eq (z : BitVec 2) : amoSpace z = atomicSpace z := by
  revert z; decide

theorem amo_misaligned (h : (s.aread a.toNat).toNat % 8 ≠ 0) : amo op z d a b s = .error (.trap (some s)
    { mkTrap .p 0x10 0 with
      kind := 3, priv := s.privileged, va := if 2 ≤ z.toNat then s.aread a.toNat else 0, host := z == 3#2 }) := by
  have hf : field (s.aread a.toNat) 0 3 ≠ 0 := by rwa [field_low]
  have hva : (amoSpace z == .dev || amoSpace z == .host) = decide (2 ≤ z.toNat) := by revert z; decide
  have hhost : (amoSpace z == .host) = (z == 3#2) := by revert z; decide
  rw [amo, M.bind_ok (rdA_run a s), M.bind_ok (rdA_run b s), M.bind_ok (rdA_run d s), hva, hhost]
  dsimp only
  rw [if_pos hf, M.bind_error (accTrap_apply _ _ _ _ _ s)]
  simp only [decide_eq_true_eq]

section Aligned
variable (ha : (s.aread a.toNat).toNat % 8 = 0) (hp : amoPlace (atomicSpace z) (s.aread a.toNat) s = .ok (p, t))
  (hin : t.inFlight < 8192) (hl : t.late = false ∨ t.ap.arrived = true) (hrel : t.accessOpts.rel = false)
  (hacq : t.accessOpts.acq = false) (hpod : ∀ n o, t.targetOf (atomicSpace z) p.pa ≠ .pod n o)
  (hst : (t.drainFor (atomicSpace z) p.pa 8).storesAhead (atomicSpace z) p.pa 8 = false)
  (hb : (t.atHome (atomicSpace z) p).homeBytes (atomicSpace z) p.view p.pa 8 = (bs, false))
include ha hp hin hl hrel hacq hpod hst hb

theorem amo_performs : amo op z d a b s = .ok (.seq,
    ((t.atHome (atomicSpace z) p).amoDone op (atomicSpace z) p (leWord bs) (s.aread b.toNat) (s.aread d.toNat)).awrite d.toNat
      (leWord bs)) := by
  have hf : field (s.aread a.toNat) 0 3 = 0 := by rwa [field_low]
  rw [amo, amoSpace_eq, M.bind_ok (rdA_run a s), M.bind_ok (rdA_run b s), M.bind_ok (rdA_run d s)]
  dsimp only
  rw [if_neg (by simp [hf]), M.bind_ok hp, M.bind_ok (needRequest_free _ 0 t hin), awaitData_here _ t hl, M.get_bind]
  have hend : ∀ old x y, (((t.atHome (atomicSpace z) p).amoDone op (atomicSpace z) p old x y).awrite d.toNat old).accessOpts =
      t.accessOpts := fun old x y => by
    rw [State.accessOpts_awrite]
    exact ((t.cachesOnly_atHome _ p).trans (State.cachesOnly_amoDone ..)).accessOpts
  generalize t.targetOf (atomicSpace z) p.pa = g at hpod
  rw [hrel]
  cases g with
  | pod n o => exact absurd rfl (hpod n o)
  | stack | window | nothing =>
    exact (M.bind_ok (amoHome_performs hst hb)).trans (amoEnd_plain (by rw [hend, hacq]))

end Aligned
end Amo

/-! ### The forms -/

/-- Each atomic is `amo` of an operation that gives the word of its form, and only a failed `cas` writes none. -/
theorem atomicForms_amo (d a b : BitVec 6) (z : BitVec 2) : ∀ f ∈ atomicForms, ∃ op,
    (∀ s, exec (f.1 d a b z) s = runAp (f.1 d a b z) (amo op z d a b) s) ∧ (∀ old x y, amoNew op old x y = f.2 old x y) ∧
    ∀ old y, amoWrites op old y = true ↔ ¬(f.1 d a b z = .amoCas d a b z ∧ old ≠ y) := by
  simp only [atomicForms, List.forall_mem_cons, List.not_mem_nil, false_imp_iff, implies_true, and_true]
  refine ⟨⟨0, fun _ => rfl, ?_⟩, ⟨1, fun _ => rfl, ?_⟩, ⟨2, fun _ => rfl, ?_⟩, ⟨3, fun _ => rfl, ?_⟩, ⟨4, fun _ => rfl, ?_⟩,
    ⟨5, fun _ => rfl, ?_⟩, ⟨6, fun _ => rfl, ?_⟩, ⟨7, fun _ => rfl, ?_⟩, ⟨8, fun _ => rfl, ?_⟩, ⟨9, fun _ => rfl, ?_⟩⟩
  all_goals simp [amoNew, amoWrites, BitVec.slt_iff_toInt_lt, BitVec.ult_iff_toNat_lt]

/-- Settles O8: every form is `amo` of its operation, whose run ends at the home of the word or at the check of its address. -/
theorem atomicsReadModifyWrite : Obligations.AtomicsReadModifyWrite := by
  intro s d a b z f hf hrun
  obtain ⟨op, hexec, hnew, hwrites⟩ := atomicForms_amo d a b z f hf
  rw [hexec]
  refine ⟨fun h => runAp_trap _ _ s _ _ hrun (amo_misaligned h), fun p t u bs ha hp hin hl hrel hacq hpod hst hu hb => ?_⟩
  subst hu
  rw [runAp_after _ _ s _ .seq hrun (amo_performs ha hp hin hl hrel hacq hpod hst hb), State.amoDone, hnew]
  by_cases hc : f.1 d a b z = .amoCas d a b z ∧ leWord bs ≠ s.aread d.toNat
  · rw [if_pos hc, if_neg fun h => (hwrites _ _).1 h hc]
    rfl
  · rw [if_neg hc, if_pos ((hwrites _ _).2 hc)]
    rfl

end Sys2Proof.Machine
end

section
/-!
SUPPORT. Compares and predicate logic on every agent, and the AP's wait for predicates of the EP (R26, R55, R74 to R76, R98).
-/
namespace Sys2Proof.Machine
open Sys2Proof

/-- The conditions of R55, by their code. -/
theorem cond_eq_compareCondition (c : BitVec 3) (x y : Word) : cond c x y = compareCondition c x y := by
  have hc : c = 0 ∨ c = 1 ∨ c = 2 ∨ c = 3 ∨ c = 4 ∨ c = 5 ∨ c = 6 ∨ c = 7 := by revert c; decide
  rcases hc with rfl | rfl | rfl | rfl | rfl | rfl | rfl | rfl
  · show (x == y) = decide (x = y)
    exact Bool.beq_eq_decide_eq x y
  · show (!(x == y)) = decide (¬x = y)
    rw [Bool.beq_eq_decide_eq, decide_not]
  · rfl
  · show (!decide (x.toInt < y.toInt)) = decide (y.toInt ≤ x.toInt)
    rw [← decide_not, decide_eq_decide, not_lt]
  · rfl
  · show (!decide (x.toNat < y.toNat)) = decide (y.toNat ≤ x.toNat)
    rw [← decide_not, decide_eq_decide, not_lt]
  · show bit x (field y 0 6) = x.getLsbD (y.toNat % 2 ^ 6)
    rw [field_low]
    rfl
  · show (!bit x (field y 0 6)) = !x.getLsbD (y.toNat % 2 ^ 6)
    rw [field_low]
    rfl

section Forms
variable {s s1 s2 : State} {e : BitVec 1} {d a b : BitVec 6}

theorem wrPred_apply (s : State) (d : BitVec 6) (v : Bool) : wrPred d v s = .ok ((), s.wrotePred d v) := rfl

theorem exec_cmp_writes {c : BitVec 3} {x y : Word} (ha : rd e a s = .ok (x, s1)) (hb : rd e b s1 = .ok (y, s2))
    (hrun : s.mayRun (.cmp e d a b c) = true) : exec (.cmp e d a b c) s =
      .next (s.after (s2.wrotePred d (compareCondition c x y)) (.cmp e d a b c) .seq) := by
  refine runShared_ok _ _ s _ .seq hrun ?_ (.inl rfl)
  rw [M.bind_ok ha, M.bind_ok hb, M.bind_ok (wrPred_apply ..), cond_eq_compareCondition]
  rfl

theorem exec_cmpi_writes {c : BitVec 3} {m : BitVec 9} {x : Word} (ha : rd e a s = .ok (x, s1))
    (hrun : s.mayRun (.cmpi e d a c m) = true) : exec (.cmpi e d a c m) s =
      .next (s.after (s1.wrotePred d (compareCondition c x (m.signExtend 64))) (.cmpi e d a c m) .seq) := by
  refine runShared_ok _ _ s _ .seq hrun ?_ (.inl rfl)
  rw [M.bind_ok ha, M.bind_ok (wrPred_apply ..), cond_eq_compareCondition]
  rfl

theorem exec_predicateForm (s : State) (e : BitVec 1) (d a b : BitVec 6) :
    ∀ p ∈ predicateForms, exec (p.1 e d a b) s = runShared (p.1 e d a b) (predRR e d a b p.2) s := by
  simp only [predicateForms, List.forall_mem_cons, List.not_mem_nil, false_imp_iff, implies_true, and_true]
  exact ⟨rfl, rfl, rfl, rfl⟩

theorem predRR_ok {x y : Bool} (f : Bool → Bool → Bool) (ha : rdPred e a s = .ok (x, s1)) (hb : rdPred e b s1 = .ok (y, s2)) :
    predRR e d a b f s = .ok (.seq, s2.wrotePred d (f x y)) := by
  rw [predRR, M.bind_ok ha, M.bind_ok hb, M.bind_ok (wrPred_apply ..), M.pure_apply]

theorem exec_pnot_writes {x : Bool} (ha : rdPred e a s = .ok (x, s1)) (hrun : s.mayRun (.pnot e d a) = true) :
    exec (.pnot e d a) s = .next (s.after (s1.wrotePred d (!x)) (.pnot e d a) .seq) := by
  refine runShared_ok _ _ s _ .seq hrun ?_ (.inl rfl)
  rw [M.bind_ok ha, M.bind_ok (wrPred_apply ..), M.pure_apply]

end Forms

theorem comparesWritePredicate : Clauses.ComparesWritePredicate := by
  refine ⟨fun s s1 s2 e d a b c x y ha hb hrun => exec_cmp_writes ha hb hrun,
    fun s s1 e d a c m x ha hrun => exec_cmpi_writes ha hrun, fun s e d a b x y ha hb p hp hrun => ?_,
    fun s e d a x ha hrun => exec_pnot_writes ha hrun⟩
  rw [exec_predicateForm s e d a b p hp]
  exact runShared_ok _ _ s _ .seq hrun (predRR_ok p.2 ha hb) (.inl rfl)

/-- A source predicate of the AP: it waits where a word of the EP still has to write it (R25, R26). -/
theorem rdPred_ap (s : State) (c : BitVec 6) (hn : s.onEngine = none) (hs : s.inShadow = false) :
    rdPred 0#1 c s = if s.ep.pPend.any (fun w => w.pred == c.toNat) then
      .error (.block { cls := 0, kind := 9, obj := 0, tally := c.toNat + 2 }) else .ok (s.predAp c.toNat, s) := by
  rw [rdPred, M.get_bind, hn, hs]
  dsimp only
  rw [if_neg (by decide), Bool.not_false, Bool.true_and]
  split_ifs <;> rfl

theorem apWaitsForEpPredicates : Clauses.ApWaitsForEpPredicates := fun s c hn hs =>
  ⟨fun hp => by rw [rdPred_ap s c hn hs, if_pos hp], fun hp => by rw [rdPred_ap s c hn hs, hp]; rfl⟩

/-- Settles O26, clause by clause. -/
theorem predicateFormsWriteResult : Obligations.PredicateFormsWriteResult := ⟨comparesWritePredicate, apWaitsForEpPredicates⟩

end Sys2Proof.Machine
end

section
/-!
SUPPORT. Branches, calls and register jumps (R36, R45, R79, R80, R98, R390).
-/
namespace Sys2Proof.Machine
open Sys2Proof

theorem shiftLeft_two (x : BitVec 56) : x <<< 2 = 4 * x := by
  rw [BitVec.shiftLeft_eq_mul_twoPow, BitVec.mul_comm]; rfl

/-! ### `bt`, `bf` and `call` -/

theorem branchIf_apply (v : Bool) (o : BitVec 18) (s : State) :
    branchIf v o s = .ok (.goto (if v then s.branchTo o else s.nextWord) false, s) := rfl

section Branch
variable {s : State} {c : BitVec 6} {o : BitVec 18} {v : Bool} (hv : rdPred 0#1 c s = .ok (v, s))
include hv

theorem exec_bt_goes (hrun : s.mayRun (.bt c o) = true) (hp : s.branchOk (if v then s.branchTo o else s.nextWord) = true) :
    exec (.bt c o) s = .next (s.after s (.bt c o) (.goto (if v then s.branchTo o else s.nextWord) false)) :=
  runShared_ok _ _ s s _ hrun (by rw [M.bind_ok hv, branchIf_apply]) (.inr ⟨_, _, rfl, hp⟩)

theorem exec_bf_goes (hrun : s.mayRun (.bf c o) = true) (hp : s.branchOk (if v then s.nextWord else s.branchTo o) = true) :
    exec (.bf c o) s = .next (s.after s (.bf c o) (.goto (if v then s.nextWord else s.branchTo o) false)) := by
  refine runShared_ok _ _ s s _ hrun ?_ (.inr ⟨_, _, rfl, hp⟩)
  rw [M.bind_ok hv, branchIf_apply]
  cases v <;> rfl

end Branch

theorem exec_call_links {s : State} {c : BitVec 6} {o : BitVec 18} (hrun : s.apRuns (.call c o)) : exec (.call c o) s =
    .next (s.after (s.awrite c.toNat (s.nextWord.setWidth 64)) (.call c o) (.goto (s.branchTo o) false)) :=
  (runShared_ap _ _ s hrun).trans (runAp_after _ _ s _ _ hrun rfl)

theorem branchTargets : Clauses.BranchTargets := by
  intro s o hn hs hb
  simp [State.branchTo, State.nextWord, State.wordPc, hn, hs, hb, boundSize, shiftLeft_two]

theorem engineBranchOutOfWindowStops : Clauses.EngineBranchOutOfWindowStops := by
  intro s n c o hn hwf hf hout
  have hv : rdPred 0#1 c s = .ok (true, s) := by rw [rdPred, M.get_bind, hn, ← hf]; rfl
  show execBt c o s = _
  rw [execBt, runShared, hn]
  dsimp only
  rw [runEngine, if_pos hwf, M.bind_ok hv, branchIf_apply]
  exact if_neg (by simp [hout])

/-! ### `jr` -/

section Jr
variable {s : State} {a : BitVec 6} (hrun : s.apRuns (.jr a))
include hrun

/-- A `jr` goes to an aligned address, and in the shadow, to which R80 does not apply, to any (R390). -/
theorem exec_jr_goes (h : field (s.aread a.toNat) 0 2 = 0 ∨ s.inShadow = true) :
    exec (.jr a) s = .next (s.after s (.jr a) (.goto ((s.aread a.toNat).setWidth 56) false)) := by
  refine (runShared_ap _ _ s hrun).trans (runAp_after _ _ s s _ hrun ?_)
  rw [M.bind_ok (rdA_run a s), M.get_bind, hrun.1]
  exact congrFun (if_neg (by rcases h with h | h <;> simp [h])) s

theorem exec_jr_misaligned (hs : s.inShadow = false) (h : field (s.aread a.toNat) 0 2 ≠ 0) :
    exec (.jr a) s = .next (s.takeTrap { mkTrap .p 2 0 with va := s.aread a.toNat }) := by
  refine (runShared_ap _ _ s hrun).trans (runAp_trap _ _ s none _ hrun ?_)
  rw [M.bind_ok (rdA_run a s), M.get_bind, hs]
  exact congrFun (if_pos (by simp [h])) s

end Jr

/-! ### A misaligned `jr` in the shadow -/

/-- A transfer in the shadow stays there. -/
theorem after_goto_mode {s : State} {i : Instr} (p : BitVec 56) (rot : Bool) (hrun : s.apRuns i) (hs : s.inShadow = true) :
    (s.after s i (.goto p rot)).core.mode = s.core.mode := by
  have hs : (s.podDone 6).inShadow = true := hs
  rw [after_ap s s i _ hrun, State.retireAp, if_pos hs]
  rfl

theorem State.setCore_same_core {s : State} {c : Core} (h : s.core.id = c.id) : (s.setCore c).core = c := by
  rw [State.setCore, if_pos h]

/-- The core whose turn it is, when its strand has ended without its save. -/
theorem State.dropCore_self_core (s : State) : (s.dropCore s.core.id).core = s.core.dropStrand s.clk := by
  rw [State.dropCore, State.dropStrand, s.coreAt_self]
  exact State.setCore_same_core rfl

/-- A cause raised in the shadow leaves the core of a strand that runs alone idle (R392). -/
theorem takeTrap_shadow_mode {s : State} (t : Trap) (hs : s.inShadow = true) (hr : s.core.running = none) :
    (s.takeTrap t).core.mode = .idle := by
  rw [takeTrap_shadow s t hs, State.endStrand, hr]
  exact congrArg Core.mode s.dropCore_self_core

/-- A core in the shadow whose register h1 holds an address that is not one of a word. -/
def shadowAtOddAddress : State := (State.reset.modCore fun c => { c with mode := .shadow }).awrite 1 1

theorem shadowAtOddAddress_runs_jr : shadowAtOddAddress.apRuns (.jr 1) := ⟨rfl, rfl, by decide⟩

theorem shadowAtOddAddress_misaligned : field (shadowAtOddAddress.aread (1 : BitVec 6).toNat) 0 2 ≠ 0 := by decide

/-- Refutes O27: its clause on `jr` says of every state that a misaligned target traps, and in the shadow, where `jr` is legal
and R80 does not apply (R390), the model goes to that target.  Outside the shadow `exec_jr_misaligned` gives the trap; the other
clauses hold, by the lemmas above. -/
theorem not_branchesTransfer : ¬Obligations.BranchesTransfer := by
  rintro ⟨⟨-, -, hjr⟩, -, -⟩
  have hs : shadowAtOddAddress.inShadow = true := rfl
  have hrun := shadowAtOddAddress_runs_jr
  have htrap := (hjr _ _ hrun).2 shadowAtOddAddress_misaligned
  rw [exec_jr_goes hrun (.inr hs)] at htrap
  have hmode : Mode.shadow = Mode.idle := calc
    Mode.shadow = _ := (after_goto_mode _ _ hrun hs).symm
    _ = _ := congrArg (fun u : State => u.core.mode) (Host.Outcome.next.inj htrap)
    _ = Mode.idle := takeTrap_shadow_mode _ hs rfl
  cases hmode

end Sys2Proof.Machine
end

section
/-!
SUPPORT. Hardware loops on the AP (R81, R82).
-/
namespace Sys2Proof.Machine

/-! ### `lbeg` -/

/-- The registers when a loop is not entered: the level's counter and ACTIVE are clear. -/
def Regs.loopSkipped (g : Regs) (l : Nat) : Regs :=
  { g with lcst := g.lcst.setIfInBounds l ((g.lcst[l]?.getD 0) &&& ~~~1), lc := g.lc.setIfInBounds l 0 }

/-- The registers when a loop is entered with its count, `lcst` and `lcend`. -/
def Regs.loopEntered (g : Regs) (l : Nat) (count st last : Word) : Regs :=
  { g with lc := g.lc.setIfInBounds l count, lcst := g.lcst.setIfInBounds l st, lcend := g.lcend.setIfInBounds l last }

section Lbeg
variable {s : State} {r : BitVec 1} {l : BitVec 3} {a : BitVec 6} {n : BitVec 12}

theorem lbegAp_skips (h : s.aread a.toNat = 0 ∨ n = 1#12) : lbegAp r l a n s =
    .ok (.goto (s.wordPc + 4 * n.setWidth 56) false, s.modRegs fun g => g.loopSkipped l.toNat) := by
  rw [lbegAp, M.get_bind, shiftLeft_two]
  exact congrFun (if_pos h) s

theorem lbegAp_enters (h : ¬(s.aread a.toNat = 0 ∨ n = 1#12)) : lbegAp r l a n s =
    .ok (.goto (s.wordPc + 4) false, s.modRegs fun g => g.loopEntered l.toNat (s.aread a.toNat) (lcstWord (s.wordPc + 4) r)
      (lcendWord (s.wordPc + 4 * (n - 1).setWidth 56))) := by
  rw [lbegAp, M.get_bind, ← shiftLeft_two]
  exact congrFun (if_neg h) s

theorem exec_lbeg_ap (h : s.apRuns (.lbeg r l a n)) :
    exec (.lbeg r l a n) s = runAp (.lbeg r l a n) (lbegAp r l a n) s := by
  show execLbeg r l a n s = _
  rw [execLbeg, h.1, runShared_ap _ _ s h]

end Lbeg

/-! ### `lend` -/

/-- The `lend` of the level whose END is its address and whose START is its target (R82). -/
def State.endsLoop (s : State) (l : BitVec 3) (o : BitVec 18) : Prop :=
  bit (s.regs.lcst[l.toNat]?.getD 0) 0 = true ∧ s.wordPc = (s.regs.lcend[l.toNat]?.getD 0).setWidth 56 ∧
    s.branchTo o = (s.regs.lcst[l.toNat]?.getD 0 &&& ~~~3).setWidth 56

/-- The rotation step of a `.rot` loop (R30). -/
def Regs.loopStep (g : Regs) (rot : Bool) : Regs := if rot then g.stepKap else g

/-- The registers after another pass of the body, and after the last. -/
def Regs.loopPassed (g : Regs) (l : Nat) (st : Word) : Regs :=
  { g.loopStep (bit st 1) with lc := g.lc.setIfInBounds l ((g.lc[l]?.getD 0) - 1) }
def Regs.loopEnded (g : Regs) (l : Nat) (st : Word) : Regs :=
  { g.loopStep (bit st 1) with lc := g.lc.setIfInBounds l 0, lcst := g.lcst.setIfInBounds l (st &&& ~~~1) }

section Lend
variable {s : State} {l : BitVec 3} {o : BitVec 18}

theorem lendAp_mismatch (h : ¬s.endsLoop l o) : lendAp l o s = .error (.trap none (mkTrap .p 5 l.toNat)) := by
  rw [lendAp, M.get_bind]
  dsimp only
  rw [if_pos]
  · rfl
  · simpa [State.endsLoop, imp_iff_not_or, or_assoc] using h

/-- The right `lend` goes on at its last pass and back before it. -/
theorem lendAp_ends {st : Word} (hst : st = s.regs.lcst[l.toNat]?.getD 0) (h : s.endsLoop l o) : lendAp l o s =
    if (s.regs.lc[l.toNat]?.getD 0).toNat ≤ 1
    then .ok (.goto s.nextWord (bit st 1), s.modRegs fun g => g.loopEnded l.toNat st)
    else .ok (.goto (s.branchTo o) (bit st 1), s.modRegs fun g => g.loopPassed l.toNat st) := by
  subst hst
  obtain ⟨hactive, hend, hstart⟩ := h
  rw [lendAp, M.get_bind]
  dsimp only
  rw [if_neg (by simpa [hstart] using ⟨hactive, hend⟩), ← hstart]
  simp only [Regs.loopEnded, Regs.loopPassed, Regs.loopStep]
  split_ifs <;> rfl

theorem exec_lend_ap (h : s.apRuns (.lend l o)) : exec (.lend l o) s = runAp (.lend l o) (lendAp l o) s := by
  show execLend l o s = _
  rw [execLend, h.1, runShared_ap _ _ s h]

end Lend

/-- Settles O5: `lbeg` by whether its body runs at all, `lend` by whether it is the right one and by its counter. -/
theorem hardwareLoopsCount : Obligations.HardwareLoopsCount := by
  refine ⟨fun s r l a n hrun => ?_, fun s l o st hrun hst => ?_⟩
  · rw [exec_lbeg_ap hrun]
    exact ⟨fun h => runAp_after _ _ s _ _ hrun (lbegAp_skips h),
      fun h0 h1 => runAp_after _ _ s _ _ hrun (lbegAp_enters (not_or.2 ⟨h0, h1⟩))⟩
  · rw [exec_lend_ap hrun]
    subst hst
    refine ⟨fun h => ⟨fun hc => ?_, fun hc => ?_⟩, fun h => runAp_trap _ _ s none _ hrun (lendAp_mismatch h)⟩
    · exact runAp_after _ _ s _ _ hrun ((lendAp_ends rfl h).trans (if_neg (by omega)))
    · exact runAp_after _ _ s _ _ hrun ((lendAp_ends rfl h).trans (if_pos hc))

end Sys2Proof.Machine
end

section
/-!
SUPPORT. The system instructions (R85, R93 to R96).
-/
namespace Sys2Proof.Machine

/-! ### Words that the shadow refuses (R97) -/

theorem inShadow_of_apRuns {s : State} {i : Instr} (h : s.apRuns i) (hr : shadowRefuses i = true) : s.inShadow = false := by
  obtain ⟨-, -, hl, -⟩ := (apRuns_iff s i).1 h
  by_contra hs
  simp [apLegal, hs, shadowWf, hr] at hl

/-! ### A transfer to the next word -/

theorem State.nextWord_active (s : State) (hn : s.onEngine = none) (hs : s.inShadow = false) :
    s.nextWord = s.ap.pc + boundSize s.ap.bind := by
  simp only [State.nextWord, hn, State.wordPc, hs]
  exact (BitVec.add_assoc ..).trans (congrArg _ (BitVec.sub_add_cancel ..))

/-- A transfer that does not leave the path: its entry is not TAKEN, and the AP stands at the next word. -/
theorem retireAp_next (s : State) (i : Instr) (rot : Bool) (hn : s.onEngine = none) (hs : s.inShadow = false) :
    s.retireAp i (.goto s.nextWord rot) = (s.pushBq (pathEntry false rot s.nextWord)).apGo s.nextWord := by
  rw [retireAp_goto s i _ rot hs, ← s.nextWord_active hn hs, bne_self_eq_false]

/-! ### `yield` and `yieldp` -/

/-- The state in which the strand gives up its core (R95, R376). -/
def State.yielding (s : State) : State := s.requestGang.modAp fun a => { a with ending := some .yield }

theorem giveUp_yields {s : State} (h : ¬(s.core.regs.yreq = 1 ∧ field s.core.regs.ydead 32 32 = 0)) :
    giveUp s = .ok (.goto s.nextWord false, s.yielding) := by
  rw [giveUp, M.get_bind]
  exact congrFun (if_neg h) s

theorem giveUp_saves {s : State} (h : s.core.regs.yreq = 1 ∧ field s.core.regs.ydead 32 32 = 0) :
    giveUp s = .ok (.stay, s.modCore fun c => { c with saveDue := true }) := by
  rw [giveUp, M.get_bind]
  exact congrFun (if_pos h) s

/-- A strand that gives up its core stands behind the word, with its path entry pushed. -/
theorem retireAp_yielding (s : State) (i : Instr) (hn : s.onEngine = none) (hs : s.inShadow = false) :
    (s.yielding.podDone 6).retireAp i (.goto s.nextWord false) =
      ((s.yielding.podDone 6).pushBq (pathEntry false false s.nextWord)).apGo s.nextWord :=
  retireAp_next (s.yielding.podDone 6) i false hn hs

/-- A word that the AP runs again leaves its place (R95, R96). -/
theorem retireAp_stay (s : State) (i : Instr) : s.retireAp i .stay = s.modAp fun a => { a with bind := .none } := by
  unfold State.retireAp State.retireShadow State.retireActive
  split_ifs <;> rfl

theorem exec_yields {s : State} {i : Instr} {m : M Flow} (he : exec i s = runAp i m s) (hm : m s = giveUp s)
    (hrun : s.apRuns i) (hr : shadowRefuses i = true) (h : ¬(s.core.regs.yreq = 1 ∧ field s.core.regs.ydead 32 32 = 0)) :
    exec i s = .next (((s.yielding.podDone 6).pushBq (pathEntry false false s.nextWord)).apGo s.nextWord) := by
  rw [he, runAp_ok i m s _ _ hrun (hm.trans (giveUp_yields h)), retireAp_yielding s i hrun.1 (inShadow_of_apRuns hrun hr)]

theorem exec_yield_saves {s : State} (hrun : s.apRuns .yield) (h : s.core.regs.yreq = 1 ∧ field s.core.regs.ydead 32 32 = 0) :
    exec .yield s = .next (((s.modCore fun c => { c with saveDue := true }).podDone 6).modAp fun a => { a with bind := .none }) := by
  rw [← retireAp_stay _ .yield]
  exact runAp_ok .yield giveUp s _ _ hrun (giveUp_saves h)

theorem exec_yieldp_goesOn {s : State} (hrun : s.apRuns .yieldp) (h : s.core.regs.yreq ≠ 1) :
    exec .yieldp s = .next (s.after s .yieldp (.goto s.nextWord false)) := by
  refine runAp_after .yieldp _ s s _ hrun ?_
  rw [M.get_bind]
  exact congrFun (if_neg h) s

/-! ### `halt` -/

/-- The state in which the AP stands at a `halt` (R96, R394). -/
def State.halting (s : State) : State :=
  (s.pushBq (pathEntry false false s.nextWord)).modAp fun a =>
    { a with ending := some .halt, seq := a.seq + 1, block := some (nextBlock s.regs none { cls := 0, kind := 7, obj := 0 }) }

theorem exec_halt_stands {s : State} (hrun : s.apRuns .halt) :
    exec .halt s = .next ((s.halting.podDone 6).modAp fun a => { a with bind := .none }) := by
  rw [← retireAp_stay _ .halt]
  exact runAp_ok .halt _ s _ .stay hrun rfl

/-- Settles O7, instruction by instruction. -/
theorem systemInstructionsAct : Obligations.SystemInstructionsAct := by
  refine fun s => ⟨fun n hrun => ?_, fun hrun => ?_, fun hrun h => ?_, fun hrun h1 h2 => ?_, fun hrun h1 h2 => ?_, fun hrun h => ?_,
    fun hrun => ?_⟩
  · show execTrap n s = _
    exact runAp_trap (.trap n) _ s (some _) _ hrun rfl
  · exact runAp_after .tfence _ s s _ hrun rfl
  · exact ⟨_, exec_yields (m := giveUp) rfl rfl hrun rfl h, rfl, rfl, rfl, rfl, rfl, rfl, rfl⟩
  · exact ⟨_, exec_yield_saves hrun ⟨h1, h2⟩, rfl, rfl, rfl, rfl, rfl⟩
  · refine ⟨_, exec_yields rfl ?_ hrun rfl fun h => h2 h.2, rfl, rfl, rfl, rfl⟩
    rw [M.get_bind]
    exact congrFun (if_pos h1) s
  · exact exec_yieldp_goesOn hrun h
  · exact ⟨_, exec_halt_stands hrun, rfl, rfl, rfl, rfl, rfl, rfl, _, rfl, rfl, rfl, rfl⟩

end Sys2Proof.Machine
end

section
/-!
SUPPORT. Reads of system registers (R89, R90).
-/
namespace Sys2Proof.Machine
open Sys2Proof

theorem csrrReads : Clauses.CsrrReads := fun s d n h =>
  runAp_after (.csrr d n) _ s _ .seq h rfl

section SysRead
variable (s : State) (n : Nat)

theorem sysRead_low (h : n < 0x100) : s.sysRead n = s.sysLow n := if_pos h

theorem sysRead_mid (h : 0x100 ≤ n) (h' : n < 0x180) : s.sysRead n = s.sysMid n := by
  rw [State.sysRead, if_neg (by omega), if_pos h']

/-! The numbered families. -/

theorem sysRead_waitb (h : n < 16) : s.sysRead n = (s.regs.waitb[n]?.getD 0).setWidth 64 := by
  rw [sysRead_low s n (by omega)]
  unfold State.sysLow
  exact if_pos h

theorem sysRead_cfg (h : n < 6) : s.sysRead (0x20 + n) = (s.engine n).cfg := by
  rw [sysRead_low s _ (by omega)]
  unfold State.sysLow
  dsimp only
  rw [if_neg (by omega), if_pos (by omega), Nat.add_sub_cancel_left]

theorem sysRead_pointers (h : n < 6) : s.sysRead (0x28 + n) = (s.engine n).pointers := by
  rw [sysRead_low s _ (by omega)]
  unfold State.sysLow
  dsimp only
  rw [if_neg (by omega), if_neg (by omega), if_pos (by omega), Nat.add_sub_cancel_left]

theorem sysRead_lc (h : n < 6) : s.sysRead (0x30 + n) = s.regs.lc[n]?.getD 0 := by
  rw [sysRead_low s _ (by omega)]
  unfold State.sysLow
  dsimp only
  rw [if_neg (by omega), if_neg (by omega), if_neg (by omega), if_pos (by omega), Nat.add_sub_cancel_left]

theorem sysRead_rl (h : n < 16) : s.sysRead (0x40 + n) = s.regs.rl[n]?.getD 0 := by
  rw [sysRead_low s _ (by omega)]
  unfold State.sysLow
  dsimp only
  rw [if_neg (by omega), if_neg (by omega), if_neg (by omega), if_neg (by omega), if_pos (by omega), Nat.add_sub_cancel_left]

theorem sysRead_lcst (h : n < 6) : s.sysRead (0x100 + n) = s.regs.lcst[n]?.getD 0 := by
  rw [sysRead_mid s _ (by omega) (by omega)]
  unfold State.sysMid
  dsimp only
  rw [if_pos (by omega), Nat.add_sub_cancel_left]

theorem sysRead_lcend (h : n < 6) : s.sysRead (0x108 + n) = s.regs.lcend[n]?.getD 0 := by
  rw [sysRead_mid s _ (by omega) (by omega)]
  unfold State.sysMid
  dsimp only
  rw [if_neg (by omega), if_pos (by omega), Nat.add_sub_cancel_left]

end SysRead

theorem csrrNumbers : Clauses.CsrrNumbers := by
  refine fun s => ⟨sysRead_waitb s, sysRead_rl s, fun n h => ?_, ?_⟩
  · exact ⟨sysRead_cfg s n h, sysRead_pointers s n h, sysRead_lc s n h, sysRead_lcst s n h, sysRead_lcend s n h⟩
  · exact ⟨rfl, rfl, rfl, rfl, rfl, rfl, rfl, rfl, rfl, rfl, rfl, rfl, rfl, rfl, rfl, rfl, rfl, rfl⟩

/-- Settles O33, clause by clause. -/
theorem systemRegistersRead : Obligations.SystemRegistersRead := ⟨csrrReads, csrrNumbers⟩

end Sys2Proof.Machine
end

section
/-!
SUPPORT. Loads and stores of the scratchpads, and stores of device and host memory: their data, their entry of the store
buffer, and the checks of R100 (R99 to R108, R218, R311, R312, R382, R388).
-/
namespace Sys2Proof.Machine
open Sys2Proof

/-! ### The forms -/

/-- The increment of the base where the form does so (R103). -/
def baseInc (f : ScratchForm) (b : BitVec 6) (z : BitVec 2) (n : BitVec 5) : M Unit :=
  if f.post then postInc b z n else pure ()

theorem baseInc_run (f : ScratchForm) (b : BitVec 6) (z : BitVec 2) (n : BitVec 5) (s : State) :
    baseInc f b z n s = .ok ((), incremented s f b z n) := by
  unfold baseInc incremented
  cases f.post <;> rfl

/-- A word of the AP takes of its meaning what it answers on the state. -/
theorem runAp_congr {i : Instr} {m k : M Flow} {s : State} (h : m s = k s) : runAp i m s = runAp i k s := by
  rw [runAp, runAp, h]

/-- Every load form is `loadScratch` at its place. -/
theorem exec_scratchLoads (s : State) (d b : BitVec 6) (z : BitVec 2) (w : BitVec 4) (n : BitVec 5) :
    ∀ f ∈ scratchLoads s d b z w n, exec f.word s =
      runAp f.word (loadScratch f.space f.size f.offset f.place (2 ^ z.toNat) w.toNat d (baseInc f b z n)) s := by
  simp only [scratchLoads, scratchForms, List.forall_mem_cons, List.not_mem_nil, false_imp_iff, implies_true, and_true]
  exact ⟨runAp_congr rfl, runAp_congr rfl, runAp_congr rfl, rfl, rfl, rfl⟩

/-- Every store form is `storeScratch` at its place. -/
theorem exec_scratchStores (s : State) (d b : BitVec 6) (z : BitVec 2) (w : BitVec 4) (n : BitVec 5) :
    ∀ f ∈ scratchStores s d b z w n, exec f.word s =
      runAp f.word (storeScratch f.space f.size f.offset f.place (2 ^ z.toNat) w.toNat d (baseInc f b z n)) s := by
  simp only [scratchStores, scratchForms, List.forall_mem_cons, List.not_mem_nil, false_imp_iff, implies_true, and_true]
  exact ⟨runAp_congr rfl, runAp_congr rfl, runAp_congr rfl, rfl, rfl, rfl⟩

/-- The spaces of the forms are the scratchpads. -/
theorem scratchForms_space {s : State} {i₁ i₂ i₃ i₄ i₅ i₆ : Instr} {b : BitVec 6} {z : BitVec 2} {n : BitVec 5} :
    ∀ f ∈ scratchForms s i₁ i₂ i₃ i₄ i₅ i₆ b z n, f.space = .cham ∨ f.space = .gal ∨ f.space = .grot := by
  simp [scratchForms]

/-! ### Requests and data -/

/-- The own Chamber takes no request, and every other space takes a free one. -/
theorem needRequest_scratch (sp : Space) (cls : Nat) (s : State) (h : sp = .cham ∨ s.inFlight < 8192) :
    needRequest sp cls s = .ok ((), s) := by
  obtain rfl | h := h
  · have hn : s.noRequest .cham = false := rfl
    rw [needRequest, M.get_bind, hn, Bool.and_false]
    rfl
  · exact needRequest_free sp cls s h

theorem readAt_scratch {sp : Space} (hsp : sp = .cham ∨ sp = .gal ∨ sp = .grot) (agent a n pol rc : Nat) (s : State) (v u : Bool) :
    readAt agent sp ⟨a, v, u⟩ n pol rc s = .ok ((s.readScratch sp a n).1, (s.readScratch sp a n).2) := by
  obtain rfl | rfl | rfl := hsp <;> rfl

/-- A load without an acquire puts clean data into its register. -/
theorem loadReg_clean {sp : Space} {p : Phys} {n : Nat} {d : BitVec 6} {va : Word} {s u : State} {bs : List Byte}
    (hacq : s.accessOpts.acq = false) (hr : readAt 6 sp p n s.accessOpts.policy s.accessOpts.rc s = .ok ((bs, false), u)) :
    loadReg sp p n d va s = .ok (.seq, u.awrite d.toNat (leWord bs)) := by
  rw [loadReg, M.get_bind]
  dsimp only
  rw [M.bind_ok hr, hacq]
  rfl

section Loads
variable {sp : Space} {size off place n cls : Nat} {d : BitVec 6} {after : M Unit} {s : State} (ha : off % n = 0)
  (hs : off + n ≤ size) (hr : s.refusal sp off n false = none) (hfl : sp = .cham ∨ s.inFlight < 8192)
include ha hs hr hfl

/-- A load that passes its checks awaits its data. -/
theorem loadScratch_checked : loadScratch sp size off place n cls d after s = awaitData (do
    let f ← loadReg sp ⟨place, false, false⟩ n d
    after
    return f) s := by
  rw [loadScratch, M.bind_ok (checkScratch_ok sp size off n 0 s ha hs hr), M.bind_ok (needRequest_scratch sp cls s hfl)]

theorem loadScratch_reads (hsp : sp = .cham ∨ sp = .gal ∨ sp = .grot) (hl : s.late = false ∨ s.ap.arrived = true)
    (hacq : s.accessOpts.acq = false) (hc : (s.readScratch sp place n).1.2 = false) {t : State}
    (haft : after ((s.readScratch sp place n).2.awrite d.toNat (leWord (s.readScratch sp place n).1.1)) = .ok ((), t)) :
    loadScratch sp size off place n cls d after s = .ok (.seq, t) := by
  have hread : ∀ pol rc, readAt 6 sp ⟨place, false, false⟩ n pol rc s =
      .ok (((s.readScratch sp place n).1.1, false), (s.readScratch sp place n).2) := fun pol rc => by
    rw [readAt_scratch hsp, ← hc]
  rw [loadScratch_checked ha hs hr hfl, awaitData_here _ s hl, M.bind_ok (loadReg_clean hacq (hread _ _)), M.bind_ok haft]
  rfl

theorem loadScratch_issues (hl : s.late = true) (hw : s.ap.arrived = false) :
    loadScratch sp size off place n cls d after s = .ok (.stay, s.modAp fun a => { a with issued := true }) := by
  rw [loadScratch_checked ha hs hr hfl, awaitData, M.get_bind, hl, hw]
  rfl

end Loads

theorem scratchLoadsReadBytes : Clauses.ScratchLoadsReadBytes := by
  intro s d b z w n f hf hrun ha hs hr hfl hl hacq r hread hc
  subst hread
  rw [exec_scratchLoads s d b z w n f hf]
  exact runAp_after _ _ s _ .seq hrun
    (loadScratch_reads ha hs hr hfl (scratchForms_space f hf) hl hacq hc (baseInc_run f b z n _))

theorem lateLoadsWait : Clauses.LateLoadsWait := by
  refine ⟨fun s d b z w n f hf hrun ha hs hr hfl _ hl hw => ?_, fun s h => congrArg Host.Outcome.next (if_pos h)⟩
  rw [exec_scratchLoads s d b z w n f hf, runAp_ok _ _ s _ .stay hrun (loadScratch_issues ha hs hr hfl hl hw), retireAp_stay]
  exact ⟨_, rfl, rfl, rfl, rfl, rfl⟩

/-! ### The checks -/

section Checks
variable {sp : Space} {size off n kind : Nat} {s : State}

theorem checkScratch_refused (ha : off % n = 0) (hs : off + n ≤ size) {x : Nat × Nat}
    (hr : s.refusal sp off n (kind = 1) = some x) : checkScratch sp size off n kind s =
      .error (.trap (some s) { mkTrap .p x.1 x.2 with kind := kind, priv := s.privileged }) := by
  rw [checkScratch, M.get_bind, if_neg (by simp [ha]), if_neg (by omega), hr]
  rfl

/-- An access of either kind begins with its checks. -/
theorem exec_checked {d b : BitVec 6} {z : BitVec 2} {w : BitVec 4} {n : BitVec 5} {k : Nat} (hk : k < 2) :
    ∀ f ∈ (if k = 0 then scratchLoads s d b z w n else scratchStores s d b z w n), s.apRuns f.word → ∀ t : Trap,
      checkScratch f.space f.size f.offset (2 ^ z.toNat) k s = .error (.trap (some s) t) → exec f.word s = .next (s.takeTrap t) := by
  intro f hf hrun t ht
  obtain rfl | rfl : k = 0 ∨ k = 1 := by omega
  · rw [exec_scratchLoads s d b z w n f hf]
    exact runAp_trap _ _ s _ _ hrun (M.bind_error ht)
  · rw [exec_scratchStores s d b z w n f hf]
    exact runAp_trap _ _ s _ _ hrun (M.bind_error ht)

end Checks

theorem scratchAccessChecks : Clauses.ScratchAccessChecks := by
  intro s d b z w n k hk f hf hrun
  have hstop := exec_checked hk f hf hrun
  exact ⟨fun ha => hstop _ (checkScratch_misaligned _ _ _ _ k s ha), fun ha hs => hstop _ (checkScratch_outside _ _ _ _ k s ha hs),
    fun x ha hs hx => hstop _ (checkScratch_refused ha hs hx)⟩

/-- Settles O35: the loads read, wait for late data, and are checked as the stores are. -/
theorem scratchLoadsAnswer : Obligations.ScratchLoadsAnswer := ⟨scratchLoadsReadBytes, lateLoadsWait, scratchAccessChecks⟩

/-! ### Stores of the scratchpads -/

/-- A store without a release enters the store buffer. -/
theorem storeAt_buffers {e : StoreEntry} {s : State} (h : s.accessOpts.rel = false) :
    storeAt e s = .ok (.seq, s.modOrder fun q => { q with stores := q.stores ++ [e] }) := by
  rw [storeAt, M.get_bind, h]
  rfl

/-- Only bytes of the Chamber are held by a pin. -/
theorem holdPinned_unpinned {sp : Space} {off n cls : Nat} {s : State} (h : sp = .cham → s.core.pinnedBy off n = none) :
    holdPinned sp off n cls s = .ok ((), s) := by
  cases sp
  case cham => exact holdPinned_free off n cls s (h rfl)
  all_goals rfl

theorem holdPinned_pinned {off n cls k : Nat} {s : State} (h : s.core.pinnedBy off n = some k) :
    holdPinned .cham off n cls s = .error (.block { cls := cls, kind := 4, obj := k }) := by
  have hc : (Space.cham == Space.cham) = true := rfl
  rw [holdPinned, M.get_bind, if_pos hc, h]
  rfl

section Stores
variable {sp : Space} {size off place n cls : Nat} {d : BitVec 6} {after : M Unit} {s : State} (ha : off % n = 0)
  (hs : off + n ≤ size) (hr : s.refusal sp off n true = none)
include ha hs hr

theorem storeScratch_buffers (hp : sp = .cham → s.core.pinnedBy off n = none) (hfl : sp = .cham ∨ s.inFlight < 8192)
    (hrel : s.accessOpts.rel = false) {t : State} (haft : after (s.modOrder fun q => { q with stores := q.stores ++
      [⟨sp, place, leBytes n (s.aread d.toNat).toNat, 0, false, false⟩] }) = .ok ((), t)) :
    storeScratch sp size off place n cls d after s = .ok (.seq, t) := by
  have hbs : regBytes d n s = .ok (leBytes n (s.aread d.toNat).toNat, s) := rfl
  rw [storeScratch, M.bind_ok (checkScratch_ok sp size off n 1 s ha hs hr), M.bind_ok (holdPinned_unpinned hp),
    M.bind_ok (needRequest_scratch sp cls s hfl), M.bind_ok hbs, M.bind_ok (storeAt_buffers hrel)]
  exact M.bind_ok haft

theorem storeScratch_pinned {k : Nat} (hsp : sp = .cham) (hp : s.core.pinnedBy off n = some k) :
    storeScratch sp size off place n cls d after s = .error (.block { cls := cls, kind := 4, obj := k }) := by
  subst hsp
  rw [storeScratch, M.bind_ok (checkScratch_ok _ size off n 1 s ha hs hr), M.bind_error (holdPinned_pinned hp)]

end Stores

theorem scratchStoresEnterBuffer : Clauses.ScratchStoresEnterBuffer := by
  intro s d b z w n f hf hrun ha hs hr
  rw [exec_scratchStores s d b z w n f hf]
  refine ⟨fun hp hfl hrel => ?_, fun k hsp hp => runAp_block _ _ s _ hrun (storeScratch_pinned ha hs hr hsp hp)⟩
  exact runAp_after _ _ s _ .seq hrun (storeScratch_buffers ha hs hr hp hfl hrel (baseInc_run f b z n _))

/-! ### Stores of device and host memory -/

theorem checkVirtual_misaligned {sp : Space} {va : Word} {n : Need} {s : State} (ha : va.toNat % 8 ≠ 0) :
    checkVirtual sp va n s = .error (.trap (some s)
      { mkTrap .p 0x10 0 with kind := n.kind, priv := s.privileged, va := va, host := sp == .host }) := by
  have ha : field va 0 3 ≠ 0 := by rwa [field_low]
  rw [checkVirtual, if_pos ha, accTrap_apply]

theorem checkVirtual_faults {sp : Space} {va : Word} {n : Need} {s : State} {t : Trap} (ha : va.toNat % 8 = 0)
    (h : s.translate va { n with host := sp == .host } s.privileged = .error t) :
    checkVirtual sp va n s = .error (.trap (some (s.missed va (sp == .host))) t) := by
  have ha : field va 0 3 = 0 := (field_low va 3).trans ha
  rw [checkVirtual, if_neg (by simp [ha]), translate_error h]

/-- Both store forms are `storeVirtual` at their address. -/
theorem exec_virtualStores (s : State) (d a : BitVec 6) (h : BitVec 1) (x : BitVec 5) (l : BitVec 3) (w : BitVec 4) (n : BitVec 5) :
    ∀ p ∈ [(Instr.std d h x l w n, Space.dev, deviceAddress s h x l n), (.sth d a w, .host, s.aread a.toNat)],
      exec p.1 s = runAp p.1 (storeVirtual p.2.1 p.2.2 w.toNat d) s := by
  simp only [List.forall_mem_cons, List.not_mem_nil, false_imp_iff, implies_true, and_true]
  exact ⟨rfl, rfl⟩

theorem storeVirtual_buffers {sp : Space} {va : Word} {cls : Nat} {d : BitVec 6} {s t : State} {q : Phys} (ha : va.toNat % 8 = 0)
    (htr : s.translate va { writeNeed with host := sp == .host } s.privileged = .ok (q, t)) (hfl : t.inFlight < 8192)
    (hrel : t.accessOpts.rel = false) : storeVirtual sp va cls d s = .ok (.seq, t.modOrder fun o => { o with stores := o.stores ++
      [⟨sp, q.pa, leBytes 8 (t.aread d.toNat).toNat, t.accessOpts.policy, q.view, q.uc⟩] }) := by
  have hbs : regBytes d 8 t = .ok (leBytes 8 (t.aread d.toNat).toNat, t) := rfl
  rw [storeVirtual, M.bind_ok (checkVirtual_ok sp va writeNeed s t q ha htr), M.bind_ok (needRequest_free sp cls t hfl),
    M.bind_ok hbs, M.get_bind]
  exact storeAt_buffers hrel

theorem deviceStoresEnterBuffer : Clauses.DeviceStoresEnterBuffer := by
  intro s d a h x l w n p hp hrun
  rw [exec_virtualStores s d a h x l w n p hp]
  refine ⟨fun ha => ?_, fun t ha htr => ?_, fun q t ha htr hfl hrel => ?_⟩
  · exact runAp_trap _ _ s _ _ hrun (M.bind_error (checkVirtual_misaligned ha))
  · exact runAp_trap _ _ s _ _ hrun (M.bind_error (checkVirtual_faults ha htr))
  · exact runAp_after _ _ s _ .seq hrun (storeVirtual_buffers ha htr hfl hrel)

/-- Settles O36: the stores of the scratchpads, and those of device and host memory. -/
theorem storesEnterBuffer : Obligations.StoresEnterBuffer := ⟨scratchStoresEnterBuffer, deviceStoresEnterBuffer⟩

end Sys2Proof.Machine
end

section
/-!
SUPPORT. Waiting on an address: the word that differs, the monitor that is armed, and what wakes it (R114, R115).
-/
namespace Sys2Proof.Machine
open Sys2Proof

/-! ### A `waita` that completes -/

/-- The state when a `waita` completes with a reason: no copy of the sector, no monitor and no block, and the reason in D. -/
def State.waitEnded (s : State) (sp : Space) (sector : Nat) (d : BitVec 6) (reason : Nat) : State :=
  ((s.modOrder fun o => { o with scratch := o.scratch.filter fun c => !(c.space == sp && c.addr == sector) }).setMonitor none
    none).awrite d.toNat (BitVec.ofNat 64 reason)

theorem State.accessOpts_setMonitor (s : State) (m : Option Monitor) (b : Option Block) :
    (s.setMonitor m b).accessOpts = s.accessOpts := by
  unfold State.setMonitor
  split <;> rfl

theorem State.setMonitor_active {s : State} (hs : s.inShadow = false) (m : Option Monitor) (b : Option Block) :
    s.setMonitor m b = s.modAp fun a => { a with monitor := m, block := b } := by
  rw [State.setMonitor, hs]
  rfl

theorem waitDone_run {sp : Space} {sector : Nat} {d : BitVec 6} {reason : Nat} {s : State} (hacq : s.accessOpts.acq = false) :
    waitDone sp sector d reason s = .ok (.seq, s.waitEnded sp sector d reason) := by
  have hopts : (s.waitEnded sp sector d reason).accessOpts.acq = false := by
    rw [State.waitEnded, State.accessOpts_awrite, State.accessOpts_setMonitor]
    exact hacq
  have hwr : wrA d (BitVec.ofNat 64 reason) ((s.modOrder fun o =>
      { o with scratch := o.scratch.filter fun c => !(c.space == sp && c.addr == sector) }).setMonitor none none) =
      .ok ((), s.waitEnded sp sector d reason) := rfl
  rw [waitDone, M.modify_bind, M.bind_ok hwr, M.get_bind, hopts]
  rfl

/-- The end of a word of the active AP that writes no predicate and does not repeat. -/
theorem retireAp_goesOn (s : State) (i : Instr) (hs : s.inShadow = false) (hb : s.ap.bind ≠ .rep) (hi : apPredDest i = none) :
    s.retireAp i .seq = s.apGo (s.ap.pc + boundSize s.ap.bind) := by
  rw [State.retireAp, hs, State.retireActive]
  dsimp only
  rw [if_neg hb, State.pushPred, hi]
  rfl

theorem State.waitEnded_active (s : State) (sp : Space) (sector : Nat) (d : BitVec 6) (reason : Nat) (hs : s.inShadow = false) :
    ∃ u : State, u.inShadow = false ∧ u.ap = { s.ap with monitor := none, block := none } ∧ u.mem = s.mem ∧
      s.waitEnded sp sector d reason = u.awrite d.toNat (BitVec.ofNat 64 reason) := by
  rw [State.waitEnded, State.setMonitor_active (by exact hs)]
  refine ⟨_, ?_, ?_, ?_, rfl⟩
  exacts [hs, rfl, rfl]

/-- The active AP goes on behind a `waita` that completes, with its reason in D and no monitor. -/
theorem runAp_waitDone {i : Instr} {m : M Flow} {s : State} {sp : Space} {sector : Nat} {d : BitVec 6} {reason : Nat}
    (hrun : s.apRuns i) (hs : s.inShadow = false) (hb : s.ap.bind ≠ .rep) (hi : apPredDest i = none)
    (hacq : s.accessOpts.acq = false) (hm : m s = waitDone sp sector d reason s) :
    ∃ t, runAp i m s = .next t ∧ t.ap.pc = s.ap.pc + boundSize s.ap.bind ∧
      (1 ≤ d.toNat → t.aread d.toNat = BitVec.ofNat 64 reason) ∧ t.ap.monitor = none ∧ t.mem = s.mem := by
  obtain ⟨u, hu, hap, hmem, he⟩ := s.waitEnded_active sp sector d reason hs
  have hpc : u.ap.pc + boundSize u.ap.bind = s.ap.pc + boundSize s.ap.bind := by rw [hap]
  rw [runAp_ok i m s _ .seq hrun (hm.trans (waitDone_run hacq)), he, State.awrite_active u _ _ hu,
    retireAp_goesOn ((u.modRegs _).podDone 6) i hu (show u.ap.bind ≠ .rep by rwa [hap]) hi]
  refine ⟨_, rfl, hpc, fun hd => ?_, rfl, hmem⟩
  rw [State.aread_apGo, State.aread_podDone, ← State.awrite_active u _ _ hu, State.aread_awrite_same u d _ hu,
    if_neg fun h => by simp [h] at hd]

/-! ### A `waita` of a Chamber word -/

theorem waitRead_cham {p : Phys} {s : State} {bs : List Byte} {poison : Bool} (hst : s.core.order.stores = [])
    (hb : s.homeBytes .cham false p.pa 8 = (bs, poison)) : waitRead .cham p s = .ok ((bs, poison), s) := by
  rw [waitRead, M.get_bind]
  dsimp only
  rw [hb, hst]
  rfl

section Cham
variable {s : State} {d : BitVec 6} {addr : Word} {w : Nat} {bs : List Byte} (ha : addr.toNat % 8 = 0)
  (hin : addr.toNat + 8 ≤ 2 ^ 23) (hr : s.refusal .cham addr.toNat 8 false = none) (hst : s.core.order.stores = [])
  (hb : s.homeBytes .cham false (chamAt s.core.id addr.toNat) 8 = (bs, false))
include ha hin hr hst hb

/-- Once its checks have passed and its word is read, a `waita` compares it with D. -/
theorem waitArm_compares : waitArm .cham d addr w s = (if leWord bs ≠ s.aread d.toNat then
      waitDone .cham (sectorOf (chamAt s.core.id addr.toNat)) d 0
    else if (nextBlock s.regs none { cls := w, kind := 9, obj := 0 }).expired then
      waitDone .cham (sectorOf (chamAt s.core.id addr.toNat)) d 4
    else do
      modify fun t => t.arm .cham (sectorOf (chamAt s.core.id addr.toNat)) (nextBlock s.regs none { cls := w, kind := 9, obj := 0 })
      return .stay) s := by
  have hf : field addr 0 3 = 0 := (field_low addr 3).trans ha
  have hplace : (pure (⟨placeOf .cham s.core.id addr.toNat, false, false⟩ : Phys) : M Phys) s =
      .ok (⟨chamAt s.core.id addr.toNat, false, false⟩, s) := rfl
  rw [waitArm]
  dsimp only
  rw [if_neg (by simp [hf]), M.get_bind, M.bind_ok (checkScratch_ok .cham (spaceSize .cham) addr.toNat 8 0 s ha hin hr), M.bind_ok hplace,
    M.bind_ok (waitRead_cham hst hb), if_neg Bool.false_ne_true, M.bind_ok (rdA_run d s)]

end Cham

/-- Arming leaves the registers and the place of the active AP, which then has the monitor and the block. -/
theorem State.arm_active (s : State) (sp : Space) (sector : Nat) (b : Block) (hs : s.inShadow = false) :
    ∃ n, (s.arm sp sector b).ap.pc = s.ap.pc ∧ (s.arm sp sector b).regs = s.regs ∧ (s.arm sp sector b).mem = s.mem ∧
      (s.arm sp sector b).ap.monitor = some ⟨sp, sector, none, n⟩ ∧ (s.arm sp sector b).ap.block = some b := by
  unfold State.arm
  dsimp only
  split
  all_goals
    rw [State.setMonitor_active]
    · exact ⟨_, rfl, rfl, rfl, rfl, rfl⟩
    · exact hs

/-- A new block has not outlasted a bound that is not 0; class 15 has none (R41, R42). -/
theorem nextBlock_new_not_expired {r : Regs} {w : Wait} (h : (r.waitb[w.cls]?.getD 0xFFFFFFFF#32).toNat ≠ 0 ∨ w.cls = 15) :
    (nextBlock r none w).expired = false := by
  refine Bool.and_eq_false_iff.2 (h.symm.imp (fun h => ?_) fun h => decide_eq_false ?_)
  · simp [nextBlock, h]
  · simp only [nextBlock]
    omega

theorem waitaOfChamber (s : State) (d a : BitVec 6) (w : BitVec 4) (bs : List Byte) (hrun : s.apRuns (.waita d a 0 w))
    (hmon : s.monitor = none) (hs : s.inShadow = false) (hb : s.ap.bind ≠ .rep) (ha : (s.aread a.toNat).toNat % 8 = 0)
    (hin : (s.aread a.toNat).toNat + 8 ≤ 2 ^ 23) (hr : s.refusal .cham (s.aread a.toNat).toNat 8 false = none)
    (hacq : s.accessOpts.acq = false) (hst : s.core.order.stores = [])
    (hbs : s.homeBytes .cham false (chamAt s.core.id (s.aread a.toNat).toNat) 8 = (bs, false)) :
    (leWord bs ≠ s.aread d.toNat →
      ∃ t, exec (.waita d a 0 w) s = .next t ∧ t.ap.pc = s.ap.pc + boundSize s.ap.bind ∧
        (1 ≤ d.toNat → t.aread d.toNat = 0) ∧ t.ap.monitor = none ∧ t.mem = s.mem) ∧
    (leWord bs = s.aread d.toNat → (s.regs.waitb[w.toNat]?.getD 0xFFFFFFFF#32).toNat ≠ 0 ∨ w = 15#4 →
      ∃ t, exec (.waita d a 0 w) s = .next t ∧ t.ap.pc = s.ap.pc ∧ t.regs = s.regs ∧ t.mem = s.mem ∧
        (∃ n, t.ap.monitor = some ⟨.cham, chamAt s.core.id (s.aread a.toNat).toNat / 32 * 32, none, n⟩) ∧
        ∃ k, t.ap.block = some k ∧ k.cls = w.toNat ∧ k.count = 1) := by
  have hexec : exec (.waita d a 0 w) s = runAp (.waita d a 0 w) (waitArm .cham d (s.aread a.toNat) w.toNat) s := by
    show execWaita d a 0 w s = _
    rw [execWaita, hmon]
    rfl
  have hcmp := waitArm_compares (d := d) (w := w.toNat) ha hin hr hst hbs
  rw [hexec]
  refine ⟨fun hne => ?_, fun heq hbound => ?_⟩
  · rw [if_pos hne] at hcmp
    exact runAp_waitDone (reason := 0) hrun hs hb rfl hacq hcmp
  · have hexp : (nextBlock s.regs none { cls := w.toNat, kind := 9, obj := 0 }).expired = false :=
      nextBlock_new_not_expired (hbound.imp id fun h => by rw [h]; rfl)
    rw [if_neg (not_not.2 heq), if_neg (by rw [hexp]; exact Bool.false_ne_true)] at hcmp
    obtain ⟨n, hpc, hregs, hmem, hm, hblk⟩ := s.arm_active .cham (sectorOf (chamAt s.core.id (s.aread a.toNat).toNat))
      (nextBlock s.regs none { cls := w.toNat, kind := 9, obj := 0 }) hs
    have harm := hcmp.trans (M.modify_bind _ _)
    generalize s.arm .cham _ _ = u at harm hpc hregs hmem hm hblk
    rw [runAp_ok _ _ s u .stay hrun harm, retireAp_stay]
    exact ⟨_, rfl, hpc, hregs, hmem, ⟨n, hm⟩, _, hblk, rfl, rfl⟩

/-! ### What wakes a monitor -/

theorem State.monitor_active {s : State} (hs : s.inShadow = false) : s.monitor = s.ap.monitor := by
  rw [State.monitor, hs]
  rfl

/-- The first reason that wakes a monitor is the one that it gives. -/
theorem Monitor.woken_sleeping {m : Monitor} (h : m.wake = none) (r : Nat) : m.woken r = { m with wake := some r } := by
  rw [Monitor.woken, h]
  rfl

theorem waitaWoken (s : State) (d a : BitVec 6) (c : BitVec 3) (w : BitVec 4) (m : Monitor) (r : Nat)
    (hrun : s.apRuns (.waita d a c w)) (hs : s.inShadow = false) (hb : s.ap.bind ≠ .rep) (hm : s.ap.monitor = some m)
    (hr : m.wake = some r) (hacq : s.accessOpts.acq = false) :
    ∃ t, exec (.waita d a c w) s = .next t ∧ t.ap.pc = s.ap.pc + boundSize s.ap.bind ∧
      (1 ≤ d.toNat → t.aread d.toNat = BitVec.ofNat 64 r) ∧ t.ap.monitor = none ∧ t.mem = s.mem := by
  refine runAp_waitDone (sp := m.space) (sector := m.sector) hrun hs hb rfl hacq ?_
  rw [State.monitor_active hs, hm]
  dsimp only
  rw [hr]

section Sleeping
variable {s : State} {m : Monitor} (hs : s.inShadow = false) (hm : s.ap.monitor = some m) (hw : m.wake = none)
include hs hm hw

theorem execWaitaWake_wakes : ∃ t, exec .waitaWake s = .next t ∧ t.regs = s.regs ∧ t.mem = s.mem ∧
    t.ap.monitor = some { m with wake :=
      if s.input.a = 2 then (if m.space = .dev ∨ m.space = .host then some 2 else none) else some 5 } := by
  refine ⟨_, rfl, ?_⟩
  rw [State.setMonitor_active hs, State.monitor_active hs, hm]
  refine ⟨rfl, rfl, congrArg some ?_⟩
  dsimp only
  by_cases ha : s.input.a = 2
  · by_cases hd : m.space = .dev ∨ m.space = .host
    · rw [if_pos ha, if_pos ha, if_pos hd, if_neg (by rcases hd with h | h <;> simp [h]), Monitor.woken_sleeping hw]
    · rw [if_pos ha, if_pos ha, if_neg hd, if_pos (by simpa [not_or] using hd), ← hw]
  · rw [if_neg ha, if_neg ha, if_neg (by simp), Monitor.woken_sleeping hw]

theorem execWaitaBoundWake_wakes (k : Block) (hk : s.ap.block = some k) (hc : k.cls ≠ 15) (hexp : k.bound < k.count) :
    ∃ t, exec .waitaBoundWake s = .next t ∧ t.ap.monitor = some { m with wake := some 4 } ∧ t.mem = s.mem := by
  have hblk : (s.apBlock.map Block.expired).getD false = true := by
    have hb : s.apBlock = some k := by rw [State.apBlock, hs]; exact hk
    rw [hb]
    simp [Block.expired, hc, hexp]
  refine ⟨_, congrArg Host.Outcome.next (if_pos hblk), ?_⟩
  rw [State.setMonitor_active hs, State.monitor_active hs, hm]
  exact ⟨congrArg some (Monitor.woken_sleeping hw 4), rfl⟩

omit hs in
/-- A write at the home to the sector wakes the monitor on it (R115). -/
theorem homeWrite_wakes (a : Nat) (bs : List Byte) (hlo : m.sector < a + bs.length) (hhi : a < m.sector + 32) :
    (s.homeWrite m.space false a bs).ap.monitor = some { m with wake := some 1 } := by
  have hmeets : (m.space == m.space && meetsSector m.sector a bs.length) = true := by simp [meetsSector, hlo, hhi]
  have hwatch : m ∈ s.core.watching m.space a bs.length := by
    rw [Core.watching, List.mem_filter]
    exact ⟨List.mem_append_left _ (by rw [show s.core.strand.ap.monitor = some m from hm]; exact List.mem_singleton_self m), hmeets⟩
  rw [State.ap, State.homeWrite_core, Core.wake]
  split
  case h_1 hnil => rw [hnil] at hwatch; exact absurd hwatch List.not_mem_nil
  case h_2 =>
    dsimp only
    rw [show s.core.strand.ap.monitor = some m from hm, Option.map_some, if_pos hmeets, Monitor.woken_sleeping hw]

end Sleeping

/-- Settles O9: a word that differs, a monitor that is armed and answers, and what wakes it. -/
theorem waitaWatchesWord : Obligations.WaitaWatchesWord := by
  refine ⟨waitaOfChamber, waitaWoken, fun s m hs hm hw => ⟨execWaitaWake_wakes hs hm hw, execWaitaBoundWake_wakes hs hm hw, ?_⟩⟩
  rintro sp a bs rfl hlo hhi
  exact homeWrite_wakes hm hw a bs hlo hhi

end Sys2Proof.Machine
end
section
/-!
SUPPORT. The canonical form of a memory (R99, R110, R408; log entry 4): what it says of a list of cells, and which changes
of a list leave it.
-/
namespace Sys2Proof.Machine
open Sys2Proof

/-! ### The canonical form of a list of cells -/

theorem Cells.wfFrom_iff (lo : Option Nat) (m : List Host.Cell) :
    Cells.wfFrom lo m = true ↔
      (∀ l, lo = some l → ∀ c ∈ m, l < c.1) ∧ m.Pairwise (fun c d => c.1 < d.1) ∧ ∀ c ∈ m, c.2 ≠ 0 := by
  induction m generalizing lo with
  | nil => simp [Cells.wfFrom]
  | cons c m ih =>
    obtain ⟨k, v⟩ := c
    rw [Cells.wfFrom_cons, ih, List.pairwise_cons, List.forall_mem_cons]
    constructor
    · rintro ⟨hk, hv, hm, hp, hz⟩
      exact ⟨fun l hl => List.forall_mem_cons.2 ⟨hk l hl, fun c hc => (hk l hl).trans (hm k rfl c hc)⟩, ⟨hm k rfl, hp⟩, hv, hz⟩
    · rintro ⟨hk, ⟨hm, hp⟩, hv, hz⟩
      exact ⟨fun l hl => (List.forall_mem_cons.1 (hk l hl)).1, hv, fun l hl => by cases hl; exact hm, hp, hz⟩

/-- The form in words: addresses strictly rising, and no byte of 0. -/
theorem Cells.wf_iff (m : List Host.Cell) :
    Cells.wf m = true ↔ m.Pairwise (fun c d => c.1 < d.1) ∧ ∀ c ∈ m, c.2 ≠ 0 := by
  simp [Cells.wf, Cells.wfFrom_iff]

theorem Cells.wf_filter {m : List Host.Cell} (p : Host.Cell → Bool) (h : Cells.wf m = true) : Cells.wf (m.filter p) = true := by
  rw [Cells.wf_iff] at h ⊢
  exact ⟨h.1.filter p, fun c hc => h.2 c (List.mem_filter.1 hc).1⟩

/-- What is laid over a range stands between what lies below it and what lies above. -/
theorem Cells.wf_place {src dst : List Host.Cell} {a n b : Nat} (hs : Cells.wf src = true) (hd : Cells.wf dst = true) :
    Cells.wf (Cells.place src a n dst b) = true := by
  rw [Cells.wf_iff] at *
  obtain ⟨hsp, hsz⟩ := hs
  obtain ⟨hdp, hdz⟩ := hd
  simp only [Cells.place, List.pairwise_append, List.pairwise_map, List.mem_append, List.mem_map, List.mem_filter,
    decide_eq_true_eq, Bool.and_eq_true]
  refine ⟨⟨⟨hdp.filter _, ?_, ?_⟩, hdp.filter _, ?_⟩, ?_⟩
  · refine (hsp.filter _).imp_of_mem fun hc hd hlt => ?_
    have hc := (List.mem_filter.1 hc).2
    simp only [Bool.and_eq_true, decide_eq_true_eq] at hc
    omega
  · rintro c ⟨_, hc⟩ _ ⟨d, _, rfl⟩
    simp only
    omega
  · rintro c (⟨_, hc⟩ | ⟨d, ⟨_, hd⟩, rfl⟩) e ⟨_, he⟩
    · omega
    · simp only
      omega
  · rintro c ((⟨hc, _⟩ | ⟨d, ⟨hd, _⟩, rfl⟩) | ⟨hc, _⟩)
    · exact hdz c hc
    · exact hsz d hd
    · exact hdz c hc

end Sys2Proof.Machine
end
section
/-!
SUPPORT. The canonical form along the model: what it is for each kind of result that carries a state, and how it passes through
the monad of meanings.  In what follows `State.memOk.f` says that the state operation `f` keeps the form, so that proofs about
a chain of operations are a chain of dots; `f_keeps` says it of a meaning in `M`, and `f_memOk` of any other function.
-/
namespace Sys2Proof.Machine
open Sys2Proof

/-! ### The form, kept by what runs on a state -/

namespace State.memOk
variable {s t : State}

/-- A state that is put together with the memory of another. -/
theorem upd {c : Core} {cs : List Core} {x : Share} {y : Hub} {ag : List Turn} {ro : Nat} {i : Input} {e : Option Nat} {l : Bool}
    {n m : Nat} (h : s.memOk) : (State.mk c cs x y s.mem ag ro i e l n m).memOk := h

theorem ite {c : Prop} [Decidable c] (h : s.memOk) (k : t.memOk) : (if c then s else t).memOk := by
  split
  · exact h
  · exact k

theorem foldl {α : Type} {f : State → α → State} {xs : List α} (h : s.memOk) (hf : ∀ t x, t.memOk → (f t x).memOk) :
    (xs.foldl f s).memOk := by
  induction xs generalizing s with
  | nil => exact h
  | cons x xs ih => exact ih (hf s x h)

end State.memOk

/-- The state of an answer has the form. -/
def Answer.memOk : Answer → Prop
  | .next t => t.memOk
  | _ => True

/-- The state of a turn has the form. -/
def Todo.memOk : Todo → Prop
  | .run _ t => t.memOk
  | .done t => t.memOk

/-- The state beside a result has the form, where there is a result. -/
def KeptPair {ε α : Type} : Except ε (α × State) → Prop
  | .ok r => r.2.memOk
  | .error _ => True

theorem KeptPair.ok {ε α : Type} {r : Except ε (α × State)} {x : α × State} (h : KeptPair r) (e : r = .ok x) : x.2.memOk := by
  subst e
  exact h

theorem KeptPair.ite {ε α : Type} {c : Prop} [Decidable c] {r r' : Except ε (α × State)} (h : KeptPair r) (k : KeptPair r') :
    KeptPair (if c then r else r') := by
  split
  · exact h
  · exact k

/-- The state that results has the form, where one does. -/
def KeptState {ε : Type} : Except ε State → Prop
  | .ok t => t.memOk
  | .error _ => True

theorem KeptState.ok {ε : Type} {r : Except ε State} {t : State} (h : KeptState r) (e : r = .ok t) : t.memOk := by
  subst e
  exact h

/-- The state has the form, where there is one. -/
def KeptSome : Option State → Prop
  | some t => t.memOk
  | none => True

theorem KeptSome.of {t : State} (h : t.memOk) : KeptSome (some t) := h

theorem KeptSome.some {r : Option State} {t : State} (h : KeptSome r) (e : r = some t) : t.memOk := by
  subst e
  exact h

theorem KeptSome.getD {r : Option State} {s : State} (h : KeptSome r) (hs : s.memOk) : (r.getD s).memOk := by
  cases r with
  | none => exact hs
  | some t => exact h

/-- The state beside a choice has the form, where there is a choice. -/
def KeptSomePair {α : Type} : Option (α × State) → Prop
  | some r => r.2.memOk
  | none => True

theorem KeptSomePair.some {α : Type} {r : Option (α × State)} {x : α × State} (h : KeptSomePair r) (e : r = some x) :
    x.2.memOk := by
  subst e
  exact h

/-- The state that bytes were read in has the form. -/
def Got.memOk : Got → Prop
  | .data _ _ t => t.memOk
  | .ask _ => True

theorem Got.memOk.data {g : Got} {bs : List Byte} {x : Bool} {t : State} (h : g.memOk) (e : g = .data bs x t) : t.memOk := by
  subst e
  exact h

/-- The state at the end of a walk has the form. -/
def WalkEnd.memOk : WalkEnd → Prop
  | .done t => t.memOk
  | .fault _ _ t => t.memOk
  | .wait t => t.memOk

/-- What a stop keeps has the form. -/
def Stop.memOk : Stop → Prop
  | .trap k _ => KeptSome k
  | _ => True

/-- The state that a replay leaves, or keeps, has the form. -/
def Replayed.memOk : Replayed → Prop
  | .stands t => t.memOk
  | .fails k _ _ => KeptSome k
  | .stop k _ => KeptSome k
  | .waits x => x.memOk

namespace Replayed.memOk
variable {r : Replayed} {k : Option State} {t : State} {x : Stop}

theorem stands (h : r.memOk) (e : r = .stands t) : t.memOk := by
  subst e
  exact h

theorem fails {code arg : Nat} (h : r.memOk) (e : r = .fails k code arg) : KeptSome k := by
  subst e
  exact h

theorem stop {y : Trap} (h : r.memOk) (e : r = .stop k y) : KeptSome k := by
  subst e
  exact h

end Replayed.memOk

theorem State.memOk.snd {α : Type} {p : α × State} {x : α} {t : State} (h : p.2.memOk) (e : p = (x, t)) : t.memOk := by
  subst e
  exact h

/-- What a meaning leaves has the form: its state where it ends, what it keeps where it stops. -/
def M.Left {α : Type} : Except Stop (α × State) → Prop
  | .ok r => r.2.memOk
  | .error x => x.memOk

namespace M.Left
variable {α : Type} {r r' : Except Stop (α × State)} {s : State} {k : Option State} {t : Trap}

theorem ok {x : α × State} (h : M.Left r) (e : r = .ok x) : x.2.memOk := by
  subst e
  exact h

theorem keep (h : M.Left r) (e : r = .error (.trap k t)) : KeptSome k := by
  subst e
  exact h

/-- What a trap keeps has the form, and so has what it falls back to. -/
theorem trap (h : M.Left r) (hs : s.memOk) (e : r = .error (.trap k t)) : (k.getD s).memOk := (h.keep e).getD hs

theorem error {x : Stop} (h : M.Left r) (e : r = .error x) : x.memOk := by
  subst e
  exact h

theorem ite {c : Prop} [Decidable c] (h : M.Left r) (k : M.Left r') : M.Left (if c then r else r') := by
  split
  · exact h
  · exact k

end M.Left

/-- A meaning keeps the form. -/
def M.Keeps {α : Type} (m : M α) : Prop := ∀ s : State, s.memOk → M.Left (m s)

namespace M.Keeps
variable {α β : Type} {m k : M α} {f : α → M β}

theorem pure {x : α} : M.Keeps (Pure.pure x) := fun _ h => h

theorem bind (hm : m.Keeps) (hf : ∀ a, (f a).Keeps) : (m >>= f).Keeps := by
  intro s hs
  cases hr : m s with
  | error e =>
    rw [M.bind_error hr]
    exact (hm s hs).error hr
  | ok r =>
    rw [M.bind_ok (x := r.1) (t := r.2) hr]
    exact hf _ _ ((hm s hs).ok hr)

theorem get {f : State → M β} (h : ∀ s, s.memOk → (f s).Keeps) : (MonadState.get >>= f).Keeps := fun s hs => h s hs s hs

theorem set {t : State} (h : t.memOk) : M.Keeps (MonadStateOf.set t : M PUnit) := fun _ _ => h

theorem modify {g : State → State} (h : ∀ s, s.memOk → (g s).memOk) : M.Keeps (modify g : M PUnit) := fun s hs => h s hs

theorem ok {s : State} {x : α × State} (hm : m.Keeps) (h : s.memOk) (e : m s = .ok x) : x.2.memOk := (hm s h).ok e

theorem keep {s : State} {k : Option State} {t : Trap} (hm : m.Keeps) (h : s.memOk) (e : m s = .error (.trap k t)) :
    KeptSome k := (hm s h).keep e

theorem trap {s : State} {k : Option State} {t : Trap} (hm : m.Keeps) (h : s.memOk) (e : m s = .error (.trap k t)) :
    (k.getD s).memOk := (hm s h).trap h e

theorem error {s : State} {x : Stop} (hm : m.Keeps) (h : s.memOk) (e : m s = .error x) :
    x.memOk := (hm s h).error e

theorem ite {c : Prop} [Decidable c] (h : m.Keeps) (hk : k.Keeps) : (if c then m else k).Keeps := by
  split
  · exact h
  · exact hk

/-- A part that runs under a condition, and then the rest. -/
theorem when {c : Prop} [Decidable c] {x : M Unit} {j : Unit → M α} (hx : x.Keeps) (hj : ∀ r, (j r).Keeps) :
    (if c then x >>= j else j ()).Keeps := .ite (.bind hx hj) (hj ())

/-- One of two parts, and then the rest. -/
theorem iteBind {c : Prop} [Decidable c] {x y : M β} {j : β → M α} (hx : x.Keeps) (hy : y.Keeps) (hj : ∀ r, (j r).Keeps) :
    (if c then x >>= j else y >>= j).Keeps := .ite (.bind hx hj) (.bind hy hj)

end M.Keeps


/-- Every way of a path keeps the form. -/
structure Path.Keeps (p : Path) : Prop where
  read : ∀ a n, M.Keeps (p.read a n)
  write : ∀ a bs x, M.Keeps (p.write a bs x)
  pop : ∀ i, M.Keeps (p.pop i)
  poisoned : ∀ i, M.Keeps (p.poisoned i)

/-- Every unit of a plan, and its finish, keep the form. -/
structure Plan.Keeps (p : Plan) : Prop where
  unit : ∀ u, M.Keeps (p.unit u)
  finish : M.Keeps p.finish

/-- Every step of a walk keeps the form. -/
structure Walk.Keeps (w : Walk) : Prop where
  step : ∀ i, M.Keeps (w.step i)

/-- Both paths of a conversion keep the form. -/
structure Conv.Keeps (c : Conv) : Prop where
  src : c.src.Keeps
  dst : c.dst.Keeps

/-! ### Matches -/

theorem match_ite {β : Type} {P : β → Prop} {c : Prop} [Decidable c] {f g : β} (hf : P f) (hg : P g) :
    P (if c then f else g) := by
  split
  · exact hf
  · exact hg



theorem match_window_pod {α : Type} {P : α → Prop} {x : Target} {f g : Nat → Nat → α} {z : α} (hf : ∀ w o, P (f w o))
    (hg : ∀ n o, P (g n o)) (hz : P z) : P (match x with | .window w o => f w o | .pod n o => g n o | _ => z) := by
  cases x with
  | window w o => exact hf w o
  | pod n o => exact hg n o
  | _ => exact hz

theorem match_some_some {α : Type} {P : α → Prop} {x : Option Pull} {y : Option PullWork} {f : Pull → PullWork → α} {z : α}
    (hf : ∀ p w, P (f p w)) (hz : P z) : P (match x, y with | some p, some w => f p w | _, _ => z) := by
  rcases x with _ | p
  · exact hz
  · rcases y with _ | w
    · exact hz
    · exact hf p w

theorem match_some_ok {α : Type} {P : α → Prop} {x : Option (Except Reject Instr)} {f : Instr → α} {z : α}
    (hf : ∀ i, P (f i)) (hz : P z) : P (match x with | some (.ok i) => f i | _ => z) := by
  rcases x with _ | _ | i
  · exact hz
  · exact hz
  · exact hf i

/-! The messages that an arrival singles out. -/

theorem match_some_request {α : Type} {P : α → Prop} {x : Option Msg} {f : Nat → Nat → Nat → Bool → α} {z : α}
    (hf : ∀ a b c d, P (f a b c d)) (hz : P z) : P (match x with | some (.request a b c d) => f a b c d | _ => z) := by
  rcases x with _ | m
  · exact hz
  · cases m with
    | request => exact hf ..
    | _ => exact hz

theorem match_some_serving {α : Type} {P : α → Prop} {x : Option Msg} {f : Nat → Nat → Nat → α} {z : α}
    (hf : ∀ a b c, P (f a b c)) (hz : P z) : P (match x with | some (.serving a b c) => f a b c | _ => z) := by
  rcases x with _ | m
  · exact hz
  · cases m with
    | serving => exact hf ..
    | _ => exact hz

theorem match_some_unit {α : Type} {P : α → Prop} {x : Option Msg}
    {f : Nat → Nat → Nat → Nat → Nat → Nat → List Byte → List Bool → α} {z : α} (hf : ∀ a b c d e g bs ps, P (f a b c d e g bs ps))
    (hz : P z) : P (match x with | some (.unit a b c d e g bs ps) => f a b c d e g bs ps | _ => z) := by
  rcases x with _ | m
  · exact hz
  · cases m with
    | unit => exact hf ..
    | _ => exact hz

theorem match_some_ack {α : Type} {P : α → Prop} {x : Option Msg} {f : Nat → Nat → Nat → Nat → α} {z : α}
    (hf : ∀ a b c d, P (f a b c d)) (hz : P z) : P (match x with | some (.ack a b c d) => f a b c d | _ => z) := by
  rcases x with _ | m
  · exact hz
  · cases m with
    | ack => exact hf ..
    | _ => exact hz

theorem match_some_decline {α : Type} {P : α → Prop} {x : Option Msg} {f : Nat → Nat → Nat → Nat → α} {z : α}
    (hf : ∀ a b c d, P (f a b c d)) (hz : P z) : P (match x with | some (.decline a b c d) => f a b c d | _ => z) := by
  rcases x with _ | m
  · exact hz
  · cases m with
    | decline => exact hf ..
    | _ => exact hz

theorem match_some_signal {α : Type} {P : α → Prop} {x : Option Msg} {f : Nat → Nat → Nat → Word → Nat → α} {z : α}
    (hf : ∀ a b c d e, P (f a b c d e)) (hz : P z) : P (match x with | some (.signal a b c d e) => f a b c d e | _ => z) := by
  rcases x with _ | m
  · exact hz
  · cases m with
    | signal => exact hf ..
    | _ => exact hz

/-! What has the form gives the form in each arm of a match on it. -/

theorem match_left {α : Type} {P : α → Prop} {x : Except Stop (Unit × State)} {f : Unit → State → α}
    {g : Option State → Trap → α} {z : Stop → α} (hx : M.Left x) (hf : ∀ a t, t.memOk → P (f a t))
    (hg : ∀ k t, KeptSome k → P (g k t)) (hz : ∀ e : Stop, e.memOk → P (z e)) :
    P (match x with | .ok (a, t) => f a t | .error (.trap k t) => g k t | .error e => z e) := by
  rcases x with (_ | _ | _) | r
  · exact hg _ _ hx
  · exact hz _ hx
  · exact hz _ hx
  · exact hf r.1 r.2 hx

theorem match_left_ask {α : Type} {P : α → Prop} {x : Except Stop ((List Byte × Bool) × State)}
    {f : List Byte × Bool → State → α} {g : PodReq → α} {z : Stop → α} (hx : M.Left x) (hf : ∀ a t, t.memOk → P (f a t))
    (hg : ∀ r, P (g r)) (hz : ∀ e, P (z e)) :
    P (match x with | .ok (a, t) => f a t | .error (.ask r) => g r | .error e => z e) := by
  rcases x with (_ | _ | r) | r
  · exact hz _
  · exact hz _
  · exact hg r
  · exact hf r.1 r.2 hx

theorem match_replayed {α : Type} {P : α → Prop} {x : Replayed} {f : State → α} {g : Option State → Nat → Nat → α}
    {j : Option State → Trap → α} {k : PodReq → α} {z : Stop → α} (hx : x.memOk) (hf : ∀ t, t.memOk → P (f t))
    (hg : ∀ u c a, KeptSome u → P (g u c a)) (hj : ∀ u t, KeptSome u → P (j u t)) (hk : ∀ r, P (k r)) (hz : ∀ e, P (z e)) :
    P (match x with
      | .stands t => f t
      | .fails u c a => g u c a
      | .stop u t => j u t
      | .waits (.ask r) => k r
      | .waits e => z e) := by
  rcases x with t | u | u | _ | _ | r
  · exact hf t hx
  · exact hg u _ _ hx
  · exact hj u _ hx
  · exact hz _
  · exact hz _
  · exact hk r

theorem match_left_ok_last {α : Type} {P : α → Prop} {x : Except Stop (Unit × State)} {f : Unit → State → α}
    {g : Option State → Trap → α} {j : PodReq → α} {k : Wait → α} (hx : M.Left x) (hg : ∀ u t, KeptSome u → P (g u t))
    (hj : ∀ r, P (j r)) (hk : ∀ w, P (k w)) (hf : ∀ a t, t.memOk → P (f a t)) :
    P (match x with
      | .error (.trap u t) => g u t
      | .error (.ask r) => j r
      | .error (.block w) => k w
      | .ok (a, t) => f a t) := by
  rcases x with (_ | w | r) | r
  · exact hg _ _ hx
  · exact hk w
  · exact hj r
  · exact hf r.1 r.2 hx

theorem match_left_ok_first {α : Type} {P : α → Prop} {x : Except Stop (Unit × State)} {f : Unit → State → α}
    {g : Option State → Trap → α} {j : PodReq → α} {k : Wait → α} (hx : M.Left x) (hf : ∀ a t, t.memOk → P (f a t))
    (hg : ∀ u t, KeptSome u → P (g u t)) (hk : ∀ w, P (k w)) (hj : ∀ r, P (j r)) :
    P (match x with
      | .ok (a, t) => f a t
      | .error (.trap u t) => g u t
      | .error (.block w) => k w
      | .error (.ask r) => j r) := by
  rcases x with (_ | w | r) | r
  · exact hg _ _ hx
  · exact hk w
  · exact hj r
  · exact hf r.1 r.2 hx

/-! ### Matches on an instruction

What holds of every arm holds of the match. The functions of a step single out one to four of some two hundred instructions;
the split over all of them is made here, once for each choice, with the arms as variables. -/

theorem match_tfence {α : Type} {P : α → Prop} {i : Instr} {a z : α} (ha : P a) (hz : P z) :
    P (match i with | .tfence => a | _ => z) := by
  induction i with
  | tfence => exact ha
  | _ => exact hz

theorem match_ldp {α : Type} {P : α → Prop} {i : Instr} {f : BitVec 18 → α} {z : α} (hf : ∀ o, P (f o)) (hz : P z) :
    P (match i with | .ldp _ _ o => f o | _ => z) := by
  induction i with
  | ldp _ _ o => exact hf o
  | _ => exact hz

theorem match_hint_chainE {α : Type} {P : α → Prop} {i : Instr} {f : BitVec 1 → α} {a z : α} (hf : ∀ e, P (f e)) (ha : P a)
    (hz : P z) : P (match i with | .hint e _ => f e | .chainE => a | _ => z) := by
  induction i with
  | hint e => exact hf e
  | chainE => exact ha
  | _ => exact hz

theorem match_chain_rep {α : Type} {P : α → Prop} {i : Instr} {a b c z : α} {f : BitVec 20 → α} (ha : P a) (hb : P b)
    (hf : ∀ n, P (f n)) (hc : P c) (hz : P z) :
    P (match i with | .chainB => a | .chainE => b | .repN _ n => f n | .repReg .. => c | _ => z) := by
  induction i with
  | chainB => exact ha
  | chainE => exact hb
  | repN _ n => exact hf n
  | repReg => exact hc
  | _ => exact hz

theorem match_ok_chain {α : Type} {P : α → Prop} {x : Except Reject Instr} {a z : α} (ha : P a) (hz : P z) :
    P (match x with | .ok .chainB | .ok .chainE => a | _ => z) := by
  cases x with
  | error => exact hz
  | ok i =>
    induction i with
    | chainB | chainE => exact ha
    | _ => exact hz

theorem match_some_nbq {α : Type} {P : α → Prop} {x : Option Instr} {f : BitVec 24 → α} {z : α} (hf : ∀ r, P (f r)) (hz : P z) :
    P (match x with | some (.nbq _ r) => f r | _ => z) := by
  cases x with
  | none => exact hz
  | some i =>
    induction i with
    | nbq _ r => exact hf r
    | _ => exact hz

end Sys2Proof.Machine
end
section
/-!
SUPPORT. The memories' form is kept by the operations on the state, the end of a word, operands, control and the special
words.
-/
set_option Elab.async false

namespace Sys2Proof.Machine
open Sys2Proof
variable {s : State}

/-! ### Operations on the state -/

theorem stop_keeps {α : Type} {x : Stop} (hx : x.memOk) : M.Keeps (stop x : M α) := fun _ _ => hx

theorem trapP_keeps {α : Type} {code arg} : M.Keeps (trapP code arg : M α) := stop_keeps trivial

theorem raise_keeps {α : Type} {t} : M.Keeps (raise t : M α) := stop_keeps trivial

theorem block_keeps {α : Type} {w} : M.Keeps (block w : M α) := stop_keeps trivial

theorem blockIf_keeps {c w} : M.Keeps (blockIf c w) := .ite block_keeps .pure

theorem trapIf_keeps {c code arg} : M.Keeps (trapIf c code arg) := .ite trapP_keeps .pure

theorem State.memOk.setCore (h : s.memOk) {c} : (s.setCore c).memOk := .ite h.upd h.upd

theorem State.memOk.focus (h : s.memOk) {id} : (s.focus id).memOk := .ite h h.upd

theorem State.memOk.mapCores (h : s.memOk) {f} : (s.mapCores f).memOk := h.upd

theorem State.memOk.modCore (h : s.memOk) {f} : (s.modCore f).memOk := h.upd

theorem State.memOk.modStrand (h : s.memOk) {f} : (s.modStrand f).memOk := h.modCore

theorem State.memOk.modRegs (h : s.memOk) {f} : (s.modRegs f).memOk := h.modStrand

theorem State.memOk.modSys (h : s.memOk) {f} : (s.modSys f).memOk := h.modStrand

theorem State.memOk.modAp (h : s.memOk) {f} : (s.modAp f).memOk := h.modStrand

theorem State.memOk.modEp (h : s.memOk) {f} : (s.modEp f).memOk := h.modStrand

theorem State.memOk.modQueues (h : s.memOk) {f} : (s.modQueues f).memOk := h.modStrand

theorem State.memOk.modOrder (h : s.memOk) {f} : (s.modOrder f).memOk := h.modCore

theorem State.memOk.modCoreRegs (h : s.memOk) {f} : (s.modCoreRegs f).memOk := h.modCore

theorem State.memOk.modShare (h : s.memOk) {f} : (s.modShare f).memOk := h.upd

theorem State.memOk.modPack (h : s.memOk) {f} : (s.modPack f).memOk := h.modShare

theorem State.memOk.modHub (h : s.memOk) {f} : (s.modHub f).memOk := h.upd

theorem State.memOk.setEngine (h : s.memOk) {n e0} : (s.setEngine n e0).memOk := h.modCore

theorem State.memOk.modEngine (h : s.memOk) {n f} : (s.modEngine n f).memOk := h.setEngine

theorem State.memOk.awrite (h : s.memOk) {c v} : (s.awrite c v).memOk := .ite h (.ite h.modStrand h.modRegs)

theorem State.memOk.ewrite (h : s.memOk) {c v} : (s.ewrite c v).memOk := h.modRegs

theorem State.memOk.predWrite (h : s.memOk) {n v} : (s.predWrite n v).memOk := .ite h (.ite h.modStrand h.modRegs)

theorem popReg_keeps {q cls} : M.Keeps (popReg q cls) := by
  intro s hs
  unfold popReg
  split
  · exact hs.modEp
  · split
    · trivial
    · split
      · trivial
      · dsimp only
        refine match_ite (P := M.Left) ?_ ?_
        all_goals exact hs.modQueues.modEp

theorem readEp_keeps {c cls} : M.Keeps (readEp c cls) := .ite (.get fun _ _ => .pure) popReg_keeps

theorem State.memOk.pushBq (h : s.memOk) {w} : (s.pushBq w).memOk := h.modQueues

theorem State.memOk.podSend (h : s.memOk) {r} : (s.podSend r).memOk := h.modShare

theorem State.memOk.podAsk (h : s.memOk) {r} : (s.podAsk r).memOk := .ite h h.podSend

theorem State.memOk.orphan (h : s.memOk) {core agents} : (s.orphan core agents).memOk := h.modShare

theorem State.memOk.podDone (h : s.memOk) {agent} : (s.podDone agent).memOk := h.modShare

theorem State.memOk.addRecord (h : s.memOk) {r} : (s.addRecord r).memOk := h.modHub

theorem State.memOk.dropStrand (h : s.memOk) {id} : (s.dropStrand id).memOk := h.upd.orphan.setCore

theorem State.memOk.engineEnded (h : s.memOk) {n} : (s.engineEnded n).memOk := State.memOk.modEngine (.ite h.upd h)

theorem State.memOk.modTq (h : s.memOk) {die q f} : (s.modTq die q f).memOk := h.modShare

theorem State.memOk.unaskOf (h : s.memOk) {core} : (s.unaskOf core).memOk := h.modShare

theorem State.memOk.dropCore (h : s.memOk) {id} : (s.dropCore id).memOk := h.dropStrand.unaskOf

theorem State.memOk.dropCores (h : s.memOk) {ids} : (s.dropCores ids).memOk := h.foldl fun _ _ h => h.dropCore

theorem State.memOk.dropRecords (h : s.memOk) {inv} : (s.dropRecords inv).memOk := h.modShare.mapCores

theorem State.memOk.endStrand (h : s.memOk) {code arg eng} : (s.endStrand code arg eng).memOk := by
  unfold State.endStrand
  dsimp only
  split
  · exact h.dropCore.addRecord
  · exact .ite h.dropCores.addRecord h.dropCores.dropRecords.modHub

theorem State.memOk.stateError (h : s.memOk) : s.stateError.memOk := State.memOk.endStrand (.ite h.addRecord h)

theorem State.memOk.takeTrap (h : s.memOk) {t} : (s.takeTrap t).memOk :=
  .ite h.endStrand (.ite h.endStrand h.modSys.modStrand.modCore)

theorem State.memOk.pendTrap (h : s.memOk) {t} : (s.pendTrap t).memOk := h.modStrand

theorem State.memOk.deliver (h : s.memOk) : s.deliver.memOk := by
  unfold State.deliver
  split
  · exact h
  · exact h.modStrand.takeTrap

/-! ### Ends of words and traps -/

theorem State.memOk.stopEngine (h : s.memOk) {n code arg va kind host} : (s.stopEngine n code arg va kind host).memOk :=
  .ite h.engineEnded (State.memOk.pendTrap (.ite h.setEngine.modEngine.upd h.setEngine))

theorem State.memOk.blockAp (h : s.memOk) {w} : (s.blockAp w).memOk :=
  .ite (.ite h.takeTrap h.modStrand) (.ite h.takeTrap h.modAp)

theorem State.memOk.blockEp (h : s.memOk) {w} : (s.blockEp w).memOk := .ite h.modEp.pendTrap h.modEp

theorem State.memOk.epPass (h : s.memOk) : s.epPass.memOk := h.modStrand

theorem State.memOk.apGo (h : s.memOk) {t} : (s.apGo t).memOk := h.modAp

theorem State.memOk.pushPred (h : s.memOk) {i} : (s.pushPred i).memOk := by
  unfold State.pushPred
  split
  · exact h.pushBq
  · exact h

theorem State.memOk.retireActive (h : s.memOk) {i f} : (s.retireActive i f).memOk := by
  unfold State.retireActive
  dsimp only
  split
  · exact h.modAp
  · exact h.pushBq.apGo
  · exact .ite (.ite h.modRegs.pushPred.apGo h.modRegs.modAp) h.pushPred.apGo

theorem State.memOk.retireShadow (h : s.memOk) {f} : (s.retireShadow f).memOk := by
  unfold State.retireShadow
  dsimp only
  split
  · exact h.modAp
  · exact h.modStrand.modAp
  · exact h.modStrand.modAp

theorem State.memOk.retireAp (h : s.memOk) {i f} : (s.retireAp i f).memOk := .ite h.retireShadow h.retireActive

theorem State.memOk.retireEp (h : s.memOk) {f} : (s.retireEp f).memOk := by
  unfold State.retireEp
  dsimp only
  split
  · exact h.modEp
  · exact h.epPass.modEp
  · exact .ite (.ite h.modRegs.epPass.modEp h.modRegs.modEp) h.epPass.modEp

theorem State.memOk.finishAp (h : s.memOk) {i r} (hr : M.Left r) : (s.finishAp i r).memOk := by
  unfold State.finishAp
  split
  · exact State.memOk.retireAp (State.memOk.podDone hr)
  · exact State.memOk.takeTrap (hr.trap h rfl)
  · exact h.blockAp
  · exact h.podAsk.modAp

theorem runAp_memOk (h : s.memOk) {i m} (hm : m.Keeps) : Answer.memOk (runAp i m s) := by
  unfold runAp
  refine match_ite (P := Answer.memOk) ?_ ?_
  · refine match_ite (P := Answer.memOk) ?_ ?_
    · exact h.blockAp
    · exact h.finishAp (hm _ h)
  · exact h.takeTrap

theorem State.memOk.finishEp (h : s.memOk) {r} (hr : M.Left r) : (s.finishEp r).memOk := by
  unfold State.finishEp
  split
  · exact State.memOk.retireEp (State.memOk.podDone hr)
  · exact State.memOk.pendTrap (State.memOk.modEp (hr.trap h rfl))
  · exact h.blockEp
  · exact h.podAsk.modEp

theorem runEp_memOk (h : s.memOk) {i m} (hm : m.Keeps) : Answer.memOk (runEp i m s) := by
  unfold runEp
  refine match_ite (P := Answer.memOk) ?_ ?_
  · exact h.takeTrap
  · refine match_ite (P := Answer.memOk) ?_ ?_
    · exact h.finishEp (hm _ h)
    · exact h

theorem runEngine_memOk (h : s.memOk) {n i m} (hm : m.Keeps) : Answer.memOk (runEngine n i m s) := by
  unfold runEngine
  dsimp only
  refine match_ite (P := Answer.memOk) ?_ ?_
  · split
    next e =>
      have hu := hm.ok h e
      refine match_ite ?_ ?_
      · exact hu.modEngine
      · exact h.stopEngine
    next e =>
      have hu := hm.ok h e
      exact hu.modEngine
    next e =>
      have hu := hm.ok h e
      exact hu
    · exact h.stopEngine
    · exact h
    · exact h.podAsk
  · exact h.stopEngine

theorem runShared_memOk (h : s.memOk) {i m} (hm : m.Keeps) : Answer.memOk (runShared i m s) := by
  unfold runShared
  split
  · exact runEngine_memOk h hm
  · refine match_ite (P := Answer.memOk) ?_ ?_
    · exact runEp_memOk h hm
    · exact runAp_memOk h hm

theorem State.memOk.followPath (h : s.memOk) : s.followPath.memOk := by
  unfold State.followPath
  split
  · exact h.blockEp
  · exact State.memOk.modEp (State.memOk.epPass (.ite h.modQueues.modRegs h.modQueues))

theorem State.memOk.followPred (h : s.memOk) {size} : (s.followPred size).memOk := by
  unfold State.followPred
  split
  · exact h.blockEp
  · exact h.modQueues.modRegs.epPass.modEp

theorem State.memOk.followFence (h : s.memOk) : s.followFence.memOk := .ite h.pendTrap h.followPath

theorem State.memOk.follow (h : s.memOk) {i size} : (s.follow i size).memOk :=
  match_tfence (P := State.memOk) h.followFence (.ite h.followPath (.ite h.followPred h.epPass.modEp))

theorem State.memOk.leaveShadow (h : s.memOk) : s.leaveShadow.memOk := h.modCore

theorem State.memOk.skipCommand (h : s.memOk) {n} : (s.skipCommand n).memOk := h.setEngine

theorem State.memOk.shret (h : s.memOk) {act} : (s.shret act).memOk := by
  unfold State.shret
  split
  · exact h
  · exact .ite h.endStrand
      (.ite h.endStrand <| by
          dsimp only
          split
          · exact .ite h.leaveShadow (.ite (.ite h.leaveShadow h.leaveShadow.modRegs.apGo)
              (.ite h.endStrand h.leaveShadow.modRegs.apGo))
          · exact .ite h.leaveShadow.modEp.modRegs.epPass.modEp h.leaveShadow.modEp
          · exact .ite h.leaveShadow
                (.ite (.ite h.leaveShadow.modEngine h.leaveShadow.skipCommand)
                  (.ite h.leaveShadow.modEngine h.leaveShadow.skipCommand)))

/-! ### Operands -/

theorem rd_keeps {e0 c} : M.Keeps (rd e0 c) :=
  .get fun _ _ => by
    split
    · exact .pure
    · exact .ite readEp_keeps .pure

theorem wr_keeps {e0 d v} : M.Keeps (wr e0 d v) :=
  .modify fun _ h => by
    split
    · exact h.modEngine
    · exact .ite h.ewrite h.awrite

theorem rdA_keeps {c} : M.Keeps (rdA c) := .get fun _ _ => .pure

theorem wrA_keeps {d v} : M.Keeps (wrA d v) := .modify fun _ h => h.awrite

theorem rdPred_keeps {e0 c} : M.Keeps (rdPred e0 c) :=
  .get fun _ _ => by
    split
    · exact .pure
    · exact .ite .pure (.ite block_keeps .pure)

theorem wrPred_keeps {d v} : M.Keeps (wrPred d v) :=
  .modify fun _ h => by
    split
    · exact h.modEngine
    · exact h.predWrite

/-! ### Flags -/

theorem sticky_keeps {f} : M.Keeps (sticky f) := .modify fun _ h => h.modRegs

/-! ### Control -/

theorem branchIf_keeps {c o} : M.Keeps (branchIf c o) := .get fun _ _ => .pure

theorem execCall_memOk (h : s.memOk) {c o} : Answer.memOk (execCall c o s) :=
  runShared_memOk h (.get fun _ _ => .bind wrA_keeps fun _ => .pure)

theorem execJr_memOk (h : s.memOk) {a} : Answer.memOk (execJr a s) :=
  runShared_memOk h (.bind rdA_keeps fun _ => .get fun _ _ => .ite raise_keeps .pure)

theorem lbegAp_keeps {r l a i} : M.Keeps (lbegAp r l a i) :=
  .get fun _ hs => .ite (.bind (.set hs.modRegs) fun _ => .pure) (.bind (.set hs.modRegs) fun _ => .pure)

theorem lbegEngine_keeps {n l a i} : M.Keeps (lbegEngine n l a i) :=
  .get fun _ hs => .ite (.bind (.set hs.setEngine) fun _ => .pure) (.bind (.set hs.setEngine) fun _ => .pure)

theorem execLbeg_memOk (h : s.memOk) {r l a i} : Answer.memOk (execLbeg r l a i s) :=
  runShared_memOk h (by
        split
        · exact lbegEngine_keeps
        · exact lbegAp_keeps)

theorem lendAp_keeps {l o} : M.Keeps (lendAp l o) :=
  .get fun _ hs =>
    .ite trapP_keeps (.ite (.bind (.set hs.modRegs) fun _ => .pure) (.bind (.set hs.modRegs) fun _ => .pure))

theorem lendEngine_keeps {n l o} : M.Keeps (lendEngine n l o) :=
  .get fun _ hs =>
    .ite trapP_keeps (.ite (.bind (.set hs.setEngine) fun _ => .pure) (.bind (.set hs.setEngine) fun _ => .pure))

theorem execLend_memOk (h : s.memOk) {l o} : Answer.memOk (execLend l o s) :=
  runShared_memOk h (by
        split
        · exact lendEngine_keeps
        · exact lendAp_keeps)

theorem State.memOk.setSema (h : s.memOk) {n v} : (s.setSema n v).memOk := h.modStrand

theorem execSgwait_memOk (h : s.memOk) {g w} : Answer.memOk (execSgwait g w s) :=
  runShared_memOk h (.get fun _ hs => .bind blockIf_keeps fun _ => .bind (.set hs.setSema) fun _ => .pure)

theorem execSgraise_memOk (h : s.memOk) {g} : Answer.memOk (execSgraise g s) :=
  runShared_memOk h (.get fun _ hs => .bind trapIf_keeps fun _ => .bind (.set hs.setSema) fun _ => .pure)

theorem execHint_memOk (h : s.memOk) {e0 x} : Answer.memOk (execHint e0 x s) := runShared_memOk h .pure

theorem execTrap_memOk (h : s.memOk) {n} : Answer.memOk (execTrap n s) := runAp_memOk h (fun _ h => h.retireAp)

theorem execTfence_memOk (h : s.memOk) : Answer.memOk (execTfence s) := runAp_memOk h (.get fun _ _ => .pure)

theorem State.memOk.requestGang (h : s.memOk) : s.requestGang.memOk := h.upd

theorem giveUp_keeps : M.Keeps giveUp :=
  .get fun _ hs => .ite (.bind (.set hs.modCore) fun _ => .pure) (.bind (.set hs.requestGang.modAp) fun _ => .pure)

theorem execYield_memOk (h : s.memOk) : Answer.memOk (execYield s) := runAp_memOk h giveUp_keeps

theorem execYieldp_memOk (h : s.memOk) : Answer.memOk (execYieldp s) :=
  runAp_memOk h (.get fun _ _ => .ite giveUp_keeps .pure)

theorem execHalt_memOk (h : s.memOk) : Answer.memOk (execHalt s) :=
  runAp_memOk h (.get fun _ hs => .bind (.set hs.pushBq.modAp) fun _ => .pure)

end Sys2Proof.Machine
end
section
/-!
SUPPORT. The memories' form is kept by homes, translation, the order of accesses, apertures, loads, stores, atomics, fences
and descriptors.
-/
set_option Elab.async false

namespace Sys2Proof.Machine
open Sys2Proof
variable {s : State}

/-! ### Homes -/

theorem State.memOk.giveUp (h : s.memOk) {cs sp a n} : (s.giveUp cs sp a n).memOk := State.giveUp_wf s cs sp a n h

theorem State.memOk.touchL2 (h : s.memOk) {sp view a} : (s.touchL2 sp view a).memOk := .ite h h.modPack

theorem State.memOk.clearL2 (h : s.memOk) {sp view a n} : (s.clearL2 sp view a n).memOk := .ite h h.modPack

theorem State.memOk.hostGivesUp (h : s.memOk) {sp a n} : (s.hostGivesUp sp a n).memOk :=
  (Mem.backInvalidate_wf s.mem sp a n).trans h

theorem State.memOk.homeWrite (h : s.memOk) {sp view a bs} : (s.homeWrite sp view a bs).memOk :=
  State.homeWrite_wf s sp view a bs h

theorem State.memOk.setPoison (h : s.memOk) {sp view unit p} : (s.setPoison sp view unit p).memOk :=
  State.setPoison_wf s sp view unit p h

/-! ### Translation -/

theorem State.memOk.touchWalk (h : s.memOk) {root va} : (s.touchWalk root va).memOk :=
  .ite h (h.foldl fun _ _ h => h.touchL2)

theorem State.memOk.tlbPut (h : s.memOk) {l} : (s.tlbPut l).memOk := h.modCore

theorem State.memOk.orPte (h : s.memOk) {n v} : (s.orPte n v).memOk := h.homeWrite

theorem State.memOk.useLeaf (h : s.memOk) {l walked va n priv} : KeptPair (s.useLeaf l walked va n priv) := by
  unfold State.useLeaf
  extract_lets pa arg unmapped
  refine match_ite (P := KeptPair) ?_ ?_
  · trivial
  · exact State.memOk.ite (.ite h.tlbPut h) h.orPte.tlbPut

theorem State.memOk.translateBy (h : s.memOk) {held va n priv} : KeptPair (s.translateBy held va n priv) := by
  unfold State.translateBy
  generalize walk s.mem (s.rootFor n.host) va = w
  generalize (held.orElse fun _ => s.tlbFind n.host (vaNat va)) = hit
  refine match_ite (P := KeptPair) ?_ ?_
  · trivial
  · cases hit with
    | some l => exact h.useLeaf
    | none =>
      cases w with
      | leaf e k a => exact h.touchWalk.useLeaf
      | bad _ => trivial
      | poisoned => trivial
      | unmapped => trivial

theorem State.memOk.translate (h : s.memOk) {va n priv} : KeptPair (s.translate va n priv) := h.translateBy

theorem State.memOk.missed (h : s.memOk) {va host} : (s.missed va host).memOk := .ite h.touchWalk h

theorem translate_keeps {va n} : M.Keeps (translate va n) := by
  intro s hs
  unfold translate
  split
  · exact hs.missed
  next e =>
    have hr := KeptPair.ok hs.translate e
    exact hr

/-! ### Order of accesses -/

theorem State.memOk.writeBack (h : s.memOk) {x} : (s.writeBack x).memOk := (State.cachesOnly_writeBack s x).mem h

theorem State.memOk.dropL1 (h : s.memOk) {which} : (s.dropL1 which).memOk :=
  State.memOk.modStrand (State.memOk.modOrder (h.foldl fun _ _ h => h.writeBack))

theorem State.memOk.writeBackAll (h : s.memOk) : s.writeBackAll.memOk := h.foldl fun _ _ h => h.writeBack

theorem State.memOk.wakeOwn (h : s.memOk) {sp a n} : (s.wakeOwn sp a n).memOk :=
  State.memOk.modCore (h.foldl fun _ _ h => h.writeBack)

theorem State.memOk.performCached (h : s.memOk) {e0} : (s.performCached e0).memOk :=
  State.memOk.modOrder (.ite h.homeWrite.modPack
      (.ite h.modOrder.wakeOwn <| by
          dsimp only
          split
          · exact h.homeWrite.modOrder
          · exact h.homeWrite))

theorem State.memOk.performScratch (h : s.memOk) {sp a bs} : (s.performScratch sp a bs).memOk := h.homeWrite.modOrder

theorem State.memOk.perform (h : s.memOk) {e0} : (s.perform e0).memOk := by
  unfold State.perform
  split
  · exact h.performCached
  · exact h.performCached
  · exact h.performScratch

theorem State.memOk.podWrite (h : s.memOk) {agent node off bs poison} : (s.podWrite agent node off bs poison).memOk :=
  h.podSend

theorem State.memOk.reread (h : s.memOk) {node off n} : (s.reread node off n).memOk := h.modShare

theorem State.memOk.storeDone (h : s.memOk) : s.storeDone.memOk := by
  unfold State.storeDone
  split
  · exact h
  · dsimp only
    split
    · exact h.modOrder.reread
    · exact h.modOrder

theorem State.memOk.performOldest (h : s.memOk) : s.performOldest.memOk := by
  unfold State.performOldest
  split
  · exact h
  · split
    · exact .ite h.storeDone (.ite h h.podWrite)
    · exact h.modOrder.perform

theorem State.memOk.drain (h : s.memOk) {n} : (State.drain n s).memOk := by
  induction n generalizing s with
  | zero => exact h
  | succ _ ih => exact ih h.performOldest

theorem State.memOk.drainAll (h : s.memOk) : s.drainAll.memOk := h.drain

theorem State.memOk.drainFor (h : s.memOk) {sp a n} : (s.drainFor sp a n).memOk := h.drain

theorem State.memOk.readScratch (h : s.memOk) {sp a n} : (s.readScratch sp a n).2.memOk := by
  unfold State.readScratch
  dsimp only
  split
  · exact h
  · exact h.modOrder

theorem State.memOk.countL1 (h : s.memOk) {sp view line} : (s.countL1 sp view line).memOk := by
  unfold State.countL1
  split
  · exact h
  · exact .ite h.dropL1.modOrder h.modOrder

theorem State.memOk.readCached (h : s.memOk) {sp p n pol rc} : (s.readCached sp p n pol rc).2.memOk := by
  unfold State.readCached
  dsimp only
  split
  · exact h.touchL2
  · split
    · exact h.countL1
    · exact State.memOk.ite (.ite h.touchL2.modOrder (.ite h.touchL2.modOrder h.touchL2.modOrder.modOrder))
        (.ite h.touchL2.modPack h.touchL2)

theorem State.memOk.releaseWith (h : s.memOk) {scope extra} : (s.releaseWith scope extra).memOk :=
  h.drainAll.writeBackAll.modPack.modOrder

theorem State.memOk.acquireBoard (h : s.memOk) {scope} : (s.acquireBoard scope).memOk :=
  State.memOk.modOrder (.ite h.dropL1 h.dropL1.modSys)

theorem State.memOk.acquire (h : s.memOk) {scope} : (s.acquire scope).memOk :=
  State.memOk.modOrder (State.memOk.foldl (.ite h.modSys h) fun _ _ h => h.acquireBoard)

theorem State.memOk.engineWrite (h : s.memOk) {sp view a bs} : (s.engineWrite sp view a bs).memOk := by
  have ht : (s.homeWrite sp view a bs).memOk := h.homeWrite
  unfold State.engineWrite
  exact .ite ht ht

theorem State.memOk.performEngine (h : s.memOk) {w} : (s.performEngine w).memOk :=
  .ite (State.memOk.modPack (by
            split
            · exact h.engineWrite.setPoison
            · exact h.engineWrite)) <| by
    split
    · exact h.engineWrite.setPoison
    · exact h.engineWrite

theorem State.memOk.flushEngine (h : s.memOk) {n} : (s.flushEngine n).memOk := by
  unfold State.flushEngine
  split
  · exact h
  · exact State.memOk.modEngine (h.foldl fun _ _ h => h.performEngine)

theorem State.memOk.performEngineOldest (h : s.memOk) {n} : (s.performEngineOldest n).memOk := by
  unfold State.performEngineOldest
  split
  · exact h
  · exact h.performEngine.modEngine

theorem State.memOk.flushEngines (h : s.memOk) : s.flushEngines.memOk := h.foldl fun _ _ h => h.flushEngine

theorem State.memOk.outsideWrite (h : s.memOk) {pa bs} : (s.outsideWrite pa bs).memOk := h.homeWrite.modPack

theorem State.memOk.flushStore (h : s.memOk) {e0} : (s.flushStore e0).memOk := by
  unfold State.flushStore
  split
  · exact .ite h h.podWrite
  · exact h.perform

theorem State.memOk.flushStores (h : s.memOk) : s.flushStores.memOk :=
  h.orphan.modOrder.foldl fun _ _ h => h.flushStore

theorem State.memOk.cleanCore (h : s.memOk) : s.cleanCore.memOk := by
  unfold State.cleanCore
  exact h.flushStores.flushEngines.writeBackAll.modOrder

/-! ### Reads of physical memory -/

theorem State.memOk.touchMembers (h : s.memOk) {w off} : (s.touchMembers w off).memOk :=
  h.foldl fun t x h => by
    dsimp only
    cases walk t.mem (rootOf w.root) (BitVec.ofNat 64 (x + off)) with
    | leaf => exact h.touchWalk.touchL2
    | _ => exact h.touchWalk

theorem State.memOk.podRead (h : s.memOk) {agent node off n} : Got.memOk (s.podRead agent node off n) := by
  unfold State.podRead
  dsimp only
  split
  · exact h
  · refine match_ite (P := Got.memOk) ?_ ?_
    · exact h.upd
    · trivial

theorem State.memOk.windowRead (h : s.memOk) {w off n} : Got.memOk (s.windowRead w off n) := by
  unfold State.windowRead
  split
  · exact h.touchMembers
  · exact h

theorem State.memOk.readPhys (h : s.memOk) {agent sp p n pol rc} : Got.memOk (s.readPhys agent sp p n pol rc) := by
  refine match_window_pod (P := Got.memOk) (fun _ _ => h.windowRead) (fun node off => ?_) h.readCached
  have hg : (s.podRead agent node off n).memOk := h.podRead
  generalize s.podRead agent node off n = g at hg ⊢
  cases g with
  | data => exact hg
  | ask => trivial

/-! ### Accesses -/

theorem accTrap_keeps {α : Type} {code arg kind va host} : M.Keeps (accTrap code arg kind va host : M α) :=
  .get fun _ hs => stop_keeps hs

theorem checkScratch_keeps {sp size off n kind} : M.Keeps (checkScratch sp size off n kind) :=
  .get fun _ _ =>
  .ite accTrap_keeps
  (.ite accTrap_keeps <| by
      split
      · exact accTrap_keeps
      · exact .pure)

theorem holdPinned_keeps {sp off n cls} : M.Keeps (holdPinned sp off n cls) :=
  .get fun _ _ => by
    split
    · exact block_keeps
    · exact .pure

theorem needRequest_keeps {sp cls} : M.Keeps (needRequest sp cls) := .get fun _ _ => blockIf_keeps

theorem needElement_keeps {sp} : M.Keeps (needElement sp) := .get fun _ _ => blockIf_keeps

theorem readAt_keeps {agent sp p n pol rc} : M.Keeps (readAt agent sp p n pol rc) := by
  intro s hs
  unfold readAt
  split
  · split
    next e =>
      have ht := Got.memOk.data hs.readPhys e
      exact ht
    · trivial
  · split
    next e =>
      have ht := Got.memOk.data hs.readPhys e
      exact ht
    · trivial
  · exact hs.readScratch

theorem acquireIf_keeps {c scope} : M.Keeps (acquireIf c scope) := .modify fun _ h => .ite h.acquire h

theorem awaitData_keeps {m} (hm : m.Keeps) :
    M.Keeps (awaitData m) := .get fun _ hs => .ite (.bind (.set hs.modAp) fun _ => .pure) hm

theorem loadReg_keeps {sp p n d va} : M.Keeps (loadReg sp p n d va) :=
  .get fun _ _ =>
  .bind readAt_keeps fun _ => by
    extract_lets jp1
    have hjp1 : ∀ r, M.Keeps (jp1 r) := fun _ => .bind acquireIf_keeps fun _ => .pure
    exact .ite (.ite (.bind wrA_keeps fun _ => .bind (.modify fun _ h => h.modSys) fun _ => hjp1 ())
            (.bind accTrap_keeps fun _ => hjp1 ())) (.bind wrA_keeps fun _ => hjp1 ())

theorem stayBlocked_keeps {w} : M.Keeps (stayBlocked w) := by
  intro s hs
  unfold stayBlocked
  extract_lets b
  refine match_ite (P := M.Left) ?_ ?_
  · exact hs
  · refine match_ite (P := M.Left) ?_ ?_
    · exact hs.modStrand
    · exact hs.modAp

theorem afterRelease_keeps {scope extra rest} (hrest : rest.Keeps) : M.Keeps (afterRelease scope extra rest) :=
  .bind (.modify fun _ h => h.drainAll) fun _ =>
    .get fun _ _ => .ite stayBlocked_keeps (.bind (.modify fun _ h => h.releaseWith) fun _ => hrest)

theorem releaseIf_keeps {c scope rest} (hrest : rest.Keeps) : M.Keeps (releaseIf c scope rest) :=
  .ite (afterRelease_keeps hrest) hrest

theorem storeRel_keeps {e0 scope} : M.Keeps (storeRel e0 scope) :=
  .get fun _ _ => by
    split
    · exact .ite (.bind (.modify fun _ h => h.modOrder) fun _ => .pure)
        (.ite stayBlocked_keeps
          (afterRelease_keeps (.get fun _ _ =>
                .ite (.bind (.modify fun _ h => h.modOrder) fun _ => .pure)
                  (.bind (.modify fun _ h => h.podWrite) fun _ => stayBlocked_keeps))))
    · exact afterRelease_keeps (.bind (.modify fun _ h => h.perform) fun _ => .pure)

theorem storeAt_keeps {e0} : M.Keeps (storeAt e0) :=
  .get fun _ _ => .ite storeRel_keeps (.bind (.modify fun _ h => h.modOrder) fun _ => .pure)

theorem regBytes_keeps {d n} : M.Keeps (regBytes d n) := .bind rdA_keeps fun _ => .pure

theorem loadScratch_keeps {sp size off place n cls d after} (hafter : after.Keeps) :
    M.Keeps (loadScratch sp size off place n cls d after) :=
  .bind checkScratch_keeps fun _ =>
    .bind needRequest_keeps fun _ => awaitData_keeps (.bind loadReg_keeps fun _ => .bind hafter fun _ => .pure)

theorem storeScratch_keeps {sp size off place n cls d after} (hafter : after.Keeps) :
    M.Keeps (storeScratch sp size off place n cls d after) :=
  .bind checkScratch_keeps fun _ =>
  .bind holdPinned_keeps fun _ =>
  .bind needRequest_keeps fun _ =>
  .bind regBytes_keeps fun _ =>
  .bind storeAt_keeps fun f => by
    cases f with
    | stay => exact .pure
    | _ => exact .bind hafter fun _ => .pure

theorem checkVirtual_keeps {sp va need} : M.Keeps (checkVirtual sp va need) := .ite accTrap_keeps translate_keeps

theorem loadVirtual_keeps {sp va cls d} : M.Keeps (loadVirtual sp va cls d) :=
  .bind checkVirtual_keeps fun _ => .bind needRequest_keeps fun _ => awaitData_keeps loadReg_keeps

theorem storeVirtual_keeps {sp va cls d} : M.Keeps (storeVirtual sp va cls d) :=
  .bind checkVirtual_keeps fun _ =>
    .bind needRequest_keeps fun _ => .bind regBytes_keeps fun _ => .get fun _ _ => storeAt_keeps

theorem loadQueue_keeps {sp va cls q pol zp} : M.Keeps (loadQueue sp va cls q pol zp) :=
  .bind checkVirtual_keeps fun _ =>
  .bind needRequest_keeps fun _ =>
  .get fun _ _ =>
  .bind blockIf_keeps fun _ => by
    extract_lets jp1
    have hjp1 : ∀ r, M.Keeps (jp1 r) := fun _ =>
        .bind (.modify fun _ h => h.modQueues) fun _ => .bind acquireIf_keeps fun _ => .pure
    exact .ite (.bind readAt_keeps fun _ => .bind .pure fun _ => hjp1 _) (.bind .pure fun _ => hjp1 _)

/-! ### Loads -/

theorem postInc_keeps {b z i} : M.Keeps (postInc b z i) := .get fun _ _ => wrA_keeps

theorem loadCham_keeps {z w d x after} (hafter : after.Keeps) : M.Keeps (loadCham z w d x after) :=
  .get fun _ _ => loadScratch_keeps hafter

theorem storeCham_keeps {z w d x after} (hafter : after.Keeps) : M.Keeps (storeCham z w d x after) :=
  .get fun _ _ => storeScratch_keeps hafter

theorem execLdc_memOk (h : s.memOk) {d b z p w i} : Answer.memOk (execLdc d b z p w i s) :=
  runAp_memOk h (.ite (loadCham_keeps postInc_keeps) (loadCham_keeps .pure))

theorem execStc_memOk (h : s.memOk) {d b z p w i} : Answer.memOk (execStc d b z p w i s) :=
  runAp_memOk h (.ite (storeCham_keeps postInc_keeps) (storeCham_keeps .pure))

theorem execLdcx_memOk (h : s.memOk) {d b z w x} : Answer.memOk (execLdcx d b z w x s) :=
  runAp_memOk h (loadCham_keeps .pure)

theorem execStcx_memOk (h : s.memOk) {d b z w x} : Answer.memOk (execStcx d b z w x s) :=
  runAp_memOk h (storeCham_keeps .pure)

theorem shadowPart_keeps {kind a n} : M.Keeps (shadowPart kind a n) :=
  .bind translate_keeps fun _ =>
  .get fun s hs => by
    extract_lets +onlyGivenNames got
    have hgot : ∀ g : Got, g.memOk → (got g).Keeps := by
      rintro (_ | _) hg
      · exact .bind (.set hg) fun _ => .pure
      · exact stop_keeps trivial
    exact match_window_pod (P := M.Keeps) (fun _ _ => hgot _ hs.windowRead) (fun _ _ => hgot _ hs.podRead)
      (.bind (.set hs.touchL2) fun _ => .pure)

theorem shadowBytes_keeps {kind a n} : M.Keeps (shadowBytes kind a n) := by
  induction n generalizing a with
  | zero => exact .pure
  | succ _ ih => exact .bind shadowPart_keeps fun _ => .bind ih fun _ => .pure

theorem shadowWord_keeps {kind a} : M.Keeps (shadowWord kind a) := .ite shadowPart_keeps shadowBytes_keeps

theorem shadowLit_keeps {d a} : M.Keeps (shadowLit d a) :=
  .bind shadowWord_keeps fun _ => .bind shadowWord_keeps fun _ => .iteBind accTrap_keeps wrA_keeps fun _ => .pure

theorem ldpAp_keeps {d a w} : M.Keeps (ldpAp d a w) :=
  .get fun _ _ =>
  .ite shadowLit_keeps
  (.ite trapP_keeps
      (.ite trapP_keeps (.bind translate_keeps fun _ => .when accTrap_keeps fun _ => .bind wrA_keeps fun _ => .pure)))

theorem ldpEp_keeps {d a} :
    M.Keeps (ldpEp d a) := .get fun _ hs => .when raise_keeps fun _ => .bind (.set hs.ewrite) fun _ => .pure

theorem execLdp_memOk (h : s.memOk) {e0 d o} : Answer.memOk (execLdp e0 d o s) := by
  unfold execLdp
  dsimp only
  refine match_ite (P := Answer.memOk) ?_ ?_
  · exact runEp_memOk h ldpEp_keeps
  · exact runAp_memOk h ldpAp_keeps

theorem fillQueue_memOk (h : s.memOk) {k n} : (fillQueue s k n).memOk := by
  unfold fillQueue
  dsimp only
  split
  · exact h
  · split
    · exact h
    · exact match_left_ask (P := State.memOk) (readAt_keeps _ h) (fun _ _ ht => ht.podDone.modQueues) (fun _ => h.podAsk)
        fun _ => h

theorem State.memOk.completeLoad (h : s.memOk) {r} : (s.completeLoad r).memOk :=
  match_left_ask (P := State.memOk) (readAt_keeps _ h) (fun _ _ ht => ht) (fun _ => h.podAsk) fun _ => h

theorem State.memOk.completeLoads (h : s.memOk) : s.completeLoads.memOk := h.foldl fun _ _ h => h.completeLoad

theorem execQueueEntryFill_memOk (h : s.memOk) : Answer.memOk (execQueueEntryFill s) := fillQueue_memOk h

theorem execLoadDataReturn_memOk (h : s.memOk) : Answer.memOk (execLoadDataReturn s) := State.memOk.ite h.modAp h

/-! ### Atomics -/

theorem amoPlace_keeps {sp addr} : M.Keeps (amoPlace sp addr) :=
  .get fun _ _ => by
    split
    · exact checkVirtual_keeps
    · exact checkVirtual_keeps
    · exact .bind checkScratch_keeps fun _ => .pure

theorem State.memOk.amoWrite (h : s.memOk) {sp p bs} : (s.amoWrite sp p bs).memOk := by
  unfold State.amoWrite
  split
  · exact .ite h.homeWrite.modOrder.modPack h.homeWrite.modOrder
  · exact .ite h.homeWrite.modOrder.modPack h.homeWrite.modOrder
  · exact h.performScratch

theorem State.memOk.dropOwn (h : s.memOk) {sp pa} : (s.dropOwn sp pa).memOk := h.dropL1

theorem amoHome_keeps {op sp p d b exp va} : M.Keeps (amoHome op sp p d b exp va) :=
  .bind (.modify fun _ h => h.drainFor) fun _ =>
  .get fun _ _ =>
  .ite stayBlocked_keeps
  (.bind (.modify fun _ h => h.dropOwn) fun _ =>
    .get fun _ hs1 =>
    .bind (.set hs1.touchL2) fun _ =>
    .when accTrap_keeps fun _ =>
      .bind (.set (.ite hs1.touchL2.amoWrite hs1.touchL2)) fun _ => .bind wrA_keeps fun _ => .pure)

theorem amoPod_keeps {op node off d b exp va} : M.Keeps (amoPod op node off d b exp va) :=
  .get fun _ hs => by
    split
    · exact .when accTrap_keeps fun _ => .bind wrA_keeps fun _ => .pure
    · exact .ite (.bind (.set hs.upd) fun _ => .bind wrA_keeps fun _ => .pure)
          (.ite (.bind (.set hs.drainFor) fun _ => stayBlocked_keeps) (.bind (.set hs.podAsk) fun _ => stayBlocked_keeps))

theorem amoEnd_keeps {f} : M.Keeps (amoEnd f) := by
  cases f with
  | stay => exact .pure
  | _ => exact .get fun _ _ => .bind acquireIf_keeps fun _ => .pure

theorem amo_keeps {op z d a b} : M.Keeps (amo op z d a b) :=
  .bind rdA_keeps fun _ =>
  .bind rdA_keeps fun _ =>
  .bind rdA_keeps fun _ =>
  .when accTrap_keeps fun _ =>
  .bind amoPlace_keeps fun _ =>
  .bind needRequest_keeps fun _ =>
  awaitData_keeps (.get fun _ _ => by
        extract_lets _
        split
        · exact .bind (releaseIf_keeps amoPod_keeps) fun _ => amoEnd_keeps
        · exact .bind (releaseIf_keeps amoHome_keeps) fun _ => amoEnd_keeps)

theorem State.memOk.setMonitor (h : s.memOk) {m b} : (s.setMonitor m b).memOk := .ite h.modStrand h.modAp

theorem waitRead_keeps {sp p} : M.Keeps (waitRead sp p) :=
  .get fun _ _ => by
    split
    · exact readAt_keeps
    · exact readAt_keeps
    · exact .pure

theorem State.memOk.arm (h : s.memOk) {sp sector b} : (s.arm sp sector b).memOk :=
  State.memOk.setMonitor (.ite h h.mapCores)

theorem waitDone_keeps {sp sector d reason} : M.Keeps (waitDone sp sector d reason) :=
  .bind (.modify fun _ h => h.modOrder.setMonitor) fun _ =>
    .bind wrA_keeps fun _ => .get fun _ _ => .bind acquireIf_keeps fun _ => .pure

theorem waitArm_keeps {sp d addr w} : M.Keeps (waitArm sp d addr w) := by
  unfold waitArm
  refine .when accTrap_keeps fun _ => .get fun s hs => ?_
  extract_lets +onlyGivenNames _ jp
  have hjp : ∀ r, M.Keeps (jp r) := fun _ =>
    .bind waitRead_keeps fun _ => .when accTrap_keeps fun _ =>
    .bind rdA_keeps fun _ => .ite waitDone_keeps (.ite waitDone_keeps (.bind (.modify fun _ h => h.arm) fun _ => .pure))
  split
  · exact .bind checkVirtual_keeps fun _ => hjp _
  · exact .bind checkVirtual_keeps fun _ => hjp _
  · exact .bind checkScratch_keeps fun _ => hjp _

theorem execWaita_memOk (h : s.memOk) {d a m w} : Answer.memOk (execWaita d a m w s) :=
  runAp_memOk h (by
        split
        · exact waitArm_keeps
        · split
          · exact waitDone_keeps
          · exact .ite waitDone_keeps .pure)

theorem execWaitaWake_memOk (h : s.memOk) : Answer.memOk (execWaitaWake s) := h.setMonitor

theorem execWaitaBoundWake_memOk (h : s.memOk) : Answer.memOk (execWaitaBoundWake s) := State.memOk.ite h.setMonitor h

/-! ### Fences -/

theorem execFacq_memOk (h : s.memOk) {c} : Answer.memOk (execFacq c s) :=
  runAp_memOk h (.when (.modify fun _ h => h.drain) fun _ =>
        .get fun _ _ => .ite stayBlocked_keeps (.bind (.modify fun _ h => h.acquire) fun _ => .pure))

theorem execFrel_memOk (h : s.memOk) {c} : Answer.memOk (execFrel c s) := runAp_memOk h (afterRelease_keeps .pure)

theorem execFacqrel_memOk (h : s.memOk) {c} : Answer.memOk (execFacqrel c s) :=
  runAp_memOk h (afterRelease_keeps (.bind (.modify fun _ h => h.acquire) fun _ => .pure))

theorem State.memOk.joinViews (h : s.memOk) {pa} : (s.joinViews pa).memOk := by
  have ht : ((s.hostGivesUp .dev pa 32).giveUp s.cores .dev pa 32).memOk := h.hostGivesUp.giveUp
  unfold State.joinViews
  refine State.memOk.mapCores (State.memOk.clearL2 (State.memOk.setPoison ?_))
  exact Mem.setBank_wf _ _ _ _ ht (Bank.write_wf _ _ _ _ (Mem.bank_wf _ _ _ ht))

theorem State.memOk.cinvPart (h : s.memOk) {pa n} : (s.cinvPart pa n).memOk := h.dropL1

theorem State.memOk.dcfencePart (h : s.memOk) {pa n} : (s.dcfencePart pa n).memOk :=
  h.dropL1.foldl fun _ _ h => h.joinViews.modOrder

theorem walkPages_keeps {need part a len xs} (hpart : ∀ t y1 y2, t.memOk → (part t y1 y2).memOk) :
    M.Keeps (walkPages need part a len xs) := by
  induction xs with
  | nil => exact .pure
  | cons _ _ ih =>
    exact .get fun _ hs => by
        extract_lets _
        split
        · exact stop_keeps hs.missed
        next e =>
          have ht := KeptPair.ok hs.translate e
          exact .bind (.set (hpart _ _ _ ht)) fun _ => ih

theorem rangeOp_keeps {need part a b} (hpart : ∀ t y1 y2, t.memOk → (part t y1 y2).memOk) : M.Keeps (rangeOp need part a b) :=
  .bind rdA_keeps fun _ =>
  .bind rdA_keeps fun _ =>
  .ite accTrap_keeps
  (.ite .pure
    (.bind (.modify fun _ h => h.drainAll) fun _ =>
        .get fun _ _ => .ite stayBlocked_keeps (.bind (walkPages_keeps hpart) fun _ => .pure)))

theorem execCinv_memOk (h : s.memOk) {a b} : Answer.memOk (execCinv a b s) :=
  runAp_memOk h (rangeOp_keeps (fun _ _ _ h => h.cinvPart))

theorem execDcfence_memOk (h : s.memOk) {a b} : Answer.memOk (execDcfence a b s) :=
  runAp_memOk h (rangeOp_keeps (fun _ _ _ h => h.dcfencePart))

theorem execStorePerform_memOk (h : s.memOk) : Answer.memOk (execStorePerform s) := by
  unfold execStorePerform
  refine match_ite (P := Answer.memOk) ?_ ?_
  · exact h.performEngineOldest
  · refine match_ite (P := Answer.memOk) ?_ ?_
    · exact h.performOldest
    · split
      · exact h.performEngineOldest
      · exact h

theorem execL1Writeback_memOk (h : s.memOk) : Answer.memOk (execL1Writeback s) := by
  unfold execL1Writeback
  split
  · exact h.writeBack
  · exact h

theorem execL1Drop_memOk (h : s.memOk) : Answer.memOk (execL1Drop s) := by
  unfold execL1Drop
  split
  · exact .ite h.dropL1 h
  · exact h

theorem execScratchCopyDrop_memOk (h : s.memOk) : Answer.memOk (execScratchCopyDrop s) :=
  State.memOk.ite h.modOrder h.modEngine

/-! ### Descriptors -/

theorem State.memOk.modStream (h : s.memOk) {k f} : (s.modStream k f).memOk := h.modStrand

theorem newVersion_keeps {k cls clears f} : M.Keeps (newVersion k cls clears f) :=
  .get fun _ hs => .ite (.set hs.modStream) (.bind blockIf_keeps fun _ => .set hs.modStream.modAp)

theorem execSld_memOk (h : s.memOk) {k a w i} : Answer.memOk (execSld k a w i s) :=
  runAp_memOk h (.bind checkScratch_keeps fun _ =>
        awaitData_keeps (.bind readAt_keeps fun _ => .when accTrap_keeps fun _ => .bind newVersion_keeps fun _ => .pure))

theorem execSst_memOk (h : s.memOk) {k a w i} : Answer.memOk (execSst k a w i s) :=
  runAp_memOk h (.bind checkScratch_keeps fun _ => .bind holdPinned_keeps fun _ => .get fun _ _ => storeAt_keeps)

end Sys2Proof.Machine
end
section
/-!
SUPPORT. The memories' form is kept by the streams and the execute words.
-/
set_option Elab.async false

namespace Sys2Proof.Machine
open Sys2Proof
variable {s : State}

/-! ### Streams and paths -/

theorem Path.naming_keeps {α : Type} {p : Path} {i} {m : M α} (hm : m.Keeps) : M.Keeps (p.naming i m) := by
  intro s hs
  have hl := hm s hs
  unfold Path.naming
  generalize m s = r at hl ⊢
  rcases r with (_ | _ | _) | _
  all_goals exact hl

theorem Path.readAll_keeps {p xs} (hp : p.Keeps) : M.Keeps (Path.readAll p xs) := by
  induction xs with
  | nil => exact .pure
  | cons _ _ ih => exact .bind (hp.read _ _) fun _ => .bind ih fun _ => .pure

theorem Path.elem_keeps {p i} (hp : p.Keeps) : M.Keeps (Path.elem p i) :=
  Path.naming_keeps (.ite (.bind (hp.pop _) fun _ => .iteBind (hp.poisoned _) .pure fun _ => .pure)
      (.bind (Path.readAll_keeps hp) fun _ =>
        .bind (Path.readAll_keeps hp) fun _ => by
          split
          · exact .iteBind (hp.poisoned _) .pure fun _ => .pure
          · exact .bind (Path.readAll_keeps hp) fun _ => .ite (.bind (hp.poisoned _) fun _ => .pure) .pure))

theorem Path.writePlanes_keeps {p c code marked last xs} (hp : p.Keeps) : M.Keeps (Path.writePlanes p c code marked last xs) := by
  induction xs with
  | nil => exact .pure
  | cons _ _ ih => exact .bind (hp.read _ _) fun _ => .bind (hp.write _ _ _) fun _ => ih

theorem Path.writeBytes_keeps {p marked xs} (hp : p.Keeps) : M.Keeps (Path.writeBytes p marked xs) := by
  induction xs with
  | nil => exact .pure
  | cons _ _ ih => exact .bind (hp.write _ _ _) fun _ => ih

theorem Path.clearHigh_keeps {p n xs} (hp : p.Keeps) : M.Keeps (Path.clearHigh p n xs) := by
  induction xs with
  | nil => exact .pure
  | cons _ _ ih => exact .bind (hp.read _ _) fun _ => .bind (hp.write _ _ _) fun _ => ih

theorem Path.padRow_keeps {p q} (hp : p.Keeps) : M.Keeps (Path.padRow p q) :=
  .ite .pure (.when (Path.clearHigh_keeps hp) fun _ => Path.writeBytes_keeps hp)

theorem Path.put_keeps {p i code marked} (hp : p.Keeps) : M.Keeps (Path.put p i code marked) :=
  Path.naming_keeps (.ite (.bind (Path.writePlanes_keeps hp) fun _ => .ite (Path.padRow_keeps hp) .pure)
        (.ite (.bind (Path.readAll_keeps hp) fun _ => Path.writeBytes_keeps hp) (hp.write _ _ _)))

theorem Path.putScale_keeps {p i code} (hp : p.Keeps) : M.Keeps (Path.putScale p i code) :=
  Path.naming_keeps (Path.writeBytes_keeps hp)

theorem epTranslate_keeps {sp a write} : M.Keeps (epTranslate sp a write) :=
  .get fun _ hs => by
    extract_lets _
    split
    · exact .pure
    · split
      next e =>
        have ht := KeptPair.ok hs.translate e
        exact .bind (.set ht) fun _ => .pure
      · exact stop_keeps hs.missed

theorem epReadMem_keeps {v a n} : M.Keeps (epReadMem v a n) :=
  .get fun _ _ =>
  .bind needElement_keeps fun _ => by
    split
    · exact .bind epTranslate_keeps fun _ => readAt_keeps
    · exact .bind epTranslate_keeps fun _ => readAt_keeps
    · exact readAt_keeps

theorem epRead_keeps {k v a n} : M.Keeps (epRead k v a n) :=
  .get fun _ _ => by
    split
    · exact .pure
    · exact epReadMem_keeps

theorem State.memOk.poisonAt (h : s.memOk) {sp view a} : (s.poisonAt sp view a).memOk := by
  unfold State.poisonAt
  split
  · exact .ite h.setPoison h.modOrder
  · exact h.setPoison

theorem epWrite_keeps {v a bs marked} : M.Keeps (epWrite v a bs marked) :=
  .get fun _ hs =>
  .bind needElement_keeps fun _ => by
    split
    · exact .bind epTranslate_keeps fun _ =>
        .bind (.modify fun _ h => h.drainFor) fun _ =>
        .get fun _ hs1 =>
        .when block_keeps fun _ => by
          split
          · exact .set (State.memOk.modOrder (.ite hs1 hs1.podWrite))
          · exact .set (.ite hs1.perform.poisonAt hs1.perform)
    · exact .bind epTranslate_keeps fun _ =>
        .bind (.modify fun _ h => h.drainFor) fun _ =>
        .get fun _ hs3 =>
        .when block_keeps fun _ => by
          split
          · exact .set (State.memOk.modOrder (.ite hs3 hs3.podWrite))
          · exact .set (.ite hs3.perform.poisonAt hs3.perform)
    · split
      · exact block_keeps
      · exact .ite (.bind (.set hs.drainFor) fun _ => block_keeps)
            (.set (.ite hs.drainFor.performScratch.setPoison hs.drainFor.performScratch))

theorem epPop_keeps {k v i} : M.Keeps (epPop k v i) :=
  .get fun _ _ => by
    extract_lets _ _
    split
    · exact block_keeps
    · split
      · exact block_keeps
      · exact .when (.modify fun _ h => .ite h.modQueues.modStream h.modQueues) fun _ => .pure

theorem epPoisoned_keeps {k v i} : M.Keeps (epPoisoned k v i) := by
  unfold epPoisoned
  split
  · exact raise_keeps
  · exact .bind (.modify fun _ h => h.modStream) fun _ => .pure
  · exact .pure

theorem State.epPath_keeps {s k} : (State.epPath s k).Keeps :=
  ⟨fun _ _ => epRead_keeps, fun _ _ _ => epWrite_keeps, fun _ => epPop_keeps, fun _ => epPoisoned_keeps⟩

theorem State.epDest_keeps {s k} : (State.epDest s k).Keeps :=
  ⟨fun _ _ => epReadMem_keeps,
    fun _ _ _ => State.epPath_keeps.write _ _ _,
    fun _ => State.epPath_keeps.pop _,
    fun _ => State.epPath_keeps.poisoned _⟩

/-! ### Plans -/

theorem Plan.mark_memOk (h : s.memOk) {p u} : (Plan.mark p u s).memOk :=
  State.memOk.modStream (h.foldl fun _ _ h => h.modStream)

theorem Plan.hold_memOk (h : s.memOk) {p seen u} : (Plan.hold p seen u s).memOk :=
  .ite (State.memOk.modEp (Plan.mark_memOk h)) (Plan.mark_memOk h)

theorem Plan.clear_memOk (h : s.memOk) {p} : (Plan.clear p s).memOk :=
  State.memOk.modStream (h.foldl fun _ _ h => h.modStream)

theorem Plan.run_keeps {p limit begun n u} (hp : p.Keeps) : M.Keeps (Plan.run p limit begun n u) := by
  induction n generalizing u with
  | zero => exact .bind hp.finish fun _ => .bind (.modify fun _ h => Plan.clear_memOk h) fun _ => .pure
  | succ n ih =>
    intro s hs
    unfold Plan.run
    refine match_ite (P := M.Left) ?_ (State.memOk.modAp (Plan.hold_memOk hs))
    exact match_left_ok_first (P := M.Left) (hp.unit u s hs) (fun _ _ ht => ih _ ht.podDone)
      (fun _ _ hk => Plan.hold_memOk (hk.getD hs)) (fun _ => match_ite (P := M.Left) trivial (Plan.mark_memOk hs))
      fun _ => Plan.mark_memOk hs.podAsk

theorem Plan.go_keeps {p} (hp : p.Keeps) : M.Keeps (Plan.go p) := fun _ hs => Plan.run_keeps hp _ hs

/-! ### Element-wise words -/

theorem broadcast_keeps {k} : M.Keeps (broadcast k) :=
  .get fun _ _ => by
    extract_lets _
    split
    · exact .pure
    · exact .bind (Path.elem_keeps State.epPath_keeps) fun _ => .bind (.modify fun _ h => h.modEp) fun _ => .pure

theorem srcElem_keeps {k j} : M.Keeps (srcElem k j) := by
  unfold srcElem
  split
  · exact .pure
  · exact .get fun _ _ => .ite broadcast_keeps (Path.elem_keeps State.epPath_keeps)

theorem srcPair_keeps {x j} : M.Keeps (srcPair x j) := .bind srcElem_keeps fun _ => .iteBind .pure srcElem_keeps fun _ => .pure

theorem elemFlags_keeps {marked f} : M.Keeps (elemFlags marked f) := .ite .pure sticky_keeps

theorem vopUnit_keeps {x f j} : M.Keeps (vopUnit x f j) :=
  .get fun _ _ =>
  .bind srcPair_keeps fun _ =>
  .iteBind (Path.elem_keeps State.epDest_keeps) .pure fun _ =>
    .get fun _ _ => .bind elemFlags_keeps fun _ => Path.put_keeps State.epDest_keeps

theorem elemPlan_keeps {s x unit} (hunit : ∀ y0, M.Keeps (unit y0)) : (elemPlan s x unit).Keeps := ⟨hunit, .pure⟩

theorem runVop_memOk (h : s.memOk) {i f} : Answer.memOk (runVop i f s) := by
  unfold runVop
  split
  · exact runEp_memOk h (fun _ h => (Plan.go_keeps (elemPlan_keeps (fun _ => vopUnit_keeps)) : M.Keeps _) _ h)
  · exact h

theorem execVadd_memOk (h : s.memOk) {d a b f r} : Answer.memOk (execVadd d a b f r s) := runVop_memOk h

theorem execVsub_memOk (h : s.memOk) {d a b f r} : Answer.memOk (execVsub d a b f r s) := runVop_memOk h

theorem execVmul_memOk (h : s.memOk) {d a b f r} : Answer.memOk (execVmul d a b f r s) := runVop_memOk h

theorem execVfma_memOk (h : s.memOk) {d a b f r} : Answer.memOk (execVfma d a b f r s) := runVop_memOk h

theorem execVdiv_memOk (h : s.memOk) {d a b f r} : Answer.memOk (execVdiv d a b f r s) := runVop_memOk h

theorem execVsqrt_memOk (h : s.memOk) {d a f r} : Answer.memOk (execVsqrt d a f r s) := runVop_memOk h

theorem execVneg_memOk (h : s.memOk) {d a f r} : Answer.memOk (execVneg d a f r s) := runVop_memOk h

theorem execVabs_memOk (h : s.memOk) {d a f r} : Answer.memOk (execVabs d a f r s) := runVop_memOk h

theorem execVmin_memOk (h : s.memOk) {d a b f r} : Answer.memOk (execVmin d a b f r s) := runVop_memOk h

theorem execVmax_memOk (h : s.memOk) {d a b f r} : Answer.memOk (execVmax d a b f r s) := runVop_memOk h

theorem execVmov_memOk (h : s.memOk) {d a f r} : Answer.memOk (execVmov d a f r s) := runVop_memOk h

theorem execVadds_memOk (h : s.memOk) {d a b f r} : Answer.memOk (execVadds d a b f r s) := runVop_memOk h

theorem execVsubs_memOk (h : s.memOk) {d a b f r} : Answer.memOk (execVsubs d a b f r s) := runVop_memOk h

theorem execVand_memOk (h : s.memOk) {d a b f r} : Answer.memOk (execVand d a b f r s) := runVop_memOk h

theorem execVor_memOk (h : s.memOk) {d a b f r} : Answer.memOk (execVor d a b f r s) := runVop_memOk h

theorem execVxor_memOk (h : s.memOk) {d a b f r} : Answer.memOk (execVxor d a b f r s) := runVop_memOk h

theorem execVshl_memOk (h : s.memOk) {d a b f r} : Answer.memOk (execVshl d a b f r s) := runVop_memOk h

theorem execVshr_memOk (h : s.memOk) {d a b f r} : Answer.memOk (execVshr d a b f r s) := runVop_memOk h

theorem execVsra_memOk (h : s.memOk) {d a b f r} : Answer.memOk (execVsra d a b f r s) := runVop_memOk h

theorem execVexp_memOk (h : s.memOk) {d a f r} : Answer.memOk (execVexp d a f r s) := runVop_memOk h

theorem execVlog_memOk (h : s.memOk) {d a f r} : Answer.memOk (execVlog d a f r s) := runVop_memOk h

theorem execVrsqrt_memOk (h : s.memOk) {d a f r} : Answer.memOk (execVrsqrt d a f r s) := runVop_memOk h

theorem execVtanh_memOk (h : s.memOk) {d a f r} : Answer.memOk (execVtanh d a f r s) := runVop_memOk h

theorem execVsigm_memOk (h : s.memOk) {d a f r} : Answer.memOk (execVsigm d a f r s) := runVop_memOk h

theorem sliceRead_keeps {core sz o j} : M.Keeps (sliceRead core sz o j) := .get fun _ _ => .pure

theorem ldlUnit_keeps {k sz o j} : M.Keeps (ldlUnit k sz o j) :=
  .get fun _ _ =>
    .bind sliceRead_keeps fun _ => .iteBind (State.epDest_keeps.poisoned _) .pure fun _ => Path.put_keeps State.epDest_keeps

theorem stlUnit_keeps {k sz o j} : M.Keeps (stlUnit k sz o j) :=
  .get fun _ _ =>
    .bind (Path.elem_keeps State.epPath_keeps) fun _ => .modify fun _ h => .ite h.homeWrite.setPoison h.homeWrite

theorem slicePlan_keeps {s k unit} (hunit : ∀ y0, M.Keeps (unit y0)) : (slicePlan s k unit).Keeps := ⟨hunit, .pure⟩

theorem execLdl_memOk (h : s.memOk) {z k a r o} : Answer.memOk (execLdl z k a r o s) :=
  runEp_memOk h (fun _ h => (Plan.go_keeps (slicePlan_keeps (fun _ => ldlUnit_keeps)) : M.Keeps _) _ h)

theorem execStl_memOk (h : s.memOk) {z k a r o} : Answer.memOk (execStl z k a r o s) :=
  runEp_memOk h (fun _ h => (Plan.go_keeps (slicePlan_keeps (fun _ => stlUnit_keeps)) : M.Keeps _) _ h)

/-! ### Reductions -/

theorem State.memOk.setXr (h : s.memOk) {r} : (s.setXr r).memOk := h.modEp

theorem endRow_keeps {x kind q code marked} : M.Keeps (endRow x kind q code marked) :=
  .get fun _ _ => .bind (Path.put_keeps State.epDest_keeps) fun _ => .modify fun _ h => h.setXr

theorem dropRecord_keeps : M.Keeps dropRecord := .modify fun _ h => h.setXr

theorem oldDest_keeps {x q} : M.Keeps (oldDest x q) := .get fun _ _ => Path.elem_keeps State.epDest_keeps

theorem redPair_keeps {x i} : M.Keeps (redPair x i) :=
  .get fun _ _ =>
  .bind (Path.elem_keeps State.epPath_keeps) fun _ => by
    split
    · exact .pure
    · exact .iteBind .pure (Path.elem_keeps State.epPath_keeps) fun _ => .pure

theorem redPairs_keeps {x n n1} : M.Keeps (redPairs x n n1) := by
  induction n1 generalizing n with
  | zero => exact .pure
  | succ _ ih => exact .bind redPair_keeps fun _ => .bind ih fun _ => .pure

theorem dotBlock_keeps {x E q b} : M.Keeps (dotBlock x E q b) :=
  .get fun _ _ =>
  .iteBind oldDest_keeps .pure fun _ =>
    .bind redPairs_keeps fun _ => .get fun _ hs2 => .bind sticky_keeps fun _ => .ite endRow_keeps (.set hs2.setXr.modRegs)

theorem wrapUnit_keeps {x E q c} : M.Keeps (wrapUnit x E q c) :=
  .get fun _ _ =>
    .iteBind oldDest_keeps .pure fun _ => .bind redPair_keeps fun _ => .ite endRow_keeps (.modify fun _ h => h.setXr)

theorem satUnit_keeps {x E q c} : M.Keeps (satUnit x E q c) :=
  .get fun _ _ =>
  .bind redPair_keeps fun _ =>
  .bind sticky_keeps fun _ =>
    .ite (.bind oldDest_keeps fun _ => .bind sticky_keeps fun _ => endRow_keeps) (.modify fun _ h => h.setXr)

theorem extremeUnit_keeps {x up E q c} : M.Keeps (extremeUnit x up E q c) :=
  .get fun _ _ => .bind (Path.elem_keeps State.epPath_keeps) fun _ => .ite endRow_keeps (.modify fun _ h => h.setXr)

theorem rowPlan_keeps {s x kind n unit} (hunit : ∀ y0 y1 y2, M.Keeps (unit y0 y1 y2)) : (rowPlan s x kind n unit).Keeps :=
  ⟨fun _ => hunit _ _ _, dropRecord_keeps⟩

theorem blockPlan_keeps {s x} : (blockPlan s x).Keeps := ⟨fun _ => dotBlock_keeps, dropRecord_keeps⟩

theorem vredPlan_keeps {s x f} : (vredPlan s x f).Keeps := by
  unfold vredPlan
  split
  · refine match_ite (P := Plan.Keeps) ?_ ?_
    · exact blockPlan_keeps
    · exact rowPlan_keeps (fun _ _ _ => wrapUnit_keeps)
  · refine match_ite (P := Plan.Keeps) ?_ ?_
    · exact blockPlan_keeps
    · exact rowPlan_keeps (fun _ _ _ => wrapUnit_keeps)
  · exact rowPlan_keeps (fun _ _ _ => extremeUnit_keeps)
  · exact rowPlan_keeps (fun _ _ _ => extremeUnit_keeps)
  · exact rowPlan_keeps (fun _ _ _ => satUnit_keeps)

theorem runVred_memOk (h : s.memOk) {i f} : Answer.memOk (runVred i f s) := by
  unfold runVred
  split
  · exact runEp_memOk h (fun _ h => (Plan.go_keeps vredPlan_keeps : M.Keeps _) _ h)
  · exact h

theorem execVrsum_memOk (h : s.memOk) {d a f} : Answer.memOk (execVrsum d a f s) := runVred_memOk h

theorem execVdot_memOk (h : s.memOk) {d a b f} : Answer.memOk (execVdot d a b f s) := runVred_memOk h

theorem execVrmax_memOk (h : s.memOk) {d a f} : Answer.memOk (execVrmax d a f s) := runVred_memOk h

theorem execVrmin_memOk (h : s.memOk) {d a f} : Answer.memOk (execVrmin d a f s) := runVred_memOk h

theorem execVrsums_memOk (h : s.memOk) {d a f} : Answer.memOk (execVrsums d a f s) := runVred_memOk h

theorem execVdots_memOk (h : s.memOk) {d a b f} : Answer.memOk (execVdots d a b f s) := runVred_memOk h

/-! ### Conversions -/

theorem readElems_keeps {p n n1} (hp : p.Keeps) : M.Keeps (readElems p n n1) := by
  induction n1 generalizing n with
  | zero => exact .pure
  | succ _ ih => exact .bind (Path.elem_keeps hp) fun _ => .bind ih fun _ => .pure

theorem Conv.putAll_keeps {c n xs} (hc : c.Keeps) : M.Keeps (Conv.putAll c n xs) := by
  induction xs generalizing n with
  | nil => exact .pure
  | cons _ _ ih => exact .bind (Path.put_keeps hc.dst) fun _ => ih

theorem Conv.putBlocks_keeps {c n xs} (hc : c.Keeps) : M.Keeps (Conv.putBlocks c n xs) := by
  induction xs generalizing n with
  | nil => exact .pure
  | cons _ _ ih =>
    exact .bind (Conv.putAll_keeps hc) fun _ => by
        extract_lets jp
        have hjp : ∀ r, M.Keeps (jp r) := fun _ => .bind ih fun _ => .pure
        split
        · exact .bind (Path.putScale_keeps hc.dst) fun _ => hjp ()
        · exact hjp ()

theorem Conv.endRow_keeps {c r q} (hc : c.Keeps) : M.Keeps (Conv.endRow c r q) :=
  .ite .pure (.iteBind (Path.readAll_keeps hc.dst) .pure fun _ => .bind (Path.readAll_keeps hc.dst) fun _ => .pure)

theorem Conv.unit_keeps {c r i} (hc : c.Keeps) : M.Keeps (Conv.unit c r i) :=
  .bind (readElems_keeps hc.src) fun _ =>
    .bind (Conv.putBlocks_keeps hc) fun _ => .ite (.bind (Conv.endRow_keeps hc) fun _ => .pure) .pure

theorem Conv.trailer_keeps {c r} (hc : c.Keeps) : M.Keeps (Conv.trailer c r) := .ite (hc.dst.write _ _ _) .pure

theorem State.convOf_keeps {s x had} : (State.convOf s x had).Keeps := ⟨State.epPath_keeps, State.epDest_keeps⟩

theorem cvtUnit_keeps {x had i} : M.Keeps (cvtUnit x had i) :=
  .get fun _ _ =>
    .bind (Conv.unit_keeps State.convOf_keeps) fun _ => .bind sticky_keeps fun _ => .modify fun _ h => h.setXr

theorem cvtFinish_keeps {x had} : M.Keeps (cvtFinish x had) :=
  .get fun _ _ => .bind (Conv.trailer_keeps State.convOf_keeps) fun _ => .modify fun _ h => h.setXr

theorem cvtPlan_keeps {s x had} : (cvtPlan s x had).Keeps := ⟨fun _ => cvtUnit_keeps, cvtFinish_keeps⟩

theorem runVcvt_memOk (h : s.memOk) {i had} : Answer.memOk (runVcvt i had s) := by
  unfold runVcvt
  split
  · exact runEp_memOk h (fun _ h => (Plan.go_keeps cvtPlan_keeps : M.Keeps _) _ h)
  · exact h

theorem execVcvt_memOk (h : s.memOk) {d a f r} : Answer.memOk (execVcvt d a f r s) := runVcvt_memOk h

theorem execVcvtH16_memOk (h : s.memOk) {d a f r} : Answer.memOk (execVcvtH16 d a f r s) := runVcvt_memOk h

theorem execVcvtH32_memOk (h : s.memOk) {d a f r} : Answer.memOk (execVcvtH32 d a f r s) := runVcvt_memOk h

theorem execCvt_memOk (h : s.memOk) {d a r t f} : Answer.memOk (execCvt d a r t f s) :=
  runEp_memOk h (.bind readEp_keeps fun _ =>
        .get fun _ _ => .bind sticky_keeps fun _ => .bind (.modify fun _ h => h.ewrite) fun _ => .pure)

theorem execXpush_memOk (h : s.memOk) {a w} : Answer.memOk (execXpush a w s) :=
  runEp_memOk h (.bind readEp_keeps fun _ => .get fun _ hs => .bind blockIf_keeps fun _ => .bind
    (.set hs.modQueues) fun _ => .pure)

theorem execXpop_memOk (h : s.memOk) {d w} : Answer.memOk (execXpop d w s) :=
  runAp_memOk h (.get fun _ hs => by
        split
        · exact block_keeps
        · exact .bind (.set hs.modQueues) fun _ => .bind wrA_keeps fun _ => .pure)

/-! ### Deciding words -/

theorem vdecUnit_keeps {x f j} : M.Keeps (vdecUnit x f j) :=
  .get fun _ _ => .bind srcPair_keeps fun _ => Path.put_keeps State.epDest_keeps

theorem putPairs_keeps {p marked n xs} (hp : p.Keeps) : M.Keeps (putPairs p marked n xs) := by
  induction xs generalizing n with
  | nil => exact .pure
  | cons _ _ ih => exact .bind (Path.put_keeps hp) fun _ => .bind (Path.put_keeps hp) fun _ => ih

theorem bestUnit_keeps {x up k E q c} : M.Keeps (bestUnit x up k E q c) :=
  .get fun _ _ =>
  .bind (Path.elem_keeps State.epPath_keeps) fun _ =>
  .ite (.get fun _ _ => .bind (putPairs_keeps State.epDest_keeps) fun _ => .modify fun _ h => h.setXr)
    (.modify fun _ h => h.setXr)

theorem vdecPlan_keeps {s x f} : (vdecPlan s x f).Keeps := by
  unfold vdecPlan
  split
  · exact rowPlan_keeps (fun _ _ _ => bestUnit_keeps)
  · exact rowPlan_keeps (fun _ _ _ => bestUnit_keeps)
  · exact rowPlan_keeps (fun _ _ _ => bestUnit_keeps)
  · exact elemPlan_keeps (fun _ => vdecUnit_keeps)

theorem runVdec_memOk (h : s.memOk) {i f} : Answer.memOk (runVdec i f s) := by
  unfold runVdec
  split
  · exact runEp_memOk h (fun _ h => (Plan.go_keeps vdecPlan_keeps : M.Keeps _) _ h)
  · exact h

theorem execVsign_memOk (h : s.memOk) {d a f r} : Answer.memOk (execVsign d a f r s) := runVdec_memOk h

theorem execVcmpgt_memOk (h : s.memOk) {d a b f r} : Answer.memOk (execVcmpgt d a b f r s) := runVdec_memOk h

theorem execVcmpge_memOk (h : s.memOk) {d a b f r} : Answer.memOk (execVcmpge d a b f r s) := runVdec_memOk h

theorem execVcmpeq_memOk (h : s.memOk) {d a b f r} : Answer.memOk (execVcmpeq d a b f r s) := runVdec_memOk h

theorem execVthr_memOk (h : s.memOk) {d a b f r} : Answer.memOk (execVthr d a b f r s) := runVdec_memOk h

theorem execVargmax_memOk (h : s.memOk) {d a f r} : Answer.memOk (execVargmax d a f r s) := runVdec_memOk h

theorem execVargmin_memOk (h : s.memOk) {d a f r} : Answer.memOk (execVargmin d a f r s) := runVdec_memOk h

theorem execVtopk_memOk (h : s.memOk) {d a f r} : Answer.memOk (execVtopk d a f r s) := runVdec_memOk h

end Sys2Proof.Machine
end
section
/-!
SUPPORT. The memories' form is kept by chains, repetition and the generator.
-/
set_option Elab.async false

namespace Sys2Proof.Machine
open Sys2Proof
variable {s : State}

/-! ### Chains -/

theorem State.memOk.setChain (h : s.memOk) {c} : (s.setChain c).memOk := h.modEp

theorem readColumn_keeps {i xs} : M.Keeps (readColumn i xs) := by
  induction xs with
  | nil => exact .pure
  | cons _ _ ih =>
    exact .get fun _ _ => .iteBind broadcast_keeps (Path.elem_keeps State.epPath_keeps) fun _ => .bind ih fun _ => .pure

theorem readRow_memOk (h : s.memOk) {ks base n x} : M.Left (readRow ks base n x s) := by
  induction n generalizing s x with
  | zero => exact h.setChain
  | succ _ ih =>
    have hl : M.Left (readColumn (base + x.ahead.length) ks s) := readColumn_keeps _ h
    unfold readRow
    generalize readColumn (base + x.ahead.length) ks s = r at hl ⊢
    rcases r with (⟨k, _⟩ | _ | _) | _
    · have hk : (k.getD s).memOk := KeptSome.getD hl h
      exact State.memOk.ite hk.setChain.modStream hk.setChain
    · exact match_ite (P := M.Left) trivial h.setChain
    · exact h.podAsk.setChain
    · exact ih (State.memOk.podDone hl)

theorem writeLane_keeps {l i marked xs} : M.Keeps (writeLane l i marked xs) := by
  induction xs with
  | nil => exact .pure
  | cons _ _ ih => exact .ite (.get fun _ _ => .bind (Path.put_keeps State.epDest_keeps) fun _ => .bind ih fun _ => .pure) ih

theorem writeLanes_keeps {gs ftz base n xs} : M.Keeps (writeLanes gs ftz base n xs) := by
  induction xs generalizing n with
  | nil => exact .pure
  | cons _ _ ih => exact .bind writeLane_keeps fun _ => .bind elemFlags_keeps fun _ => ih

theorem chainWrite_keeps {ch gs geo c} : M.Keeps (chainWrite ch gs geo c) := by
  unfold chainWrite
  refine .get fun _ _ => ?_
  extract_lets +onlyGivenNames i0 lastPass
  refine .bind writeLanes_keeps fun _ => ?_
  extract_lets +onlyGivenNames mark red cand named jp
  have hjp : ∀ r, M.Keeps (jp r) := fun _ =>
    .ite (.bind (.modify fun _ h => h.setChain) fun _ => .pure)
      (.ite (.bind (.modify fun _ h => h.setChain) fun _ => .pure)
        (.bind (.modify fun _ h => State.memOk.modEp (h.setChain.foldl fun _ _ h => h.modStream)) fun _ => .pure))
  clear_value jp cand red
  split
  · exact .ite (.bind sticky_keeps fun _ => .bind (putPairs_keeps State.epDest_keeps) fun _ => hjp _) (hjp ())
  · exact hjp ()

theorem chainTurn_keeps {c} : M.Keeps (chainTurn c) :=
  .get fun _ hs => by
    split
    · exact .pure
    · exact .ite (.bind (.set hs.setChain.modSys) fun _ => .pure)
        (.ite (.bind (.set hs.setChain) fun _ => .pure)
            (.ite (fun _ hs1 => readRow_memOk hs1) (.ite chainWrite_keeps (.bind (.set hs.modAp) fun _ => .pure))))

theorem execChainB_memOk (h : s.memOk) : Answer.memOk (execChainB s) :=
  runEp_memOk h (.get fun _ hs => by
        split
        · exact .pure
        · exact .when (.set hs.setChain) fun _ => .pure)

theorem execChainE_memOk (h : s.memOk) : Answer.memOk (execChainE s) :=
  runEp_memOk h (.get fun _ _ => by
        split
        · exact .pure
        · exact chainTurn_keeps)

/-! ### Repetition -/

theorem State.memOk.repRefused (h : s.memOk) {i} : (s.repRefused i).memOk := by
  unfold State.repRefused
  dsimp only
  split
  · exact h.takeTrap
  · exact match_ok_chain (P := State.memOk) h.takeTrap h.takeTrap

theorem State.memOk.bindAp (h : s.memOk) {b} : (s.bindAp b).memOk := h.modAp

theorem State.memOk.skipRepAp (h : s.memOk) {i} : (s.skipRepAp i).memOk := .ite h.blockAp h.pushPred.apGo

theorem State.memOk.repAp (h : s.memOk) {i c} : (s.repAp i c).memOk :=
  .ite h.takeTrap <| by
    split
    · exact h.repRefused
    · exact .ite h.bindAp (.ite h.skipRepAp (.ite h.takeTrap h.modRegs.bindAp))

theorem State.memOk.bindEp (h : s.memOk) {c} : (s.bindEp c).memOk := h.modEp

theorem State.memOk.skipRepEp (h : s.memOk) : s.skipRepEp.memOk := h.epPass.modEp

theorem State.memOk.beginEp (h : s.memOk) {c} : (s.beginEp c).memOk := .ite h.skipRepEp h.modRegs.bindEp

theorem State.memOk.repEp (h : s.memOk) {n} : (s.repEp n).memOk := .ite h (.ite h.bindEp h.beginEp)

theorem State.memOk.repRegEp (h : s.memOk) {c} : (s.repRegEp c).memOk :=
  .ite h
  (.ite h.bindEp <| by
      split
      next e =>
        have ht := readEp_keeps.ok h e
        exact .ite ht.modEp.pendTrap ht.modEp.beginEp
      next e =>
        exact h.finishEp (readEp_keeps.error h e))

theorem State.memOk.repEngine (h : s.memOk) {n i c} : (s.repEngine n i c).memOk :=
  .ite h
  (.ite h.stopEngine <| by
      split
      · exact h.stopEngine
      · exact .ite h.setEngine h.setEngine)

theorem execRepN_memOk (h : s.memOk) {e0 n} : Answer.memOk (execRepN e0 n s) := by
  unfold execRepN
  split
  · exact h.repEngine
  · refine match_ite (P := Answer.memOk) ?_ ?_
    · exact h.takeTrap
    · refine match_ite (P := Answer.memOk) ?_ ?_
      · exact h.repEp
      · exact h.repAp

theorem execRepReg_memOk (h : s.memOk) {e0 c} : Answer.memOk (execRepReg e0 c s) := by
  unfold execRepReg
  split
  · exact h.repEngine
  · refine match_ite (P := Answer.memOk) ?_ ?_
    · exact h.takeTrap
    · refine match_ite (P := Answer.memOk) ?_ ?_
      · exact h.repRegEp
      · exact h.repAp

theorem execAccessPrefix_memOk (h : s.memOk) {c a l k v p z} : Answer.memOk (execAccessPrefix c a l k v p z s) := by
  unfold execAccessPrefix
  dsimp only
  refine match_ite (P := Answer.memOk) ?_ ?_
  · exact h.bindAp
  · exact h.takeTrap

/-! ### The generator's walks -/

theorem elemTrap_keeps {α : Type} {code arg k i write} : M.Keeps (elemTrap code arg k i write : M α) :=
  .get fun _ hs => stop_keeps hs

theorem checkPlace_keeps {sp k i write a n} : M.Keeps (checkPlace sp k i write a n) :=
  .get fun _ _ =>
  .ite elemTrap_keeps <| by
    split
    · exact elemTrap_keeps
    · exact .pure

theorem checkLeaf_keeps {seq host k i write a} : M.Keeps (checkLeaf seq host k i write a) :=
  .get fun _ hs => by
    extract_lets _
    split
    · exact stop_keeps hs.missed
    next e =>
      have ht := KeptPair.ok hs.translate e
      split
      · exact .set ht.modEp
      · exact .set ht

theorem checkPieces_keeps {seq v k i write xs} : M.Keeps (checkPieces seq v k i write xs) := by
  induction xs with
  | nil => exact .pure
  | cons _ _ ih =>
    unfold checkPieces
    split
    · exact .bind checkLeaf_keeps fun _ => ih
    · exact .bind checkLeaf_keeps fun _ => ih
    · exact .bind checkPlace_keeps fun _ => ih

theorem genRead_keeps {seq k v xs} : M.Keeps (genRead seq k v xs) := by
  induction xs with
  | nil => exact .pure
  | cons _ _ ih =>
    exact .get fun _ _ => by
        extract_lets jp1
        have hjp1 : ∀ r, M.Keeps (jp1 r) := fun _ => .bind ih fun _ => .pure
        split
        · exact .bind .pure fun _ => hjp1 _
        · split
          · exact .bind translate_keeps fun _ => .bind readAt_keeps fun _ => hjp1 _
          · exact .bind translate_keeps fun _ => .bind readAt_keeps fun _ => hjp1 _
          · exact .bind readAt_keeps fun _ => hjp1 _

theorem keepSnaps_keeps {xs} : M.Keeps (keepSnaps xs) := .modify fun _ h => h.modEp

theorem checkSource_keeps {seq k i} : M.Keeps (checkSource seq k i) := by
  unfold checkSource
  refine .get fun _ _ => ?_
  extract_lets +onlyGivenNames v
  refine .ite .pure ?_
  extract_lets +onlyGivenNames q c ms
  refine .bind checkPieces_keeps fun _ => .bind genRead_keeps fun _ => ?_
  extract_lets +onlyGivenNames jp
  have hjp : ∀ r, M.Keeps (jp r) := fun _ => .bind checkPieces_keeps fun _ => by
    split
    · exact .pure
    · exact checkPieces_keeps
  refine match_ite ?_ ?_
  · split
    · exact .bind elemTrap_keeps fun _ => .bind keepSnaps_keeps fun _ => hjp ()
    · exact .bind keepSnaps_keeps fun _ => hjp ()
  · exact hjp ()

theorem checkDest_keeps {seq k i reads} : M.Keeps (checkDest seq k i reads) :=
  .get fun _ _ => .when checkPieces_keeps fun _ => .bind checkPieces_keeps fun _ => checkPieces_keeps

theorem checkDests_keeps {seq k reads n n1} : M.Keeps (checkDests seq k reads n n1) := by
  induction n1 generalizing n with
  | zero => exact .pure
  | succ _ ih => exact .bind checkDest_keeps fun _ => ih

theorem checkTrailer_keeps {seq k} : M.Keeps (checkTrailer seq k) :=
  .get fun _ _ =>
  .ite .pure
  (.bind checkPieces_keeps fun _ =>
      .bind genRead_keeps fun _ => .bind genRead_keeps fun _ => .when elemTrap_keeps fun _ => keepSnaps_keeps)

theorem stepSource_keeps {seq k i} : M.Keeps (stepSource seq k i) := by
  unfold stepSource
  split
  · exact .pure
  · exact .get fun _ _ => .ite (.ite checkSource_keeps .pure) checkSource_keeps

theorem Vec.steps_keeps {x s seq} : (Vec.steps x s seq).Keeps := by
  unfold Vec.steps
  extract_lets +onlyGivenNames d a k E sources
  have hsrc : ∀ i, M.Keeps (sources i) := fun _ => .bind stepSource_keeps fun _ => .ite stepSource_keeps .pure
  clear_value sources
  cases x.kind with
  | vop => exact ⟨fun _ => .bind (hsrc _) fun _ => checkDest_keeps⟩
  | vred => exact ⟨fun _ => .bind checkSource_keeps fun _ => .when checkSource_keeps fun _ => .ite checkDest_keeps .pure⟩
  | vcvt => exact ⟨fun _ => .bind checkSource_keeps fun _ => .bind checkDest_keeps fun _ => .ite checkPieces_keeps .pure⟩
  | vdec =>
    refine match_ite (P := Walk.Keeps) ?_ ?_
    · exact ⟨fun _ => .bind (hsrc _) fun _ => checkDest_keeps⟩
    · exact ⟨fun _ => .bind checkSource_keeps fun _ => .ite checkDests_keeps .pure⟩
  | ldl => exact ⟨fun _ => checkDest_keeps⟩
  | stl => exact ⟨fun _ => checkSource_keeps⟩

theorem Walk.run_memOk (h : s.memOk) {w n n1} (hw : w.Keeps) : WalkEnd.memOk (Walk.run w n n1 s) := by
  induction n generalizing s n1 with
  | zero => exact h
  | succ _ ih =>
    have hl := hw.step n1 s h
    unfold Walk.run
    generalize w.step n1 s = r at hl ⊢
    rcases r with (_ | _ | _) | _
    · exact KeptSome.getD hl h
    · exact h
    · exact h.podAsk
    · exact ih hl

theorem checkTrailers_keeps {seq xs} : M.Keeps (checkTrailers seq xs) := by
  induction xs with
  | nil => exact .pure
  | cons _ _ ih => exact .bind checkTrailer_keeps fun _ => ih

theorem State.memOk.passTrap (h : s.memOk) {code arg} : (s.passTrap code arg).memOk := h.takeTrap

theorem State.memOk.descTrap (h : s.memOk) {k} : (s.descTrap k).memOk := h.takeTrap

theorem State.memOk.passed (h : s.memOk) {i size} : (s.passed i size).memOk :=
  State.memOk.apGo (by
        split
        · exact State.memOk.modEp (by
                  split
                  · exact h.modEp
                  · exact h)
        · split
          · exact h.modEp
          · exact h)

theorem State.memOk.markFault (h : s.memOk) {i t} : (s.markFault i t).memOk := by
  unfold State.markFault
  cases vecOf i with
  | none => exact h
  | some x =>
    dsimp only
    cases x.kind with
    | vred | vdec => exact .ite h.modStream h
    | _ => exact h

theorem State.afterWalk_memOk {s : State} {i size w} (hw : WalkEnd.memOk w) : (s.afterWalk i size w).memOk := by
  cases w with
  | done t => exact State.memOk.passed hw
  | wait t => exact hw
  | fault n t u => exact .ite (State.memOk.takeTrap (State.memOk.markFault hw)) (State.memOk.modAp hw)

theorem State.memOk.walkVec (h : s.memOk) {i x size} : (s.walkVec i x size).memOk := by
  unfold State.walkVec
  refine .ite h ?_
  extract_lets +onlyGivenNames own w begun main start
  have hl : ∀ c : Bool, M.Left (if c then .ok ((), s) else checkTrailers s.ap.seq own s) := fun c =>
    .ite (r := .ok ((), s)) h (checkTrailers_keeps _ h)
  exact .ite h (match_left_ok_last (P := State.memOk) (hl _)
    (fun _ _ hk => State.afterWalk_memOk (w := .fault 0 _ _) (hk.getD h)) (fun _ => h.podAsk) (fun _ => h)
    fun _ _ ht => State.afterWalk_memOk (Walk.run_memOk ht Vec.steps_keeps))

theorem State.memOk.passVec (h : s.memOk) {i x size arg} : (s.passVec i x size arg).memOk :=
  .ite h.passTrap <| by
    split
    · exact h.descTrap
    · exact h.walkVec

theorem State.memOk.passWord (h : s.memOk) {i size arg} : (s.passWord i size arg).memOk := by
  refine .ite h.passTrap (match_ldp (P := State.memOk) (fun o => .ite h.passTrap (.ite h.passTrap ?_)) ?_)
  · split
    · exact h.missed.takeTrap
    next e =>
      have ht := KeptPair.ok h.translate e
      exact ht.passed
  · split
    · exact h.passVec
    · exact h.passed

theorem State.memOk.passRep (h : s.memOk) {i count} : (s.passRep i count).memOk := by
  unfold State.passRep
  split
  · exact h.repRefused
  · dsimp only
    split
    · exact h.passWord
    · exact .ite h.passWord (.ite h.apGo (.ite h.passTrap h.passWord))

theorem atLink_keeps {g m} (hm : m.Keeps) : M.Keeps (atLink g m) := by
  intro s hs
  have hl := hm s hs
  unfold atLink
  generalize m s = r at hl ⊢
  rcases r with (_ | _ | _) | _
  all_goals exact hl

theorem checkSources_keeps {s seq g i} : M.Keeps (checkSources s seq g i) := by
  unfold checkSources
  extract_lets src
  have hsrc : ∀ r, M.Keeps (src r) := by
    intro r
    cases r with
    | ext => exact checkSource_keeps
    | _ => exact .pure
  exact .bind (hsrc _) fun _ => .bind (hsrc _) fun _ => hsrc _

theorem checkLinks_keeps {f xs} (hf : ∀ y0, M.Keeps (f y0)) : M.Keeps (checkLinks f xs) := by
  induction xs with
  | nil => exact .pure
  | cons _ _ ih => exact .bind (atLink_keeps (hf _)) fun _ => ih

theorem checkEach_keeps {f n n1} (hf : ∀ y0, M.Keeps (f y0)) : M.Keeps (checkEach f n n1) := by
  induction n1 generalizing n with
  | zero => exact .pure
  | succ _ ih => exact .bind (hf _) fun _ => ih

theorem checkPass_keeps {s seq geo q p gs} : M.Keeps (checkPass s seq geo q p gs) :=
  .bind (checkEach_keeps (fun _ => checkLinks_keeps (fun _ => checkSources_keeps))) fun _ =>
  .bind (checkEach_keeps (fun _ => checkLinks_keeps (fun _ => checkDests_keeps))) fun _ =>
    .ite (checkLinks_keeps (fun _ => checkDests_keeps)) .pure

theorem chainTrailers_keeps {seq gs xs} : M.Keeps (chainTrailers seq gs xs) := by
  induction xs with
  | nil => exact .pure
  | cons k ks ih =>
    intro s hs
    have hone : M.Keeps (do checkEach (checkSource seq k) 0 (s.apDesc k).count; checkTrailer seq k) :=
      .bind (checkEach_keeps fun _ => checkSource_keeps) fun _ => checkTrailer_keeps
    exact match_left (P := M.Left) (hone _ hs) (fun _ _ ht => ih _ ht) (fun _ _ hk => hk) fun _ he => he

theorem State.memOk.passChain (h : s.memOk) {pc} : (s.passChain pc).memOk := by
  unfold State.passChain
  refine .ite h ?_
  split
  · exact h.passTrap
  · extract_lets +onlyGivenNames gs geo per seq own start w fin
    have hw : w.Keeps := ⟨fun _ => .ite checkPass_keeps .pure⟩
    have hfin : ∀ e : WalkEnd, e.memOk → (fin e).memOk := by
      rintro (t | ⟨n, t, u⟩ | t) he
      · exact State.memOk.modAp (State.memOk.apGo (State.memOk.modEp he))
      · exact State.afterWalk_memOk he
      · exact State.afterWalk_memOk (w := .wait t) he
    have hl : ∀ c : Bool, M.Left (if c then .ok ((), s) else chainTrailers seq gs own s) := fun c =>
      .ite (r := .ok ((), s)) h (chainTrailers_keeps _ h)
    exact .ite h (match_left_ok_last (P := State.memOk) (hl _) (fun _ _ hk => hfin (.fault 0 _ _) (hk.getD h))
      (fun _ => h.podAsk) (fun _ => h) fun _ _ ht => hfin _ (Walk.run_memOk ht hw))

theorem State.memOk.passInChain (h : s.memOk) {pc i} : KeptSome (s.passInChain pc i) := by
  refine match_hint_chainE (P := KeptSome) (fun e => ?_) (KeptSome.of (.ite h.passTrap h.passChain)) ?_
  · split
    · exact KeptSome.of h.passed
    · trivial
  · split
    · refine KeptSome.of (.ite h.passTrap ?_)
      split
      · exact h.descTrap
      · exact h.apGo
    · exact KeptSome.of h.passTrap

theorem State.memOk.apPass (h : s.memOk) {i} : (s.apPass i).memOk :=
  match_chain_rep (P := State.memOk) h.apGo.modAp h.passTrap (fun _ => h.passRep) h.passRep h.passWord

end Sys2Proof.Machine
end
section
/-!
SUPPORT. The memories' form is kept by the engines, the matrix unit, the near-bank unit and the conversion unit.
-/
set_option Elab.async false

namespace Sys2Proof.Machine
open Sys2Proof
variable {s : State}

/-! ### Engines -/

theorem State.memOk.setArray (h : s.memOk) {a} : (s.setArray a).memOk := h.modShare

theorem State.memOk.requestArray (h : s.memOk) : s.requestArray.memOk := .ite h h.setArray

theorem execLeaseGrant_memOk (h : s.memOk) : Answer.memOk (execLeaseGrant s) := by
  unfold execLeaseGrant
  dsimp only
  cases s.array.held with
  | true => exact h
  | false =>
    cases s.array.first with
    | none => exact h
    | some r => exact h.setArray.setCore

theorem execLeaseIdleExpiry_memOk (h : s.memOk) : Answer.memOk (execLeaseIdleExpiry s) := by
  unfold execLeaseIdleExpiry
  dsimp only
  refine match_ite (P := Answer.memOk) ?_ ?_
  · exact h.setArray
  · exact h

theorem appendRing_keeps {n cls ws} : M.Keeps (appendRing n cls ws) := by
  unfold appendRing
  refine .get fun s hs => ?_
  extract_lets +onlyGivenNames e place
  refine .ite block_keeps ?_
  extract_lets +onlyGivenNames t put jp
  have ht : t.memOk := hs.foldl fun _ _ h => h.drainFor
  have hjp : ∀ r, M.Keeps (jp r) := fun _ =>
    .bind (.set ht) fun _ => .ite stayBlocked_keeps
      (.bind (.set (State.memOk.modEngine (State.memOk.foldl ht fun _ _ h => h.performScratch))) fun _ => .pure)
  split
  · exact .bind block_keeps fun _ => hjp ()
  · exact hjp ()

theorem checkBlock_keeps {off align largest} : M.Keeps (checkBlock off align largest) := .bind trapIf_keeps fun _ => trapIf_keeps

theorem issueCmd_keeps {n cmd b} : M.Keeps (issueCmd n cmd b) := .bind rdA_keeps fun _ => .ite appendRing_keeps appendRing_keeps

theorem execRapp_memOk (h : s.memOk) {n a w} : Answer.memOk (execRapp n a w s) :=
  runAp_memOk h (.bind rdA_keeps fun _ => appendRing_keeps)

theorem execIllegalCommand_memOk (h : s.memOk) {n} : Answer.memOk (execIllegalCommand n s) := by
  unfold execIllegalCommand
  dsimp only
  refine match_ite (P := Answer.memOk) ?_ ?_
  · exact h.stopEngine
  · exact h

theorem State.memOk.enterWindow (h : s.memOk) {n} : (s.enterWindow n).memOk := by
  unfold State.enterWindow
  dsimp only
  split
  · exact h
  · exact .ite h h.setEngine

theorem State.memOk.acquired (h : s.memOk) {n} : (s.acquired n).memOk := by
  unfold State.acquired
  dsimp only
  split
  · exact .ite h.enterWindow.modEngine
        (.ite h.enterWindow.modEngine (.ite h.enterWindow.modEngine.setArray.requestArray h.enterWindow.modEngine.requestArray))
  · exact h.enterWindow.modEngine

theorem execEngineSyncWaitDone_memOk (h : s.memOk) {n} : Answer.memOk (execEngineSyncWaitDone n s) := by
  unfold execEngineSyncWaitDone
  dsimp only
  refine match_ite (P := Answer.memOk) h ?_
  cases (s.engine n.toNat).phase with
  | start => exact match_ite (P := Answer.memOk) h.acquired (match_ite (P := Answer.memOk) h h.setSema.acquired)
  | waited => exact h.acquired
  | _ => exact h

theorem State.memOk.engineRelease (h : s.memOk) {n scope} : (s.engineRelease n scope).memOk :=
  .ite h.modPack.modEngine h.modPack

theorem State.memOk.releaseAll (h : s.memOk) : s.releaseAll.memOk := by
  unfold State.releaseAll
  exact h.flushEngines.releaseWith.modCore

theorem State.memOk.afterCommand (h : s.memOk) {n} : (s.afterCommand n).memOk := by
  unfold State.afterCommand
  dsimp only
  split
  · exact .ite (.ite (State.memOk.modEngine (State.memOk.setArray (by
                        split
                        · exact h.modEngine
                        · exact h)))
          (State.memOk.setArray (by
                  split
                  · exact h.modEngine
                  · exact h))) <| by
        split
        · exact h.modEngine
        · exact h
  · split
    · exact h.modEngine
    · exact h

theorem State.memOk.raiseAndPass (h : s.memOk) {n} : (s.raiseAndPass n).memOk :=
  .ite (.ite h.afterCommand.modEngine.podDone.engineEnded h.afterCommand.modEngine.podDone)
  (.ite h.stopEngine.modEngine
      (.ite h.setSema.afterCommand.modEngine.podDone.engineEnded h.setSema.afterCommand.modEngine.podDone))

theorem execEngineCommandComplete_memOk (h : s.memOk) {n} : Answer.memOk (execEngineCommandComplete n s) := by
  unfold execEngineCommandComplete
  dsimp only
  refine match_ite (P := Answer.memOk) h ?_
  cases (s.engine n.toNat).phase with
  | performed =>
    refine match_ite (P := Answer.memOk) h (State.memOk.raiseAndPass (State.memOk.modEngine ?_))
    split
    · exact h.flushEngine.engineRelease
    · exact h
  | released => exact h.raiseAndPass
  | _ => exact h

theorem engStop_keeps {α : Type} {t} : M.Keeps (engStop t : M α) := .get fun _ hs => stop_keeps hs

theorem engTrap_keeps {α : Type} {n code low} : M.Keeps (engTrap n code low : M α) := .get fun _ _ => engStop_keeps

theorem engTrapAt_keeps {α : Type} {code arg write} : M.Keeps (engTrapAt code arg write : M α) := engStop_keeps

theorem engFail_keeps {α : Type} {code arg} : M.Keeps (engFail code arg : M α) := engStop_keeps

theorem State.memOk.standing (h : s.memOk) {keep} (hk : KeptSome keep) : (s.standing keep).memOk := by
  cases keep with
  | none => exact h
  | some u => exact State.memOk.modStrand hk

theorem State.memOk.stopAt (h : s.memOk) {n keep t} (hkeep : KeptSome keep) : (s.stopAt n keep t).memOk :=
  State.memOk.stopEngine (h.standing hkeep)

theorem engTranslate_keeps {n sp a write} : M.Keeps (engTranslate n sp a write) :=
  .get fun _ hs => by
    extract_lets _ _ _ _ _
    split
    next e =>
      have ht := KeptPair.ok hs.translateBy e
      exact .bind (.set <| by
              split
              · exact ht.modEngine
              · exact ht) fun _ => .pure
    · exact stop_keeps (.ite hs hs.missed)

theorem State.memOk.engHome (h : s.memOk) {n sp view uc a k} : (s.engHome n sp view uc a k).2.memOk := by
  unfold State.engHome
  dsimp only
  split
  · exact State.memOk.ite h.flushEngine h
  · split
    · exact State.memOk.modEngine (State.memOk.touchL2 (.ite h.flushEngine h))
    · exact State.memOk.touchL2 (.ite h.flushEngine h)

theorem engKept_keeps {n m} (hm : m.Keeps) : M.Keeps (engKept n m) :=
  .ite hm
  (.get fun _ _ => by
      split
      · exact .bind (.modify fun _ h => h.modEngine) fun _ => .pure
      · exact .bind hm fun _ => .bind (.modify fun _ h => h.modEngine) fun _ => .pure)

/-- What is done with bytes that a window or another node gives. -/
theorem match_data_keeps {g : Got} {f : List Byte → Bool → State → M (List Byte × Bool)} {k : PodReq → M (List Byte × Bool)}
    (hg : g.memOk) (hf : ∀ bs x (t : State), t.memOk → M.Keeps (f bs x t)) (hk : ∀ r, M.Keeps (k r)) :
    M.Keeps (match g with | .data bs x t => f bs x t | .ask r => k r) := by
  cases g with
  | data bs x t => exact hf bs x t hg
  | ask r => exact hk r

theorem engFetch_keeps {n sp a k} : M.Keeps (engFetch n sp a k) := by
  unfold engFetch
  extract_lets home
  have hhome : ∀ view uc a, M.Keeps (home view uc a) := fun _ _ _ => .get fun _ hs => .bind (.set hs.engHome) fun _ => .pure
  have hset : ∀ bs x (t : State), t.memOk → M.Keeps (do set t; return (bs, x) : M (List Byte × Bool)) :=
    fun _ _ _ ht => .bind (.set ht) fun _ => .pure
  have hask : ∀ r, M.Keeps (stop (.ask r) : M (List Byte × Bool)) := fun _ => stop_keeps trivial
  split
  · refine .bind engTranslate_keeps fun _ => .get fun _ hs => match_window_pod (P := M.Keeps) ?_ ?_ ?_
    · exact fun _ _ => match_data_keeps hs.windowRead hset hask
    · exact fun _ _ => match_data_keeps hs.podRead hset hask
    · exact hhome _ _ _
  · exact .bind engTranslate_keeps fun _ => .get fun _ _ => hhome _ _ _
  · exact .get fun _ _ => hhome _ _ _

theorem engReadPart_keeps {n sp a k} : M.Keeps (engReadPart n sp a k) := engKept_keeps engFetch_keeps

theorem State.memOk.engMark (h : s.memOk) {n sp a k poison} : (s.engMark n sp a k poison).2.memOk := by
  unfold State.engMark
  dsimp only
  split
  · exact h.modEngine
  · split
    all_goals exact h.modEngine

theorem State.memOk.engVirtual (h : s.memOk) {n sp p bs poison} : (s.engVirtual n sp p bs poison).memOk :=
  State.memOk.modEngine (by
        dsimp only
        split
        · exact .ite h h.podWrite
        · exact .ite h.engMark.modEngine h.engMark.performEngine)

theorem engWritePart_keeps {n sp a bs poison} : M.Keeps (engWritePart n sp a bs poison) := by
  unfold engWritePart
  split
  · exact .bind engTranslate_keeps fun _ => .modify fun _ h => h.engVirtual
  · exact .bind engTranslate_keeps fun _ => .modify fun _ h => h.engVirtual
  · exact .modify fun _ h => h.engMark.performEngine

theorem engReadParts_keeps {n sp xs} : M.Keeps (engReadParts n sp xs) := by
  induction xs with
  | nil => exact .pure
  | cons _ _ ih => exact .bind engReadPart_keeps fun _ => .bind ih fun _ => .pure

theorem engRead_keeps {n sp a k} : M.Keeps (engRead n sp a k) := engReadParts_keeps

theorem engWriteParts_keeps {n sp xs xs1} : M.Keeps (engWriteParts n sp xs xs1) := by
  induction xs generalizing xs1 with
  | nil => exact .pure
  | cons _ _ ih => exact .bind engWritePart_keeps fun _ => ih

theorem engWrite_keeps {n sp a bs} : M.Keeps (engWrite n sp a bs) := engWriteParts_keeps

theorem engPageLeaves_keeps {n sp xs} : M.Keeps (engPageLeaves n sp xs) := by
  induction xs with
  | nil => exact .pure
  | cons _ _ ih => exact .bind engTranslate_keeps fun _ => ih

theorem engPages_keeps {n sp as} : M.Keeps (engPages n sp as) := by
  intro s hs
  have hl := engPageLeaves_keeps (n := n) (sp := sp) (xs := as) s hs
  unfold engPages
  generalize engPageLeaves n sp as s = r at hl ⊢
  rcases r with (_ | _ | _) | _
  · exact hs
  all_goals exact hl

theorem engPrepare_keeps {n sp a len} : M.Keeps (engPrepare n sp a len) := .ite engPages_keeps .pure

theorem engHold_keeps {sp a n} : M.Keeps (engHold sp a n) :=
  .get fun _ _ => by
    split
    · exact block_keeps
    · exact .pure

theorem engBlock_keeps {off n} : M.Keeps (engBlock off n) :=
  .get fun _ _ => by
    split
    · exact engTrapAt_keeps
    · exact .pure

theorem engPath_keeps {n v ftz zero} (hzero : zero.Keeps) : (engPath n v ftz zero).Keeps where
  read _ _ := engReadPart_keeps
  write _ _ _ := engWriteParts_keeps
  pop _ := .pure
  poisoned _ := by
    unfold engPath
    dsimp only
    split
    · exact engFail_keeps
    · exact .bind hzero fun _ => .pure
    · exact .pure

theorem engHoldStream_keeps {v ps} : M.Keeps (engHoldStream v ps) :=
  .get fun _ _ => by
    split
    · exact block_keeps
    · exact .pure

theorem engOpen_keeps {v write ps} : M.Keeps (engOpen v write ps) :=
  .get fun _ _ => by
    split
    · exact engTrapAt_keeps
    · exact .pure

theorem pieceSnaps_keeps {n v xs} : M.Keeps (pieceSnaps n v xs) := by
  induction xs with
  | nil => exact .pure
  | cons _ _ ih => exact .bind engReadPart_keeps fun _ => .bind ih fun _ => .pure

theorem State.memOk.noteTrailer (h : s.memOk) {code arg} : (s.noteTrailer code arg).memOk := .ite h.modRegs h

theorem engTrailer_keeps {n v} : M.Keeps (engTrailer n v) :=
  .ite (.bind pieceSnaps_keeps fun _ => .bind pieceSnaps_keeps fun _ => .when engFail_keeps fun _ => .pure) .pure

theorem Path.ahead_keeps {p : Path} {xs} (hp : p.Keeps) : (p.ahead xs).Keeps where
  read a n := by
    unfold Path.ahead
    dsimp only
    split
    · exact .pure
    · exact hp.read a n
  write := hp.write
  pop := hp.pop
  poisoned := hp.poisoned

theorem engElems_keeps {p n n1} (hp : p.Keeps) : M.Keeps (engElems p n n1) := by
  induction n1 generalizing n with
  | zero => exact .pure
  | succ _ ih => exact .bind (Path.elem_keeps hp) fun _ => .bind ih fun _ => .pure

theorem engMasks_keeps {n place v xs} : M.Keeps (engMasks n place v xs) := by
  induction xs with
  | nil => exact .pure
  | cons _ _ ih =>
    refine .bind pieceSnaps_keeps fun _ => ?_
    split
    · exact .bind engTrapAt_keeps fun _ => ih
    · exact ih

/-! ### The matrix unit -/

theorem issueMat_keeps {mo tile hi align largest a b} : M.Keeps (issueMat mo tile hi align largest a b) :=
  .bind rdA_keeps fun _ => .bind checkBlock_keeps fun _ => issueCmd_keeps

theorem State.memOk.setTile (h : s.memOk) {n t} : (s.setTile n t).memOk := h.modStrand

theorem tileBusy_keeps {tile} : M.Keeps (tileBusy tile) :=
  .get fun _ _ => by
    extract_lets _
    split
    · exact trapP_keeps
    · exact .pure

theorem State.memOk.cutReplays (h : s.memOk) {tile} : (s.cutReplays tile).memOk := h.modEngine

theorem execTget_memOk (h : s.memOk) {d a} : Answer.memOk (execTget d a s) :=
  runAp_memOk h (.bind rdA_keeps fun _ =>
      .bind tileBusy_keeps fun _ =>
        .bind trapIf_keeps fun _ => .get fun _ _ => .bind trapIf_keeps fun _ => .bind wrA_keeps fun _ => .pure)

theorem execTput_memOk (h : s.memOk) {a b} : Answer.memOk (execTput a b s) :=
  runAp_memOk h (.bind rdA_keeps fun _ =>
      .bind rdA_keeps fun _ =>
        .bind tileBusy_keeps fun _ => .bind trapIf_keeps fun _ => .bind (.modify fun _ h => h.setTile.cutReplays) fun _ => .pure)

theorem execTkill_memOk (h : s.memOk) {t} : Answer.memOk (execTkill t s) :=
  runAp_memOk h (.bind tileBusy_keeps fun _ => .bind (.modify fun _ h => h.setTile.cutReplays) fun _ => .pure)

theorem countZero_keeps : M.Keeps countZero := .modify fun _ h => h.modSys

theorem matSource_keeps {place v ftz} : M.Keeps (matSource place v ftz) :=
  .bind engOpen_keeps fun _ =>
  .bind engTrailer_keeps fun _ =>
    .when engMasks_keeps fun _ => engElems_keeps (Path.ahead_keeps (engPath_keeps countZero_keeps))

theorem matMul_keeps {ftz tile hd init a b} : M.Keeps (matMul ftz tile hd init a b) :=
  .bind matSource_keeps fun _ =>
  .bind matSource_keeps fun _ =>
  .get fun _ _ =>
    .when engFail_keeps fun _ => .bind (.modify fun _ h => h.setTile) fun _ => .bind sticky_keeps fun _ => .pure

theorem drainElems_keeps {p poison n xs} (hp : p.Keeps) : M.Keeps (drainElems p poison n xs) := by
  induction xs generalizing n with
  | nil => exact .pure
  | cons _ _ ih => exact .bind (Path.put_keeps hp) fun _ => ih

theorem matDrain_keeps {ftz tile v} : M.Keeps (matDrain ftz tile v) := by
  unfold matDrain
  generalize Tile.all = elems
  exact .bind engOpen_keeps fun _ => .bind engHoldStream_keeps fun _ => .when engPages_keeps fun _ => .get fun _ _ =>
    .bind (drainElems_keeps (engPath_keeps .pure)) fun _ => .bind sticky_keeps fun _ => .pure

theorem matLoad_keeps {ftz tile v} : M.Keeps (matLoad ftz tile v) :=
  .bind matSource_keeps fun _ => .bind (.modify fun _ h => h.setTile) fun _ => .pure

theorem matBlock_keeps {off n} : M.Keeps (matBlock off n) :=
  .bind (engKept_keeps (.bind engBlock_keeps fun _ => .pure)) fun _ => .pure

theorem matStep_keeps {ftz i init} : M.Keeps (matStep ftz i init) := by
  unfold matStep
  split
  · exact .bind matBlock_keeps fun _ => .ite engTrap_keeps (.ite engTrap_keeps matMul_keeps)
  · exact .bind matBlock_keeps fun _ => .ite engTrap_keeps (.ite engTrap_keeps matMul_keeps)
  · exact .bind matBlock_keeps fun _ => .ite engTrap_keeps matDrain_keeps
  · exact .bind matBlock_keeps fun _ => .ite engTrap_keeps matLoad_keeps
  · exact .bind matBlock_keeps fun _ => by
        split
        · exact engTrap_keeps
        · exact matMul_keeps
  · exact .bind matBlock_keeps fun _ => by
        split
        · exact engTrap_keeps
        · exact matMul_keeps
  · exact .pure

theorem State.memOk.freeze (h : s.memOk) {t} : (s.freeze t).memOk := .ite h.takeTrap.modAp.modEp.modCore h.takeTrap

theorem State.memOk.uptoFault (h : s.memOk) {keep} (hkeep : KeptSome keep) : (s.uptoFault keep).memOk :=
  State.memOk.modEngine (h.standing hkeep)

theorem State.memOk.matStop (h : s.memOk) {keep t} (hkeep : KeptSome keep) : (s.matStop keep t).memOk :=
  .ite (State.memOk.engineEnded (h.uptoFault hkeep))
    (.ite (.ite h (State.memOk.freeze (h.uptoFault hkeep))) (h.stopAt hkeep))

theorem State.memOk.beginStep (h : s.memOk) : s.beginStep.memOk := h.modEngine

theorem State.memOk.setLast (h : s.memOk) {n} : (s.setLast n).memOk := h.modSys

theorem State.memOk.startReplay (h : s.memOk) {n} : (s.startReplay n).memOk := h.modCoreRegs.modEngine

theorem State.memOk.stood (h : s.memOk) {n} : (s.stood n).memOk := .ite h h.modCoreRegs.modEngine

theorem State.memOk.gaveUp (h : s.memOk) {n} : (s.gaveUp n).memOk := h.modCoreRegs.modEngine

theorem State.memOk.matPerformed (h : s.memOk) : s.matPerformed.memOk := h.stood.modEngine

theorem State.memOk.segClosed (h : s.memOk) : s.segClosed.memOk := .ite h.modEngine.setArray h.modEngine

theorem State.memOk.segPassed (h : s.memOk) : s.segPassed.memOk := h.setLast.modSys.segClosed

theorem State.memOk.latchFtz (h : s.memOk) {n} : (s.latchFtz n).memOk := h.modEngine

theorem replayRun_keeps {xs} : M.Keeps (replayRun xs) := by
  induction xs with
  | nil => exact .pure
  | cons _ _ ih =>
    unfold replayRun
    split
    · exact .bind matStep_keeps fun _ => .bind ih fun _ => .pure
    · exact .bind .pure fun _ => .bind ih fun _ => .pure

theorem State.memOk.restoreTiles (h : s.memOk) {ws} : (s.restoreTiles ws).memOk := by
  unfold State.restoreTiles
  split
  · exact h
  · exact h.foldl fun _ _ h => h.setTile

theorem State.memOk.replay (h : s.memOk) {ws isEnd lastOfLease} : Replayed.memOk (s.replay ws isEnd lastOfLease) := by
  have hl : M.Left ((replayRun ws).run (s.beginStep.restoreTiles ws)) := replayRun_keeps _ h.beginStep.restoreTiles
  unfold State.replay
  generalize (replayRun ws).run (s.beginStep.restoreTiles ws) = r at hl ⊢
  rcases r with (_ | _ | _) | ⟨d, t⟩
  · exact match_ite (P := Replayed.memOk) hl hl
  · exact hl
  · exact hl
  · have ht : t.memOk := hl
    dsimp only
    split
    · exact ht
    · split
      · exact ht.modEngine
      · exact ht.modEngine.segPassed
      · exact KeptSome.of ht

theorem State.memOk.poisonTiles (h : s.memOk) {ws code arg} : (s.poisonTiles ws code arg).memOk :=
  State.memOk.foldl (State.memOk.addRecord (h.foldl fun _ _ h => h.setTile)) fun _ _ h => h.addRecord

theorem State.memOk.failed (h : s.memOk) {code arg} : (s.failed code arg).memOk :=
  .ite h.setArray.noteTrailer.setLast (.ite h.setArray.noteTrailer.setLast h.setArray.noteTrailer)

theorem State.memOk.givenCheck (h : s.memOk) {ws mismatch isEnd lastOfLease} :
    (s.givenCheck ws mismatch isEnd lastOfLease).memOk := by
  unfold State.givenCheck
  split
  · exact h
  · dsimp only
    split
    · exact h.modEngine
    · exact .ite h.modEngine.segClosed (.ite h.modEngine.segPassed h.modEngine.setLast.segClosed)

theorem State.memOk.matFail (h : s.memOk) {ws code arg isEnd lastOfLease} : (s.matFail ws code arg isEnd lastOfLease).memOk :=
  .ite h.failed.startReplay
    (.ite h.failed.poisonTiles.gaveUp.matPerformed.segClosed h.failed.poisonTiles.gaveUp.matPerformed.givenCheck)

theorem runMatrix_memOk (h : s.memOk) {i} : Answer.memOk (runMatrix i s) := by
  unfold runMatrix
  refine match_ite (P := Answer.memOk) ?_ ?_
  · exact h
  · dsimp only
    refine match_ite (P := Answer.memOk) ?_ ?_
    · exact match_replayed (P := Answer.memOk) h.latchFtz.replay (fun _ ht => ht.matPerformed)
        (fun _ _ _ hu => State.memOk.matFail (h.latchFtz.uptoFault hu)) (fun _ _ hu => h.latchFtz.matStop hu)
        (fun _ => h.latchFtz.podAsk) fun _ => h.latchFtz
    · split
      next e =>
        refine match_ite (P := Answer.memOk) ?_ ?_
        · exact State.memOk.matFail (h.latchFtz.uptoFault (matStep_keeps.keep h.latchFtz.beginStep e))
        · exact h.latchFtz.matStop (matStep_keeps.keep h.latchFtz.beginStep e)
      · exact h.latchFtz
      · exact h.latchFtz.podAsk
      next e =>
        have ht := matStep_keeps.ok h.latchFtz.beginStep e
        split
        · exact ht.matPerformed
        · split
          · exact ht.modEngine.matPerformed
          · exact ht.modEngine.segPassed.matPerformed
          · exact State.memOk.matFail (h.latchFtz.uptoFault (KeptSome.of ht))

theorem execSegCmd_memOk (h : s.memOk) {x b} : Answer.memOk (execSegCmd x b s) := by
  unfold execSegCmd
  dsimp only
  refine match_ite (P := Answer.memOk) ?_ ?_
  · exact h
  · split
    next e =>
      exact h.matStop (M.Keeps.keep (.ite engTrap_keeps (.bind engBlock_keeps fun _ => .ite engTrap_keeps
          (.modify fun _ h => h.setArray.modEngine))) h e)
    · exact h
    next e =>
      have ht := M.Keeps.ok (.ite engTrap_keeps (.bind engBlock_keeps fun _ => .ite engTrap_keeps
          (.modify fun _ h => h.setArray.modEngine))) h e
      exact ht.matPerformed

theorem execSegmentCountOverrun_memOk (h : s.memOk) : Answer.memOk (execSegmentCountOverrun s) := by
  unfold execSegmentCountOverrun
  dsimp only
  refine match_ite (P := Answer.memOk) h (match_ite (P := Answer.memOk) h.setLast.startReplay ?_)
  refine match_replayed (P := Answer.memOk) h.replay (fun _ ht => ht.stood.modEngine) (fun _ _ _ hu => ?_)
    (fun _ _ hu => h.matStop hu) (fun _ => h.podAsk) fun _ => h
  have hf := h.uptoFault hu
  exact State.memOk.ite hf.failed.startReplay hf.failed.poisonTiles.gaveUp.segClosed

/-! ### The near-bank unit -/

theorem issueNb_keeps {acc d a b k} : M.Keeps (issueNb acc d a b k) :=
  .bind rdA_keeps fun _ =>
  .bind rdA_keeps fun _ =>
  .bind trapIf_keeps fun _ =>
  .bind trapIf_keeps fun _ =>
  .bind translate_keeps fun _ =>
  .get fun _ _ => by
    extract_lets _
    split
    · exact trapP_keeps
    · exact .ite trapP_keeps
        (.bind rdA_keeps fun _ =>
          .bind appendRing_keeps fun _ => by
            extract_lets jp1
            have hjp1 : ∀ r, M.Keeps (jp1 r) := fun _ => .pure
            split
            · exact .bind (.modify fun _ h => h.modEngine) fun _ => hjp1 ()
            · exact hjp1 ())

theorem nbChecked_keeps {r sy} : M.Keeps (nbChecked r sy) :=
  .get fun _ _ =>
  .ite engTrap_keeps
  (.bind matBlock_keeps fun _ =>
    .ite engTrap_keeps
      (.ite engTrap_keeps (.bind engOpen_keeps fun _ => .bind engOpen_keeps fun _ => .bind engHoldStream_keeps fun _ => .pure)))

theorem nbRows_keeps {d k fz mark a init n n1} : M.Keeps (nbRows d k fz mark a init n n1) := by
  induction n1 generalizing n with
  | zero => exact .pure
  | succ _ ih => exact .get fun _ _ => .ite engFail_keeps (.bind ih fun _ => .pure)

theorem oldElems.engReadPieces_keeps {v xs} : M.Keeps (oldElems.engReadPieces v xs) := by
  induction xs with
  | nil => exact .pure
  | cons _ _ ih => exact .bind engReadPart_keeps fun _ => .bind ih fun _ => .pure

theorem putMarked_keeps {p n xs} (hp : p.Keeps) : M.Keeps (putMarked p n xs) := by
  induction xs generalizing n with
  | nil => exact .pure
  | cons _ _ ih => exact .bind (Path.put_keeps hp) fun _ => ih

theorem oldElems_keeps {v n} : M.Keeps (oldElems v n) := by
  induction n with
  | zero => exact .pure
  | succ _ ih => exact .bind ih fun _ => .bind oldElems.engReadPieces_keeps fun _ => .pure

theorem nbKeep_keeps {r sy} : M.Keeps (nbKeep r sy) :=
  .get fun _ _ => .ite (.bind nbChecked_keeps fun _ => .bind oldElems_keeps fun _ => .modify fun _ h => h.modEngine) .pure

theorem nbPass_keeps {r sy} : M.Keeps (nbPass r sy) :=
  .bind nbChecked_keeps fun _ =>
  .bind engTrailer_keeps fun _ =>
  .bind (engElems_keeps (Path.ahead_keeps (engPath_keeps (.modify fun _ h => h.modSys)))) fun _ =>
  .get fun _ _ =>
  .bind nbRows_keeps fun _ =>
    .bind (putMarked_keeps (engPath_keeps .pure)) fun _ => .bind sticky_keeps fun _ => .modify fun _ h => h.modSys

theorem poisonPieces_keeps {n sp xs} : M.Keeps (poisonPieces n sp xs) := by
  induction xs with
  | nil => exact .pure
  | cons _ _ ih => exact .bind engRead_keeps fun _ => .bind engWriteParts_keeps fun _ => ih

theorem State.memOk.engPerformed (h : s.memOk) {n} : (s.engPerformed n).memOk := h.stood.modEngine

theorem State.memOk.engFailed (h : s.memOk) {n code arg poison closed} (hpoison : poison.Keeps)
    (hclosed : ∀ t, t.memOk → (closed t).memOk) :
    (s.engFailed n code arg poison closed).memOk :=
  .ite h.noteTrailer.startReplay
  (hclosed _ (State.memOk.engPerformed (State.memOk.gaveUp (State.memOk.addRecord (by
                      split
                      next e =>
                        have hu := hpoison.ok h.noteTrailer e
                        exact hu
                      · exact h.noteTrailer)))))

theorem execNbq_memOk (h : s.memOk) {x r} : Answer.memOk (execNbq x r s) := by
  unfold execNbq
  dsimp only
  refine match_ite (P := Answer.memOk) h ?_
  have hl : M.Left ((nbChecked r ((s.cmdSync 4).getD 0)).run s) := nbChecked_keeps _ h
  generalize (nbChecked r ((s.cmdSync 4).getD 0)).run s = c at hl ⊢
  rcases c with (_ | _ | _) | c
  · exact h.stopAt hl
  · exact h
  · exact h
  · exact match_ite (P := Answer.memOk) h h.modShare.modEngine

theorem execNbPassStart_memOk (h : s.memOk) {st} : Answer.memOk (execNbPassStart st s) := by
  unfold execNbPassStart
  dsimp only
  split
  · exact h
  · refine match_ite (P := Answer.memOk) ?_ ?_
    · exact h
    · exact h.modShare

theorem execNbPassComplete_memOk (h : s.memOk) {st} : Answer.memOk (execNbPassComplete st s) := by
  unfold execNbPassComplete
  extract_lets +onlyGivenNames q
  split
  · exact h
  · extract_lets +onlyGivenNames t closed
    have ht : t.memOk := h.focus
    have hclosed : ∀ u : State, u.memOk → (closed u).memOk := fun _ hu => hu.modShare
    refine match_ite (P := Answer.memOk) h (match_some_nbq (P := Answer.memOk) (fun r => ?_) h)
    extract_lets +onlyGivenNames sy k
    have hk : k.memOk := by
      dsimp only [k]
      split
      next e => exact nbKeep_keeps.ok ht e
      · exact ht
    refine match_left (P := Answer.memOk) (nbPass_keeps _ hk) (fun _ _ hv => hclosed _ hv.engPerformed) (fun _ _ hu => ?_)
      fun _ _ => h
    refine match_ite ?_ ?_
    · exact State.memOk.engFailed (hk.standing hu) (.bind nbChecked_keeps fun _ => poisonPieces_keeps) hclosed
    · exact State.memOk.stopEngine (hclosed _ (ht.standing hu))

/-! ### The conversion unit -/

theorem issueCnv_keeps {had r a b} : M.Keeps (issueCnv had r a b) :=
  .bind rdA_keeps fun _ => .bind checkBlock_keeps fun _ => issueCmd_keeps

theorem cvqBlock_keeps {had off} : M.Keeps (cvqBlock had off) :=
  .bind engBlock_keeps fun _ =>
  .ite engTrap_keeps <| by
    split
    · exact engTrap_keeps
    · exact .bind engOpen_keeps fun _ => .bind engOpen_keeps fun _ => .bind engHoldStream_keeps fun _ => .pure

theorem Conv.units_keeps {c n x n1 x1} (hc : c.Keeps) : M.Keeps (Conv.units c n x n1 x1) := by
  induction n generalizing x n1 x1 with
  | zero => exact .pure
  | succ _ ih => exact .bind (Conv.unit_keeps hc) fun _ => ih

theorem cvqStep_keeps {had rm off} : M.Keeps (cvqStep had rm off) :=
  .bind cvqBlock_keeps fun _ =>
  .get fun _ _ =>
  .bind engTrailer_keeps fun _ =>
  .when engMasks_keeps fun _ =>
  .bind (Conv.units_keeps (⟨Path.ahead_keeps (engPath_keeps .pure), engPath_keeps .pure⟩)) fun _ =>
    .bind (Conv.trailer_keeps (⟨Path.ahead_keeps (engPath_keeps .pure), engPath_keeps .pure⟩)) fun _ => sticky_keeps

theorem execCvq_memOk (h : s.memOk) {x h0 r b} : Answer.memOk (execCvq x h0 r b s) := by
  refine match_ite (P := Answer.memOk) h ?_
  refine match_left_ok_first (P := Answer.memOk) (cvqStep_keeps _ h.latchFtz) (fun _ _ ht => ht.engPerformed)
    (fun _ _ hk => ?_) (fun _ => h.latchFtz) fun _ => h.latchFtz.podAsk
  refine match_ite (P := Answer.memOk) ?_ (h.latchFtz.stopAt hk)
  exact State.memOk.engFailed (h.latchFtz.standing hk) (.bind cvqBlock_keeps fun _ => poisonPieces_keeps) fun _ h => h

end Sys2Proof.Machine
end
section
/-!
SUPPORT. The memories' form is kept by notices, pulls, copies, work entries, regions and apertures.
-/
set_option Elab.async false

namespace Sys2Proof.Machine
open Sys2Proof
variable {s : State}

/-! ### Notices -/

theorem State.memOk.answer (h : s.memOk) {bs poison error} : (s.answer bs poison error).memOk := h.modHub

theorem State.memOk.setPort (h : s.memOk) {p} : (s.setPort p).memOk := h.modShare

theorem State.memOk.modPort (h : s.memOk) {f} : (s.modPort f).memOk := h.setPort

theorem State.memOk.modPin (h : s.memOk) {core ix gen want f} : (s.modPin core ix gen want f).memOk := h.setCore

theorem groupMembers_keeps {g} : M.Keeps (groupMembers g) :=
  .get fun _ _ =>
  .bind translate_keeps fun _ =>
    .bind readAt_keeps fun _ => .bind readAt_keeps fun _ => .ite accTrap_keeps (.ite trapP_keeps .pure)

theorem namesOk_keeps {xs} : M.Keeps (namesOk xs) := by
  induction xs with
  | nil => exact .pure
  | cons _ _ ih => exact .ite ih trapP_keeps

theorem readCham_keeps {off n} : M.Keeps (readCham off n) := by
  induction n with
  | zero => exact .pure
  | succ _ ih => exact .bind ih fun _ => .get fun _ _ => .bind readAt_keeps fun _ => .ite accTrap_keeps .pure

theorem execPubl_memOk (h : s.memOk) {d a b} : Answer.memOk (execPubl d a b s) :=
  runAp_memOk h (.bind rdA_keeps fun _ =>
      .bind trapIf_keeps fun _ =>
      .bind trapIf_keeps fun _ =>
      .get fun _ _ => by
        extract_lets jp1
        have hjp1 : ∀ r, M.Keeps (jp1 r) := fun _ =>
          .bind readCham_keeps fun _ =>
          .get fun _ _ =>
          .bind trapIf_keeps fun _ =>
          .iteBind groupMembers_keeps .pure fun _ =>
          .bind namesOk_keeps fun _ =>
          .get fun _ _ => by
            split
            · exact block_keeps
            · exact .bind blockIf_keeps fun _ =>
                .bind blockIf_keeps fun _ =>
                  .bind rdA_keeps fun _ => .bind (.modify fun _ h => h.drainFor.modStrand.modPort) fun _ => .bind
                    wrA_keeps fun _ => .pure
        split
        · exact .bind trapP_keeps fun _ => hjp1 ()
        · exact hjp1 ())

theorem State.memOk.takeSlot (h : s.memOk) {x} : (s.takeSlot x).memOk := h.modPort

theorem State.memOk.addPull (h : s.memOk) {p w} : (s.addPull p w).memOk := h.modShare

theorem execPull_memOk (h : s.memOk) {d a b} : Answer.memOk (execPull d a b s) := by
  unfold execPull
  refine runAp_memOk h (.bind rdA_keeps fun _ => .bind rdA_keeps fun _ => .bind rdA_keeps fun _ =>
    .bind trapIf_keeps fun _ => .bind trapIf_keeps fun _ => .get fun _ _ => ?_)
  split
  · exact block_keeps
  · extract_lets +onlyGivenNames size
    refine .bind trapIf_keeps fun _ => ?_
    extract_lets +onlyGivenNames n jp
    have hjp : ∀ r, M.Keeps (jp r) := fun _ =>
      .bind trapIf_keeps fun _ => .bind (.modify fun _ h => h.takeSlot.addPull) fun _ => .pure
    split
    · exact .bind trapP_keeps fun _ => hjp ()
    · exact hjp ()

theorem State.memOk.podCast (h : s.memOk) {node off kind bs} : (s.podCast node off kind bs).memOk := .ite h h.podSend

theorem execDecl_memOk (h : s.memOk) {a} : Answer.memOk (execDecl a s) :=
  runAp_memOk h (.bind rdA_keeps fun _ =>
      .get fun _ hs => by
        split
        · exact block_keeps
        · exact .bind (.set (.ite hs.takeSlot.modShare hs.takeSlot.podCast)) fun _ => .pure)

theorem execPfence_memOk (h : s.memOk) : Answer.memOk (execPfence s) :=
  runAp_memOk h (.bind (.modify fun _ h => h.modAp) fun _ =>
        .get fun _ _ => .ite stayBlocked_keeps (.bind (.modify fun _ h => h.modOrder) fun _ => .pure))

theorem State.memOk.pinRes (h : s.memOk) {r} : (s.pinRes r).memOk := h.modCoreRegs

theorem State.memOk.pinStore (h : s.memOk) {i dl} : (s.pinStore i dl).memOk := h.modCoreRegs

theorem State.memOk.pinDo (h : s.memOk) {i f} : (s.pinDo i f).memOk := .ite h.pinRes (.ite h.pinRes h.modStrand.pinRes)

theorem State.memOk.pinExtend (h : s.memOk) {i dl} : (s.pinExtend i dl).memOk := h.pinStore.pinDo

theorem State.memOk.pinRelease (h : s.memOk) {i} : (s.pinRelease i).memOk := h.pinDo

theorem State.memOk.pinRepublish (h : s.memOk) {i dl} : (s.pinRepublish i dl).memOk :=
  .ite h.pinStore.pinDo h.pinStore.pinDo.modPort

theorem execPinopExtend_memOk (h : s.memOk) {i dl} : Answer.memOk (execPinopExtend i dl s) := h.pinExtend

theorem execPinopForceRelease_memOk (h : s.memOk) {i} : Answer.memOk (execPinopForceRelease i s) := h.pinRelease

theorem execPinopRepublish_memOk (h : s.memOk) {i dl} : Answer.memOk (execPinopRepublish i dl s) := h.pinRepublish

theorem execPinDeadlineExpiry_memOk (h : s.memOk) {i} : Answer.memOk (execPinDeadlineExpiry i s) := by
  unfold execPinDeadlineExpiry
  dsimp only
  refine match_ite (P := Answer.memOk) ?_ ?_
  · exact h.modStrand.pendTrap
  · exact h

theorem State.memOk.putSlot (h : s.memOk) {core n again} : (s.putSlot core n again).memOk := .ite h.modShare h.modShare

theorem execNoticeDelivery_memOk (h : s.memOk) : Answer.memOk (execNoticeDelivery s) := by
  unfold execNoticeDelivery
  dsimp only
  split
  · exact h
  · refine match_ite (P := Answer.memOk) ?_ ?_
    · exact h.setPort.putSlot
    · exact h.setPort.podCast

theorem execDeclineArrival_memOk (h : s.memOk) : Answer.memOk (execDeclineArrival s) :=
  match_ite (P := Answer.memOk) (State.memOk.ite h.answer h.modShare.answer)
    (match_some_decline (P := Answer.memOk) (fun _ _ _ _ => h.modShare.modPin) h)

/-! ### Pulls -/

theorem State.memOk.modPull (h : s.memOk) {id f} : (s.modPull id f).memOk := h.modShare

theorem State.memOk.modWork (h : s.memOk) {id f} : (s.modWork id f).memOk := h.modShare

theorem State.memOk.dropPull (h : s.memOk) {id} : (s.dropPull id).memOk := h.modShare

theorem State.memOk.send (h : s.memOk) {m} : (s.send m).memOk := h.modShare

theorem State.memOk.received (h : s.memOk) {m} : (s.received m).memOk := h.modShare

theorem State.memOk.modCoreAt (h : s.memOk) {id f} : (s.modCoreAt id f).memOk := h.setCore

theorem State.memOk.landBytes (h : s.memOk) {cluster n} : (s.landBytes cluster n).memOk := h.modShare

theorem State.memOk.stickAt (h : s.memOk) {core f} : (s.stickAt core f).memOk := h.focus.modRegs.focus

theorem State.memOk.decide (h : s.memOk) {id status} : (s.decide id status).memOk := by
  refine match_some_some (P := State.memOk) (fun p w => .ite h (.ite h.landBytes.dropPull ?_)) h
  dsimp only
  cases p.kind with
  | entry => exact h.landBytes.stickAt.modCoreAt.dropPull
  | foreign => exact h.dropPull.answer
  | _ => exact h.landBytes.modWork

theorem State.memOk.sendRequest (h : s.memOk) {p off len} : (s.sendRequest p off len).memOk :=
  .ite h.send (.ite h.decide h.podSend)

theorem execPullRequestIssue_memOk (h : s.memOk) : Answer.memOk (execPullRequestIssue s) := by
  unfold execPullRequestIssue
  dsimp only
  split
  · exact h
  · refine match_ite (P := Answer.memOk) ?_ ?_
    · exact h
    · exact h.setPort.modPull.modWork.sendRequest

theorem State.memOk.admitPull (h : s.memOk) {p consumer off len} : (s.admitPull p consumer off len).memOk := by
  unfold State.admitPull
  dsimp only
  split
  · exact h.modPull.decide
  · split
    · exact h.modPull.decide
    · exact h.modPull.modPin.modWork.send

theorem State.memOk.farPull (h : s.memOk) {x} : (s.farPull x).memOk :=
  .ite h.answer <| by
    split
    · exact .ite h.answer h.answer
    · exact .ite h.addPull.admitPull <| by
          split
          · exact h.modWork.send
          · exact h.answer

theorem execPullRequestArrival_memOk (h : s.memOk) : Answer.memOk (execPullRequestArrival s) := by
  unfold execPullRequestArrival
  dsimp only
  refine match_ite (P := Answer.memOk) h.farPull (match_some_request (P := Answer.memOk) (fun id off len first => ?_) h)
  split
  · exact h.received
  next p _ =>
    refine match_ite (P := Answer.memOk) h.received.send ?_
    cases p.kind with
    | entry => exact match_ite (P := Answer.memOk) h.received.send h.received.decide
    | _ => exact match_ite (P := Answer.memOk) h.received.admitPull h.received.send

theorem State.memOk.devPart (h : s.memOk) {pa view n} : Got.memOk (s.devPart pa view n) := by
  unfold State.devPart
  cases s.target pa with
  | stack => exact h.touchL2
  | window => exact h.windowRead
  | pod => exact h.podRead
  | nothing => exact h

theorem State.memOk.devParts (h : s.memOk) {page xs} : Got.memOk (s.devParts page xs) := by
  induction xs generalizing s with
  | nil => exact h
  | cons _ _ ih =>
    unfold State.devParts
    dsimp only
    split
    · trivial
    next e =>
      have ht := Got.memOk.data h.devPart e
      split
      · trivial
      next e =>
        have hu := Got.memOk.data (ih ht) e
        exact hu

theorem State.memOk.sourceSector (h : s.memOk) {p w o} : Got.memOk (s.sourceSector p w o) := by
  unfold State.sourceSector
  refine match_ite (P := Got.memOk) ?_ ?_
  · exact h.devParts
  · exact h

theorem State.memOk.sourceSectors (h : s.memOk) {p w xs} : KeptPair (s.sourceSectors p w xs) := by
  induction xs generalizing s with
  | nil => exact h
  | cons _ _ ih =>
    unfold State.sourceSectors
    split
    · trivial
    next e =>
      have ht := Got.memOk.data h.sourceSector e
      split
      · trivial
      next e =>
        have hu := KeptPair.ok (ih ht) e
        exact hu

theorem execPullServed_memOk (h : s.memOk) : Answer.memOk (execPullServed s) := by
  refine match_some_serving (P := Answer.memOk) (fun id off len => ?_) h
  dsimp only
  refine match_some_some (P := Answer.memOk) (fun p w => ?_) h.received
  split
  · exact h.received.podAsk.send
  next e =>
    have hr := KeptPair.ok h.received.focus.sourceSectors e
    split
    · exact State.memOk.ite hr.podDone.focus.answer hr.podDone.focus.modShare
    · exact State.memOk.ite (State.memOk.dropPull (by
                  split
                  · exact State.memOk.modPin (.ite hr.podDone.focus.answer hr.podDone.focus.modShare)
                  · exact .ite hr.podDone.focus.answer hr.podDone.focus.modShare)) <| by
          split
          · exact State.memOk.modPin (.ite hr.podDone.focus.answer hr.podDone.focus.modShare)
          · exact .ite hr.podDone.focus.answer hr.podDone.focus.modShare

theorem State.memOk.landSector (h : s.memOk) {core off bs poison} : (s.landSector core off bs poison).memOk :=
  .ite h.engineWrite.setPoison h.engineWrite

theorem State.memOk.landSectors (h : s.memOk) {p w ftz n xs} : (s.landSectors p w ftz n xs).memOk := by
  induction xs generalizing s n with
  | nil => exact h
  | cons _ _ ih =>
    exact ih (by
            split
            all_goals exact h.landSector.modWork)

theorem State.memOk.landUnit (h : s.memOk) {p w u tuple secs} : (s.landUnit p w u tuple secs).memOk := by
  unfold State.landUnit
  dsimp only
  split
  · exact h.landSectors
  · exact .ite h.modCoreAt (.ite h.modCoreAt h.landSectors.engineWrite)

theorem State.memOk.tidy (h : s.memOk) {id} : (s.tidy id).memOk :=
  match_some_some (P := State.memOk) (fun _ _ => .ite h.dropPull h) h

theorem execPullUnitLanding_memOk (h : s.memOk) : Answer.memOk (execPullUnitLanding s) := by
  refine match_some_unit (P := Answer.memOk) (fun id u acks cid step contrib data poison => ?_) h
  dsimp only
  refine match_some_some (P := Answer.memOk) (fun p w => match_ite (P := Answer.memOk) h.received ?_) h.received
  exact State.memOk.tidy (.ite (.ite (State.memOk.modWork (State.memOk.stickAt (State.memOk.modWork
      (.ite h.received.landUnit.landBytes h.received.landUnit))))
      (State.memOk.modWork (.ite h.received.landUnit.landBytes h.received.landUnit)))
    (State.memOk.send (.ite (State.memOk.modWork (State.memOk.stickAt (State.memOk.modWork
      (.ite h.received.landUnit.landBytes h.received.landUnit))))
      (State.memOk.modWork (.ite h.received.landUnit.landBytes h.received.landUnit)))))

theorem execRouteAck_memOk (h : s.memOk) : Answer.memOk (execRouteAck s) :=
  match_some_ack (P := Answer.memOk) (fun _ _ _ _ => h.received.modCoreAt.modWork.tidy) h

theorem State.memOk.finishPull (h : s.memOk) {p status} : (s.finishPull p status).memOk := .ite h.dropPull h.modWork.tidy

theorem State.memOk.enginePulled (h : s.memOk) {p w n} : (s.enginePulled p w n).memOk :=
  State.memOk.stickAt (State.memOk.focus (.ite h.focus.engPerformed h.focus))

theorem execPullCompletion_memOk (h : s.memOk) : Answer.memOk (execPullCompletion s) := by
  unfold execPullCompletion
  dsimp only
  split
  · exact h
  next p w x _ =>
    refine State.memOk.finishPull ?_
    cases p.kind with
    | engine =>
      refine State.memOk.enginePulled ?_
      split
      · exact h.engineWrite
      · exact h
    | _ =>
      dsimp only
      split
      · exact h.engineWrite
      · exact h

/-! ### Copies -/

theorem copyOpen_keeps {n sp a len write} : M.Keeps (copyOpen n sp a len write) := by
  unfold copyOpen
  split
  · exact .pure
  · exact .pure
  · exact .get fun _ _ => by
        split
        · exact engTrapAt_keeps
        · exact engTrap_keeps
        · exact .pure

theorem wordOpen_keeps {n code off len write} :
    M.Keeps (wordOpen n code off len write) := .get fun _ _ => .ite engTrap_keeps .pure

theorem copyBlock_keeps {n off} : M.Keeps (copyBlock n off) :=
  .bind wordOpen_keeps fun _ =>
  .bind engBlock_keeps fun _ =>
  .ite engTrap_keeps
  (.ite engTrapAt_keeps
    (.when copyOpen_keeps fun _ =>
      .bind copyOpen_keeps fun _ =>
        .when wordOpen_keeps fun _ => .bind engHold_keeps fun _ => .when engHold_keeps fun _ => .pure))

theorem reduceElems_keeps {n b ftz w n1 n2 x} : M.Keeps (reduceElems n b ftz w n1 n2 x) := by
  induction n1 generalizing n2 x with
  | zero => exact .pure
  | succ _ ih => exact .bind engReadPart_keeps fun _ => .bind engReadPart_keeps fun _ => .bind engWritePart_keeps fun _ => ih

theorem State.memOk.copyWord (h : s.memOk) {n cwoff cwval} : (s.copyWord n cwoff cwval).memOk :=
  h.flushEngine.engineWrite.engPerformed

theorem State.memOk.copyEnd (h : s.memOk) {n} : (s.copyEnd n).memOk := by
  unfold State.copyEnd
  dsimp only
  cases (s.engine n).job with
  | none => exact h
  | some v =>
    rcases (s.engine n).got with _ | ⟨x, _ | _⟩
    · exact h
    · exact .ite h h.copyWord.modEngine
    · exact h

theorem State.memOk.copyPull (h : s.memOk) {n b} : (s.copyPull n b).memOk := h.addPull

theorem copyStep_keeps {n off} : M.Keeps (copyStep n off) :=
  .bind copyBlock_keeps fun _ =>
  .ite (.bind (.modify fun _ h => h.copyPull) fun _ => .pure)
  (.bind engPrepare_keeps fun _ => by
      extract_lets jp
      have hjp : ∀ r, M.Keeps (jp r) := fun _ => .pure
      exact .ite (.get fun _ _ => .bind reduceElems_keeps fun _ => .bind sticky_keeps fun _ => hjp ())
          (.bind engRead_keeps fun _ => .bind engWrite_keeps fun _ => hjp ()))

theorem execCpq_memOk (h : s.memOk) {x b} : Answer.memOk (execCpq x b s) := by
  unfold execCpq
  dsimp only
  refine match_ite (P := Answer.memOk) h ?_
  have hl : M.Left ((copyStep (s.onEngine.getD 1) (32 * b.toNat)).run s) := copyStep_keeps _ h
  generalize (copyStep (s.onEngine.getD 1) (32 * b.toNat)).run s = r at hl ⊢
  rcases r with (_ | _ | _) | ⟨_ | _ | _, t⟩
  · exact h.stopAt hl
  · exact h
  · exact h.podAsk
  · exact State.memOk.engPerformed hl
  · exact State.memOk.modEngine hl
  · exact match_ite (P := Answer.memOk) (State.memOk.modEngine hl) (State.memOk.copyWord hl)

/-! ### Work entries -/

theorem entryOpen_keeps {off n write} : M.Keeps (entryOpen off n write) :=
  .get fun _ _ => by
    split
    · exact engTrapAt_keeps
    · exact engTrap_keeps
    · exact .pure

theorem entryAt_keeps {off} : M.Keeps (entryAt off) := by
  unfold entryAt
  refine .bind wordOpen_keeps fun _ => .bind engBlock_keeps fun _ => ?_
  extract_lets +onlyGivenNames e
  refine .ite engTrap_keeps (.ite engTrapAt_keeps ?_)
  extract_lets +onlyGivenNames jp jp1 jp2
  have hjp : ∀ r, M.Keeps (jp r) := fun _ => .pure
  have hjp1 : ∀ r, M.Keeps (jp1 r) := fun _ => .ite (.bind wordOpen_keeps fun _ => hjp ()) (hjp ())
  have hjp2 : ∀ r, M.Keeps (jp2 r) := fun _ => .ite (.bind wordOpen_keeps fun _ => hjp1 ()) (hjp1 ())
  exact .ite (.bind entryOpen_keeps fun _ => hjp2 ())
    (.get fun _ _ => .get fun _ _ => .ite (.bind entryOpen_keeps fun _ => hjp2 ()) (hjp2 ()))

theorem execWqeCmd_memOk (h : s.memOk) {x b} : Answer.memOk (execWqeCmd x b s) := by
  unfold execWqeCmd
  dsimp only
  refine match_ite (P := Answer.memOk) h ?_
  have hl : M.Left ((entryAt (32 * b.toNat)).run s) := entryAt_keeps _ h
  generalize (entryAt (32 * b.toNat)).run s = r at hl ⊢
  rcases r with (_ | _ | _) | _
  · exact h.stopAt hl
  · exact h
  · exact h
  · exact h.modEngine

theorem Entry.clear_keeps {e0} : M.Keeps (Entry.clear e0) :=
  .ite (.bind engHold_keeps fun _ => .modify fun _ h => h.engineWrite) .pure

theorem sourcePages_keeps {xs} : M.Keeps (sourcePages xs) := by
  induction xs with
  | nil => exact .pure
  | cons _ _ ih => exact .bind engTranslate_keeps fun _ => .bind ih fun _ => .pure

theorem State.memOk.takeBitmap (h : s.memOk) {core off n cid step} : (s.takeBitmap core off n cid step).memOk :=
  h.modShare

theorem Entry.issue_keeps {e0} : M.Keeps (Entry.issue e0) :=
  .get fun _ hs =>
  .ite (.set (.ite hs.send (.ite hs.modCoreRegs hs.podCast)))
  (.bind engHold_keeps fun _ =>
    .bind Entry.clear_keeps fun _ =>
      .iteBind sourcePages_keeps .pure fun _ => .modify fun _ h => State.memOk.addPull (.ite h.takeBitmap h))

theorem execWqeIssue_memOk (h : s.memOk) : Answer.memOk (execWqeIssue s) :=
  match_ite (P := Answer.memOk) h (match_ite (P := Answer.memOk) h
    (match_left (P := Answer.memOk) (Entry.issue_keeps _ h) (fun _ _ ht => ht.engPerformed) (fun _ _ hk => h.stopAt hk)
      fun _ _ => h))

theorem execWorkSignalArrival_memOk (h : s.memOk) : Answer.memOk (execWorkSignalArrival s) :=
  match_ite (P := Answer.memOk) (match_ite (P := Answer.memOk) h.send.answer h.answer)
    (match_some_signal (P := Answer.memOk) (fun _ _ _ _ _ => h.received.engineWrite.modCoreAt) h)

theorem execWqeCompletion_memOk (h : s.memOk) : Answer.memOk (execWqeCompletion s) := by
  unfold execWqeCompletion
  dsimp only
  split
  · exact h
  · exact State.memOk.finishPull (State.memOk.modCoreAt (State.memOk.stickAt (by
                    split
                    · exact h.engineWrite
                    · exact h)))

/-! ### Regions -/

theorem State.memOk.setCell (h : s.memOk) {g die c v} : (s.setCell g die c v).memOk := h.homeWrite

theorem State.memOk.setMark (h : s.memOk) {m} : (s.setMark m).memOk := h.modPack

theorem State.memOk.setDirty (h : s.memOk) {r die c} : (s.setDirty r die c).memOk := h.setMark

theorem State.memOk.raiseCell (h : s.memOk) {r g die c v} : (s.raiseCell r g die c v).memOk := .ite h h.setCell.setDirty

theorem State.memOk.raiseTag (h : s.memOk) {r die c q} : (s.raiseTag r die c q).memOk := h.setMark

theorem latRegion_keeps {r idx fits} : M.Keeps (latRegion r idx fits) :=
  .get fun _ _ =>
  .ite trapP_keeps <| by
    split
    · exact trapP_keeps
    · exact .ite trapP_keeps .pure

theorem latClean_keeps {g cs kind} : M.Keeps (latClean g cs kind) := .get fun _ _ => .ite accTrap_keeps .pure

theorem latOrder_keeps {cls} :
    M.Keeps (latOrder cls) := .bind (.modify fun _ h => h.drainFor) fun _ => .get fun _ _ => blockIf_keeps

theorem latAcquire_keeps {o tag cls} : M.Keeps (latAcquire o tag cls) :=
  .ite (.get fun _ _ => .bind blockIf_keeps fun _ => acquireIf_keeps) .pure

theorem latWrite_keeps {isStore a b r} : M.Keeps (latWrite isStore a b r) :=
  .bind rdA_keeps fun _ =>
  .bind rdA_keeps fun _ =>
  .bind latRegion_keeps fun _ =>
  .bind trapIf_keeps fun _ =>
  .bind latClean_keeps fun _ =>
  .bind latOrder_keeps fun _ =>
  .get fun _ _ =>
  .bind trapIf_keeps fun _ =>
    releaseIf_keeps (.bind (.modify fun _ h => .ite h.raiseCell.raiseTag h.raiseCell) fun _ => .bind latAcquire_keeps fun
      _ => .pure)

theorem execLinc_memOk (h : s.memOk) {a b r} : Answer.memOk (execLinc a b r s) :=
  runAp_memOk h (.bind rdA_keeps fun _ =>
      .bind rdA_keeps fun _ =>
      .bind latRegion_keeps fun _ =>
      .get fun _ _ =>
      .bind latClean_keeps fun _ =>
      .bind latOrder_keeps fun _ =>
      .get fun _ _ =>
      .bind trapIf_keeps fun _ =>
        releaseIf_keeps (.bind (.modify fun _ h => .ite h.raiseCell.raiseTag h.raiseCell) fun _ => .bind latAcquire_keeps
          fun _ => .pure))

theorem execLld_memOk (h : s.memOk) {d a r} : Answer.memOk (execLld d a r s) :=
  runAp_memOk h (.bind rdA_keeps fun _ =>
      .bind latRegion_keeps fun _ =>
      .bind latClean_keeps fun _ =>
        .bind latOrder_keeps fun _ => .get fun _ _ => .bind latAcquire_keeps fun _ => .bind wrA_keeps fun _ => .pure)

theorem execLldt_memOk (h : s.memOk) {d b w r} : Answer.memOk (execLldt d b w r s) :=
  runAp_memOk h (.bind rdA_keeps fun _ =>
      .bind rdA_keeps fun _ =>
      .bind latRegion_keeps fun _ =>
      .bind trapIf_keeps fun _ =>
      .bind latClean_keeps fun _ =>
      .bind latOrder_keeps fun _ =>
        .get fun _ _ => .bind blockIf_keeps fun _ => .bind latAcquire_keeps fun _ => .bind wrA_keeps fun _ => .pure)

theorem ctlBlock_keeps {off n} : M.Keeps (ctlBlock off n) :=
  .ite .pure
  (.get fun _ _ => by
      split
      · exact accTrap_keeps
      · exact .bind (.modify fun _ h => h.drainFor) fun _ => .get fun _ _ => .bind blockIf_keeps fun _ => .get fun _ _ => .pure)

theorem State.memOk.rgRes (h : s.memOk) {idx res} : (s.rgRes idx res).memOk := h.modPack

theorem State.memOk.clearRegion (h : s.memOk) {r g} : (s.clearRegion r g).memOk :=
  State.memOk.modPack (h.foldl fun _ _ h => h.homeWrite.foldl fun _ _ h => h.setPoison)

theorem installRegion_keeps {idx off} : M.Keeps (installRegion idx off) :=
  .bind ctlBlock_keeps fun _ => by
    split
    · exact .modify fun _ h => h.rgRes
    · exact .modify fun _ h => .ite h.rgRes (.ite h.rgRes (.ite h.rgRes h.clearRegion.modPack.rgRes))

theorem retireRegion_keeps {idx} : M.Keeps (retireRegion idx) := .modify fun _ h => .ite h.rgRes (.ite h.rgRes h.modPack.rgRes)

theorem installSchedule_keeps {idx off} : M.Keeps (installSchedule idx off) :=
  .ite (.modify fun _ h => h.rgRes)
  (.bind ctlBlock_keeps fun _ => by
      split
      · exact .modify fun _ h => h.rgRes
      · exact .modify fun _ h => .ite h.rgRes h.modPack.rgRes)

theorem runWrite_memOk (h : s.memOk) {m} (hm : m.Keeps) : Answer.memOk (runWrite m s) :=
  match_left (P := Answer.memOk) (hm _ h) (fun _ _ ht => ht) (fun _ _ _ => h.takeTrap) fun _ _ => h

theorem execRgctlInstallRegion_memOk (h : s.memOk) {v} : Answer.memOk (execRgctlInstallRegion v s) :=
  runWrite_memOk h installRegion_keeps

theorem execRgctlRetireRegion_memOk (h : s.memOk) {v} : Answer.memOk (execRgctlRetireRegion v s) :=
  runWrite_memOk h retireRegion_keeps

theorem execRgctlInstallSchedule_memOk (h : s.memOk) {v} : Answer.memOk (execRgctlInstallSchedule v s) :=
  runWrite_memOk h installSchedule_keeps

theorem State.memOk.pullCell (h : s.memOk) {k r g d p i m} : (s.pullCell k r g d p i m).memOk :=
  .ite h.modShare h.setMark.modPack

theorem State.memOk.pullDie (h : s.memOk) {k i w d} : (s.pullDie k i w d).memOk :=
  .ite h
  (h.foldl fun _ _ h => by
      split
      · exact .ite (h.foldl fun _ _ h => h.pullCell) h
      · exact h)

theorem execExchangeRoundStart_memOk (h : s.memOk) : Answer.memOk (execExchangeRoundStart s) := by
  unfold execExchangeRoundStart
  dsimp only
  split
  · exact h
  · split
    · exact h
    · exact h.modPack.foldl fun _ _ h => h.pullDie

theorem State.memOk.countLate (h : s.memOk) {m} : (s.countLate m).memOk := by
  unfold State.countLate
  split
  · exact h
  · exact .ite h.modPack.modShare h

theorem execExchangeMerge_memOk (h : s.memOk) : Answer.memOk (execExchangeMerge s) := by
  unfold execExchangeMerge
  split
  · exact h
  · dsimp only
    split
    · exact h.modPack.countLate
    · exact h.modPack.countLate.raiseCell.raiseTag

/-! ### Apertures -/

theorem State.memOk.apRes (h : s.memOk) {idx res} : (s.apRes idx res).memOk := h.modPack

theorem installWindow_keeps {idx off} : M.Keeps (installWindow idx off) :=
  .bind ctlBlock_keeps fun _ =>
  .get fun _ hs => by
    split
    · exact .set hs.apRes
    · exact .set (.ite hs.apRes hs.modPack.apRes)

theorem retireWindow_keeps {idx} : M.Keeps (retireWindow idx) := .modify fun _ h => .ite h.apRes h.modPack.apRes

theorem execApctlInstall_memOk (h : s.memOk) {v} : Answer.memOk (execApctlInstall v s) :=
  runWrite_memOk h installWindow_keeps

theorem execApctlRetire_memOk (h : s.memOk) {v} : Answer.memOk (execApctlRetire v s) :=
  runWrite_memOk h retireWindow_keeps

theorem execApertureRead_memOk (h : s.memOk) : Answer.memOk (execApertureRead s) := by
  unfold execApertureRead
  split
  · exact h
  · exact h.touchMembers.modPack

end Sys2Proof.Machine
end
section
/-!
SUPPORT. The memories' form is kept by system registers, traps, time, events and the save image.
-/
set_option Elab.async false

namespace Sys2Proof.Machine
open Sys2Proof
variable {s : State}

/-! ### System registers -/

theorem State.memOk.modDie (h : s.memOk) {f} : (s.modDie f).memOk := h.modShare

theorem writeRing_keeps {n v} : M.Keeps (writeRing n v) := .get fun _ hs => .ite trapP_keeps (.set hs.setEngine)

theorem State.memOk.writeEp (h : s.memOk) {reg v} : (s.writeEp reg v).memOk := .ite h.modRegs h.modEp

theorem State.memOk.writeAflags (h : s.memOk) {v} : (s.writeAflags v).memOk := h.modRegs.writeEp

theorem State.memOk.writeSrseed (h : s.memOk) {v} : (s.writeSrseed v).memOk := h.modRegs.writeEp

theorem State.memOk.writeRot (h : s.memOk) {v} : (s.writeRot v).memOk := h.modRegs.writeEp

theorem State.memOk.writeRc (h : s.memOk) {v} : (s.writeRc v).memOk := h.modRegs.writeEp

theorem State.memOk.tlbDo (h : s.memOk) {v} : KeptSome (s.tlbDo v) := by
  unfold State.tlbDo
  dsimp only
  refine match_ite (P := KeptSome) ?_ ?_
  · exact KeptSome.of h.modCoreRegs
  · refine match_ite (P := KeptSome) ?_ ?_
    · trivial
    · exact KeptSome.of h.mapCores.modCoreRegs

theorem writeTlbop_keeps {v} : M.Keeps (writeTlbop v) :=
  .get fun _ hs =>
  .ite (.set hs.modCoreRegs) <| by
    split
    next e =>
      have hu := KeptSome.some hs.modCoreRegs.tlbDo e
      exact .set hu
    · exact block_keeps

theorem State.memOk.tlbRow (h : s.memOk) {op v} : Answer.memOk (s.tlbRow op v) := KeptSome.getD h.tlbDo h

theorem State.memOk.tqRes (h : s.memOk) {idx res} : (s.tqRes idx res).memOk := h.modDie

theorem tqConfigure_keeps {idx off} : M.Keeps (tqConfigure idx off) :=
  .bind ctlBlock_keeps fun _ =>
  .modify fun _ h => by
    dsimp only
    split
    · exact h.tqRes
    · exact h.modDie.tqRes

theorem tqDisable_keeps {idx} : M.Keeps (tqDisable idx) := .modify fun _ h => .ite h.tqRes h.modDie.tqRes

theorem execTqctlConfigure_memOk (h : s.memOk) {v} : Answer.memOk (execTqctlConfigure v s) :=
  runWrite_memOk h tqConfigure_keeps

theorem execTqctlDisable_memOk (h : s.memOk) {v} : Answer.memOk (execTqctlDisable v s) :=
  runWrite_memOk h tqDisable_keeps

theorem State.memOk.peerQuery (h : s.memOk) {n} : (s.peerQuery n).memOk := h.modPack

theorem State.memOk.peerRelease (h : s.memOk) {n} : (s.peerRelease n).memOk := h.modPack

theorem execUalpeerQuery_memOk (h : s.memOk) {v} : Answer.memOk (execUalpeerQuery v s) := h.peerQuery

theorem execUalpeerRelease_memOk (h : s.memOk) {v} : Answer.memOk (execUalpeerRelease v s) := h.peerRelease

theorem State.memOk.writePeer (h : s.memOk) {v} : (s.writePeer v).memOk := by
  unfold State.writePeer
  split
  · exact h.peerQuery
  · exact h.peerRelease
  · exact h.modPack

theorem State.memOk.writeNode (h : s.memOk) {v} : (s.writeNode v).memOk := h.modPack

theorem State.memOk.writePinop (h : s.memOk) {v} : (s.writePinop v).memOk := by
  unfold State.writePinop
  dsimp only
  split
  · exact h.pinStore.pinExtend
  · exact h.pinStore.pinRelease
  · exact h.pinStore.pinRepublish
  · exact h.pinStore

theorem writeOpen_keeps {n v} : M.Keeps (writeOpen n v) :=
  .ite (.modify fun _ h => h.modRegs.writeEp)
  (.ite writeRing_keeps
    (.ite (.modify fun _ h => h.modRegs)
      (.ite (.modify fun _ h => h.modCoreRegs) <| by
          split
          · exact .modify fun _ h => h.writeSrseed
          · exact .modify fun _ h => h.writeAflags
          · exact .modify fun _ h => h.modSys
          · exact .modify fun _ h => h.modSys
          · exact .modify fun _ h => h.writePinop
          · exact .modify fun _ h => h.modCoreRegs
          · exact .modify fun _ h => h.modCoreRegs
          · exact .modify fun _ h => h.modSys
          · exact .modify fun _ h => h.modSys
          · exact .modify fun _ h => h.modCoreRegs
          · exact .modify fun _ h => h.modCoreRegs
          · exact .pure)))

theorem writeRgctl_keeps {v} : M.Keeps (writeRgctl v) := by
  unfold writeRgctl
  split
  · exact installRegion_keeps
  · exact retireRegion_keeps
  · exact installSchedule_keeps
  · exact .modify fun _ h => h.modPack

theorem writeApctl_keeps {v} : M.Keeps (writeApctl v) := by
  unfold writeApctl
  split
  · exact installWindow_keeps
  · exact retireWindow_keeps
  · exact .modify fun _ h => h.modPack

theorem writeTqctl_keeps {v} : M.Keeps (writeTqctl v) := by
  unfold writeTqctl
  split
  · exact tqConfigure_keeps
  · exact tqDisable_keeps
  · exact .modify fun _ h => h.modDie

theorem writePriv_keeps {n v} : M.Keeps (writePriv n v) := by
  unfold writePriv
  split
  · exact .modify fun _ h => h.writeRot
  · exact .modify fun _ h => h.writeRc
  · exact .modify fun _ h => h.modSys
  · exact .modify fun _ h => h.modSys
  · exact .modify fun _ h => h.modCoreRegs
  · exact .modify fun _ h => h.modSys
  · exact .modify fun _ h => h.modPort
  · exact .modify fun _ h => h.modPort
  · exact .modify fun _ h => h.modPort
  · exact .modify fun _ h => h.modPort
  · exact writeRgctl_keeps
  · exact writeApctl_keeps
  · exact writeTqctl_keeps
  · exact .modify fun _ h => h.modSys
  · exact writeTlbop_keeps
  · exact .modify fun _ h => h.modDie
  · exact .modify fun _ h => h.modCoreRegs
  · exact .modify fun _ h => h.modPack
  · exact .modify fun _ h => h.writeNode
  · exact .modify fun _ h => h.writePeer
  · exact .pure

theorem sysWrite_keeps {n v} : M.Keeps (sysWrite n v) := .bind writeOpen_keeps fun _ => .get fun _ _ => .ite writePriv_keeps .pure

theorem execCsrw_memOk (h : s.memOk) {a n} : Answer.memOk (execCsrw a n s) := by
  unfold execCsrw
  dsimp only
  refine match_ite (P := Answer.memOk) ?_ ?_
  · refine match_ite (P := Answer.memOk) ?_ ?_
    · exact h.shret
    · exact h.takeTrap
  · exact runAp_memOk h (.bind rdA_keeps fun _ => .bind sysWrite_keeps fun _ => .pure)

theorem execRingcfgWrite_memOk (h : s.memOk) {n v} : Answer.memOk (execRingcfgWrite n v s) := by
  unfold execRingcfgWrite
  refine match_ite (P := Answer.memOk) ?_ ?_
  · exact runWrite_memOk h writeRing_keeps
  · exact h

theorem execAflagsWrite_memOk (h : s.memOk) : Answer.memOk (execAflagsWrite s) := h.writeAflags

/-! ### Trap words -/

theorem execIllegalInstruction_memOk (h : s.memOk) {w} : Answer.memOk (execIllegalInstruction w s) := by
  unfold execIllegalInstruction
  refine match_ite (P := Answer.memOk) ?_ ?_
  · exact h
  · exact h.takeTrap

theorem execTrapDelivery_memOk (h : s.memOk) : Answer.memOk (execTrapDelivery s) := State.memOk.ite h.deliver h

theorem execShadowFault_memOk (h : s.memOk) : Answer.memOk (execShadowFault s) := State.memOk.ite h.endStrand h

theorem execStrandStateError_memOk (h : s.memOk) : Answer.memOk (execStrandStateError s) := by
  unfold execStrandStateError
  refine match_ite (P := Answer.memOk) ?_ ?_
  · exact h
  · refine match_ite (P := Answer.memOk) ?_ ?_
    · exact h.setTile.addRecord
    · exact h.stateError

/-! ### Time -/

theorem State.memOk.setBlock (h : s.memOk) {e0 b} : (s.setBlock e0 b).memOk := .ite h.modEp (.ite h.modStrand h.modAp)

theorem execBlockEnd_memOk (h : s.memOk) {e0} : Answer.memOk (execBlockEnd e0 s) := by
  unfold execBlockEnd
  split
  · exact State.memOk.ite h.setBlock h
  · exact h

theorem execProgressTrap_memOk (h : s.memOk) {e0} : Answer.memOk (execProgressTrap e0 s) := by
  unfold execProgressTrap
  split
  · exact h
  · refine match_ite (P := Answer.memOk) ?_ ?_
    · exact h
    · refine match_ite (P := Answer.memOk) ?_ ?_
      · refine match_ite (P := Answer.memOk) ?_ ?_
        · exact h.modEp.pendTrap
        · exact h
      · refine match_ite (P := Answer.memOk) ?_ ?_
        · exact h
        · exact h.takeTrap

theorem State.memOk.putRecord (h : s.memOk) {die q i old new} : (s.putRecord die q i old new).memOk := h.modTq.modShare

theorem State.memOk.spillRecord (h : s.memOk) {die q i} : (s.spillRecord die q i).memOk := by
  unfold State.spillRecord
  dsimp only
  split
  · exact h
  next r _ =>
    refine .ite ?_ ?_
    · split
      · exact h.putRecord
      · exact h
    · cases r.slot with
      | some => exact h
      | none =>
        cases (s.tqOf die q).spillFree with
        | none => exact h
        | some k => exact h.homeWrite.putRecord

theorem State.memOk.spillRecords (h : s.memOk) : s.spillRecords.memOk :=
  h.foldl fun _ _ h => h.foldl fun _ _ h => .ite h (h.foldl fun _ _ h => h.spillRecord)

theorem State.memOk.tick (h : s.memOk) : s.tick.memOk := h.spillRecords.mapCores.modShare.modHub.upd.upd

/-! ### Events -/

theorem State.memOk.countEcc (h : s.memOk) {die lo w} : (s.countEcc die lo w).memOk := h.modShare

theorem execCorrectableError_memOk (h : s.memOk) : Answer.memOk (execCorrectableError s) := by
  unfold execCorrectableError
  split
  · exact h.countEcc
  · exact h.countEcc
  · exact h.countEcc
  · exact h

theorem State.memOk.poisonSector (h : s.memOk) {sp view a} : (s.poisonSector sp view a).memOk :=
  h.foldl fun _ _ h => h.setPoison

theorem State.memOk.poisonL1 (h : s.memOk) {sp view a} : (s.poisonL1 sp view a).memOk := h.modOrder

theorem execPowerOn_memOk (h : s.memOk) : Answer.memOk (execPowerOn s) :=
  Mem.setBank_wf State.reset.mem .host false _ State.reset_wf (Mem.bank_wf s.mem .host false h)

theorem execCorePowerGate_memOk (h : s.memOk) : Answer.memOk (execCorePowerGate s) := by
  unfold execCorePowerGate
  refine match_ite (P := Answer.memOk) ?_ ?_
  · exact h.modEp.modCore
  · exact h

theorem execPowerThrottle_memOk (h : s.memOk) : Answer.memOk (execPowerThrottle s) := h.modHub

theorem execStreamElementArrival_memOk (h : s.memOk) : Answer.memOk (execStreamElementArrival s) := by
  unfold execStreamElementArrival
  dsimp only
  refine match_ite (P := Answer.memOk) ?_ h
  rcases ((s.epPath s.input.a).elem (s.stream s.input.a).epVersion.pos).run s with (_ | _ | _) | _
  · exact match_ite (P := Answer.memOk) h.modEp.pendTrap h
  · exact h
  · exact h
  · exact h

end Sys2Proof.Machine
end
section
/-!
SUPPORT. The memories' form is kept by the Hub, launches, saves and the scheduler.
-/
set_option Elab.async false

namespace Sys2Proof.Machine
open Sys2Proof
variable {s : State}

/-! ### The Hub's accesses -/

theorem State.memOk.hubPlace (h : s.memOk) {roots host va write} : KeptPair (s.hubPlace roots host va write) := by
  unfold State.hubPlace
  extract_lets +onlyGivenNames v
  refine match_ite (P := KeptPair) ?_ ?_
  · trivial
  · cases walk s.mem (rootOf (if host = true then roots.2 else roots.1)) v with
    | leaf => exact match_ite (P := KeptPair) trivial (State.memOk.ite h.touchWalk h.touchWalk.orPte)
    | _ => trivial

theorem State.memOk.hubDone (h : s.memOk) {agent} : (s.hubDone agent).memOk := h.modShare

theorem State.memOk.hubPod (h : s.memOk) {agent node off n} : KeptPair (s.hubPod agent node off n) := by
  unfold State.hubPod
  dsimp only
  split
  · exact h
  · refine match_ite (P := KeptPair) ?_ ?_
    · exact h.upd
    · trivial

theorem State.memOk.hubSector (h : s.memOk) {agent p n} : KeptPair (s.hubSector agent p n) := by
  refine match_window_pod (P := KeptPair) (fun _ _ => ?_) (fun _ _ => h.hubPod) h.touchL2
  split
  next e =>
    have ht := Got.memOk.data h.windowRead e
    exact ht
  · trivial

theorem State.memOk.hubReadParts (h : s.memOk) {agent roots host xs} : KeptPair (s.hubReadParts agent roots host xs) := by
  induction xs generalizing s with
  | nil => exact h
  | cons _ _ ih =>
    unfold State.hubReadParts
    split
    · trivial
    next e =>
      have ht := KeptPair.ok h.hubPlace e
      split
      · trivial
      next e =>
        have ht' := KeptPair.ok ht.hubSector e
        split
        · trivial
        next e =>
          have hu := KeptPair.ok (ih ht') e
          exact hu

theorem State.memOk.hubRead (h : s.memOk) {agent roots host va n} : KeptPair (s.hubRead agent roots host va n) :=
  h.hubReadParts

theorem State.memOk.hubWriteParts (h : s.memOk) {agent roots host xs xs1} :
    KeptState (s.hubWriteParts agent roots host xs xs1) := by
  induction xs generalizing s xs1 with
  | nil => exact h
  | cons _ _ ih =>
    unfold State.hubWriteParts
    split
    · trivial
    next e =>
      have ht := KeptPair.ok h.hubPlace e
      split
      · refine match_ite ?_ ?_
        · exact ih ht
        · trivial
      · exact ih ht.homeWrite

theorem State.memOk.hubWrite (h : s.memOk) {agent roots host va bs} : KeptState (s.hubWrite agent roots host va bs) :=
  h.hubWriteParts

theorem State.memOk.hubPost (h : s.memOk) {roots host kind xs xs1} : (s.hubPost roots host kind xs xs1).1.memOk := by
  induction xs generalizing s xs1 with
  | nil => exact h
  | cons _ _ ih =>
    exact ih (by
            split
            · exact h
            next e =>
              have ht := KeptPair.ok h.hubPlace e
              split
              · split
                · exact ht
                · exact ht.podSend
              · exact ht.homeWrite)

theorem State.memOk.modQueue (h : s.memOk) {q f} : (s.modQueue q f).memOk := h.modHub

theorem State.memOk.qRead (h : s.memOk) {q a n} : KeptPair (s.qRead q a n) := h.hubRead

theorem State.memOk.qWrite (h : s.memOk) {q a bs} : KeptState (s.qWrite q a bs) := h.hubWrite

theorem State.memOk.qPost (h : s.memOk) {q kind a bs} : (s.qPost q kind a bs).1.memOk := h.hubPost

theorem State.memOk.signal (h : s.memOk) {vec} : (s.signal vec).memOk := h.modHub

theorem State.memOk.addEvent (h : s.memOk) {q code arg} : (s.addEvent q code arg).memOk :=
  .ite h.qPost.modQueue h.qPost.modQueue.signal

theorem State.memOk.haltQueue (h : s.memOk) {q code arg pkt word} : (s.haltQueue q code arg pkt word).memOk :=
  h.qPost.hubDone.addEvent.modQueue

theorem State.memOk.modSlot (h : s.memOk) {n f} : (s.modSlot n f).memOk := h.modHub

theorem State.memOk.modInvocation (h : s.memOk) {id f} : (s.modInvocation id f).memOk := h.modHub

theorem State.memOk.closeInvocation (h : s.memOk) {v} : (s.closeInvocation v).memOk := h.modSlot.modHub

theorem State.memOk.failInvocation (h : s.memOk) {v r} : (s.failInvocation v r).memOk :=
  h.dropCores.dropRecords.addRecord.addEvent.closeInvocation

/-! ### Launches -/

theorem State.memOk.extentRead (h : s.memOk) {roots rl e0} : KeptPair (s.extentRead roots rl e0) := h.hubRead

theorem State.memOk.readExtents (h : s.memOk) {roots rl es} : (s.readExtents roots rl es).memOk :=
  h.foldl fun _ _ h => by
    split
    next e =>
      have hu := KeptPair.ok h.extentRead e
      exact hu
    · exact h

theorem State.memOk.textParts (h : s.memOk) {roots xs} : KeptPair (s.textParts roots xs) := by
  induction xs generalizing s with
  | nil => exact h
  | cons x xs ih =>
    have hl : KeptPair (s.hubRead launchAgent roots false x.1 x.2) := h.hubRead
    unfold State.textParts
    extract_lets +onlyGivenNames one
    have hone : KeptPair one := by
      dsimp only [one]
      generalize s.hubRead launchAgent roots false x.1 x.2 = r at hl ⊢
      rcases r with (_ | _) | ⟨⟨_, _ | _⟩, _⟩
      · exact h
      · trivial
      · exact hl
      · exact hl
    clear_value one
    rcases one with _ | ⟨r, u⟩
    · trivial
    · have hu := KeptPair.ok hone rfl
      dsimp only
      split
      · trivial
      next e =>
        have hv := KeptPair.ok (ih hu) e
        exact hv

theorem State.memOk.kernelAt (h : s.memOk) {roots desc} : KeptPair (s.kernelAt roots desc) := by
  have hl : KeptPair (s.hubRead launchAgent roots false desc 256) := h.hubRead
  unfold State.kernelAt
  generalize s.hubRead launchAgent roots false desc 256 = r at hl ⊢
  rcases r with (_ | _) | ⟨⟨d, _ | _⟩, t⟩
  · exact h
  · trivial
  · have ht : t.memOk := hl
    refine match_ite (P := KeptPair) ht ?_
    split
    · trivial
    next e =>
      have hu := KeptPair.ok ht.textParts e
      exact hu
  · exact h

theorem State.memOk.putLaunch (h : s.memOk) {inv header desc die tq roots rl k bad ls} :
    (s.putLaunch inv header desc die tq roots rl k bad ls).memOk :=
  h.homeWrite.modHub.upd

theorem State.memOk.launch (h : s.memOk) {inv header desc die tq roots rl} :
    KeptState (s.launch inv header desc die tq roots rl) := by
  have hl : KeptPair (s.kernelAt roots desc) := h.kernelAt
  unfold State.launch
  generalize s.kernelAt roots desc = r at hl ⊢
  rcases r with _ | ⟨_ | k, t⟩
  · trivial
  · trivial
  · have ht : t.memOk := hl
    dsimp only
    split
    · trivial
    · exact ht.readExtents.putLaunch

theorem execLaunchExpand_memOk (h : s.memOk) : Answer.memOk (execLaunchExpand s) := by
  unfold execLaunchExpand
  split
  · exact h
  · dsimp only
    refine match_ite (P := Answer.memOk) ?_ ?_
    · exact h
    · exact h.modTq.modHub

theorem State.memOk.endLaunch (h : s.memOk) {l} : (s.endLaunch l).memOk := by
  unfold State.endLaunch
  dsimp only
  split
  · exact h.modHub.closeInvocation
  · exact h.modHub

theorem State.memOk.endRecord (h : s.memOk) {r tq die} : (s.endRecord r tq die).memOk := by
  unfold State.endRecord
  split
  · exact h
  · exact .ite h.endLaunch (.ite h.homeWrite (.ite h.homeWrite.endLaunch h.homeWrite.modTq))

/-! ### Saves -/

theorem State.memOk.copyRange (h : s.memOk) {sp a n out b} : (s.copyRange sp a n out b).memOk := by
  unfold State.copyRange
  extract_lets +onlyGivenNames x y z m m1
  have hm : m.wf = true :=
    Mem.setBank_wf _ _ _ _ h.hostGivesUp (Cells.wf_place (Mem.bank_wf _ _ _ h) (Mem.bank_wf _ _ _ h))
  have hm1 : m1.wf = true := by
    dsimp only [m1]
    split
    · exact hm
    · exact hm
  exact State.memOk.mapCores (s := { s with mem := m1 }) hm1

theorem State.memOk.writeTiles (h : s.memOk) {n xs} : (s.writeTiles n xs).memOk := by
  induction xs generalizing s n with
  | nil => exact h
  | cons _ _ ih => exact ih (.ite (h.homeWrite.foldl fun _ _ h => h.setPoison) h.homeWrite)

theorem State.memOk.writeHeld (h : s.memOk) {core h0} : (s.writeHeld core h0).memOk :=
  State.memOk.setCore (.ite (State.memOk.homeWrite (State.memOk.foldl (.ite h.writeTiles.copyRange h) fun _ _ h => h.copyRange))
        (State.memOk.foldl (.ite h.writeTiles.copyRange h) fun _ _ h => h.copyRange))

theorem State.memOk.writeHeldBut (h : s.memOk) {frames core} : (s.writeHeldBut frames core).memOk :=
  h.foldl fun _ _ h => h.writeHeld

theorem State.memOk.clearQuad (h : s.memOk) {frames} : (s.clearQuad frames).memOk := h.foldl fun _ _ h => h.writeHeldBut

theorem execSavedBankWrite_memOk (h : s.memOk) : Answer.memOk (execSavedBankWrite s) := by
  unfold execSavedBankWrite
  split
  · exact h.writeHeld
  · exact h

theorem State.memOk.unlatch (h : s.memOk) : s.unlatch.memOk :=
  State.memOk.modEp (.ite h
      (h.foldl fun _ _ h => by
          dsimp only
          split
          · exact h.modQueues.modStream
          · exact h))

theorem State.memOk.unstart (h : s.memOk) : s.unstart.memOk := .ite h (State.memOk.modEngine (.ite h h.setSema))

theorem State.memOk.parkSegment (h : s.memOk) : s.parkSegment.memOk := h.modEngine

theorem State.memOk.writeImage (h : s.memOk) {frame r} : (s.writeImage frame r).memOk :=
  h.homeWrite.foldl fun _ _ h => h.homeWrite

theorem State.memOk.saveOne (h : s.memOk) {frame} : (s.saveOne frame).1.memOk := by
  unfold State.saveOne
  split
  · exact h
  · extract_lets s1 s2 c t held t1 c1 s3
    have h2 : s2.memOk := h.unlatch.unstart.parkSegment.releaseAll.writeImage
    clear_value s2
    have h3 : s3.memOk := h2.setCore.dropStrand
    clear_value s3
    exact h3.modShare

theorem State.memOk.saveMembers (h : s.memOk) {xs} : (s.saveMembers xs).1.memOk := by
  induction xs generalizing s with
  | nil => exact h
  | cons _ _ ih => exact ih h.focus.saveOne.upd

theorem execStrandSave_memOk (h : s.memOk) : Answer.memOk (execStrandSave s) := by
  unfold execStrandSave
  dsimp only
  split
  · exact h
  · refine match_ite (P := Answer.memOk) ?_ ?_
    · exact h
    · refine match_ite (P := Answer.memOk) ?_ ?_
      · exact State.memOk.focus (h.foldl fun _ _ h => h.focus.drainAll)
      · exact State.memOk.focus (State.memOk.modTq (State.memOk.saveMembers (State.memOk.focus
          (h.foldl fun _ _ h => h.focus.drainAll))))

theorem State.memOk.fillBanks (h : s.memOk) {frame inPlace lanes} : (s.fillBanks frame inPlace lanes).memOk :=
  .ite (h.foldl fun _ _ h => h.copyRange) (State.memOk.copyRange (h.foldl fun _ _ h => h.copyRange))

theorem State.memOk.restoreOne (h : s.memOk) {r tq k} : (s.restoreOne r tq k).memOk :=
  .ite (State.memOk.requestArray (State.memOk.unaskOf (State.memOk.setCore (State.memOk.fillBanks (State.memOk.cleanCore
    (.ite h.clearQuad <| by
                            split
                            · exact h.clearQuad.writeHeld
                            · exact h.clearQuad))))))
  (State.memOk.unaskOf (State.memOk.setCore (State.memOk.fillBanks (State.memOk.cleanCore (.ite h.clearQuad <| by
                      split
                      · exact h.clearQuad.writeHeld
                      · exact h.clearQuad)))))

theorem State.memOk.refuseRestore (h : s.memOk) {r k code core} : (s.refuseRestore r k code core).memOk := by
  unfold State.refuseRestore
  dsimp only
  split
  · exact h.mapCores.failInvocation
  · exact h.mapCores.addRecord

theorem State.memOk.noteRun (h : s.memOk) {inv x} : (s.noteRun inv x).memOk := h.modInvocation

theorem State.memOk.restoreRecord (h : s.memOk) {r tq place} : (s.restoreRecord r tq place).memOk := by
  unfold State.restoreRecord
  dsimp only
  split
  · exact h.refuseRestore
  · exact State.memOk.focus (h.foldl fun _ _ h => h.focus.restoreOne.noteRun)

/-! ### The scheduler -/

theorem State.memOk.loadChamber (h : s.memOk) {k} : (s.loadChamber k).memOk := h.foldl fun _ _ h => h.homeWrite

theorem State.memOk.zeroLanes (h : s.memOk) : s.zeroLanes.memOk :=
  Mem.setBank_wf s.mem .lane false _ h (Cells.wf_filter _ (Mem.bank_wf s.mem .lane false h))

theorem State.memOk.cancelPreload (h : s.memOk) : s.cancelPreload.memOk := by
  unfold State.cancelPreload
  split
  · exact h
  · exact h.modTq.modCore

theorem State.memOk.makeRoom (h : s.memOk) {banks} : (s.makeRoom banks).memOk := .ite h.cancelPreload h

theorem State.memOk.startStrand (h : s.memOk) {l r tq m n pre} : (s.startStrand l r tq m n pre).memOk :=
  State.memOk.noteRun (State.memOk.unaskOf (State.memOk.modCore (State.memOk.zeroLanes (.ite (State.memOk.cleanCore
    (State.memOk.clearQuad (.ite h h.makeRoom)))
                    (State.memOk.loadChamber (State.memOk.cleanCore (State.memOk.clearQuad (.ite h h.makeRoom))))))))

theorem State.memOk.choose (h : s.memOk) {die os} : KeptSomePair (s.choose die os) := by
  unfold State.choose
  dsimp only
  split
  · trivial
  · exact State.memOk.modShare (State.memOk.modTq (.ite (h.foldl fun _ _ h => h.modTq) h))

theorem State.memOk.select (h : s.memOk) {ok} : KeptSomePair (s.select ok) := by
  unfold State.select
  dsimp only
  split
  · exact h.modTq
  · exact h.choose

theorem State.memOk.modDieAt (h : s.memOk) {d f} : (s.modDieAt d f).memOk := h.modShare

theorem State.memOk.reserve (h : s.memOk) {tq r} : (s.reserve tq r).memOk := h.modDieAt

theorem State.memOk.startTeam (h : s.memOk) {l g cores} : (s.startTeam l g cores).memOk := by
  unfold State.startTeam
  dsimp only
  cases g.record.kept with
  | nil => exact State.memOk.focus (h.foldl fun _ _ h => h.focus.startStrand)
  | cons => exact State.memOk.restoreRecord (State.memOk.focus (h.foldl fun _ _ h => h.focus.makeRoom))

theorem execGangStart_memOk (h : s.memOk) : Answer.memOk (execGangStart s) := by
  unfold execGangStart
  dsimp only
  split
  · exact h
  · exact State.memOk.startTeam (by
            split
            · exact h.modDieAt.modTq
            · exact h.modDieAt)

theorem State.memOk.take (h : s.memOk) {o l} : (s.take o l).memOk :=
  .ite h.reserve (.ite h.modTq.makeRoom.startStrand h.modTq.makeRoom.restoreRecord)

theorem execRecordSelect_memOk (h : s.memOk) : Answer.memOk (execRecordSelect s) := by
  unfold execRecordSelect
  refine match_ite (P := Answer.memOk) ?_ ?_
  · exact h
  · split
    · exact h.reserve
    · split
      · exact h
      next e =>
        have ht := KeptSomePair.some h.select e
        split
        · exact ht.take
        · exact h

theorem execStrandRestore_memOk (h : s.memOk) : Answer.memOk (execStrandRestore s) := by
  unfold execStrandRestore
  refine match_ite (P := Answer.memOk) ?_ ?_
  · exact h
  · split
    · exact h
    next e =>
      have ht := KeptSomePair.some h.select e
      split
      · refine match_ite ?_ ?_
        · exact h
        · exact ht.take
      · exact h

theorem execPreloadLoad_memOk (h : s.memOk) : Answer.memOk (execPreloadLoad s) := by
  unfold execPreloadLoad
  dsimp only
  refine match_ite (P := Answer.memOk) ?_ ?_
  · exact h
  · split
    · exact h
    next e =>
      have ht := KeptSomePair.some h.select e
      split
      · exact h
      · refine match_ite ?_ ?_
        · exact h
        · exact ht.modTq.writeHeldBut.loadChamber.modCore

theorem execPreloadActivate_memOk (h : s.memOk) : Answer.memOk (execPreloadActivate s) := by
  unfold execPreloadActivate
  dsimp only
  split
  · exact h
  · refine match_ite (P := Answer.memOk) ?_ ?_
    · exact h
    · split
      · exact h.startStrand
      · exact h.modCore

theorem State.memOk.demand (h : s.memOk) : s.demand.memOk := h.upd

theorem State.memOk.cancelPreloads (h : s.memOk) : s.cancelPreloads.memOk := h.foldl fun _ _ h => h.focus.cancelPreload

theorem execPreemptRequest_memOk (h : s.memOk) : Answer.memOk (execPreemptRequest s) := by
  unfold execPreemptRequest
  dsimp only
  split
  · exact h
  · exact h.modTq.focus.demand.cancelPreloads.focus

theorem execDeadlineExpiry_memOk (h : s.memOk) : Answer.memOk (execDeadlineExpiry s) := by
  unfold execDeadlineExpiry
  dsimp only
  refine match_ite (P := Answer.memOk) ?_ ?_
  · exact h.modCore
  · exact h

theorem execHaltComplete_memOk (h : s.memOk) : Answer.memOk (execHaltComplete s) := by
  unfold execHaltComplete
  refine match_ite (P := Answer.memOk) ?_ ?_
  · exact h
  · refine match_ite (P := Answer.memOk) ?_ ?_
    · exact h.drainAll
    · extract_lets t
      have ht : t.memOk := h.drainAll.completeLoads.releaseAll
      clear_value t
      dsimp only
      split
      · exact ht.dropCore
      · refine match_ite ?_ ?_
        · exact ht.dropCore.endRecord
        · exact ht.dropCore.mapCores

theorem State.memOk.launchInvocation (h : s.memOk) {v} : (s.launchInvocation v).memOk := by
  unfold State.launchInvocation
  dsimp only
  split
  next e =>
    have ht := KeptState.ok h.launch e
    exact ht.hubDone
  · exact h.failInvocation

theorem execInvocationReplay_memOk (h : s.memOk) : Answer.memOk (execInvocationReplay s) := by
  unfold execInvocationReplay
  split
  · exact h
  · split
    · exact h.podAsk
    · exact h.dropCores.dropRecords.modHub.addEvent.launchInvocation

theorem execInvocationFail_memOk (h : s.memOk) : Answer.memOk (execInvocationFail s) := by
  unfold execInvocationFail
  split
  · exact h
  · split
    · exact h.failInvocation
    · exact h

end Sys2Proof.Machine
end
section
/-!
SUPPORT. The memories' form is kept by the Hub's queues, packets, Cricket and the firmware.
-/
set_option Elab.async false

namespace Sys2Proof.Machine
open Sys2Proof
variable {s : State}

/-! ### Queues -/

theorem wordOrPoison_memOk {word r} (hr : r.2.memOk) : KeptPair (wordOrPoison word r) := by
  unfold wordOrPoison
  refine match_ite (P := KeptPair) ?_ ?_
  · trivial
  · exact hr

theorem State.memOk.qWord (h : s.memOk) {q d i} : KeptPair (s.qWord q d i) := by
  unfold State.qWord
  dsimp only
  refine match_ite (P := KeptPair) ?_ ?_
  · exact h
  · split
    · exact h
    · split
      · trivial
      next e =>
        have hx := KeptPair.ok (KeptPair.ite h.hubRead h.qRead) e
        split
        · trivial
        next e =>
          have ht := KeptPair.ok (wordOrPoison_memOk hx) e
          exact ht.modQueue

theorem State.memOk.qWords (h : s.memOk) {q k n} : KeptPair (s.qWords q k n) := by
  induction n generalizing s k with
  | zero => exact h
  | succ _ ih =>
    unfold State.qWords
    split
    · trivial
    next e =>
      have ht := KeptPair.ok h.qWord e
      split
      · trivial
      next e =>
        have hu := KeptPair.ok (ih ht) e
        exact hu

theorem State.memOk.tryFetch (h : s.memOk) {q d i} : (s.tryFetch q d i).memOk := by
  refine .ite h ?_
  have hl : KeptPair (s.qWord q d i) := h.qWord
  generalize s.qWord q d i = r at hl ⊢
  rcases r with (_ | _) | _
  · exact h
  · exact h.podAsk
  · exact hl

theorem State.memOk.fetchAhead (h : s.memOk) {q} : (s.fetchAhead q).memOk := h.foldl fun _ _ h => h.tryFetch

theorem State.memOk.packetWords (h : s.memOk) {q} : KeptPair (s.packetWords q) := by
  unfold State.packetWords
  dsimp only
  refine match_ite (P := KeptPair) ?_ ?_
  · exact h
  · split
    · trivial
    next e =>
      have ht := KeptPair.ok h.qWords e
      refine match_ite ?_ ?_
      · exact ht
      · split
        · trivial
        next e =>
          have hu := KeptPair.ok ht.qWords e
          exact hu

theorem State.memOk.applyCommit (h : s.memOk) {q w} : (s.applyCommit q w).memOk := .ite h.modQueue h.modQueue

theorem State.memOk.qcbApply (h : s.memOk) {q x} : (s.qcbApply q x).memOk := by
  unfold State.qcbApply
  split
  · exact h.modQueue
  · exact h.applyCommit

theorem State.memOk.qcbApplyAll (h : s.memOk) {q xs} : (s.qcbApplyAll q xs).memOk := by
  induction xs generalizing s with
  | nil => exact h.modQueue
  | cons _ _ ih =>
    unfold State.qcbApplyAll
    split
    · exact h.podAsk.modQueue
    · exact ih h.qcbApply

theorem State.memOk.boundary (h : s.memOk) {q} : (s.boundary q).memOk := h.qcbApplyAll

theorem State.memOk.qcbPut (h : s.memOk) {q o} : (s.qcbPut q o).memOk := .ite h.qcbApply h.modQueue

theorem State.memOk.retirePacket (h : s.memOk) {q n} : (s.retirePacket q n).memOk := h.modQueue.hubDone.boundary

theorem State.memOk.haltWord (h : s.memOk) {q code arg word} : (s.haltWord q code arg word).memOk := h.haltQueue.boundary

theorem State.memOk.haltAt (h : s.memOk) {q code arg} : (s.haltAt q code arg).memOk := h.haltWord

theorem State.memOk.waitPacket (h : s.memOk) {q} : (s.waitPacket q).memOk := h.modQueue

theorem State.memOk.stopPacket (h : s.memOk) {q x} : (s.stopPacket q x).memOk := by
  unfold State.stopPacket
  split
  · exact h.haltWord
  · exact h.podAsk.waitPacket

theorem State.memOk.pushLevel (h : s.memOk) {q l} : (s.pushLevel q l).memOk := h.modQueue.hubDone.boundary

theorem State.memOk.setWp (h : s.memOk) {q wp} : (s.setWp q wp).memOk := .ite (.ite h h.haltQueue.boundary) h.modQueue

theorem execQueueDoorbell_memOk (h : s.memOk) : Answer.memOk (execQueueDoorbell s) :=
  State.memOk.ite h (.ite h.setWp h.modQueue)

theorem execQcbShadowWrite_memOk (h : s.memOk) : Answer.memOk (execQcbShadowWrite s) := State.memOk.ite h.qcbPut h

theorem execQcbCommit_memOk (h : s.memOk) : Answer.memOk (execQcbCommit s) := State.memOk.ite h h.qcbPut

theorem execWatchdogRollback_memOk (h : s.memOk) : Answer.memOk (execWatchdogRollback s) :=
  h.foldl fun _ _ h => .ite h.modQueue.addEvent h

theorem State.memOk.strikeInvocation (h : s.memOk) {id} : (s.strikeInvocation id).memOk := by
  unfold State.strikeInvocation
  split
  · exact h.failInvocation
  · exact h

theorem State.memOk.strikeQueue (h : s.memOk) {q} : (s.strikeQueue q).memOk := .ite h.haltQueue h

theorem execSramUncorrectableError_memOk (h : s.memOk) : Answer.memOk (execSramUncorrectableError s) := by
  unfold execSramUncorrectableError
  dsimp only
  refine match_ite (P := Answer.memOk) ?_ ?_
  · exact h.strikeQueue
  · refine match_ite (P := Answer.memOk) ?_ ?_
    · exact h.strikeInvocation
    · split
      · exact State.memOk.focus (State.memOk.stateError (State.memOk.focus (.ite h.poisonSector.poisonL1.countEcc
                        (.ite h.poisonSector.countEcc (.ite (.ite h.poisonSector.countEcc h.poisonSector)
                          h.poisonSector.countEcc)))))
      · exact .ite h.poisonSector.poisonL1.countEcc
            (.ite h.poisonSector.countEcc (.ite (.ite h.poisonSector.countEcc h.poisonSector) h.poisonSector.countEcc))

/-! ### Packets -/

theorem State.memOk.runPacket (h : s.memOk) {op body format regions act} (hact : ∀ y0 t, t.memOk → (act y0 t).memOk) :
    Answer.memOk (s.runPacket op body format regions act) := by
  unfold State.runPacket
  dsimp only
  refine match_ite (P := Answer.memOk) ?_ ?_
  · exact h
  · refine match_ite (P := Answer.memOk) ?_ ?_
    · exact h.haltAt
    · refine match_ite (P := Answer.memOk) ?_ ?_
      · exact State.memOk.ite h h.haltAt
      · refine match_ite (P := Answer.memOk) ?_ ?_
        · exact h.haltAt
        · refine match_ite (P := Answer.memOk) ?_ ?_
          · exact h.haltAt
          · exact hact _ _ h

theorem State.memOk.breach (h : s.memOk) {q} : (s.breach q).memOk := h.haltAt

theorem State.memOk.memWord (h : s.memOk) {q a} : KeptPair (s.memWord q a) := by
  unfold State.memWord
  split
  · trivial
  next e =>
    have hr := KeptPair.ok h.qRead e
    exact wordOrPoison_memOk hr

theorem execPktNop_memOk (h : s.memOk) {b} : Answer.memOk (execPktNop b s) := h.runPacket (fun _ _ h => h.retirePacket)

theorem execPktWrite_memOk (h : s.memOk) {b} : Answer.memOk (execPktWrite b s) :=
  h.runPacket (fun _ _ h =>
      .ite h.breach <| by
        split
        next e =>
          have hu := KeptState.ok h.qWrite e
          exact hu.retirePacket
        · exact h.stopPacket)

theorem State.memOk.addWord (h : s.memOk) {q a w} : KeptState (s.addWord q a w) := by
  unfold State.addWord
  dsimp only
  split
  · trivial
  next e =>
    have ht := KeptPair.ok h.hubPlace e
    split
    · refine match_ite ?_ ?_
      · exact ht
      · trivial
    · split
      · trivial
      next e =>
        have hr := KeptPair.ok h.qRead e
        exact hr.qWrite

theorem State.memOk.addWords (h : s.memOk) {q a xs} : KeptState (s.addWords q a xs) := by
  induction xs generalizing s a with
  | nil => exact h
  | cons _ _ ih =>
    unfold State.addWords
    split
    · trivial
    next e =>
      have ht := KeptState.ok h.addWord e
      exact ih ht

theorem execPktWriteAdd_memOk (h : s.memOk) {b} : Answer.memOk (execPktWriteAdd b s) :=
  h.runPacket (fun _ _ h =>
      .ite h.breach <| by
        split
        next e =>
          have hu := KeptState.ok h.addWords e
          exact hu.retirePacket
        · exact h.stopPacket)

theorem execPktWaitmem_memOk (h : s.memOk) {c b} : Answer.memOk (execPktWaitmem c b s) :=
  h.runPacket (fun _ _ h =>
      .ite h.breach <| by
        split
        · exact h.stopPacket
        next e =>
          have hu := KeptPair.ok h.memWord e
          exact .ite hu.retirePacket hu.hubDone.waitPacket)

theorem execWaitmemTimeout_memOk (h : s.memOk) : Answer.memOk (execWaitmemTimeout s) := by
  unfold execWaitmemTimeout
  dsimp only
  refine match_ite (P := Answer.memOk) h ?_
  have hl : KeptPair (s.memWord s.input.a (ba (s.currentWords s.input.a) 1)) := h.memWord
  generalize s.memWord s.input.a (ba (s.currentWords s.input.a) 1) = r at hl ⊢
  rcases r with (_ | _) | _
  · exact h.stopPacket
  · exact h.haltAt
  · exact match_ite (P := Answer.memOk) (State.memOk.retirePacket hl) h.haltAt

theorem State.memOk.walkHeaders (h : s.memOk) {q n n1 n2} : KeptPair (s.walkHeaders q n n1 n2) := by
  induction n generalizing s n1 n2 with
  | zero => exact h
  | succ _ ih =>
    unfold State.walkHeaders
    refine match_ite (P := KeptPair) ?_ ?_
    · exact h
    · split
      · trivial
      next e =>
        have ht := KeptPair.ok h.qWords e
        dsimp only
        refine match_ite ?_ ?_
        · exact ht
        · exact ih ht

theorem execPktCond_memOk (h : s.memOk) {c b} : Answer.memOk (execPktCond c b s) :=
  h.runPacket (fun _ _ h =>
      .ite (.ite h.waitPacket h.breach) <| by
        split
        · exact h.stopPacket
        next e =>
          have hu := KeptPair.ok h.walkHeaders e
          exact hu.breach
        next e =>
          have hu := KeptPair.ok h.walkHeaders e
          split
          · exact hu.stopPacket
          next e =>
            have hv := KeptPair.ok hu.memWord e
            exact hv.retirePacket)

theorem execPktIb_memOk (h : s.memOk) {b} : Answer.memOk (execPktIb b s) :=
  h.runPacket (fun _ _ h => .ite h.breach h.pushLevel)

theorem execPktLoop_memOk (h : s.memOk) {b} : Answer.memOk (execPktLoop b s) :=
  h.runPacket (fun _ _ h =>
      .ite h.breach
      (.ite (.ite h.waitPacket h.breach) <| by
          split
          · exact h.stopPacket
          next e =>
            have hu := KeptPair.ok h.qWords e
            exact .ite hu.breach (.ite hu.retirePacket hu.pushLevel)))

theorem execPktFfence_memOk (h : s.memOk) : Answer.memOk (execPktFfence s) :=
  h.runPacket (fun _ _ h => h.retirePacket.modQueue)

theorem execPktFence_memOk (h : s.memOk) : Answer.memOk (execPktFence s) :=
  h.runPacket (fun _ _ h => .ite h.waitPacket h.retirePacket)

theorem State.memOk.takeRecord (h : s.memOk) {q bs} : (s.takeRecord q bs).memOk := h.modQueue

theorem execPktEvent_memOk (h : s.memOk) {b} : Answer.memOk (execPktEvent b s) :=
  h.runPacket (fun _ _ h => by
        dsimp only
        split
        next e =>
          have hv := KeptState.ok h.takeRecord.qWrite e
          exact hv.modQueue.signal.retirePacket
        · exact h.takeRecord.stopPacket)

theorem execNotAPacket_memOk (h : s.memOk) {h0} : Answer.memOk (execNotAPacket h0 s) :=
  h.runPacket (fun _ _ h => h.haltAt)

theorem State.memOk.copyHome (h : s.memOk) {q n n1 n2 n3} : KeptState (s.copyHome q n n1 n2 n3) := by
  induction n generalizing s n1 n2 n3 with
  | zero => exact h
  | succ _ ih =>
    unfold State.copyHome
    split
    · exact h
    · dsimp only
      split
      · trivial
      next e =>
        have hr := KeptPair.ok h.qRead e
        split
        · trivial
        next e =>
          have ht := KeptState.ok hr.qWrite e
          exact ih (.ite ht <| by
                  split
                  next e =>
                    have hv := KeptPair.ok ht.hubPlace e
                    exact .ite hv.setPoison ht
                  · exact ht)

theorem State.memOk.loadSlot (h : s.memOk) {q n dst src len} : (s.loadSlot q n dst src len).memOk := by
  have hl : KeptState (s.copyHome q (len / 32 + 2) dst src len) := h.copyHome
  unfold State.loadSlot
  dsimp only
  generalize s.copyHome q (len / 32 + 2) dst src len = r at hl ⊢
  rcases r with (_ | _) | t
  · exact h.modSlot.stopPacket
  · exact h.stopPacket
  · have ht : t.memOk := hl
    dsimp only
    split
    · exact ht.modSlot.haltAt
    · exact ht.modSlot.retirePacket

theorem execPktLoadslot_memOk (h : s.memOk) {b} : Answer.memOk (execPktLoadslot b s) := by
  unfold execPktLoadslot
  refine h.runPacket fun _ _ h => ?_
  exact .ite h.loadSlot (.ite h.modSlot.waitPacket h.waitPacket)

theorem execPktEvictslot_memOk (h : s.memOk) {b} : Answer.memOk (execPktEvictslot b s) := by
  unfold execPktEvictslot
  refine h.runPacket fun q t h => ?_
  extract_lets +onlyGivenNames x gone
  have hgone : (gone t).memOk := h.modSlot.retirePacket
  cases x.state with
  | empty => exact hgone
  | loaded => exact .ite hgone h.modSlot.waitPacket
  | evicting => exact .ite hgone h.waitPacket
  | loading => exact h.waitPacket

theorem State.memOk.invoke (h : s.memOk) {q b} : (s.invoke q b).memOk := h.modHub.modSlot.launchInvocation.retirePacket

theorem execPktInvoke_memOk (h : s.memOk) {b} : Answer.memOk (execPktInvoke b s) :=
  h.runPacket fun _ t h => by
    dsimp only
    cases (t.slot (field (b.headD 0) 0 6)).state with
    | loading => exact h.waitPacket
    | loaded =>
      refine .ite h.waitPacket ?_
      split
      · exact h.stopPacket
      · exact h.invoke
    | _ => exact .ite h.waitPacket h.haltAt

theorem execPktSummary_memOk (h : s.memOk) {b} : Answer.memOk (execPktSummary b s) :=
  h.runPacket (fun _ _ h => by
        dsimp only
        split
        next e =>
          have hv := KeptState.ok h.takeRecord.qWrite e
          exact hv.retirePacket
        · exact h.takeRecord.stopPacket)

theorem execPktQcbSh_memOk (h : s.memOk) {b} : Answer.memOk (execPktQcbSh b s) := by
  unfold execPktQcbSh
  refine h.runPacket fun _ _ h => ?_
  exact .ite h.breach h.qcbPut.retirePacket

theorem execPktQcbCommit_memOk (h : s.memOk) {b} : Answer.memOk (execPktQcbCommit b s) :=
  h.runPacket (fun _ _ h => .ite h.qcbPut.retirePacket (.ite h.qcbPut.waitPacket (.ite h.retirePacket h)))

theorem execPktQcbRead_memOk (h : s.memOk) {b} : Answer.memOk (execPktQcbRead b s) :=
  h.runPacket (fun _ _ h => by
        dsimp only
        split
        next e =>
          have hv := KeptState.ok h.takeRecord.qWrite e
          exact hv.retirePacket
        · exact h.takeRecord.stopPacket)

/-! ### Cricket -/

theorem State.memOk.cricketStep (h : s.memOk) {f} (hf : ∀ y0 y1 t, t.memOk → KeptPair (f y0 y1 t)) :
    Answer.memOk (s.cricketStep f) := by
  unfold State.cricketStep
  dsimp only
  cases (s.queue s.input.a).run with
  | none => exact h
  | some r =>
    cases (s.queue s.input.a).cricket with
    | none => exact h
    | some c =>
      refine match_ite (P := Answer.memOk) h ?_
      have hl : KeptPair (f { r with pc := r.pc + 1, steps := r.steps + 1 } c s) := hf _ _ _ h
      generalize f { r with pc := r.pc + 1, steps := r.steps + 1 } c s = x at hl ⊢
      rcases x with (_ | _) | x
      · exact h.stopPacket
      · exact h.podAsk
      · exact State.memOk.modQueue (State.memOk.hubDone hl)

theorem State.memOk.cricketReg (h : s.memOk) {f} : Answer.memOk (s.cricketReg f) := h.cricketStep (fun _ _ _ h => h)

theorem execCricketHalt_memOk (h : s.memOk) {c v} : Answer.memOk (execCricketHalt c v s) := by
  unfold execCricketHalt
  dsimp only
  split
  · exact h
  · refine match_ite (P := Answer.memOk) ?_ ?_
    · exact h
    · split
      · exact h.modQueue
      · exact State.memOk.ite h.haltAt h.retirePacket
      · exact h.haltAt

theorem execCricketLi_memOk (h : s.memOk) {d i} : Answer.memOk (execCricketLi d i s) := h.cricketReg

theorem execCricketLhi_memOk (h : s.memOk) {d i} : Answer.memOk (execCricketLhi d i s) := h.cricketReg

theorem execCricketAdd_memOk (h : s.memOk) {d a b} : Answer.memOk (execCricketAdd d a b s) := h.cricketReg

theorem execCricketSub_memOk (h : s.memOk) {d a b} : Answer.memOk (execCricketSub d a b s) := h.cricketReg

theorem execCricketAnd_memOk (h : s.memOk) {d a b} : Answer.memOk (execCricketAnd d a b s) := h.cricketReg

theorem execCricketOr_memOk (h : s.memOk) {d a b} : Answer.memOk (execCricketOr d a b s) := h.cricketReg

theorem execCricketXor_memOk (h : s.memOk) {d a b} : Answer.memOk (execCricketXor d a b s) := h.cricketReg

theorem execCricketSltu_memOk (h : s.memOk) {d a b} : Answer.memOk (execCricketSltu d a b s) := h.cricketReg

theorem execCricketAddi_memOk (h : s.memOk) {d a i} : Answer.memOk (execCricketAddi d a i s) := h.cricketReg

theorem execCricketShli_memOk (h : s.memOk) {d a n} : Answer.memOk (execCricketShli d a n s) := h.cricketReg

theorem execCricketShri_memOk (h : s.memOk) {d a n} : Answer.memOk (execCricketShri d a n s) := h.cricketReg

theorem execCricketPkt_memOk (h : s.memOk) {d n} : Answer.memOk (execCricketPkt d n s) := h.cricketReg

theorem execCricketSetpkt_memOk (h : s.memOk) {a n} : Answer.memOk (execCricketSetpkt a n s) := h.cricketReg

theorem windowRead_memOk (h : s.memOk) {d w i} : Answer.memOk (windowRead d w i s) :=
  h.cricketStep (fun _ _ _ h => by
        split
        · exact h
        · split
          · trivial
          next e =>
            have hu := KeptPair.ok h.memWord e
            exact hu)

theorem windowWrite_memOk (h : s.memOk) {v w i} : Answer.memOk (windowWrite v w i s) :=
  h.cricketStep (fun _ _ _ h => by
        split
        · exact h
        · split
          · trivial
          next e =>
            have hu := KeptState.ok h.qWrite e
            exact hu)

theorem execCricketLd_memOk (h : s.memOk) {d w o} : Answer.memOk (execCricketLd d w o s) := windowRead_memOk h

theorem execCricketSt_memOk (h : s.memOk) {a w o} : Answer.memOk (execCricketSt a w o s) := windowWrite_memOk h

theorem execCricketLdr_memOk (h : s.memOk) {d a w} : Answer.memOk (execCricketLdr d a w s) := windowRead_memOk h

theorem execCricketStr_memOk (h : s.memOk) {a b w} : Answer.memOk (execCricketStr a b w s) := windowWrite_memOk h

theorem execCricketBz_memOk (h : s.memOk) {a o} : Answer.memOk (execCricketBz a o s) := h.cricketReg

theorem execCricketBnz_memOk (h : s.memOk) {a o} : Answer.memOk (execCricketBnz a o s) := h.cricketReg

theorem execCricketLoop_memOk (h : s.memOk) {n l} : Answer.memOk (execCricketLoop n l s) := h.cricketReg

theorem execCricketBudgetExceeded_memOk (h : s.memOk) : Answer.memOk (execCricketBudgetExceeded s) := by
  unfold execCricketBudgetExceeded
  dsimp only
  split
  · exact h
  · exact State.memOk.ite h.haltAt h

/-! ### Firmware -/

theorem State.memOk.hubBoot (h : s.memOk) : s.hubBoot.memOk := h.upd

theorem State.memOk.mboxDone (h : s.memOk) {arg status} : (s.mboxDone arg status).memOk := h.modHub

theorem execMboxSummary_memOk (h : s.memOk) : Answer.memOk (execMboxSummary s) := by
  unfold execMboxSummary
  dsimp only
  refine match_ite (P := Answer.memOk) ?_ ?_
  · exact h.mboxDone
  · exact h.modHub.mboxDone

theorem execMboxStage_memOk (h : s.memOk) : Answer.memOk (execMboxStage s) := h.modHub.mboxDone

theorem execMboxVerifyWrite_memOk (h : s.memOk) : Answer.memOk (execMboxVerifyWrite s) := by
  unfold execMboxVerifyWrite
  dsimp only
  refine match_ite (P := Answer.memOk) ?_ ?_
  · exact h.modHub.mboxDone
  · exact h.mboxDone

theorem State.memOk.applyHeld (h : s.memOk) {p} : (s.applyHeld p).memOk :=
  h.foldl fun _ _ h => by
    dsimp only
    split
    · exact h.modQueue.setWp
    · exact h

theorem execFunctionReady_memOk (h : s.memOk) : Answer.memOk (execFunctionReady s) := by
  unfold execFunctionReady
  dsimp only
  refine match_ite (P := Answer.memOk) ?_ ?_
  · exact h
  · exact State.memOk.ite h.modHub.applyHeld h.modHub

end Sys2Proof.Machine
end
section
/-!
SUPPORT. The memories' form is kept by integer words, requests from outside and predicates.
-/
set_option Elab.async false

namespace Sys2Proof.Machine
open Sys2Proof
variable {s : State}

/-! ### Integer words -/

theorem aluRR_keeps {e0 d a b f} : M.Keeps (aluRR e0 d a b f) :=
  .bind rd_keeps fun _ => .bind rd_keeps fun _ => .bind wr_keeps fun _ => .pure

theorem aluRI_keeps {e0 d a i f} : M.Keeps (aluRI e0 d a i f) := .bind rd_keeps fun _ => .bind wr_keeps fun _ => .pure

theorem aluShift_keeps {e0 d a n f} : M.Keeps (aluShift e0 d a n f) := .bind rd_keeps fun _ => .bind wr_keeps fun _ => .pure

theorem aluR_keeps {e0 d a f} : M.Keeps (aluR e0 d a f) := .bind rd_keeps fun _ => .bind wr_keeps fun _ => .pure

/-! ### Requests from outside -/

theorem State.memOk.bar0Read (h : s.memOk) {o n} : (s.bar0Read o n).memOk := by
  unfold State.bar0Read
  dsimp only
  cases bar0 o with
  | none => exact h.answer
  | some b =>
    cases b with
    | mailbox | identity => exact h.answer
    | _ => exact .ite h.answer h.answer

theorem State.memOk.touchRange (h : s.memOk) {sp a n} : (s.touchRange sp a n).memOk := h.foldl fun _ _ h => h.touchL2

theorem State.memOk.hostHolds (h : s.memOk) {pa n} : (s.hostHolds pa n).memOk := h

theorem execHostMemRead_memOk (h : s.memOk) : Answer.memOk (execHostMemRead s) := by
  unfold execHostMemRead
  dsimp only
  refine match_ite (P := Answer.memOk) ?_ ?_
  · exact h.bar0Read
  · refine match_ite (P := Answer.memOk) ?_ ?_
    · exact h
    · refine match_ite (P := Answer.memOk) ?_ ?_
      · exact h.answer
      · exact h.touchRange.hostHolds.answer

theorem State.memOk.outsideBytes (h : s.memOk) {pa bs} : (s.outsideBytes pa bs).memOk := by
  unfold State.outsideBytes
  generalize sectorsIn pa bs.length = ps
  induction ps generalizing s bs with
  | nil => exact h
  | cons p ps ih => exact ih h.outsideWrite

theorem execHostMemWrite_memOk (h : s.memOk) : Answer.memOk (execHostMemWrite s) := by
  unfold execHostMemWrite
  dsimp only
  refine match_ite (P := Answer.memOk) ?_ ?_
  · exact h
  · exact h.outsideBytes

theorem execHostCacheInvalidate_memOk (h : s.memOk) : Answer.memOk (execHostCacheInvalidate s) :=
  State.memOk.mapCores (State.memOk.homeWrite (State.memOk.focus (h.foldl fun _ _ h => h.focus.foldl fun _ _ h => h.writeBack)))

theorem State.memOk.refuseInbound (h : s.memOk) : s.refuseInbound.memOk := h.answer

theorem execInboundRead_memOk (h : s.memOk) : Answer.memOk (execInboundRead s) := by
  unfold execInboundRead
  split
  · exact h.touchRange.answer
  · exact h.refuseInbound

theorem execInboundWrite_memOk (h : s.memOk) : Answer.memOk (execInboundWrite s) := by
  unfold execInboundWrite
  split
  · exact h.outsideBytes.answer
  · exact h.refuseInbound

theorem execInboundAtomic_memOk (h : s.memOk) : Answer.memOk (execInboundAtomic s) := by
  unfold execInboundAtomic
  split
  · refine match_ite (P := Answer.memOk) ?_ ?_
    · exact h.refuseInbound
    · exact State.memOk.answer (.ite h.outsideWrite h.touchL2)
  · exact h.refuseInbound

theorem execInboundNotice_memOk (h : s.memOk) : Answer.memOk (execInboundNotice s) := by
  unfold execInboundNotice
  dsimp only
  split
  · refine match_ite (P := Answer.memOk) ?_ ?_
    · exact h.refuseInbound
    · exact h.modShare.answer
  · exact h.refuseInbound

theorem State.memOk.dropPod (h : s.memOk) {i} : (s.dropPod i).memOk := h.modShare

theorem State.memOk.superseded (h : s.memOk) {r} : (s.superseded r).memOk := h.modShare

theorem execPodReplyArrival_memOk (h : s.memOk) : Answer.memOk (execPodReplyArrival s) := by
  unfold execPodReplyArrival
  dsimp only
  split
  · exact h
  next r _ =>
    refine match_ite (P := Answer.memOk) h ?_
    cases r.kind with
    | write =>
      exact match_ite (P := Answer.memOk) h.dropPod.focus.storeDone.focus
        (match_ite (P := Answer.memOk) h.dropPod.modShare h.dropPod)
    | read | atomic => exact match_ite (P := Answer.memOk) h.dropPod (State.memOk.modShare (.ite h.dropPod.upd h.dropPod))
    | event => exact h.dropPod.signal
    | notice => exact State.memOk.ite h.dropPod h.modShare
    | pull =>
      exact match_ite (P := Answer.memOk) (State.memOk.ite h.dropPod.tidy h.dropPod.modPull.decide)
        (match_some_some (P := Answer.memOk) (fun _ _ => h.dropPod.superseded.modPull.modShare) h.dropPod)
    | _ => exact h.dropPod

theorem execPeerTimeoutReissue_memOk (h : s.memOk) : Answer.memOk (execPeerTimeoutReissue s) := by
  unfold execPeerTimeoutReissue
  split
  · refine match_ite (P := Answer.memOk) ?_ ?_
    · exact h.modShare
    · exact h
  · exact h

theorem State.memOk.quarantine (h : s.memOk) {n r} : (s.quarantine n r).memOk :=
  .ite (State.memOk.foldl (State.memOk.modShare (State.memOk.foldl
    (h.modPack.foldl fun _ _ h => h.decide) fun _ _ h => h.modCoreAt)) fun _ _ h =>
        h.signal)
  (State.memOk.addRecord (State.memOk.foldl (State.memOk.modShare (State.memOk.foldl
    (h.modPack.foldl fun _ _ h => h.decide) fun _ _ h => h.modCoreAt)) fun _ _ h =>
          h.signal))

theorem execPeerQuarantine_memOk (h : s.memOk) : Answer.memOk (execPeerQuarantine s) := by
  unfold execPeerQuarantine
  split
  · refine match_ite (P := Answer.memOk) ?_ ?_
    · exact h.quarantine
    · exact h
  · exact h

theorem execUzoantWrite_memOk (h : s.memOk) : Answer.memOk (execUzoantWrite s) := by
  unfold execUzoantWrite
  dsimp only
  split
  · exact h.homeWrite
  · exact h.setPoison
  · exact h.modCoreRegs
  · exact State.memOk.ite h h.demand
  · exact h

theorem execUzoantLaunch_memOk (h : s.memOk) : Answer.memOk (execUzoantLaunch s) := by
  unfold execUzoantLaunch
  dsimp only
  refine match_ite (P := Answer.memOk) ?_ ?_
  · exact h
  · split
    · exact h.podAsk
    · split
      · exact h.addRecord
      next e =>
        have ht := KeptState.ok h.launch e
        split
        · exact ht
        · refine match_ite ?_ ?_
          · exact ht
          · exact ht.modHub.startStrand

/-! ### Predicates -/

theorem predRR_keeps {e0 d a b f} : M.Keeps (predRR e0 d a b f) :=
  .bind rdPred_keeps fun _ => .bind rdPred_keeps fun _ => .bind wrPred_keeps fun _ => .pure

theorem execCmp_memOk (h : s.memOk) {e0 d a b c} : Answer.memOk (execCmp e0 d a b c s) :=
  runShared_memOk h (.bind rd_keeps fun _ => .bind rd_keeps fun _ => .bind wrPred_keeps fun _ => .pure)

theorem execCmpi_memOk (h : s.memOk) {e0 d a c i} : Answer.memOk (execCmpi e0 d a c i s) :=
  runShared_memOk h (.bind rd_keeps fun _ => .bind wrPred_keeps fun _ => .pure)

theorem execPnot_memOk (h : s.memOk) {e0 d a} : Answer.memOk (execPnot e0 d a s) :=
  runShared_memOk h (.bind rdPred_keeps fun _ => .bind wrPred_keeps fun _ => .pure)

end Sys2Proof.Machine
end
section
/-!
SUPPORT. The memories' form is kept by every instruction, and a step.
-/
set_option Elab.async false

namespace Sys2Proof.Machine
open Sys2Proof
variable {s : State}

/-! ### Every instruction -/

theorem exec_memOk (h : s.memOk) {i} : Answer.memOk (exec i s) := by
  induction i with
  | bt | bf => exact runShared_memOk h (.bind rdPred_keeps fun _ => branchIf_keeps)
  | call => exact execCall_memOk h
  | jr => exact execJr_memOk h
  | lbeg => exact execLbeg_memOk h
  | lend => exact execLend_memOk h
  | add | sub | and | or | xor | andn | shl | shr | sra | min | max | minu | maxu | mul | mulh | mulhu | adds | subs | addus
    | subus => exact runShared_memOk h aluRR_keeps
  | sextb | sexth | sextw | clz | popc => exact runShared_memOk h aluR_keeps
  | addi | andi | ori | xori | mini | maxi => exact runShared_memOk h aluRI_keeps
  | shli | shri | srai => exact runShared_memOk h aluShift_keeps
  | cmp => exact execCmp_memOk h
  | cmpi => exact execCmpi_memOk h
  | pand | por | pxor | pandn => exact runShared_memOk h predRR_keeps
  | pnot => exact execPnot_memOk h
  | ldp => exact execLdp_memOk h
  | sgwait => exact execSgwait_memOk h
  | sgraise => exact execSgraise_memOk h
  | repN => exact execRepN_memOk h
  | repReg => exact execRepReg_memOk h
  | accessPrefix => exact execAccessPrefix_memOk h
  | hint => exact execHint_memOk h
  | ldl => exact execLdl_memOk h
  | stl => exact execStl_memOk h
  | ldc => exact execLdc_memOk h
  | stc => exact execStc_memOk h
  | ldcx => exact execLdcx_memOk h
  | stcx => exact execStcx_memOk h
  | ldg | ldo => exact runAp_memOk h (loadScratch_keeps .pure)
  | stg | sto => exact runAp_memOk h (storeScratch_keeps .pure)
  | ldd | ldh => exact runAp_memOk h loadVirtual_keeps
  | lddQ | ldhQ => exact runAp_memOk h loadQueue_keeps
  | std | sth => exact runAp_memOk h storeVirtual_keeps
  | amoAdd | amoAnd | amoOr | amoXor | amoSmax | amoSmin | amoUmax | amoUmin | amoSwap | amoCas => exact runAp_memOk h amo_keeps
  | waita => exact execWaita_memOk h
  | facq => exact execFacq_memOk h
  | frel => exact execFrel_memOk h
  | facqrel => exact execFacqrel_memOk h
  | cinv => exact execCinv_memOk h
  | dcfence => exact execDcfence_memOk h
  | sbaseD | sbase | sset => exact runAp_memOk h (.bind newVersion_keeps fun _ => .pure)
  | sld => exact execSld_memOk h
  | sst => exact execSst_memOk h
  | sget | csrr => exact runAp_memOk h (.get fun _ _ => .bind wrA_keeps fun _ => .pure)
  | xpop => exact execXpop_memOk h
  | xpush => exact execXpush_memOk h
  | cvt => exact execCvt_memOk h
  | vadd => exact execVadd_memOk h
  | vsub => exact execVsub_memOk h
  | vmul => exact execVmul_memOk h
  | vfma => exact execVfma_memOk h
  | vdiv => exact execVdiv_memOk h
  | vsqrt => exact execVsqrt_memOk h
  | vneg => exact execVneg_memOk h
  | vabs => exact execVabs_memOk h
  | vmin => exact execVmin_memOk h
  | vmax => exact execVmax_memOk h
  | vmov => exact execVmov_memOk h
  | vadds => exact execVadds_memOk h
  | vsubs => exact execVsubs_memOk h
  | vand => exact execVand_memOk h
  | vor => exact execVor_memOk h
  | vxor => exact execVxor_memOk h
  | vshl => exact execVshl_memOk h
  | vshr => exact execVshr_memOk h
  | vsra => exact execVsra_memOk h
  | vexp => exact execVexp_memOk h
  | vlog => exact execVlog_memOk h
  | vrsqrt => exact execVrsqrt_memOk h
  | vtanh => exact execVtanh_memOk h
  | vsigm => exact execVsigm_memOk h
  | vrsum => exact execVrsum_memOk h
  | vdot => exact execVdot_memOk h
  | vrmax => exact execVrmax_memOk h
  | vrmin => exact execVrmin_memOk h
  | vrsums => exact execVrsums_memOk h
  | vdots => exact execVdots_memOk h
  | vcvt => exact execVcvt_memOk h
  | vcvtH16 => exact execVcvtH16_memOk h
  | vcvtH32 => exact execVcvtH32_memOk h
  | vsign => exact execVsign_memOk h
  | vcmpgt => exact execVcmpgt_memOk h
  | vcmpge => exact execVcmpge_memOk h
  | vcmpeq => exact execVcmpeq_memOk h
  | vthr => exact execVthr_memOk h
  | vargmax => exact execVargmax_memOk h
  | vargmin => exact execVargmin_memOk h
  | vtopk => exact execVtopk_memOk h
  | mmz | mma | mdr | mxz | mxa | mld | seg | mxzHd16 | mxaHd16 | mxzHd32 | mxaHd32 => exact runAp_memOk h issueMat_keeps
  | tget => exact execTget_memOk h
  | tput => exact execTput_memOk h
  | tkill => exact execTkill_memOk h
  | copy | wqe => exact runAp_memOk h (.bind rdA_keeps fun _ => .bind checkBlock_keeps fun _ => issueCmd_keeps)
  | cnv | cnvH16 | cnvH32 => exact runAp_memOk h issueCnv_keeps
  | nbmv | nbmva => exact runAp_memOk h issueNb_keeps
  | rapp => exact execRapp_memOk h
  | publ => exact execPubl_memOk h
  | pull => exact execPull_memOk h
  | decl => exact execDecl_memOk h
  | ljoin | lst => exact runAp_memOk h latWrite_keeps
  | linc => exact execLinc_memOk h
  | lld => exact execLld_memOk h
  | lldt => exact execLldt_memOk h
  | csrw => exact execCsrw_memOk h
  | trap => exact execTrap_memOk h
  | mmzCmd | mmaCmd | mdrCmd | mxzCmd | mxaCmd | mldCmd => exact runMatrix_memOk h
  | segCmd => exact execSegCmd_memOk h
  | cpq => exact execCpq_memOk h
  | cvq => exact execCvq_memOk h
  | nbq => exact execNbq_memOk h
  | wqeCmd => exact execWqeCmd_memOk h
  | illegalCommand => exact execIllegalCommand_memOk h
  | engineSyncWaitDone => exact execEngineSyncWaitDone_memOk h
  | engineCommandComplete => exact execEngineCommandComplete_memOk h
  | nbPassStart => exact execNbPassStart_memOk h
  | nbPassComplete => exact execNbPassComplete_memOk h
  | blockEnd => exact execBlockEnd_memOk h
  | progressTrap => exact execProgressTrap_memOk h
  | ringcfgWrite => exact execRingcfgWrite_memOk h
  | pinopExtend => exact execPinopExtend_memOk h
  | pinopForceRelease => exact execPinopForceRelease_memOk h
  | pinopRepublish => exact execPinopRepublish_memOk h
  | pinDeadlineExpiry => exact execPinDeadlineExpiry_memOk h
  | pswinWrite | psrateWrite => exact h.modPort
  | rgctlInstallRegion => exact execRgctlInstallRegion_memOk h
  | rgctlRetireRegion => exact execRgctlRetireRegion_memOk h
  | rgctlInstallSchedule => exact execRgctlInstallSchedule_memOk h
  | apctlInstall => exact execApctlInstall_memOk h
  | apctlRetire => exact execApctlRetire_memOk h
  | tqctlConfigure => exact execTqctlConfigure_memOk h
  | tqctlDisable => exact execTqctlDisable_memOk h
  | tlbopInvalidateVa | tlbopInvalidateAsid | tlbopInvalidateAll => exact h.tlbRow
  | ualpeerQuery => exact execUalpeerQuery_memOk h
  | ualpeerRelease => exact execUalpeerRelease_memOk h
  | pktNop => exact execPktNop_memOk h
  | pktWrite => exact execPktWrite_memOk h
  | pktWriteAdd => exact execPktWriteAdd_memOk h
  | pktWaitmem => exact execPktWaitmem_memOk h
  | pktCond => exact execPktCond_memOk h
  | pktIb => exact execPktIb_memOk h
  | pktLoop => exact execPktLoop_memOk h
  | pktLoadslot => exact execPktLoadslot_memOk h
  | pktEvictslot => exact execPktEvictslot_memOk h
  | pktInvoke => exact execPktInvoke_memOk h
  | pktEvent => exact execPktEvent_memOk h
  | pktSummary => exact execPktSummary_memOk h
  | pktQcbSh => exact execPktQcbSh_memOk h
  | pktQcbCommit => exact execPktQcbCommit_memOk h
  | pktQcbRead => exact execPktQcbRead_memOk h
  | cricketHalt => exact execCricketHalt_memOk h
  | cricketLi => exact execCricketLi_memOk h
  | cricketLhi => exact execCricketLhi_memOk h
  | cricketAdd => exact execCricketAdd_memOk h
  | cricketSub => exact execCricketSub_memOk h
  | cricketAnd => exact execCricketAnd_memOk h
  | cricketOr => exact execCricketOr_memOk h
  | cricketXor => exact execCricketXor_memOk h
  | cricketSltu => exact execCricketSltu_memOk h
  | cricketAddi => exact execCricketAddi_memOk h
  | cricketShli => exact execCricketShli_memOk h
  | cricketShri => exact execCricketShri_memOk h
  | cricketPkt => exact execCricketPkt_memOk h
  | cricketSetpkt => exact execCricketSetpkt_memOk h
  | cricketLd => exact execCricketLd_memOk h
  | cricketSt => exact execCricketSt_memOk h
  | cricketLdr => exact execCricketLdr_memOk h
  | cricketStr => exact execCricketStr_memOk h
  | cricketBz => exact execCricketBz_memOk h
  | cricketBnz => exact execCricketBnz_memOk h
  | cricketLoop => exact execCricketLoop_memOk h
  | illegalInstruction => exact execIllegalInstruction_memOk h
  | notAPacket => exact execNotAPacket_memOk h
  | waitaWake => exact execWaitaWake_memOk h
  | waitaBoundWake => exact execWaitaBoundWake_memOk h
  | chainB => exact execChainB_memOk h
  | chainE => exact execChainE_memOk h
  | pfence => exact execPfence_memOk h
  | halt => exact execHalt_memOk h
  | tfence => exact execTfence_memOk h
  | yield => exact execYield_memOk h
  | yieldp => exact execYieldp_memOk h
  | haltComplete => exact execHaltComplete_memOk h
  | segmentCountOverrun => exact execSegmentCountOverrun_memOk h
  | wqeIssue => exact execWqeIssue_memOk h
  | workSignalArrival => exact execWorkSignalArrival_memOk h
  | wqeCompletion => exact execWqeCompletion_memOk h
  | leaseGrant => exact execLeaseGrant_memOk h
  | leaseIdleExpiry => exact execLeaseIdleExpiry_memOk h
  | storePerform => exact execStorePerform_memOk h
  | l1Writeback => exact execL1Writeback_memOk h
  | l1Drop => exact execL1Drop_memOk h
  | scratchCopyDrop => exact execScratchCopyDrop_memOk h
  | queueEntryFill => exact execQueueEntryFill_memOk h
  | loadDataReturn => exact execLoadDataReturn_memOk h
  | trapDelivery => exact execTrapDelivery_memOk h
  | shretRetry | shretSkip | shretFail => exact State.memOk.ite h.shret h
  | shadowFault => exact execShadowFault_memOk h
  | aflagsWrite => exact execAflagsWrite_memOk h
  | noticeDelivery => exact execNoticeDelivery_memOk h
  | pullRequestIssue => exact execPullRequestIssue_memOk h
  | pullRequestArrival => exact execPullRequestArrival_memOk h
  | pullServed => exact execPullServed_memOk h
  | declineArrival => exact execDeclineArrival_memOk h
  | pullUnitLanding => exact execPullUnitLanding_memOk h
  | routeAck => exact execRouteAck_memOk h
  | pullCompletion => exact execPullCompletion_memOk h
  | exchangeRoundStart => exact execExchangeRoundStart_memOk h
  | exchangeMerge => exact execExchangeMerge_memOk h
  | apertureRead => exact execApertureRead_memOk h
  | launchExpand => exact execLaunchExpand_memOk h
  | recordSelect => exact execRecordSelect_memOk h
  | gangStart => exact execGangStart_memOk h
  | preloadLoad => exact execPreloadLoad_memOk h
  | preloadActivate => exact execPreloadActivate_memOk h
  | preemptRequest => exact execPreemptRequest_memOk h
  | deadlineExpiry => exact execDeadlineExpiry_memOk h
  | strandSave => exact execStrandSave_memOk h
  | savedBankWrite => exact execSavedBankWrite_memOk h
  | strandRestore => exact execStrandRestore_memOk h
  | invocationReplay => exact execInvocationReplay_memOk h
  | invocationFail => exact execInvocationFail_memOk h
  | strandStateError => exact execStrandStateError_memOk h
  | queueDoorbell => exact execQueueDoorbell_memOk h
  | waitmemTimeout => exact execWaitmemTimeout_memOk h
  | pktFence => exact execPktFence_memOk h
  | pktFfence => exact execPktFfence_memOk h
  | cricketBudgetExceeded => exact execCricketBudgetExceeded_memOk h
  | qcbShadowWrite => exact execQcbShadowWrite_memOk h
  | qcbCommit => exact execQcbCommit_memOk h
  | watchdogRollback => exact execWatchdogRollback_memOk h
  | mboxSummary => exact execMboxSummary_memOk h
  | mboxStage => exact execMboxStage_memOk h
  | mboxVerifyWrite => exact execMboxVerifyWrite_memOk h
  | mboxResetBoot | hubReset => exact h.hubBoot
  | functionReady => exact execFunctionReady_memOk h
  | hostMemRead => exact execHostMemRead_memOk h
  | hostMemWrite => exact execHostMemWrite_memOk h
  | hostCacheInvalidate => exact execHostCacheInvalidate_memOk h
  | inboundRead => exact execInboundRead_memOk h
  | inboundWrite => exact execInboundWrite_memOk h
  | inboundAtomic => exact execInboundAtomic_memOk h
  | inboundNotice => exact execInboundNotice_memOk h
  | podReplyArrival => exact execPodReplyArrival_memOk h
  | peerTimeoutReissue => exact execPeerTimeoutReissue_memOk h
  | peerQuarantine => exact execPeerQuarantine_memOk h
  | sramUncorrectableError => exact execSramUncorrectableError_memOk h
  | powerThrottle => exact execPowerThrottle_memOk h
  | streamElementArrival => exact execStreamElementArrival_memOk h
  | correctableError => exact execCorrectableError_memOk h
  | powerOn => exact execPowerOn_memOk h
  | corePowerGate => exact execCorePowerGate_memOk h
  | corePowerUngate | uzoantHalt | uzoantResume => exact h.modCore
  | uzoantWrite => exact execUzoantWrite_memOk h
  | uzoantLaunch => exact execUzoantLaunch_memOk h

/-! ### Choosing what runs -/

theorem State.memOk.apWord (h : s.memOk) {w} : Todo.memOk (s.apWord w) := by
  unfold State.apWord
  split
  · split
    all_goals exact h
  · split
    · split
      next e =>
        have ht := KeptSome.some h.passInChain e
        refine match_ite ?_ ?_
        · exact ht
        · exact h
      · exact h
    · refine match_ite (P := Todo.memOk) ?_ ?_
      · exact h
      · split
        · refine match_ite (P := Todo.memOk) ?_ ?_
          · exact h.passTrap
          · exact h
        · refine match_ite (P := Todo.memOk) ?_ ?_
          · exact h
          · exact h.apPass

theorem State.memOk.fetched (h : s.memOk) {w} : Todo.memOk (s.fetched w) := by
  unfold State.fetched
  dsimp only
  split
  · exact h.missed.takeTrap
  next e =>
    have ht := KeptPair.ok h.translate e
    refine match_ite ?_ ?_
    · exact ht.takeTrap
    · exact ht.apWord

theorem State.memOk.activeTodo (h : s.memOk) : Todo.memOk s.activeTodo := by
  unfold State.activeTodo
  refine match_ite (P := Todo.memOk) ?_ ?_
  · exact h
  · refine match_ite (P := Todo.memOk) ?_ ?_
    · exact h.modAp
    · refine match_ite (P := Todo.memOk) ?_ ?_
      · exact h
      · split
        · refine match_ite (P := Todo.memOk) ?_ ?_
          all_goals exact h
        · exact h
        · refine match_ite (P := Todo.memOk) ?_ ?_
          · exact h
          · split
            · exact h.fetched
            · exact h.takeTrap

theorem State.memOk.shadowTodo (h : s.memOk) : Todo.memOk s.shadowTodo := by
  unfold State.shadowTodo
  refine match_ite (P := Todo.memOk) h ?_
  have hl : M.Left (shadowWord 2 s.wordPc s) := shadowWord_keeps _ h
  generalize shadowWord 2 s.wordPc s = r at hl ⊢
  rcases r with (_ | _ | _) | ⟨x, t⟩
  · exact State.memOk.takeTrap (KeptSome.getD hl h)
  · exact h
  · exact h.podAsk
  · have ht : t.memOk := hl
    refine match_ite (P := Todo.memOk) ht.takeTrap ?_
    split
    all_goals exact ht

theorem State.memOk.apTodo (h : s.memOk) : Todo.memOk s.apTodo := by
  unfold State.apTodo
  refine match_ite (P := Todo.memOk) ?_ ?_
  · exact h
  · split
    · exact h
    · exact h.shadowTodo
    · exact h.activeTodo

theorem State.memOk.epWord (h : s.memOk) : Todo.memOk s.epWord := by
  unfold State.epWord
  rcases Option.map decodeStrand (s.strand.image.word s.wordPcEp) with _ | _ | i
  · exact h
  · exact h.epPass.modEp
  · exact match_ite (P := Todo.memOk) h (match_ite (P := Todo.memOk) h.follow
      (match_some_ok (P := Todo.memOk) (fun _ => h.follow) h.epPass.modEp))

theorem State.memOk.epTodo (h : s.memOk) : Todo.memOk s.epTodo := by
  unfold State.epTodo
  dsimp only
  refine match_ite (P := Todo.memOk) ?_ ?_
  · exact h
  · refine match_ite (P := Todo.memOk) ?_ ?_
    · exact h.modEp
    · refine match_ite (P := Todo.memOk) ?_ ?_
      · exact h
      · refine match_ite (P := Todo.memOk) ?_ ?_
        · exact h
        · refine match_ite (P := Todo.memOk) ?_ ?_
          · exact h.epWord
          · exact h

theorem State.memOk.engineRun (h : s.memOk) {n} : Todo.memOk (s.engineRun n) := by
  unfold State.engineRun
  split
  · refine match_ite (P := Todo.memOk) ?_ ?_
    · exact h
    · exact h.upd
  · exact h

theorem State.memOk.engineTodo (h : s.memOk) {n} : Todo.memOk (s.engineTodo n) := by
  refine match_ite (P := Todo.memOk) h (match_ite (P := Todo.memOk) h ?_)
  cases (s.engine n).phase with
  | start => exact match_ite (P := Todo.memOk) h (match_ite (P := Todo.memOk) h h)
  | acquired => exact h.engineRun
  | handed => exact State.memOk.ite h.copyEnd h
  | _ => exact h

theorem State.memOk.raiseTodo (h : s.memOk) {n} : Todo.memOk (s.raiseTodo n) := by
  refine match_ite (P := Todo.memOk) (match_ite (P := Todo.memOk) h.apTodo h) ?_
  cases (s.engine n).phase with
  | performed | released => exact h.engineTodo
  | _ => exact h

theorem State.memOk.packetTodo (h : s.memOk) {q ws} : Todo.memOk (s.packetTodo q ws) := by
  unfold State.packetTodo
  refine match_ite (P := Todo.memOk) ?_ ?_
  · exact h
  · split
    · exact h
    · exact h.haltAt

theorem State.memOk.cricketTodo (h : s.memOk) {c r} : Todo.memOk (s.cricketTodo c r) :=
  match_ite (P := Todo.memOk) h (match_some_ok (P := Todo.memOk) (fun _ => h) h)

theorem State.memOk.headerTodo (h : s.memOk) {q ws} : Todo.memOk (s.headerTodo q ws) := by
  unfold State.headerTodo
  dsimp only
  split
  next r _ =>
    cases r.verdict with
    | some => exact h.packetTodo
    | none =>
      cases (s.queue q).cricket with
      | none => exact h.packetTodo
      | some c => exact h.cricketTodo
  · refine match_ite (P := Todo.memOk) ?_ ?_
    · exact h
    · refine match_ite (P := Todo.memOk) ?_ ?_
      · exact h.haltAt
      · refine match_ite (P := Todo.memOk) ?_ ?_
        · exact h.modQueue
        · exact h.packetTodo

theorem State.memOk.queueTodo (h : s.memOk) {q} : Todo.memOk (s.queueTodo q) := by
  unfold State.queueTodo
  dsimp only
  refine match_ite (P := Todo.memOk) h.boundary (match_ite (P := Todo.memOk) h (match_ite (P := Todo.memOk) h
    (match_ite (P := Todo.memOk) h.fetchAhead ?_)))
  have hl : KeptPair ((s.fetchAhead q).packetWords q) := h.fetchAhead.packetWords
  generalize (s.fetchAhead q).packetWords q = r at hl ⊢
  rcases r with (_ | _) | ⟨_ | ws, t⟩
  · exact h.stopPacket
  · exact h.fetchAhead.podAsk
  · exact hl
  · exact State.memOk.headerTodo (State.memOk.upd hl)

theorem State.memOk.nextTurn (h : s.memOk) : (s.nextTurn).2.memOk := by
  unfold State.nextTurn
  split
  · exact h.upd
  · split
    · exact h.upd
    · dsimp only
      split
      · split
        · exact h
        · exact h.upd
        · exact h.upd
      · exact h.upd

theorem State.memOk.todo (h : s.memOk) {x} : Todo.memOk (s.todo x) := by
  cases x with
  | ap => exact h.apTodo
  | ep => exact h.epTodo
  | engine => exact h.engineTodo
  | raise => exact h.raiseTodo
  | queue => exact h.queueTodo
  | event => exact h.upd
  | upset => exact h.setArray
  | tick => exact h.tick

theorem State.memOk.pick (h : s.memOk) : Todo.memOk s.pick := h.nextTurn.focus.todo

theorem State.memOk.settled (h : s.memOk) : s.settled.memOk := h.upd

theorem settle_memOk {r : Answer} (hr : r.memOk) : (settle r).memOk := by
  cases r with
  | next t => exact State.memOk.settled hr
  | _ => exact hr

/-! ### The step -/

theorem step_memOk (h : s.memOk) : Answer.memOk (step s) := by
  have hp : s.pick.memOk := h.pick
  unfold step
  split
  next e =>
    rw [e] at hp
    exact settle_memOk (exec_memOk hp)
  next e =>
    rw [e] at hp
    exact State.memOk.settled hp

/-- Settles O21: what a step chooses has the form where the state has it (`State.memOk.pick`), each instruction keeps it
(`exec_memOk`), and so does what every step does last. -/
theorem memoryFormKept : Obligations.MemoryFormKept := by
  intro s t h e
  have hs := step_memOk h
  rw [e] at hs
  exact hs

end Sys2Proof.Machine
end

section
/-!
SUPPORT. Chains: how the EP enters one, what a turn inside it does, and how its last pass ends (R180, R182, R190 to R192).
-/
namespace Sys2Proof.Machine

/-! ### What a turn of the EP in a chain keeps -/

/-- A word of the EP that stays at its place is bound and blocked no more, and the replies that it has used are dropped. -/
theorem after_stay_ep (s t : State) (i : Instr) (h : s.epRuns i) :
    s.after t i .stay = (t.podDone 7).modEp fun e => { e with bind := .none, block := none } := after_ep s t i .stay h

/-- Once the AP has passed every word of a chain, the EP runs its passes without a limit. -/
theorem chainLimit_eq_none {s : State} {ch : Chain} (h : s.ep.seq + ch.words ≤ s.ap.seq) : s.chainLimit ch = none := if_pos h

/-- One clk of a pass counts the step and keeps the pass, its row and its lanes. -/
theorem ChainState.advance_fields (c : ChainState) (gs : List Stage) (ftz : Bool) (k : Nat) :
    (c.advance gs ftz k).1.step = c.step + 1 ∧ (c.advance gs ftz k).1.row = c.row ∧ (c.advance gs ftz k).1.pass = c.pass ∧
      (c.advance gs ftz k).1.lanes = c.lanes := ⟨rfl, rfl, rfl, rfl⟩

/-! ### `chain.b` and `chain.e` -/

/-- At `chain.b` the EP enters the chain that stands there, at the first pass of row 0, once the AP has passed all its words. -/
theorem exec_chainB_enters {s : State} {ch : Chain} (h : s.epRuns .chainB) (hch : s.strand.image.chain s.ep.pc = some ch)
    (hw : s.ep.seq + ch.words ≤ s.ap.seq) :
    exec .chainB s =
      .next (s.after (s.setChain (some (ChainState.start s.ep.pc 0 ((s.geometry ch.stages).lanes 0 0)))) .chainB .stay) := by
  refine runEp_after .chainB _ s _ .stay h ?_
  rw [M.get_bind, hch]
  simp only [chainLimit_eq_none hw, Option.isNone_none, true_or, if_true]
  rfl

/-- At `chain.e` the EP does one turn of the chain that it is inside. -/
theorem exec_chainE_of_turn {s t : State} {c : ChainState} {f : Flow} (h : s.epRuns .chainE) (hc : s.ep.chain = some c)
    (ht : chainTurn c s = .ok (f, t)) : exec .chainE s = .next (s.after t .chainE f) := by
  refine runEp_after .chainE _ s t f h ?_
  rw [M.get_bind, hc]
  exact ht

/-! ### A turn inside a chain -/

section Turn
variable {s : State} {ch : Chain} {c : ChainState}

/-- The state after one clk of a pass: the pass has advanced, and the steps that its cancellations save are counted. -/
def State.chainStepped (s : State) (ch : Chain) (c : ChainState) : State :=
  let r := c.advance ch.stages s.ftz (s.geometry ch.stages).k
  (s.setChain (some r.1)).modSys fun y => { y with digcancel := y.digcancel + BitVec.ofNat 64 r.2 }

/-- A pass that has entered and is not at its last step takes one step. -/
theorem chainTurn_steps (hch : s.strand.image.chain c.cpc = some ch) (he : c.entered = true)
    (hl : c.step < lastStep ch.stages) : chainTurn c s = .ok (.stay, s.chainStepped ch c) := by
  rw [chainTurn, M.get_bind, hch]
  simp only [he, hl, decide_true, Bool.and_self, if_true]
  rfl

/-- A pass at its last step is written once the row has been read ahead, however far the AP has checked. -/
theorem chainTurn_writes (hch : s.strand.image.chain c.cpc = some ch) (he : c.entered = true)
    (hl : lastStep ch.stages ≤ c.step) (hr : (s.geometry ch.stages).rowSize c.row ≤ c.ahead.length) :
    chainTurn c s = chainWrite ch ch.stages (s.geometry ch.stages) c s := by
  rw [chainTurn, M.get_bind, hch]
  simp only [he, Nat.not_lt.2 hl, decide_false, Bool.and_false, Bool.false_eq_true, Bool.not_true, Bool.false_and, if_false,
    if_true]
  cases s.chainLimit ch with
  | none => exact congrFun (if_neg (Nat.not_lt.2 hr)) s
  | some k => exact congrFun (if_neg (Nat.not_lt.2 ((Nat.min_le_left _ _).trans hr))) s

end Turn

/-! ### The end of a pass -/

/-- The EP leaves a chain: POS of every stream that the chain names is 0, and all its words but `chain.e` are passed. -/
def State.leaveChain (s : State) (ch : Chain) (gs : List Stage) : State :=
  let named := externals gs ++ (gs.filter (·.written)).flatMap (·.vec.sd.toList)
  (named.foldl (fun (u : State) k => u.modStream k fun x => x.setPos 0) (s.setChain none)).modEp
    fun e => { e with seq := e.seq + (ch.words - 1) }

/-- The last pass of the last row of a chain without a reducing link: its elements are written, and the EP leaves the chain for the
word behind `chain.e`. -/
theorem chainWrite_last {s t : State} {ch : Chain} {gs : List Stage} {geo : Geometry} {c : ChainState}
    (hred : ∀ g, gs.getLast? = some g → g.vec.linkKind ≠ .reduce) (hpass : 256 * c.pass + c.lanes = geo.rowSize c.row)
    (hrow : geo.count ≤ (c.row + 1) * geo.row)
    (hw : writeLanes gs s.ftz (c.row * geo.row + 256 * c.pass) 0 (c.entries.zip c.marks) s = .ok ((), t)) :
    chainWrite ch gs geo c s = .ok (.goto (ch.last + 4) false, t.leaveChain ch gs) := by
  have hnone : (gs.getLast?.filter fun g : Stage => g.vec.linkKind == LinkKind.reduce) = none := by
    simpa [Option.filter_eq_none_iff] using hred
  rw [chainWrite, M.get_bind, M.bind_ok hw]
  simp only [hnone, hpass, decide_true, Bool.not_true, Bool.false_eq_true, if_false, Nat.not_lt.2 hrow]
  rfl

/-! ### The obligation -/

/-- Settles O11: the EP enters at `chain.b` (`exec_chainB_enters`); inside the chain a turn is one step (`chainTurn_steps`) until the
last one, where it writes the pass (`chainTurn_writes`) and, after the last pass, leaves the chain (`chainWrite_last`). -/
theorem chainsRunInPasses : Obligations.ChainsRunInPasses := by
  refine ⟨fun s ch h hch hw => exec_chainB_enters h hch hw, ?_, ?_⟩
  · intro s ch c h hc hch he hl
    obtain ⟨hstep, hrow, hpass, hlanes⟩ := c.advance_fields ch.stages s.ftz (s.geometry ch.stages).k
    have hx := exec_chainE_of_turn h hc (chainTurn_steps hch he hl)
    rw [after_stay_ep s _ _ h] at hx
    exact ⟨_, _, hx, rfl, hstep, hrow, hpass, hlanes, rfl, rfl, rfl, rfl, rfl, rfl, rfl⟩
  · rintro s t ch c _ _ _ h hc hch rfl rfl he hl hred hahead hpass hw hrow rfl
    exact exec_chainE_of_turn h hc ((chainTurn_writes hch he hl hahead).trans (chainWrite_last hred hpass hw hrow))

end Sys2Proof.Machine
end
